-- ==== Sys2Proof/Word.lean ====
section
/-! DEFINITION. The word types of the FJ2: a g register is 64 bits (R198), memory is bytes (R331). -/

namespace Sys2Proof

/-- A g register, an address while it is computed, a CSR (R198). -/
abbrev Word := BitVec 64

/-- One byte of memory or of a vector register's storage. -/
abbrev Byte := BitVec 8

end Sys2Proof
end

