-- ==== Sys2Proof/Config.lean ====
section
/-! DEFINITION. What the spec leaves open as a value or to an implementation: constants with no body, so that no
proof can rest on one of their values. Each is named in a log entry under notes/assumptions/. -/

namespace Sys2Proof.Config

/-- A value the spec leaves undefined, drawn by the state's counter `fresh` (log 2). -/
opaque freeWord : Nat → BitVec 64

/-- The contents of a row of an undefined vector register (R108), by the counter (log 2). -/
opaque freeRow : Nat → BitVec 16384

/-- Arithmetic-clock cycles and nanoseconds that the n-th step takes (R438): the spec gives a step of the model no length
(log 2). -/
opaque stepCycles : Nat → Nat
opaque stepNanos : Nat → Nat

/-- Cycles of the first n steps. -/
def cycles : Nat → Nat
  | 0 => 0
  | n + 1 => cycles n + stepCycles n

/-- Nanoseconds of the first n steps. -/
def nanos : Nat → Nat
  | 0 => 0
  | n + 1 => nanos n + stepNanos n

/-- What a peer package's access tables answer to a request (R31): 0 admits, 1 to 5 are the reasons of R33.
Arguments: package, partition, package-local address, access kind, step (log 7). -/
opaque peerAnswer : Nat → Nat → Nat → Nat → Nat → BitVec 3

/-- The second-stage entry of a block that a peer package's KV controller holds (R119, R120): package, block, step
(log 7). -/
opaque peerEntry : Nat → Nat → Nat → BitVec 128

/-- The UALink station a request to a package leaves by, 0 to 7 (log 7). -/
opaque stationOf : Nat → BitVec 3

/-- The private receipt key of a boot, by BOOTID (R258, R270) (log 8). -/
opaque receiptKey : BitVec 32 → BitVec 256

/-- The nonce of an ECDSA signature, by the counter (log 8). -/
opaque signNonce : Nat → BitVec 256

/-- The private identity key of the device (R258), and the nonce of a boot's certificate, by BOOTID (log 8). -/
opaque identityKey : BitVec 256
opaque certNonce : BitVec 32 → BitVec 256

/-- A byte of a view page behind the certificate at offset 0x400 (R270), by BOOTID and offset (log 8). -/
opaque certByte : BitVec 32 → Nat → BitVec 8

/-- The check word of a frame's opaque part (R417, R418), by handle and partition (log 9). -/
opaque checkWord : Nat → Nat → BitVec 64

/-- Which of the duplicate elements of a VSTX.any survives (R182), by the counter (log 2). -/
opaque pickAny : Nat → Nat

/-- Which attached hart receives the next eight matrix rows (R219), by the counter (log 2). -/
opaque matRows : Nat → Nat

end Sys2Proof.Config
end

