-- ==== Sys2Proof/Syntax.lean ====
section
/-! DEFINITION. The instructions and events of the opcode table, one constructor a row.
Rows with an Isat form carry their operands; the 56 rows that no parcel encodes are events of the device
and carry what the event is about. -/

namespace Sys2Proof

/-- A register field naming g0 to g31 or v0 to v31 (R300, R302). -/
abbrev Reg := BitVec 5

/-- A mask register, an accumulator tile or a queue register number. -/
abbrev Idx3 := BitVec 3

/-- Acquire and release bits, width and scope of AMO and CAS (R309). -/
structure AmoOrd where
  /-- four bytes instead of eight -/
  w32 : Bool
  acq : Bool
  rel : Bool
  scope : BitVec 3
  deriving DecidableEq, Repr

/-- The governing mask of a long instruction: mask register and complement (R302). -/
structure MaskSel where
  m : Idx3
  inv : Bool
  deriving DecidableEq, Repr

/-- The second source of a vector instruction: vb, or gb when bs is 1 (R302, R347). -/
inductive Src2 where
  | v (r : Reg)
  | g (r : Reg)
  deriving DecidableEq, Repr

/-- The element type of a typed instruction (R346). -/
inductive ElemTy where
  | f32
  | bf16
  | f16
  | sint (ew : BitVec 2)
  | uint (ew : BitVec 2)
  deriving DecidableEq, Repr

/-- The operands of the two-source element-wise instructions of R357. -/
structure Ew2 where
  vd : Reg
  va : Reg
  b : Src2
  ty : ElemTy
  rnd : BitVec 2
  sat : Bool
  mask : MaskSel
  /-- the row selector of R302 -/
  row : Option (BitVec 3)
  deriving DecidableEq, Repr

/-- The operands of VABS and VNEG (R357). -/
structure Ew1 where
  vd : Reg
  va : Reg
  ty : ElemTy
  sat : Bool
  mask : MaskSel
  row : Option (BitVec 3)
  deriving DecidableEq, Repr

/-- The source and destination of a VCVT (R359). -/
inductive CvtForm where
  /-- format to format: `dst`, `src` -/
  | fmt (dst src : BitVec 4)
  /-- from an integer of width `ew`, unsigned when `uns` -/
  | fromInt (uns : Bool) (ew : BitVec 2) (dst : BitVec 4)
  /-- to an integer of width `ew`, unsigned when `uns` -/
  | toInt (uns : Bool) (ew : BitVec 2) (src : BitVec 4)
  deriving DecidableEq, Repr

/-- The operands of VQNT and VDQNT (R361, R362). -/
structure QntOp where
  vd : Reg
  va : Reg
  gb : Reg
  dst : BitVec 4
  src : BitVec 4
  rnd : BitVec 2
  sat : Bool
  mask : MaskSel
  /-- bit 44: the row selector is then imm16 bits 2:0, which are also the source code's -/
  row : Bool
  deriving DecidableEq, Repr

/-- The operands of a reduction or scan (R364, R365); `d` is gd, vd or the queue number. -/
structure RedOp where
  op : BitVec 3
  ty : ElemTy
  rnd : BitVec 2
  sat : Bool
  d : Reg
  va : Reg
  gb : Reg
  mask : MaskSel
  deriving DecidableEq, Repr

/-- The amount of a slide (R366). -/
inductive SlideAmt where
  | g (r : Reg)
  | imm (i : BitVec 16)
  deriving DecidableEq, Repr

/-- The operands of VTOPK (R369). -/
structure TopkOp where
  ty : ElemTy
  rnd : BitVec 2
  d : Reg
  va : Reg
  gb : Reg
  mask : MaskSel
  deriving DecidableEq, Repr

/-- The address form of VLD and VST (R370). -/
inductive MemForm where
  | unit
  | strided (gb : Reg)
  | rows (gb : Reg)
  deriving DecidableEq, Repr

/-- The operands of VLD and VST (R370). -/
structure VMemOp where
  ew : BitVec 2
  form : MemForm
  v : Reg
  ga : Reg
  off : BitVec 16
  mask : MaskSel
  row : Bool
  deriving DecidableEq, Repr

/-- The operands of VLDX and VSTX (R371); `vx` holds the indices. -/
structure VIdxOp where
  ew : BitVec 2
  v : Reg
  ga : Reg
  off : BitVec 16
  vx : Reg
  mask : MaskSel
  row : Bool
  deriving DecidableEq, Repr

/-- The operands of VAMO (R372). -/
structure VAmoOp where
  op : BitVec 3
  ty : ElemTy
  rnd : BitVec 2
  vd : Reg
  ga : Reg
  vx : Reg
  vc : Reg
  off : BitVec 14
  mask : MaskSel
  row : Bool
  deriving DecidableEq, Repr

/-- The elements a VWAIT reads (R373). -/
inductive WaitForm where
  | single
  | seq
  | idx (vx : Reg)
  deriving DecidableEq, Repr

/-- The field of a nest register that LNEST writes (R376). -/
inductive NestOp where
  | all (gb : Reg)
  | stride (j : BitVec 2)
  | cnt
  deriving DecidableEq, Repr

/-- The operands of MLINE and MDRAIN between a tile and a vector register (R389, R390). -/
structure LineOp where
  tile : Idx3
  fmt : BitVec 2
  rnd : BitVec 2
  sat : Bool
  v : Reg
  gb : Reg
  mask : MaskSel
  deriving DecidableEq, Repr

/-- The operands of MLINE and MDRAIN between a tile and memory (R389, R390). -/
structure LineMem where
  tile : Idx3
  fmt : BitVec 2
  rnd : BitVec 2
  sat : Bool
  ga : Reg
  gb : Reg
  deriving DecidableEq, Repr

/-- The operands of CPY (R403). -/
structure CpyOp where
  keep : Bool
  dims : BitVec 3
  tag : BitVec 6
  gd : Reg
  ga : Reg
  gb : Reg
  deriving DecidableEq, Repr

/-- The kind of a request (R28). -/
inductive AccKind where
  | read
  | write
  | fetch
  | atomic
  deriving DecidableEq, Repr

/-- A request that reaches a target (R22, R28): master, partition, package-local address, kind, bytes. -/
structure Request where
  master : BitVec 16
  part : BitVec 7
  addr : BitVec 64
  kind : AccKind
  /-- bytes read, or the bytes to write -/
  len : Nat
  data : List Byte
  deriving DecidableEq, Repr

/-- One region descriptor as root firmware writes it (R26). -/
structure RegionSpec where
  /-- target kind of R36, 0 to 7 -/
  kind : BitVec 3
  /-- instance of the target: die, core or 0 -/
  inst : BitVec 8
  index : BitVec 8
  word : BitVec 128
  deriving DecidableEq, Repr

/-- One access-table entry as root firmware writes it (R25). -/
structure EntrySpec where
  kind : BitVec 3
  inst : BitVec 8
  master : BitVec 16
  word : BitVec 64
  deriving DecidableEq, Repr

/-- One queue that root firmware opens (R260): control block address and privileged part. -/
structure QueueSpec where
  q : BitVec 8
  qcb : BitVec 64
  tickets : BitVec 16
  prodsig : List (BitVec 64)
  /-- the context of the partition that the queue serves -/
  ctx : Nat
  deriving DecidableEq, Repr

/-- One chunk of the KV pool that root firmware gives the package's KV controllers (R113, R119). -/
structure ChunkSpec where
  /-- block number: the entry of the second-stage table -/
  block : Nat
  /-- 0 tier 1, 1 tier 2, 2 tier 3 -/
  tier : BitVec 2
  addr : BitVec 44
  bytes : Nat
  deriving DecidableEq, Repr

/-- The partition that a migration moves, and the package that takes it (R72). -/
structure MigrationSpec where
  part : BitVec 7
  dest : BitVec 10
  deriving DecidableEq, Repr

/-- What root firmware is given when it creates a partition (R20, R273). -/
structure PartSpec where
  part : BitVec 7
  clusters : List (BitVec 6)
  entries : List EntrySpec
  regions : List RegionSpec
  /-- tenant fence policy (R171) -/
  tenant : Bool
  sliceUs : Nat
  /-- TROOT and KVROOT of each context (R43, R45) -/
  contexts : List (BitVec 64 × BitVec 64)
  /-- RECBASE of R145 -/
  recbase : BitVec 64
  kvQuota : Nat
  uperiod : BitVec 32
  /-- tier-1 region, base and bytes -/
  t1 : BitVec 44 × Nat
  /-- tier-2 region, base and bytes -/
  t2 : BitVec 44 × Nat
  /-- host-window and CXL-window regions, base and bytes (R20) -/
  host : BitVec 44 × Nat
  cxl : BitVec 44 × Nat
  queues : List QueueSpec
  chunks : List ChunkSpec
  /-- initial page-table image, as bytes at package-local addresses (R71) -/
  image : List (Nat × Byte)
  /-- aperture maps of the partition's function: offset, bytes, package-local address (R32) -/
  maps : List (Nat × Nat × Nat)
  deriving DecidableEq, Repr

/-- An image with the public key and the signature that come with it (R7, R274). -/
structure SignedImage where
  bytes : List Byte
  keyX : Nat
  keyY : Nat
  r : Nat
  s : Nat
  deriving DecidableEq, Repr

/-- One HDM decoder as root firmware programs it (R38, R439). -/
structure HdmSpec where
  base : BitVec 44
  bytes : Nat
  ways : Nat
  gran : Nat
  deriving DecidableEq, Repr

/-- What a start of the device meets (R274): the firmware images, and the outcomes of training and self-test. -/
structure BootIn where
  root : SignedImage
  /-- the scheduling firmware and every other image -/
  images : List SignedImage
  diesOk : Bool
  ucieOk : Bool
  t1Ok : Bool
  t2Ok : Bool
  /-- bit d: die d passed the VQ8 self-test (R133, R276) -/
  bist : BitVec 4
  /-- ready is declared within 2 s -/
  inTime : Bool
  /-- the second-stage KV table that root firmware lays out: base and entries (R119) -/
  stage2 : BitVec 44
  stage2Entries : Nat
  deriving DecidableEq, Repr

/-- The instructions and events of the opcode table. -/
inductive Instr where
  -- scalar class 00 (R308, R320 to R330)
  | add (w : Bool) (d a b : Reg)
  | sub (w : Bool) (d a b : Reg)
  | and (w : Bool) (d a b : Reg)
  | or (w : Bool) (d a b : Reg)
  | xor (w : Bool) (d a b : Reg)
  | shl (w : Bool) (d a b : Reg)
  | shr (w : Bool) (d a b : Reg)
  | sar (w : Bool) (d a b : Reg)
  | mul (w : Bool) (d a b : Reg)
  | mulh (u w : Bool) (d a b : Reg)
  | div (u w : Bool) (d a b : Reg)
  | rem (u w : Bool) (d a b : Reg)
  | min (u w : Bool) (d a b : Reg)
  | max (u w : Bool) (d a b : Reg)
  | slt (u w : Bool) (d a b : Reg)
  | clz (w : Bool) (d a : Reg)
  | ctz (w : Bool) (d a : Reg)
  | popc (w : Bool) (d a : Reg)
  | ext (u w : Bool) (d a b : Reg)
  | addi (d a : Reg) (imm : BitVec 14)
  | andi (d a : Reg) (imm : BitVec 14)
  | ori (d a : Reg) (imm : BitVec 14)
  | xori (d a : Reg) (imm : BitVec 14)
  | shli (d a : Reg) (sh : BitVec 6)
  | shri (d a : Reg) (sh : BitVec 6)
  | sari (d a : Reg) (sh : BitVec 6)
  | slti (d a : Reg) (imm : BitVec 14)
  | lih (d : Reg) (imm : BitVec 19)
  | fadd (t rnd : BitVec 2) (d a b : Reg)
  | fsub (t rnd : BitVec 2) (d a b : Reg)
  | fmul (t rnd : BitVec 2) (d a b : Reg)
  | fdiv (t rnd : BitVec 2) (d a b : Reg)
  | fsqrt (t rnd : BitVec 2) (d a : Reg)
  | fma (t rnd : BitVec 2) (d a b : Reg)
  | fmin (t : BitVec 2) (d a b : Reg)
  | fmax (t : BitVec 2) (d a b : Reg)
  | fcmp (cond t : BitVec 2) (d a b : Reg)
  | fcvt (dst src rnd : BitVec 2) (d a : Reg)
  | qput (q : Idx3) (a : Reg)
  | qget (d : Reg) (q : Idx3)
  | qstat (d : Reg) (q : Idx3)
  | gbar
  /-- the gang, by the number of its lowest hart -/
  | gbarAllArrived (gang : Nat)
  -- scalar class 01 (R309, R331 to R345)
  | ldB (d a : Reg) (imm : BitVec 14)
  | ldH (d a : Reg) (imm : BitVec 14)
  | ldW (d a : Reg) (imm : BitVec 14)
  | ldD (d a : Reg) (imm : BitVec 14)
  | ldBu (d a : Reg) (imm : BitVec 14)
  | ldHu (d a : Reg) (imm : BitVec 14)
  | ldWu (d a : Reg) (imm : BitVec 14)
  | stB (a b : Reg) (imm : BitVec 14)
  | stH (a b : Reg) (imm : BitVec 14)
  | stW (a b : Reg) (imm : BitVec 14)
  | stD (a b : Reg) (imm : BitVec 14)
  | amoSwap (o : AmoOrd) (d a b : Reg)
  | amoAdd (o : AmoOrd) (d a b : Reg)
  | amoAnd (o : AmoOrd) (d a b : Reg)
  | amoOr (o : AmoOrd) (d a b : Reg)
  | amoXor (o : AmoOrd) (d a b : Reg)
  | amoMin (o : AmoOrd) (d a b : Reg)
  | amoMax (o : AmoOrd) (d a b : Reg)
  | cas (o : AmoOrd) (d a b : Reg)
  | beq (a b : Reg) (imm : BitVec 14)
  | bne (a b : Reg) (imm : BitVec 14)
  | blt (a b : Reg) (imm : BitVec 14)
  | bge (a b : Reg) (imm : BitVec 14)
  | bltu (a b : Reg) (imm : BitVec 14)
  | bgeu (a b : Reg) (imm : BitVec 14)
  | bany (m : Idx3) (imm : BitVec 14)
  | ball (m : Idx3) (imm : BitVec 14)
  | bnone (m : Idx3) (imm : BitVec 14)
  | jmp (imm : BitVec 19)
  | call (d : Reg) (imm : BitVec 19)
  | jr (d a : Reg) (imm : BitVec 14)
  | fence (scope : BitVec 3) (acq rel : Bool)
  | sbar (streams : BitVec 8)
  | csrr (d : Reg) (csr : BitVec 14)
  | csrw (a : Reg) (csr : BitVec 14)
  | csrs (d a : Reg) (csr : BitVec 14)
  | csrc (d a : Reg) (csr : BitVec 14)
  | trap (code : BitVec 14)
  | brk (code : BitVec 14)
  | eret
  | wfe
  | wfeTimeout (h : Nat)
  | halt
  -- control parcels (R304, R305)
  | convoyHeader (units : BitVec 18) (cnt : BitVec 3)
  | nop32
  | impreciseTrapDelivery (h : Nat)
  | queuehang (h : Nat)
  -- length, rows and lanes (R351, R352)
  | vsetl (ew : BitVec 2) (d a : Reg)
  | vsetr (d a : Reg)
  | lanes (d a : Reg)
  | forkl (d : Reg) (off : BitVec 16)
  | joinl (a : Reg)
  -- masks and compares (R353, R354)
  | msetAll (md : Idx3) (row : Option (BitVec 3))
  | msetNone (md : Idx3) (row : Option (BitVec 3))
  | msetLt (md : Idx3) (ga : Reg) (row : Option (BitVec 3))
  | msetNz (ew : BitVec 2) (md : Idx3) (va : Reg) (row : Option (BitVec 3))
  | mlogic (op : BitVec 3) (md ma mb : Idx3) (row : Option (BitVec 3))
  | mpopc (d : Reg) (ma : Idx3)
  | mpopcQ (q : Idx3) (ma : Idx3)
  | mfirst (d : Reg) (ma : Idx3)
  | mfirstQ (q : Idx3) (ma : Idx3)
  | vcmp (cond : BitVec 3) (md : Idx3) (va : Reg) (b : Src2) (ty : ElemTy) (rnd : BitVec 2) (mask : MaskSel)
      (row : Option (BitVec 3))
  -- moving elements (R355)
  | vget (u : Bool) (ew : BitVec 2) (d va gb : Reg)
  | vgetQ (u : Bool) (ew : BitVec 2) (q : Idx3) (va gb : Reg)
  | vput (ew : BitVec 2) (vd ga gb : Reg)
  | vmov (ew : BitVec 2) (vd va : Reg) (mask : MaskSel) (row : Option (BitVec 3))
  | vsplat (ew : BitVec 2) (vd gb : Reg) (mask : MaskSel) (row : Option (BitVec 3))
  | vsplatImm (ew : BitVec 2) (vd : Reg) (imm : BitVec 16) (mask : MaskSel) (row : Bool)
  | vsplatQ (ew : BitVec 2) (vd : Reg) (q : BitVec 2) (mask : MaskSel) (row : Option (BitVec 3))
  | viota (ew : BitVec 2) (vd ga gb : Reg) (mask : MaskSel) (row : Option (BitVec 3))
  | vsel (ew : BitVec 2) (vd va vb : Reg) (mask : MaskSel) (row : Option (BitVec 3))
  -- arithmetic, logic and shifts (R357)
  | vadd (o : Ew2)
  | vsub (o : Ew2)
  | vmul (o : Ew2)
  | vfma (o : Ew2)
  | vdiv (o : Ew2)
  | vmin (o : Ew2)
  | vmax (o : Ew2)
  | vabs (o : Ew1)
  | vneg (o : Ew1)
  | vand (o : Ew2)
  | vor (o : Ew2)
  | vxor (o : Ew2)
  | vshl (o : Ew2)
  | vshr (o : Ew2)
  -- special functions, conversion, quantising (R358 to R363)
  | vsfu (fn : BitVec 3) (fmt rnd : BitVec 2) (sat : Bool) (vd va : Reg) (mask : MaskSel) (row : Option (BitVec 3))
  | vcvt (form : CvtForm) (rnd : BitVec 2) (sat : Bool) (vd va : Reg) (mask : MaskSel) (row : Bool)
  | vhad (fmt rnd : BitVec 2) (vd va : Reg) (row : Option (BitVec 3))
  | vqnt (o : QntOp)
  | vqntSc (o : QntOp)
  | vdqnt (sc : Bool) (o : QntOp)
  | vlut (qf : BitVec 2) (g0 : BitVec 4) (rnd : BitVec 2) (vd va gb : Reg) (mask : MaskSel)
  -- reductions and rearrangements (R364 to R369)
  | vred (o : RedOp)
  | vredRow (o : RedOp)
  | vredQ (o : RedOp)
  | vscan (excl : Bool) (o : RedOp)
  | vslideUp (amt : SlideAmt) (ew : BitVec 2) (vd va : Reg) (mask : MaskSel)
  | vslideDn (amt : SlideAmt) (ew : BitVec 2) (vd va : Reg) (mask : MaskSel)
  | vperm (tile : Bool) (ew : BitVec 2) (vd va vb : Reg) (mask : MaskSel)
  | vcomp (ew : BitVec 2) (vd va : Reg) (mask : MaskSel)
  | vtopkIdx (o : TopkOp)
  | vtopkKey (o : TopkOp)
  | vtopkMask (o : TopkOp)
  -- vector memory (R370 to R374)
  | vld (o : VMemOp)
  | vst (o : VMemOp)
  | vldx (o : VIdxOp)
  | vstxOrd (o : VIdxOp)
  | vstxAny (o : VIdxOp)
  | vamo (o : VAmoOp)
  | vwait (cond : BitVec 3) (ew : BitVec 2) (ga gc : Reg) (form : WaitForm) (mask : MaskSel)
  | vwaitPoll (h : Nat)
  | vbind (vd ga : Reg) (slot : BitVec 2)
  | vunbind (vd : Reg)
  -- loop capture (R376 to R378)
  | lcap (n : BitVec 6)
  | lnest (nk : BitVec 3) (op : NestOp) (ga : Reg)
  | lrun (q : Bool) (dims : BitVec 3)
  | lwait
  -- matrix (R383 to R390)
  | mattach (d : Reg)
  /-- cluster, rows held by hart number -/
  | matrixRedivide (cluster : BitVec 6) (rows : List (Nat × Nat))
  | mdetach
  | mtile (t : Idx3) (r c : BitVec 2)
  | mtileOff (t : Idx3)
  | mclr (t : Idx3)
  | mpredRows (gb : Reg)
  | mpredCols (gb : Reg)
  | mpredK (gb : Reg)
  | mpredRowm (ma : Idx3)
  | mpredColm (ma : Idx3)
  | mpredAll
  | mksum (mc : Bool) (t : Idx3) (fa fb : BitVec 4) (rnd : BitVec 2) (ga gb gc : Reg)
  | mlineRrow (o : LineOp)
  | mlineRcol (o : LineOp)
  | mlineWrow (o : LineOp)
  | mlineWcol (o : LineOp)
  | mlineSt (o : LineMem)
  | mlineLd (o : LineMem)
  | mdrain (z : Bool) (o : LineOp)
  | mdrainSt (z : Bool) (o : LineMem)
  | mgroup (d : Reg) (members : BitVec 4)
  -- KV (R391 to R398)
  | kvctxCfg (d a b : Reg)
  | kvctxOpen (d a b : Reg)
  | kvctxClose (d a b : Reg)
  | kvctxCb (d a b : Reg)
  | kvctxPin (d a b : Reg)
  | kvapp (fmt : BitVec 2) (ga vb vc : Reg) (mask : MaskSel)
  | kvld (fmt rnd : BitVec 2) (sat : Bool) (vd ga : Reg) (mask : MaskSel) (row : Option (BitVec 3))
  | kvscore (fmt : BitVec 2) (vd ga vb : Reg) (mask : MaskSel) (row : Option (BitVec 3))
  | kvvqsLut (vd ga vb vc : Reg) (mask : MaskSel) (row : Option (BitVec 3))
  | kvvqsQ (qf : BitVec 2) (vd ga vb : Reg) (mask : MaskSel) (row : Option (BitVec 3))
  | kvacc (ga vb : Reg) (mask : MaskSel) (row : Option (BitVec 3))
  | kvcomp (d a b : Reg)
  | kvfree (a b : Reg)
  /-- block, new tier, new package-local address -/
  | kvBlockMigration (block : Nat) (tier : BitVec 2) (addr : BitVec 44)
  -- statistics (R399, R400)
  | srread (vd gb : Reg)
  | srreset (gb ga : Reg)
  | srbind (d : Reg) (slot : BitVec 2) (ga gb gc : Reg)
  -- recurrence (R401, R402)
  | lconv (comp : Bool) (fmt rnd : BitVec 2) (sat : Bool) (vd va vb : Reg) (mr : Idx3)
  | lcstateGet (fmt rnd : BitVec 2) (vd : Reg)
  | lcstatePut (fmt : BitVec 2) (va : Reg)
  | lcstateZero
  -- copy engine and tags (R403 to R407)
  | cpy (o : CpyOp)
  | cpyFill (o : CpyOp)
  | cpyHash (o : CpyOp)
  | cpyRing (o : CpyOp)
  | copyCommandRun (core : Nat)
  | copyCommandComplete (core : Nat)
  | copyCommandStop (core : Nat)
  | twait (d a : Reg)
  | twaitAny (d a : Reg)
  | tfirst (d a : Reg)
  | tfirstNw (d a : Reg)
  | tclr (d a : Reg)
  -- rings (R409 to R411)
  | rpush (ga vb : Reg) (c : BitVec 4)
  | rpull (vd ga : Reg) (c : BitVec 4)
  | reos (ga : Reg)
  | rstat (d ga : Reg)
  | rstatReset (ga : Reg)
  -- reversal (R413, R414)
  | revch (ga : Reg)
  | revret
  | revst (d : Reg) (depth : BitVec 3) (field : BitVec 4)
  | revabt
  -- constants and far calls (R415 to R417)
  | ldi (m : BitVec 2) (d : Reg) (imm : BitVec 32)
  | addil (d a : Reg) (imm : BitVec 32)
  | callf (d : Reg) (imm : BitVec 32)
  | callfR (d a : Reg) (imm : BitVec 32)
  -- system (R418 to R421, R65)
  | savev (ga : Reg)
  | restv (ga : Reg)
  | stepb
  | markres (d a b : Reg)
  | tlbinv (d a b : Reg)
  | tlbinvMove (d a b : Reg)
  | tlbinvWait (d a b : Reg)
  | tlbinvAll (d : Reg)
  | pinWaitPreempt (h : Nat)
  -- events of the memory system (R28 to R36, R90, R173, R179, R180)
  | targetRequest (r : Request)
  /-- function, aperture offset, kind, bytes read, bytes written -/
  | hostRequest (fn : BitVec 7) (off : BitVec 64) (kind : AccKind) (len : Nat) (data : List Byte)
  /-- requesting package, then the request as it arrives -/
  | peerRequest (pkg : BitVec 10) (r : Request)
  | leeCacheFill (die : BitVec 2) (part : BitVec 7) (addr : BitVec 64)
  | directoryRecall (line : BitVec 64)
  | actinv (value : BitVec 64)
  | actinvDone
  | linkReplay (link : BitVec 4) (source : BitVec 16) (seq : BitVec 16)
  | linkReset (link : BitVec 4)
  | linkRetrain (link : BitVec 4) (farReset : Bool)
  | linklost (link : BitVec 4)
  -- scheduling, power and debug (R202, R221 to R236)
  | preempt (job : Nat)
  /-- job, physical cores that take its cores' places, in order -/
  | resumeGang (job : Nat) (cores : List Nat)
  | powerCapChange (value : BitVec 64)
  | haltreq (h : Nat)
  | resume (h : Nat)
  | registerWrite (addr : BitVec 64) (value : BitVec 64)
  -- Sloisk (R260 to R276)
  | doorbell (fn : BitVec 7) (q : BitVec 8) (value : BitVec 64)
  /-- partition, queue, cores taken in JOBHART order -/
  | launch (part : BitVec 7) (q : BitVec 8) (cores : List Nat)
  | copy (part : BitVec 7) (q : BitVec 8)
  | signal (part : BitVec 7) (q : BitVec 8)
  | wait (part : BitVec 7) (q : BitVec 8)
  | waitSatisfied (part : BitVec 7) (q : BitVec 8)
  | writeSignal (part : BitVec 7) (q : BitVec 8)
  | barrier (part : BitVec 7) (q : BitVec 8)
  | measure (part : BitVec 7) (q : BitVec 8)
  | receipt (part : BitVec 7) (q : BitVec 8)
  | jobCompletion (job : Nat)
  /-- partition whose cluster or command core freed, the free cores a launch may take -/
  | strideSchedule (part : BitVec 7) (cores : List Nat)
  | timeSliceEnd (job : Nat)
  | packetDeferTimeout (part : BitVec 7) (q : BitVec 8)
  | usagePeriodEnd (part : BitVec 7)
  | partitionCreate (spec : PartSpec)
  | partitionTeardown (part : BitVec 7)
  | queueReopen (part : BitVec 7) (q : BitVec 8)
  | migrationStart (move : MigrationSpec)
  | generationSwitch (part : BitVec 7)
  /-- partition, package that takes it -/
  | migrationStopPhase (part : BitVec 7) (dest : BitVec 10)
  | hdmDecoderProgram (decoders : List HdmSpec)
  | boot (b : BootIn)
  | bootReadyTimeout
  | failedStartClear
  | rowStepBoundary (core : Nat)
  | kvBlockMoveDone (block : Nat)
  | firmwareImageLoad (image : SignedImage)
  deriving DecidableEq, Repr

end Sys2Proof
end

