-- ==== Sys2Proof/Machine/State.lean ====
section
/-! DEFINITION. The state of an FJ2 package as plain data, the reasons a step can stop, and the state after reset.
A map from numbers to register contents is a list of pairs whose keys rise strictly and that holds no entry equal
to what an unlisted key reads as (Cells). -/

namespace Sys2Proof.Machine

/-- A sparse map in canonical form: keys strictly rising, no entry equal to the default of its reader. -/
abbrev Cells (β : Type) := List (Nat × β)

/-- Why the machine stops with a fault. No meaning of this model raises one on ordinary data. -/
inductive Fault where
  /-- raised by step when the agent whose turn it is names no hart of the package (R13: 0 to 2,047); safe: no run
  from reset reaches it -/
  | noSuchHart (h : Nat)
  deriving DecidableEq, Repr

/-- Why an instruction has no meaning. -/
inductive Refusal where
  /-- raised by an arm of exec whose instruction has no meaning yet; safe -/
  | notModelled (mnemonic : String)
  deriving DecidableEq, Repr

/-- Whose move is next: a hart's scalar unit, a core's copy engine, a core's lane arbiter, Sloisk (log 3). -/
inductive Turn where
  | hart (h : Nat)
  | engine (core : Nat)
  | lanes (core : Nat)
  /-- the command complex -/
  | sloisk
  deriving DecidableEq, Repr

/-- What a hart does (R207, R236, R344, R345). A pre-empted hart is in a switch record. -/
inductive RunState where
  /-- no launch has placed the hart -/
  | off
  /-- placed in its gang as an idle hart, or joined after its HALT: free for FORKL -/
  | free
  | running
  /-- parked by WFE -/
  | parked
  | halted
  /-- stopped for the debug port -/
  | stopped
  deriving DecidableEq, Repr

/-- A fault of an access or operand, before it is delivered: the cause of R231 and what its trap CSRs receive. -/
structure Flt where
  cause : Nat
  addr : Word
  stat : Word
  deriving DecidableEq, Repr

/-- The stream fields of a frame (R59, R436). -/
structure FaultStream where
  fvalid : Bool
  fewlog : Nat
  fkind : Nat
  fstream : Nat
  fstride : Int
  fremain : Nat
  deriving DecidableEq, Repr

/-- An imprecise trap detected and not yet delivered (R57, R226). -/
structure PendTrap where
  flt : Flt
  /-- address of the long instruction -/
  lpc : Word
  elem : Nat
  /-- SBAR bit number of the stream that raised it -/
  stream : Nat
  fs : FaultStream
  deriving DecidableEq, Repr

/-- What a long instruction takes with it when it enters its queue (R201, R212), and the privilege of R49. -/
structure LCtx where
  g : Cells Word
  vl : Nat
  rc : Nat
  vgrant : Nat
  pc : Word
  handler : Bool
  /-- LRUN: the nest registers as they stood at the push (R378); a body instruction: how far its slot is moved -/
  nest : List (BitVec 256)
  move : Int
  /-- a body instruction that LRUN replays reports FKIND 3 (R436) -/
  inNest : Bool
  /-- order of the push among the hart's queues (R212) -/
  seq : Nat
  /-- the binding in progress performs one row (R205, R218) -/
  byRow : Bool
  /-- a convoy's instruction: the convoy's number, 0 for none (R217) -/
  conv : Nat
  /-- a convoy's instruction: the sweep index up to which it may be performed, 0 for no bound (R217) -/
  upto : Nat
  /-- the widest element of the instruction in bits, 0 where R203 counts none: it gives a convoy's element groups (R217) -/
  width : Nat
  deriving DecidableEq, Repr

/-- One entry of the vector or matrix instruction queue. -/
structure QEntry where
  instr : Instr
  ctx : LCtx
  /-- first element not performed (R200) -/
  vstart : Nat
  /-- the record scale already read (R155), or what else an interrupted instruction keeps -/
  kept : List Nat
  /-- the sources read of the element whose access waits (R162) -/
  got : List Nat
  /-- LRUN: the captured body (R378) -/
  body : List (Instr × LCtx)
  /-- a convoy's instruction that is performed and waits for the convoy's end (R217) -/
  fin : Bool
  deriving DecidableEq, Repr

/-- A scalar store that has passed its translation and its checks and is not yet performed (R160): where it goes. -/
structure LateStore where
  va : Nat
  pkg : Nat
  a : Nat
  leaf : Nat
  lvl : Nat
  handler : Bool
  data : List Byte
  deriving DecidableEq, Repr

/-- What a convoy that has begun an element group goes back to when it stops before the group's end (R217): its queue
entries and the registers that its instructions write. -/
structure Snap where
  entries : List QEntry
  v : Cells (BitVec 16384)
  ext : Cells Nat
  m : Cells (BitVec 2048)
  acc : Cells (BitVec 4096)
  deriving DecidableEq, Repr

/-- Lines of 256 bytes, from `lo` up to but not `hi`, that an engine owns in the directory (R172): its number as an
agent, the hart whose access it performs, when it took the access, and whether another agent has had them recalled
(R173). -/
structure Owned where
  lo : Nat
  hi : Nat
  owner : Nat
  hart : Nat
  since : Nat
  recalled : Bool
  deriving DecidableEq, Repr

/-- A copy command (R94) with its progress. -/
structure CopyCmd where
  hart : Nat
  part : BitVec 7
  handler : Bool
  src : Word
  dst : Word
  blk : Nat
  dims : Nat
  tag : Nat
  /-- 0 copy, 1 fill, 2 hash -/
  mode : Nat
  keep : Bool
  ring : Bool
  nest : List (BitVec 256)
  pc : Word
  /-- 3 for stream C, 7 for the sequencer's copies (stream E) -/
  stream : Nat
  /-- blocks performed -/
  blocks : Nat
  /-- bytes of the current block written -/
  bytes : Nat
  /-- bytes of the current block read and not yet written (R97); the block is read whole when these and those written
  make it up -/
  buf : List Byte
  /-- hash mode: state and bytes not yet taken (R99) -/
  hash : List (BitVec 32)
  tail : List Byte
  /-- 0 to run, 1 performed, 2 stopped with an error, 3 stopped at a PAGE fault, 4 a snapshot copy that stopped with an
  error and is issued again (R247) -/
  phase : Nat
  /-- the engine performs it; else it waits in its hart's copy queue (R98) -/
  begun : Bool
  /-- when the engine took its lines (R172): 1 + the step, 0 before -/
  taken : Nat
  /-- engine turns for which a full ring has stalled it (R210) -/
  stalled : Nat
  deriving DecidableEq, Repr

/-- What is left of the schedule of R245, in order. -/
inductive Task where
  /-- the forward sweep's next step -/
  | sweep (j : Nat)
  | reverse (l r s : Nat) (descent : Bool)
  /-- the loop of reverse with s = 0: the adjoints i down to l are left -/
  | loop (l i : Nat)
  /-- advance x_j to x_m -/
  | advance (j m : Nat)
  | snap (m : Nat)
  | free (m : Nat)
  | adj (i : Nat)
  /-- verify mode (R253): record x_j, compare a state just recomputed, compare the slot that holds x_j -/
  | record (j : Nat)
  | check (j : Nat)
  | checkSlot (j : Nat)
  | done
  deriving DecidableEq, Repr

/-- One entry of the chain stack: the frame of R238 as the sequencer keeps it, and its position in R245. -/
structure Chain where
  frame : Word
  ret : Word
  n : Nat
  tier : Nat
  depth : Nat
  slots : Nat
  step : Word
  adj : Word
  slotBase : Word
  stateB : Nat
  inrout : Bool
  aborted : Bool
  verify : Bool
  phase : Nat
  curidx : Nat
  retarget : BitVec 32
  nextadj : BitVec 32
  fsteps : BitVec 32
  slotMap : Word
  /-- index of the state in each slot, none when it is empty -/
  map : List (Option Nat)
  tasks : List Task
  /-- the routine call in progress: 0 a step, 1 an adjoint, with its index -/
  calling : Option (Nat × Nat)
  /-- state index and slot of the last snapshot copy issued (R247) -/
  lastSnap : Option (Nat × Nat)
  /-- the digest that the last verify hash gave, until the sequencer takes it (R246, R253) -/
  digest : Option Nat
  /-- the sequencer is between a REVCH or REVRET and the next call: that instruction goes on with `tasks` -/
  acting : Bool
  /-- a restore has brought the chain back: its frame in memory is to be written before the next routine call (R419) -/
  stale : Bool
  deriving DecidableEq, Repr

/-- A bound slot (R105, R107): register, record and reads made. -/
structure Binding where
  reg : Nat
  src : Word
  scale : Word
  zp : Word
  ctl : Word
  reads : Nat
  /-- a ring source: slots pulled since VBIND, and the bytes of those that the current read has pulled or found, the last
  one first (log 12) -/
  pulled : Nat
  buf : List (List Byte)
  deriving DecidableEq, Repr

/-- The carry of an LCONV row (R254): hi and lo in the format CF in which they were last written (R256, R401). -/
structure Carry where
  hi : Nat
  lo : Nat
  cf : Nat
  deriving DecidableEq, Repr

/-- A trap entry that waits for the hart's accesses on a link that is down, or, `framed`, for that of its frame (R180,
R221, R227). -/
structure TrapEntry where
  flt : Flt
  imp : Bool
  pc : Word
  lpc : Word
  elem : Nat
  vstart : Nat
  fs : FaultStream
  framed : Bool
  deriving DecidableEq, Repr

/-- The trap CSRs (R232). -/
structure TrapCsrs where
  cause : Word
  pc : Word
  lpc : Word
  addr : Word
  elem : Word
  stat : Word
  vec : Word
  frame : Word
  /-- VSTART of the frame that the last trap entry wrote (R232) -/
  vstart : Word
  deriving DecidableEq, Repr

/-- The debug page of a hart (R234, R235), and what is suppressed or armed. -/
structure Debug where
  dctl : Word
  why : BitVec 8
  dpc : Word
  dframe : Word
  dbp : List Word
  dwa0 : Word
  dwa1 : Word
  dwk : Word
  /-- breakpoint matching is off for the next instruction (R342) -/
  suppress : Bool
  /-- stop after the next scalar (1) or long (2) instruction (R235) -/
  stepping : Nat
  /-- copy commands that the stop holds (R221, R236) -/
  held : List CopyCmd
  /-- the long instruction after which a step ends: the number of its push, while it is in a queue (R235) -/
  stepSeq : Nat
  /-- the gang has passed the GBAR at which the hart stands stopped (R195, R236) -/
  passed : Bool
  /-- a stop, with its reason, that waits until the accesses that the hart has issued are complete (R221, R427) -/
  due : Option Nat
  deriving DecidableEq, Repr

/-- The part of a hart that a trap frame, a switch record or a SAVEV frame holds (R57, R222, R418). -/
structure Regs where
  /-- g1 to g31, key the number -/
  g : Cells Word
  /-- vector rows of 2,048 bytes, key 8 × register + row -/
  v : Cells (BitVec 16384)
  /-- HWU + 1 of each v register holding unsaved results, absent when it is clean (R59) -/
  ext : Cells Nat
  /-- mask rows, key 8 × register + row -/
  m : Cells (BitVec 2048)
  q : Cells (List Word)
  n : Cells (BitVec 256)
  binds : Cells Binding
  carries : Cells Carry
  chains : List Chain
  deriving DecidableEq, Repr

/-- A hart (R198). -/
structure Hart where
  run : RunState
  pc : Word
  r : Regs
  /-- handler privilege (R225) -/
  handler : Bool
  -- grants (R199, R201, R202)
  vl : Nat
  rc : Nat
  vgrant : Nat
  lset : BitVec 8
  weight : BitVec 4
  -- launch values (R199, R232)
  jobhart : Word
  jobsize : Word
  argptr : Word
  part : BitVec 7
  /-- the context descriptor that the launch path wrote: its number, TROOT (R45) and KVROOT (R43) -/
  ctx : Nat
  troot : Word
  kvroot : Word
  job : Option Nat
  -- matrix state (R219, R380 to R384)
  acc : Cells (BitVec 4096)
  tileen : BitVec 64
  rowpred : BitVec 128
  colpred : BitVec 128
  klim : BitVec 32
  mgrant : Nat
  mgrp : Nat
  fflags : BitVec 7
  t : TrapCsrs
  scopecl : Word
  -- queues and work in flight
  vq : List QEntry
  mq : List QEntry
  pend : Option PendTrap
  /-- parcels performed since that trap was detected -/
  pendAge : Nat
  /-- LCAP: instructions left to capture, and the body so far (R377) -/
  capLeft : Nat
  body : List (Instr × LCtx)
  /-- a convoy header: instructions of its convoy left to push, and the convoy's number (R305) -/
  convLeft : Nat
  convId : Nat
  /-- the convoy at the head of the vector queue has begun an element group (R217) -/
  snap : Option Snap
  /-- scalar stores that are not yet performed, oldest first (R160) -/
  sbuf : List LateStore
  /-- the lines of 256 bytes that the instruction fetch has read since the hart's last FENCE, key the line's number by global
  address (R299) -/
  ibuf : Cells (List Byte)
  /-- the fetch pin (R63): page number, FRAME of the leaf, and 64 × U + 8 × level + target -/
  pin : Option (Nat × Nat × Nat)
  /-- copy commands saved in the frame of the trap that the hart handles, until RESTV or ERET (R103) -/
  frameC : List CopyCmd
  /-- RESTV has run since trap entry (R229) -/
  restored : Bool
  /-- stopped work that RESTV made pending (R419) -/
  stoppedV : List QEntry
  stoppedM : List QEntry
  stoppedC : List CopyCmd
  /-- the capture, the body and the convoy header in progress that a trap frame has given back: they are in force again when
  ERET is performed (R229, R419) -/
  stoppedCap : Option (Nat × List (Instr × LCtx) × Nat × Nat)
  /-- REVABT at handler privilege: where the following ERET returns (R250) -/
  revabt : Option (Word × Word)
  /-- turns without progress of the scalar unit's stall that counts, and the QUEUEHANG fault that it, or the vector
  queue's head, would take (R210) -/
  stalled : Nat
  stallS : Option Flt
  stallV : Option PendTrap
  /-- turns of that vector queue head without progress -/
  stalledV : Nat
  /-- the same of the matrix queue's head -/
  stallM : Option PendTrap
  stalledM : Nat
  /-- MKSUM.mc performed, and the operands of the last one: g(gb), B format, K (R387) -/
  mcDone : Nat
  mcLast : Option (Nat × Nat × Nat)
  /-- ordinal of the last MKSUM.mc that is complete -/
  mcFin : Nat
  /-- the hart was attached when it was pre-empted and attaches again before its next matrix instruction (R383) -/
  reattach : Bool
  /-- TLBINV.wait: the range that it waits for, first address and end (R66) -/
  invWait : Option (Nat × Nat)
  /-- the trap entry that goes on when the link is up again -/
  entry : Option TrapEntry
  /-- the lane arbiter: rows left of the instruction that the head last performed, and the row steps handed out to the hart,
  each counted by the inverse of its weight (R205, R206) -/
  rowDebt : Nat
  credit : Nat
  /-- row steps for which its head has waited for lane groups -/
  laneWait : Nat
  /-- GBAR: arrived and waiting (R330) -/
  arrived : Bool
  /-- FORKL: the hart that forked this one (R207) -/
  forkedBy : Option Nat
  /-- lowest hart of the gang (R208) -/
  gang : Nat
  dbg : Debug
  deriving DecidableEq, Repr

/-- The core's own state (R223) and its copy engine. -/
structure Core where
  pword : BitVec 32
  tagCount : Cells Nat
  tagErr : Word
  /-- SRBIND slots: offset, length, record (R400) -/
  srbind : Cells (Nat × Nat × Nat)
  q6 : List Word
  q7 : List Word
  revActive : Bool
  cmds : List CopyCmd
  deriving DecidableEq, Repr

/-- One access-table target's entries or descriptors, key target × 2^16 + master or target × 2^8 + index. -/
abbrev EntryTable := Cells (BitVec 64)
abbrev RegionTable := Cells (BitVec 128)

/-- A record of a fault log (R33, R131, R261, R262). -/
structure LogRec where
  part : Nat
  target : Nat
  master : Nat
  addr : Nat
  kind : Nat
  reason : Nat
  deriving DecidableEq, Repr

/-- A chunk of the KV pool (R113, R135). -/
structure Chunk where
  block : Nat
  tier : Nat
  addr : Nat
  bytes : Nat
  used : Bool
  /-- taken out of the pool after uncorrectable data (R131) -/
  retired : Bool
  deriving DecidableEq, Repr

/-- The shadow of a statistics record on a die (R152). -/
structure Shadow where
  absmax : Nat
  count : Nat
  nans : Nat
  infs : Nat
  bins : Cells Nat
  /-- step of the last fold into it (R153) -/
  used : Nat
  deriving DecidableEq, Repr

/-- What root firmware gives a context: the roots that the launch path puts into context descriptors (R43, R45). -/
structure Context where
  troot : Word
  kvroot : Word
  deriving DecidableEq, Repr

/-- A partition as root firmware keeps it (R18, R20). -/
structure Part where
  live : Bool
  tenant : Bool
  sliceUs : Nat
  contexts : List Context
  recbase : Word
  /-- regions of tier 1, tier 2, the host window and the CXL window: base and bytes (R20) -/
  t1 : Nat × Nat
  t2 : Nat × Nat
  host : Nat × Nat
  cxl : Nat × Nat
  uperiod : Nat
  /-- step up to which the meters of memory and pages held are counted (R271) -/
  metered : Nat
  /-- counters of R271 in whole units of the counter's remainder, key the counter's number -/
  meters : Cells Nat
  useq : Nat
  prevHash : BitVec 256
  /-- step at which the running usage period began -/
  usince : Nat
  /-- usage records that wait for a full ring (R272) -/
  ubuf : List (List Byte)
  /-- the final record of a teardown waits for room (R273) -/
  finalDue : Bool
  /-- its teardown has begun and waits for its harts (R273) -/
  closing : Bool
  overwrites : Nat
  denials : Nat
  ready : Bool
  /-- KV page quota and pages held (R136) -/
  kvQuota : Nat
  kvHeld : Nat
  /-- usage records delivered to the partition's own ring and to the operator's (R272; log 20) -/
  ringOwn : List (List Byte)
  ringOp : List (List Byte)
  deriving DecidableEq, Repr

/-- A queue (R260), as root firmware and the scheduler hold it. -/
structure Queue where
  qcb : Word
  part : BitVec 7
  /-- the context whose addresses the queue's packets name, and in which its jobs run (log 78) -/
  ctx : Nat
  /-- 0 closed, 1 open, 4 blocked, 5 stopped; an open one is idle, ready or running by its work -/
  state : Nat
  tickets : Nat
  pass : Nat
  step : Nat
  ovwr : Nat
  prodsig : List Word
  /-- the privileged part as last written back (R261) -/
  wrote : List Byte
  writeIdx : Nat
  readIdx : Nat
  lastStat : Nat
  lastIdx : Nat
  meas : BitVec 256
  mcount : Nat
  seq : Nat
  /-- hash state of a MEASURE saved at a step boundary (R268) -/
  hash : List (BitVec 32)
  /-- the packet at READIDX has begun and been charged (R266), and its bytes as it began -/
  begun : Bool
  pkt : List Byte
  /-- a command core works on it -/
  active : Bool
  /-- the compare and write-back of a switch (R261) wait for the link of its control block -/
  owed : Bool
  /-- doorbell values that wait for the same link (R262), oldest first -/
  bells : List Nat
  deriving DecidableEq, Repr

/-- A launched job (R265, R196, R421). -/
structure Job where
  part : Nat
  ctx : Nat
  queue : Nat
  index : Nat
  harts : List Nat
  cores : List Nat
  percore : Nat
  gangKind : Nat
  sig : Word
  status : Nat
  marks : List (Nat × Nat × Word × Word)
  /-- step at which its first hart started (R271) -/
  since : Nat
  live : Bool
  pword : BitVec 32
  /-- window slots of its cores: the cores of its launch (R82) -/
  slots : List Nat
  /-- pre-empted: its harts are in switch records -/
  parked : Bool
  /-- its slice ended while a packet of its queue was in progress (R268) -/
  sliceDue : Bool
  deriving DecidableEq, Repr

/-- A request that crossed a link and has no answer yet (R179, R180). -/
structure LinkReq where
  source : Nat
  seq : Nat
  req : Request
  /-- 0 load, 1 store, 2 atomic -/
  cls : Nat
  /-- hart whose access it is, if any, and its stream -/
  hart : Option Nat
  stream : Nat
  /-- the address it was translated from and the root of its context (R66) -/
  va : Nat
  root : Nat
  /-- privilege of the access -/
  handler : Bool
  /-- its target performed it before the link went down -/
  applied : Bool
  /-- the link and the tag under which it came to the package, of a request from outside (R179) -/
  via : Option (Nat × Nat)
  deriving DecidableEq, Repr

/-- A request from outside that has been admitted and waits for a line that an engine owns (R173), with the link and the tag
under which it came. -/
structure WaitReq where
  req : Request
  via : Option (Nat × Nat)
  deriving DecidableEq, Repr

/-- An entry of a reply cache (R179): the source, its tag, 0 or the reason of a denial, and the bytes of the reply. -/
structure LinkReply where
  source : Nat
  seq : Nat
  code : Nat
  data : List Byte
  deriving DecidableEq, Repr

/-- A switch record (R222): its first 64 bytes in the layout of R59, the cause PREEMPT, the hart as it stopped, and its
stopped copy commands. -/
structure SwitchRec where
  head : List Byte
  cause : Nat
  hart : Hart
  cmds : List CopyCmd
  /-- answers over links that the hart has still to take (R180) -/
  answers : List (Nat × LinkReq)
  /-- a member mask with which the hart waits at an MGROUP (R387) -/
  group : Option Nat
  deriving DecidableEq, Repr

/-- A core record (R223): bind slots, q6, q7, and the scratchpad's bytes by offset. -/
structure CoreRec where
  srbind : Cells (Nat × Nat × Nat)
  q6 : List Word
  q7 : List Word
  bytes : Cells Byte
  deriving DecidableEq, Repr

/-- A frame: what its opaque part stands for (R59, R236, R418; log 9). -/
structure FrameRec where
  hart : Nat
  /-- 0 trap frame, 1 SAVEV frame, 3 debug frame -/
  kind : Nat
  regs : Regs
  acc : Cells (BitVec 4096)
  vq : List QEntry
  mq : List QEntry
  cmds : List CopyCmd
  pend : Option PendTrap
  capLeft : Nat
  body : List (Instr × LCtx)
  /-- the convoy whose instructions are being pushed (R305) -/
  conv : Nat × Nat
  /-- VL, RC and VGRANT that stood -/
  vl : Nat
  rc : Nat
  vgrant : Nat
  pc : Word
  deriving DecidableEq, Repr

/-- One link (R179): its outstanding requests, its reply cache of 64 tags a source, and whether it is trained. -/
structure Link where
  outstanding : List LinkReq
  /-- loads and stores of harts that were sent again when the link retrained, each with its own tag, and are answered: a
  load with the bytes read. The hart has still to take the answer (R180) -/
  resend : List LinkReq
  replies : List LinkReply
  /-- next sequence tag of each source -/
  seqs : Cells Nat
  trained : Bool
  deriving DecidableEq, Repr

/-- The answer to a request (R33, R34): the master it goes to, 0 or the reason of its denial, 6 for one that its link lost,
and the bytes read. -/
structure Reply where
  master : Nat
  denied : Nat
  data : List Byte
  deriving DecidableEq, Repr

/-- The end of a job that has still to be shown in memory: status word and signal (R265). -/
structure EndSignal where
  part : Nat
  ctx : Nat
  sig : Nat
  status : Nat
  /-- the status is written, and the signal's addition is left -/
  written : Bool
  deriving DecidableEq, Repr

/-- The translation that a stream of a hart holds for the 64 KiB page it has entered (R54): the leaf and its level. `slot`
tells the hart's streams apart. -/
structure Held where
  hart : Nat
  slot : Nat
  page : Nat
  leaf : Nat
  lvl : Nat
  deriving DecidableEq, Repr

/-- A KV instruction that has reached a key (R139): its hart, the root and the key (or, for `all`, every key of its
sequence), what it does (0 reads and KVACC, 1 appends, 2 compacts, frees or closes), and whether its first walk is made. -/
structure KeyUse where
  hart : Nat
  /-- the privilege at which the instruction was pushed: that of a trap handler does not complete the interrupted one's -/
  handler : Bool
  root : Nat
  key : Nat
  all : Bool
  cls : Nat
  begun : Bool
  deriving DecidableEq, Repr

/-- A programmed HDM decoder: its range, interleave ways and granularity (R38, R439). -/
structure Hdm where
  base : Nat
  bytes : Nat
  ways : Nat
  gran : Nat
  deriving DecidableEq, Repr

/-- A live migration (R72, R73): the current write bitmap, the generation closed last and the one before it, by page
number; the switches made; the threshold of unsettled pages below which passes end; the package that takes it. -/
structure Migration where
  on : Bool
  dest : Nat
  /-- pass 0 has copied, but for the pages that were pinned then -/
  begun : Bool
  skipped : Cells Bool
  /-- its stop phase has begun and waits for harts or KV controllers (R74) -/
  stopping : Bool
  pass : Nat
  cur : Cells Bool
  old : Cells Bool
  older : Cells Bool
  threshold : Nat
  deriving DecidableEq, Repr

/-- Boot state (R274 to R276). -/
structure BootSt where
  /-- the vendor key hash in the fuses (R274) -/
  fuse : BitVec 256
  /-- the step at which the device's reset was released (R438) -/
  resetAt : Nat
  failCount : Nat
  bootId : BitVec 32
  minimal : Bool
  fails : Nat
  bist : BitVec 4
  reason : BitVec 24
  ready : Bool
  /-- the device accepts only a firmware image over the Tammas link (R275) -/
  imageOnly : Bool
  /-- the present start has been counted as failed (R274) -/
  failed : Bool
  deriving DecidableEq, Repr

/-- The machine. -/
structure State where
  -- the model's own (logs 2, 3)
  ticks : Nat
  fresh : Nat
  inbox : List Instr
  /-- writes that have reached a register of the CSR and MMIO region and take effect next (log 10) -/
  regWrites : List (Nat × Word)
  turn : Turn
  /-- the turns to come, each with whether its hart's long instructions and scalar stores wait (log 3), and whether those of
  the present turn do -/
  plan : List (Turn × Bool)
  late : Bool
  cur : Nat
  runAhead : Nat
  frames : Cells FrameRec
  -- memory by global physical address (R10, R11; log 4)
  mem : List Host.Cell
  /-- bytes that read as uncorrectable (R39, R131, R233), by global physical address -/
  poison : List Nat
  pkg : Nat
  -- access control (R19, R25 to R36, R439)
  accE : EntryTable
  accD : RegionTable
  rootCached : BitVec 8
  actDone : Bool
  actMaster : Option Nat
  actKinds : BitVec 8
  aperture : List (Nat × Nat × Nat × Nat)
  faultLog : List LogRec
  clusterOwner : Cells (BitVec 7)
  winMap : Cells (BitVec 8)
  hdm : List Hdm
  -- pages (R67, R69, R72)
  zeroPend : Cells Bool
  cmpHeld : Cells Bool
  /-- live migrations, by partition -/
  migr : Cells Migration
  -- lee caches (R90), key die × 2^64 + partition × 2^56 + line number; each 256 bytes
  lee : Cells (List Byte)
  -- statistics (R152), key die × 2^32 + partition × 2^16 + record
  shadows : Cells Shadow
  -- KV controllers (R113, R119, R136)
  stage2 : Nat
  stage2Entries : Nat
  chunks : List Chunk
  /-- KV instructions in progress on a key, and those that wait for one, in the order in which they reached it (R139) -/
  keyUses : List KeyUse
  /-- translations held by streams in progress (R54) -/
  held : List Held
  /-- lines that engines own while they perform an access (R172), the lines that their commands have still to read, and
  requests from outside that wait for an owned one (R173) -/
  owned : List Owned
  reading : List Owned
  waiting : List WaitReq
  -- partitions, queues and jobs
  parts : Cells Part
  queues : Cells Queue
  jobs : Cells Job
  harts : Cells Hart
  cores : Cells Core
  /-- MGROUP arrivals by cluster: hart, member mask (R387) -/
  mgroups : Cells (List (Nat × Nat))
  pwrcap : BitVec 64
  links : Cells Link
  /-- answers that the package has given to requests from outside its harts and engines (R33, R34) -/
  replies : List Reply
  /-- statuses and signals of ended jobs whose accesses meet a link that is down (R265) -/
  signals : List EndSignal
  boot : BootSt
  /-- switch records by 4,096 × job + JOBHART (R222), and core records by 2^32 × core + partition word (R79, R223) -/
  switches : Cells SwitchRec
  coreRecs : Cells CoreRec
  deriving DecidableEq, Repr

/-- Debug registers at reset: DCTL and DSTAT zero (R235); the others DESIGN CHOICE 0 (log 6). -/
def Debug.reset : Debug :=
  { dctl := 0, why := 0, dpc := 0, dframe := 0, dbp := [0, 0, 0, 0], dwa0 := 0, dwa1 := 0, dwk := 0,
    suppress := false, stepping := 0, held := [], stepSeq := 0, passed := false, due := none }

def TrapCsrs.reset : TrapCsrs :=
  { cause := 0, pc := 0, lpc := 0, addr := 0, elem := 0, stat := 0, vec := 0, frame := 0, vstart := 0 }

/-- Registers of a hart no launch has started: zero, empty, unbound (R199's values; log 6). -/
def Regs.reset : Regs :=
  { g := [], v := [], ext := [], m := [], q := [], n := [], binds := [], carries := [], chains := [] }

/-- A hart no launch has started (log 6). -/
def Hart.reset : Hart :=
  { run := .off, pc := 0, r := Regs.reset, handler := false, vl := 0, rc := 1, vgrant := 8, lset := 0xFF,
    weight := 8, jobhart := 0, jobsize := 0, argptr := 0, part := 0, ctx := 0, troot := 0, kvroot := 0, job := none, acc := [],
    tileen := 0,
    rowpred := BitVec.allOnes 128, colpred := BitVec.allOnes 128, klim := BitVec.allOnes 32, mgrant := 0, mgrp := 0,
    fflags := 0, t := TrapCsrs.reset, scopecl := 0, vq := [], mq := [], pend := none, pendAge := 0, capLeft := 0, body := [],
    convLeft := 0, convId := 0, snap := none, sbuf := [], ibuf := [],
    pin := none, frameC := [], restored := false, stoppedV := [], stoppedM := [], stoppedC := [],
    stoppedCap := none, revabt := none,
    stalled := 0, stallS := none, stallV := none, stalledV := 0, stallM := none, stalledM := 0, mcDone := 0, mcLast := none, mcFin := 0,
    reattach := false, invWait := none, entry := none, rowDebt := 0, credit := 0, laneWait := 0, arrived := false,
    forkedBy := none, gang := 0, dbg := Debug.reset }

/-- A core after reset: partition word 0 (R76), every tag ready, TAGERR 0 (R102). -/
def Core.reset : Core :=
  { pword := 0, tagCount := [], tagErr := 0, srbind := [], q6 := [], q7 := [], revActive := false, cmds := [] }

def Shadow.empty : Shadow :=
  { absmax := 0, count := 0, nans := 0, infs := 0, bins := [], used := 0 }

/-- A partition that does not exist; the slice is the default of R268, UPERIOD that of R271. -/
def Part.reset : Part :=
  { live := false, tenant := false, sliceUs := 2000, contexts := [], recbase := 0, t1 := (0, 0),
    t2 := (0, 0), host := (0, 0), cxl := (0, 0), uperiod := 1000, metered := 0, meters := [], useq := 0, prevHash := 0,
    usince := 0, ubuf := [], finalDue := false, closing := false, overwrites := 0, denials := 0,
    ready := false, kvQuota := 0, kvHeld := 0, ringOwn := [], ringOp := [] }

/-- An unopened queue (R260). -/
def Queue.reset : Queue :=
  { qcb := 0, part := 0, ctx := 0, state := 0, tickets := 0, pass := 0, step := 0, ovwr := 0, prodsig := [], wrote := [],
    writeIdx := 0, readIdx := 0, lastStat := 0, lastIdx := 0, meas := 0, mcount := 0, seq := 0, hash := [],
    begun := false, pkt := [], active := false, owed := false, bells := [] }

def Job.none : Job :=
  { part := 0, ctx := 0, queue := 0, index := 0, harts := [], cores := [], percore := 1, gangKind := 0, sig := 0, status := 0,
    marks := [], since := 0, live := false, pword := 0, slots := [], parked := false, sliceDue := false }

/-- No migration; the threshold is the default of R73. -/
def Migration.none : Migration :=
  { on := false, dest := 0, begun := false, skipped := [], stopping := false, pass := 0, cur := [], old := [], older := [],
    threshold := 1024 }

def Link.reset : Link := { outstanding := [], resend := [], replies := [], seqs := [], trained := true }

def SwitchRec.empty : SwitchRec := { head := [], cause := 0, hart := Hart.reset, cmds := [], answers := [], group := none }

def CoreRec.empty : CoreRec := { srbind := [], q6 := [], q7 := [], bytes := [] }

def FrameRec.empty : FrameRec :=
  { hart := 0, kind := 0, regs := Regs.reset, acc := [], vq := [], mq := [], cmds := [], pend := none, capLeft := 0, body := [],
    conv := (0, 0), vl := 0, rc := 1, vgrant := 8, pc := 0 }

/-- The machine right after reset: no hart runs, memory lists nothing, tables are empty but for the root core's
cached entry (R27), MROWS 4 and LGMAX 8 (R202), DONE 1 (R36). -/
def State.reset : State :=
  { ticks := 0, fresh := 0, inbox := [], regWrites := [], turn := .hart 0, plan := [], late := false, cur := 0, runAhead := 64, frames := [], mem := [],
    poison := [], pkg := 0, accE := [], accD := [], rootCached := 0xFF,
    actDone := true, actMaster := none, actKinds := 0, aperture := [], faultLog := [], clusterOwner := [],
    winMap := [], hdm := [], zeroPend := [], cmpHeld := [], migr := [], lee := [],
    shadows := [], stage2 := 0, stage2Entries := 0, chunks := [], keyUses := [], held := [], owned := [], reading := [], waiting := [], parts := [], queues := [],
    jobs := [], harts := [], cores := [], mgroups := [], pwrcap := 0x48, links := [], replies := [], signals := [],
    boot := { fuse := 0, resetAt := 0, failCount := 0, bootId := 0, minimal := false, fails := 0, bist := 0, reason := 0,
              ready := false, imageOnly := false, failed := false },
    switches := [], coreRecs := [] }

end Sys2Proof.Machine
end

