-- ==== Sys2Proof/Machine/Cells.lean ====
section
/-! DEFINITION. Reading and writing the sparse maps of State: a lookup with a default, and an update that keeps the
keys strictly rising and lists no default. The laws of a lookup after an update hold of every list. -/

namespace Sys2Proof.Machine

variable {β : Type}

/-- What key `k` reads as, `d` where it is not listed. -/
def cget (d : β) (k : Nat) : Cells β → β
  | [] => d
  | (i, x) :: r => if i = k then x else cget d k r

/-- The map without key `k`. -/
def cdel (k : Nat) : Cells β → Cells β
  | [] => []
  | (i, x) :: r => if i = k then cdel k r else (i, x) :: cdel k r

/-- An entry put in front of the first greater key. -/
def cinsert (k : Nat) (x : β) : Cells β → Cells β
  | [] => [(k, x)]
  | (i, y) :: r => if k < i then (k, x) :: (i, y) :: r else (i, y) :: cinsert k x r

/-- The map in which `k` reads as `x`; `d` is what an unlisted `k` reads as. -/
def cset [DecidableEq β] (d : β) (k : Nat) (x : β) (m : Cells β) : Cells β :=
  if x = d then cdel k m else cinsert k x (cdel k m)

/-- Keys strictly rising. -/
def cellsSorted : Cells β → Bool
  | [] => true
  | [_] => true
  | (i, _) :: (j, y) :: r => decide (i < j) && cellsSorted ((j, y) :: r)

/-- The canonical form: keys strictly rising, no entry equal to the default of its key. -/
def cellsWf [DecidableEq β] (d : Nat → β) (m : Cells β) : Bool :=
  cellsSorted m && m.all (fun p => decide (p.2 ≠ d p.1))

/-- The entries whose key satisfies `p`. -/
def ckeep (p : Nat → Bool) (m : Cells β) : Cells β := m.filter (fun e => p e.1)

/-- The map without the keys below `a`. -/
def cdrop (a : Nat) : Cells β → Cells β
  | [] => []
  | (i, x) :: r => if i < a then cdrop a r else (i, x) :: r

/-- The keys below `a`. -/
def ctake (a : Nat) : Cells β → Cells β
  | [] => []
  | (i, x) :: r => if i < a then (i, x) :: ctake a r else []

/-- `n` consecutive values from key `a` on, in a map that lists no key below `a`. -/
def crun (d : β) (a : Nat) : Nat → Cells β → List β
  | 0, _ => []
  | n + 1, [] => d :: crun d (a + 1) n []
  | n + 1, (i, x) :: r => if i = a then x :: crun d (a + 1) n r else d :: crun d (a + 1) n ((i, x) :: r)

/-- `n` consecutive values from key `a` on. -/
def cgetRange (d : β) (a n : Nat) (m : Cells β) : List β := crun d a n (cdrop a m)

/-- The entries that a run of values from key `a` on lists. -/
def centries [DecidableEq β] (d : β) (a : Nat) : List β → Cells β
  | [] => []
  | x :: r => if x = d then centries d (a + 1) r else (a, x) :: centries d (a + 1) r

/-- Write consecutive values from key `a` on. -/
def csetRange [DecidableEq β] (d : β) (a : Nat) (xs : List β) (m : Cells β) : Cells β :=
  ctake a m ++ (centries d a xs ++ cdrop (a + xs.length) m)

/-- Replace element `i` of a list; a list too short is left as it is. -/
def lset (x : β) : Nat → List β → List β
  | _, [] => []
  | 0, _ :: r => x :: r
  | n + 1, y :: r => y :: lset x n r

/-- A Bool as 0 or 1. -/
def b2n (b : Bool) : Nat := if b then 1 else 0

/-- Bits `lo .. lo + len − 1` of a number. -/
def bitsOf (x lo len : Nat) : Nat := x / 2 ^ lo % 2 ^ len

/-- The low `n` bits of `x` as a signed number. -/
def signed (n x : Nat) : Int :=
  let y := x % 2 ^ n
  if y < 2 ^ (n - 1) then (y : Int) else (y : Int) - (2 ^ n : Nat)

/-- An integer modulo 2^n. -/
def wrapTo (n : Nat) (z : Int) : Nat := (z % ((2 ^ n : Nat) : Int)).toNat

/-- `n` bytes of a number, least significant first (R281). -/
def toBytes (n x : Nat) : List Byte := (List.range n).map (fun i => BitVec.ofNat 8 (x / 2 ^ (8 * i)))

/-- The number little-endian bytes stand for (R281). -/
def ofBytes : List Byte → Nat
  | [] => 0
  | b :: r => b.toNat + 256 * ofBytes r

end Sys2Proof.Machine
end

