-- ==== Sys2Proof/Machine/Sha.lean ====
section
/-! DEFINITION. SHA-256 as the hash path and Sloisk compute it (R7, R99, R269, R270): FIPS 180-4 on byte strings. The
schedule is a window that slides with the rounds; the working words are the last four of each of two sequences. -/

namespace Sys2Proof.Machine

/-- Word `i` of a row of `n` words packed in a number, the first word on top. -/
def packedWord (row n i : Nat) : BitVec 32 := BitVec.ofNat 32 (row >>> (32 * (n - 1 - i)))

/-- The constants of rounds 16 r to 16 r + 15. -/
def roundRow : Nat → Nat
  | 0 => 0x428a2f9871374491b5c0fbcfe9b5dba53956c25b59f111f1923f82a4ab1c5ed5d807aa9812835b01243185be550c7dc372be5d7480deb1fe9bdc06a7c19bf174
  | 1 => 0xe49b69c1efbe47860fc19dc6240ca1cc2de92c6f4a7484aa5cb0a9dc76f988da983e5152a831c66db00327c8bf597fc7c6e00bf3d5a7914706ca635114292967
  | 2 => 0x27b70a852e1b21384d2c6dfc53380d13650a7354766a0abb81c2c92e92722c85a2bfe8a1a81a664bc24b8b70c76c51a3d192e819d6990624f40e3585106aa070
  | _ => 0x19a4c1161e376c082748774c34b0bcb5391c0cb34ed8aa4a5b9cca4f682e6ff3748f82ee78a5636f84c878148cc7020890befffaa4506cebbef9a3f7c67178f2

/-- The hash state before any byte. -/
def shaInit : List (BitVec 32) :=
  (List.range 8).map (packedWord 0x6a09e667bb67ae853c6ef372a54ff53a510e527f9b05688c1f83d9ab5be0cd19 8)

/-- The rotations of a word by the given counts, added without carry. -/
def spin (counts : List Nat) (x : BitVec 32) : BitVec 32 := counts.foldl (fun y n => y ^^^ x.rotateRight n) 0

def pick (x y z : BitVec 32) : BitVec 32 := z ^^^ (x &&& (y ^^^ z))
def most (x y z : BitVec 32) : BitVec 32 := (x &&& y) ||| (z &&& (x ||| y))

/-- The word that enters a window of sixteen words. -/
def nextWord (win : List (BitVec 32)) : BitVec 32 :=
  let old := win.getD 1 0
  let new := win.getD 14 0
  win.getD 0 0 + (spin [7, 18] old ^^^ (old >>> 3)) + win.getD 9 0 + (spin [17, 19] new ^^^ (new >>> 10))

/-- A block in work: the window, and the two sequences' last four words, newest first. -/
structure ShaWork where
  win : List (BitVec 32)
  p : List (BitVec 32)
  q : List (BitVec 32)
  deriving DecidableEq, Repr

/-- One round with its constant. -/
def shaTurn (k : BitVec 32) (x : ShaWork) : ShaWork :=
  let e := x.q.getD 0 0
  let a := x.p.getD 0 0
  let t := x.q.getD 3 0 + spin [6, 11, 25] e + pick e (x.q.getD 1 0) (x.q.getD 2 0) + k + x.win.getD 0 0
  { win := x.win.drop 1 ++ [nextWord x.win],
    p := (t + spin [2, 13, 22] a + most a (x.p.getD 1 0) (x.p.getD 2 0)) :: x.p.take 3,
    q := (x.p.getD 3 0 + t) :: x.q.take 3 }

/-- The block's bytes as words, first byte on top. -/
def blockWord (bs : List Byte) (i : Nat) : BitVec 32 := BitVec.ofNat 32 (ofBytes ((bs.drop (4 * i)).take 4).reverse)

/-- One block of 64 bytes. -/
def shaBlock (st : List (BitVec 32)) (bs : List Byte) : List (BitVec 32) :=
  let x := (List.range 64).foldl (fun x i => shaTurn (packedWord (roundRow (i / 16)) 16 (i % 16)) x)
    { win := (List.range 16).map (blockWord bs), p := st.take 4, q := st.drop 4 }
  (st.zip (x.p ++ x.q)).map (fun w => w.1 + w.2)

/-- Take whole blocks; `fuel` bounds their number. -/
def shaTake : Nat → List (BitVec 32) → List Byte → List (BitVec 32) × List Byte
  | 0, st, bs => (st, bs)
  | n + 1, st, bs => if bs.length < 64 then (st, bs) else shaTake n (shaBlock st (bs.take 64)) (bs.drop 64)

def shaFeed (st : List (BitVec 32)) (tail bs : List Byte) : List (BitVec 32) × List Byte :=
  let all := tail ++ bs
  shaTake (all.length / 64 + 1) st all

/-- The digest after `n` bytes in all, of which `tail` are not yet taken. -/
def shaEnd (st : List (BitVec 32)) (tail : List Byte) (n : Nat) : List Byte :=
  let last := tail ++ 0x80 :: List.replicate ((119 - n % 64) % 64) 0 ++ (toBytes 8 (8 * n)).reverse
  (shaTake 3 st last).1.flatMap (fun w => (toBytes 4 w.toNat).reverse)

/-- SHA-256 of a byte string. -/
def sha256 (bs : List Byte) : List Byte :=
  let r := shaFeed shaInit [] bs
  shaEnd r.1 r.2 bs.length

/-- A digest as a number, first byte most significant. -/
def digestNum (d : List Byte) : BitVec 256 := BitVec.ofNat 256 (ofBytes d.reverse)

/-- A number as the bytes of a digest. -/
def digestBytes (x : BitVec 256) : List Byte := (toBytes 32 x.toNat).reverse

end Sys2Proof.Machine
end

