-- ==== Sys2Proof/Machine/Ecdsa.lean ====
section
/-! DEFINITION. ECDSA on the P-256 curve with SHA-256 (R7), by which receipts and usage records are signed (R270, R272) and
firmware is checked (R274). -/

namespace Sys2Proof.Machine

/-- The field's prime. -/
def primeP : Nat := 0xffffffff00000001000000000000000000000000ffffffffffffffffffffffff
/-- The order of the base point. -/
def orderN : Nat := 0xffffffff00000000ffffffffffffffffbce6faada7179e84f3b9cac2fc632551
def curveB : Nat := 0x5ac635d8aa3a93e7b3ebbd55769886bc651d06b0cc53b0f63bce3c3e27d2604b

/-- A point of the curve by its coordinates; none is the point at infinity. -/
abbrev Point := Option (Nat × Nat)

def basePoint : Point :=
  some (0x6b17d1f2e12c4247f8bce6e563a440f277037d812deb33a0f4a13945d898c296,
        0x4fe342e2fe1a7f9b8ee7eb4a7c0f9e162bce33576b315ececbb6406837bf51f5)

/-- b^e modulo m, by the bits of e; `fuel` bounds their number. -/
def powMod (m b : Nat) : Nat → Nat → Nat
  | 0, _ => 1
  | fuel + 1, e =>
    if e = 0 then 1
    else if e % 2 = 1 then powMod m (b * b % m) fuel (e / 2) * b % m
    else powMod m (b * b % m) fuel (e / 2)

/-- The inverse modulo a prime. -/
def invMod (m x : Nat) : Nat := powMod m (x % m) 256 (m - 2)

/-- x − y modulo m, for reduced y. -/
def subMod (m x y : Nat) : Nat := (x + (m - y)) % m

def onCurve (x y : Nat) : Bool :=
  decide (x < primeP) && decide (y < primeP) &&
    y * y % primeP == (subMod primeP (x * x % primeP * x) (3 * x % primeP) + curveB) % primeP

/-- The third point of a chord or tangent of slope `k` through `(x, y)` and a point of abscissa `x2`, mirrored. -/
def chord (k x y x2 : Nat) : Point :=
  let x3 := subMod primeP (subMod primeP (k * k) x) x2
  some (x3, subMod primeP (k * subMod primeP x x3) y)

/-- The sum of two points. -/
def pointAdd : Point → Point → Point
  | none, b => b
  | a, none => a
  | some (x1, y1), some (x2, y2) =>
    if x1 = x2 then
      if (y1 + y2) % primeP = 0 then none
      else chord (subMod primeP (3 * x1 * x1) 3 * invMod primeP (2 * y1) % primeP) x1 y1 x2
    else chord (subMod primeP y2 y1 * invMod primeP (subMod primeP x2 x1) % primeP) x1 y1 x2

/-- k times a point; `fuel` bounds the bits of k. -/
def pointMul : Nat → Nat → Point → Point
  | 0, _, _ => none
  | fuel + 1, k, a =>
    if k = 0 then none
    else if k = 1 then a
    else
      let half := pointMul fuel (k / 2) (pointAdd a a)
      if k % 2 = 1 then pointAdd half a else half

def abscissa : Point → Nat
  | some (x, _) => x
  | none => 0

/-- Signature r and s of a digest under a private key, with a nonce, both brought into 1 .. n − 1. -/
def ecdsaSign (key nonce digest : BitVec 256) : Nat × Nat :=
  let d := 1 + key.toNat % (orderN - 1)
  let k := 1 + nonce.toNat % (orderN - 1)
  let r := abscissa (pointMul 256 k basePoint) % orderN
  (r, invMod orderN k * (digest.toNat + r * d) % orderN)

/-- The public key of a private key. -/
def publicKey (key : BitVec 256) : Point := pointMul 256 (1 + key.toNat % (orderN - 1)) basePoint

/-- A public key as bytes: x and then y, most significant byte first (log 8). -/
def keyBytes (x y : Nat) : List Byte := (toBytes 32 x).reverse ++ (toBytes 32 y).reverse

/-- Whether r and s sign a digest under the public key (x, y). -/
def ecdsaVerify (x y : Nat) (digest : BitVec 256) (r s : Nat) : Bool :=
  let w := invMod orderN s
  let sum := pointAdd (pointMul 256 (digest.toNat * w % orderN) basePoint) (pointMul 256 (r * w % orderN) (some (x, y)))
  onCurve x y && decide (0 < r ∧ r < orderN) && decide (0 < s ∧ s < orderN) && sum.isSome && abscissa sum % orderN == r

/-- KEYID: the first 8 bytes of SHA-256 of a public key (R270). -/
def keyIdOf (key : BitVec 256) : List Byte :=
  match publicKey key with
  | some (x, y) => (sha256 (keyBytes x y)).take 8
  | none => List.replicate 8 0

end Sys2Proof.Machine
end

