-- ==== Sys2Proof/WellFormed.lean ====
section
/-! DEFINITION. Which terms of Instr the spec admits: the operand limits that the descriptions give beside the
field widths (R278, R302, R307, R346 and each description). A term outside them is no instruction. -/

namespace Sys2Proof

/-- The CSR numbers that R232 lists. -/
def csrListed (n : Nat) : Bool :=
  n ≤ 0x6 || (0x10 ≤ n && n ≤ 0x15) || (0x20 ≤ n && n ≤ 0x22) || n == 0x30 || n == 0x31 || n == 0x40 ||
  (0x50 ≤ n && n ≤ 0x58) || n == 0x60 || n == 0x61 || n == 0x70 || n == 0x71 || n == 0x80

/-- mask = 0 with inv = 1 is no encoding (R302). -/
def MaskSel.ok (k : MaskSel) : Bool := !(k.m == 0 && k.inv)

/-- The mask operand that makes every element active (R302). -/
def MaskSel.all : MaskSel := ⟨0, false⟩

def ElemTy.isFloat : ElemTy → Bool
  | .f32 | .bf16 | .f16 => true
  | .sint _ | .uint _ => false

def ElemTy.isUns : ElemTy → Bool
  | .uint _ => true
  | _ => false

/-- The element width code of a type (R346). -/
def ElemTy.ew : ElemTy → BitVec 2
  | .f32 => 2
  | .bf16 | .f16 => 1
  | .sint e | .uint e => e

/-- rnd must be 0 for integer elements (R346). -/
def rndOk (t : ElemTy) (rnd : BitVec 2) : Bool := t.isFloat || rnd == 0

/-- The scope of an ordered atomic (R309, R335): 7 is reserved, and no scope without acq or rel. -/
def AmoOrd.ok (o : AmoOrd) : Bool := o.scope != 7 && (o.acq || o.rel || o.scope == 0)

def Ew2.ok (o : Ew2) : Bool := o.mask.ok && rndOk o.ty o.rnd

/-- The integer-only instructions VAND, VOR, VXOR and VSHL: UNS is reserved too (R357). -/
def Ew2.bitOk (o : Ew2) : Bool := o.ok && !o.ty.isFloat && !o.ty.isUns && !o.sat

def Ew1.ok (o : Ew1) : Bool := o.mask.ok && !(o.ty.isFloat && o.sat)

/-- Format codes that VCVT accepts on either side (R359). -/
def cvtFmt (f : BitVec 4) : Bool := f.toNat ≤ 8 || f == 10 || f == 11

def CvtForm.ok : CvtForm → Bool
  | .fmt d s => cvtFmt d && cvtFmt s
  | .fromInt _ _ d => cvtFmt d
  | .toInt _ _ s => cvtFmt s

/-- The targets of VQNT (R361). -/
def qntDst (f : BitVec 4) : Bool := f == 3 || f == 4 || f == 5 || f == 7 || f == 10

/-- The sources of VDQNT (R362). -/
def dqntSrc (f : BitVec 4) : Bool := (3 ≤ f.toNat && f.toNat ≤ 8) || f == 10 || f == 11

def QntOp.qok (o : QntOp) : Bool := o.mask.ok && qntDst o.dst && o.src.toNat ≤ 2 && !o.sat

def QntOp.dok (o : QntOp) : Bool := o.mask.ok && o.dst.toNat ≤ 2 && dqntSrc o.src

/-- Operations of R364: 7 is reserved, and and, or and xor are integer only. -/
def RedOp.ok (o : RedOp) : Bool :=
  o.mask.ok && rndOk o.ty o.rnd && o.op != 7 && !(o.ty.isFloat && (o.op == 3 || o.op == 4 || o.op == 5))

def TopkOp.ok (o : TopkOp) : Bool := o.mask.ok && rndOk o.ty o.rnd

/-- VAMO: 4- or 8-byte elements, float only as FP32, no float and, or, xor (R372). -/
def VAmoOp.ok (o : VAmoOp) : Bool :=
  o.mask.ok && rndOk o.ty o.rnd && o.op != 7 && 2 ≤ o.ty.ew.toNat &&
  !(o.ty.isFloat && (o.op == 2 || o.op == 3 || o.op == 4))

/-- Grouped and KV4H formats (R289). -/
def grpFmt (f : BitVec 4) : Bool := f == 9 || f == 12

/-- The pairs of A and B formats that MKSUM accepts (R289). -/
def mkPair (a b : BitVec 4) : Bool :=
  (a == b && (a == 0 || a == 1 || a == 2 || a == 6 || a == 13)) ||
  ((a == 3 || a == 4 || a == 5) && (b == 3 || b == 4 || b == 5)) ||
  ((a == 7 || a == 8 || a == 10 || a == 11) && (b == 7 || b == 8 || b == 10 || b == 11)) ||
  (grpFmt a && grpFmt b)

/-- Unit code i of a convoy header (R304). -/
def convoyUnit (u : BitVec 18) (i : Nat) : Nat := u.toNat / 2 ^ (3 * i) % 8

/-- R305, the conditions 2, 3, 5 and 7 and the limit of R390 that the header alone shows. -/
def convoyHeaderOk (u : BitVec 18) (cnt : BitVec 3) : Bool :=
  let k := cnt.toNat + 2
  cnt.toNat ≤ 4 &&
  (List.range 6).all (fun i => (convoyUnit u i != 0) == decide (i < k)) &&
  (List.range 6).all (fun i => (List.range i).all (fun j => i ≥ k || convoyUnit u i != convoyUnit u j)) &&
  (List.range 6).all (fun i => i == 0 || convoyUnit u i != 7) &&
  !(convoyUnit u 0 == 7 && cnt == 4)

/-- The fields REVST reads (R414). -/
def revstField (f : BitVec 4) : Bool := !(f == 3 || f == 5 || f == 7 || f == 15)

/-- What the spec admits of each constructor's operands. -/
def Instr.wellFormed : Instr → Bool
  | .fadd t .. | .fsub t .. | .fmul t .. | .fdiv t .. | .fsqrt t .. | .fma t .. | .fmin t .. | .fmax t ..
  | .fcmp _ t .. => t != 3
  | .fcvt d s .. => !(d == 3 && s == 3)
  | .qput q _ => q != 4 && q != 5
  | .qget _ q => 4 ≤ q.toNat
  | .amoSwap o .. | .amoAdd o .. | .amoAnd o .. | .amoOr o .. | .amoXor o .. | .amoMin o .. | .amoMax o ..
  | .cas o .. => o.ok
  | .fence sc a r => sc != 7 && !(a && r)
  | .csrr _ c | .csrw _ c | .csrs _ _ c | .csrc _ _ c => csrListed c.toNat
  | .convoyHeader u c => convoyHeaderOk u c
  | .mpopcQ q _ | .mfirstQ q _ | .vgetQ _ _ q _ _ => q == 4 || q == 5
  | .vcmp c _ _ _ ty rnd k _ => c != 7 && !(c == 6 && !ty.isFloat) && rndOk ty rnd && k.ok
  | .vmov _ _ _ k _ | .vsplat _ _ _ k _ | .vsplatImm _ _ _ k _ | .vsplatQ _ _ _ k _ | .viota _ _ _ _ k _
  | .vsel _ _ _ _ k _ => k.ok
  | .vadd o | .vsub o | .vmul o | .vfma o => o.ok
  | .vdiv o => o.ok && !o.sat
  | .vmin o | .vmax o => o.ok && !o.sat && o.rnd == 0
  | .vabs o | .vneg o => o.ok
  | .vand o | .vor o | .vxor o | .vshl o => o.bitOk
  | .vshr o => o.ok && !o.ty.isFloat && !o.sat
  | .vsfu _ f _ _ _ _ k _ => f != 3 && k.ok
  | .vcvt f _ _ _ _ k _ => f.ok && k.ok
  | .vhad f .. => f != 3
  | .vqnt o | .vqntSc o => o.qok
  | .vdqnt _ o => o.dok
  | .vlut qf _ _ _ _ _ k => qf != 3 && k.ok
  | .vred o | .vredRow o | .vscan _ o => o.ok
  | .vredQ o => o.ok && (o.d == 4 || o.d == 5)
  | .vslideUp _ _ _ _ k | .vslideDn _ _ _ _ k | .vperm _ _ _ _ _ k | .vcomp _ _ _ k => k.ok
  | .vtopkIdx o | .vtopkKey o => o.ok
  | .vtopkMask o => o.ok && o.d.toNat < 8
  | .vld o | .vst o => o.mask.ok
  | .vldx o | .vstxOrd o | .vstxAny o => o.mask.ok
  | .vamo o => o.ok
  | .vwait c _ _ _ f k => c.toNat < 6 && k.ok && (f != .single || k == .all)
  | .lcap n => 1 ≤ n.toNat && n.toNat ≤ 32
  | .lnest nk _ _ => nk.toNat ≤ 5
  | .lrun _ d => d != 7
  | .mksum _ _ a b _ _ _ _ => mkPair a b
  | .mlineRrow o | .mlineRcol o | .mlineWrow o | .mlineWcol o | .mdrain _ o => o.fmt != 3 && o.mask.ok
  | .mlineSt o | .mlineLd o | .mdrainSt _ o => o.fmt != 3
  | .kvapp f _ _ _ k => f != 3 && k.ok
  | .kvld f _ _ _ _ k _ | .kvscore f _ _ _ k _ | .kvvqsQ f _ _ _ k _ => f != 3 && k.ok
  | .kvvqsLut _ _ _ _ k _ | .kvacc _ _ k _ => k.ok
  | .lconv _ f .. | .lcstateGet f .. | .lcstatePut f .. => f != 3
  | .cpy o | .cpyRing o => o.dims != 7
  | .cpyFill o | .cpyHash o => o.dims != 7 && !o.keep
  | .revst _ d f => d.toNat ≤ 4 && revstField f
  | .ldi m .. => m != 3
  | .kvctxCfg _ _ b | .kvctxOpen _ _ b | .kvctxClose _ _ b | .kvctxPin _ _ b => b == 0
  -- every field value is admitted
  | .add .. | .sub .. | .and .. | .or .. | .xor .. | .shl .. | .shr .. | .sar .. | .mul .. | .mulh .. | .div ..
  | .rem .. | .min .. | .max .. | .slt .. | .clz .. | .ctz .. | .popc .. | .ext .. | .addi .. | .andi .. | .ori ..
  | .xori .. | .shli .. | .shri .. | .sari .. | .slti .. | .lih .. | .qstat .. | .gbar | .ldB .. | .ldH .. | .ldW ..
  | .ldD .. | .ldBu .. | .ldHu .. | .ldWu .. | .stB .. | .stH .. | .stW .. | .stD .. | .beq .. | .bne .. | .blt ..
  | .bge .. | .bltu .. | .bgeu .. | .bany .. | .ball .. | .bnone .. | .jmp .. | .call .. | .jr .. | .sbar .. | .trap ..
  | .brk .. | .eret | .wfe | .halt | .nop32 | .vsetl .. | .vsetr .. | .lanes .. | .forkl .. | .joinl .. | .msetAll ..
  | .msetNone .. | .msetLt .. | .msetNz .. | .mlogic .. | .mpopc .. | .mfirst .. | .vget .. | .vput .. | .vbind ..
  | .vunbind .. | .lwait | .mattach .. | .mdetach | .mtile .. | .mtileOff .. | .mclr .. | .mpredRows .. | .mpredCols ..
  | .mpredK .. | .mpredRowm .. | .mpredColm .. | .mpredAll | .mgroup ..
  | .kvctxCb .. | .kvcomp .. | .kvfree .. | .srread .. | .srreset .. | .srbind .. | .lcstateZero
  | .twait .. | .twaitAny .. | .tfirst .. | .tfirstNw .. | .tclr .. | .rpush .. | .rpull .. | .reos .. | .rstat ..
  | .rstatReset .. | .revch .. | .revret | .revabt | .addil .. | .callf .. | .callfR .. | .savev .. | .restv .. | .stepb
  | .markres .. | .tlbinv .. | .tlbinvMove .. | .tlbinvWait .. | .tlbinvAll .. => true
  -- events
  | .gbarAllArrived .. | .wfeTimeout .. | .impreciseTrapDelivery .. | .queuehang .. | .vwaitPoll .. | .matrixRedivide ..
  | .kvBlockMigration .. | .copyCommandRun .. | .copyCommandComplete .. | .copyCommandStop .. | .pinWaitPreempt ..
  | .targetRequest .. | .hostRequest .. | .peerRequest .. | .leeCacheFill .. | .directoryRecall .. | .actinv ..
  | .actinvDone | .linkReplay .. | .linkReset .. | .linkRetrain .. | .linklost .. | .preempt .. | .resumeGang ..
  | .powerCapChange .. | .haltreq .. | .resume .. | .registerWrite .. | .doorbell .. | .launch .. | .copy .. | .signal ..
  | .wait .. | .waitSatisfied .. | .writeSignal .. | .barrier .. | .measure .. | .receipt .. | .jobCompletion ..
  | .strideSchedule .. | .timeSliceEnd .. | .packetDeferTimeout .. | .usagePeriodEnd .. | .partitionCreate ..
  | .partitionTeardown .. | .queueReopen .. | .migrationStart .. | .generationSwitch .. | .migrationStopPhase ..
  | .hdmDecoderProgram .. | .boot .. | .bootReadyTimeout | .failedStartClear | .rowStepBoundary .. | .kvBlockMoveDone ..
  | .firmwareImageLoad .. => true

end Sys2Proof
end

