-- ==== Sys2Proof/Decode.lean ====
section
/-! DEFINITION. Decoding of parcels and long instructions (R297 to R310 and the descriptions' field tables) and the
encoder, from the same tables. A candidate is read from the fields; it is the instruction exactly when it is well formed
and its encoding is the word itself, so that every field a description does not use must be zero (R302, R307). -/

namespace Sys2Proof

/-- Why a word is no instruction (R307). -/
inductive DecErr where
  /-- a reserved major of either scalar class or of the long class -/
  | reservedMajor
  /-- a reserved control sub-opcode, or a NOP32 with non-zero bits 31:5 -/
  | reservedControl
  /-- a reserved func, format or field value, or a field that must be zero and is not -/
  | reservedField
  /-- a CSR number that R232 does not list -/
  | unlistedCsr
  /-- a convoy header that is invalid by itself (R305) -/
  | badConvoy
  /-- fewer bytes than the instruction has -/
  | truncated
  deriving DecidableEq, Repr

/-- TRAPSTAT bits 3:0 of the ILLEGAL that each raises (R307). -/
def DecErr.reason : DecErr → Nat
  | .unlistedCsr => 1
  | .badConvoy => 7
  | .reservedMajor | .reservedControl | .reservedField | .truncated => 0

/-- The fields of a long instruction (R302). -/
structure LongF where
  imm16 : BitVec 16 := 0
  func : BitVec 3 := 0
  row : BitVec 1 := 0
  bs : BitVec 1 := 0
  sat : BitVec 1 := 0
  rnd : BitVec 2 := 0
  fmt : BitVec 4 := 0
  ew : BitVec 2 := 0
  inv : BitVec 1 := 0
  mask : BitVec 3 := 0
  vc : BitVec 5 := 0
  vb : BitVec 5 := 0
  va : BitVec 5 := 0
  vd : BitVec 5 := 0
  major : BitVec 8
  deriving DecidableEq, Repr

/-- The 64 bits of a long instruction (R302). -/
def LongF.toWord (f : LongF) : BitVec 64 :=
  f.imm16 ++ f.func ++ f.row ++ f.bs ++ f.sat ++ f.rnd ++ f.fmt ++ f.ew ++ f.inv ++ f.mask ++ f.vc ++ f.vb ++ f.va ++
    f.vd ++ f.major ++ 2#2

/-- The fields of a long word (R302). -/
def LongF.ofWord (w : BitVec 64) : LongF where
  imm16 := w.extractLsb' 48 16
  func := w.extractLsb' 45 3
  row := w.extractLsb' 44 1
  bs := w.extractLsb' 43 1
  sat := w.extractLsb' 42 1
  rnd := w.extractLsb' 40 2
  fmt := w.extractLsb' 36 4
  ew := w.extractLsb' 34 2
  inv := w.extractLsb' 33 1
  mask := w.extractLsb' 30 3
  vc := w.extractLsb' 25 5
  vb := w.extractLsb' 20 5
  va := w.extractLsb' 15 5
  vd := w.extractLsb' 10 5
  major := w.extractLsb' 2 8

/-- One bit. -/
def bit1 (b : Bool) : BitVec 1 := BitVec.ofBool b

/-- A three-bit number in a five-bit register field whose upper bits are zero. -/
def low3 (x : BitVec 3) : BitVec 5 := 0#2 ++ x

/-- The SR format (R300). -/
def fSR (func : BitVec 9) (b a d : BitVec 5) (major : BitVec 6) (cls : BitVec 2) : BitVec 32 :=
  func ++ b ++ a ++ d ++ major ++ cls

/-- The SI format (R300). -/
def fSI (imm : BitVec 14) (a d : BitVec 5) (major : BitVec 6) (cls : BitVec 2) : BitVec 32 :=
  imm ++ a ++ d ++ major ++ cls

/-- The SB format (R300): immediate bits 13:5 above, 4:0 in the place of d. -/
def fSB (imm : BitVec 14) (b a : BitVec 5) (major : BitVec 6) (cls : BitVec 2) : BitVec 32 :=
  imm.extractLsb' 5 9 ++ b ++ a ++ imm.extractLsb' 0 5 ++ major ++ cls

/-- The SJ and SU formats (R300). -/
def fSJ (imm : BitVec 19) (d : BitVec 5) (major : BitVec 6) (cls : BitVec 2) : BitVec 32 :=
  imm ++ d ++ major ++ cls

/-- func of majors 0 to 18 of class 00: bit 0 .u, bit 1 .w (R308). -/
def fnUW (u w : Bool) : BitVec 9 := 0#7 ++ bit1 w ++ bit1 u

/-- func of the scalar floating point: type in bits 1:0, rounding in bits 3:2 (R308). -/
def fnFP (t rnd : BitVec 2) : BitVec 9 := 0#5 ++ rnd ++ t

/-- func of AMO and CAS (R309). -/
def fnAmo (op : BitVec 3) (o : AmoOrd) : BitVec 9 := o.scope ++ bit1 o.rel ++ bit1 o.acq ++ bit1 o.w32 ++ op

/-- An encoding: a 32-bit parcel or a 64-bit long instruction (R297). -/
inductive Code where
  | parcel (w : BitVec 32)
  | long (w : BitVec 64)
  deriving DecidableEq, Repr

/-! ### Sub-fields of the long format -/

/-- FLT and UNS, bits 15 and 14 of imm16 (R346). -/
def tyBits : ElemTy → BitVec 2
  | .f32 | .bf16 | .f16 => 2
  | .sint _ => 0
  | .uint _ => 1

/-- The format code of a type; 0 for integers (R346). -/
def tyFmt : ElemTy → BitVec 4
  | .bf16 => 1
  | .f16 => 2
  | .f32 | .sint _ | .uint _ => 0

/-- The type that FLT, UNS, fmt and ew name (R346). -/
def tyOf (fltUns : BitVec 2) (fmt : BitVec 4) (ew : BitVec 2) : ElemTy :=
  if fltUns.getLsbD 1 then (if fmt == 0 then .f32 else if fmt == 1 then .bf16 else .f16)
  else if fltUns.getLsbD 0 then .uint ew else .sint ew

def rowBit (r : Option (BitVec 3)) : BitVec 1 := bit1 r.isSome

def rowImm (r : Option (BitVec 3)) : BitVec 3 := r.getD 0

/-- The default element width of a format: 32 bits for FP32, 16 for the 16-bit formats, else 8 (R313). -/
def ewOfFmt (f : BitVec 4) : BitVec 2 := if f == 0 then 2 else if f == 1 || f == 2 || f == 6 then 1 else 0

/-- A two-bit format code (FP32, BF16, FP16) in the fmt field. -/
def fmt4 (f : BitVec 2) : BitVec 4 := 0#2 ++ f

/-- The width of FP32, BF16 and FP16 elements. -/
def ewOf2 (f : BitVec 2) : BitVec 2 := if f == 0 then 2 else 1

def Src2.bs : Src2 → BitVec 1
  | .v _ => 0
  | .g _ => 1

def Src2.reg : Src2 → BitVec 5
  | .v r | .g r => r

def src2Of (bs : BitVec 1) (vb : BitVec 5) : Src2 := if bs == 1 then .g vb else .v vb

/-- Typed two-source instructions (R346, R357). -/
def encEw2 (major : BitVec 8) (o : Ew2) : LongF :=
  { imm16 := tyBits o.ty ++ 0#11 ++ rowImm o.row, row := rowBit o.row, bs := o.b.bs, sat := bit1 o.sat, rnd := o.rnd,
    fmt := tyFmt o.ty, ew := o.ty.ew, inv := bit1 o.mask.inv, mask := o.mask.m, vb := o.b.reg, va := o.va, vd := o.vd,
    major := major }

def encEw1 (major : BitVec 8) (o : Ew1) : LongF :=
  { imm16 := tyBits o.ty ++ 0#11 ++ rowImm o.row, row := rowBit o.row, sat := bit1 o.sat,
    fmt := tyFmt o.ty, ew := o.ty.ew, inv := bit1 o.mask.inv, mask := o.mask.m, va := o.va, vd := o.vd, major := major }

def encQnt (major : BitVec 8) (func : BitVec 3) (ew : BitVec 2) (o : QntOp) : LongF :=
  { imm16 := 0#12 ++ o.src, func := func, row := bit1 o.row, bs := 1, sat := bit1 o.sat, rnd := o.rnd, fmt := o.dst,
    ew := ew, inv := bit1 o.mask.inv, mask := o.mask.m, vb := o.gb, va := o.va, vd := o.vd, major := major }

/-- VRED and VSCAN (R364, R365); `low` is imm16 bits 1:0. -/
def encRed (major : BitVec 8) (low : BitVec 2) (o : RedOp) : LongF :=
  { imm16 := tyBits o.ty ++ 0#12 ++ low, func := o.op, bs := 1, sat := bit1 o.sat, rnd := o.rnd, fmt := tyFmt o.ty,
    ew := o.ty.ew, inv := bit1 o.mask.inv, mask := o.mask.m, vb := o.gb, va := o.va, vd := o.d, major := major }

def encTopk (func : BitVec 3) (o : TopkOp) : LongF :=
  { imm16 := tyBits o.ty ++ 0#14, func := func, bs := 1, rnd := o.rnd, fmt := tyFmt o.ty, ew := o.ty.ew,
    inv := bit1 o.mask.inv, mask := o.mask.m, vb := o.gb, va := o.va, vd := o.d, major := 0x55 }

def MemForm.func : MemForm → BitVec 3
  | .unit => 0
  | .strided _ => 1
  | .rows _ => 2

def MemForm.bs : MemForm → BitVec 1
  | .unit => 0
  | .strided _ | .rows _ => 1

def MemForm.vb : MemForm → BitVec 5
  | .unit => 0
  | .strided r | .rows r => r

def encVMem (major : BitVec 8) (o : VMemOp) : LongF :=
  { imm16 := o.off, func := o.form.func, row := bit1 o.row, bs := o.form.bs, ew := o.ew, inv := bit1 o.mask.inv,
    mask := o.mask.m, vb := o.form.vb, va := o.ga, vd := o.v, major := major }

def encVIdx (major : BitVec 8) (func : BitVec 3) (o : VIdxOp) : LongF :=
  { imm16 := o.off, func := func, row := bit1 o.row, ew := o.ew, inv := bit1 o.mask.inv, mask := o.mask.m, vb := o.vx,
    va := o.ga, vd := o.v, major := major }

def encVAmo (o : VAmoOp) : LongF :=
  { imm16 := tyBits o.ty ++ o.off, func := o.op, row := bit1 o.row, rnd := o.rnd, fmt := tyFmt o.ty, ew := o.ty.ew,
    inv := bit1 o.mask.inv, mask := o.mask.m, vc := o.vc, vb := o.vx, va := o.ga, vd := o.vd, major := 0x64 }

def WaitForm.code : WaitForm → BitVec 2
  | .single => 0
  | .seq => 1
  | .idx _ => 2

def WaitForm.vb : WaitForm → BitVec 5
  | .idx r => r
  | .single | .seq => 0

def SlideAmt.func (up : Bool) : SlideAmt → BitVec 3
  | .g _ => if up then 0 else 1
  | .imm _ => if up then 2 else 3

def encSlide (up : Bool) (amt : SlideAmt) (ew : BitVec 2) (vd va : Reg) (k : MaskSel) : LongF :=
  match amt with
  | .g r => { func := amt.func up, bs := 1, ew := ew, inv := bit1 k.inv, mask := k.m, vb := r, va := va, vd := vd,
              major := 0x52 }
  | .imm i => { imm16 := i, func := amt.func up, ew := ew, inv := bit1 k.inv, mask := k.m, va := va, vd := vd,
                major := 0x52 }

def encCvt (form : CvtForm) (rnd : BitVec 2) (sat : Bool) (vd va : Reg) (k : MaskSel) (row : Bool) : LongF :=
  let f : LongF := { row := bit1 row, sat := bit1 sat, rnd := rnd, inv := bit1 k.inv, mask := k.m, va := va, vd := vd,
                     major := 0x41 }
  match form with
  | .fmt d s => { f with imm16 := 0#12 ++ s, fmt := d, ew := ewOfFmt d }
  | .fromInt uns ew d => { f with func := if uns then 3 else 1, fmt := d, ew := ew }
  | .toInt uns ew s => { f with func := if uns then 4 else 2, fmt := s, ew := ew }

/-- MLINE and MDRAIN between tile and register (R389, R390); on a write to the tile the register is va. -/
def encLine (major : BitVec 8) (func : BitVec 3) (wr z : Bool) (o : LineOp) : LongF :=
  { imm16 := 0#12 ++ bit1 z ++ o.tile, func := func, bs := 1, sat := bit1 o.sat, rnd := o.rnd, fmt := fmt4 o.fmt,
    ew := ewOf2 o.fmt, inv := bit1 o.mask.inv, mask := o.mask.m, vb := o.gb, va := if wr then o.v else 0,
    vd := if wr then 0 else o.v, major := major }

def encLineMem (major : BitVec 8) (func : BitVec 3) (z : Bool) (o : LineMem) : LongF :=
  { imm16 := 0#12 ++ bit1 z ++ o.tile, func := func, bs := 1, sat := bit1 o.sat, rnd := o.rnd, fmt := fmt4 o.fmt,
    ew := ewOf2 o.fmt, vb := o.gb, va := o.ga, major := major }

/-- CPY (R403). -/
def encCpy (mode : BitVec 3) (ring : Bool) (o : CpyOp) : LongF :=
  { imm16 := 0#5 ++ bit1 ring ++ bit1 o.keep ++ o.dims ++ o.tag, func := mode, bs := 1, vb := o.gb, va := o.ga,
    vd := o.gd, major := 0xC0 }

/-- Three g registers: destination, address, second operand (R391, R397, R421, R65). -/
def encG3 (major : BitVec 8) (func : BitVec 3) (d a b : Reg) : LongF :=
  { func := func, bs := 1, vb := b, va := a, vd := d, major := major }

/-- LDI, ADDIL, CALLF (R415 to R417): imm32 in bits 63:32, M in bits 21:20. -/
def encImm32 (imm : BitVec 32) (m : BitVec 2) (a d : BitVec 5) (major : BitVec 8) : BitVec 64 :=
  imm ++ 0#10 ++ m ++ a ++ d ++ major ++ 2#2

/-- The encoding of an instruction (R300, R302, R304 and the descriptions); an event has none. -/
def encode : Instr → Option Code
  | .add w d a b => some (.parcel (fSR (fnUW false w) b a d 0 0))
  | .sub w d a b => some (.parcel (fSR (fnUW false w) b a d 1 0))
  | .and w d a b => some (.parcel (fSR (fnUW false w) b a d 2 0))
  | .or w d a b => some (.parcel (fSR (fnUW false w) b a d 3 0))
  | .xor w d a b => some (.parcel (fSR (fnUW false w) b a d 4 0))
  | .shl w d a b => some (.parcel (fSR (fnUW false w) b a d 5 0))
  | .shr w d a b => some (.parcel (fSR (fnUW false w) b a d 6 0))
  | .sar w d a b => some (.parcel (fSR (fnUW false w) b a d 7 0))
  | .mul w d a b => some (.parcel (fSR (fnUW false w) b a d 8 0))
  | .mulh u w d a b => some (.parcel (fSR (fnUW u w) b a d 9 0))
  | .div u w d a b => some (.parcel (fSR (fnUW u w) b a d 10 0))
  | .rem u w d a b => some (.parcel (fSR (fnUW u w) b a d 11 0))
  | .min u w d a b => some (.parcel (fSR (fnUW u w) b a d 12 0))
  | .max u w d a b => some (.parcel (fSR (fnUW u w) b a d 13 0))
  | .slt u w d a b => some (.parcel (fSR (fnUW u w) b a d 14 0))
  | .clz w d a => some (.parcel (fSR (fnUW false w) 0 a d 15 0))
  | .ctz w d a => some (.parcel (fSR (fnUW false w) 0 a d 16 0))
  | .popc w d a => some (.parcel (fSR (fnUW false w) 0 a d 17 0))
  | .ext u w d a b => some (.parcel (fSR (fnUW u w) b a d 18 0))
  | .addi d a imm => some (.parcel (fSI imm a d 19 0))
  | .andi d a imm => some (.parcel (fSI imm a d 20 0))
  | .ori d a imm => some (.parcel (fSI imm a d 21 0))
  | .xori d a imm => some (.parcel (fSI imm a d 22 0))
  | .slti d a imm => some (.parcel (fSI imm a d 26 0))
  | .shli d a sh => some (.parcel (fSI (0#8 ++ sh) a d 23 0))
  | .shri d a sh => some (.parcel (fSI (0#8 ++ sh) a d 24 0))
  | .sari d a sh => some (.parcel (fSI (0#8 ++ sh) a d 25 0))
  | .lih d imm => some (.parcel (fSJ imm d 27 0))
  | .fadd t rnd d a b => some (.parcel (fSR (fnFP t rnd) b a d 28 0))
  | .fsub t rnd d a b => some (.parcel (fSR (fnFP t rnd) b a d 29 0))
  | .fmul t rnd d a b => some (.parcel (fSR (fnFP t rnd) b a d 30 0))
  | .fdiv t rnd d a b => some (.parcel (fSR (fnFP t rnd) b a d 31 0))
  | .fma t rnd d a b => some (.parcel (fSR (fnFP t rnd) b a d 33 0))
  | .fsqrt t rnd d a => some (.parcel (fSR (fnFP t rnd) 0 a d 32 0))
  | .fmin t d a b => some (.parcel (fSR (fnFP t 0) b a d 34 0))
  | .fmax t d a b => some (.parcel (fSR (fnFP t 0) b a d 35 0))
  | .fcmp cond t d a b => some (.parcel (fSR (0#3 ++ cond ++ 0#2 ++ t) b a d 36 0))
  | .fcvt dst src rnd d a => some (.parcel (fSR (0#3 ++ src ++ rnd ++ dst) 0 a d 37 0))
  | .qput q a => some (.parcel (fSR 0 0 a (low3 q) 38 0))
  | .qget d q => some (.parcel (fSR 0 0 (low3 q) d 39 0))
  | .qstat d q => some (.parcel (fSR 0 0 (low3 q) d 40 0))
  | .gbar => some (.parcel (fSR 0 0 0 0 41 0))
  | .ldB d a imm => some (.parcel (fSI imm a d 0 1))
  | .ldH d a imm => some (.parcel (fSI imm a d 1 1))
  | .ldW d a imm => some (.parcel (fSI imm a d 2 1))
  | .ldD d a imm => some (.parcel (fSI imm a d 3 1))
  | .ldBu d a imm => some (.parcel (fSI imm a d 4 1))
  | .ldHu d a imm => some (.parcel (fSI imm a d 5 1))
  | .ldWu d a imm => some (.parcel (fSI imm a d 6 1))
  | .stB a b imm => some (.parcel (fSB imm b a 7 1))
  | .stH a b imm => some (.parcel (fSB imm b a 8 1))
  | .stW a b imm => some (.parcel (fSB imm b a 9 1))
  | .stD a b imm => some (.parcel (fSB imm b a 10 1))
  | .amoSwap o d a b => some (.parcel (fSR (fnAmo 0 o) b a d 11 1))
  | .amoAdd o d a b => some (.parcel (fSR (fnAmo 1 o) b a d 11 1))
  | .amoAnd o d a b => some (.parcel (fSR (fnAmo 2 o) b a d 11 1))
  | .amoOr o d a b => some (.parcel (fSR (fnAmo 3 o) b a d 11 1))
  | .amoXor o d a b => some (.parcel (fSR (fnAmo 4 o) b a d 11 1))
  | .amoMin o d a b => some (.parcel (fSR (fnAmo 5 o) b a d 11 1))
  | .amoMax o d a b => some (.parcel (fSR (fnAmo 6 o) b a d 11 1))
  | .cas o d a b => some (.parcel (fSR (fnAmo 0 o) b a d 12 1))
  | .beq a b imm => some (.parcel (fSB imm b a 13 1))
  | .bne a b imm => some (.parcel (fSB imm b a 14 1))
  | .blt a b imm => some (.parcel (fSB imm b a 15 1))
  | .bge a b imm => some (.parcel (fSB imm b a 16 1))
  | .bltu a b imm => some (.parcel (fSB imm b a 17 1))
  | .bgeu a b imm => some (.parcel (fSB imm b a 18 1))
  | .bany m imm => some (.parcel (fSB imm 0 (low3 m) 19 1))
  | .ball m imm => some (.parcel (fSB imm 0 (low3 m) 20 1))
  | .bnone m imm => some (.parcel (fSB imm 0 (low3 m) 21 1))
  | .jmp imm => some (.parcel (fSJ imm 0 22 1))
  | .call d imm => some (.parcel (fSJ imm d 23 1))
  | .jr d a imm => some (.parcel (fSI imm a d 24 1))
  | .fence sc acq rel => some (.parcel (fSI (0#9 ++ bit1 rel ++ bit1 acq ++ sc) 0 0 25 1))
  | .sbar s => some (.parcel (fSI (0#6 ++ s) 0 0 26 1))
  | .csrr d c => some (.parcel (fSI c 0 d 27 1))
  | .csrw a c => some (.parcel (fSI c a 0 28 1))
  | .csrs d a c => some (.parcel (fSI c a d 29 1))
  | .csrc d a c => some (.parcel (fSI c a d 30 1))
  | .trap c => some (.parcel (fSI c 0 0 31 1))
  | .brk c => some (.parcel (fSI c 0 0 32 1))
  | .eret => some (.parcel (fSI 0 0 0 33 1))
  | .wfe => some (.parcel (fSI 0 0 0 34 1))
  | .halt => some (.parcel (fSI 0 0 0 35 1))
  | .convoyHeader u c => some (.parcel (0#6 ++ u ++ c ++ 0#3 ++ 3#2))
  | .nop32 => some (.parcel 7)
  | .vsetl ew d a => some (.long (LongF.toWord { ew := ew, va := a, vd := d, major := 0x00 }))
  | .vsetr d a => some (.long (LongF.toWord { va := a, vd := d, major := 0x01 }))
  | .lanes d a => some (.long (LongF.toWord { va := a, vd := d, major := 0x02 }))
  | .forkl d off => some (.long (LongF.toWord { imm16 := off, vd := d, major := 0x03 }))
  | .joinl a => some (.long (LongF.toWord { va := a, major := 0x04 }))
  | .msetAll md row => some (.long (LongF.toWord { imm16 := 0#13 ++ rowImm row, row := rowBit row, vd := low3 md, major := 0x05 }))
  | .msetNone md row => some (.long (LongF.toWord { imm16 := 0#13 ++ rowImm row, row := rowBit row, func := 1, vd := low3 md, major := 0x05 }))
  | .msetLt md ga row => some (.long (LongF.toWord { imm16 := 0#13 ++ rowImm row, row := rowBit row, func := 2, va := ga, vd := low3 md, major := 0x05 }))
  | .msetNz ew md va row => some (.long (LongF.toWord { imm16 := 0#13 ++ rowImm row, row := rowBit row, func := 3, ew := ew, va := va, vd := low3 md, major := 0x05 }))
  | .mlogic op md ma mb row => some (.long (LongF.toWord { imm16 := 0#13 ++ rowImm row, row := rowBit row, func := op, vb := low3 mb, va := low3 ma, vd := low3 md, major := 0x06 }))
  | .mpopc d ma => some (.long (LongF.toWord { va := low3 ma, vd := d, major := 0x07 }))
  | .mpopcQ q ma => some (.long (LongF.toWord { func := 1, va := low3 ma, vd := low3 q, major := 0x07 }))
  | .mfirst d ma => some (.long (LongF.toWord { va := low3 ma, vd := d, major := 0x08 }))
  | .mfirstQ q ma => some (.long (LongF.toWord { func := 1, va := low3 ma, vd := low3 q, major := 0x08 }))
  | .vcmp c md va b ty rnd k row => some (.long (LongF.toWord { imm16 := tyBits ty ++ 0#11 ++ rowImm row, row := rowBit row, func := c, bs := b.bs, rnd := rnd, fmt := tyFmt ty, ew := ty.ew, inv := bit1 k.inv, mask := k.m, vb := b.reg, va := va, vd := low3 md, major := 0x09 }))
  | .vget u ew d va gb => some (.long (LongF.toWord { imm16 := 0#1 ++ bit1 u ++ 0#14, bs := 1, ew := ew, vb := gb, va := va, vd := d, major := 0x0A }))
  | .vgetQ u ew q va gb => some (.long (LongF.toWord { imm16 := 0#1 ++ bit1 u ++ 0#14, func := 1, bs := 1, ew := ew, vb := gb, va := va, vd := low3 q, major := 0x0A }))
  | .vput ew vd ga gb => some (.long (LongF.toWord { bs := 1, ew := ew, vb := gb, va := ga, vd := vd, major := 0x0B }))
  | .vmov ew vd va k row => some (.long (LongF.toWord { imm16 := 0#13 ++ rowImm row, row := rowBit row, ew := ew, inv := bit1 k.inv, mask := k.m, va := va, vd := vd, major := 0x1F }))
  | .vsplat ew vd gb k row => some (.long (LongF.toWord { imm16 := 0#13 ++ rowImm row, row := rowBit row, bs := 1, ew := ew, inv := bit1 k.inv, mask := k.m, vb := gb, vd := vd, major := 0x20 }))
  | .vsplatImm ew vd imm k row => some (.long (LongF.toWord { imm16 := imm, func := 1, row := bit1 row, ew := ew, inv := bit1 k.inv, mask := k.m, vd := vd, major := 0x20 }))
  | .vsplatQ ew vd q k row => some (.long (LongF.toWord { imm16 := 0#13 ++ rowImm row, row := rowBit row, func := 2, ew := ew, inv := bit1 k.inv, mask := k.m, va := 0#3 ++ q, vd := vd, major := 0x20 }))
  | .viota ew vd ga gb k row => some (.long (LongF.toWord { imm16 := 0#13 ++ rowImm row, row := rowBit row, bs := 1, ew := ew, inv := bit1 k.inv, mask := k.m, vb := gb, va := ga, vd := vd, major := 0x21 }))
  | .vsel ew vd va vb k row => some (.long (LongF.toWord { imm16 := 0#13 ++ rowImm row, row := rowBit row, ew := ew, inv := bit1 k.inv, mask := k.m, vb := vb, va := va, vd := vd, major := 0x1E }))
  | .vadd o => some (.long (LongF.toWord (encEw2 0x10 o)))
  | .vsub o => some (.long (LongF.toWord (encEw2 0x11 o)))
  | .vmul o => some (.long (LongF.toWord (encEw2 0x12 o)))
  | .vfma o => some (.long (LongF.toWord (encEw2 0x13 o)))
  | .vdiv o => some (.long (LongF.toWord (encEw2 0x14 o)))
  | .vmin o => some (.long (LongF.toWord (encEw2 0x15 o)))
  | .vmax o => some (.long (LongF.toWord (encEw2 0x16 o)))
  | .vabs o => some (.long (LongF.toWord (encEw1 0x17 o)))
  | .vneg o => some (.long (LongF.toWord (encEw1 0x18 o)))
  | .vand o => some (.long (LongF.toWord (encEw2 0x19 o)))
  | .vor o => some (.long (LongF.toWord (encEw2 0x1a o)))
  | .vxor o => some (.long (LongF.toWord (encEw2 0x1b o)))
  | .vshl o => some (.long (LongF.toWord (encEw2 0x1c o)))
  | .vshr o => some (.long (LongF.toWord (encEw2 0x1d o)))
  | .vsfu fn f rnd sat vd va k row => some (.long (LongF.toWord { imm16 := 0#13 ++ rowImm row, row := rowBit row, func := fn, sat := bit1 sat, rnd := rnd, fmt := fmt4 f, ew := ewOf2 f, inv := bit1 k.inv, mask := k.m, va := va, vd := vd, major := 0x40 }))
  | .vcvt form rnd sat vd va k row => some (.long (LongF.toWord (encCvt form rnd sat vd va k row)))
  | .vhad f rnd vd va row => some (.long (LongF.toWord { imm16 := 0#13 ++ rowImm row, row := rowBit row, rnd := rnd, fmt := fmt4 f, ew := ewOf2 f, va := va, vd := vd, major := 0x42 }))
  | .vqnt o => some (.long (LongF.toWord (encQnt 0x43 0 (ewOfFmt o.dst) o)))
  | .vqntSc o => some (.long (LongF.toWord (encQnt 0x43 1 (ewOfFmt o.dst) o)))
  | .vdqnt sc o => some (.long (LongF.toWord (encQnt 0x44 (0#2 ++ bit1 sc) (ewOfFmt o.dst) o)))
  | .vlut qf g0 rnd vd va gb k => some (.long (LongF.toWord { imm16 := 0#4 ++ g0 ++ fmt4 qf ++ 0#4, bs := 1, rnd := rnd, fmt := 14, ew := 2, inv := bit1 k.inv, mask := k.m, vb := gb, va := va, vd := vd, major := 0x45 }))
  | .vred o => some (.long (LongF.toWord (encRed 0x50 0 o)))
  | .vredRow o => some (.long (LongF.toWord (encRed 0x50 1 o)))
  | .vredQ o => some (.long (LongF.toWord (encRed 0x50 2 o)))
  | .vscan excl o => some (.long (LongF.toWord (encRed 0x51 (bit1 excl ++ 0#1) o)))
  | .vslideUp amt ew vd va k => some (.long (LongF.toWord (encSlide true amt ew vd va k)))
  | .vslideDn amt ew vd va k => some (.long (LongF.toWord (encSlide false amt ew vd va k)))
  | .vperm tile ew vd va vb k => some (.long (LongF.toWord { func := 0#2 ++ bit1 tile, ew := ew, inv := bit1 k.inv, mask := k.m, vb := vb, va := va, vd := vd, major := 0x53 }))
  | .vcomp ew vd va k => some (.long (LongF.toWord { ew := ew, inv := bit1 k.inv, mask := k.m, va := va, vd := vd, major := 0x54 }))
  | .vtopkIdx o => some (.long (LongF.toWord (encTopk 0 o)))
  | .vtopkKey o => some (.long (LongF.toWord (encTopk 1 o)))
  | .vtopkMask o => some (.long (LongF.toWord (encTopk 2 o)))
  | .vld o => some (.long (LongF.toWord (encVMem 0x60 o)))
  | .vst o => some (.long (LongF.toWord (encVMem 0x61 o)))
  | .vldx o => some (.long (LongF.toWord (encVIdx 0x62 0 o)))
  | .vstxOrd o => some (.long (LongF.toWord (encVIdx 0x63 0 o)))
  | .vstxAny o => some (.long (LongF.toWord (encVIdx 0x63 1 o)))
  | .vamo o => some (.long (LongF.toWord (encVAmo o)))
  | .vwait c ew ga gc form k => some (.long (LongF.toWord { imm16 := 0#14 ++ form.code, func := c, ew := ew, inv := bit1 k.inv, mask := k.m, vc := gc, vb := form.vb, va := ga, major := 0x65 }))
  | .vbind vd ga slot => some (.long (LongF.toWord { imm16 := 0#14 ++ slot, va := ga, vd := vd, major := 0x66 }))
  | .vunbind vd => some (.long (LongF.toWord { vd := vd, major := 0x67 }))
  | .lcap n => some (.long (LongF.toWord { imm16 := 0#10 ++ n, major := 0x80 }))
  | .lnest nk op ga =>
    some (.long (match op with
      | .all gb => LongF.toWord { bs := 1, vb := gb, va := ga, vd := low3 nk, major := 0x81 }
      | .stride j => LongF.toWord { func := (0#1 ++ j) + 1, va := ga, vd := low3 nk, major := 0x81 }
      | .cnt => LongF.toWord { func := 5, va := ga, vd := low3 nk, major := 0x81 }))
  | .lrun q dims => some (.long (LongF.toWord { imm16 := 0#12 ++ bit1 q ++ dims, major := 0x82 }))
  | .lwait => some (.long (LongF.toWord { major := 0x83 }))
  | .mattach d => some (.long (LongF.toWord { vd := d, major := 0x90 }))
  | .mdetach => some (.long (LongF.toWord { major := 0x91 }))
  | .mtile t r c => some (.long (LongF.toWord { imm16 := 0#9 ++ c ++ r ++ t, major := 0x92 }))
  | .mtileOff t => some (.long (LongF.toWord { imm16 := 0#13 ++ t, func := 1, major := 0x92 }))
  | .mclr t => some (.long (LongF.toWord { imm16 := 0#13 ++ t, major := 0x93 }))
  | .mpredRows gb => some (.long (LongF.toWord { func := 0, bs := 1, vb := gb, major := 0x94 }))
  | .mpredCols gb => some (.long (LongF.toWord { func := 1, bs := 1, vb := gb, major := 0x94 }))
  | .mpredK gb => some (.long (LongF.toWord { func := 2, bs := 1, vb := gb, major := 0x94 }))
  | .mpredRowm ma => some (.long (LongF.toWord { func := 3, va := low3 ma, major := 0x94 }))
  | .mpredColm ma => some (.long (LongF.toWord { func := 4, va := low3 ma, major := 0x94 }))
  | .mpredAll => some (.long (LongF.toWord { func := 5, major := 0x94 }))
  | .mksum mc t fa fb rnd ga gb gc => some (.long (LongF.toWord { imm16 := 0#8 ++ fb ++ 0#1 ++ t, func := 0#2 ++ bit1 mc, bs := 1, rnd := rnd, fmt := fa, vc := gc, vb := gb, va := ga, major := 0x95 }))
  | .mlineRrow o => some (.long (LongF.toWord (encLine 0x96 0 false false o)))
  | .mlineRcol o => some (.long (LongF.toWord (encLine 0x96 1 false false o)))
  | .mlineWrow o => some (.long (LongF.toWord (encLine 0x96 2 true false o)))
  | .mlineWcol o => some (.long (LongF.toWord (encLine 0x96 3 true false o)))
  | .mlineSt o => some (.long (LongF.toWord (encLineMem 0x96 4 false o)))
  | .mlineLd o => some (.long (LongF.toWord (encLineMem 0x96 5 false o)))
  | .mdrain z o => some (.long (LongF.toWord (encLine 0x97 0 false z o)))
  | .mdrainSt z o => some (.long (LongF.toWord (encLineMem 0x97 1 z o)))
  | .mgroup d m => some (.long (LongF.toWord { imm16 := 0#12 ++ m, vd := d, major := 0x98 }))
  | .kvctxCfg d a b => some (.long (LongF.toWord (encG3 0xA0 0 d a b)))
  | .kvctxOpen d a b => some (.long (LongF.toWord (encG3 0xA0 1 d a b)))
  | .kvctxClose d a b => some (.long (LongF.toWord (encG3 0xA0 2 d a b)))
  | .kvctxCb d a b => some (.long (LongF.toWord (encG3 0xA0 3 d a b)))
  | .kvctxPin d a b => some (.long (LongF.toWord (encG3 0xA0 4 d a b)))
  | .kvapp f ga vb vc k => some (.long (LongF.toWord { fmt := fmt4 f, ew := ewOf2 f, inv := bit1 k.inv, mask := k.m, vc := vc, vb := vb, va := ga, major := 0xA1 }))
  | .kvld f rnd sat vd ga k row => some (.long (LongF.toWord { imm16 := 0#13 ++ rowImm row, row := rowBit row, sat := bit1 sat, rnd := rnd, fmt := fmt4 f, ew := ewOf2 f, inv := bit1 k.inv, mask := k.m, va := ga, vd := vd, major := 0xA2 }))
  | .kvscore f vd ga vb k row => some (.long (LongF.toWord { imm16 := 0#13 ++ rowImm row, row := rowBit row, fmt := fmt4 f, ew := 2, inv := bit1 k.inv, mask := k.m, vb := vb, va := ga, vd := vd, major := 0xA3 }))
  | .kvvqsLut vd ga vb vc k row => some (.long (LongF.toWord { imm16 := 0#13 ++ rowImm row, row := rowBit row, fmt := 14, ew := 2, inv := bit1 k.inv, mask := k.m, vc := vc, vb := vb, va := ga, vd := vd, major := 0xA4 }))
  | .kvvqsQ qf vd ga vb k row => some (.long (LongF.toWord { imm16 := 0#8 ++ fmt4 qf ++ 0#1 ++ rowImm row, func := 1, row := rowBit row, fmt := 14, ew := 2, inv := bit1 k.inv, mask := k.m, vb := vb, va := ga, vd := vd, major := 0xA4 }))
  | .kvacc ga vb k row => some (.long (LongF.toWord { imm16 := 0#13 ++ rowImm row, row := rowBit row, ew := 2, inv := bit1 k.inv, mask := k.m, vb := vb, va := ga, major := 0xA5 }))
  | .kvcomp d a b => some (.long (LongF.toWord (encG3 0xA6 0 d a b)))
  | .kvfree a b => some (.long (LongF.toWord (encG3 0xA7 0 0 a b)))
  | .srread vd gb => some (.long (LongF.toWord { bs := 1, ew := 2, vb := gb, vd := vd, major := 0xB0 }))
  | .srreset gb ga => some (.long (LongF.toWord { bs := 1, vb := gb, va := ga, major := 0xB1 }))
  | .srbind d slot ga gb gc => some (.long (LongF.toWord { imm16 := 0#14 ++ slot, bs := 1, vc := gc, vb := gb, va := ga, vd := d, major := 0xB2 }))
  | .lconv comp f rnd sat vd va vb mr => some (.long (LongF.toWord { func := 0#2 ++ bit1 comp, sat := bit1 sat, rnd := rnd, fmt := fmt4 f, ew := ewOf2 f, mask := mr, vb := vb, va := va, vd := vd, major := 0xD8 }))
  | .lcstateGet f rnd vd => some (.long (LongF.toWord { rnd := rnd, fmt := fmt4 f, ew := ewOf2 f, vd := vd, major := 0xD9 }))
  | .lcstatePut f va => some (.long (LongF.toWord { func := 1, fmt := fmt4 f, ew := ewOf2 f, va := va, major := 0xD9 }))
  | .lcstateZero => some (.long (LongF.toWord { func := 2, major := 0xD9 }))
  | .cpy o => some (.long (LongF.toWord (encCpy 0 false o)))
  | .cpyFill o => some (.long (LongF.toWord (encCpy 1 false o)))
  | .cpyHash o => some (.long (LongF.toWord (encCpy 2 false o)))
  | .cpyRing o => some (.long (LongF.toWord (encCpy 0 true o)))
  | .twait d a => some (.long (LongF.toWord { func := 0, va := a, vd := d, major := 0xc1 }))
  | .twaitAny d a => some (.long (LongF.toWord { func := 1, va := a, vd := d, major := 0xc1 }))
  | .tfirst d a => some (.long (LongF.toWord { func := 0, va := a, vd := d, major := 0xc2 }))
  | .tfirstNw d a => some (.long (LongF.toWord { func := 1, va := a, vd := d, major := 0xc2 }))
  | .tclr d a => some (.long (LongF.toWord { func := 0, va := a, vd := d, major := 0xc3 }))
  | .rpush ga vb c => some (.long (LongF.toWord { imm16 := 0#12 ++ c, vb := vb, va := ga, major := 0xB8 }))
  | .rpull vd ga c => some (.long (LongF.toWord { imm16 := 0#12 ++ c, va := ga, vd := vd, major := 0xB9 }))
  | .reos ga => some (.long (LongF.toWord { va := ga, major := 0xBA }))
  | .rstat d ga => some (.long (LongF.toWord { va := ga, vd := d, major := 0xBB }))
  | .rstatReset ga => some (.long (LongF.toWord { func := 1, va := ga, major := 0xBB }))
  | .revch ga => some (.long (LongF.toWord { va := ga, major := 0xD0 }))
  | .revret => some (.long (LongF.toWord { major := 0xD1 }))
  | .revst d depth fld => some (.long (LongF.toWord { imm16 := 0#8 ++ fld ++ 0#1 ++ depth, vd := d, major := 0xD2 }))
  | .revabt => some (.long (LongF.toWord { major := 0xD3 }))
  | .ldi m d imm => some (.long (encImm32 imm m 0 d 0xE0))
  | .addil d a imm => some (.long (encImm32 imm 0 a d 0xE1))
  | .callf d imm => some (.long (encImm32 imm 0 0 d 0xE2))
  | .callfR d a imm => some (.long (encImm32 imm 1 a d 0xE2))
  | .savev ga => some (.long (LongF.toWord { va := ga, major := 0xF0 }))
  | .restv ga => some (.long (LongF.toWord { va := ga, major := 0xF1 }))
  | .stepb => some (.long (LongF.toWord { major := 0xF2 }))
  | .markres d a b => some (.long (LongF.toWord (encG3 0xF3 0 d a b)))
  | .tlbinv d a b => some (.long (LongF.toWord (encG3 0xF4 0 d a b)))
  | .tlbinvMove d a b => some (.long (LongF.toWord (encG3 0xF4 1 d a b)))
  | .tlbinvWait d a b => some (.long (LongF.toWord (encG3 0xF4 2 d a b)))
  | .tlbinvAll d => some (.long (LongF.toWord (encG3 0xF4 3 d 0 0)))
  | .gbarAllArrived .. | .wfeTimeout .. | .impreciseTrapDelivery .. | .queuehang .. | .vwaitPoll .. | .matrixRedivide ..
  | .kvBlockMigration .. | .copyCommandRun .. | .copyCommandComplete .. | .copyCommandStop .. | .pinWaitPreempt ..
  | .targetRequest .. | .hostRequest .. | .peerRequest .. | .leeCacheFill .. | .directoryRecall .. | .actinv ..
  | .actinvDone | .linkReplay .. | .linkReset .. | .linkRetrain .. | .linklost .. | .preempt .. | .resumeGang ..
  | .powerCapChange .. | .haltreq .. | .resume .. | .registerWrite .. | .doorbell .. | .launch .. | .copy .. | .signal ..
  | .wait .. | .waitSatisfied .. | .writeSignal .. | .barrier .. | .measure .. | .receipt .. | .jobCompletion ..
  | .strideSchedule .. | .timeSliceEnd .. | .packetDeferTimeout .. | .usagePeriodEnd .. | .partitionCreate ..
  | .partitionTeardown .. | .queueReopen .. | .migrationStart .. | .generationSwitch .. | .migrationStopPhase ..
  | .hdmDecoderProgram .. | .boot .. | .bootReadyTimeout | .failedStartClear | .rowStepBoundary .. | .kvBlockMoveDone ..
  | .firmwareImageLoad .. => none

/-! ### Candidates -/

/-- The candidate of a scalar parcel of class 00 (R308). -/
def cand0 (w : BitVec 32) : Option Instr :=
  let u := w.getLsbD 23
  let wd := w.getLsbD 24
  let t := w.extractLsb' 23 2
  let rnd := w.extractLsb' 25 2
  let b := w.extractLsb' 18 5
  let a := w.extractLsb' 13 5
  let d := w.extractLsb' 8 5
  let imm := w.extractLsb' 18 14
  match (w.extractLsb' 2 6).toNat with
  | 0 => some (.add wd d a b)
  | 1 => some (.sub wd d a b)
  | 2 => some (.and wd d a b)
  | 3 => some (.or wd d a b)
  | 4 => some (.xor wd d a b)
  | 5 => some (.shl wd d a b)
  | 6 => some (.shr wd d a b)
  | 7 => some (.sar wd d a b)
  | 8 => some (.mul wd d a b)
  | 9 => some (.mulh u wd d a b)
  | 10 => some (.div u wd d a b)
  | 11 => some (.rem u wd d a b)
  | 12 => some (.min u wd d a b)
  | 13 => some (.max u wd d a b)
  | 14 => some (.slt u wd d a b)
  | 15 => some (.clz wd d a)
  | 16 => some (.ctz wd d a)
  | 17 => some (.popc wd d a)
  | 18 => some (.ext u wd d a b)
  | 19 => some (.addi d a imm)
  | 20 => some (.andi d a imm)
  | 21 => some (.ori d a imm)
  | 22 => some (.xori d a imm)
  | 23 => some (.shli d a (w.extractLsb' 18 6))
  | 24 => some (.shri d a (w.extractLsb' 18 6))
  | 25 => some (.sari d a (w.extractLsb' 18 6))
  | 26 => some (.slti d a imm)
  | 27 => some (.lih d (w.extractLsb' 13 19))
  | 28 => some (.fadd t rnd d a b)
  | 29 => some (.fsub t rnd d a b)
  | 30 => some (.fmul t rnd d a b)
  | 31 => some (.fdiv t rnd d a b)
  | 33 => some (.fma t rnd d a b)
  | 32 => some (.fsqrt t rnd d a)
  | 34 => some (.fmin t d a b)
  | 35 => some (.fmax t d a b)
  | 36 => some (.fcmp (w.extractLsb' 27 2) t d a b)
  | 37 => some (.fcvt t (w.extractLsb' 27 2) rnd d a)
  | 38 => some (.qput (w.extractLsb' 8 3) a)
  | 39 => some (.qget d (w.extractLsb' 13 3))
  | 40 => some (.qstat d (w.extractLsb' 13 3))
  | 41 => some .gbar
  | _ => none

/-- The candidate of a scalar parcel of class 01 (R309). -/
def cand1 (w : BitVec 32) : Option Instr :=
  let b := w.extractLsb' 18 5
  let a := w.extractLsb' 13 5
  let d := w.extractLsb' 8 5
  let imm := w.extractLsb' 18 14
  let immB : BitVec 14 := w.extractLsb' 23 9 ++ w.extractLsb' 8 5
  let immJ := w.extractLsb' 13 19
  let o : AmoOrd := ⟨w.getLsbD 26, w.getLsbD 27, w.getLsbD 28, w.extractLsb' 29 3⟩
  let m := w.extractLsb' 13 3
  match (w.extractLsb' 2 6).toNat with
  | 0 => some (.ldB d a imm)
  | 1 => some (.ldH d a imm)
  | 2 => some (.ldW d a imm)
  | 3 => some (.ldD d a imm)
  | 4 => some (.ldBu d a imm)
  | 5 => some (.ldHu d a imm)
  | 6 => some (.ldWu d a imm)
  | 7 => some (.stB a b immB)
  | 8 => some (.stH a b immB)
  | 9 => some (.stW a b immB)
  | 10 => some (.stD a b immB)
  | 11 =>
    match (w.extractLsb' 23 3).toNat with
    | 0 => some (.amoSwap o d a b)
    | 1 => some (.amoAdd o d a b)
    | 2 => some (.amoAnd o d a b)
    | 3 => some (.amoOr o d a b)
    | 4 => some (.amoXor o d a b)
    | 5 => some (.amoMin o d a b)
    | 6 => some (.amoMax o d a b)
    | _ => none
  | 12 => some (.cas o d a b)
  | 13 => some (.beq a b immB)
  | 14 => some (.bne a b immB)
  | 15 => some (.blt a b immB)
  | 16 => some (.bge a b immB)
  | 17 => some (.bltu a b immB)
  | 18 => some (.bgeu a b immB)
  | 19 => some (.bany m immB)
  | 20 => some (.ball m immB)
  | 21 => some (.bnone m immB)
  | 22 => some (.jmp immJ)
  | 23 => some (.call d immJ)
  | 24 => some (.jr d a imm)
  | 25 => some (.fence (w.extractLsb' 18 3) (w.getLsbD 21) (w.getLsbD 22))
  | 26 => some (.sbar (w.extractLsb' 18 8))
  | 27 => some (.csrr d imm)
  | 28 => some (.csrw a imm)
  | 29 => some (.csrs d a imm)
  | 30 => some (.csrc d a imm)
  | 31 => some (.trap imm)
  | 32 => some (.brk imm)
  | 33 => some .eret
  | 34 => some .wfe
  | 35 => some .halt
  | _ => none

/-- The candidate of a control parcel (R304). -/
def cand3 (w : BitVec 32) : Option Instr :=
  match (w.extractLsb' 2 3).toNat with
  | 0 => some (.convoyHeader (w.extractLsb' 8 18) (w.extractLsb' 5 3))
  | 1 => some .nop32
  | _ => none

/-- The candidate of a long instruction (R310). -/
def cand2 (w : BitVec 64) : Option Instr :=
  let f := LongF.ofWord w
  let k : MaskSel := ⟨f.mask, f.inv == 1⟩
  let row : Option (BitVec 3) := if f.row == 1 then some (f.imm16.extractLsb' 0 3) else none
  let rowB := f.row == 1
  let b := src2Of f.bs f.vb
  let ty := tyOf (f.imm16.extractLsb' 14 2) f.fmt f.ew
  let sat := f.sat == 1
  let fm := f.fmt.extractLsb' 0 2
  let i3 := fun (r : BitVec 5) => r.extractLsb' 0 3
  let tile := f.imm16.extractLsb' 0 3
  let e2 : Ew2 := ⟨f.vd, f.va, b, ty, f.rnd, sat, k, row⟩
  let e1 : Ew1 := ⟨f.vd, f.va, ty, sat, k, row⟩
  let qo : QntOp := ⟨f.vd, f.va, f.vb, f.fmt, f.imm16.extractLsb' 0 4, f.rnd, sat, k, rowB⟩
  let ro : RedOp := ⟨f.func, ty, f.rnd, sat, f.vd, f.va, f.vb, k⟩
  let tk : TopkOp := ⟨ty, f.rnd, f.vd, f.va, f.vb, k⟩
  let mf : MemForm := if f.func == 0 then .unit else if f.func == 1 then .strided f.vb else .rows f.vb
  let vm : VMemOp := ⟨f.ew, mf, f.vd, f.va, f.imm16, k, rowB⟩
  let vi : VIdxOp := ⟨f.ew, f.vd, f.va, f.imm16, f.vb, k, rowB⟩
  let lo : LineOp := ⟨tile, fm, f.rnd, sat, if f.func == 2 || f.func == 3 then f.va else f.vd, f.vb, k⟩
  let lm : LineMem := ⟨tile, fm, f.rnd, sat, f.va, f.vb⟩
  let z := f.imm16.getLsbD 3
  let co : CpyOp := ⟨f.imm16.getLsbD 9, f.imm16.extractLsb' 6 3, f.imm16.extractLsb' 0 6, f.vd, f.va, f.vb⟩
  let imm32 := w.extractLsb' 32 32
  let md := w.extractLsb' 20 2
  let fn := f.func.toNat
  match f.major.toNat with
  | 0x00 => some (.vsetl f.ew f.vd f.va)
  | 0x01 => some (.vsetr f.vd f.va)
  | 0x02 => some (.lanes f.vd f.va)
  | 0x03 => some (.forkl f.vd f.imm16)
  | 0x04 => some (.joinl f.va)
  | 0x05 =>
    match fn with
    | 0 => some (.msetAll (i3 f.vd) row)
    | 1 => some (.msetNone (i3 f.vd) row)
    | 2 => some (.msetLt (i3 f.vd) f.va row)
    | _ => some (.msetNz f.ew (i3 f.vd) f.va row)
  | 0x06 => some (.mlogic f.func (i3 f.vd) (i3 f.va) (i3 f.vb) row)
  | 0x07 => if fn = 0 then some (.mpopc f.vd (i3 f.va)) else some (.mpopcQ (i3 f.vd) (i3 f.va))
  | 0x08 => if fn = 0 then some (.mfirst f.vd (i3 f.va)) else some (.mfirstQ (i3 f.vd) (i3 f.va))
  | 0x09 => some (.vcmp f.func (i3 f.vd) f.va b ty f.rnd k row)
  | 0x0A =>
    if fn = 0 then some (.vget (f.imm16.getLsbD 14) f.ew f.vd f.va f.vb)
    else some (.vgetQ (f.imm16.getLsbD 14) f.ew (i3 f.vd) f.va f.vb)
  | 0x0B => some (.vput f.ew f.vd f.va f.vb)
  | 0x10 => some (.vadd e2)
  | 0x11 => some (.vsub e2)
  | 0x12 => some (.vmul e2)
  | 0x13 => some (.vfma e2)
  | 0x14 => some (.vdiv e2)
  | 0x15 => some (.vmin e2)
  | 0x16 => some (.vmax e2)
  | 0x17 => some (.vabs e1)
  | 0x18 => some (.vneg e1)
  | 0x19 => some (.vand e2)
  | 0x1A => some (.vor e2)
  | 0x1B => some (.vxor e2)
  | 0x1C => some (.vshl e2)
  | 0x1D => some (.vshr e2)
  | 0x1E => some (.vsel f.ew f.vd f.va f.vb k row)
  | 0x1F => some (.vmov f.ew f.vd f.va k row)
  | 0x20 =>
    match fn with
    | 0 => some (.vsplat f.ew f.vd f.vb k row)
    | 1 => some (.vsplatImm f.ew f.vd f.imm16 k rowB)
    | _ => some (.vsplatQ f.ew f.vd (f.va.extractLsb' 0 2) k row)
  | 0x21 => some (.viota f.ew f.vd f.va f.vb k row)
  | 0x40 => some (.vsfu f.func fm f.rnd sat f.vd f.va k row)
  | 0x41 =>
    match fn with
    | 0 => some (.vcvt (.fmt f.fmt (f.imm16.extractLsb' 0 4)) f.rnd sat f.vd f.va k rowB)
    | 1 => some (.vcvt (.fromInt false f.ew f.fmt) f.rnd sat f.vd f.va k rowB)
    | 2 => some (.vcvt (.toInt false f.ew f.fmt) f.rnd sat f.vd f.va k rowB)
    | 3 => some (.vcvt (.fromInt true f.ew f.fmt) f.rnd sat f.vd f.va k rowB)
    | _ => some (.vcvt (.toInt true f.ew f.fmt) f.rnd sat f.vd f.va k rowB)
  | 0x42 => some (.vhad fm f.rnd f.vd f.va row)
  | 0x43 => if fn = 0 then some (.vqnt qo) else some (.vqntSc qo)
  | 0x44 => some (.vdqnt (f.func.getLsbD 0) qo)
  | 0x45 => some (.vlut (f.imm16.extractLsb' 4 2) (f.imm16.extractLsb' 8 4) f.rnd f.vd f.va f.vb k)
  | 0x50 =>
    match (f.imm16.extractLsb' 0 2).toNat with
    | 0 => some (.vred ro)
    | 1 => some (.vredRow ro)
    | _ => some (.vredQ ro)
  | 0x51 => some (.vscan (f.imm16.getLsbD 1) ro)
  | 0x52 =>
    match fn with
    | 0 => some (.vslideUp (.g f.vb) f.ew f.vd f.va k)
    | 1 => some (.vslideDn (.g f.vb) f.ew f.vd f.va k)
    | 2 => some (.vslideUp (.imm f.imm16) f.ew f.vd f.va k)
    | _ => some (.vslideDn (.imm f.imm16) f.ew f.vd f.va k)
  | 0x53 => some (.vperm (f.func.getLsbD 0) f.ew f.vd f.va f.vb k)
  | 0x54 => some (.vcomp f.ew f.vd f.va k)
  | 0x55 =>
    match fn with
    | 0 => some (.vtopkIdx tk)
    | 1 => some (.vtopkKey tk)
    | _ => some (.vtopkMask tk)
  | 0x60 => some (.vld vm)
  | 0x61 => some (.vst vm)
  | 0x62 => some (.vldx vi)
  | 0x63 => if fn = 0 then some (.vstxOrd vi) else some (.vstxAny vi)
  | 0x64 => some (.vamo ⟨f.func, ty, f.rnd, f.vd, f.va, f.vb, f.vc, f.imm16.extractLsb' 0 14, k, rowB⟩)
  | 0x65 =>
    match (f.imm16.extractLsb' 0 2).toNat with
    | 0 => some (.vwait f.func f.ew f.va f.vc .single k)
    | 1 => some (.vwait f.func f.ew f.va f.vc .seq k)
    | _ => some (.vwait f.func f.ew f.va f.vc (.idx f.vb) k)
  | 0x66 => some (.vbind f.vd f.va (f.imm16.extractLsb' 0 2))
  | 0x67 => some (.vunbind f.vd)
  | 0x80 => some (.lcap (f.imm16.extractLsb' 0 6))
  | 0x81 =>
    match fn with
    | 0 => some (.lnest (i3 f.vd) (.all f.vb) f.va)
    | 5 => some (.lnest (i3 f.vd) .cnt f.va)
    | _ => some (.lnest (i3 f.vd) (.stride ((f.func - 1).extractLsb' 0 2)) f.va)
  | 0x82 => some (.lrun (f.imm16.getLsbD 3) (f.imm16.extractLsb' 0 3))
  | 0x83 => some .lwait
  | 0x90 => some (.mattach f.vd)
  | 0x91 => some .mdetach
  | 0x92 =>
    if fn = 0 then some (.mtile tile (f.imm16.extractLsb' 3 2) (f.imm16.extractLsb' 5 2)) else some (.mtileOff tile)
  | 0x93 => some (.mclr tile)
  | 0x94 =>
    match fn with
    | 0 => some (.mpredRows f.vb)
    | 1 => some (.mpredCols f.vb)
    | 2 => some (.mpredK f.vb)
    | 3 => some (.mpredRowm (i3 f.va))
    | 4 => some (.mpredColm (i3 f.va))
    | _ => some .mpredAll
  | 0x95 => some (.mksum (f.func.getLsbD 0) tile f.fmt (f.imm16.extractLsb' 4 4) f.rnd f.va f.vb f.vc)
  | 0x96 =>
    match fn with
    | 0 => some (.mlineRrow lo)
    | 1 => some (.mlineRcol lo)
    | 2 => some (.mlineWrow lo)
    | 3 => some (.mlineWcol lo)
    | 4 => some (.mlineSt lm)
    | _ => some (.mlineLd lm)
  | 0x97 => if fn = 0 then some (.mdrain z lo) else some (.mdrainSt z lm)
  | 0x98 => some (.mgroup f.vd (f.imm16.extractLsb' 0 4))
  | 0xA0 =>
    match fn with
    | 0 => some (.kvctxCfg f.vd f.va f.vb)
    | 1 => some (.kvctxOpen f.vd f.va f.vb)
    | 2 => some (.kvctxClose f.vd f.va f.vb)
    | 3 => some (.kvctxCb f.vd f.va f.vb)
    | _ => some (.kvctxPin f.vd f.va f.vb)
  | 0xA1 => some (.kvapp fm f.va f.vb f.vc k)
  | 0xA2 => some (.kvld fm f.rnd sat f.vd f.va k row)
  | 0xA3 => some (.kvscore fm f.vd f.va f.vb k row)
  | 0xA4 =>
    if fn = 0 then some (.kvvqsLut f.vd f.va f.vb f.vc k row)
    else some (.kvvqsQ (f.imm16.extractLsb' 4 2) f.vd f.va f.vb k row)
  | 0xA5 => some (.kvacc f.va f.vb k row)
  | 0xA6 => some (.kvcomp f.vd f.va f.vb)
  | 0xA7 => some (.kvfree f.va f.vb)
  | 0xB0 => some (.srread f.vd f.vb)
  | 0xB1 => some (.srreset f.vb f.va)
  | 0xB2 => some (.srbind f.vd (f.imm16.extractLsb' 0 2) f.va f.vb f.vc)
  | 0xB8 => some (.rpush f.va f.vb (f.imm16.extractLsb' 0 4))
  | 0xB9 => some (.rpull f.vd f.va (f.imm16.extractLsb' 0 4))
  | 0xBA => some (.reos f.va)
  | 0xBB => if fn = 0 then some (.rstat f.vd f.va) else some (.rstatReset f.va)
  | 0xC0 =>
    match fn with
    | 0 => if f.imm16.getLsbD 10 then some (.cpyRing co) else some (.cpy co)
    | 1 => some (.cpyFill co)
    | _ => some (.cpyHash co)
  | 0xC1 => if fn = 0 then some (.twait f.vd f.va) else some (.twaitAny f.vd f.va)
  | 0xC2 => if fn = 0 then some (.tfirst f.vd f.va) else some (.tfirstNw f.vd f.va)
  | 0xC3 => some (.tclr f.vd f.va)
  | 0xD0 => some (.revch f.va)
  | 0xD1 => some .revret
  | 0xD2 => some (.revst f.vd (f.imm16.extractLsb' 0 3) (f.imm16.extractLsb' 4 4))
  | 0xD3 => some .revabt
  | 0xD8 => some (.lconv (f.func.getLsbD 0) fm f.rnd sat f.vd f.va f.vb f.mask)
  | 0xD9 =>
    match fn with
    | 0 => some (.lcstateGet fm f.rnd f.vd)
    | 1 => some (.lcstatePut fm f.va)
    | _ => some .lcstateZero
  | 0xE0 => some (.ldi md f.vd imm32)
  | 0xE1 => some (.addil f.vd f.va imm32)
  | 0xE2 => if md == 0 then some (.callf f.vd imm32) else some (.callfR f.vd f.va imm32)
  | 0xF0 => some (.savev f.va)
  | 0xF1 => some (.restv f.va)
  | 0xF2 => some .stepb
  | 0xF3 => some (.markres f.vd f.va f.vb)
  | 0xF4 =>
    match fn with
    | 0 => some (.tlbinv f.vd f.va f.vb)
    | 1 => some (.tlbinvMove f.vd f.va f.vb)
    | 2 => some (.tlbinvWait f.vd f.va f.vb)
    | _ => some (.tlbinvAll f.vd)
  | _ => none

/-! ### Decoding -/

/-- Whether a candidate names a CSR that R232 does not list, with every other field as it must be. -/
def Instr.badCsr : Instr → Bool
  | .csrr _ c | .csrw _ c | .csrs _ _ c | .csrc _ _ c => !csrListed c.toNat
  | _ => false

/-- A candidate is the instruction when it is well formed and encodes to the word (R307). -/
def accept (c : Code) (i : Instr) : Except DecErr Instr :=
  if encode i = some c then
    if i.wellFormed then .ok i
    else if i.badCsr then .error .unlistedCsr
    else match i with
      | .convoyHeader .. => .error .badConvoy
      | _ => .error .reservedField
  else match i with
    | .convoyHeader .. => .error .badConvoy
    | .nop32 => .error .reservedControl
    | _ => .error .reservedField

/-- A 32-bit parcel (R298). -/
def decodeParcel (w : BitVec 32) : Except DecErr Instr :=
  match (w.extractLsb' 0 2).toNat with
  | 0 => match cand0 w with
    | some i => accept (.parcel w) i
    | none => .error .reservedMajor
  | 1 => match cand1 w with
    | some i => accept (.parcel w) i
    | none => .error .reservedMajor
  | 3 => match cand3 w with
    | some i => accept (.parcel w) i
    | none => .error .reservedControl
  | _ => .error .truncated

/-- A 64-bit long instruction (R302, R310). -/
def decodeLong (w : BitVec 64) : Except DecErr Instr :=
  match cand2 w with
  | some i => accept (.long w) i
  | none => .error .reservedMajor

/-- Whether the parcel is the first half of a long instruction: bits 1:0 are 10 (R298). -/
def isLongParcel (w : BitVec 32) : Bool := w.extractLsb' 0 2 == 2

/-- Little-endian number of a list of bytes (R297, R281). -/
def leNat : List Byte → Nat
  | [] => 0
  | b :: bs => b.toNat + 256 * leNat bs

/-- `n` little-endian bytes of a number. -/
def leBytes : Nat → Nat → List Byte
  | 0, _ => []
  | n + 1, x => BitVec.ofNat 8 x :: leBytes n (x / 256)

/-- Decoding of bytes as memory holds them: the instruction and the bytes after it (R297, R298). -/
def decodeBytes (bs : List Byte) : Except DecErr (Instr × List Byte) :=
  if bs.length < 4 then .error .truncated
  else
    let p : BitVec 32 := BitVec.ofNat 32 (leNat (bs.take 4))
    if isLongParcel p then
      if bs.length < 8 then .error .truncated
      else (decodeLong (BitVec.ofNat 64 (leNat (bs.take 8)))).map (fun i => (i, bs.drop 8))
    else (decodeParcel p).map (fun i => (i, bs.drop 4))

/-- The bytes of an encoding, at increasing addresses (R297). -/
def Code.bytes : Code → List Byte
  | .parcel w => leBytes 4 w.toNat
  | .long w => leBytes 8 w.toNat

/-- Length in bytes of an instruction's encoding; 0 for an event (R297). -/
def Instr.bytes (i : Instr) : Nat :=
  match encode i with
  | some (.parcel _) => 4
  | some (.long _) => 8
  | none => 0

/-- The instruction that the decoder reads from the table's word `w` of `nbits` bits; the bits above are zero. -/
def decodeTableWord (nbits w : Nat) : Option Instr :=
  match decodeBytes (leBytes 8 (w % 2 ^ nbits)) with
  | .ok (i, _) => some i
  | .error _ => none

end Sys2Proof
end

