-- ==== Sys2Proof/Machine/Num.lean ====
section
/-! DEFINITION. Number formats and exact arithmetic (R277 to R288): a code is decoded to an exact value, operations
are exact, and one function rounds to a format. -/

namespace Sys2Proof.Machine

/-- FFLAGS bits (R288). -/
abbrev Fl := BitVec 7

def flInvalid : Fl := 1
def flDivzero : Fl := 2
def flOverflow : Fl := 4
def flUnderflow : Fl := 8
def flInexact : Fl := 16
def flSaturated : Fl := 32
def flIntovf : Fl := 64

def flIf (c : Bool) (f : Fl) : Fl := if c then f else 0

/-- Bit length: 0 for 0. -/
def bitLen (n : Nat) : Nat := if n = 0 then 0 else Nat.log2 n + 1

/-- The layout of a floating-point format (R279); `ieee` formats have infinities. -/
structure FFmt where
  ebits : Nat
  fbits : Nat
  bias : Nat
  ieee : Bool
  deriving DecidableEq, Repr

def fp32 : FFmt := ⟨8, 23, 127, true⟩
def bf16 : FFmt := ⟨8, 7, 127, true⟩
def fp16 : FFmt := ⟨5, 10, 15, true⟩
def e5m2 : FFmt := ⟨5, 2, 15, true⟩
def e4m3 : FFmt := ⟨4, 3, 7, false⟩
def e3m4 : FFmt := ⟨3, 4, 3, false⟩
/-- binary64, of the scalar unit (R325). -/
def fp64 : FFmt := ⟨11, 52, 1023, true⟩

/-- The float format of a code of R277. -/
def fmtOf : Nat → Option FFmt
  | 0 => some fp32
  | 1 => some bf16
  | 2 => some fp16
  | 3 => some e5m2
  | 4 => some e4m3
  | 5 => some e3m4
  | _ => none

/-- Bits per stored element of a format code (R277). -/
def bitsFmt : Nat → Nat
  | 0 => 32
  | 1 | 2 | 6 => 16
  | 10 | 11 | 12 | 13 => 4
  | _ => 8

/-- An exact value: (−1)^neg × m × 2^e, an infinity, or a NaN (signalling or quiet). -/
inductive Val where
  | nan (sig : Bool)
  | inf (neg : Bool)
  | fin (neg : Bool) (m : Nat) (e : Int)
  deriving DecidableEq, Repr

namespace Val

def isNan : Val → Bool
  | nan _ => true
  | _ => false

def isSig : Val → Bool
  | nan s => s
  | _ => false

def isInf : Val → Bool
  | inf _ => true
  | _ => false

def isZero : Val → Bool
  | fin _ m _ => m == 0
  | _ => false

def sign : Val → Bool
  | nan _ => false
  | inf n => n
  | fin n _ _ => n

def neg : Val → Val
  | nan s => nan s
  | inf n => inf (!n)
  | fin n m e => fin (!n) m e

def abs : Val → Val
  | nan s => nan s
  | inf _ => inf false
  | fin _ m e => fin false m e

def zero (n : Bool) : Val := fin n 0 0

end Val

/-- An integer as an exact value; 0 is +0. -/
def ofInt (z : Int) : Val := .fin (decide (z < 0)) z.natAbs 0

/-- Canonical NaN of a format (R279). -/
def canonical (f : FFmt) : Nat :=
  if f.ieee then (2 ^ f.ebits - 1) * 2 ^ f.fbits + 2 ^ (f.fbits - 1) else 2 ^ (f.ebits + f.fbits) - 1

def signBit (f : FFmt) (neg : Bool) : Nat := if neg then 2 ^ (f.ebits + f.fbits) else 0

def infCode (f : FFmt) (neg : Bool) : Nat := signBit f neg + (2 ^ f.ebits - 1) * 2 ^ f.fbits

/-- Largest finite magnitude: significand and exponent of its unit (R279). -/
def maxMant (f : FFmt) : Nat := if f.ieee then 2 ^ (f.fbits + 1) - 1 else 2 ^ (f.fbits + 1) - 2
def maxUnit (f : FFmt) : Int := ((if f.ieee then 2 ^ f.ebits - 2 else 2 ^ f.ebits - 1 : Nat) : Int) - f.bias - f.fbits
def maxCode (f : FFmt) (neg : Bool) : Nat :=
  signBit f neg + (if f.ieee then (2 ^ f.ebits - 1) * 2 ^ f.fbits - 1 else 2 ^ (f.ebits + f.fbits) - 2)

/-- The exponent of the unit of subnormals. -/
def minUnit (f : FFmt) : Int := 1 - (f.bias : Int) - f.fbits

/-- The value of a code of a float format (R279, R280). -/
def decodeF (f : FFmt) (x : Nat) : Val :=
  let neg := x / 2 ^ (f.ebits + f.fbits) % 2 == 1
  let e := x / 2 ^ f.fbits % 2 ^ f.ebits
  let m := x % 2 ^ f.fbits
  if f.ieee && e == 2 ^ f.ebits - 1 then
    if m == 0 then .inf neg else .nan (decide (m < 2 ^ (f.fbits - 1)))
  else if !f.ieee && e == 2 ^ f.ebits - 1 && m == 2 ^ f.fbits - 1 then .nan false
  else if e == 0 then .fin neg m (minUnit f)
  else .fin neg (2 ^ f.fbits + m) ((e : Int) - f.bias - f.fbits)

/-- Whether rounding goes up in magnitude, from the kept integer `r` and the rest against half a unit (R283). -/
def roundUp (rm : Nat) (neg : Bool) (r rem half : Nat) : Bool :=
  match rm with
  | 0 => decide (half < rem) || (rem == half && half != 0 && r % 2 == 1)
  | 1 => false
  | 2 => neg && rem != 0
  | _ => !neg && rem != 0

/-- `m × 2^e` as an integer count of 2^q, rounded, and whether it is inexact. -/
def roundAt (rm : Nat) (neg : Bool) (m : Nat) (e q : Int) : Nat × Bool :=
  if q ≤ e then (m * 2 ^ (e - q).toNat, false)
  else
    let sh := (q - e).toNat
    let r := m / 2 ^ sh
    let rem := m % 2 ^ sh
    let half := 2 ^ (sh - 1)
    (if roundUp rm neg r rem half then r + 1 else r, rem != 0)

/-- The result and flags of an overflow (R284). -/
def overflowTo (f : FFmt) (rm : Nat) (sat neg : Bool) : Nat × Fl :=
  if sat then (maxCode f neg, flSaturated ||| flInexact)
  else
    let away := match rm with
      | 0 => true
      | 1 => false
      | 2 => neg
      | _ => !neg
    if !away then (maxCode f neg, flOverflow ||| flInexact)
    else if f.ieee then (infCode f neg, flOverflow ||| flInexact)
    else (canonical f, flOverflow ||| flInexact ||| flInvalid)

/-- round(x, f, rm) of R317: one rounding of an exact value, with the flags of R284 and R285. -/
def roundV (f : FFmt) (rm : Nat) (sat : Bool) (v : Val) : Nat × Fl :=
  match v with
  | .nan _ => (canonical f, 0)
  | .inf neg =>
    if f.ieee then (infCode f neg, 0)
    else if sat then (maxCode f neg, flSaturated) else (canonical f, flInvalid)
  | .fin neg m e =>
    if m = 0 then (signBit f neg, 0)
    else
      let top : Int := e + (bitLen m : Int) - 1
      let q := max (top - f.fbits) (minUnit f)
      let (r, inex) := roundAt rm neg m e q
      let (r, q) := if r = 2 ^ (f.fbits + 1) then (2 ^ f.fbits, q + 1) else (r, q)
      if maxUnit f < q ∨ (q = maxUnit f ∧ maxMant f < r) then overflowTo f rm sat neg
      else
        let tiny := decide (top < 1 - (f.bias : Int))
        let code := if r < 2 ^ f.fbits then r else (q - minUnit f + 1).toNat * 2 ^ f.fbits + (r - 2 ^ f.fbits)
        (signBit f neg + code, flIf inex flInexact ||| flIf (tiny && inex) flUnderflow)

def sigFl (v : Val) : Fl := flIf v.isSig flInvalid

/-- A conversion: a signalling NaN operand sets invalid (R280). -/
def convertV (f : FFmt) (rm : Nat) (sat : Bool) (v : Val) : Nat × Fl :=
  let (c, fl) := roundV f rm sat v
  (c, fl ||| sigFl v)

/-- Exact product (R286). -/
def mulV (a b : Val) : Val × Fl :=
  let s := a.sign != b.sign
  match a, b with
  | .fin _ m e, .fin _ m' e' => (.fin s (m * m') (e + e'), 0)
  | .nan x, v => (.nan false, flIf (x || v.isSig) flInvalid)
  | v, .nan x => (.nan false, flIf (x || v.isSig) flInvalid)
  | .inf _, v => if v.isZero then (.nan false, flInvalid) else (.inf s, 0)
  | v, .inf _ => if v.isZero then (.nan false, flInvalid) else (.inf s, 0)

/-- `m × 2^e` in units of 2^q for q at most e, with its sign. -/
def inUnits (neg : Bool) (m : Nat) (e q : Int) : Int :=
  let n : Int := (m * 2 ^ (e - q).toNat : Nat)
  if neg then -n else n

/-- A signed count of 2^q as a value; `nz` is the sign that a zero takes. -/
def ofUnits (z q : Int) (nz : Bool) : Val :=
  if z = 0 then .zero nz else .fin (decide (z < 0)) z.natAbs q

def minExp : List Val → Int → Int
  | [], q => q
  | .fin _ m e :: r, q => minExp r (if m = 0 then q else min e q)
  | _ :: r, q => minExp r q

def sumUnits (q : Int) : List Val → Int
  | [] => 0
  | .fin n m e :: r => (if m = 0 then 0 else inUnits n m e q) + sumUnits q r
  | _ :: r => sumUnits q r

/-- Exact sum of a list of addends with the special cases of R286 and the zero sign of R283. -/
def sumV (rm : Nat) (l : List Val) : Val × Fl :=
  if l.any Val.isNan then (.nan false, flIf (l.any Val.isSig) flInvalid)
  else
    let pi := l.any (fun v => v.isInf && !v.sign)
    let ni := l.any (fun v => v.isInf && v.sign)
    if pi && ni then (.nan false, flInvalid)
    else if pi then (.inf false, 0)
    else if ni then (.inf true, 0)
    else
      let q := minExp l 0
      let allNeg := l.all (fun v => v.isZero && v.sign)
      let allPos := l.all (fun v => v.isZero && !v.sign)
      (ofUnits (sumUnits q l) q (allNeg || (rm == 2 && !allPos)), 0)

def addV (rm : Nat) (a b : Val) : Val × Fl := sumV rm [a, b]

/-- Quotient with a sticky last bit: enough bits that one rounding of it is that of the exact quotient (R286). -/
def divV (a b : Val) : Val × Fl :=
  let s := a.sign != b.sign
  match a, b with
  | .nan x, v => (.nan false, flIf (x || v.isSig) flInvalid)
  | v, .nan x => (.nan false, flIf (x || v.isSig) flInvalid)
  | .inf _, .inf _ => (.nan false, flInvalid)
  | .inf _, .fin .. => (.inf s, 0)
  | .fin .., .inf _ => (.zero s, 0)
  | .fin _ m e, .fin _ m' e' =>
    if m' = 0 then (if m = 0 then (.nan false, flInvalid) else (.inf s, flDivzero))
    else if m = 0 then (.zero s, 0)
    else
      let k := 130 + bitLen m'
      let n := m * 2 ^ k
      (.fin s (2 * (n / m') + b2n (n % m' != 0)) (e - e' - k - 1), 0)

/-- Integer square root, bit `i` downwards. -/
def isqrtFrom (n : Nat) : Nat → Nat → Nat
  | 0, r => r
  | i + 1, r => isqrtFrom n i (if (r + 2 ^ i) * (r + 2 ^ i) ≤ n then r + 2 ^ i else r)

def isqrt (n : Nat) : Nat := isqrtFrom n (bitLen n / 2 + 1) 0

/-- Square root with a sticky last bit (R286); √−0 is −0. -/
def sqrtV (a : Val) : Val × Fl :=
  match a with
  | .nan x => (.nan false, flIf x flInvalid)
  | .inf neg => if neg then (.nan false, flInvalid) else (.inf false, 0)
  | .fin neg m e =>
    if m = 0 then (.zero neg, 0)
    else if neg then (.nan false, flInvalid)
    else
      let k : Nat := if (e - 260) % 2 = 0 then 260 else 261
      let n := m * 2 ^ k
      let r := isqrt n
      (.fin false (2 * r + b2n (r * r != n)) ((e - k) / 2 - 1), 0)

/-- a < b for values neither of which is NaN; −0 equals +0. -/
def ltV (a b : Val) : Bool :=
  match a, b with
  | .nan _, _ => false
  | _, .nan _ => false
  | .inf n, .inf n' => n && !n'
  | .inf n, .fin .. => n
  | .fin .., .inf n => !n
  | .fin n m e, .fin n' m' e' =>
    let q := min e e'
    decide (inUnits n m e q < inUnits n' m' e' q)

def eqV (a b : Val) : Bool := !a.isNan && !b.isNan && !ltV a b && !ltV b a

/-- The total order of R286 for minimum and maximum: −0 below +0. -/
def leMin (a b : Val) : Bool :=
  if a.isZero && b.isZero then a.sign || !b.sign else !ltV b a

/-- Minimum and maximum of R286. -/
def minV (a b : Val) : Val × Fl :=
  (if a.isNan then (if b.isNan then .nan false else b) else if b.isNan then a else if leMin a b then a else b,
   sigFl a ||| sigFl b)

def maxV (a b : Val) : Val × Fl :=
  (if a.isNan then (if b.isNan then .nan false else b) else if b.isNan then a else if leMin a b then b else a,
   sigFl a ||| sigFl b)

/-- A value rounded to an integer and clamped to lo .. hi, with the flags of R287. -/
def toIntV (rm : Nat) (lo hi : Int) (v : Val) : Int × Fl :=
  match v with
  | .nan _ => (0, flInvalid)
  | .inf neg => (if neg then lo else hi, flSaturated)
  | .fin neg m e =>
    let (r, inex) := roundAt rm neg m e 0
    let z : Int := if neg then -(r : Int) else r
    if z < lo then (lo, flInexact ||| flSaturated)
    else if hi < z then (hi, flInexact ||| flSaturated)
    else (z, flIf inex flInexact)

/-- Range of the integer format codes 6, 7, 8, 10, 11 (R281). -/
def intRange : Nat → Int × Int
  | 6 => (-32768, 32767)
  | 7 => (-128, 127)
  | 8 => (0, 255)
  | 10 => (-8, 7)
  | 11 => (0, 15)
  | _ => (0, 0)

/-- The exact value of a stored element of any format code 0 to 8, 10 and 11 (9, 12, 13: the code as an integer). -/
def decodeFmt (f x : Nat) : Val :=
  match fmtOf f with
  | some ff => decodeF ff x
  | none =>
    match f with
    | 6 => ofInt (signed 16 x)
    | 7 | 9 => ofInt (signed 8 x)
    | 8 => ofInt ((x % 256 : Nat) : Int)
    | 10 | 12 | 13 => ofInt (signed 4 x)
    | 11 => ofInt ((x % 16 : Nat) : Int)
    | _ => ofInt ((x % 256 : Nat) : Int)

/-- Conversion of a value to a format code: rounded for float formats, rounded and clamped for integer formats. -/
def encodeFmt (f rm : Nat) (sat : Bool) (v : Val) : Nat × Fl :=
  match fmtOf f with
  | some ff => convertV ff rm sat v
  | none =>
    let (z, fl) := toIntV rm (intRange f).1 (intRange f).2 v
    (wrapTo (bitsFmt f) z, fl)

/-- The range of an integer of `w` bits. -/
def intLo (uns : Bool) (w : Nat) : Int := if uns then 0 else -((2 ^ (w - 1) : Nat) : Int)
def intHi (uns : Bool) (w : Nat) : Int := if uns then ((2 ^ w : Nat) : Int) - 1 else ((2 ^ (w - 1) : Nat) : Int) - 1

/-- A code of `w` bits as an integer. -/
def asInt (uns : Bool) (w x : Nat) : Int := if uns then ((x % 2 ^ w : Nat) : Int) else signed w x

/-- Integer arithmetic of R287: wrap with intovf, or clamp with saturated under .sat. -/
def intResult (uns sat : Bool) (w : Nat) (z : Int) : Nat × Fl :=
  let lo := intLo uns w
  let hi := intHi uns w
  let out := decide (z < lo) || decide (hi < z)
  if !out then (wrapTo w z, 0)
  else if sat then (wrapTo w (if z < lo then lo else hi), flSaturated)
  else (wrapTo w z, flIntovf)

/-- Integer division truncated towards zero, with the corners of R287: quotient, remainder, flags of each. -/
def intDivRem (uns : Bool) (w x y : Nat) : (Nat × Fl) × (Nat × Fl) :=
  let a := asInt uns w x
  let b := asInt uns w y
  if b = 0 then ((2 ^ w - 1, flDivzero), (x % 2 ^ w, flDivzero))
  else
    let q := Int.tdiv a b
    ((wrapTo w q, flIf (decide (intHi uns w < q)) flIntovf), (wrapTo w (a - b * q), 0))

end Sys2Proof.Machine
end

