-- ==== Sys2Proof/Machine/Mem.lean ====
section
/-! DEFINITION. The state's accessors, the memory behind every target, the check of R28, the walk of R50 and the
accesses that instructions make. -/

namespace Sys2Proof.Machine

/-! ## Accessors -/

def hartOf (s : State) (h : Nat) : Hart := cget Hart.reset h s.harts
def setHart (h : Nat) (x : Hart) (s : State) : State := { s with harts := cset Hart.reset h x s.harts }
def modHart (h : Nat) (f : Hart → Hart) (s : State) : State := setHart h (f (hartOf s h)) s
/-- The hart whose parcel exec performs. -/
def me (s : State) : Hart := hartOf s s.cur
def modMe (f : Hart → Hart) (s : State) : State := modHart s.cur f s

/-- Core, cluster and die of a hart (R13). -/
def coreNo (h : Nat) : Nat := h / 8
def clusterNo (h : Nat) : Nat := h / 32
def dieNo (h : Nat) : Nat := h / 512 % 4

def coreOf (s : State) (c : Nat) : Core := cget Core.reset c s.cores
def setCore (c : Nat) (x : Core) (s : State) : State := { s with cores := cset Core.reset c x s.cores }
def modCore (c : Nat) (f : Core → Core) (s : State) : State := setCore c (f (coreOf s c)) s

def partOf (s : State) (p : Nat) : Part := cget Part.reset p s.parts
def setPart (p : Nat) (x : Part) (s : State) : State := { s with parts := cset Part.reset p x s.parts }
def modPart (p : Nat) (f : Part → Part) (s : State) : State := setPart p (f (partOf s p)) s

def linkOf (s : State) (l : Nat) : Link := cget Link.reset l s.links
def modLink (l : Nat) (f : Link → Link) (s : State) : State :=
  { s with links := cset Link.reset l (f (linkOf s l)) s.links }

def jobOf (s : State) (j : Nat) : Job := cget Job.none j s.jobs
def modJob (j : Nat) (f : Job → Job) (s : State) : State := { s with jobs := cset Job.none j (f (jobOf s j)) s.jobs }

def migrOf (s : State) (p : Nat) : Migration := cget Migration.none p s.migr
def modMigr (p : Nat) (f : Migration → Migration) (s : State) : State :=
  { s with migr := cset Migration.none p (f (migrOf s p)) s.migr }

/-- Queue q of partition p, key 256 p + q. -/
def queueOf (s : State) (p q : Nat) : Queue := cget Queue.reset (256 * p + q) s.queues
def modQueue (p q : Nat) (f : Queue → Queue) (s : State) : State :=
  { s with queues := cset Queue.reset (256 * p + q) (f (queueOf s p q)) s.queues }

/-- The next value of the free counter is used up. -/
def bump (s : State) : State := { s with fresh := s.fresh + 1 }

/-! ## The partition word (R76) -/

def pwRcmax (w : BitVec 32) : Nat := bitsOf w.toNat 25 3
def pwSrfu (w : BitVec 32) : Nat := bitsOf w.toNat 18 7
def pwAccu (w : BitVec 32) : Nat := bitsOf w.toNat 14 4
def pwScru (w : BitVec 32) : Nat := bitsOf w.toNat 7 7
def pwVrfu (w : BitVec 32) : Nat := bitsOf w.toNat 0 7

/-- R77, with H harts on the core. -/
def pwValid (w : BitVec 32) (h : Nat) : Bool :=
  pwVrfu w + pwAccu w + pwScru w == 64 && decide (pwAccu w ≤ 8) && decide (pwSrfu w ≤ pwScru w) &&
  decide (h * (pwRcmax w + 1) ≤ pwVrfu w) && bitsOf w.toNat 28 4 == 0

/-! ## Faults of an access -/

/-- The result of an access: a value and the state after it, a fault and the state it leaves (accessed bits, zeroed
pages and fault-log records stay), or no answer while a link is down (R180). -/
inductive MR (α : Type) where
  | ok (a : α) (s : State)
  | bad (f : Flt) (s : State)
  | wait (s : State)

def mbind {α β : Type} (m : MR α) (f : α → State → MR β) : MR β :=
  match m with
  | .ok a s => f a s
  | .bad e s => .bad e s
  | .wait s => .wait s

/-- Cause codes (R231). -/
def cIllegal : Nat := 0x01
def cPriv : Nat := 0x02
def cMisalign : Nat := 0x03
def cPage : Nat := 0x04
def cAccess : Nat := 0x05
def cKvpage : Nat := 0x06
def cQuota : Nat := 0x07
def cTileoff : Nat := 0x08
def cRescale : Nat := 0x09
def cEcc : Nat := 0x0A
def cLinklost : Nat := 0x0B
def cBreak : Nat := 0x0C
def cCalltrap : Nat := 0x0D
def cWatch : Nat := 0x0E
def cReverr : Nat := 0x0F
def cStream : Nat := 0x10
def cRingeos : Nat := 0x11
def cCompress : Nat := 0x12
def cPreempt : Nat := 0x13
def cQueuehang : Nat := 0x14

/-- A fault whose TRAPADDR and TRAPSTAT are numbers. -/
def mkFlt (cause addr stat : Nat) : Flt := ⟨cause, BitVec.ofNat 64 addr, BitVec.ofNat 64 stat⟩

/-! ## Targets and the check -/

def kindCode : AccKind → Nat
  | .read => 0
  | .write => 1
  | .fetch => 2
  | .atomic => 3

def isWr : AccKind → Bool
  | .write | .atomic => true
  | .read | .fetch => false

/-- Whether an HDM range holds the address (R439). -/
def hdmHas (s : State) (a : Nat) : Bool := s.hdm.any (fun r => decide (r.base ≤ a ∧ a < r.base + r.bytes))

/-- What a device in minimal mode has: die 0, its cluster 0 and the Tammas link (R275; log 79). -/
def minimalHas (a : Nat) : Bool :=
  if a < 0x10000000000 then decide (a < 0x800000000)
  else if a < 0x40000000000 then (a - 0x10000000000) / 65536 % 4 == 0
  else if a < 0x60000000000 then true
  else if a < 0x80000000000 then false
  else if a < 0xF0000000000 then decide (a < 0x80001000000)
  else true

/-- The target that holds a package-local address: kind of R36 and instance; none where R12 says so. The instance is the
tier-1 controller (8 × die + number), the tier-2 channel, the core, or the die of a register block. Which controller of a
die holds a 64 KiB page, and that doorbells, views and ACTINV stand in die 0's block and a debug page in that of its
hart's die, is the model's choice (log 11). -/
def targetOf (s : State) (a : Nat) : Option (Nat × Nat) :=
  if s.boot.minimal && !minimalHas a then none
  else if a < 0x2000000000 then some (0, a / 0x800000000 * 8 + a / 65536 % 8)
  else if 0x10000000000 ≤ a ∧ a < 0x1C000000000 then some (1, (a - 0x10000000000) / 65536 % 16)
  else if 0x40000000000 ≤ a ∧ a < 0x60000000000 then some (4, 0)
  else if 0x60000000000 ≤ a ∧ a < 0x80000000000 then (if hdmHas s a then some (5, 0) else none)
  else if 0x80000000000 ≤ a ∧ a < 0x80040000000 then
    let c := (a - 0x80000000000) / 0x400000
    if (a - 0x80000000000) % 0x400000 < pwScru (coreOf s c).pword * 65536 then some (2, c) else none
  else if 0xF0000000000 ≤ a ∧ a < 0xF0000800000 then some (3, (a - 0xF0000000000) / 4096 / 512)
  else if 0xF0010000000 ≤ a ∧ a < 0xF0010410000 then some (3, 0)
  else if 0xF0020000000 ≤ a ∧ a < 0xF0020410000 then some (3, 0)
  else if 0xF0030000000 ≤ a ∧ a < 0xF0030010000 then some (3, 0)
  else if 0xF0040000000 ≤ a ∧ a < 0xF0040040000 then some (3, (a - 0xF0040000000) / 65536)
  else none

/-- Whether a master may reach a block of the CSR and MMIO region at all (R17, R36): the host is class 4, with its own
function's pages only, and reads views only. -/
def reachedBy (master a : Nat) (kind : AccKind) : Bool :=
  let host := master / 8192 == 4
  let root := master == 0x6004
  if a < 0xF0000800000 then host || root
  else if a < 0xF0020000000 then master / 8192 == 3 || (host && master % 128 == (a - 0xF0010000000) / 65536)
  else if a < 0xF0030000000 then
    root || (host && master % 128 == (a - 0xF0020000000) / 65536 && kind == .read)
  else root

def isMmio (a : Nat) : Bool := decide (0xF0000000000 ≤ a)

def tgtKey (t : Nat × Nat) : Nat := t.1 * 256 + t.2

/-- The live entry of a master and descriptor of a target (R25, R26). -/
def accEntry (s : State) (t : Nat × Nat) (master : Nat) : Nat :=
  (cget 0 (tgtKey t * 65536 + master) s.accE).toNat
def accRegion (s : State) (t : Nat × Nat) (k : Nat) : Nat := (cget 0 (tgtKey t * 256 + k) s.accD).toNat

/-- Bit of a right among RD, WR, EX, AT from the top (R25, R26). -/
def rightBit : AccKind → Nat
  | .read => 3
  | .write => 2
  | .fetch => 1
  | .atomic => 0

/-- The search of R28 through `n` descriptors from `k` on; `page` is A >> 16, or the package number at a station. -/
def regionSearch (s : State) (t : Nat × Nat) (rights : Nat) (part page : Nat) (kind : AccKind) : Nat → Nat → Nat
  | 0, _ => 4
  | n + 1, k =>
    if 256 ≤ k then 4
    else
      let d := accRegion s t k
      if bitsOf d 63 1 = 1 ∧ bitsOf d 16 28 ≤ page ∧ page ≤ bitsOf d 80 28 ∧
          (bitsOf d 56 7 = part ∨ bitsOf d 56 7 = 127) then
        if rights.testBit (rightBit kind) && (bitsOf d 52 4).testBit (rightBit kind) then 0 else 5
      else regionSearch s t rights part page kind n (k + 1)

/-- R14: the address lies in a die's lee-cache carve-out. -/
def inCarveOut (a : Nat) : Bool := decide (a < 0x2000000000) && decide (0x7F0000000 ≤ a % 0x800000000)

/-- The fill agent of a die (R22). -/
def fillMaster (die : Nat) : Nat := 0xC000 + 2 * 4 + die
def kvMaster (die : Nat) : Nat := 0xC000 + 1 * 4 + die
def hashMaster (die : Nat) : Nat := 0xC000 + 4 * 4 + die
def anemMaster (die : Nat) : Nat := 0xC000 + 5 * 4 + die
def rootMaster : Nat := 0x6004

/-- What hardware bars whatever the tables hold: a die's carve-out, but for its fill agent (R14), and a register block, but
for the masters that R17 names. -/
def barred (master a : Nat) (kind : AccKind) : Bool :=
  (inCarveOut a && master != fillMaster (a / 0x800000000)) || (isMmio a && !reachedBy master a kind)

/-- The check at one target (R28): 0 admits, else the reason code of R33. -/
def checkAt (s : State) (t : Nat × Nat) (bar : Bool) (master part page : Nat) (kind : AccKind) : Nat :=
  let root := master == rootMaster && s.rootCached.getLsbD t.1
  let e := accEntry s t master
  if !root && bitsOf e 63 1 == 0 then 2
  else if root && part != 127 then 3
  else if !root && bitsOf e 51 1 == 0 && bitsOf e 56 7 != part then 3
  else if bar then 4
  else if root then 0
  else regionSearch s t (bitsOf e 52 4) part page kind (bitsOf e 16 8) (bitsOf e 8 8)

/-- The check of a request at its local target. -/
def checkLocal (s : State) (master part a : Nat) (kind : AccKind) : Nat :=
  match targetOf s a with
  | none => 1
  | some t => checkAt s t (barred master a kind) master part (a / 65536) kind

/-- A denial's record and count (R33). -/
def logRecord (target part master addr : Nat) (kind : AccKind) (reason : Nat) (s : State) : State :=
  let r : LogRec := { part := part, target := target, master := master, addr := addr, kind := kindCode kind, reason := reason }
  modPart part (fun p => { p with denials := p.denials + 1 }) { s with faultLog := s.faultLog ++ [r] }

/-- A denial at the target of this package that holds an address; with reason 'no target' the record's target is 0xFFFF
(the model's choice, log 11). -/
def logDenial (s : State) (master part a : Nat) (kind : AccKind) (reason : Nat) : State :=
  let t := match targetOf s (a % 2 ^ 44) with
    | some t => tgtKey t
    | none => 0xFFFF
  logRecord (if reason = 1 then 0xFFFF else t) part master a kind reason s

/-! ## Bytes -/

/-- What a byte of memory that nothing has written reads as (log 4). -/
def unlistedByte : Byte := 0

def memByte (s : State) (a : Nat) : Byte := cget unlistedByte a s.mem
def memBytes (s : State) (a n : Nat) : List Byte := cgetRange unlistedByte a n s.mem
def setMem (a : Nat) (bs : List Byte) (s : State) : State :=
  { s with mem := csetRange unlistedByte a bs s.mem,
           poison := s.poison.filter (fun p => decide (p < a ∨ a + bs.length ≤ p)) }
/-- Zeros over a range: the bytes are no longer listed. -/
def zeroMem (a n : Nat) (s : State) : State :=
  { s with mem := ctake a s.mem ++ cdrop (a + n) s.mem,
           poison := s.poison.filter (fun p => decide (p < a ∨ a + n ≤ p)) }
def firstPoison (s : State) (a n : Nat) : Option Nat := s.poison.find? (fun p => decide (a ≤ p ∧ p < a + n))

/-- The canonical form of memory. -/
def Memory.wf (m : List Host.Cell) : Bool := cellsWf (fun _ => unlistedByte) m

/-- The number of the package's global address of a local address (R10). -/
def glob (s : State) (a : Nat) : Nat := s.pkg * 2 ^ 44 + a

/-- Root firmware's and the hardware's own tables: little-endian numbers in this package's memory. -/
def rawRead (s : State) (a n : Nat) : Nat := ofBytes (memBytes s (glob s a) n)
def rawWrite (a n x : Nat) (s : State) : State := setMem (glob s a) (toBytes n x) s

/-- R69: zeroing of tier-2 pages whose zero-pending bit is set, before an access to them. Key: page number. -/
def settleZero (s : State) (a : Nat) : State :=
  if cget false (a / 65536) s.zeroPend then
    zeroMem (glob s (a / 65536 * 65536)) 65536 { s with zeroPend := cset false (a / 65536) false s.zeroPend }
  else s

/-- Root firmware writes bytes at a local address: pages of tier 2 that still wait for their zeroing are zeroed first. -/
def rootPut (a : Nat) (bs : List Byte) (s : State) : State :=
  setMem (glob s a) bs
    ((List.range ((a % 65536 + bs.length + 65535) / 65536)).foldl (fun s i => settleZero s ((a / 65536 + i) * 65536)) s)

/-! ## Who asks -/

/-- The party of a request (R22, R49, R50): its master and partition, the hart whose context and identity the walk
uses, its privilege, its stream (R158), and whether a nest drives it (R58 NEST). -/
structure Who where
  master : Nat
  part : Nat
  /-- the partition whose tables are walked: table accesses carry it, and its window map routes (R50, R82) -/
  walk : Nat
  hart : Nat
  troot : Nat
  handler : Bool
  stream : Nat
  nest : Bool
  /-- its writes fold into statistics records (R149) -/
  folds : Bool
  /-- what holds the translation of the page its elements lie in (R54); 0 for nothing -/
  hold : Nat
  /-- the engine that makes the access, 0 for the hart's own accesses and for fabric agents, and when it took it (R172) -/
  agent : Nat
  taken : Nat
  deriving DecidableEq, Repr

/-- Roots of a context (R43, R45). -/
def contextOf (s : State) (part ctx : Nat) : Context := (partOf s part).contexts.getD ctx { troot := 0, kvroot := 0 }
def contextRoot (s : State) (part ctx : Nat) : Nat := (contextOf s part ctx).troot.toNat

/-- A hart's own accesses on a stream. -/
def hartWho (s : State) (h : Nat) (stream : Nat) (handler : Bool) : Who :=
  { master := h, part := (hartOf s h).part.toNat, walk := (hartOf s h).part.toNat, hart := h,
    troot := (hartOf s h).troot.toNat, handler := handler, stream := stream, nest := false, folds := true, hold := 0, agent := 0, taken := 0 }

/-- A scalar access of the current hart. -/
def myWho (s : State) : Who := hartWho s s.cur 0 (me s).handler

/-! ## Translation -/

/-- Where a translated access goes: package, local address, the leaf (R47) and its level. -/
structure Loc where
  pkg : Nat
  a : Nat
  leaf : Nat
  lvl : Nat
  deriving DecidableEq, Repr

def Loc.target (l : Loc) : Nat := bitsOf l.leaf 4 3
def Loc.fro (l : Loc) : Bool := l.leaf.testBit 7
def Loc.add (l : Loc) (n : Nat) : Loc := { l with a := l.a + n }
def Loc.global (l : Loc) : Nat := l.pkg * 2 ^ 44 + l.a

/-- PAGE (R58). -/
def pageFlt (w : Who) (va : Nat) (kind : AccKind) (reason lvl : Nat) : Flt :=
  mkFlt cPage va (reason + 16 * (lvl - 1) + 64 * b2n (kind == .write) + 128 * b2n (kind == .fetch) +
    256 * b2n (kind == .atomic) + 512 * b2n w.nest)

/-- ACCESS (R34). -/
def accessFlt (va reason : Nat) : Flt := mkFlt cAccess va reason

/-- Index of a virtual address at a level (R44). -/
def vaIndex (va lvl : Nat) : Nat := bitsOf va (48 - 8 * lvl) 8

/-- The reserved bits of a pointer entry (R46). -/
def ptrReserved (e : Nat) : Bool := bitsOf e 12 3 != 0 || bitsOf e 1 3 != 0

def pageSize (lvl : Nat) : Nat := if lvl = 2 then 2 ^ 32 else if lvl = 3 then 2 ^ 24 else 65536

/-- FRAME of a leaf, without the RECIDX bits when TRK is set (R47). -/
def leafFrame (e : Nat) : Nat := if e.testBit 8 then bitsOf e 16 32 else bitsOf e 16 48

/-- R48. -/
def leafMalformed (e lvl : Nat) : Bool :=
  let t := bitsOf e 4 3
  t == 6 || t == 7 || (lvl == 4 && e.testBit 15) || leafFrame e * 65536 % pageSize lvl != 0 ||
  ((e.testBit 8 || e.testBit 11) && t != 0 && t != 1) || (e.testBit 10 && !(t == 1 && lvl == 4))

/-- The region of R11 in which a target's frames lie. -/
def regionOfTarget : Nat → Nat × Nat
  | 0 => (0, 0x10000000000)
  | 1 => (0x10000000000, 0x40000000000)
  | 2 => (0x40000000000, 0x60000000000)
  | 3 => (0x60000000000, 0x80000000000)
  | _ => (0x80000000000, 0x80040000000)

def leafOutside (e lvl : Nat) : Bool :=
  let f := leafFrame e * 65536
  let t := bitsOf e 4 3
  if t = 4 then decide (2 ^ 54 ≤ f) else decide (f < (regionOfTarget t).1 ∨ (regionOfTarget t).2 < f + pageSize lvl)

/-- A table read of the walk, checked as a read by the hart (R50). -/
def tableRead (w : Who) (va a : Nat) (s : State) : MR Nat :=
  let r := checkLocal s w.hart w.walk a .read
  if r ≠ 0 then .bad (accessFlt va r) (logDenial s w.hart w.walk a .read r)
  else let s := settleZero s a; .ok (rawRead s a 8) s

/-- Levels `5 − n` to 4 of the walk from table `t`: the leaf's level, address and value. -/
def walkLevels (w : Who) (va : Nat) (kind : AccKind) : Nat → Nat → State → MR (Nat × Nat × Nat)
  | 0, _, s => .bad (pageFlt w va kind 6 4) s
  | n + 1, t, s =>
    let lvl := 4 - n
    let ea := t + 8 * vaIndex va lvl
    mbind (tableRead w va ea s) fun e s =>
      if !e.testBit 0 then .bad (pageFlt w va kind 1 lvl) s
      else if lvl = 4 ∨ (e.testBit 15 ∧ 1 < lvl) then .ok (lvl, ea, e) s
      else if e.testBit 15 || decide (1 < bitsOf e 4 3) || ptrReserved e then .bad (pageFlt w va kind 6 lvl) s
      else walkLevels w va kind n (bitsOf e 16 48 * 65536 + bitsOf e 7 5 * 0x800) s

/-- Zero the pages of a leaf, 64 KiB by 64 KiB, each checked as a write (R50, R70). A leaf with WTR does not put them into
the write bitmap: R72 names the writes translated through it, and the zeroing precedes that (the model's choice,
log 80). A page of tier 2 that is held compressed stays so, whatever CMP of the leaf is: R67 speaks of writes through a
leaf, and the walker's zeros are none (the model's choice, log 80). -/
def zeroPages (w : Who) (va f : Nat) : Nat → State → MR Unit
  | 0, s => .ok () s
  | n + 1, s =>
    mbind (zeroPages w va f n s) fun _ s =>
      let a := f + 65536 * n
      let r := checkLocal s w.hart w.walk a .write
      if r ≠ 0 then .bad (accessFlt va r) (logDenial s w.hart w.walk a .write r)
      else .ok () (zeroMem (glob s a) 65536 { s with zeroPend := cset false (a / 65536) false s.zeroPend })

/-- update_a_d of R50, R51 and R70: zeroing, then one compare-and-swap that sets A and D and clears ZFT; none where the
entry is no longer what the walk read. -/
def updateAD (w : Who) (va lvl ea e : Nat) (kind : AccKind) (s : State) : MR (Option Nat) :=
  let e' := (e ||| 2 ^ 12 ||| (if isWr kind then 2 ^ 13 else 0)) &&& (2 ^ 64 - 1 - 2 ^ 11)
  if e' = e then .ok (some e) s
  else
    mbind (if e.testBit 11 then zeroPages w va (leafFrame e * 65536) (pageSize lvl / 65536) s else .ok () s)
      fun _ s =>
        let r := checkLocal s w.hart w.walk ea .atomic
        if r ≠ 0 then .bad (accessFlt va r) (logDenial s w.hart w.walk ea .atomic r)
        else if rawRead s ea 8 ≠ e then .ok none s
        else .ok (some e') (rawWrite ea 8 e' s)

/-- The place of a frame address under a leaf: R10 for target 4, the window map for target 5 (R82). -/
def locOf (s : State) (w : Who) (leaf lvl a : Nat) : Loc :=
  let t := bitsOf leaf 4 3
  if t = 4 then { pkg := a / 2 ^ 44, a := a % 2 ^ 44, leaf := leaf, lvl := lvl }
  else if t = 5 then
    let slot := (a - 0x80000000000) / 0x400000
    let core := (cget (BitVec.ofNat 8 slot) (w.walk * 256 + slot) s.winMap).toNat
    { pkg := s.pkg, a := 0x80000000000 + 0x400000 * core + (a - 0x80000000000) % 0x400000, leaf := leaf,
      lvl := lvl }
  else { pkg := s.pkg, a := a, leaf := leaf, lvl := lvl }

/-- What the rights of a leaf deny an access (R49), as the reason of R58. -/
def leafDenies (w : Who) (kind : AccKind) (e : Nat) : Option Nat :=
  if isWr kind && !e.testBit 1 then some 2
  else if kind == .fetch && !e.testBit 2 then some 3
  else if !w.handler && !e.testBit 3 then some 4
  else none

/-- The walk of R50, made again from level 1 when the compare of R51 fails; `fuel` bounds the restarts. Only a leaf that
lies in a page it zeroes can make the compare fail here, and the zeroed entry is invalid at the next walk. -/
def translateFrom (w : Who) (va : Nat) (kind : AccKind) : Nat → State → MR Loc
  | 0, s => .bad (pageFlt w va kind 1 4) s
  | fuel + 1, s =>
    mbind (walkLevels w va kind 4 w.troot s) fun p s =>
      let lvl := p.1
      let e := p.2.2
      if leafMalformed e lvl then .bad (pageFlt w va kind 6 lvl) s
      else if leafOutside e lvl then .bad (pageFlt w va kind 7 lvl) s
      else match leafDenies w kind e with
        | some r => .bad (pageFlt w va kind r lvl) s
        | none =>
          mbind (updateAD w va lvl p.2.1 e kind s) fun e s =>
            match e with
            | some e => .ok (locOf s w e lvl (leafFrame e * 65536 + va % pageSize lvl)) s
            | none => translateFrom w va kind fuel s

/-- translate(va, kind, priv) of R50. -/
def translate (w : Who) (va : Nat) (kind : AccKind) (s : State) : MR Loc :=
  if 2 ^ 48 ≤ va then .bad (pageFlt w va kind 5 1) s else translateFrom w va kind 4 s

/-- The translation that an access makes: in a page that its stream has entered, the one it holds; otherwise a walk, whose
result the stream then holds (R54). -/
def transFor (w : Who) (va : Nat) (kind : AccKind) (s : State) : MR Loc :=
  if w.hold = 0 ∨ 2 ^ 48 ≤ va then translate w va kind s
  else
    let mine (h : Held) : Bool := h.hart == w.hart && h.slot == w.hold
    match s.held.find? (fun h => mine h && h.page == va / 65536) with
    | some h => match leafDenies w kind h.leaf with
      | some r => .bad (pageFlt w va kind r h.lvl) s
      | none => .ok (locOf s w h.leaf h.lvl (leafFrame h.leaf * 65536 + va % pageSize h.lvl)) s
    | none => mbind (translate w va kind s) fun l s =>
        .ok l { s with held := { hart := w.hart, slot := w.hold, page := va / 65536, leaf := l.leaf, lvl := l.lvl } ::
                               s.held.filter (fun h => !mine h) }

/-- Slots of a hart hold no translation any more: an access is complete, or the hart's accesses end. -/
def letGo (h : Nat) (p : Nat → Bool) (s : State) : State :=
  { s with held := s.held.filter (fun e => !(e.hart == h && p e.slot)) }

/-- No stream of certain harts holds a translation of certain 64 KiB pages any more (R66, R72). -/
def dropHeld (p : Hart → Bool) (page : Nat → Bool) (s : State) : State :=
  { s with held := s.held.filter (fun e => !(p (hartOf s e.hart) && page e.page)) }

/-- A denial of an access at a place: one to another package is recorded at the station it leaves by (R31). -/
def logAt (s : State) (master part : Nat) (l : Loc) (kind : AccKind) (reason : Nat) : State :=
  if l.pkg = s.pkg then logDenial s master part l.a kind reason
  else logRecord (tgtKey (6, (Config.stationOf l.pkg).toNat)) part master l.global kind reason s

/-! ## Statistics records (R145 to R153) -/

def recBase (s : State) (part : Nat) : Nat := bitsOf (partOf s part).recbase.toNat 7 37 * 128
def recLast (s : State) (part : Nat) : Nat := bitsOf (partOf s part).recbase.toNat 48 16
def recAddr (s : State) (part i : Nat) : Nat := recBase s part + 128 * i

/-- A record's fields (R147). -/
def recAbsmax (s : State) (part i : Nat) : Nat := rawRead s (recAddr s part i) 4
def recCtl (s : State) (part i : Nat) : Nat := rawRead s (recAddr s part i + 0x18) 4
def recFmt (s : State) (part i : Nat) : Nat := bitsOf (recCtl s part i) 8 4
def recBaseExp (s : State) (part i : Nat) : Int := signed 8 (recCtl s part i)

def shadowKey (die part i : Nat) : Nat := die * 2 ^ 32 + part * 65536 + i

/-- Unsigned comparison of FP32 magnitudes is that of their codes. -/
def foldValue (s : State) (sh : Shadow) (baseExp : Int) (v : Val) : Shadow :=
  let sh := { sh with count := (sh.count + 1) % 2 ^ 64, used := s.ticks }
  match v with
  | .nan _ => { sh with nans := min (sh.nans + 1) (2 ^ 32 - 1) }
  | .inf _ => { sh with infs := min (sh.infs + 1) (2 ^ 32 - 1) }
  | .fin _ m e =>
    if m = 0 then sh
    else
      let code := (roundV fp32 0 false (.fin false m e)).1
      let b := (max 0 (min 31 (e + (bitLen m : Int) - 1 - baseExp))).toNat
      { sh with absmax := max sh.absmax code, bins := cset 0 b (min (cget 0 b sh.bins + 1) (2 ^ 24 - 1)) sh.bins }

/-- A write of a die's anemometer to a record, as a fabric agent of kind 5 that carries 127 (R22, R30): a denial is
recorded, and nothing is written. -/
def recWrite (die a n x : Nat) (s : State) : State :=
  let r := checkLocal s (anemMaster die) 127 a .write
  if r = 0 then rawWrite a n x (settleZero s a) else logDenial s (anemMaster die) 127 a .write r

/-- What the check of a die's anemometer says of a read or a write of a record (R30): 0, or the reason of a denial. -/
def recCode (s : State) (die part i : Nat) (kind : AccKind) : Nat :=
  checkLocal s (anemMaster die) 127 (recAddr s part i) kind

/-- A denied access of an anemometer to a record: it is recorded, and the request that caused the work takes ACCESS at its
own address with the reason (R34). -/
def recDeny (die part i : Nat) (kind : AccKind) (va reason : Nat) (s : State) : MR Unit :=
  .bad (accessFlt va reason) (logDenial s (anemMaster die) 127 (recAddr s part i) kind reason)

/-- An anemometer may read a record, and write it where `wr` says so; else the request at `va` that asks for it takes
ACCESS. -/
def recAllowed (die part i : Nat) (wr : Bool) (va : Nat) (s : State) : MR Unit :=
  let r := recCode s die part i .read
  let w := recCode s die part i .write
  if r ≠ 0 then recDeny die part i .read va r s
  else if wr && w != 0 then recDeny die part i .write va w s
  else .ok () s

/-- A fold merges a shadow into the home record in one step (R153). -/
def mergeShadow (s : State) (die part i : Nat) (sh : Shadow) : State :=
  let a := recAddr s part i
  let s := recWrite die a 4 (max (rawRead s a 4) sh.absmax) s
  let s := recWrite die (a + 4) 4 ((rawRead s (a + 4) 4 + 1) % 2 ^ 32) s
  let s := recWrite die (a + 8) 8 ((rawRead s (a + 8) 8 + sh.count) % 2 ^ 64) s
  let s := recWrite die (a + 0x10) 4 (min (rawRead s (a + 0x10) 4 + sh.nans) (2 ^ 32 - 1)) s
  let s := recWrite die (a + 0x14) 4 (min (rawRead s (a + 0x14) 4 + sh.infs) (2 ^ 32 - 1)) s
  sh.bins.foldl (fun s p =>
    recWrite die (a + 0x20 + 3 * p.1) 3 (min (rawRead s (a + 0x20 + 3 * p.1) 3 + p.2) (2 ^ 24 - 1)) s) s

/-- Fold the shadow of a record held by a die, if it is non-empty. A fold that is denied leaves the shadow, and the request
at `va` that caused it takes ACCESS (R34). -/
def foldShadow (va : Nat) (s : State) (die part i : Nat) : MR Unit :=
  let k := shadowKey die part i
  let sh := cget Shadow.empty k s.shadows
  if sh = Shadow.empty then .ok () s
  else mbind (recAllowed die part i true va s) fun _ s =>
    .ok () (mergeShadow { s with shadows := cset Shadow.empty k Shadow.empty s.shadows } die part i sh)

/-- The least recently used shadow of a die. -/
def lruShadow (die : Nat) (m : Cells Shadow) : Option (Nat × Nat) :=
  m.foldl (fun best p =>
    if p.1 / 2 ^ 32 = die then
      match best with
      | some (_, u) => if p.2.used < u then some (p.1, p.2.used) else best
      | none => some (p.1, p.2.used)
    else best) none

/-- R153: a full store of 4,096 shadows makes room. -/
def roomForShadow (va : Nat) (s : State) (die part i : Nat) : MR Unit :=
  let mine := s.shadows.filter (fun p => decide (p.1 / 2 ^ 32 = die))
  if cget Shadow.empty (shadowKey die part i) s.shadows ≠ Shadow.empty ∨ mine.length < 4096 then .ok () s
  else match lruShadow die s.shadows with
    | some (k, _) => foldShadow va s die (k / 65536 % 65536) (k % 65536)
    | none => .ok () s

/-- Fold `n` elements of `w` bits each that lie whole in the written bytes, from bit `lo` of them on. -/
def foldElems (fmt : Nat) (be : Int) (x : Nat) (w : Nat) : Nat → Nat → State → Shadow → Shadow
  | 0, _, _, sh => sh
  | n + 1, lo, s, sh => foldElems fmt be x w n (lo + w) s (foldValue s sh be (decodeFmt fmt (bitsOf x lo w)))

/-- Of `n` bytes written at an offset of a tracked range: the bytes before the first whole element of `w` bits, the whole
elements, and whether part of an element is written (R150). -/
def trackSpan (w off n : Nat) : Nat × Nat × Bool :=
  let lo := if w ≤ 8 then 0 else (w / 8 - off % (w / 8)) % (w / 8)
  let cnt := if w ≤ 8 then n * (8 / w) else (n - lo) / (w / 8)
  (lo, cnt, decide (8 < w) && (decide (0 < lo) || decide (lo + cnt * (w / 8) < n)))

/-- Whether a tracked write of `n` bytes may fold: its record is read, and written for PART, and a record whose shadow makes
room is folded, all by the die's anemometer (R30). A denial is reported to the write at `va`, which is not performed
(R34). -/
def trackAllowed (die part i off n va : Nat) (s : State) : MR Unit :=
  let sp := trackSpan (bitsFmt (recFmt s part i)) off n
  mbind (recAllowed die part i sp.2.2 va s) fun _ s => if sp.2.1 = 0 then .ok () s else roomForShadow va s die part i

/-- A tracked write of bytes at an offset of the tracked range (R150, R151). Whatever the record number and RECBASE.V are,
a shadow is kept and later folded at base + 128 × number (the model's choice, log 57). -/
def trackFold (die part i off : Nat) (bs : List Byte) (s : State) : State :=
  let fmt := recFmt s part i
  let w := bitsFmt fmt
  let (lo, cnt, cut) := trackSpan w off bs.length
  let k := shadowKey die part i
  let sh := cget Shadow.empty k s.shadows
  let sh := foldElems fmt (recBaseExp s part i) (ofBytes bs) w cnt (8 * lo) s sh
  let s := if cnt = 0 then s else { s with shadows := cset Shadow.empty k sh s.shadows }
  if cut then recWrite die (recAddr s part i + 0x18) 4 (recCtl s part i ||| 2 ^ 14) s else s

/-- The record a scratchpad write is tracked by, with the offset in its range (R149). -/
def srbindHit (c : Core) (off : Nat) : Option (Nat × Nat) :=
  match c.srbind.find? (fun p => decide (p.2.1 ≤ off ∧ off < p.2.1 + p.2.2.1)) with
  | some p => some (p.2.2.2, off - p.2.1)
  | none => none

/-! ## Links and meters (R179, R271) -/

def addMeter (part k n : Nat) (s : State) : State :=
  modPart part (fun p => { p with meters := cset 0 k (cget 0 k p.meters + n) p.meters }) s

/-- Nanoseconds between two steps. -/
def spanNs (since now : Nat) : Nat := Config.nanos now - Config.nanos since

/-- CYCLE and TIME: they count from the release of reset, for every hart alike, whatever runs (R438). -/
def cycleNow (s : State) : Nat := (Config.cycles s.ticks - Config.cycles s.boot.resetAt) % 2 ^ 64
def timeNow (s : State) : Nat := spanNs s.boot.resetAt s.ticks % 2 ^ 64

/-- Clusters whose cores a job uses. -/
def jobClusters (j : Job) : List Nat := (j.cores.map (fun c => c / 4)).eraseDups

/-- Cluster microseconds of a job up to now (R271). -/
def meterClusters (job : Nat) (s : State) : State :=
  let j := jobOf s job
  addMeter j.part 0 (spanNs j.since s.ticks * (jobClusters j).length) (modJob job (fun j => { j with since := s.ticks }) s)

/-- The meters of clusters, of memory allotted and of KV pages held are brought up to this step (R271). -/
def settleMeters (part : Nat) (s : State) : State :=
  let running := s.jobs.filter (fun p => p.2.live && !p.2.parked && p.2.part == part)
  let s := running.foldl (fun s p => meterClusters p.1 s) s
  let p := partOf s part
  let ns := if p.live then spanNs p.metered s.ticks else 0
  modPart part (fun p => { p with metered := s.ticks })
    (addMeter part 2 (p.t1.2 * ns) (addMeter part 3 (p.t2.2 * ns) (addMeter part 4 (p.kvHeld * ns) s)))

/-- The link a request leaves by: 0 Tammas, 1 CXL, 2 to 9 UALink stations; and its meter. -/
def linkFor (s : State) (l : Loc) : Option (Nat × Nat) :=
  if l.pkg ≠ s.pkg then some (2 + (Config.stationOf l.pkg).toNat, 6)
  else if 0x40000000000 ≤ l.a ∧ l.a < 0x60000000000 then some (0, 5)
  else if 0x60000000000 ≤ l.a ∧ l.a < 0x80000000000 then some (1, 8)
  else none

/-- A request with a tag is answered over a link: the reply enters the reply cache of the source's last 64 tags (R179). -/
def cacheReply (link master tag code : Nat) (reply : List Byte) (s : State) : State :=
  modLink link (fun l =>
    let mine := l.replies.filter (fun r => r.source == master)
    let old := l.replies.filter (fun r => r.source != master)
    let new : LinkReply := { source := master, seq := tag, code := code, data := reply }
    { l with replies := old ++ (mine ++ [new]).drop (mine.length + 1 - 64) }) s

/-- The next tag of a source on a link. -/
def nextTag (s : State) (link master : Nat) : Nat := cget 0 master (linkOf s link).seqs
def useTag (link master : Nat) (s : State) : State :=
  modLink link (fun l => { l with seqs := cset 0 master ((cget 0 master l.seqs + 1) % 65536) l.seqs }) s

/-- A new request crosses a link, is metered and answered. -/
def crossLink (link meter master part : Nat) (n : Nat) (reply : List Byte) (s : State) : State :=
  addMeter part meter n (cacheReply link master (nextTag s link master) 0 reply (useTag link master s))

/-- Most requests of a source that are outstanding on one link (R179). -/
def maxOutstanding : Nat := 64

def reqClass : AccKind → Nat
  | .read | .fetch => 0
  | .write => 1
  | .atomic => 2

/-- A request that meets a link which is not trained stays outstanding (R180), while its source has fewer than 64 there.
Whether a store or an atomic reached its target before the link went down is a free value: it is then performed here, in
one step, and its reply is in the target's reply cache. -/
def holdRequest (link : Nat) (r : LinkReq) (s : State) : State :=
  let k := linkOf s link
  if k.outstanding.any (fun q => q.hart.isSome && q.hart == r.hart && q.source == r.source && q.stream == r.stream) ||
      decide (maxOutstanding ≤ (k.outstanding.filter (fun q => q.source == r.source)).length) then s
  else
    let done := decide (r.cls ≠ 0) && !r.req.data.isEmpty && (Config.freeWord s.fresh).getLsbD 0
    let s := bump (if done then setMem r.req.addr.toNat r.req.data (cacheReply link r.source r.seq 0 [] s) else s)
    useTag link r.source (modLink link (fun k => { k with outstanding := k.outstanding ++ [{ r with applied := done }] }) s)

/-- An access of a hart's stream is left outstanding on a link. -/
def leaveOutstanding (link : Nat) (w : Who) (va : Nat) (l : Loc) (kind : AccKind) (n : Nat) (bs : List Byte)
    (s : State) : State :=
  holdRequest link
    { source := w.master, seq := nextTag s link w.master,
      req := { master := BitVec.ofNat 16 w.master, part := BitVec.ofNat 7 w.part, addr := BitVec.ofNat 64 l.global,
               kind := kind, len := n, data := bs },
      cls := reqClass kind, hart := some w.hart, stream := w.stream, va := va, root := w.troot, handler := w.handler,
      applied := false, via := none } s

/-- Whether a request on a link is this access: one that a hart issued and now makes again. -/
def isRequest (w : Who) (va : Nat) (l : Loc) (kind : AccKind) (r : LinkReq) : Bool :=
  r.hart == some w.hart && r.source == w.master && r.stream == w.stream && r.handler == w.handler && r.va == va &&
    r.req.addr.toNat == l.global && r.req.kind == kind

/-- An access was admitted before and has been outstanding on a link since (R35). -/
def issuedBefore (s : State) (w : Who) (va : Nat) (l : Loc) (kind : AccKind) : Bool :=
  s.links.any (fun p => (p.2.outstanding ++ p.2.resend).any (isRequest w va l kind))

/-- Answers over links that a hart will not take any more: its access is given up, or over. -/
def dropAnswers (h : Nat) (p : LinkReq → Bool) (s : State) : State :=
  { s with links := s.links.map (fun q => (q.1, { q.2 with resend := q.2.resend.filter (fun r => !(r.hart == some h && p r)) })) }

/-! ## Lines that engines own (R172, R173) -/

/-- The engine that a request comes from, as an agent of its own: the copy engine of a core, the matrix unit of a cluster and
the gather path of a core ask with their harts' number (R22). -/
def Who.agentOf (w : Who) : Nat := if w.agent = 0 then w.master else w.agent

/-- Numbers of the engines that own lines. -/
def copyAgent (core : Nat) : Nat := 0x2000 + core
def matrixAgent (cluster : Nat) : Nat := 0x4000 + cluster
def gatherAgent (core : Nat) : Nat := 0x10000 + core

/-- Whether bytes of a line that another agent owns lie among `n` bytes at a global address. -/
def ownedByOther (s : State) (agent a n : Nat) : Bool :=
  s.owned.any (fun o => o.owner != agent && decide (o.lo ≤ (a + n - 1) / 256 ∧ a / 256 < o.hi))

/-- An entry that goes before an access: any of another agent for a hart's own access; for an engine's access that of another
engine which took its access earlier. Of two engines only the later one waits, so that they do not wait for each other
(log 25). -/
def goesBefore (w : Who) (o : Owned) : Bool :=
  o.owner != w.agentOf && (w.agent == 0 || decide (o.since < w.taken) || (o.since == w.taken && decide (o.owner < w.agent)))

/-- An access waits for a line: one that an engine owns (R173), or, for an engine's write, one that an earlier command has
still to read. -/
def lineHeld (s : State) (w : Who) (wr : Bool) (a n : Nat) : Bool :=
  let meets (o : Owned) : Bool := goesBefore w o && decide (o.lo ≤ (a + n - 1) / 256 ∧ a / 256 < o.hi)
  s.owned.any meets || (wr && w.agent != 0 && s.reading.any meets)

/-- When an engine took the access that it performs for a hart: as its lines say, or, when it owns none, now. -/
def takenBy (s : State) (agent h : Nat) : Nat :=
  match s.owned.find? (fun o => o.owner == agent && o.hart == h) with
  | some o => o.since
  | none => s.ticks + 2

/-- The lines of an engine for a hart's access are these now. -/
def setOwned (agent h : Nat) (l : List Owned) (s : State) : State :=
  let kept (o : Owned) : Owned :=
    { o with recalled := s.owned.any (fun p => p.recalled && p.owner == agent && p.lo == o.lo && p.hi == o.hi) }
  { s with owned := s.owned.filter (fun o => !(o.owner == agent && o.hart == h)) ++ l.map kept }

/-- Two entries stand for one instruction on its key. -/
def sameUse (a b : KeyUse) : Bool :=
  a.hart == b.hart && a.handler == b.handler && a.root == b.root && a.key == b.key && a.all == b.all && a.cls == b.cls

/-- An instruction is not in progress on its key any more, and does not wait for it (R139). -/
def leaveKey (u : KeyUse) (s : State) : State := { s with keyUses := s.keyUses.filter (fun v => !sameUse v u) }

/-- A hart's accesses in progress end: they are translated again when they resume (R61), and their engines own no line for them
until then (log 25). An instruction that has made its first walk of a key stays in progress on it; one that waits for a
key will reach it again (R139). -/
def endAccesses (h : Nat) (s : State) : State :=
  let s := letGo h (fun _ => true) s
  { s with keyUses := s.keyUses.filter (fun u => u.hart != h || u.begun), owned := s.owned.filter (fun o => o.hart != h),
           reading := s.reading.filter (fun o => o.hart != h) }

/-- A hart's work is given up: no key, no held translation, no line and no answer is left of it. -/
def endWork (h : Nat) (s : State) : State :=
  let s := letGo h (fun _ => true) (dropAnswers h (fun _ => true) s)
  { s with keyUses := s.keyUses.filter (fun u => u.hart != h), owned := s.owned.filter (fun o => o.hart != h),
           reading := s.reading.filter (fun o => o.hart != h) }

/-- A request of the hart on a link has no answer yet (R221). -/
def awaitsLink (s : State) (h : Nat) : Bool := s.links.any (fun p => p.2.outstanding.any (fun r => r.hart == some h))

/-- Accesses that a hart has issued are not complete: requests on a link, or scalar stores still to be performed (R160,
R221). -/
def unfinished (s : State) (h : Nat) : Bool := awaitsLink s h || !(hartOf s h).sbuf.isEmpty

end Sys2Proof.Machine
end

