-- ==== Sys2Proof/Machine/Access.lean ====
section
/-! DEFINITION. CSR values, the register windows of the MMIO region, and the accesses that the walk's result admits:
reads, writes and atomics at a place, and at a context virtual address. -/

namespace Sys2Proof.Machine

/-! ## CSRs (R232) -/

def tagCountOf (c : Core) (t : Nat) : Nat := cget 0 t c.tagCount

/-- TAGRDY (R102). -/
def tagrdy (c : Core) : Nat := (List.range 64).foldl (fun x t => x + b2n (tagCountOf c t == 0) * 2 ^ t) 0

def vlmaxb (x : Hart) : Nat := x.vgrant * 256

/-- The value of a listed CSR of hart `h`; VSTART reads 0 at user privilege. -/
def csrVal (s : State) (h n : Nat) (handler : Bool) : Nat :=
  let x := hartOf s h
  match n with
  | 0x000 => h
  | 0x001 => x.jobhart.toNat
  | 0x002 => x.jobsize.toNat
  | 0x003 => x.argptr.toNat
  | 0x004 => x.part.toNat
  | 0x005 => cycleNow s
  | 0x006 => timeNow s
  | 0x010 => x.vl
  | 0x011 => x.rc
  | 0x012 => if handler then x.t.vstart.toNat else 0
  | 0x013 => x.vgrant
  | 0x014 => vlmaxb x
  | 0x015 => x.vq.length
  | 0x020 => x.mgrant
  | 0x021 => x.tileen.toNat
  | 0x022 => x.mgrp
  | 0x030 => tagrdy (coreOf s (coreNo h))
  | 0x031 => (coreOf s (coreNo h)).tagErr.toNat
  | 0x040 => x.fflags.toNat
  | 0x050 => x.t.cause.toNat
  | 0x051 => x.t.pc.toNat
  | 0x052 => x.t.lpc.toNat
  | 0x053 => x.t.addr.toNat
  | 0x054 => x.t.elem.toNat
  | 0x055 => x.t.frame.toNat
  | 0x056 => x.t.vec.toNat
  | 0x057 => x.t.stat.toNat
  | 0x058 => x.scopecl.toNat
  | 0x060 => match x.r.chains with
    | c :: _ => c.frame.toNat
    | [] => 0
  | 0x061 => x.r.chains.length
  | 0x070 => (partOf s x.part.toNat).recbase.toNat
  | 0x071 => x.kvroot.toNat
  | 0x080 => s.pwrcap.toNat
  | _ => 0

/-- The writable CSRs and how they take a write (R232, R341): FFLAGS, TRAPVEC, TRAPFRAME. -/
def csrPut (n : Nat) (v : Word) (x : Hart) : Hart :=
  match n with
  | 0x040 => { x with fflags := BitVec.ofNat 7 v.toNat }
  | 0x055 => { x with t := { x.t with frame := BitVec.ofNat 64 (v.toNat / 64 * 64) } }
  | 0x056 => { x with t := { x.t with vec := BitVec.ofNat 64 (v.toNat / 4 * 4) } }
  | _ => x

/-! ## Register windows -/

def allOnes64 : Nat := 2 ^ 64 - 1

/-- The unit of a meter's remainder against the counter of R271: nanoseconds, multiply-adds, byte-nanoseconds. -/
def meterUnit : Nat → Nat
  | 0 => 1000
  | 1 => 2 ^ 20
  | 2 | 3 => 1000000 * 2 ^ 30
  | 4 => 1000000000
  | _ => 1

def meterVal (p : Part) (k : Nat) : Nat := cget 0 k p.meters / meterUnit k % 2 ^ 64

/-- What a register that the spec does not describe reads as: a free value (log 10). -/
def freeReg (s : State) : Nat := (Config.freeWord s.fresh).toNat

/-- An 8-byte register of a debug page (R234 to R236); the g and CSR windows read all ones while the hart runs. An offset
or a CSR number that the spec does not list reads as a free value (the model's choice, log 10). -/
def debugRead (s : State) (h off : Nat) : Nat :=
  let x := hartOf s h
  let stopped := decide (x.run = .stopped)
  if off = 0 then x.dbg.dctl.toNat / 4 * 4
  else if off = 8 then b2n stopped + x.dbg.why.toNat * 256
  else if off = 0x10 then x.dbg.dpc.toNat
  else if off = 0x18 then x.dbg.dframe.toNat
  else if 0x20 ≤ off ∧ off < 0x40 then (x.dbg.dbp.getD ((off - 0x20) / 8) 0).toNat
  else if off = 0x40 then x.dbg.dwa0.toNat
  else if off = 0x48 then x.dbg.dwa1.toNat
  else if off = 0x50 then x.dbg.dwk.toNat
  else if 0x100 ≤ off ∧ off < 0x200 then
    if stopped then (cget 0 ((off - 0x100) / 8) x.r.g).toNat else allOnes64
  else if 0x800 ≤ off then if !stopped then allOnes64
    else if csrListed ((off - 0x800) / 8) then csrVal s h ((off - 0x800) / 8) true else freeReg s
  else freeReg s

/-- What the certificate of a boot signs (R270): the receipt public key, x and then y, and BOOTID. -/
def certHead (bootId : BitVec 32) : List Byte :=
  (match publicKey (Config.receiptKey bootId) with
   | some (x, y) => keyBytes x y
   | none => List.replicate 64 0) ++ toBytes 4 bootId.toNat ++ toBytes 4 0

/-- The certificate of the receipt key, which root firmware makes at each boot with the device identity key (R7, R258, R270):
what it signs, and then r and s of the ECDSA signature of its SHA-256 digest. The layout is the model's choice (log 8). -/
def certificate (bootId : BitVec 32) : List Byte :=
  let sig := ecdsaSign Config.identityKey (Config.certNonce bootId) (digestNum (sha256 (certHead bootId)))
  certHead bootId ++ toBytes 32 sig.1 ++ toBytes 32 sig.2

/-- An 8-byte word of a function's anemometer view page (R270, R271, R276). The physical function's page also shows the denial
count of each partition p, at offset 0x1000 + 8 × p (R33; the offset is the model's choice); other offsets read as free
values (log 10). -/
def viewRead (s : State) (fn off : Nat) : Nat :=
  let p := partOf (settleMeters fn s) fn
  if off < 0x50 then meterVal p (off / 8)
  else if off = 0x50 then p.useq
  else if off = 0x58 then p.uperiod
  else if 0x400 ≤ off ∧ off < 0x488 then ofBytes (((certificate s.boot.bootId).drop (off - 0x400)).take 8)
  else if 0x488 ≤ off ∧ off < 0x800 then
    ofBytes ((List.range 8).map (fun i => Config.certByte s.boot.bootId (off - 0x400 + i)))
  else if off = 0x800 ∧ fn = 0 then
    s.boot.bist.toNat + s.boot.fails * 2 ^ 16 + b2n s.boot.minimal * 2 ^ 24 + s.boot.bootId.toNat * 2 ^ 32
  else if off = 0x808 ∧ fn = 0 then s.boot.reason.toNat
  else if fn = 0 ∧ 0x1000 ≤ off ∧ off < 0x1400 then (partOf s ((off - 0x1000) / 8)).denials % 2 ^ 64
  else freeReg s

/-- ACTINV reads DONE in bit 63 (R36). -/
def actinvRead (s : State) : Nat := b2n s.actDone * 2 ^ 63

/-- A KV controller's control block (R136): at 16 × p the quota of partition p, at 16 × p + 8 its count of pages held. The
offsets are the model's choice, and each die's block shows the package's numbers (log 85). -/
def kvControlRead (s : State) (off : Nat) : Nat :=
  let p := partOf s (off / 16)
  if off % 16 = 0 then p.kvQuota else p.kvHeld

/-- The 8-byte register that holds a local address of the CSR and MMIO region (R17). -/
def mmioRead (s : State) (a : Nat) : Nat :=
  let a := a / 8 * 8
  if a < 0xF0000800000 then debugRead s ((a - 0xF0000000000) / 4096) (a % 4096)
  else if a < 0xF0010410000 then freeReg s
  else if a < 0xF0020410000 then viewRead s ((a - 0xF0020000000) / 65536) (a % 65536)
  else if a = 0xF0030000000 then actinvRead s
  else if 0xF0040000000 ≤ a ∧ a < 0xF0040040000 ∧ a % 65536 < 2048 then kvControlRead s (a % 65536)
  else freeReg s

def mmioBytes (s : State) (a n : Nat) : List Byte := ((toBytes 8 (mmioRead s a)).drop (a % 8)).take n

/-- An aligned 8-byte write to a register takes effect as the step's next event; others are ignored (log 10). -/
def mmioWrite (a : Nat) (bs : List Byte) (s : State) : State :=
  if bs.length ≠ 8 ∨ a % 8 ≠ 0 then s
  else { s with regWrites := s.regWrites ++ [(a, BitVec.ofNat 64 (ofBytes bs))] }

/-! ## Accesses at a place -/

/-- The checks of a request at the targets it passes (R31). -/
def admitCode (s : State) (master part : Nat) (l : Loc) (kind : AccKind) : Nat :=
  if l.pkg = s.pkg then checkLocal s master part l.a kind
  else
    let r := checkAt s (6, (Config.stationOf l.pkg).toNat) false master part l.pkg kind
    if r ≠ 0 then r
    else
      let x := (Config.peerAnswer l.pkg part l.a (kindCode kind) s.ticks).toNat
      if x < 6 then x else 1

/-- WHERE of R233. -/
def eccWhere (s : State) (l : Loc) : Nat :=
  if l.pkg ≠ s.pkg then 6
  else if l.a < 0x10000000000 then 1
  else if l.a < 0x40000000000 then 2
  else if l.a < 0x60000000000 then 5
  else if l.a < 0x80000000000 then 3
  else 4

def eccFlt (w : Who) (va where' : Nat) : Flt := mkFlt cEcc va (where' + 16 * w.stream)

/-- A watchpoint matches an access of `n` bytes (R236): the WATCH fault. -/
def watchHit (s : State) (w : Who) (va n : Nat) (kind : AccKind) : Option Flt :=
  let d := (hartOf s w.hart).dbg
  let hit (dwa : Word) (k : Nat) : Bool :=
    decide (va / 8 ≤ dwa.toNat / 8 ∧ dwa.toNat / 8 ≤ (va + n - 1) / 8) &&
    ((isWr kind && k.testBit 1) || ((kind == .read || kind == .atomic) && k.testBit 0))
  let f (wp : Nat) : Flt := mkFlt cWatch va (wp + 16 * w.stream + 128 * b2n (isWr kind))
  let k := d.dwk.toNat
  if k = 0 then none
  else if hit d.dwa0 (k % 4) then some (f 0)
  else if hit d.dwa1 (k / 4 % 4) then some (f 1)
  else none

/-- The bytes that a request's reply carries. -/
def replyOf (s : State) (l : Loc) (kind : AccKind) (n : Nat) : List Byte :=
  match kind with
  | .write => []
  | .read | .fetch | .atomic => memBytes s l.global n

/-- An access crosses a link that is trained. One that was outstanding when the link went down was sent again with its own
tag when the link retrained (R180): its hart takes the answer, and nothing is performed now. The result is that answer's
bytes; none for an access that is still to be performed. -/
def crossNow (link meter : Nat) (w : Who) (va : Nat) (l : Loc) (kind : AccKind) (n : Nat) (s : State) :
    MR (Option (List Byte)) :=
  match (linkOf s link).resend.find? (isRequest w va l kind) with
  | some r => .ok (some r.req.data)
      (addMeter w.part meter n (modLink link (fun k => { k with resend := k.resend.filter (fun q => q != r) }) s))
  | none => .ok none (crossLink link meter w.master w.part n (replyOf s l kind n) s)

/-- What stands between a translated access and its bytes: the check, a watchpoint, a link that is down, a line that an
engine owns (R173), zeroing. An access that was admitted and is outstanding on a link is not checked again (R35). The
result is the answer's bytes of an access that has been performed, none for one that is still to be performed. -/
def reach (w : Who) (va : Nat) (l : Loc) (kind : AccKind) (n : Nat) (bs : List Byte) (s : State) :
    MR (Option (List Byte)) :=
  let r := if issuedBefore s w va l kind then 0 else admitCode s w.master w.part l kind
  if r ≠ 0 then .bad (accessFlt va r) (logAt s w.master w.part l kind r)
  else
    match watchHit s w va n kind with
    | some f => .bad f s
    | none =>
      if lineHeld s w (isWr kind) l.global n then .wait s
      else match linkFor s l with
      | some (k, m) =>
        if (linkOf s k).trained then crossNow k m w va l kind n s
        else .wait (leaveOutstanding k w va l kind n bs s)
      | none => .ok none (if l.pkg = s.pkg then settleZero s l.a else s)

def leeKey (die part global : Nat) : Nat := die * 2 ^ 64 + part * 2 ^ 56 + global / 256

/-- A read through a lee cache (R90): a hit is not checked; a miss is filled by a fabric agent of the die, whose requests
carry the tags of that agent. A line that holds uncorrectable data anywhere is not filled: the read raises ECC, and
TRAPADDR names the first such byte of the line, which may lie outside the bytes read (R39 does not say what poison
elsewhere in the line does; the model's choice, log 24). -/
def leeReadBy (agent : Nat) (w : Who) (va : Nat) (l : Loc) (n : Nat) (s : State) : MR (List Byte) :=
  let k := leeKey (dieNo w.hart) w.part l.global
  let off := l.global % 256
  match cget [] k s.lee with
  | [] =>
    let f : Who := { w with master := agent }
    let base : Loc := { l with a := l.a / 256 * 256 }
    let r := if issuedBefore s f va base .read then 0 else admitCode s agent w.part l .read
    if r ≠ 0 then .bad (accessFlt va r) (logAt s agent w.part l .read r)
    else
      match firstPoison s base.global 256 with
      | some p => .bad (eccFlt w (va + p - l.global) (eccWhere s l)) s
      | none =>
        let fill (line : List Byte) (s : State) : MR (List Byte) :=
          .ok ((line.drop off).take n) { s with lee := cset [] k line s.lee }
        if lineHeld s w false l.global n then .wait s
        else match linkFor s l with
        | some (kk, m) =>
          if (linkOf s kk).trained then
            mbind (crossNow kk m f va base .read 256 s) fun got s => fill (got.getD (memBytes s base.global 256)) s
          else .wait (leaveOutstanding kk f va base .read 256 [] s)
        | none => fill (memBytes s base.global 256) s
  | line => .ok ((line.drop off).take n) s

/-- A read of a hart or engine through its die's lee cache: the fill agent fills it. -/
def leeRead (w : Who) (va : Nat) (l : Loc) (n : Nat) (s : State) : MR (List Byte) :=
  match watchHit s w va n .read with
  | some f => .bad f s
  | none => leeReadBy (fillMaster (dieNo w.hart)) w va l n s

/-- The line that holds a place is not held in the lee cache of a hart's die any more (R92). -/
def dropLine (w : Who) (l : Loc) (s : State) : State :=
  { s with lee := cset [] (leeKey (dieNo w.hart) w.part l.global) [] s.lee }

/-- Whether a read is served through the lee cache of the reading die (R86, R31). -/
def usesLee (s : State) (l : Loc) : Bool :=
  l.fro && (l.target == 3 || (l.target == 4 && l.pkg != s.pkg))

/-- `n` bytes at a place, inside one 256-byte line. -/
def readAt (w : Who) (va : Nat) (l : Loc) (kind : AccKind) (n : Nat) (s : State) : MR (List Byte) :=
  if usesLee s l && kind == .read then leeRead w va l n s
  else
    mbind (reach w va l kind n [] s) fun got s =>
      if l.pkg = s.pkg ∧ isMmio l.a then .ok (mmioBytes s l.a n) (bump s)
      else match got with
        | some bs => .ok bs s
        | none =>
          match firstPoison s l.global n with
          | some p => .bad (eccFlt w (va + p - l.global) (eccWhere s l)) s
          | none => .ok (memBytes s l.global n) s

/-- The die on which a local write is performed (R152). -/
def dieOfLoc (a : Nat) : Nat :=
  if a < 0x10000000000 then a / 0x800000000 % 4
  else if a < 0x40000000000 then (a - 0x10000000000) / 65536 % 4
  else (a - 0x80000000000) / 0x400000 / 64

/-- The tracked parts of a write of `n` bytes at a place (R149, R150): for each the die, the record, the offset in the
tracked range, and the bytes' place among those written. -/
def trackedParts (s : State) (w : Who) (l : Loc) (n : Nat) : List (Nat × Nat × Nat × Nat × Nat) :=
  if !w.folds || l.pkg != s.pkg then []
  else if l.leaf.testBit 8 ∧ l.target ≤ 1 then [(dieOfLoc l.a, bitsOf l.leaf 48 16, l.a % 65536, 0, n)]
  else if 0x80000000000 ≤ l.a ∧ l.a < 0x80040000000 then
    let core := (l.a - 0x80000000000) / 0x400000
    let off := (l.a - 0x80000000000) % 0x400000
    (coreOf s core).srbind.filterMap (fun p =>
      let lo := max off p.2.1
      let hi := min (off + n) (p.2.1 + p.2.2.1)
      if lo < hi then some (core / 64, p.2.2.2, lo, lo - off, hi - lo) else none)
  else []

/-- Folding of a tracked write (R149, R150). -/
def foldWrite (w : Who) (l : Loc) (bs : List Byte) (s : State) : State :=
  (trackedParts s w l bs.length).foldl
    (fun s p => trackFold p.1 w.part p.2.1 p.2.2.1 ((bs.drop p.2.2.2.1).take p.2.2.2.2) s) s

/-- The anemometers allow the folds of a tracked write, or the write takes ACCESS (R34). -/
def foldAllowed (w : Who) (va : Nat) : List (Nat × Nat × Nat × Nat × Nat) → State → MR Unit
  | [], s => .ok () s
  | p :: r, s => mbind (trackAllowed p.1 w.part p.2.1 p.2.2.1 p.2.2.2.2 va s) fun _ s => foldAllowed w va r s

/-- The write bitmap's bit of a frame's page (R72). -/
def markWritten (w : Who) (l : Loc) (s : State) : State :=
  let m := migrOf s w.part
  if l.leaf.testBit 9 ∧ l.pkg = s.pkg ∧ l.a < 0x40000000000 ∧ m.on then
    modMigr w.part (fun m => { m with cur := cset false (l.a / 65536) true m.cur }) s
  else s

/-- What a write leaves besides its bytes: write bitmaps, compression (R67), lee lines (R92), records. -/
def noteWrite (w : Who) (l : Loc) (bs : List Byte) (s : State) : State :=
  let s := markWritten w l s
  let s := if l.target = 1 then { s with cmpHeld := cset false (l.a / 65536) (l.leaf.testBit 10) s.cmpHeld } else s
  let s := if l.fro ∧ (l.target = 3 ∨ l.target = 4) then dropLine w l s else s
  foldWrite w l bs s

def storeBytes (w : Who) (l : Loc) (bs : List Byte) (s : State) : State :=
  if l.pkg = s.pkg ∧ isMmio l.a then mmioWrite l.a bs s
  else setMem l.global bs (noteWrite w l bs s)

/-- A write reaches its place and its folds are allowed. -/
def writeReach (w : Who) (va : Nat) (l : Loc) (bs : List Byte) (s : State) : MR (Option (List Byte)) :=
  mbind (reach w va l .write bs.length bs s) fun got s =>
    mbind (foldAllowed w va (trackedParts s w l bs.length) s) fun _ s => .ok got s

/-- Bytes written at a place. One that its target performed while its link was down leaves the rest now (R92). -/
def writeAt (w : Who) (va : Nat) (l : Loc) (bs : List Byte) (s : State) : MR Unit :=
  mbind (writeReach w va l bs s) fun got s =>
    .ok () (if got.isNone then storeBytes w l bs s else noteWrite w l bs s)

/-- An atomic of `n` bytes (R175): the old value, and the new one where `f` gives one. One
whose link resets is lost, and is never answered later (R180). -/
def atomicAt (w : Who) (va : Nat) (l : Loc) (n : Nat) (f : Nat → Option Nat) (s : State) : MR Nat :=
  let now := if l.pkg = s.pkg ∧ isMmio l.a then [] else match f (ofBytes (memBytes s l.global n)) with
    | some x => toBytes n x
    | none => []
  mbind (reach w va l .atomic n now s) fun _ s =>
  mbind (foldAllowed w va (if now.isEmpty then [] else trackedParts s w l n) s) fun _ s =>
    if l.pkg = s.pkg ∧ isMmio l.a then
      let old := ofBytes (mmioBytes s l.a n)
      .ok old (match f old with
        | some x => mmioWrite l.a (toBytes n x) s
        | none => s)
    else
      match firstPoison s l.global n with
      | some p => .bad (eccFlt w (va + p - l.global) (eccWhere s l)) s
      | none =>
        let old := ofBytes (memBytes s l.global n)
        .ok old (match f old with
          | some x => storeBytes w l (toBytes n x) s
          | none => markWritten w l s)

/-! ## Accesses at a context virtual address (mem_read and mem_write of R317) -/

def vaRead (w : Who) (va n : Nat) (s : State) : MR (List Byte) :=
  mbind (transFor w va .read s) fun l s => readAt w va l .read n s

def vaWrite (w : Who) (va : Nat) (bs : List Byte) (s : State) : MR Unit :=
  mbind (transFor w va .write s) fun l s => writeAt w va l bs s

/-- A write that another of the same moment overwrites: it leaves all but its bytes (R150, R182). -/
def vaPassWrite (w : Who) (va : Nat) (bs : List Byte) (s : State) : MR Unit :=
  mbind (transFor w va .write s) fun l s =>
    mbind (writeReach w va l bs s) fun _ s =>
      .ok () (if l.pkg = s.pkg ∧ isMmio l.a then s else noteWrite w l bs s)

def vaAtomic (w : Who) (va n : Nat) (f : Nat → Option Nat) (s : State) : MR Nat :=
  mbind (transFor w va .atomic s) fun l s => atomicAt w va l n f s

/-- Bytes from `va` to the next 256-byte boundary, at most `n` (R29). -/
def pieceLen (va n : Nat) : Nat := min n (256 - va % 256)

/-- `n` bytes in requests of at most 256 bytes; `fuel` bounds their number. -/
def vaReadRun (w : Who) : Nat → Nat → Nat → State → MR (List Byte)
  | 0, _, _, s => .ok [] s
  | fuel + 1, va, n, s =>
    if n = 0 then .ok [] s
    else
      let k := pieceLen va n
      mbind (vaRead w va k s) fun bs s =>
        mbind (vaReadRun w fuel (va + k) (n - k) s) fun r s => .ok (bs ++ r) s

def vaWriteRun (w : Who) : Nat → Nat → List Byte → State → MR Unit
  | 0, _, _, s => .ok () s
  | fuel + 1, va, bs, s =>
    if bs.isEmpty then .ok () s
    else
      let k := pieceLen va bs.length
      mbind (vaWrite w va (bs.take k) s) fun _ s => vaWriteRun w fuel (va + k) (bs.drop k) s

/-- Enough pieces for `n` bytes. -/
def pieces (n : Nat) : Nat := n / 256 + 2

def vaReadN (w : Who) (va n : Nat) (s : State) : MR (List Byte) := vaReadRun w (pieces n) va n s
def vaWriteN (w : Who) (va : Nat) (bs : List Byte) (s : State) : MR Unit := vaWriteRun w (pieces bs.length) va bs s

/-- The bytes of a run that were read, up to where it stopped, and how it ended. -/
def readPart (w : Who) : Nat → Nat → Nat → State → List Byte × MR Unit
  | 0, _, _, s => ([], .ok () s)
  | fuel + 1, va, n, s =>
    if n = 0 then ([], .ok () s)
    else
      let k := pieceLen va n
      match vaRead w va k s with
      | .ok bs s =>
        let r := readPart w fuel (va + k) (n - k) s
        (bs ++ r.1, r.2)
      | .bad f s => ([], .bad f s)
      | .wait s => ([], .wait s)

/-- Whether a run of `n` bytes can be written: its pages are translated and checked, and no byte moves. -/
def probeRun (w : Who) : Nat → Nat → Nat → State → MR Unit
  | 0, _, _, s => .ok () s
  | fuel + 1, va, n, s =>
    if n = 0 then .ok () s
    else
      let k := pieceLen va n
      mbind (translate w va .write s) fun l s =>
        let r := admitCode s w.master w.part l .write
        if r ≠ 0 then .bad (accessFlt va r) (logAt s w.master w.part l .write r)
        else match watchHit s w va k .write with
          | some f => .bad f s
          | none => probeRun w fuel (va + k) (n - k) s

def vaProbe (w : Who) (va n : Nat) (s : State) : MR Unit := probeRun w (pieces n) va n s

/-- How many bytes of a run were written, and how it ended. -/
def writePart (w : Who) : Nat → Nat → List Byte → State → Nat × MR Unit
  | 0, _, _, s => (0, .ok () s)
  | fuel + 1, va, bs, s =>
    if bs.isEmpty then (0, .ok () s)
    else
      let k := pieceLen va bs.length
      match vaWrite w va (bs.take k) s with
      | .ok _ s =>
        let r := writePart w fuel (va + k) (bs.drop k) s
        (k + r.1, r.2)
      | .bad f s => (0, .bad f s)
      | .wait s => (0, .wait s)

/-- A number of `n` bytes at an address. -/
def vaReadNum (w : Who) (va n : Nat) (s : State) : MR Nat :=
  mbind (vaRead w va n s) fun bs s => .ok (ofBytes bs) s

end Sys2Proof.Machine
end

