-- ==== Sys2Proof/Machine/Ops.lean ====
section
/-! DEFINITION. The operations that instructions share: registers and flags, frames, taking a trap (enterTrap, R227)
and returning from one (returnFromTrap, R229), waiting for streams, and the queues. -/

namespace Sys2Proof.Machine

/-! ## Scalar registers and the end of a parcel -/

/-- g(n) of R317: g0 reads zero (R198). -/
def gGet (r : Reg) (s : State) : Word := if r = 0 then 0 else cget 0 r.toNat (me s).r.g

/-- A write of a g register; g0 discards it (R198). -/
def setG (r : Reg) (v : Word) (s : State) : State :=
  if r = 0 then s else modMe (fun x => { x with r := { x.r with g := cset 0 r.toNat v x.r.g } }) s

def setGNat (r : Reg) (v : Nat) (s : State) : State := setG r (BitVec.ofNat 64 v) s

/-- Flags are sticky (R288). -/
def addFl (f : Fl) (s : State) : State := modMe (fun x => { x with fflags := x.fflags ||| f }) s

/-- The next parcel is at `pc`; a wait of the scalar unit is over. -/
def goto (pc : Word) (s : State) : State :=
  modMe (fun x => { x with pc := pc, stalled := 0, stallS := none, invWait := none }) s

/-- The instruction of `n` bytes is complete. -/
def retire (n : Word) (s : State) : State := goto ((me s).pc + n) s

/-- The scalar unit stalls at its instruction, with the QUEUEHANG it would take (R210, R214). -/
def stallOn (f : Flt) (s : State) : State := modMe (fun x => { x with stallS := some f }) s

def noStream : FaultStream := { fvalid := false, fewlog := 0, fkind := 0, fstream := 0, fstride := 0, fremain := 0 }

/-! ## Tags and copy commands (R102, R103) -/

def incTag (core t : Nat) (s : State) : State :=
  modCore core (fun c => { c with tagCount := cset 0 t (tagCountOf c t + 1) c.tagCount }) s

def decTag (core t : Nat) (s : State) : State :=
  modCore core (fun c => { c with tagCount := cset 0 t (tagCountOf c t - 1) c.tagCount }) s

def setTagErr (core t : Nat) (s : State) : State :=
  modCore core (fun c => { c with tagErr := c.tagErr ||| BitVec.ofNat 64 (2 ^ t) }) s

/-- A command that is discarded sets its tag's TAGERR bit and then leaves the count (R103). A snapshot copy that waits
to be issued again has left it before (R247). -/
def discardCmd (core : Nat) (c : CopyCmd) (s : State) : State :=
  if c.phase = 4 then s else decTag core c.tag (setTagErr core c.tag s)

def discardCmds (core : Nat) (l : List CopyCmd) (s : State) : State := l.foldl (fun s c => discardCmd core c s) s

/-- A saved command on the hart that resumes it: a snapshot copy takes that hart's snapshot tag (R252). -/
def rehome (h : Nat) (c : CopyCmd) : CopyCmd :=
  { c with hart := h, tag := if c.stream = 7 then 56 + h % 8 else c.tag, begun := false, taken := 0, stalled := 0 }

/-- The copy commands that a hart has saved: those of its trap's frame, or those RESTV took from a frame. -/
def savedCmds (h : Nat) (x : Hart) : List CopyCmd :=
  (if x.restored then x.stoppedC else x.frameC).map (rehome h)

/-- Commands of a hart in its core's engine. -/
def cmdsOf (s : State) (h : Nat) : List CopyCmd := (coreOf s (coreNo h)).cmds.filter (fun c => c.hart == h)

/-- The hart's stream C leaves the engine; snapshot copies of stream E run on, but for one that a fault stopped (R103,
R221, R252). -/
def takeCmds (h : Nat) (s : State) : List CopyCmd × State :=
  let c := coreOf s (coreNo h)
  let mine (x : CopyCmd) : Bool := x.hart == h && (x.stream == 3 || decide (3 ≤ x.phase))
  (c.cmds.filter mine, setCore (coreNo h) { c with cmds := c.cmds.filter (fun x => !mine x) } s)

/-- Tags 56 to 63 have count 0 (R104). -/
def eddyTagsIdle (s : State) (core : Nat) : Bool :=
  (List.range 8).all (fun i => tagCountOf (coreOf s core) (56 + i) == 0)

/-! ## Scalar stores that are not yet performed (R160) -/

def LateStore.loc (c : LateStore) : Loc := { pkg := c.pkg, a := c.a, leaf := c.leaf, lvl := c.lvl }

/-- The oldest of a hart's waiting stores is performed. -/
def performStore (h : Nat) (c : LateStore) (s : State) : State :=
  storeBytes (hartWho s h 0 c.handler) c.loc c.data (modHart h (fun x => { x with sbuf := x.sbuf.drop 1 }) s)

/-- Waiting stores are performed in order, up to one whose line an engine owns (R159, R173). -/
def drainList (h : Nat) : List LateStore → State → State
  | [], s => s
  | c :: r, s => if ownedByOther s h c.loc.global c.data.length then s else drainList h r (performStore h c s)

def drainStores (h : Nat) (s : State) : State := drainList h (hartOf s h).sbuf s

/-- What a scalar load of the hart returns for bytes at a global address: those of its own waiting stores go before memory's
(R159). -/
def forwarded (x : Hart) (g : Nat) (bs : List Byte) : List Byte :=
  x.sbuf.foldl (fun bs c =>
    bs.mapIdx (fun i b =>
      if c.loc.global ≤ g + i ∧ g + i < c.loc.global + c.data.length then c.data.getD (g + i - c.loc.global) b else b)) bs

/-! ## Ending a job (R230) -/

/-- A hart stops for good: its queues and copy commands are discarded. -/
def killHart (h : Nat) (s : State) : State :=
  let s := (hartOf s h).sbuf.foldl (fun s c => performStore h c s) s
  let cmds := cmdsOf s h
  let core := coreNo h
  let s := modCore core (fun c => { c with cmds := c.cmds.filter (fun x => x.hart != h) }) s
  let s := endWork h (discardCmds core (cmds ++ savedCmds h (hartOf s h) ++ (hartOf s h).dbg.held) s)
  modHart h (fun x => { x with run := .halted, vq := [], mq := [], pend := none, stoppedV := [], stoppedM := [],
                               stoppedC := [], frameC := [], pin := none, capLeft := 0, convLeft := 0, snap := none,
                               stoppedCap := none, ibuf := [], stallS := none, stallV := none, stalledV := 0, stallM := none, stalledM := 0, invWait := none, entry := none,
                               dbg := { x.dbg with held := [], due := none } }) s

/-- Saved commands of the frame a hart's handler would return to. -/
def frameRec (s : State) (handle : Nat) : FrameRec := cget FrameRec.empty handle s.frames

/-- The hart takes a double trap: every hart of its job stops, and the job's status is DOUBLETRAP (R230, R264). -/
def doubleTrap (h : Nat) (s : State) : State :=
  match (hartOf s h).job with
  | none => killHart h s
  | some j =>
    let s := modJob j (fun x => { x with status := 2 }) s
    (jobOf s j).harts.foldl (fun s h => killHart h s) (killHart h s)

/-! ## Frames (R59; log 9) -/

/-- Bytes of every frame this model writes. -/
def frameSize : Nat := 128

def dirtyMask (r : Regs) : Nat := r.ext.foldl (fun x p => x + 2 ^ (p.1 % 32)) 0
def hwuOf (r : Regs) (i : Nat) : Nat := cget 0 i r.ext - 1

/-- The first 64 bytes (R59). -/
def frameHeader (r : Regs) (fs : FaultStream) (vstart : Nat) : List Byte :=
  toBytes 4 frameSize ++ toBytes 2 1 ++
  toBytes 2 (fs.fstream + 8 * fs.fkind + 32 * fs.fewlog + 256 * b2n fs.fvalid) ++
  toBytes 4 vstart ++ toBytes 4 (dirtyMask r) ++ toBytes 8 (wrapTo 64 fs.fstride) ++ toBytes 4 fs.fremain ++
  toBytes 4 0 ++ (List.range 32).map (fun i => BitVec.ofNat 8 (hwuOf r i))

/-- The whole frame: header, the handle its opaque part stands for, and the check word (R417, R418). -/
def frameBytes (r : Regs) (fs : FaultStream) (vstart handle part : Nat) : List Byte :=
  let head := frameHeader r fs vstart ++ toBytes 8 handle
  head ++ List.replicate 48 0 ++ toBytes 8 (Config.checkWord (ofBytes head) part).toNat

/-- What hart `h` has to save (R57, R222). -/
def recordOf (kind h : Nat) (x : Hart) (cmds : List CopyCmd) : FrameRec :=
  { hart := h, kind := kind, regs := x.r, acc := x.acc, vq := x.vq, mq := x.mq, cmds := cmds, pend := x.pend,
    capLeft := x.capLeft, body := x.body, conv := (x.convLeft, x.convId), vl := x.vl, rc := x.rc, vgrant := x.vgrant, pc := x.pc }

/-- A frame is written at an address by scalar accesses of the hart at its privilege (R227, R418). It folds into no record
(R149). The whole run is translated and checked before its first byte is written, so that a fault leaves none of it
(R226). -/
def writeFrame (h : Nat) (addr : Word) (rec' : FrameRec) (fs : FaultStream) (vstart : Nat) (s : State) : MR Unit :=
  let handle := s.fresh
  let x := hartOf s h
  let bs := frameBytes rec'.regs fs vstart handle x.part.toNat
  let w := { hartWho s h 0 x.handler with folds := false }
  mbind (vaProbe w addr.toNat bs.length s) fun _ s =>
    mbind (vaWriteN w addr.toNat bs (bump s)) fun _ s =>
      .ok () { s with frames := cset FrameRec.empty handle rec' s.frames }

/-! ## Taking a trap -/

/-- A convoy that has begun an element group goes back to the group's start (R217). -/
def unwindConvoy (x : Hart) : Hart :=
  match x.snap with
  | none => x
  | some k => { x with vq := k.entries ++ x.vq.drop k.entries.length, acc := k.acc,
                       r := { x.r with v := k.v, ext := k.ext, m := k.m }, snap := none }

/-- Whether DCTL.STOPON turns the cause into a debug stop (R230, R235, R236). -/
def stopsFor (x : Hart) (cause : Nat) : Bool :=
  x.dbg.dctl.getLsbD (32 + cause) && (!x.handler || cause == cBreak || cause == cWatch)

/-- Every copy command of a hart leaves the engine, the sequencer's snapshot copies too (R427). -/
def takeAllCmds (h : Nat) (s : State) : List CopyCmd × State :=
  let c := coreOf s (coreNo h)
  (c.cmds.filter (fun x => x.hart == h), setCore (coreNo h) { c with cmds := c.cmds.filter (fun x => x.hart != h) } s)

/-- A debug stop (R236): the frame goes to DFRAME, no trap CSR changes, the privilege stays. The hart keeps what the
frame holds, for a frame that cannot be written or read back (log 21). The stop waits until the accesses that the hart has
issued are complete (R221, R427). -/
def debugStop (h why : Nat) (pc : Word) (s : State) : State :=
  let s := drainStores h s
  if unfinished s h then modHart h (fun x => { x with dbg := { x.dbg with due := some why } }) s
  else
    let (cmds, s1) := takeAllCmds h (endAccesses h (modHart h unwindConvoy s))
    let x := hartOf s1 h
    let s2 := match writeFrame h x.dbg.dframe (recordOf 3 h { x with pc := pc } cmds) noStream 0 s1 with
      | .ok _ s => s
      | .bad _ s => s
      | .wait s => s
    modHart h (fun x => { x with run := .stopped, pc := pc, stalled := 0, stallS := none, stallV := none, stalledV := 0,
                                 stallM := none, stalledM := 0, invWait := none, entry := none,
                                 dbg := { x.dbg with dpc := pc, why := BitVec.ofNat 8 why, stepping := 0, held := cmds,
                                                     passed := false, due := none } }) s2

/-- The hart in its handler (R227): the trap CSRs are set, the queues are empty, and the PC is at TRAPVEC. -/
def toHandler (f : Flt) (imp : Bool) (pc lpc : Word) (elem vstart : Nat) (cmds : List CopyCmd) (x : Hart) : Hart :=
  { x with t := { x.t with cause := BitVec.ofNat 64 (f.cause + 256 * b2n imp), pc := pc, lpc := lpc, addr := f.addr,
                           elem := BitVec.ofNat 64 elem, stat := f.stat, vstart := BitVec.ofNat 64 vstart },
           vq := [], mq := [], pend := none, pendAge := 0, capLeft := 0, convLeft := 0, snap := none, handler := true,
           pc := x.t.vec, restored := false, arrived := false,
           stoppedV := [], stoppedM := [], stoppedC := [], stoppedCap := none, frameC := cmds, revabt := none, stalled := 0, stallS := none,
           stallV := none, stalledV := 0, stallM := none, stalledM := 0, invWait := none, entry := none, run := .running }

/-- enter_trap of R227 for hart `h`: the frame is written at TRAPFRAME, the trap CSRs are set, the queues are emptied,
and control passes to TRAPVEC at handler privilege. At handler privilege, or when the frame cannot be written, it is a
double trap (R230). The entry waits until the accesses that the hart has issued are complete (R221), and while a link that
the frame needs is down (R180). -/
def enterTrap (h : Nat) (f : Flt) (imp : Bool) (pc lpc : Word) (elem vstart : Nat) (fs : FaultStream) (s : State) :
    State :=
  let s := drainStores h s
  let x := hartOf s h
  let held (b : Bool) : TrapEntry :=
    { flt := f, imp := imp, pc := pc, lpc := lpc, elem := elem, vstart := vstart, fs := fs, framed := b }
  let hold (b : Bool) (x : Hart) : Hart := { x with entry := some (held b) }
  if !x.entry.any (fun t => t.framed) && unfinished s h then modHart h (hold false) s
  else if stopsFor x f.cause then debugStop h f.cause pc (modHart h (fun x => { x with pend := none }) s)
  else if x.handler then doubleTrap h s
  else
    let (cmds, s1) := takeCmds h s
    match writeFrame h x.t.frame (recordOf 0 h { unwindConvoy x with pc := pc } cmds) fs vstart s1 with
    | .bad _ s2 => doubleTrap h (modCore (coreNo h) (fun c => { c with cmds := c.cmds ++ cmds }) s2)
    | .wait s2 =>
      modHart h (hold true)
        (modCore (coreNo h) (fun c => { c with cmds := c.cmds ++ cmds }) s2)
    | .ok _ s2 =>
      modHart h (fun x => toHandler f imp pc lpc elem vstart cmds (unwindConvoy x)) (endAccesses h s2)

/-- VSTART of the frame: that of the stopped entry, which a non-element-wise instruction resumes from 0 (R349); of a convoy,
the boundary up to which all its instructions are performed (R217). -/
def stoppedVstart (x : Hart) (p : PendTrap) : Nat :=
  match (x.vq ++ x.mq).find? (fun e => e.ctx.pc == p.lpc && p.stream != 3) with
  | some e => if e.ctx.conv = 0 then e.vstart else e.ctx.upto
  | none => p.elem

/-- Deliver the pending imprecise trap of hart `h` with TRAPPC := `pc` (R226). -/
def deliver (h : Nat) (pc : Word) (s : State) : State :=
  match (hartOf s h).pend with
  | some p => enterTrap h p.flt true pc p.lpc p.elem (stoppedVstart (hartOf s h) p) p.fs s
  | none => s

/-- A precise trap of the current hart with TRAPPC := `pc`; a pending imprecise trap goes first, and TRAPPC then names
the instruction (R228). -/
def preciseAt (f : Flt) (pc lpc : Word) (s : State) : State :=
  match (me s).pend with
  | some _ => deliver s.cur (me s).pc s
  | none => enterTrap s.cur f false pc lpc 0 0 noStream s

/-- A precise trap at the current instruction. -/
def preciseTrap (f : Flt) (s : State) : State := preciseAt f (me s).pc 0 s

/-- ILLEGAL with a reason of R307; a long instruction also sets TRAPLPC. -/
def illegal (reason : Nat) (s : State) : State := preciseTrap (mkFlt cIllegal 0 reason) s
def illegalLong (reason : Nat) (s : State) : State := preciseAt (mkFlt cIllegal 0 reason) (me s).pc (me s).pc s
def privTrap (s : State) : State := preciseTrap (mkFlt cPriv 0 0) s

/-- MISALIGN (R332). -/
def misalignFlt (a log : Nat) (wr atom : Bool) : Flt := mkFlt cMisalign a (log + 64 * b2n wr + 256 * b2n atom)

/-- A scalar access: a fault is precise (R56, R34), a link that is down stalls. -/
def scalarDo {α : Type} (m : MR α) (k : α → State → State) : State :=
  match m with
  | .ok a s => k a s
  | .bad f s => preciseTrap f s
  | .wait s => s

/-! ## Waiting for streams (R216) -/

/-- The SBAR bit of a long instruction's stream (R158); those that access no memory count with V (R211). -/
def streamOf : Instr → Nat
  | .kvctxCfg .. | .kvctxOpen .. | .kvctxClose .. | .kvctxCb .. | .kvctxPin .. | .kvapp .. | .kvld .. | .kvscore ..
  | .kvvqsLut .. | .kvvqsQ .. | .kvacc .. | .kvcomp .. | .kvfree .. => 4
  | .rpush .. | .rpull .. | .reos .. | .rstat .. | .rstatReset .. => 6
  | .mattach .. | .mdetach | .mtile .. | .mtileOff .. | .mclr .. | .mpredRows .. | .mpredCols .. | .mpredK ..
  | .mpredRowm .. | .mpredColm .. | .mpredAll | .mksum .. | .mlineRrow .. | .mlineRcol .. | .mlineWrow ..
  | .mlineWcol .. | .mlineSt .. | .mlineLd .. | .mdrain .. | .mdrainSt .. | .mgroup .. => 2
  | _ => 1

/-- Matrix instructions that read a v register, which may be bound. -/
def readsV : Instr → Bool
  | .mlineWrow .. | .mlineWcol .. => true
  | _ => false

/-- Work of the named streams is not complete. Bit i of `mask` is SBAR bit i; bound reads (bit 5) are those of every
queued instruction that can read a v register. -/
def busy (mask : Nat) (s : State) : Bool :=
  let x := me s
  (mask.testBit 0 && !x.sbuf.isEmpty) ||
  x.vq.any (fun e => mask.testBit (streamOf e.instr) || mask.testBit 5) ||
  x.mq.any (fun e => mask.testBit 2 || (mask.testBit 5 && readsV e.instr)) ||
  (cmdsOf s s.cur).any (fun c => mask.testBit c.stream)

/-- A synchronising instruction: it delivers an imprecise trap of a stream it names, waits for their work and, when it names
stream S, for the hart's scalar stores, and then takes effect. -/
def sync (mask : Nat) (k : State → State) (s : State) : State :=
  let s := if mask.testBit 0 then drainStores s.cur s else s
  match (me s).pend with
  | some p => if mask.testBit p.stream then deliver s.cur (me s).pc s else if busy mask s then s else k s
  | none => if busy mask s then s else k s

def allStreams : Nat := 0xFF

/-! ## Returning from a trap -/

/-- Bits of a vector row up to the register's extent: row k of a register with extent `u` units of 64 bytes. -/
def clipRow (k u : Nat) (x : BitVec 16384) : BitVec 16384 :=
  if 2048 * (k + 1) ≤ 64 * u then x
  else if 64 * u ≤ 2048 * k then 0
  else BitVec.ofNat 16384 (x.toNat % 2 ^ (8 * (64 * u - 2048 * k)))

/-- Vector rows as a restore leaves them: zeros beyond the saved extent and throughout clean registers (R419). -/
def clipRegs (r : Regs) : Cells (BitVec 16384) :=
  r.v.foldr (fun p m => cset 0 p.1 (clipRow (p.1 % 8) (cget 0 (p.1 / 8) r.ext) p.2) m) []

inductive FrameCheck where
  /-- the frame's content and bytes -/
  | good (r : FrameRec)
  | wrong
  deriving DecidableEq, Repr

/-- Read and check the frame at an address (R419). -/
def readFrame (h : Nat) (addr : Word) (s : State) : MR FrameCheck :=
  let x := hartOf s h
  let w := hartWho s h 0 x.handler
  mbind (vaReadN w addr.toNat 64 s) fun head s =>
    let size := ofBytes (head.take 4)
    let ver := ofBytes ((head.drop 4).take 2)
    if ver ≠ 1 ∨ size = 0 ∨ size % 64 ≠ 0 ∨ 589824 < size then .ok .wrong s
    else if size < 128 then .ok .wrong s
    else
      mbind (vaReadN w (addr.toNat + 64) 8 s) fun hb s =>
        mbind (vaReadN w (addr.toNat + size - 8) 8 s) fun cb s =>
          let content := ofBytes (head ++ hb)
          let handle := ofBytes hb
          if s.frames.any (fun p => p.1 == handle) && Config.checkWord content x.part.toNat == BitVec.ofNat 64 (ofBytes cb)
          then .ok (.good (frameRec s handle)) s
          else .ok .wrong s

/-- Register state of a frame restored into hart `h`; a trap frame also holds the g registers and the lane state. -/
def restoreRegs (h : Nat) (rec' : FrameRec) (keepChains : Bool) (s : State) : State :=
  modHart h (fun x =>
    let r := { rec'.regs with v := clipRegs rec'.regs,
                              g := if rec'.kind = 1 then x.r.g else rec'.regs.g,
                              chains := if keepChains then x.r.chains
                                else rec'.regs.chains.map (fun c => { c with stale := true }) }
    if rec'.kind = 1 then { x with r := r }
    else { x with r := r, vl := rec'.vl, rc := rec'.rc, vgrant := rec'.vgrant,
                  stoppedCap := some (rec'.capLeft, rec'.body, rec'.conv.1, rec'.conv.2) }) s

/-- The capture, the body and the convoy header that a trap frame has given back are in force (R229). -/
def resumeCap (x : Hart) : Hart :=
  match x.stoppedCap with
  | some (n, b, k, id) => { x with capLeft := n, body := b, convLeft := k, convId := id, stoppedCap := none }
  | none => x

/-- The reversal-active bit follows the chains of the core's harts (R101, R243). -/
def settleRev (core : Nat) (s : State) : State :=
  let any := (List.range 8).any (fun i => !(hartOf s (8 * core + i)).r.chains.isEmpty)
  modCore core (fun c => { c with revActive := any }) s

/-- An instruction that a frame holds stays in progress on its key on the hart that resumes it (R139, R397). -/
def adoptKeys (h k : Nat) (s : State) : State :=
  if h = k then s
  else { s with keyUses := s.keyUses.map (fun u => if u.hart = h ∧ !u.handler then { u with hart := k } else u) }

/-- Stopped work of a hart goes back to its queues and its core's engine (R61); a snapshot copy that stopped with an
error is issued once more (R247). -/
def issueStopped (h : Nat) (vq mq : List QEntry) (cmds : List CopyCmd) (s : State) : State :=
  let cmds := cmds.map (rehome h)
  let s := cmds.foldl (fun s x => if x.phase = 4 then incTag (coreNo h) x.tag s else s) s
  let s := modCore (coreNo h) (fun c =>
    { c with cmds := c.cmds ++ cmds.map (fun x => { x with phase := if 3 ≤ x.phase then 0 else x.phase }) }) s
  modHart h (fun x => { x with vq := vq, mq := mq }) s

/-- The end of ERET once the frame's registers are restored (R229, R250): user privilege, PC := TRAPPC, no translation is held
any more (R61), and the stopped work continues; after REVABT at handler privilege the work is discarded and the chain's return address is
taken with the registers of R243. -/
def finishEret (s : State) : State :=
  let x := me s
  let core := coreNo s.cur
  match x.revabt with
  | some (pc, frame) =>
    let s := endWork s.cur (discardCmds core (savedCmds s.cur x) s)
    let s := modMe (fun x => { x with stoppedV := [], stoppedM := [], stoppedC := [], frameC := [], vq := [], mq := [],
                                      capLeft := 0, convLeft := 0, stoppedCap := none, revabt := none, mcFin := x.mcDone,
                                      restored := false, handler := false, dbg := { x.dbg with suppress := true } }) s
    let s := setG 7 frame (setG 6 0 (setG 5 0 (setG 4 1 s)))
    goto pc s
  | none =>
    let s := issueStopped s.cur x.stoppedV x.stoppedM x.stoppedC (letGo s.cur (fun _ => true) s)
    goto x.t.pc (modMe (fun x => { resumeCap x with
      stoppedV := [], stoppedM := [], stoppedC := [], frameC := [], restored := false, handler := false,
      dbg := { x.dbg with suppress := true } }) s)

/-- The return from a trap (R229): unless RESTV has run, the frame at TRAPFRAME is checked and restored; a frame that
fails a check is a double trap. -/
def returnFromTrap (s : State) : State :=
  let x := me s
  if x.restored then finishEret s
  else
    scalarDo (readFrame s.cur x.t.frame s) fun r s =>
      match r with
      | .wrong => illegal 0 s
      | .good rec' =>
        let s := adoptKeys rec'.hart s.cur (restoreRegs s.cur rec' (rec'.kind == 0 && x.revabt.isSome) s)
        finishEret (settleRev (coreNo s.cur)
          (modMe (fun x => { x with restored := true, stoppedV := rec'.vq, stoppedM := rec'.mq, stoppedC := rec'.cmds }) s))

/-! ## Waking -/

/-- A parked hart goes on after its WFE (R344). -/
def wake (h : Nat) (s : State) : State :=
  if (hartOf s h).run = .parked then modHart h (fun x => { x with run := .running }) s else s

/-- A TAGRDY bit of the core rose, or an entry of q6 or q7 was written: its parked harts go on. -/
def wakeCore (core : Nat) (s : State) : State := (List.range 8).foldl (fun s i => wake (8 * core + i) s) s

/-! ## Queue registers (R198, R214) -/

def queueDepth (n : Nat) : Nat := if n < 4 then 16 else if n < 6 then 8 else 32

/-- Entries of queue `n` of the current hart. -/
def queueOfHart (s : State) (n : Nat) : List Word :=
  if n = 6 then (coreOf s (coreNo s.cur)).q6
  else if n = 7 then (coreOf s (coreNo s.cur)).q7
  else cget [] n (me s).r.q

def setQueue (n : Nat) (q : List Word) (s : State) : State :=
  if n = 6 then modCore (coreNo s.cur) (fun c => { c with q6 := q }) s
  else if n = 7 then modCore (coreNo s.cur) (fun c => { c with q7 := q }) s
  else modMe (fun x => { x with r := { x.r with q := cset [] n q x.r.q } }) s

def appendQueue (n : Nat) (v : Word) (s : State) : State :=
  let s := setQueue n (queueOfHart s n ++ [v]) s
  if n < 4 then s else if n < 6 then wake s.cur s else wakeCore (coreNo s.cur) s

/-- QUEUEHANG of a queue register (R233). -/
def qHang (reason q stream : Nat) : Flt := mkFlt cQueuehang 0 (reason + 16 * q + 256 * stream)

/-! ## Grants (R201) -/

def popcount (n x : Nat) : Nat := (List.range n).foldl (fun c i => c + b2n (x.testBit i)) 0

def lgmax (s : State) : Nat := bitsOf s.pwrcap.toNat 0 4
def mrows (s : State) : Nat := bitsOf s.pwrcap.toNat 4 3

/-- min(popcount(LSET), PWRCAP.LGMAX). -/
def grantOf (s : State) (lset : BitVec 8) : Nat := min (popcount 8 lset.toNat) (lgmax s)

end Sys2Proof.Machine
end

