-- ==== Sys2Proof/Machine/Flags.lean ====
section
/-! DEFINITION. Integer results and the flags they raise (R320 to R323, R287, R288), and the scalar FP operations on
codes (R325 to R328). -/

namespace Sys2Proof.Machine

abbrev Out := Host.Outcome State Fault Refusal

/-- A signed result at width `n` and intovf where it wraps (R323). -/
def wrapInt (n : Nat) (z : Int) : Nat × Fl := intResult false false n z

def addOp (n x y : Nat) : Nat × Fl := wrapInt n (signed n x + signed n y)
def subOp (n x y : Nat) : Nat × Fl := wrapInt n (signed n x - signed n y)
def mulOp (n x y : Nat) : Nat × Fl := wrapInt n (signed n x * signed n y)

/-- Shift counts are taken modulo the width (R320, R321). -/
def shlOp (n x y : Nat) : Nat := x * 2 ^ (y % n) % 2 ^ n
def shrOp (n x y : Nat) : Nat := x % 2 ^ n / 2 ^ (y % n)
def sarOp (n x y : Nat) : Nat := wrapTo n (signed n x / ((2 ^ (y % n) : Nat) : Int))

/-- The upper half of the exact product (R320, R321). -/
def mulhOp (u : Bool) (n x y : Nat) : Nat := wrapTo n (asInt u n x * asInt u n y / ((2 ^ n : Nat) : Int))

def minOp (u : Bool) (n x y : Nat) : Nat := if asInt u n x < asInt u n y then x % 2 ^ n else y % 2 ^ n
def maxOp (u : Bool) (n x y : Nat) : Nat := if asInt u n x < asInt u n y then y % 2 ^ n else x % 2 ^ n

/-- Trailing zeros, counted up to `n`. -/
def ctzFrom (x : Nat) : Nat → Nat → Nat
  | 0, i => i
  | k + 1, i => if x.testBit i then i else ctzFrom x k (i + 1)
def ctzOp (n x : Nat) : Nat := ctzFrom x n 0

/-- EXT (R320, R321): the field of x at lo := y[5:0], len := y[13:8] + 1, taken modulo the width and clipped at it. -/
def extOp (u : Bool) (n x y : Nat) : Nat :=
  let lo := y % 64 % n
  let len := y / 256 % 64 % n + 1
  let k := min (lo + len) n - lo
  let f := x / 2 ^ lo % 2 ^ k
  if u then f else wrapTo n (signed k f)

/-! ## Scalar floating point -/

/-- The format of a scalar type field: 0 FP32, 1 FP64, 2 BF16 (R325). -/
def sfmt (t : BitVec 2) : FFmt := if t = 0 then fp32 else if t = 1 then fp64 else bf16

/-- The value of an operand in a g register; the bits above the type are ignored (R325). -/
def sval (t : BitVec 2) (x : Word) : Val :=
  let f := sfmt t
  decodeF f (x.toNat % 2 ^ (1 + f.ebits + f.fbits))

/-- One rounding of an exact result with the flags of the operation (R283 to R288). -/
def finishF (f : FFmt) (rm : Nat) (sat : Bool) (r : Val × Fl) : Nat × Fl :=
  let (c, fl) := roundV f rm sat r.1
  (c, fl ||| r.2)

def faddOp (f : FFmt) (rm : Nat) (sat : Bool) (a b : Val) : Nat × Fl := finishF f rm sat (addV rm a b)
def fsubOp (f : FFmt) (rm : Nat) (sat : Bool) (a b : Val) : Nat × Fl := finishF f rm sat (addV rm a b.neg)
def fmulOp (f : FFmt) (rm : Nat) (sat : Bool) (a b : Val) : Nat × Fl := finishF f rm sat (mulV a b)
def fdivOp (f : FFmt) (rm : Nat) (sat : Bool) (a b : Val) : Nat × Fl := finishF f rm sat (divV a b)
def fsqrtOp (f : FFmt) (rm : Nat) (sat : Bool) (a : Val) : Nat × Fl := finishF f rm sat (sqrtV a)

/-- round(a × b + c), product and sum exact (R326). -/
def fmaOp (f : FFmt) (rm : Nat) (sat : Bool) (a b c : Val) : Nat × Fl :=
  let (p, fl) := mulV a b
  let (r, fl') := sumV rm [p, c]
  finishF f rm sat (r, fl ||| fl')

def fminOp (f : FFmt) (a b : Val) : Nat × Fl := finishF f 0 false (minV a b)
def fmaxOp (f : FFmt) (a b : Val) : Nat × Fl := finishF f 0 false (maxV a b)

/-- FCMP (R327): the condition and invalid. -/
def fcmpOp (cond : Nat) (a b : Val) : Bool × Fl :=
  let un := a.isNan || b.isNan
  let sig := sigFl a ||| sigFl b
  match cond with
  | 0 => (eqV a b, sig)
  | 1 => (ltV a b, flIf un flInvalid)
  | 2 => (!un && !ltV b a, flIf un flInvalid)
  | _ => (un, sig)

/-- FCVT (R328): codes of R325, 3 a signed 64-bit integer. -/
def fcvtOp (dst src : BitVec 2) (rm : Nat) (x : Word) : Nat × Fl :=
  let v := if src = 3 then ofInt x.toInt else sval src x
  if dst = 3 then
    let (z, fl) := toIntV rm (intLo false 64) (intHi false 64) v
    (wrapTo 64 z, fl)
  else convertV (sfmt dst) rm false v

end Sys2Proof.Machine
end

