-- ==== Sys2Proof/Machine/Operands.lean ====
section
/-! DEFINITION. Vector, mask and tile operands: elements of rows (R198, R317, R348), the rows a sweep visits (R303),
overlap and row bytes (R203, R224), and what the scalar decoder checks before a push. -/

namespace Sys2Proof.Machine

/-! ## Rows -/

/-- Row k of register v (R198). -/
def vRow (x : Hart) (v k : Nat) : BitVec 16384 := cget 0 (8 * v + k) x.r.v

/-- The `n`-bit element at bit `lo` of a row. -/
def rowBits (r : BitVec 16384) (lo n : Nat) : Nat := r.toNat / 2 ^ lo % 2 ^ n

/-- A row with `n` bits from bit `lo` replaced. -/
def putBits (r : BitVec 16384) (lo n x : Nat) : BitVec 16384 :=
  let y := r.toNat
  BitVec.ofNat 16384 (y - y / 2 ^ lo % 2 ^ n * 2 ^ lo + x % 2 ^ n * 2 ^ lo)

/-- elem(v, k, e, w): element e of w bits (R317); 4-bit elements are packed (R281). -/
def vElem (x : Hart) (v k e w : Nat) : Nat := rowBits (vRow x v k) (e * w) w

/-- 64-byte units of a register's storage written up to byte `n` of row `k` (R59). -/
def unitsUpTo (k n : Nat) : Nat := (2048 * k + n + 63) / 64

/-- The register's extent grows to a written byte (R59): the entry is HWU + 1. -/
def touchV (v k n : Nat) (x : Hart) : Hart :=
  { x with r := { x.r with ext := cset 0 v (max (cget 0 v x.r.ext) (unitsUpTo k n)) x.r.ext } }

def putRow (v k : Nat) (r : BitVec 16384) (x : Hart) : Hart :=
  { x with r := { x.r with v := cset 0 (8 * v + k) r x.r.v } }

/-- set_elem(v, k, e, w, y): the element is written and the register marked dirty with its HWU raised (R317). -/
def setVElemH (v k e w y : Nat) (x : Hart) : Hart :=
  touchV v k ((e * w + w + 7) / 8) (putRow v k (putBits (vRow x v k) (e * w) w y) x)

def setVElem (v k e w y : Nat) (s : State) : State := modMe (setVElemH v k e w y) s

/-! ## Masks (R348) -/

/-- Row k of mask m; m0 reads all true. -/
def mRow (x : Hart) (m k : Nat) : BitVec 2048 := if m = 0 then BitVec.allOnes 2048 else cget 0 (8 * m + k) x.r.m

def mBit (x : Hart) (m k e : Nat) : Bool := (mRow x m k).getLsbD e

/-- A write of a mask bit; m0 discards it. -/
def setMBitH (m k e : Nat) (b : Bool) (x : Hart) : Hart :=
  if m = 0 then x
  else
    let r := (mRow x m k).toNat
    let r' := if b then r ||| 2 ^ e else if r.testBit e then r - 2 ^ e else r
    { x with r := { x.r with m := cset 0 (8 * m + k) (BitVec.ofNat 2048 r') x.r.m } }

def setMBit (m k e : Nat) (b : Bool) (s : State) : State := modMe (setMBitH m k e b) s

/-- active(k, e) of R317. -/
def active (x : Hart) (k : MaskSel) (row e : Nat) : Bool := mBit x k.m.toNat row e != k.inv

/-! ## Types and widths -/

/-- Bits of an element width code. -/
def ewBits (ew : BitVec 2) : Nat := 8 * 2 ^ ew.toNat
def ewBytes (ew : BitVec 2) : Nat := 2 ^ ew.toNat

/-- Bits of an element of a type (R346). -/
def tyBits (t : ElemTy) : Nat := ewBits t.ew

/-- The format of a float type, none for an integer. -/
def tyFmt : ElemTy → Option FFmt
  | .f32 => some fp32
  | .bf16 => some bf16
  | .f16 => some fp16
  | .sint _ | .uint _ => none

/-- Format code 0, 1 or 2. -/
def f012 (f : BitVec 2) : FFmt := if f = 0 then fp32 else if f = 1 then bf16 else fp16
def f012Bits (f : BitVec 2) : Nat := if f = 0 then 32 else 16

/-! ## The captured context -/

/-- What a long instruction takes with it when it is pushed (R201, R212). -/
def captureCtx (s : State) : LCtx :=
  let x := me s
  { g := x.r.g, vl := x.vl, rc := x.rc, vgrant := x.vgrant, pc := x.pc, handler := x.handler, nest := [], move := 0,
    inNest := false, seq := s.ticks, byRow := false, conv := if 0 < x.convLeft then x.convId else 0, upto := 0, width := 0 }

/-- g(n) as it stood at the push. -/
def cg (c : LCtx) (r : Reg) : Nat := if r = 0 then 0 else (cget 0 r.toNat c.g).toNat

/-- The rows a sweep visits (R303). -/
def rowsOf (c : LCtx) (row : Option (BitVec 3)) : List Nat :=
  match row with
  | some r => [r.toNat]
  | none => List.range c.rc

/-- Every (row, element) of the sweep, in order. -/
def tileOf (c : LCtx) (rows : List Nat) : List (Nat × Nat) := rows.flatMap (fun k => (List.range c.vl).map (fun e => (k, e)))

/-- The sweep index of R200. -/
def sweepIx (c : LCtx) (k e : Nat) : Nat := k * c.vl + e

/-- The number of elements of the tile. -/
def tileSize (c : LCtx) : Nat := c.rc * c.vl

/-! ## Bindings (R105) -/

/-- The slot that binds a register. -/
def bindingOf (x : Hart) (v : Nat) : Option (Nat × Binding) := x.r.binds.find? (fun p => p.2.reg == v)
def isBound (x : Hart) (v : Nat) : Bool := (bindingOf x v).isSome

/-- Slots and registers once a queued instruction has been performed (R374). -/
def bindsAfter (l : List (Nat × Nat)) (i : Instr) : List (Nat × Nat) :=
  match i with
  | .vbind vd _ slot => (slot.toNat, vd.toNat) :: l.filter (fun p => p.1 != slot.toNat && p.2 != vd.toNat)
  | .vunbind vd => l.filter (fun p => p.2 != vd.toNat)
  | _ => l

/-- Whether a register is bound where the decoder stands, behind the instructions that are still queued (R108). -/
def boundAhead (x : Hart) (v : Nat) : Bool :=
  (x.vq.foldl (fun l e => bindsAfter l e.instr) (x.r.binds.map (fun p => (p.1, p.2.reg)))).any (fun p => p.2 == v)

/-! ## Checks of the scalar decoder -/

/-- What the decoder looks at in a long instruction before its push: the widest element in bytes (R203), the row
selector (R302), its destination v register, whether overlap is forbidden, and a push-time check of register values. -/
structure Check where
  /-- widest element in bits; 0 when R203 does not apply -/
  width : Nat
  row : Option (BitVec 3)
  /-- v registers written -/
  dst : List Reg
  /-- v registers read whose overlap with a destination is forbidden (R224, R349) -/
  noOverlap : List Reg
  /-- mask registers that may not be the destination mask -/
  maskClash : Bool
  /-- checks of register values at push (R379) -/
  bad : Bool
  deriving Repr

def Check.none : Check := { width := 0, row := Option.none, dst := [], noOverlap := [], maskClash := false, bad := false }

/-- The reason of R307 with which the decoder refuses, in the order reserved value, overlap, row bytes, row selector. -/
def Check.reason (k : Check) (x : Hart) : Option Nat :=
  if k.bad then some 0
  else if k.dst.any (fun d => k.noOverlap.contains d || boundAhead x d.toNat) || k.maskClash then some 3
  else if x.vgrant * 256 * 8 < x.vl * k.width then some 4
  else match k.row with
    | some r => if x.rc ≤ r.toNat then some 8 else Option.none
    | Option.none => Option.none

/-! ## Performing a long instruction -/

/-- How a long instruction fares: complete; stalled, with what is left of it and the QUEUEHANG it would take; or
stopped by an imprecise trap, with what is left of it. -/
inductive LRes where
  | done (s : State)
  | block (e : QEntry) (why : Option PendTrap) (s : State)
  | fault (e : QEntry) (p : PendTrap) (s : State)
  deriving Repr

/-- The meaning of a long instruction that has reached its unit, for the current hart. -/
abbrev Perform := QEntry → State → LRes

def freshEntry (i : Instr) (c : LCtx) : QEntry := { instr := i, ctx := c, vstart := 0, kept := [], got := [], body := [], fin := false }

/-- The faulting stream's fields (R436) of a sequence of `W`-byte elements. -/
def mkStream (stream fewlog fkind : Nat) (stride : Int) (remain : Nat) (nest : Bool) : FaultStream :=
  { fvalid := true, fewlog := fewlog, fkind := if nest then 3 else fkind, fstream := stream, fstride := stride,
    fremain := remain }

/-- FVALID is 1 for PAGE, ACCESS, KVPAGE, QUOTA and MISALIGN only (R436). -/
def streamFor (f : Flt) (fs : FaultStream) : FaultStream :=
  if f.cause == cPage || f.cause == cAccess || f.cause == cKvpage || f.cause == cQuota || f.cause == cMisalign then fs
  else { noStream with fstream := fs.fstream }

/-- A long instruction stops at element `elem` (R57). -/
def stopAt (e : QEntry) (elem : Nat) (f : Flt) (fs : FaultStream) (s : State) : LRes :=
  .fault { e with vstart := elem }
    { flt := f, lpc := e.ctx.pc, elem := elem, stream := fs.fstream, fs := streamFor f fs } s

/-- A complete access holds no translation any more. -/
def entered (slot : Nat) : LRes → LRes
  | .done s => .done (letGo s.cur (fun n => n == slot) s)
  | r => r

/-- An imprecise trap is recorded; of two, that of the lower SBAR bit is reported (R60). It ends a WFE (R344). -/
def setPend (h : Nat) (p : PendTrap) (s : State) : State :=
  let s := match (hartOf s h).pend with
    | some q => if p.stream < q.stream then modHart h (fun x => { x with pend := some p }) s else s
    | none => modHart h (fun x => { x with pend := some p, pendAge := 0 }) s
  wake h s

/-- Majors that LCAP captures (R377): LCAP's list, VRED in its row form only; memory instructions count as slots. -/
def capturable : Instr → Bool
  | .msetAll .. | .msetNone .. | .msetLt .. | .msetNz .. | .mlogic .. | .vcmp .. => true
  | .vadd _ | .vsub _ | .vmul _ | .vfma _ | .vdiv _ | .vmin _ | .vmax _ | .vabs _ | .vneg _ | .vand _ | .vor _ | .vxor _
  | .vshl _ | .vshr _ | .vsel .. | .vmov .. | .vsplat .. | .vsplatImm .. | .vsplatQ .. | .viota .. => true
  | .vsfu .. | .vcvt .. | .vhad .. | .vqnt _ | .vqntSc _ | .vdqnt .. | .vlut .. => true
  | .vredRow _ | .vscan .. | .vslideUp .. | .vslideDn .. | .vperm .. | .vcomp .. | .vtopkIdx _ | .vtopkKey _
  | .vtopkMask _ => true
  | .vld _ | .vst _ | .vldx _ | .vstxOrd _ | .vstxAny _ | .vamo _ => true
  | _ => false

/-- Memory instructions of a body, which are its memory slots (R377). -/
def isMemSlot : Instr → Bool
  | .vld _ | .vst _ | .vldx _ | .vstxOrd _ | .vstxAny _ | .vamo _ => true
  | _ => false

/-- A parcel that ends a capture that may not hold it (R377). While an imprecise trap is pending, that one is delivered
(R228), and the capture goes on until the parcel runs again. -/
def abandonCapture (reasonLong : Bool) (s : State) : State :=
  let s := if (me s).pend.isSome then s else modMe (fun x => { x with capLeft := 0, body := [] }) s
  if reasonLong then illegalLong 0 s else illegal 0 s

/-- One instruction of the convoy whose header has been performed is in the queue or the body (R305). -/
def nextInConvoy (s : State) : State :=
  if 0 < (me s).convLeft then modMe (fun x => { x with convLeft := x.convLeft - 1 }) s else s

/-- A long instruction met while LCAP captures joins the body (R377). -/
def capture (k : Check) (i : Instr) (s : State) : State :=
  let x := me s
  let slots := (x.body.filter (fun p => isMemSlot p.1)).length
  if !capturable i || (isMemSlot i && 4 ≤ slots) then abandonCapture true s
  else retire 8 (nextInConvoy (modMe (fun x => { x with capLeft := x.capLeft - 1, body := x.body ++ [(i, { captureCtx s with width := k.width })] }) s))

/-- Settle a performed entry at the head of the vector queue or in front of it. -/
def afterV (r : LRes) (rest : List QEntry) : State :=
  match r with
  | .done s => modMe (fun x => { x with vq := rest, stallV := none }) s
  | .block e' why s => modMe (fun x => { x with vq := e' :: rest, stallV := why }) s
  | .fault e' p s => setPend s.cur p (modMe (fun x => { x with vq := e' :: rest, stallV := none }) s)

def afterM (r : LRes) (rest : List QEntry) : State :=
  match r with
  | .done s => modMe (fun x => { x with mq := rest, stallM := none }) s
  | .block e' why s => modMe (fun x => { x with mq := e' :: rest, stallM := why }) s
  | .fault e' p s => setPend s.cur p (modMe (fun x => { x with mq := e' :: rest, stallM := none }) s)

/-- No other hart of the core has an instruction in its vector queue: all the lane groups are free for this hart's (R205). -/
def lanesFree (s : State) : Bool :=
  (List.range 8).all (fun i =>
    let h := 8 * coreNo s.cur + i
    h == s.cur || (hartOf s h).vq.isEmpty)

/-- A long instruction pushed now may run at once: it is no late turn, the hart's queues are empty, and no trap is pending. -/
def prompt (s : State) : Bool :=
  let x := me s
  !s.late && x.vq.isEmpty && x.mq.isEmpty && x.pend.isNone

/-- A long instruction of the vector instruction queue (R211): the decoder's checks, a stall while the queue is full,
and the push. In a turn that is not late, with the hart's queues empty, no trap pending and no other hart that competes for
the core's lane groups, it is bound for its rows one after another in the same step (R205; log 3); a convoy's instructions
wait for the convoy (R217). -/
def issueV (k : Check) (i : Instr) (run : Perform) (s : State) : State :=
  let x := me s
  match k.reason x with
  | some r => illegalLong r s
  | none =>
    if 0 < x.capLeft then capture k i s
    else if 64 ≤ x.vq.length then s
    else
      let e := freshEntry i { captureCtx s with width := k.width }
      let now := prompt s && lanesFree s && x.convLeft == 0
      let s := retire 8 (nextInConvoy s)
      if now then afterV (run e s) [] else modMe (fun x => { x with vq := x.vq ++ [e] }) s

/-- A long instruction that acts at its push and then passes through the vector instruction queue (R211; log 16). -/
def issueMark (i : Instr) (f : State → State) (s : State) : State :=
  let x := me s
  if 0 < x.capLeft then abandonCapture true s
  else if 64 ≤ x.vq.length then s
  else
    let e := freshEntry i (captureCtx s)
    let s := retire 8 (f s)
    if x.vq.isEmpty && x.mq.isEmpty && x.pend.isNone then s else modMe (fun x => { x with vq := x.vq ++ [e] }) s

/-- A long instruction of the matrix instruction queue. -/
def issueM (k : Check) (i : Instr) (run : Perform) (s : State) : State :=
  let x := me s
  match k.reason x with
  | some r => illegalLong r s
  | none =>
    if 0 < x.capLeft then abandonCapture true s
    else if 16 ≤ x.mq.length then s
    else
      let e := freshEntry i (captureCtx s)
      let now := prompt s && !x.reattach
      let s := retire 8 s
      if now then afterM (run e s) [] else modMe (fun x => { x with mq := x.mq ++ [e] }) s

/-- A long instruction that the scalar unit performs itself (R211), outside a capture. -/
def scalarLong (f : State → State) (s : State) : State := if 0 < (me s).capLeft then abandonCapture true s else f s

end Sys2Proof.Machine
end

