-- ==== Sys2Proof/Machine/ScalarMem.lean ====
section
/-! DEFINITION. Scalar loads, stores and atomics (R331 to R335). -/

namespace Sys2Proof.Machine

/-- The address of a load or store (R331). -/
def scalarAddr (a : Reg) (imm : BitVec 14) (s : State) : Nat := (gGet a s + imm.signExtend 64).toNat

/-- A scalar read: memory's bytes, with those of the hart's waiting stores in their places (R159). -/
def scalarRead (w : Who) (va n : Nat) (s : State) : MR (List Byte) :=
  mbind (transFor w va .read s) fun l s =>
    mbind (readAt w va l .read n s) fun bs s => .ok (forwarded (hartOf s w.hart) l.global bs) s

/-- A place whose scalar stores may wait: memory or a scratchpad of this package. -/
def mayWait (s : State) (l : Loc) : Bool := l.pkg == s.pkg && !isMmio l.a && (linkFor s l).isNone

/-- A scalar write. In a late turn it is translated and checked, and waits in the hart's store buffer where its place allows
it (R160; log 3); one that may not wait goes behind the waiting ones. -/
def scalarWrite (w : Who) (va : Nat) (bs : List Byte) (s : State) : MR Unit :=
  mbind (transFor w va .write s) fun l s =>
    if s.late && mayWait s l && !ownedByOther s w.agentOf l.global bs.length then
      mbind (writeReach w va l bs s) fun _ s =>
        let c : LateStore := { va := va, pkg := l.pkg, a := l.a, leaf := l.leaf, lvl := l.lvl, handler := w.handler, data := bs }
        .ok () (modHart w.hart (fun x => { x with sbuf := x.sbuf ++ [c] }) s)
    else
      let s := drainStores w.hart s
      if (hartOf s w.hart).sbuf.isEmpty then writeAt w va l bs s else .wait s

/-- A load of `n` bytes, sign-extended when `sx` (R331). -/
def loadOp (n : Nat) (sx : Bool) (d a : Reg) (imm : BitVec 14) (s : State) : Out :=
  let va := scalarAddr a imm s
  if va % n ≠ 0 then .next (preciseTrap (misalignFlt va (Nat.log2 n) false false) s)
  else .next (scalarDo (scalarRead (myWho s) va n s) fun bs s =>
    let x := ofBytes bs
    retire 4 (setG d (if sx then BitVec.ofInt 64 (signed (8 * n) x) else BitVec.ofNat 64 x) s))

/-- A store of the low `n` bytes of gb (R331). -/
def storeOp (n : Nat) (a b : Reg) (imm : BitVec 14) (s : State) : Out :=
  let va := scalarAddr a imm s
  if va % n ≠ 0 then .next (preciseTrap (misalignFlt va (Nat.log2 n) true false) s)
  else .next (scalarDo (scalarWrite (myWho s) va (toBytes n (gGet b s).toNat) s) fun _ s => retire 4 s)

def execLdB (d a : Reg) (imm : BitVec 14) (s : State) : Out := loadOp 1 true d a imm s
def execLdH (d a : Reg) (imm : BitVec 14) (s : State) : Out := loadOp 2 true d a imm s
def execLdW (d a : Reg) (imm : BitVec 14) (s : State) : Out := loadOp 4 true d a imm s
def execLdD (d a : Reg) (imm : BitVec 14) (s : State) : Out := loadOp 8 true d a imm s
def execLdBu (d a : Reg) (imm : BitVec 14) (s : State) : Out := loadOp 1 false d a imm s
def execLdHu (d a : Reg) (imm : BitVec 14) (s : State) : Out := loadOp 2 false d a imm s
def execLdWu (d a : Reg) (imm : BitVec 14) (s : State) : Out := loadOp 4 false d a imm s
def execStB (a b : Reg) (imm : BitVec 14) (s : State) : Out := storeOp 1 a b imm s
def execStH (a b : Reg) (imm : BitVec 14) (s : State) : Out := storeOp 2 a b imm s
def execStW (a b : Reg) (imm : BitVec 14) (s : State) : Out := storeOp 4 a b imm s
def execStD (a b : Reg) (imm : BitVec 14) (s : State) : Out := storeOp 8 a b imm s

/-- R171: under tenant policy a FENCE or ordered atomic at system scope counts in SCOPECL. -/
def clampScope (scope : Nat) (s : State) : State :=
  if scope = 6 ∧ (partOf s (me s).part.toNat).tenant then modMe (fun x => { x with scopecl := x.scopecl + 1 }) s else s

def amoSize (o : AmoOrd) : Nat := if o.w32 then 4 else 8

/-- A scalar atomic goes behind the hart's waiting stores (R159). -/
def scalarAtomic (w : Who) (va n : Nat) (f : Nat → Option Nat) (s : State) : MR Nat :=
  let s := drainStores w.hart s
  if (hartOf s w.hart).sbuf.isEmpty then vaAtomic w va n f s else .wait s

/-- An AMO or CAS (R333, R334): `f` gives the new value from the old one, of the access's width, or none. -/
def atomicOp (o : AmoOrd) (d a : Reg) (f : Nat → Option Nat) (s : State) : Out :=
  let n := amoSize o
  let va := (gGet a s).toNat
  if va % n ≠ 0 then .next (preciseTrap (misalignFlt va (Nat.log2 n) true true) s)
  else .next (scalarDo (scalarAtomic (myWho s) va n f s) fun old s =>
    retire 4 (clampScope (if o.acq || o.rel then o.scope.toNat else 0)
      (setG d (BitVec.ofInt 64 (signed (8 * n) old)) s)))

/-- The operand gb at the access's width. -/
def amoOperand (o : AmoOrd) (b : Reg) (s : State) : Nat := (gGet b s).toNat % 2 ^ (8 * amoSize o)

def execAmoSwap (o : AmoOrd) (d a b : Reg) (s : State) : Out :=
  let y := amoOperand o b s
  atomicOp o d a (fun _ => some y) s
def execAmoAdd (o : AmoOrd) (d a b : Reg) (s : State) : Out :=
  let y := amoOperand o b s
  atomicOp o d a (fun x => some ((x + y) % 2 ^ (8 * amoSize o))) s
def execAmoAnd (o : AmoOrd) (d a b : Reg) (s : State) : Out :=
  let y := amoOperand o b s
  atomicOp o d a (fun x => some (x &&& y)) s
def execAmoOr (o : AmoOrd) (d a b : Reg) (s : State) : Out :=
  let y := amoOperand o b s
  atomicOp o d a (fun x => some (x ||| y)) s
def execAmoXor (o : AmoOrd) (d a b : Reg) (s : State) : Out :=
  let y := amoOperand o b s
  atomicOp o d a (fun x => some (x ^^^ y)) s
def execAmoMin (o : AmoOrd) (d a b : Reg) (s : State) : Out :=
  let y := amoOperand o b s
  atomicOp o d a (fun x => some (minOp false (8 * amoSize o) x y)) s
def execAmoMax (o : AmoOrd) (d a b : Reg) (s : State) : Out :=
  let y := amoOperand o b s
  atomicOp o d a (fun x => some (maxOp false (8 * amoSize o) x y)) s
/-- CAS (R334): the compare value is in gd. -/
def execCas (o : AmoOrd) (d a b : Reg) (s : State) : Out :=
  let c := amoOperand o d s
  let y := amoOperand o b s
  atomicOp o d a (fun x => if x = c then some y else none) s

end Sys2Proof.Machine
end

