-- ==== Sys2Proof/Machine/ScalarCtl.lean ====
section
/-! DEFINITION. Queue registers, GBAR, branches and jumps, ordering instructions, CSR access, calls to the handler and
the end of a hart (R329, R330, R336 to R345), and the events of these instructions. -/

namespace Sys2Proof.Machine

/-! ## Queue registers (R329) -/

def execQput (q : Idx3) (a : Reg) (s : State) : Out :=
  let n := q.toNat
  if queueDepth n ≤ (queueOfHart s n).length then .next (stallOn (qHang 2 n 0) s)
  else .next (retire 4 (appendQueue n (gGet a s) s))

/-- QGET takes the oldest entry. For q4 and q5 it waits for every earlier long instruction of the writing stream, V
(R216, R329; log 13). -/
def execQget (d : Reg) (q : Idx3) (s : State) : Out :=
  let n := q.toNat
  let take (s : State) : State := match queueOfHart s n with
    | [] => stallOn (qHang 1 n 0) s
    | v :: r => retire 4 (setG d v (setQueue n r s))
  .next (if n < 6 then sync 0x02 take s else take s)

def execQstat (d : Reg) (q : Idx3) (s : State) : Out :=
  .next (retire 4 (setGNat d (queueOfHart s q.toNat).length s))

/-! ## GBAR (R195, R208, R330) -/

/-- The harts of the gang of hart `h`: those of its job with its gang number. A hart of no job is a gang of one. -/
def gangOf (s : State) (h : Nat) : List Nat :=
  match (hartOf s h).job with
  | none => [h]
  | some j => (jobOf s j).harts.filter (fun k => (hartOf s k).gang == (hartOf s h).gang)

/-- A hart counts as arrived when it waits at GBAR, or has halted, or was never started (R208, R265). -/
def gbarIn (s : State) (h : Nat) : Bool :=
  let x := hartOf s h
  x.arrived || decide (x.run = .halted) || decide (x.run = .free) || decide (x.run = .off)

/-- Every waiting hart of the gang passes its GBAR, and so performs it: breakpoints match again (R342), and a single step ends
(R235). One that a debug stop holds goes on behind it when it resumes (R236). -/
def releaseGang (l : List Nat) (s : State) : State :=
  l.foldl (fun s h =>
    if (hartOf s h).arrived then
      modHart h (fun x => { x with arrived := false, pc := x.pc + 4, stalled := 0, stallS := none,
                                   dbg := { x.dbg with
                                     passed := decide (x.run = .stopped)
                                     suppress := x.dbg.suppress && decide (x.run = .stopped)
                                     due := if x.dbg.stepping % 2 = 1 ∧ x.dbg.stepping < 4 ∧ h ≠ s.cur then some 0xFE
                                            else x.dbg.due } }) s
    else s) s

/-- GBAR completes once every hart of the gang has arrived. -/
def tryGang (h : Nat) (s : State) : State :=
  let l := gangOf s h
  if l.all (gbarIn s) then releaseGang l s else s

def execGbar (s : State) : Out :=
  if (me s).arrived then .next (tryGang s.cur s)
  else .next (sync allStreams (fun s => tryGang s.cur (modMe (fun x => { x with arrived := true }) s)) s)

/-- GBAR_ALL_ARRIVED: every hart of the gang whose lowest hart is `gang` has arrived. -/
def execGbarAllArrived (gang : Nat) (s : State) : Out := .next (tryGang gang s)

/-! ## Branches and jumps (R336 to R338) -/

/-- A branch: PC + 4 × sext(imm) when the condition holds. -/
def branchOp (c : Bool) (imm : BitVec 14) (s : State) : Out :=
  .next (if c then goto ((me s).pc + imm.signExtend 64 * 4) s else retire 4 s)

def execBeq (a b : Reg) (imm : BitVec 14) (s : State) : Out := branchOp (gGet a s == gGet b s) imm s
def execBne (a b : Reg) (imm : BitVec 14) (s : State) : Out := branchOp (gGet a s != gGet b s) imm s
def execBlt (a b : Reg) (imm : BitVec 14) (s : State) : Out := branchOp ((gGet a s).slt (gGet b s)) imm s
def execBge (a b : Reg) (imm : BitVec 14) (s : State) : Out := branchOp (!(gGet a s).slt (gGet b s)) imm s
def execBltu (a b : Reg) (imm : BitVec 14) (s : State) : Out := branchOp ((gGet a s).ult (gGet b s)) imm s
def execBgeu (a b : Reg) (imm : BitVec 14) (s : State) : Out := branchOp (!(gGet a s).ult (gGet b s)) imm s

/-- Set bits of a mask over k < RC, e < VL, and the elements counted (R337). -/
def maskCount (x : Hart) (m rc vl : Nat) : Nat :=
  (List.range rc).foldl (fun c k => c + popcount vl ((mRow x m k).toNat % 2 ^ vl)) 0

/-- V, K, B and G of R216. -/
def maskStreams : Nat := 0x72

/-- BANY, BALL and BNONE (R213, R337): after the vector queue, the condition on the set and counted elements. -/
def maskBranch (cond : Nat → Nat → Bool) (m : Idx3) (imm : BitVec 14) (s : State) : Out :=
  .next (sync maskStreams (fun s =>
    let x := me s
    let set := maskCount x m.toNat x.rc x.vl
    if cond set (x.rc * x.vl) then goto (x.pc + imm.signExtend 64 * 4) s else retire 4 s) s)

def execBany (m : Idx3) (imm : BitVec 14) (s : State) : Out := maskBranch (fun set _ => decide (0 < set)) m imm s
def execBall (m : Idx3) (imm : BitVec 14) (s : State) : Out := maskBranch (fun set n => set == n) m imm s
def execBnone (m : Idx3) (imm : BitVec 14) (s : State) : Out := maskBranch (fun set _ => set == 0) m imm s

def execJmp (imm : BitVec 19) (s : State) : Out := .next (goto ((me s).pc + imm.signExtend 64 * 4) s)

def execCall (d : Reg) (imm : BitVec 19) (s : State) : Out :=
  .next (goto ((me s).pc + imm.signExtend 64 * 4) (setG d ((me s).pc + 4) s))

/-- A computed jump with the link of `n` bytes (R338, R417): a target that is not 4-byte aligned raises MISALIGN. -/
def jumpTo (t : Word) (n : Word) (d : Reg) (s : State) : State :=
  if t.toNat % 4 ≠ 0 then preciseTrap (misalignFlt t.toNat 2 false false) s
  else goto t (setG d ((me s).pc + n) s)

def execJr (d a : Reg) (imm : BitVec 14) (s : State) : Out :=
  .next (jumpTo (gGet a s + imm.signExtend 64) 4 d s)

/-! ## Ordering (R163, R168, R339, R340) -/

/-- FENCE waits for every stream. In this model every earlier access is then complete at every scope, and no cache
holds a stale line but the lee cache, which a FENCE leaves (R184). The fetch unit holds no line any more (R299). -/
def execFence (scope : BitVec 3) (acq rel : Bool) (s : State) : Out :=
  .next (sync allStreams (fun s =>
    retire 4 (clampScope (if acq && rel then 0 else scope.toNat) (modMe (fun x => { x with ibuf := [] }) s))) s)

def execSbar (streams : BitVec 8) (s : State) : Out := .next (sync streams.toNat (retire 4) s)

/-! ## CSR access (R232, R341) -/

/-- Rights at a privilege: 0 PRIV, 1 read only, 2 read and write. -/
def csrRight (n : Nat) (handler : Bool) : Nat :=
  if n = 0x040 then 2
  else if n = 0x055 ∨ n = 0x056 then (if handler then 2 else 0)
  else if (0x050 ≤ n ∧ n ≤ 0x057) ∨ n = 0x071 then (if handler then 1 else 0)
  else 1

/-- Accesses to FFLAGS synchronise, and reads of TAGERR and VSTART (R216). -/
def csrSyncs (n : Nat) : Bool := n == 0x040 || n == 0x031 || n == 0x012

/-- An access to a listed CSR: rights first, then the wait, then the effect of `k`. -/
def csrAccess (n : Nat) (writes reads : Bool) (k : State → State) (s : State) : State :=
  if !csrListed n then illegal 1 s
  else
    let r := csrRight n (me s).handler
    if r = 0 then privTrap s
    else if writes && r == 1 then illegal 1 s
    else if n == 0x040 || (reads && csrSyncs n) then sync allStreams k s
    else k s

def csrRead (n : Nat) (s : State) : Word := BitVec.ofNat 64 (csrVal s s.cur n (me s).handler)

def execCsrr (d : Reg) (csr : BitVec 14) (s : State) : Out :=
  .next (csrAccess csr.toNat false true (fun s => retire 4 (setG d (csrRead csr.toNat s) s)) s)

def execCsrw (a : Reg) (csr : BitVec 14) (s : State) : Out :=
  .next (csrAccess csr.toNat true false (fun s => retire 4 (modMe (csrPut csr.toNat (gGet a s)) s)) s)

def execCsrs (d a : Reg) (csr : BitVec 14) (s : State) : Out :=
  let m := gGet a s
  .next (csrAccess csr.toNat (m != 0) true (fun s =>
    let old := csrRead csr.toNat s
    retire 4 (setG d old (if m = 0 then s else modMe (csrPut csr.toNat (old ||| m)) s))) s)

def execCsrc (d a : Reg) (csr : BitVec 14) (s : State) : Out :=
  let m := gGet a s
  .next (csrAccess csr.toNat (m != 0) true (fun s =>
    let old := csrRead csr.toNat s
    retire 4 (setG d old (if m = 0 then s else modMe (csrPut csr.toNat (old &&& ~~~m)) s))) s)

/-! ## Calls to the handler and the end of a hart (R342 to R345) -/

/-- TRAP and BREAK are performed: TRAPPC is the next parcel (R342). -/
def execTrap (code : BitVec 14) (s : State) : Out :=
  .next (sync allStreams (fun s => preciseAt (mkFlt cCalltrap 0 code.toNat) ((me s).pc + 4) 0 s) s)

def execBrk (code : BitVec 14) (s : State) : Out :=
  .next (sync allStreams (fun s => preciseAt (mkFlt cBreak 0 code.toNat) ((me s).pc + 4) 0 s) s)

def execEret (s : State) : Out :=
  .next (if !(me s).handler then privTrap s else sync allStreams returnFromTrap s)

/-- WFE parks the hart; its turn comes again after the park (R344). -/
def execWfe (s : State) : Out := .next (modMe (fun x => { x with run := .parked }) (retire 4 s))

/-- WFE_TIMEOUT: the park ends. -/
def execWfeTimeout (h : Nat) (s : State) : Out := .next (wake h s)

/-- HALT at handler privilege discards the stopped work of the frame (R345). -/
def discardStopped (s : State) : State :=
  let x := me s
  if !x.handler then s
  else modMe (fun x => { x with stoppedV := [], stoppedM := [], stoppedC := [], frameC := [], stoppedCap := none })
    (discardCmds (coreNo s.cur) (savedCmds s.cur x) s)

def execHalt (s : State) : Out :=
  .next (if !(me s).r.chains.isEmpty then illegal 6 s
    else sync allStreams (fun s =>
      modMe (fun x => { x with run := .halted, pin := none, ibuf := [], pc := x.pc + 4, stalled := 0, stallS := none })
        (endWork s.cur (discardStopped s))) s)

/-! ## Control parcels and the events of stalls -/

def execNop32 (s : State) : Out := .next (retire 4 s)

/-- IMPRECISE_TRAP_DELIVERY: the pending trap is delivered with TRAPPC the first parcel not performed (R226). -/
def execImpreciseTrapDelivery (h : Nat) (s : State) : Out := .next (deliver h (hartOf s h).pc s)

/-- QUEUEHANG (R210): precisely at the stalled scalar instruction, or imprecisely for the stalled head of a queue. -/
def execQueuehang (h : Nat) (s : State) : Out :=
  let x := hartOf s h
  match x.stallS with
  | some f => .next (if x.pend.isSome then deliver h x.pc s else enterTrap h f false x.pc 0 0 0 noStream s)
  | none => match x.stallV, x.stallM with
    | some p, _ => .next (setPend h p s)
    | none, some p => .next (setPend h p s)
    | none, none => .next s

end Sys2Proof.Machine
end

