-- ==== Sys2Proof/Machine/Fetch.lean ====
section
/-! DEFINITION. Fetching an instruction's bytes through the hart's pin (R49, R63), and decoding them (R297, R298, R307). -/

namespace Sys2Proof.Machine

/-- The place that a pin gives an address of the current hart, when the address lies in its page: that of the walk's leaf, by
the window map as it stands (R63, R82). -/
def pinLoc (s : State) (p : Nat × Nat × Nat) (va : Nat) : Option Loc :=
  let lvl := p.2.2 / 8 % 8
  let size := pageSize lvl
  if va / size = p.1 then some (locOf s (myWho s) (p.2.2 % 8 * 16) lvl (p.2.1 * 65536 + va % size)) else none

/-- The pin that a translation leaves. -/
def pinOf (l : Loc) (va : Nat) : Nat × Nat × Nat :=
  (va / pageSize l.lvl, leafFrame l.leaf, 64 * b2n (l.leaf.testBit 3) + 8 * l.lvl + l.target)

/-- Where the current hart fetches an address: through its pin, or by a walk that moves the pin. A pinned page without U
denies a fetch at user privilege as the walk would (R49, R53). -/
def fetchLoc (va : Nat) (s : State) : MR Loc :=
  let walk := mbind (translate (myWho s) va .fetch s) fun l s =>
    .ok l (modMe (fun x => { x with pin := some (pinOf l va) }) s)
  match (me s).pin with
  | some p => match pinLoc s p va with
    | some l => if (me s).handler || decide (64 ≤ p.2.2) then .ok l s else .bad (pageFlt (myWho s) va .fetch 4 l.lvl) s
    | none => walk
  | none => walk

/-- The bytes that a fetch takes from its line: those that the fetch unit has held since the hart's last FENCE, or memory's,
whose whole line it then holds (R299; log 88). -/
def fromLine (l : Loc) (bs : List Byte) (s : State) : MR Nat :=
  let n := l.global / 256
  if isMmio l.a then .ok (ofBytes bs) s
  else match cget [] n (me s).ibuf with
    | [] => .ok (ofBytes bs) (modMe (fun x => { x with ibuf := cset [] n (memBytes s (256 * n) 256) x.ibuf }) s)
    | line => .ok (ofBytes ((line.drop (l.global % 256)).take 4)) s

/-- The parcel at an address; every fetch is checked at its target (R28). -/
def fetchParcel (va : Nat) (s : State) : MR Nat :=
  mbind (fetchLoc va s) fun l s => mbind (readAt (myWho s) va l .fetch 4 s) fun bs s => fromLine l bs s

/-- The words of the instruction at an address: a parcel, or a long instruction's two. -/
def fetchCode (va : Nat) (s : State) : MR Code :=
  mbind (fetchParcel va s) fun w s =>
    let p : BitVec 32 := BitVec.ofNat 32 w
    if isLongParcel p then
      mbind (fetchParcel (wrapTo 64 (va + 4)) s) fun w2 s => .ok (.long (BitVec.ofNat 64 (w + w2 * 2 ^ 32))) s
    else .ok (.parcel p) s

def decodeCode : Code → Except DecErr Instr
  | .parcel w => decodeParcel w
  | .long w => decodeLong w

end Sys2Proof.Machine
end

