-- ==== Sys2Proof/Machine/Ring.lean ====
section
/-! DEFINITION. The stream register file and its rings (R84, R109 to R111, R408 to R412). -/

namespace Sys2Proof.Machine

/-- Local address of an SRF offset of a core (R78). -/
def srfAddr (core off : Nat) : Nat := 0x80000000000 + 0x400000 * core + off

/-- The limit of SRF offsets (R84). -/
def srfLimit (s : State) (core : Nat) : Nat := pwSrfu (coreOf s core).pword * 65536

def srfRead (s : State) (core off n : Nat) : List Byte := memBytes s (glob s (srfAddr core off)) n
def srfWrite (core off : Nat) (bs : List Byte) (s : State) : State := setMem (glob s (srfAddr core off)) bs s

/-- A ring header (R109). -/
structure RingHdr where
  base : Nat
  slotb : Nat
  slots : Nat
  head : Nat
  tail : Nat
  eos : Bool
  reserved : Bool
  deriving DecidableEq, Repr

def ringHdr (s : State) (core off : Nat) : RingHdr :=
  let x := ofBytes (srfRead s core off 64)
  { base := bitsOf x 0 32, slots := bitsOf x 32 16, slotb := bitsOf x 48 16, head := bitsOf x 64 32,
    tail := bitsOf x 96 32, eos := x.testBit 128, reserved := decide (x / 2 ^ 129 ≠ 0) }

/-- Slots in the ring, modulo 2^32. -/
def RingHdr.fill (r : RingHdr) : Nat := (r.tail + 2 ^ 32 - r.head) % 2 ^ 32
def RingHdr.size (r : RingHdr) : Nat := 64 * r.slotb

def powersOfTwo : List Nat := (List.range 15).map (fun i => 2 ^ (i + 1))

/-- Bytes of the stream register file hold uncorrectable data (R39, R233). -/
def srfPoison (s : State) (core off n : Nat) : Bool := (firstPoison s (glob s (srfAddr core off)) n).isSome

/-- The answer of a ring check that meets uncorrectable data: no reason of R106, it stands for ECC. -/
def ringPoison : Nat := 0x100

/-- The check that every ring access makes (R408): 0 valid, 1 breaks R84, 5 invalid, or the header is unreadable. -/
def ringCheck (s : State) (core off : Nat) : Nat :=
  if srfLimit s core ≤ off then 1
  else if off % 64 ≠ 0 then 5
  else if srfPoison s core off 64 then ringPoison
  else
    let r := ringHdr s core off
    if r.base % 64 ≠ 0 ∨ r.slotb = 0 ∨ 1024 < r.slotb ∨ !powersOfTwo.contains r.slots ∨ r.reserved ∨ r.slots < r.fill then 5
    else 0

/-- SRF offset of slot i. -/
def slotOff (r : RingHdr) (i : Nat) : Nat := r.base + r.size * (i % r.slots)

inductive RingRes where
  | ok (bs : List Byte) (s : State)
  /-- a push to a full ring, or a pull from an empty one without EOS: a stall -/
  | stall
  /-- RINGEOS -/
  | eos
  /-- STREAM with a reason, or ECC -/
  | bad (reason : Nat)
  deriving Repr

/-- A push writes its slot and then advances TAIL (R410). -/
def ringPush (core off : Nat) (bs : List Byte) (s : State) : RingRes :=
  let c := ringCheck s core off
  let r := ringHdr s core off
  if c ≠ 0 then .bad c
  else if srfLimit s core < slotOff r r.tail + r.size then .bad 1
  else if r.eos then .eos
  else if r.fill = r.slots then .stall
  else
    let s := srfWrite core (slotOff r r.tail) bs s
    .ok [] (srfWrite core (off + 0x0C) (toBytes 4 ((r.tail + 1) % 2 ^ 32)) s)

/-- A pull reads its slot and then advances HEAD (R410, R111). -/
def ringPull (core off : Nat) (s : State) : RingRes :=
  let c := ringCheck s core off
  let r := ringHdr s core off
  if c ≠ 0 then .bad c
  else if srfLimit s core < slotOff r r.head + r.size then .bad 1
  else if r.fill = 0 then (if r.eos then .eos else .stall)
  else if srfPoison s core (slotOff r r.head) r.size then .bad ringPoison
  else .ok (srfRead s core (slotOff r r.head) r.size) (srfWrite core (off + 8) (toBytes 4 ((r.head + 1) % 2 ^ 32)) s)

/-- STREAM (R84, R106, R408). -/
def streamFlt (reason : Nat) : Flt := mkFlt cStream 0 reason

/-- ECC for bytes of the stream register file. They have no virtual address, and the spec gives TRAPADDR no other value: the
model sets 0 (the model's choice, log 89). -/
def srfEcc (stream : Nat) : Flt := mkFlt cEcc 0 (4 + 16 * stream)

/-- The fault of a ring access that fails its check. -/
def ringFlt (stream reason : Nat) : Flt := if reason = ringPoison then srfEcc stream else streamFlt reason

/-- RINGEOS (R412). -/
def eosFlt (off reason : Nat) : Flt := mkFlt cRingeos off reason

end Sys2Proof.Machine
end

