-- ==== Sys2Proof/Machine/VecBase.lean ====
section
/-! DEFINITION. Sources of vector instructions, bound registers among them (R105 to R108), and the element loop of
R303 with its stops (R57, R222). -/

namespace Sys2Proof.Machine

/-- What a consuming instruction takes an element as (R107). -/
inductive Opd where
  /-- a float format code, rounding and saturation -/
  | flt (code rm : Nat) (sat : Bool)
  /-- an integer of w bits, with the rounding -/
  | int (uns : Bool) (rm w : Nat)
  /-- w bits of no type -/
  | raw (w : Nat)
  deriving DecidableEq, Repr

def Opd.bits : Opd → Nat
  | .flt c _ _ => bitsFmt c
  | .int _ _ w => w
  | .raw w => w

/-- The stored value of a bound element delivered as the operand (R107). Where the spec states no conversion (an
untyped operand whose width is not the stored one), the value is free. -/
def boundValue (s : State) (o : Opd) (fmt q : Nat) (group : Option (Val × Int)) : Nat × Fl :=
  let v : Val × Fl := match group with
    | some (sc, zp) => mulV (ofInt (asInt false (bitsFmt fmt) q - zp)) sc
    | none => (decodeFmt fmt q, sigFl (decodeFmt fmt q))
  match o with
  | .flt c rm sat =>
    let r := encodeFmt c rm sat v.1
    (r.1, r.2 ||| v.2)
  | .int uns rm w =>
    let (z, fl) := toIntV rm (intLo uns w) (intHi uns w) v.1
    (wrapTo w z, fl ||| v.2)
  | .raw w => if w = bitsFmt fmt ∧ group.isNone then (q, 0) else ((Config.freeWord s.fresh).toNat % 2 ^ w, 0)

/-- Fields of a binding's control word (R105). -/
def Binding.fmt (b : Binding) : Nat := bitsOf b.ctl.toNat 0 4
def Binding.grp (b : Binding) : Nat := bitsOf b.ctl.toNat 4 2
def Binding.ring (b : Binding) : Bool := b.ctl.getLsbD 6
def Binding.eosa (b : Binding) : Bool := b.ctl.getLsbD 7
def Binding.strip (b : Binding) : Nat := bitsOf b.ctl.toNat 32 16
def Binding.estride (b : Binding) : Int := signed 16 (bitsOf b.ctl.toNat 16 16)
def Binding.rowstride (b : Binding) : Int := signed 16 (bitsOf b.ctl.toNat 48 16)
def Binding.groupSize (b : Binding) : Nat := 16 * 2 ^ b.grp

/-- The element offset x of R107 for read `b.reads`, row k, element e. -/
def boundX (b : Binding) (k e : Nat) : Int :=
  (b.reads : Int) * b.strip * b.estride + e * b.estride + k * (b.rowstride * 512 / (bitsFmt b.fmt : Nat))

/-- One stored element of a stream: virtual, or in the stream register file, where ECC has no address (log 89). -/
def streamElem (w : Who) (core : Nat) (srf : Bool) (base : Word) (bits : Nat) (x : Int) (s : State) : MR Nat :=
  let n := (bits + 7) / 8
  let byte : Int := base.toNat + x * bits / 8
  let a := wrapTo 64 byte
  let pick (bs : List Byte) : Nat := ofBytes bs / (if bits = 4 ∧ x % 2 = 1 then 16 else 1) % 2 ^ bits
  if srf then
    if srfLimit s core < a + n then .bad (streamFlt 1) s
    else if srfPoison s core a n then .bad (srfEcc w.stream) s
    else .ok (pick (srfRead s core a n)) s
  else mbind (vaRead w a n s) fun bs s => .ok (pick bs) s

/-- Keep a changed binding. -/
def setBinding (slot : Nat) (b : Binding) (s : State) : State :=
  modMe (fun x => { x with r := { x.r with
    binds := x.r.binds.map (fun p => if p.1 = slot then (slot, b) else p) } }) s

/-- A ring source: the slot that holds byte offset `o` of the stream is pulled when it is the next one (log 12).
none when the ring has ended (EOS). -/
def ringByte (core slot : Nat) (b : Binding) (need : Nat) : Nat → State → MR (Option Binding)
  | 0, s => .ok (some b) s
  | fuel + 1, s =>
    if need < b.pulled then .ok (some b) s
    else match ringPull core b.src.toNat s with
      | .ok bs s =>
        let b' := { b with pulled := b.pulled + 1, buf := bs :: b.buf }
        ringByte core slot b' need fuel (setBinding slot b' s)
      | .stall => .wait s
      | .eos => if b.eosa then .ok none s else .bad (eosFlt b.src.toNat 2) s
      | .bad r => .bad (ringFlt 5 r) s

/-- The bytes of slot `i` of a ring source, while the binding holds them: those of the slots that the current read has pulled,
and of the one at which the read before it ended. -/
def Binding.slotBytes (b : Binding) (i : Nat) : Option (List Byte) := if i < b.pulled then b.buf[b.pulled - 1 - i]? else none

/-- A stored element of a ring source. A read before the stream's first element (a negative offset) and one of a slot that the
binding holds no longer deliver a free value: R107's offset from SRC names no bytes of a ring there (the model's choice,
log 12). -/
def ringElem (core slot : Nat) (b : Binding) (x : Int) (s : State) : MR (Option Nat) :=
  let bits := bitsFmt b.fmt
  let size := (ringHdr s core b.src.toNat).size
  let o := (x * bits / 8).toNat
  if x < 0 ∨ size = 0 then .ok (some (Config.freeWord s.fresh).toNat) (bump s)
  else
    mbind (ringByte core slot b (o / size) (o / size + 1 - b.pulled + 1) s) fun b' s =>
      match b' with
      | none => .ok none s
      | some b' =>
        match b'.slotBytes (o / size) with
        | some bs =>
          let n := (bits + 7) / 8
          .ok (some (ofBytes ((bs.drop (o % size)).take n) / (if bits = 4 ∧ x % 2 = 1 then 16 else 1) % 2 ^ bits)) s
        | none => .ok (some (Config.freeWord s.fresh).toNat) (bump s)

/-- Element (k, e) of the current read of a bound register (R107). Each of its streams holds the translation of the page
it has entered (R54). -/
def boundElem (c : LCtx) (slot : Nat) (b : Binding) (o : Opd) (k e : Nat) (s : State) : MR (Nat × Fl) :=
  if b.strip ≤ e then .ok (0, 0) s
  else
    let core := coreNo s.cur
    let w (role : Nat) : Who := { hartWho s s.cur 5 c.handler with nest := c.inNest, hold := 8 + 4 * slot + role }
    let x := boundX b k e
    let raw : MR (Option Nat) :=
      if b.ring then ringElem core slot b x s
      else mbind (streamElem (w 0) core (b.ctl.getLsbD 8) b.src (bitsFmt b.fmt) x s) fun q s => .ok (some q) s
    mbind raw fun q s =>
      match q with
      | none => .ok (0, 0) s
      | some q =>
        if b.grp = 0 then .ok (boundValue s o b.fmt q none) (bump s)
        else
          let g := x / (b.groupSize : Nat)
          mbind (streamElem (w 1) core (b.ctl.getLsbD 9) b.scale 16 g s) fun sc s =>
            if b.fmt = 13 then .ok (boundValue s o b.fmt q (some (decodeF fp16 sc, 0))) (bump s)
            else
              let zb := if b.fmt = 9 then 8 else 4
              mbind (streamElem (w 2) core (b.ctl.getLsbD 10) b.zp zb g s) fun z s =>
                .ok (boundValue s o b.fmt q (some (decodeF fp16 sc, signed zb z))) (bump s)

/-- Element (k, e) of a source register as the operand `o` at its width. -/
def srcElem (c : LCtx) (v : Reg) (o : Opd) (k e : Nat) (s : State) : MR (Nat × Fl) :=
  match bindingOf (me s) v.toNat with
  | some (slot, b) => boundElem c slot b o k e s
  | none => .ok (vElem (me s) v.toNat k e o.bits, 0) s

/-- One read of each bound register among the sources is complete (R107): of a ring, the binding holds on to the last slot. -/
def consume (srcs : List Reg) (s : State) : State :=
  modMe (fun x => { x with r := { x.r with
    binds := x.r.binds.map (fun p =>
      if srcs.any (fun v => v.toNat == p.2.reg) then (p.1, { p.2 with reads := p.2.reads + 1, buf := p.2.buf.take 1 }) else p) } }) s

/-- The stall of a bound source on an empty ring (R110, R233). -/
def bindHang (e : QEntry) (srcs : List Reg) (elem : Nat) (s : State) : Option PendTrap :=
  match (me s).r.binds.find? (fun p => p.2.ring && srcs.any (fun v => v.toNat == p.2.reg)) with
  | some p => some { flt := mkFlt cQueuehang p.2.src.toNat (3 + 256 * 5), lpc := e.ctx.pc, elem := elem, stream := 5,
                     fs := { noStream with fstream := 5 } }
  | none => none

/-- The party of a long instruction's accesses on stream V. -/
def vWho (c : LCtx) (s : State) : Who := { hartWho s s.cur 1 c.handler with nest := c.inNest }

/-- The fields of R436 that a replay gives a stream (log 15): its instruction makes `total` accesses in one iteration of the
nest's innermost dimension, whose remaining count `nest` holds; consecutive iterations lie `unit` bytes apart. -/
def nestFs (c : LCtx) (total : Nat) (unit : Int) (fs : FaultStream) : FaultStream :=
  match c.inNest, c.nest with
  | true, n :: _ =>
    { fs with fkind := 3, fstride := if total ≤ 1 ∧ fs.fkind ≠ 2 then unit else fs.fstride,
              fremain := (bitsOf n.toNat 0 32 - 1) * total + fs.fremain }
  | _, _ => fs

/-- The stride of the nest's innermost dimension. -/
def nestUnit (c : LCtx) : Int :=
  match c.nest with
  | n :: _ => signed 48 (bitsOf n.toNat 48 48)
  | [] => 0

/-- The fields of R436 for an element access of width 2^log. -/
def nestStream (stream : Nat) (c : LCtx) (log fkind : Nat) (stride : Int) (remain : Nat) (ix : Nat) : FaultStream :=
  if c.inNest then
    nestFs c (tileSize c) (nestUnit c) (mkStream stream log fkind stride (tileSize c - ix) false)
  else mkStream stream log fkind stride remain false

/-- A list without repetitions of its neighbours. -/
def dedupRuns : List Int → List Int
  | [] => []
  | [x] => [x]
  | x :: y :: r => if x = y then dedupRuns (y :: r) else x :: dedupRuns (y :: r)

/-- The elements of a list that a bound register reads from its stream (R107). -/
def Binding.readsOf (b : Binding) (l : List (Nat × Nat)) : List (Nat × Nat) := l.filter (fun p => decide (p.2 < b.strip))

/-- The groups of a list of elements, in the order of their reads. -/
def Binding.groupsOf (b : Binding) (l : List (Nat × Nat)) : List Int :=
  dedupRuns (l.map (fun p => boundX b p.1 p.2 / (b.groupSize : Nat)))

/-- The stream of a group's scales or zero points: its elements are the groups that are still to be read. -/
def groupStream (c : LCtx) (b : Binding) (bits : Nat) (all left : List (Nat × Nat)) : FaultStream :=
  let gs := b.groupsOf left
  let size := (bits + 7) / 8
  let stride : Int := match gs with
    | x :: y :: _ => y * bits / 8 - x * bits / 8
    | _ => (size : Int)
  nestFs c (b.groupsOf all).length stride (mkStream 5 (Nat.log2 size) (if stride = size then 0 else 1) stride gs.length false)

/-- The stream of a bound register that reads a virtual address, if one does: its elements, its scales or its zero points.
`all` are the elements that the instruction reads, `left` those from the faulting one's row or group on; FREMAIN counts
from the first that reads the address. The stride of 4-bit elements, which is half a byte, is given as one byte an
element: R436 counts bytes and says nothing of half ones (the model's choice, log 15). -/
def boundHit (c : LCtx) (b : Binding) (all left : List (Nat × Nat)) (addr : Nat) : Option FaultStream :=
  let misses (base : Word) (bits : Nat) (y : Int) : Bool :=
    let a := wrapTo 64 (base.toNat + y * bits / 8)
    !decide (a ≤ addr ∧ addr < a + (bits + 7) / 8)
  let all := b.readsOf all
  let from' (base : Word) (bits : Nat) (y : Int → Int) : List (Nat × Nat) :=
    (b.readsOf left).dropWhile (fun p => misses base bits (y (boundX b p.1 p.2)))
  let group (x : Int) : Int := x / (b.groupSize : Nat)
  let bits := bitsFmt b.fmt
  let w := (bits + 7) / 8
  let zb := if b.fmt = 9 then 8 else 4
  let own := if b.ctl.getLsbD 8 then [] else from' b.src bits id
  let sc := if b.grp = 0 ∨ b.ctl.getLsbD 9 then [] else from' b.scale 16 group
  let zp := if b.grp = 0 ∨ b.fmt = 13 ∨ b.ctl.getLsbD 10 then [] else from' b.zp zb group
  if !own.isEmpty then
    some (nestFs c all.length (b.strip * b.estride * w)
      (mkStream 5 (Nat.log2 w) (if b.estride = 1 then 0 else 1) (b.estride * w) own.length false))
  else if !sc.isEmpty then some (groupStream c b 16 all sc)
  else if !zp.isEmpty then some (groupStream c b zb all zp)
  else none

/-- The frame fields of a bound stream's fault (R436): of the bound source that reads the faulting address. -/
def bindStream (s : State) (srcs : List Reg) (c : LCtx) (all left : List (Nat × Nat)) (f : Flt) : FaultStream :=
  let bound := srcs.filterMap (fun v => (bindingOf (me s) v.toNat).map (fun p => p.2))
  match bound.findSome? (fun b => boundHit c b all left f.addr.toNat) with
  | some fs => fs
  | none => { noStream with fstream := if bound.isEmpty then 1 else 5 }

/-! ## Element loops (R303, R205, R217) -/

/-- The elements of a list from sweep index `ix` on. -/
def fromIx (c : LCtx) (ix : Nat) (l : List (Nat × Nat)) : List (Nat × Nat) := l.filter (fun p => decide (ix ≤ sweepIx c p.1 p.2))

/-- What the binding in progress performs of a list of elements, and what it leaves: everything; the rest of the row in which
the first element from `vstart` on lies (R205); or what lies below a convoy's boundary (R217). -/
def due (c : LCtx) (vstart : Nat) (l : List (Nat × Nat)) : List (Nat × Nat) × List (Nat × Nat) :=
  if c.upto ≠ 0 then l.span (fun p => decide (sweepIx c p.1 p.2 < c.upto))
  else if c.byRow then
    match l.find? (fun p => decide (vstart ≤ sweepIx c p.1 p.2)) with
    | some q => l.span (fun p => decide (p.1 ≤ q.1))
    | none => (l, [])
  else (l, [])

/-- An instruction that has performed what the binding in progress was for: its bounds are gone. -/
def QEntry.yielded (e : QEntry) : QEntry := { e with ctx := { e.ctx with upto := 0, byRow := false } }

/-- The end of a binding: complete when nothing is left, else the instruction goes on with the first element left. -/
def endBind (e : QEntry) (later : List (Nat × Nat)) (fin : State → LRes) (s : State) : LRes :=
  match later with
  | [] => fin s
  | p :: _ => .block { e.yielded with vstart := max e.vstart (sweepIx e.ctx p.1 p.2) } none s

/-- `body` on each element not yet performed, in order. `fs` gives the frame fields of a fault; a stall leaves the rest for
later. -/
def elemRun (e : QEntry) (body : Nat → Nat → State → MR Unit) (fs : State → Nat → Nat → Flt → FaultStream)
    (hang : State → Nat → Option PendTrap) (fin : State → LRes) : List (Nat × Nat) → State → LRes
  | [], s => fin s
  | (k, i) :: rest, s =>
    let ix := sweepIx e.ctx k i
    if ix < e.vstart then elemRun e body fs hang fin rest s
    else match body k i s with
      | .ok _ s => elemRun e body fs hang fin rest s
      | .bad f s => stopAt e ix f (fs s k i f) s
      | .wait s => .block { e with vstart := ix } (hang s ix) s

/-- The element loop of R303, as far as the binding in progress goes. -/
def elemLoop (e : QEntry) (body : Nat → Nat → State → MR Unit) (fs : State → Nat → Nat → Flt → FaultStream)
    (hang : State → Nat → Option PendTrap) (l : List (Nat × Nat)) (s : State) : LRes :=
  let d := due e.ctx e.vstart l
  elemRun e body fs hang (endBind e d.2 .done) d.1 s

/-- What follows a completed instruction. -/
def whenDone (r : LRes) (k : State → State) : LRes :=
  match r with
  | .done s => .done (k s)
  | r => r

/-- An element-wise instruction over registers: `body` reads its sources and writes its element. -/
def sweepRegs (e : QEntry) (row : Option (BitVec 3)) (srcs : List Reg) (body : Nat → Nat → State → MR Unit) (s : State) :
    LRes :=
  let l := tileOf e.ctx (rowsOf e.ctx row)
  whenDone
    (elemLoop e body (fun s k i f => bindStream s srcs e.ctx l (fromIx e.ctx (sweepIx e.ctx k i) l) f)
      (fun s ix => bindHang e srcs ix s) l s)
    (consume srcs)

/-- Write an element and raise its flags, when it is active. -/
def putIf (act : Bool) (v : Reg) (k i w : Nat) (r : Nat × Fl) (s : State) : State :=
  if act then addFl r.2 (setVElem v.toNat k i w r.1 s) else s

/-- The reads that a stopped non-element-wise instruction keeps (R349). -/
def packReads (xs : List (Nat × Fl)) : List Nat := xs.flatMap (fun p => [p.1, p.2.toNat])

def unpackReads : List Nat → List (Nat × Fl)
  | x :: f :: r => (x, BitVec.ofNat 7 f) :: unpackReads r
  | _ => []

/-- A stopped or stalled run keeps what it has read. -/
def keepReads (xs : List (Nat × Fl)) : LRes → LRes
  | .done s => .done s
  | .block e why s => .block { e with kept := packReads xs } why s
  | .fault e p s => .fault { e with kept := packReads xs } p s

/-- Elements of a source are read in order, then `fin` has the reads. A fault names its element, and the reads made are kept.
`acc` holds them, last first; `all` are the elements that the instruction reads. -/
def gatherElems (e : QEntry) (v : Reg) (o : Opd) (all : List (Nat × Nat)) (fin : List (Nat × Fl) → State → LRes) :
    List (Nat × Nat) → List (Nat × Fl) → State → LRes
  | [], acc, s => fin acc.reverse s
  | (k, i) :: r, acc, s =>
    match srcElem e.ctx v o k i s with
    | .ok x s => gatherElems e v o all fin r (x :: acc) s
    | .bad f s =>
      let fs := bindStream s [v] e.ctx all ((k, i) :: r) f
      .fault { e with kept := packReads acc.reverse }
        { flt := f, lpc := e.ctx.pc, elem := sweepIx e.ctx k i, stream := fs.fstream, fs := streamFor f fs } s
    | .wait s => .block { e with kept := packReads acc.reverse } (bindHang e [v] (sweepIx e.ctx k i) s) s

/-- A non-element-wise instruction (R349): the reads `fin` needs at the places `at'`, those kept by an earlier run first, as far
as the binding in progress goes. It is performed again from element 0 with the reads that it keeps. -/
def readThen (e : QEntry) (v : Reg) (o : Opd) (at' : List (Nat × Nat)) (fin : List (Nat × Fl) → State → LRes) (s : State) :
    LRes :=
  let xs := unpackReads e.kept
  let d := due e.ctx 0 (at'.drop xs.length)
  gatherElems e v o at' (fun xs s =>
    if d.2.isEmpty then keepReads xs (whenDone (fin xs s) (consume [v])) else .block { e.yielded with kept := packReads xs } none s)
    d.1 xs.reverse s

/-- The whole tile of a source. -/
def wholeOf (e : QEntry) (v : Reg) (o : Opd) (fin : List (Nat × Fl) → State → LRes) (s : State) : LRes :=
  readThen e v o (tileOf e.ctx (List.range e.ctx.rc)) fin s

end Sys2Proof.Machine
end

