-- ==== Sys2Proof/Machine/VecSetup.lean ====
section
/-! DEFINITION. Length, rows and lanes (R201, R207, R351, R352), performed by the scalar unit. -/

namespace Sys2Proof.Machine

/-- VSETL (R201): the grant, then VL. -/
def execVsetl (ew : BitVec 2) (d a : Reg) (s : State) : Out :=
  .next (scalarLong (fun s =>
    let vg := grantOf s (me s).lset
    let vl := min (gGet a s).toNat (vg * 256 / ewBytes ew)
    retire 8 (setGNat d vl (modMe (fun x => { x with vgrant := vg, vl := vl }) s))) s)

/-- VSETR (R201). -/
def execVsetr (d a : Reg) (s : State) : Out :=
  .next (scalarLong (fun s =>
    let rc := min (max (gGet a s).toNat 1) (pwRcmax (coreOf s (coreNo s.cur)).pword + 1)
    retire 8 (setGNat d rc (modMe (fun x => { x with rc := rc }) s))) s)

/-- The end of LANES, FORKL and JOINL: VL is 0 and the grant follows the lane set (R207). -/
def regrant (s : State) : State := modMe (fun x => { x with vl := 0, vgrant := grantOf s x.lset }) s

def execLanes (d a : Reg) (s : State) : Out :=
  .next (scalarLong (sync maskStreams (fun s =>
    let old := (me s).lset
    let m : BitVec 8 := BitVec.ofNat 8 (gGet a s).toNat
    retire 8 (setGNat d old.toNat (regrant (if m = 0 then s else modMe (fun x => { x with lset := m }) s))))) s)

/-- The groups FORKL passes on: the upper half of the set bits by group number (R352). -/
def upperGroups (lset : BitVec 8) : BitVec 8 :=
  let bits := (List.range 8).filter (fun i => lset.getLsbD i)
  let keep := bits.length - bits.length / 2
  BitVec.ofNat 8 ((bits.drop keep).foldl (fun x i => x + 2 ^ i) 0)

/-- A free hart (R207). -/
def isFree (x : Hart) : Bool := decide (x.run = .free) || (decide (x.run = .halted) && x.forkedBy.isNone)

/-- The lowest free hart of the core in the gang. -/
def freeHart (s : State) : Option Nat :=
  (List.range 8).findSome? (fun i =>
    let h := 8 * coreNo s.cur + i
    if h ≠ s.cur ∧ (gangOf s s.cur).contains h ∧ isFree (hartOf s h) then some h else none)

/-- The state of a forked hart (R352). -/
def forkState (parent : Nat) (p x : Hart) (lset : BitVec 8) (vg : Nat) (target : Word) : Hart :=
  { x with run := .running, pc := target, handler := false, lset := lset, vgrant := vg, vl := 0, rc := p.rc,
           r := { Regs.reset with g := p.r.g, n := p.r.n }, acc := [], tileen := 0,
           rowpred := BitVec.allOnes 128, colpred := BitVec.allOnes 128, klim := BitVec.allOnes 32, fflags := 0,
           t := { TrapCsrs.reset with vec := p.t.vec, frame := x.t.frame }, vq := [], mq := [], pend := none,
           capLeft := 0, body := [], pin := none, frameC := [], restored := false, stoppedV := [], stoppedM := [], stoppedC := [],
           revabt := none, stalled := 0, stallS := none, stallV := none, stalledV := 0, stallM := none, stalledM := 0,
           laneWait := 0, invWait := none, entry := none, arrived := false, forkedBy := some parent, convLeft := 0, snap := none,
           sbuf := [], ibuf := [], stoppedCap := none }

def execForkl (d : Reg) (off : BitVec 16) (s : State) : Out :=
  .next (scalarLong (sync maskStreams (fun s =>
    let x := me s
    let target := x.pc + off.signExtend 64 * 4
    match freeHart s with
    | some h =>
      if 2 ≤ popcount 8 x.lset.toNat then
        let up := upperGroups x.lset
        let s := setHart h (forkState s.cur x (hartOf s h) up (grantOf s up) target) s
        let s := modMe (fun x => { x with lset := x.lset &&& ~~~up }) s
        retire 8 (setGNat d (h % 8) (regrant s))
      else retire 8 (setGNat d allOnes64 (modMe (fun x => { x with vl := 0 }) s))
    | none => retire 8 (setGNat d allOnes64 (modMe (fun x => { x with vl := 0 }) s)))) s)

def execJoinl (a : Reg) (s : State) : Out :=
  .next (scalarLong (sync maskStreams (fun s =>
    let n := (gGet a s).toNat
    let h := 8 * coreNo s.cur + n
    if n < 8 ∧ (hartOf s h).forkedBy = some s.cur then
      if (hartOf s h).run = .halted then
        let l := (hartOf s h).lset
        let s := modHart h (fun x => { x with forkedBy := none }) s
        retire 8 (regrant (modMe (fun x => { x with lset := x.lset ||| l }) s))
      else s
    else retire 8 (modMe (fun x => { x with vl := 0 }) s))) s)

end Sys2Proof.Machine
end

