-- ==== Sys2Proof/Machine/VecMask.lean ====
section
/-! DEFINITION. Masks, compares and moves of elements (R353 to R356). -/

namespace Sys2Proof.Machine

/-! ## Typed operands (R346) -/

def tyCode : ElemTy → Nat
  | .f32 => 0
  | .bf16 => 1
  | .f16 => 2
  | .sint _ | .uint _ => 0

/-- A source element of a type, as a bound read delivers it. -/
def tyOpd (t : ElemTy) (rnd : BitVec 2) (sat : Bool) : Opd :=
  if t.isFloat then .flt (tyCode t) rnd.toNat sat else .int t.isUns rnd.toNat (tyBits t)

/-- The registers a second source reads. -/
def src2Regs : Src2 → List Reg
  | .v r => [r]
  | .g _ => []

/-- The second source: an element, or g(gb) in the element's type (R347). -/
def src2Elem (c : LCtx) (b : Src2) (o : Opd) (k i : Nat) (s : State) : MR (Nat × Fl) :=
  match b with
  | .v r => srcElem c r o k i s
  | .g r => .ok (cg c r % 2 ^ o.bits, 0) s

/-! ## Mask instructions (R353) -/

/-- A loop that writes bit (k, e) of mask md for the visited elements. -/
def maskSweep (row : Option (BitVec 3)) (md : Idx3) (bit : Hart → Nat → Nat → Bool) : Perform := fun e s =>
  let d := due e.ctx e.vstart (tileOf e.ctx (rowsOf e.ctx row))
  endBind e d.2 .done
    ((fromIx e.ctx e.vstart d.1).foldl (fun s p => setMBit md.toNat p.1 p.2 (bit (me s) p.1 p.2) s) s)

/-- Masks count one byte an element (R353). -/
def maskCheck (row : Option (BitVec 3)) : Check := { Check.none with width := 8, row := row }

def perfMsetAll (md : Idx3) (row : Option (BitVec 3)) : Perform := maskSweep row md (fun _ _ _ => true)
def perfMsetNone (md : Idx3) (row : Option (BitVec 3)) : Perform := maskSweep row md (fun _ _ _ => false)
def perfMsetLt (md : Idx3) (ga : Reg) (row : Option (BitVec 3)) : Perform := fun e s =>
  let n := cg e.ctx ga
  maskSweep row md (fun _ _ i => decide (i < n)) e s
def perfMsetNz (ew : BitVec 2) (md : Idx3) (va : Reg) (row : Option (BitVec 3)) : Perform := fun e s =>
  sweepRegs e row [va] (fun k i s =>
    mbind (srcElem e.ctx va (.raw (ewBits ew)) k i s) fun a s => .ok () (setMBit md.toNat k i (a.1 != 0) s)) s

/-- MLOGIC's eight operations by func (R353). -/
def mlogicOp (op : Nat) (a b : Bool) : Bool :=
  match op with
  | 0 => a && b
  | 1 => a || b
  | 2 => a != b
  | 3 => a && !b
  | 4 => a || !b
  | 5 => !(a && b)
  | 6 => !(a || b)
  | _ => a == b

def perfMlogic (op : BitVec 3) (md ma mb : Idx3) (row : Option (BitVec 3)) : Perform :=
  maskSweep row md (fun x k i => mlogicOp op.toNat (mBit x ma.toNat k i) (mBit x mb.toNat k i))

def execMsetAll (md : Idx3) (row : Option (BitVec 3)) (s : State) : Out :=
  .next (issueV (maskCheck row) (.msetAll md row) (perfMsetAll md row) s)
def execMsetNone (md : Idx3) (row : Option (BitVec 3)) (s : State) : Out :=
  .next (issueV (maskCheck row) (.msetNone md row) (perfMsetNone md row) s)
def execMsetLt (md : Idx3) (ga : Reg) (row : Option (BitVec 3)) (s : State) : Out :=
  .next (issueV (maskCheck row) (.msetLt md ga row) (perfMsetLt md ga row) s)
def execMsetNz (ew : BitVec 2) (md : Idx3) (va : Reg) (row : Option (BitVec 3)) (s : State) : Out :=
  .next (issueV { maskCheck row with width := ewBits ew } (.msetNz ew md va row) (perfMsetNz ew md va row) s)
def execMlogic (op : BitVec 3) (md ma mb : Idx3) (row : Option (BitVec 3)) (s : State) : Out :=
  .next (issueV (maskCheck row) (.mlogic op md ma mb row) (perfMlogic op md ma mb row) s)

/-! ## Results for g registers and queue registers (R347, R356) -/

/-- A result written to a g register when the instruction completes. -/
def toG (d : Reg) (v : Nat) (s : State) : LRes := .done (setGNat d v s)

/-- A result written to q4 or q5 when the instruction completes; a full queue stalls the vector stream. -/
def toQ (e : QEntry) (q : Nat) (v : Nat) (s : State) : LRes :=
  if queueDepth q ≤ (queueOfHart s q).length then
    .block e (some { flt := qHang 2 q 1, lpc := e.ctx.pc, elem := e.vstart, stream := 1,
                     fs := { noStream with fstream := 1 } }) s
  else .done (appendQueue q (BitVec.ofNat 64 v) s)

/-- The lowest sweep index whose bit is set, all ones when none (R353). -/
def firstSet (x : Hart) (c : LCtx) (m : Nat) : Nat :=
  match (tileOf c (List.range c.rc)).find? (fun p => mBit x m p.1 p.2) with
  | some p => sweepIx c p.1 p.2
  | none => allOnes64

def perfMpopc (d : Reg) (ma : Idx3) : Perform := fun e s => toG d (maskCount (me s) ma.toNat e.ctx.rc e.ctx.vl) s
def perfMpopcQ (q : Idx3) (ma : Idx3) : Perform := fun e s =>
  toQ e q.toNat (maskCount (me s) ma.toNat e.ctx.rc e.ctx.vl) s
def perfMfirst (d : Reg) (ma : Idx3) : Perform := fun e s => toG d (firstSet (me s) e.ctx ma.toNat) s
def perfMfirstQ (q : Idx3) (ma : Idx3) : Perform := fun e s => toQ e q.toNat (firstSet (me s) e.ctx ma.toNat) s

def execMpopc (d : Reg) (ma : Idx3) (s : State) : Out :=
  .next (issueV (maskCheck none) (.mpopc d ma) (perfMpopc d ma) s)
def execMpopcQ (q : Idx3) (ma : Idx3) (s : State) : Out :=
  .next (issueV (maskCheck none) (.mpopcQ q ma) (perfMpopcQ q ma) s)
def execMfirst (d : Reg) (ma : Idx3) (s : State) : Out :=
  .next (issueV (maskCheck none) (.mfirst d ma) (perfMfirst d ma) s)
def execMfirstQ (q : Idx3) (ma : Idx3) (s : State) : Out :=
  .next (issueV (maskCheck none) (.mfirstQ q ma) (perfMfirstQ q ma) s)

/-! ## VCMP (R354) -/

/-- The condition of VCMP and the flags of a float compare. -/
def cmpFloat (cond : Nat) (a b : Val) : Bool × Fl :=
  let un := a.isNan || b.isNan
  let sig := sigFl a ||| sigFl b
  let any := flIf un flInvalid
  match cond with
  | 0 => (eqV a b, sig)
  | 1 => (!eqV a b, sig)
  | 2 => (ltV a b, any)
  | 3 => (!un && !ltV b a, any)
  | 4 => (ltV b a, any)
  | 5 => (!un && !ltV a b, any)
  | _ => (un, sig)

def cmpInt (cond : Nat) (a b : Int) : Bool :=
  match cond with
  | 0 => a == b
  | 1 => a != b
  | 2 => decide (a < b)
  | 3 => decide (a ≤ b)
  | 4 => decide (b < a)
  | 5 => decide (b ≤ a)
  | _ => false

def cmpTy (t : ElemTy) (cond a b : Nat) : Bool × Fl :=
  match tyFmt t with
  | some f => cmpFloat cond (decodeF f a) (decodeF f b)
  | none => (cmpInt cond (asInt t.isUns (tyBits t) a) (asInt t.isUns (tyBits t) b), 0)

def perfVcmp (cond : BitVec 3) (md : Idx3) (va : Reg) (b : Src2) (ty : ElemTy) (rnd : BitVec 2) (mask : MaskSel)
    (row : Option (BitVec 3)) : Perform := fun e s =>
  sweepRegs e row (va :: src2Regs b) (fun k i s =>
    let o := tyOpd ty rnd false
    mbind (srcElem e.ctx va o k i s) fun x s =>
      mbind (src2Elem e.ctx b o k i s) fun y s =>
        if active (me s) mask k i then
          let r := cmpTy ty cond.toNat x.1 y.1
          .ok () (addFl (r.2 ||| x.2 ||| y.2) (setMBit md.toNat k i r.1 s))
        else .ok () s) s

def execVcmp (cond : BitVec 3) (md : Idx3) (va : Reg) (b : Src2) (ty : ElemTy) (rnd : BitVec 2) (mask : MaskSel)
    (row : Option (BitVec 3)) (s : State) : Out :=
  .next (issueV { maskCheck row with width := tyBits ty } (.vcmp cond md va b ty rnd mask row)
    (perfVcmp cond md va b ty rnd mask row) s)

/-! ## Moving elements (R355) -/

/-- The value VGET reads: element i := g(gb) of the tile, extended; 0 beyond it. -/
def perfVgetTo (u : Bool) (ew : BitVec 2) (va gb : Reg) (fin : QEntry → Nat → State → LRes) : Perform := fun e s =>
  let i := cg e.ctx gb
  let w := ewBits ew
  let at' := if i < tileSize e.ctx then [(i / e.ctx.vl, i % e.ctx.vl)] else []
  readThen e va (.raw w) at' (fun xs s => fin e (match xs with
    | x :: _ => if u then x.1 else wrapTo 64 (signed w x.1)
    | [] => 0) s) s

def perfVget (u : Bool) (ew : BitVec 2) (d va gb : Reg) : Perform := perfVgetTo u ew va gb (fun _ v s => toG d v s)
def perfVgetQ (u : Bool) (ew : BitVec 2) (q : Idx3) (va gb : Reg) : Perform :=
  perfVgetTo u ew va gb (fun e v s => toQ e q.toNat v s)

def perfVput (ew : BitVec 2) (vd ga gb : Reg) : Perform := fun e s =>
  let i := cg e.ctx gb
  if tileSize e.ctx ≤ i then .done s
  else .done (setVElem vd.toNat (i / e.ctx.vl) (i % e.ctx.vl) (ewBits ew) (cg e.ctx ga) s)

def perfVmov (ew : BitVec 2) (vd va : Reg) (mask : MaskSel) (row : Option (BitVec 3)) : Perform := fun e s =>
  sweepRegs e row [va] (fun k i s =>
    mbind (srcElem e.ctx va (.raw (ewBits ew)) k i s) fun x s =>
      .ok () (putIf (active (me s) mask k i) vd k i (ewBits ew) x s)) s

/-- Active elements take one value computed from their element number. -/
def fillSweep (ew : BitVec 2) (vd : Reg) (mask : MaskSel) (row : Option (BitVec 3)) (f : Nat → Nat) (e : QEntry)
    (s : State) : LRes :=
  sweepRegs e row [] (fun k i s =>
    .ok () (putIf (active (me s) mask k i) vd k i (ewBits ew) (f i % 2 ^ ewBits ew, 0) s)) s

def perfVsplat (ew : BitVec 2) (vd gb : Reg) (mask : MaskSel) (row : Option (BitVec 3)) : Perform := fun e s =>
  fillSweep ew vd mask row (fun _ => cg e.ctx gb) e s
def splatRow (imm : BitVec 16) (row : Bool) : Option (BitVec 3) := if row then some (imm.truncate 3) else none
def perfVsplatImm (ew : BitVec 2) (vd : Reg) (imm : BitVec 16) (mask : MaskSel) (row : Bool) : Perform := fun e s =>
  fillSweep ew vd mask (splatRow imm row) (fun _ => (imm.signExtend 64).toNat) e s

/-- VSPLAT.q takes its entry when it begins and keeps it (R356). -/
def perfVsplatQ (ew : BitVec 2) (vd : Reg) (q : BitVec 2) (mask : MaskSel) (row : Option (BitVec 3)) : Perform := fun e s =>
  match e.kept with
  | x :: _ => fillSweep ew vd mask row (fun _ => x) e s
  | [] =>
    match queueOfHart s q.toNat with
    | [] => .block e (some { flt := qHang 1 q.toNat 1, lpc := e.ctx.pc, elem := 0, stream := 1,
                             fs := { noStream with fstream := 1 } }) s
    | x :: r => fillSweep ew vd mask row (fun _ => x.toNat) { e with kept := [x.toNat] } (setQueue q.toNat r s)

def perfViota (ew : BitVec 2) (vd ga gb : Reg) (mask : MaskSel) (row : Option (BitVec 3)) : Perform := fun e s =>
  fillSweep ew vd mask row (fun i => cg e.ctx ga + i * cg e.ctx gb) e s

/-- VSEL writes inactive elements too: the mask only selects (R355). -/
def perfVsel (ew : BitVec 2) (vd va vb : Reg) (mask : MaskSel) (row : Option (BitVec 3)) : Perform := fun e s =>
  sweepRegs e row [va, vb] (fun k i s =>
    let o := Opd.raw (ewBits ew)
    mbind (srcElem e.ctx va o k i s) fun x s =>
      mbind (srcElem e.ctx vb o k i s) fun y s =>
        .ok () (setVElem vd.toNat k i (ewBits ew) (if active (me s) mask k i then x.1 else y.1) s)) s

def moveCheck (ew : BitVec 2) (vd : Reg) (row : Option (BitVec 3)) : Check :=
  { Check.none with width := ewBits ew, dst := [vd], row := row }

def execVget (u : Bool) (ew : BitVec 2) (d va gb : Reg) (s : State) : Out :=
  .next (issueV { Check.none with width := ewBits ew } (.vget u ew d va gb) (perfVget u ew d va gb) s)
def execVgetQ (u : Bool) (ew : BitVec 2) (q : Idx3) (va gb : Reg) (s : State) : Out :=
  .next (issueV { Check.none with width := ewBits ew } (.vgetQ u ew q va gb) (perfVgetQ u ew q va gb) s)
def execVput (ew : BitVec 2) (vd ga gb : Reg) (s : State) : Out :=
  .next (issueV (moveCheck ew vd none) (.vput ew vd ga gb) (perfVput ew vd ga gb) s)
def execVmov (ew : BitVec 2) (vd va : Reg) (mask : MaskSel) (row : Option (BitVec 3)) (s : State) : Out :=
  .next (issueV (moveCheck ew vd row) (.vmov ew vd va mask row) (perfVmov ew vd va mask row) s)
def execVsplat (ew : BitVec 2) (vd gb : Reg) (mask : MaskSel) (row : Option (BitVec 3)) (s : State) : Out :=
  .next (issueV (moveCheck ew vd row) (.vsplat ew vd gb mask row) (perfVsplat ew vd gb mask row) s)
def execVsplatImm (ew : BitVec 2) (vd : Reg) (imm : BitVec 16) (mask : MaskSel) (row : Bool) (s : State) : Out :=
  .next (issueV (moveCheck ew vd (splatRow imm row)) (.vsplatImm ew vd imm mask row)
    (perfVsplatImm ew vd imm mask row) s)
def execVsplatQ (ew : BitVec 2) (vd : Reg) (q : BitVec 2) (mask : MaskSel) (row : Option (BitVec 3)) (s : State) : Out :=
  .next (issueV (moveCheck ew vd row) (.vsplatQ ew vd q mask row) (perfVsplatQ ew vd q mask row) s)
def execViota (ew : BitVec 2) (vd ga gb : Reg) (mask : MaskSel) (row : Option (BitVec 3)) (s : State) : Out :=
  .next (issueV (moveCheck ew vd row) (.viota ew vd ga gb mask row) (perfViota ew vd ga gb mask row) s)
def execVsel (ew : BitVec 2) (vd va vb : Reg) (mask : MaskSel) (row : Option (BitVec 3)) (s : State) : Out :=
  .next (issueV (moveCheck ew vd row) (.vsel ew vd va vb mask row) (perfVsel ew vd va vb mask row) s)

end Sys2Proof.Machine
end

