-- ==== Sys2Proof/Machine/VecArith.lean ====
section
/-! DEFINITION. Element-wise arithmetic, logic and shifts (R357). -/

namespace Sys2Proof.Machine

/-- An element's result from a, b and the old d: float through `ff`, integer through `fi` (UNS, width). -/
def typedOp (t : ElemTy) (ff : FFmt → Val → Val → Val → Nat × Fl) (fi : Bool → Nat → Nat → Nat → Nat → Nat × Fl)
    (a b d : Nat) : Nat × Fl :=
  match tyFmt t with
  | some f => ff f (decodeF f a) (decodeF f b) (decodeF f d)
  | none => fi t.isUns (tyBits t) a b d

/-- A two-source element-wise instruction. -/
def ew2 (o : Ew2) (ff : FFmt → Val → Val → Val → Nat × Fl) (fi : Bool → Nat → Nat → Nat → Nat → Nat × Fl) : Perform :=
  fun e s =>
  sweepRegs e o.row (o.va :: src2Regs o.b) (fun k i s =>
    let p := tyOpd o.ty o.rnd o.sat
    mbind (srcElem e.ctx o.va p k i s) fun a s =>
      mbind (src2Elem e.ctx o.b p k i s) fun b s =>
        let d := vElem (me s) o.vd.toNat k i (tyBits o.ty)
        let r := typedOp o.ty ff fi a.1 b.1 d
        .ok () (putIf (active (me s) o.mask k i) o.vd k i (tyBits o.ty) (r.1, r.2 ||| a.2 ||| b.2) s)) s

/-- A one-source element-wise instruction. -/
def ew1 (o : Ew1) (ff : FFmt → Val → Nat × Fl) (fi : Bool → Nat → Nat → Nat × Fl) : Perform := fun e s =>
  sweepRegs e o.row [o.va] (fun k i s =>
    mbind (srcElem e.ctx o.va (tyOpd o.ty 0 o.sat) k i s) fun a s =>
      let r := match tyFmt o.ty with
        | some f => ff f (decodeF f a.1)
        | none => fi o.ty.isUns (tyBits o.ty) a.1
      .ok () (putIf (active (me s) o.mask k i) o.vd k i (tyBits o.ty) (r.1, r.2 ||| a.2) s)) s

/-- Integer arithmetic on the type's values (R287). -/
def intArith (sat : Bool) (op : Int → Int → Int → Int) (u : Bool) (w a b d : Nat) : Nat × Fl :=
  intResult u sat w (op (asInt u w a) (asInt u w b) (asInt u w d))

def perfVadd (o : Ew2) : Perform :=
  ew2 o (fun f a b _ => faddOp f o.rnd.toNat o.sat a b) (intArith o.sat (fun a b _ => a + b))
def perfVsub (o : Ew2) : Perform :=
  ew2 o (fun f a b _ => fsubOp f o.rnd.toNat o.sat a b) (intArith o.sat (fun a b _ => a - b))
def perfVmul (o : Ew2) : Perform :=
  ew2 o (fun f a b _ => fmulOp f o.rnd.toNat o.sat a b) (intArith o.sat (fun a b _ => a * b))
def perfVfma (o : Ew2) : Perform :=
  ew2 o (fun f a b d => fmaOp f o.rnd.toNat o.sat a b d) (intArith o.sat (fun a b d => a * b + d))
def perfVdiv (o : Ew2) : Perform :=
  ew2 o (fun f a b _ => fdivOp f o.rnd.toNat o.sat a b) (fun u w a b _ => (intDivRem u w a b).1)
def perfVmin (o : Ew2) : Perform := ew2 o (fun f a b _ => fminOp f a b) (fun u w a b _ => (minOp u w a b, 0))
def perfVmax (o : Ew2) : Perform := ew2 o (fun f a b _ => fmaxOp f a b) (fun u w a b _ => (maxOp u w a b, 0))
def perfVand (o : Ew2) : Perform := ew2 o (fun _ _ _ _ => (0, 0)) (fun _ _ a b _ => (a &&& b, 0))
def perfVor (o : Ew2) : Perform := ew2 o (fun _ _ _ _ => (0, 0)) (fun _ _ a b _ => (a ||| b, 0))
def perfVxor (o : Ew2) : Perform := ew2 o (fun _ _ _ _ => (0, 0)) (fun _ _ a b _ => (a ^^^ b, 0))
def perfVshl (o : Ew2) : Perform := ew2 o (fun _ _ _ _ => (0, 0)) (fun _ w a b _ => (shlOp w a b, 0))
def perfVshr (o : Ew2) : Perform :=
  ew2 o (fun _ _ _ _ => (0, 0)) (fun u w a b _ => (if u then shrOp w a b else sarOp w a b, 0))
/-- Float VABS and VNEG are exact; a NaN gives the canonical NaN (R357). -/
def perfVabs (o : Ew1) : Perform :=
  ew1 o (fun f a => convertV f 0 false a.abs) (fun u w a => intResult u o.sat w ((asInt u w a).natAbs : Int))
def perfVneg (o : Ew1) : Perform :=
  ew1 o (fun f a => convertV f 0 false a.neg) (fun u w a => intResult u o.sat w (-asInt u w a))

def ew2Check (o : Ew2) : Check := { Check.none with width := tyBits o.ty, dst := [o.vd], row := o.row }
def ew1Check (o : Ew1) : Check := { Check.none with width := tyBits o.ty, dst := [o.vd], row := o.row }

def execVadd (o : Ew2) (s : State) : Out := .next (issueV (ew2Check o) (.vadd o) (perfVadd o) s)
def execVsub (o : Ew2) (s : State) : Out := .next (issueV (ew2Check o) (.vsub o) (perfVsub o) s)
def execVmul (o : Ew2) (s : State) : Out := .next (issueV (ew2Check o) (.vmul o) (perfVmul o) s)
def execVfma (o : Ew2) (s : State) : Out := .next (issueV (ew2Check o) (.vfma o) (perfVfma o) s)
def execVdiv (o : Ew2) (s : State) : Out := .next (issueV (ew2Check o) (.vdiv o) (perfVdiv o) s)
def execVmin (o : Ew2) (s : State) : Out := .next (issueV (ew2Check o) (.vmin o) (perfVmin o) s)
def execVmax (o : Ew2) (s : State) : Out := .next (issueV (ew2Check o) (.vmax o) (perfVmax o) s)
def execVabs (o : Ew1) (s : State) : Out := .next (issueV (ew1Check o) (.vabs o) (perfVabs o) s)
def execVneg (o : Ew1) (s : State) : Out := .next (issueV (ew1Check o) (.vneg o) (perfVneg o) s)
def execVand (o : Ew2) (s : State) : Out := .next (issueV (ew2Check o) (.vand o) (perfVand o) s)
def execVor (o : Ew2) (s : State) : Out := .next (issueV (ew2Check o) (.vor o) (perfVor o) s)
def execVxor (o : Ew2) (s : State) : Out := .next (issueV (ew2Check o) (.vxor o) (perfVxor o) s)
def execVshl (o : Ew2) (s : State) : Out := .next (issueV (ew2Check o) (.vshl o) (perfVshl o) s)
def execVshr (o : Ew2) (s : State) : Out := .next (issueV (ew2Check o) (.vshr o) (perfVshr o) s)

end Sys2Proof.Machine
end

