-- ==== Sys2Proof/Machine/VecSfu.lean ====
section
/-! DEFINITION. Special functions (R358). A value that is irrational is computed in fixed point with 512 fraction bits
and an error far below the last of them that rounding looks at, and is marked inexact by a sticky last bit; rational
values are exact. -/

namespace Sys2Proof.Machine

/-- Fraction bits of the fixed-point arithmetic. -/
def fxBits : Nat := 512
def fxOne : Nat := 2 ^ fxBits

/-- Σ t^(2k+1) ÷ (2k + 1) for a fixed-point t below 1, with `n` more terms: half of ln((1 + t) ÷ (1 − t)). -/
def atanhTerms (t2 : Nat) : Nat → Nat → Nat → Nat
  | 0, _, _ => 0
  | n + 1, p, k => p / k + atanhTerms t2 n (p * t2 / fxOne) (k + 2)

def fxAtanh (t : Nat) : Nat := atanhTerms (t * t / fxOne) 180 t 1

/-- ln 2. -/
def fxLn2 : Nat := 2 * fxAtanh (fxOne / 3)

/-- Σ r^k ÷ k! from the term `t` = r^(k−1) ÷ (k−1)! on. -/
def expTerms (r : Nat) : Nat → Nat → Nat → Nat
  | 0, _, t => t
  | n + 1, k, t => t + expTerms r n (k + 1) (t * r / fxOne / k)

/-- e^y for a fixed-point y: a fixed-point number in [1, 2) and a power of two. -/
def fxExp (y : Int) : Nat × Int :=
  let n := y / (fxLn2 : Int)
  let r := (y - n * fxLn2).toNat
  (expTerms r 120 1 fxOne, n)

/-- m × 2^e in fixed point; e is at least −fxBits for the formats of R358. -/
def fxOf (neg : Bool) (m : Nat) (e : Int) : Int :=
  let x := e + fxBits
  let y : Nat := if 0 ≤ x then m * 2 ^ x.toNat else m / 2 ^ (-x).toNat
  if neg then -(y : Int) else y

/-- A positive irrational value n × 2^e. -/
def sticky (neg : Bool) (n : Nat) (e : Int) : Val := .fin neg (2 * n + 1) (e - 1)

/-- Stand-ins that round as the value of a function does beyond its last argument of interest: past every finite
number, below every one, and just below 1. -/
def hugeVal : Val := .fin false 1 400
def tinyVal : Val := .fin false 1 (-700)
def nearOne (neg : Bool) : Val := .fin neg (2 ^ 280 - 1) (-280)

/-- Whether |x| is at least 2^k. -/
def atLeast (m : Nat) (e : Int) (k : Int) : Bool := decide (k ≤ e + (bitLen m : Int) - 1)

def rcpV (a : Val) : Val × Fl := divV (.fin false 1 0) a

/-- 1 ÷ √x, by the root of 2^(2k) ÷ m with a sticky last bit. -/
def rsqrtV (a : Val) : Val × Fl :=
  match a with
  | .nan x => (.nan false, flIf x flInvalid)
  | .inf neg => if neg then (.nan false, flInvalid) else (.zero false, 0)
  | .fin neg m e =>
    if m = 0 then (.inf neg, flDivzero)
    else if neg then (.nan false, flInvalid)
    else
      let m' := if e % 2 = 0 then m else 2 * m
      let e' := if e % 2 = 0 then e else e - 1
      let k := 90 + bitLen m'
      let r := isqrt (2 ^ (2 * k) / m')
      (.fin false (2 * r + b2n (r * r * m' != 2 ^ (2 * k))) (-(e' / 2) - k - 1), 0)

/-- e^x, or 2^x when `two`. -/
def expV (two : Bool) (a : Val) : Val × Fl :=
  match a with
  | .nan x => (.nan false, flIf x flInvalid)
  | .inf neg => (if neg then .zero false else .inf false, 0)
  | .fin neg m e =>
    if m = 0 then (.fin false 1 0, 0)
    else if atLeast m e 9 then (if neg then tinyVal else hugeVal, 0)
    else
      let y := fxOf neg m e
      if two && y % (fxOne : Int) == 0 then (.fin false 1 (y / (fxOne : Int)), 0)
      else
        let (x, n) := if two then
            let i := y / (fxOne : Int)
            let p := fxExp ((y - i * fxOne) * (fxLn2 : Int) / (fxOne : Int))
            (p.1, p.2 + i)
          else fxExp y
        (sticky false x (n - fxBits), 0)

def log2V (a : Val) : Val × Fl :=
  match a with
  | .nan x => (.nan false, flIf x flInvalid)
  | .inf neg => if neg then (.nan false, flInvalid) else (.inf false, 0)
  | .fin neg m e =>
    if m = 0 then (.inf true, flDivzero)
    else if neg then (.nan false, flInvalid)
    else
      let k := bitLen m - 1
      let top : Int := e + k
      if m = 2 ^ k then (ofInt top, 0)
      else
        let f := m * fxOne / 2 ^ k
        let l := 2 * fxAtanh ((f - fxOne) * fxOne / (f + fxOne))
        let z := top * fxOne + (l * fxOne / fxLn2 : Nat)
        (sticky (decide (z < 0)) z.natAbs (-fxBits), 0)

/-- tanh x = (e^(2x) − 1) ÷ (e^(2x) + 1). -/
def tanhV (a : Val) : Val × Fl :=
  match a with
  | .nan x => (.nan false, flIf x flInvalid)
  | .inf neg => (.fin neg 1 0, 0)
  | .fin neg m e =>
    if m = 0 then (.zero neg, 0)
    else if atLeast m e 6 then (nearOne neg, 0)
    else
      let (x, n) := fxExp (fxOf false m (e + 1))
      let t := x * 2 ^ n.toNat
      (sticky neg ((t - fxOne) * fxOne / (t + fxOne)) (-fxBits), 0)

/-- sigmoid x = 1 ÷ (1 + e^(−x)). -/
def sigmoidV (a : Val) : Val × Fl :=
  match a with
  | .nan x => (.nan false, flIf x flInvalid)
  | .inf neg => (if neg then .zero false else .fin false 1 0, 0)
  | .fin neg m e =>
    if m = 0 then (.fin false 1 (-1), 0)
    else if atLeast m e 8 then (if neg then tinyVal else nearOne false, 0)
    else
      let (x, n) := fxExp (fxOf true m e)
      let t := x / 2 ^ (-n).toNat
      if neg then (sticky false (x * fxOne / (fxOne + t)) (n - fxBits), 0)
      else (sticky false (fxOne * fxOne / (fxOne + t)) (-fxBits), 0)

def sfuOp (fn : Nat) (a : Val) : Val × Fl :=
  match fn with
  | 0 => rcpV a
  | 1 => rsqrtV a
  | 2 => sqrtV a
  | 3 => expV false a
  | 4 => expV true a
  | 5 => log2V a
  | 6 => tanhV a
  | _ => sigmoidV a

def perfVsfu (fn : BitVec 3) (fmt rnd : BitVec 2) (sat : Bool) (vd va : Reg) (mask : MaskSel)
    (row : Option (BitVec 3)) : Perform := fun e s =>
  let f := f012 fmt
  sweepRegs e row [va] (fun k i s =>
    mbind (srcElem e.ctx va (.flt fmt.toNat rnd.toNat sat) k i s) fun a s =>
      let r := finishF f rnd.toNat sat (sfuOp fn.toNat (decodeF f a.1))
      .ok () (putIf (active (me s) mask k i) vd k i (f012Bits fmt) (r.1, r.2 ||| a.2) s)) s

def execVsfu (fn : BitVec 3) (fmt rnd : BitVec 2) (sat : Bool) (vd va : Reg) (mask : MaskSel)
    (row : Option (BitVec 3)) (s : State) : Out :=
  .next (issueV { Check.none with width := f012Bits fmt, dst := [vd], row := row } (.vsfu fn fmt rnd sat vd va mask row)
    (perfVsfu fn fmt rnd sat vd va mask row) s)

end Sys2Proof.Machine
end

