-- ==== Sys2Proof/Machine/Quant.lean ====
section
/-! DEFINITION. Conversion, the Hadamard rotation, quantising with record scales and lookup tables (R122, R154 to R157,
R359 to R363). -/

namespace Sys2Proof.Machine

/-! ## VCVT (R359) -/

/-- Reading and writing an element of the two sides: bits, and the operand as a bound read delivers it. -/
def CvtForm.srcOpd (rnd : Nat) (sat : Bool) : CvtForm → Opd
  | .fmt _ s => .flt s.toNat rnd sat
  | .fromInt u ew _ => .int u rnd (ewBits ew)
  | .toInt _ _ s => .flt s.toNat rnd sat

def CvtForm.dstBits : CvtForm → Nat
  | .fmt d _ => bitsFmt d.toNat
  | .fromInt _ _ d => bitsFmt d.toNat
  | .toInt _ ew _ => ewBits ew

/-- The conversion of one code. -/
def cvtOp (f : CvtForm) (rnd : Nat) (sat : Bool) (x : Nat) : Nat × Fl :=
  match f with
  | .fmt d s =>
    let v := decodeFmt s.toNat x
    let r := encodeFmt d.toNat rnd sat v
    (r.1, r.2 ||| sigFl v)
  | .fromInt u ew d => encodeFmt d.toNat rnd sat (ofInt (asInt u (ewBits ew) x))
  | .toInt u ew s =>
    let v := decodeFmt s.toNat x
    let (z, fl) := toIntV rnd (intLo u (ewBits ew)) (intHi u (ewBits ew)) v
    (wrapTo (ewBits ew) z, fl)

/-- The row selector of a VCVT shares imm16 with the source code (R302). -/
def cvtRow (f : CvtForm) (row : Bool) : Option (BitVec 3) :=
  if row then some (match f with
    | .fmt _ s => s.truncate 3
    | _ => 0)
  else none

def perfVcvt (form : CvtForm) (rnd : BitVec 2) (sat : Bool) (vd va : Reg) (mask : MaskSel) (row : Bool) : Perform :=
  fun e s =>
  sweepRegs e (cvtRow form row) [va] (fun k i s =>
    mbind (srcElem e.ctx va (CvtForm.srcOpd rnd.toNat sat form) k i s) fun a s =>
      let r := cvtOp form rnd.toNat sat a.1
      .ok () (putIf (active (me s) mask k i) vd k i (CvtForm.dstBits form) (r.1, r.2 ||| a.2) s)) s

/-- Sources of another width may not overlap the destination (R224). -/
def widthCheck (src dst : Nat) (vd va : Reg) (row : Option (BitVec 3)) : Check :=
  { Check.none with width := max src dst, dst := [vd], row := row, noOverlap := if src = dst then [] else [va] }

def execVcvt (form : CvtForm) (rnd : BitVec 2) (sat : Bool) (vd va : Reg) (mask : MaskSel) (row : Bool) (s : State) :
    Out :=
  .next (issueV
    (widthCheck (CvtForm.srcOpd rnd.toNat sat form).bits (CvtForm.dstBits form) vd va (cvtRow form row))
    (.vcvt form rnd sat vd va mask row) (perfVcvt form rnd sat vd va mask row) s)

/-! ## The rotation of R122 -/

def zipFl (f : Nat → Nat → Nat × Fl) : List Nat → List Nat → List Nat × Fl
  | a :: as, b :: bs =>
    let r := f a b
    let t := zipFl f as bs
    (r.1 :: t.1, r.2 ||| t.2)
  | _, _ => ([], 0)

def add32 (a b : Nat) : Nat × Fl := faddOp fp32 0 false (decodeF fp32 a) (decodeF fp32 b)
def sub32 (a b : Nat) : Nat × Fl := fsubOp fp32 0 false (decodeF fp32 a) (decodeF fp32 b)
def mul32 (a b : Nat) : Nat × Fl := fmulOp fp32 0 false (decodeF fp32 a) (decodeF fp32 b)

/-- One butterfly stage: blocks of 2h elements. -/
def hadStage (h : Nat) : Nat → List Nat → List Nat × Fl
  | 0, _ => ([], 0)
  | n + 1, x =>
    let a := x.take h
    let b := (x.drop h).take h
    let p := zipFl add32 a b
    let q := zipFl sub32 a b
    let t := hadStage h n (x.drop (2 * h))
    (p.1 ++ q.1 ++ t.1, p.2 ||| q.2 ||| t.2)

def hadStages : List Nat → List Nat × Fl → List Nat × Fl
  | [], x => x
  | h :: r, x =>
    let y := hadStage h (64 / h) x.1
    hadStages r (y.1, x.2 ||| y.2)

/-- The rotation of 128 FP32 codes, with the flags of its roundings. -/
def rotate128 (x : List Nat) : List Nat × Fl :=
  let y := hadStages [1, 2, 4, 8, 16, 32, 64] (x, 0)
  let z := zipFl mul32 y.1 (List.replicate 128 0x3DB504F3)
  (z.1, y.2 ||| z.2)

/-! ## VHAD (R360) -/

/-- The elements of group j of row k that lie below VL. -/
def hadPlaces (c : LCtx) (k j : Nat) : List (Nat × Nat) :=
  ((List.range 128).map (fun i => (k, 128 * j + i))).filter (fun p => decide (p.2 < c.vl))

/-- A group's reads as 128 FP32 codes, with the flags of the conversions; elements beyond VL are zero. -/
def hadCodes (fmt : BitVec 2) (xs : List (Nat × Fl)) : List Nat × Fl :=
  let ys := xs.map (fun a =>
    let x := convertV fp32 0 false (decodeF (f012 fmt) a.1)
    (x.1, a.2 ||| x.2))
  (ys.map (fun y => y.1) ++ List.replicate (128 - ys.length) 0, ys.foldl (fun f y => f ||| y.2) 0)

def hadWrite (fmt : BitVec 2) (rnd : Nat) (vd : Reg) (k vl : Nat) : Nat → List Nat → State → State
  | _, [], s => s
  | i, x :: r, s =>
    let y := convertV (f012 fmt) rnd false (decodeF fp32 x)
    let s := if i < vl then addFl y.2 (setVElem vd.toNat k i (f012Bits fmt) y.1 s) else s
    hadWrite fmt rnd vd k vl (i + 1) r s

/-- The groups of a row. -/
def hadCount (c : LCtx) : Nat := (c.vl + 127) / 128

/-- VSTART of a group: 128 for each group before it (R360). -/
def hadIx (c : LCtx) (k j : Nat) : Nat := 128 * (k * hadCount c + j)

/-- The groups that the binding in progress performs, and those that it leaves (R205, R217). -/
def hadDue (c : LCtx) (vstart : Nat) (l : List (Nat × Nat)) : List (Nat × Nat) × List (Nat × Nat) :=
  if c.upto ≠ 0 then l.span (fun p => decide (sweepIx c p.1 (min (128 * (p.2 + 1)) c.vl) ≤ c.upto))
  else if c.byRow then
    match l.find? (fun p => decide (vstart ≤ hadIx c p.1 p.2)) with
    | some q => l.span (fun p => decide (p.1 ≤ q.1))
    | none => (l, [])
  else (l, [])

/-- The groups in order. A stall inside a group keeps the group's reads made so far. -/
def hadGroups (e : QEntry) (fmt rnd : BitVec 2) (vd va : Reg) (all : List (Nat × Nat)) (fin : QEntry → State → LRes) :
    List (Nat × Nat) → List (Nat × Fl) → State → LRes
  | [], _, s => fin e s
  | (k, j) :: rest, xs, s =>
    let ix := hadIx e.ctx k j
    if ix < e.vstart then hadGroups e fmt rnd vd va all fin rest xs s
    else
      gatherElems { e with vstart := ix } va (.flt fmt.toNat rnd.toNat false) all (fun xs s =>
        let x := hadCodes fmt xs
        let y := rotate128 x.1
        hadGroups { e with vstart := ix + 128, kept := [] } fmt rnd vd va all fin rest []
          (addFl (x.2 ||| y.2) (hadWrite fmt rnd.toNat vd k e.ctx.vl (128 * j) y.1 s)))
        ((hadPlaces e.ctx k j).drop xs.length) xs.reverse s

def perfVhad (fmt rnd : BitVec 2) (vd va : Reg) (row : Option (BitVec 3)) : Perform := fun e s =>
  let c := e.ctx
  let d := hadDue c e.vstart ((rowsOf c row).flatMap (fun k => (List.range (hadCount c)).map (fun j => (k, j))))
  hadGroups e fmt rnd vd va (tileOf c (rowsOf c row)) (fun e s =>
    if d.2.isEmpty then .done (consume [va] s) else .block e.yielded none s) d.1 (unpackReads e.kept) s

def execVhad (fmt rnd : BitVec 2) (vd va : Reg) (row : Option (BitVec 3)) (s : State) : Out :=
  .next (issueV { Check.none with width := f012Bits fmt, dst := [vd], row := row } (.vhad fmt rnd vd va row)
    (perfVhad fmt rnd vd va row) s)

/-! ## Record scales (R154 to R157) -/

/-- qmax of a record-scaled target as an exact value. -/
def qmaxOf (f : Nat) : Nat :=
  match f with
  | 7 => 127
  | 10 => 7
  | 4 => 448
  | 3 => 57344
  | _ => 30

/-- The record is present (R361). -/
def recPresent (s : State) (part i : Nat) : Bool := (partOf s part).recbase.getLsbD 0 && decide (i ≤ recLast s part)

/-- ABSMAX as the reading die sees it (R154): the home record merged with that die's shadow. -/
def seenAbsmax (s : State) (die part i : Nat) : Nat :=
  max (recAbsmax s part i) (cget Shadow.empty (shadowKey die part i) s.shadows).absmax

/-- R155, as an FP32 code. -/
def recordScale (absmax f : Nat) : Nat :=
  if absmax = 0 then 0x3F800000
  else max 1 (roundV fp32 0 false (divV (decodeF fp32 absmax) (ofInt (qmaxOf f))).1).1

/-- OVS of a record (R156), set by the anemometer of a die, which may be denied (R30, R34): ACCESS then has the record's number
in TRAPADDR (log 57). -/
def setOvs (die part i : Nat) (s : State) : MR Unit :=
  mbind (recAllowed die part i true i s) fun _ s =>
    .ok () (rawWrite (recAddr s part i + 0x18) 4 (recCtl s part i ||| 2 ^ 13) s)

/-- RESCALE (R157). -/
def rescaleFlt (i : Nat) : Flt := mkFlt cRescale 0 (i % 65536 + 65536)

/-- Saturation to ±qmax. -/
def satCode (dst : Nat) (neg : Bool) : Nat :=
  match fmtOf dst with
  | some f => maxCode f neg
  | none => wrapTo (bitsFmt dst) (if neg then -(qmaxOf dst : Int) else qmaxOf dst)

def nanCode (dst : Nat) : Nat :=
  match fmtOf dst with
  | some f => canonical f
  | none => 0

/-- One element quantised: code, flags, and whether it overflowed (R361). -/
def quantize (dst rnd : Nat) (scale x : Val) : Nat × Fl × Bool :=
  match x with
  | .nan _ => (nanCode dst, flInvalid, false)
  | .inf neg => (satCode dst neg, flSaturated, true)
  | .fin neg _ _ =>
    if ltV (mulV scale (ofInt (qmaxOf dst))).1 x.abs then (satCode dst neg, flSaturated, true)
    else
      let r := encodeFmt dst rnd false (divV x scale).1
      (r.1, r.2, false)

/-- Elements with what the frame keeps. -/
def keepRun (e : QEntry) (srcs : List Reg) (all : List (Nat × Nat)) (body : Nat → Nat → List Nat → State → MR (List Nat))
    (fin : List Nat → State → LRes) : List (Nat × Nat) → List Nat → State → LRes
  | [], kept, s => fin kept s
  | (k, i) :: rest, kept, s =>
    let ix := sweepIx e.ctx k i
    if ix < e.vstart then keepRun e srcs all body fin rest kept s
    else match body k i kept s with
      | .ok kept s => keepRun e srcs all body fin rest kept s
      | .bad f s => stopAt { e with kept := kept } ix f (bindStream s srcs e.ctx all (fromIx e.ctx ix all) f) s
      | .wait s => .block { e with vstart := ix, kept := kept } (bindHang e srcs ix s) s

/-- An element loop that carries what the frame keeps, as far as the binding in progress goes. -/
def keepLoop (e : QEntry) (srcs : List Reg) (body : Nat → Nat → List Nat → State → MR (List Nat))
    (fin : List Nat → State → LRes) (l : List (Nat × Nat)) (kept : List Nat) (s : State) : LRes :=
  let d := due e.ctx e.vstart l
  keepRun e srcs l body (fun kept s => endBind { e with kept := kept } d.2 (fin kept) s) d.1 kept s

/-! ## VQNT and VDQNT (R361, R362) -/

/-- The row selector of VQNT and VDQNT shares imm16 with the source code (R302). -/
def qntRow (o : QntOp) : Option (BitVec 3) := if o.row then some (o.src.truncate 3) else none

/-- The record named by a long instruction does not exist: ACCESS at element 0 (R361). -/
def noRecord (e : QEntry) (i : Nat) (s : State) : LRes :=
  stopAt e 0 (mkFlt cAccess i 4) { noStream with fstream := 1 } s

/-- The anemometer of the hart's die reads a record for a long instruction, or its denial is ACCESS at element 0 (R30, R34). -/
def withRecord (e : QEntry) (i : Nat) (k : State → LRes) (s : State) : LRes :=
  match recAllowed (dieNo s.cur) (me s).part.toNat i false i s with
  | .ok _ s => k s
  | .bad f s => stopAt e 0 f { noStream with fstream := 1 } s
  | .wait s => .block e none s

/-- VQNT against a record: `kept` holds the scale, TE at its read and 1 + the lowest element that overflowed. -/
def perfVqnt (o : QntOp) : Perform := fun e s =>
  let part := (me s).part.toNat
  let r := cg e.ctx o.gb
  let dst := o.dst.toNat
  if !recPresent s part r then noRecord e r s
  else withRecord e r (fun s =>
    let kept := if e.kept.isEmpty then
        [recordScale (seenAbsmax s (dieNo s.cur) part r) dst, bitsOf (recCtl s part r) 12 1, 0]
      else e.kept
    let e := { e with kept := kept }
    keepLoop e [o.va] (fun k i kept s =>
        mbind (srcElem e.ctx o.va (.flt o.src.toNat o.rnd.toNat o.sat) k i s) fun a s =>
          if active (me s) o.mask k i then
            let q := quantize dst o.rnd.toNat (decodeF fp32 (kept.getD 0 0)) (decodeF (f012 (o.src.truncate 2)) a.1)
            let s := addFl (q.2.1 ||| a.2) (setVElem o.vd.toNat k i (bitsFmt dst) q.1 s)
            if q.2.2 && kept.getD 2 0 == 0 then
              mbind (setOvs (dieNo s.cur) part r s) fun _ s => .ok [kept.getD 0 0, kept.getD 1 0, sweepIx e.ctx k i + 1] s
            else .ok kept s
          else .ok kept s)
      (fun kept s =>
        if kept.getD 2 0 ≠ 0 ∧ kept.getD 1 0 = 1 then
          .fault { e with vstart := tileSize e.ctx, kept := [kept.getD 0 0, 0, 0] }
            { flt := rescaleFlt r, lpc := e.ctx.pc, elem := kept.getD 2 0 - 1, stream := 1,
              fs := { noStream with fstream := 1 } } s
        else .done (consume [o.va] s))
      (tileOf e.ctx (rowsOf e.ctx (qntRow o))) kept s) s

/-- VQNT.sc: an explicit scale. A scale that is not finite and positive raises invalid, whatever elements are active. -/
def perfVqntSc (o : QntOp) : Perform := fun e s =>
  let dst := o.dst.toNat
  let sc := decodeF fp32 (cg e.ctx o.gb % 2 ^ 32)
  let bad := match sc with
    | .fin neg m _ => neg || m == 0
    | _ => true
  whenDone (sweepRegs e (qntRow o) [o.va] (fun k i s =>
    mbind (srcElem e.ctx o.va (.flt o.src.toNat o.rnd.toNat o.sat) k i s) fun a s =>
      let q := if bad then (nanCode dst, flInvalid, false)
        else quantize dst o.rnd.toNat sc (decodeF (f012 (o.src.truncate 2)) a.1)
      .ok () (putIf (active (me s) o.mask k i) o.vd k i (bitsFmt dst) (q.1, q.2.1 ||| a.2) s)) s)
    (fun s => if bad then addFl flInvalid s else s)

/-- decode(q) × scale, rounded once (R362). -/
def dequantize (o : QntOp) (scale : Val) (q : Nat) : Nat × Fl :=
  let p := mulV (decodeFmt o.src.toNat q) scale
  finishF (f012 (o.dst.truncate 2)) o.rnd.toNat o.sat (p.1, p.2 ||| flIf scale.isNan flInvalid)

/-- The record's scale for VDQNT is that of R155 for the source format; for a source of which R155 gives no qmax
(INT16, UINT8, UINT4) a non-zero ABSMAX gives a free scale (log 14). -/
def dqntScale (s : State) (part r src : Nat) : Nat :=
  let a := seenAbsmax s (dieNo s.cur) part r
  if a ≠ 0 ∧ (src = 6 ∨ src = 8 ∨ src = 11) then (Config.freeWord s.fresh).toNat % 2 ^ 32 else recordScale a src

/-- VDQNT (R362). -/
def perfVdqnt (sc : Bool) (o : QntOp) : Perform := fun e s =>
  let part := (me s).part.toNat
  let r := cg e.ctx o.gb
  let go (s : State) : LRes :=
    let kept := if !e.kept.isEmpty then e.kept
      else if sc then [r % 2 ^ 32]
      else [dqntScale s part r o.src.toNat]
    let e := { e with kept := kept }
    let s := bump s
    sweepRegs e (qntRow o) [o.va] (fun k i s =>
      mbind (srcElem e.ctx o.va (.flt o.src.toNat o.rnd.toNat o.sat) k i s) fun a s =>
        let q := dequantize o (decodeF fp32 (kept.getD 0 0)) a.1
        .ok () (putIf (active (me s) o.mask k i) o.vd k i (bitsFmt o.dst.toNat) (q.1, q.2 ||| a.2) s)) s
  if sc then go s else if !recPresent s part r then noRecord e r s else withRecord e r go s

def qntCheck (o : QntOp) : Check :=
  widthCheck (bitsFmt o.src.toNat) (bitsFmt o.dst.toNat) o.vd o.va (qntRow o)

def execVqnt (o : QntOp) (s : State) : Out := .next (issueV (qntCheck o) (.vqnt o) (perfVqnt o) s)
def execVqntSc (o : QntOp) (s : State) : Out := .next (issueV (qntCheck o) (.vqntSc o) (perfVqntSc o) s)
def execVdqnt (sc : Bool) (o : QntOp) (s : State) : Out :=
  .next (issueV (qntCheck o) (.vdqnt sc o) (perfVdqnt sc o) s)

/-! ## VLUT (R363) -/

/-- The sum of products of a table entry: eight query elements against one codebook entry of eight FP16 values. -/
def lutSum (rm : Nat) (q : List Val) (entry : List Byte) : Nat × Fl :=
  let xs := (List.range 8).map (fun j => mulV (q.getD j (.zero false)) (decodeF fp16 (ofBytes ((entry.drop (2 * j)).take 2))))
  let r := sumV rm (xs.map (fun p => p.1))
  finishF fp32 rm false (r.1, xs.foldl (fun f p => f ||| p.2) r.2)

/-- The entries of every active element, with the index that a fault names. -/
def lutFill (e : QEntry) (g0 rm : Nat) (cb : Nat) (mask : MaskSel) (q : List Val) (w : Who) :
    List (Nat × Nat) → List (Nat × Nat × Nat × Fl) → State → (Nat × Flt × State) ⊕ (List (Nat × Nat × Nat × Fl) × State) ⊕ State
  | [], acc, s => .inr (.inl (acc, s))
  | (k, i) :: r, acc, s =>
    if !active (me s) mask k i then lutFill e g0 rm cb mask q w r acc s
    else if 15 < g0 + k ∨ 255 < i then lutFill e g0 rm cb mask q w r ((k, i, 0, 0) :: acc) s
    else match vaRead w (wrapTo 64 (cb + 16 * i)) 16 s with
      | .ok bs s =>
        let x := lutSum rm ((q.drop (8 * (g0 + k))).take 8) bs
        lutFill e g0 rm cb mask q w r ((k, i, x.1, x.2) :: acc) s
      | .bad f s => .inl (sweepIx e.ctx k i, f, s)
      | .wait s => .inr (.inr s)

def perfVlut (qf : BitVec 2) (g0 : BitVec 4) (rnd : BitVec 2) (vd va gb : Reg) (mask : MaskSel) : Perform := fun e s =>
  let cb := cg e.ctx gb
  let fs (n : Nat) := nestFs e.ctx (2048 * e.ctx.rc) 2 (mkStream 1 1 0 2 (2048 - 8 * (n % max 1 e.ctx.vl)) false)
  if cb % 64 ≠ 0 then stopAt e 0 (misalignFlt cb 6 false false) (fs 0) s
  else readThen e va (.flt qf.toNat rnd.toNat false) ((List.range 128).map (fun i => (0, i))) (fun xs s =>
    let q := xs.map (fun x => decodeF (f012 qf) x.1)
    match lutFill e g0.toNat rnd.toNat cb mask q (vWho e.ctx s) (tileOf e.ctx (List.range e.ctx.rc)) [] s with
    | .inl (ix, f, s) => .fault { e with vstart := 0 }
        { flt := f, lpc := e.ctx.pc, elem := ix, stream := 1, fs := streamFor f (fs ix) } s
    | .inr (.inr s) => .block e none s
    | .inr (.inl (ys, s)) =>
      let s := addFl (xs.foldl (fun f x => f ||| x.2) 0) s
      .done (ys.foldl (fun s x => addFl x.2.2.2 (setVElem vd.toNat x.1 x.2.1 32 x.2.2.1 s)) s)) s

def execVlut (qf : BitVec 2) (g0 : BitVec 4) (rnd : BitVec 2) (vd va gb : Reg) (mask : MaskSel) (s : State) : Out :=
  .next (issueV { Check.none with width := max 32 (f012Bits qf), dst := [vd], noOverlap := [va] }
    (.vlut qf g0 rnd vd va gb mask) (perfVlut qf g0 rnd vd va gb mask) s)

end Sys2Proof.Machine
end

