-- ==== Sys2Proof/Machine/VecRed.lean ====
section
/-! DEFINITION. Reductions, scans, slides, permutes, compress and top-k (R292, R293, R364 to R369). -/

namespace Sys2Proof.Machine

/-- One application of a reduction's operation (R364). -/
def redApply (op : Nat) (ty : ElemTy) (rm : Nat) (sat : Bool) (a b : Nat) : Nat × Fl :=
  match tyFmt ty with
  | some f =>
    let x := decodeF f a
    let y := decodeF f b
    match op with
    | 0 => faddOp f rm sat x y
    | 1 => fminOp f x y
    | 2 => fmaxOp f x y
    | _ => fmulOp f rm sat x y
  | none =>
    let u := ty.isUns
    let w := tyBits ty
    match op with
    | 0 => intResult u sat w (asInt u w a + asInt u w b)
    | 1 => (minOp u w a b, 0)
    | 2 => (maxOp u w a b, 0)
    | 3 => (a &&& b, 0)
    | 4 => (a ||| b, 0)
    | 5 => (a ^^^ b, 0)
    | _ => intResult u sat w (asInt u w a * asInt u w b)

/-- A level of the tree of R292: neighbours are joined, absent ones contribute nothing. -/
def redLevel (f : Nat → Nat → Nat × Fl) : List (Option Nat) → List (Option Nat) × Fl
  | some a :: some b :: r =>
    let x := f a b
    let t := redLevel f r
    (some x.1 :: t.1, x.2 ||| t.2)
  | none :: b :: r =>
    let t := redLevel f r
    (b :: t.1, t.2)
  | a :: none :: r =>
    let t := redLevel f r
    (a :: t.1, t.2)
  | l => (l, 0)

/-- All levels; `fuel` bounds their number. -/
def redTree (f : Nat → Nat → Nat × Fl) : Nat → List (Option Nat) → Option Nat × Fl
  | 0, _ => (none, 0)
  | n + 1, l =>
    match l with
    | [] => (none, 0)
    | [a] => (a, 0)
    | l =>
      let x := redLevel f l
      let t := redTree f n x.1
      (t.1, x.2 ||| t.2)

/-- The reduction of R292 with seed `sd`. -/
def reduceV (f : Nat → Nat → Nat × Fl) (sd : Nat) (l : List (Option Nat)) : Nat × Fl :=
  match redTree f 32 l with
  | (none, fl) => (sd, fl)
  | (some x, fl) =>
    let r := f sd x
    (r.1, fl ||| r.2)

/-- The elements of a tile or row that a mask selects, with the flags of their bound reads. -/
def leaves (x : Hart) (mask : MaskSel) (at' : List (Nat × Nat)) (xs : List (Nat × Fl)) : List (Option Nat) × Fl :=
  (List.zipWith (fun (p : Nat × Nat) (v : Nat × Fl) => if active x mask p.1 p.2 then some v.1 else none) at' xs,
   (List.zipWith (fun (p : Nat × Nat) (v : Nat × Fl) => if active x mask p.1 p.2 then v.2 else 0) at' xs).foldl
     (fun a b => a ||| b) 0)

def redSeed (e : QEntry) (o : RedOp) : Nat := cg e.ctx o.gb % 2 ^ tyBits o.ty

/-- The tile form's result as it is written to a register: float bits and unsigned integers are zero-extended. -/
def redOut (o : RedOp) (x : Nat) : Nat :=
  if o.ty.isFloat || o.ty.isUns then x else wrapTo 64 (signed (tyBits o.ty) x)

/-- The tile form (R364); its flags are raised when it completes (R349). -/
def redTile (o : RedOp) (fin : QEntry → Nat → State → LRes) : Perform := fun e s =>
  wholeOf e o.va (tyOpd o.ty o.rnd o.sat) (fun xs s =>
    let l := leaves (me s) o.mask (tileOf e.ctx (List.range e.ctx.rc)) xs
    let r := reduceV (redApply o.op.toNat o.ty o.rnd.toNat o.sat) (redSeed e o) l.1
    whenDone (fin e (redOut o r.1) s) (addFl (r.2 ||| l.2))) s

def perfVred (o : RedOp) : Perform := redTile o (fun _ v s => toG o.d v s)
def perfVredQ (o : RedOp) : Perform := redTile o (fun e v s => toQ e (o.d.toNat % 8) v s)

/-- Row `k` of a list of rows of `n` reads. -/
def rowSlice (n k : Nat) (xs : List (Nat × Fl)) : List (Nat × Fl) := (xs.drop (n * k)).take n

def rowAt (c : LCtx) (k : Nat) : List (Nat × Nat) := (List.range c.vl).map (fun i => (k, i))

/-- The row form writes element 0 of each row, active or not, unless VL is 0. -/
def perfVredRow (o : RedOp) : Perform := fun e s =>
  wholeOf e o.va (tyOpd o.ty o.rnd o.sat) (fun xs s =>
    let x := me s
    .done ((List.range e.ctx.rc).foldl (fun s k =>
      if e.ctx.vl = 0 then s
      else
        let l := leaves x o.mask (rowAt e.ctx k) (rowSlice e.ctx.vl k xs)
        let r := reduceV (redApply o.op.toNat o.ty o.rnd.toNat o.sat) (redSeed e o) l.1
        addFl (r.2 ||| l.2) (setVElem o.d.toNat k 0 (tyBits o.ty) r.1 s)) s)) s

/-- The running values of a scan over one row: what each active element receives (R293, R365). -/
def scanRow (f : Nat → Nat → Nat × Fl) (excl : Bool) : Nat → List (Option Nat) → List (Option Nat) × Fl
  | _, [] => ([], 0)
  | p, none :: r =>
    let t := scanRow f excl p r
    (none :: t.1, t.2)
  | p, some x :: r =>
    let y := f p x
    let t := scanRow f excl y.1 r
    (some (if excl then p else y.1) :: t.1, y.2 ||| t.2)

/-- Write the present values of a row at its elements. -/
def putRowVals (vd k w : Nat) : Nat → List (Option Nat) → State → State
  | _, [], s => s
  | i, none :: r, s => putRowVals vd k w (i + 1) r s
  | i, some x :: r, s => putRowVals vd k w (i + 1) r (setVElem vd k i w x s)

def perfVscan (excl : Bool) (o : RedOp) : Perform := fun e s =>
  wholeOf e o.va (tyOpd o.ty o.rnd o.sat) (fun xs s =>
    let x := me s
    .done ((List.range e.ctx.rc).foldl (fun s k =>
      let l := leaves x o.mask (rowAt e.ctx k) (rowSlice e.ctx.vl k xs)
      let r := scanRow (redApply o.op.toNat o.ty o.rnd.toNat o.sat) excl (redSeed e o) l.1
      addFl (r.2 ||| l.2) (putRowVals o.d.toNat k (tyBits o.ty) 0 r.1 s)) s)) s

/-! ## Rearrangements -/

/-- Each active element of each row receives `val k i` of the source's reads, or keeps its value. -/
def rearrange (ew : BitVec 2) (vd va : Reg) (mask : MaskSel)
    (val : LCtx → Hart → (Nat → Nat → Nat) → Nat → Nat → Option Nat) : Perform := fun e s =>
  wholeOf e va (.raw (ewBits ew)) (fun xs s =>
    let x := me s
    let get (k i : Nat) : Nat := (xs.getD (k * e.ctx.vl + i) (0, 0)).1
    .done ((tileOf e.ctx (List.range e.ctx.rc)).foldl (fun s p =>
      if active x mask p.1 p.2 then
        match val e.ctx x get p.1 p.2 with
        | some v => setVElem vd.toNat p.1 p.2 (ewBits ew) v s
        | none => s
      else s) s)) s

def slideBy (c : LCtx) : SlideAmt → Nat
  | .g r => cg c r
  | .imm i => i.toNat

def perfVslideUp (amt : SlideAmt) (ew : BitVec 2) (vd va : Reg) (mask : MaskSel) : Perform :=
  rearrange ew vd va mask (fun c _ get k i =>
    let d := slideBy c amt
    if d ≤ i then some (get k (i - d)) else none)

def perfVslideDn (amt : SlideAmt) (ew : BitVec 2) (vd va : Reg) (mask : MaskSel) : Perform :=
  rearrange ew vd va mask (fun c _ get k i =>
    let d := slideBy c amt
    some (if i + d < c.vl then get k (i + d) else 0))

/-- The permute's value: row form, or the element at a sweep index (R367). -/
def permVal (tile : Bool) (c : LCtx) (get : Nat → Nat → Nat) (k ix : Nat) : Nat :=
  if tile then (if ix < c.rc * c.vl then get (ix / c.vl) (ix % c.vl) else 0)
  else if ix < c.vl then get k ix else 0

/-- VPERM's reads: of each row its indices, then its source. `acc` holds the reads made so far, in order. -/
def permRows (e : QEntry) (ew : BitVec 2) (va vb : Reg) (fin : List (Nat × Fl) → State → LRes) :
    List Nat → List (Nat × Fl) → State → LRes
  | [], acc, s => fin acc s
  | k :: rest, acc, s =>
    let row := rowAt e.ctx k
    let all := tileOf e.ctx (List.range e.ctx.rc)
    let before := 2 * e.ctx.vl * k
    gatherElems e vb (.int true 0 16) all (fun acc s =>
      gatherElems e va (.raw (ewBits ew)) all (fun acc s => permRows e ew va vb fin rest acc s)
        (row.drop (acc.length - before - e.ctx.vl)) acc.reverse s)
      (row.drop (acc.length - before)) acc.reverse s

/-- The rows that the binding in progress reads, and those that it leaves (R205, R217). -/
def permDue (c : LCtx) (reads : Nat) : List Nat × List Nat :=
  let l := (List.range c.rc).filter (fun k => decide (reads < 2 * c.vl * (k + 1)))
  if c.upto ≠ 0 then l.span (fun k => decide ((k + 1) * c.vl ≤ c.upto))
  else if c.byRow then (l.take 1, l.drop 1)
  else (l, [])

/-- VPERM (R367). With one bound register in both fields, the second field has the values that the first one read (R107). -/
def perfVperm (tile : Bool) (ew : BitVec 2) (vd va vb : Reg) (mask : MaskSel) : Perform := fun e s =>
  let c := e.ctx
  let xs := unpackReads e.kept
  let d := permDue c xs.length
  permRows e ew va vb (fun xs s =>
    if d.2.isEmpty then
      let x := me s
      let get (k i : Nat) : Nat := (xs.getD (2 * c.vl * k + c.vl + i) (0, 0)).1
      .done (consume [va, vb] ((tileOf c (List.range c.rc)).foldl (fun s p =>
        if active x mask p.1 p.2 then
          setVElem vd.toNat p.1 p.2 (ewBits ew)
            (permVal tile c get p.1 (xs.getD (2 * c.vl * p.1 + p.2) (0, 0)).1) s
        else s) s))
    else .block { e.yielded with kept := packReads xs } none s) d.1 xs s

/-- VCOMP (R368): the active elements of each row, in order. -/
def perfVcomp (ew : BitVec 2) (vd va : Reg) (mask : MaskSel) : Perform := fun e s =>
  wholeOf e va (.raw (ewBits ew)) (fun xs s =>
    let x := me s
    .done ((List.range e.ctx.rc).foldl (fun s k =>
      let l := (leaves x mask (rowAt e.ctx k) (rowSlice e.ctx.vl k xs)).1
      putRowVals vd.toNat k (ewBits ew) 0 (l.filter (fun v => v.isSome)) s) s)) s

/-! ## VTOPK (R369) -/

/-- Whether key a at element i comes before key b at element j. -/
def topkBefore (ty : ElemTy) (a : Nat × Nat) (b : Nat × Nat) : Bool :=
  match tyFmt ty with
  | some f =>
    let x := decodeF f a.2
    let y := decodeF f b.2
    if x.isNan then y.isNan && decide (b.1 < a.1)
    else if y.isNan then true
    else if ltV y x then true
    else !ltV x y && decide (b.1 < a.1)
  | none =>
    let x := asInt ty.isUns (tyBits ty) a.2
    let y := asInt ty.isUns (tyBits ty) b.2
    decide (y < x) || (x == y && decide (b.1 < a.1))

def topkInsert (ty : ElemTy) (x : Nat × Nat) : List (Nat × Nat) → List (Nat × Nat)
  | [] => [x]
  | y :: r => if topkBefore ty x y then x :: y :: r else y :: topkInsert ty x r

/-- The first `k` keys of a row, element and key, in order. -/
def topkRow (ty : ElemTy) (k : Nat) (l : List (Option Nat)) : List (Nat × Nat) :=
  let keys := (List.zip (List.range l.length) l).filterMap (fun p => p.2.map (fun v => (p.1, v)))
  (keys.foldl (fun acc x => (topkInsert ty x acc).take k) []).take k

/-- A key as an instruction delivers it, and the flag of reading it: a NaN is the canonical one, and a signalling NaN is
invalid (R280). -/
def topkKey (ty : ElemTy) (v : Nat) : Nat × Fl :=
  match tyFmt ty with
  | some f => let x := decodeF f v
    (if x.isNan then (roundV f 0 false x).1 else v, sigFl x)
  | none => (v, 0)

/-- One row's result written by `put`. -/
def topkWith (o : TopkOp) (put : LCtx → Nat → Nat → List (Nat × Nat) → State → State) : Perform := fun e s =>
  wholeOf e o.va (tyOpd o.ty o.rnd false) (fun xs s =>
    let x := me s
    let n := cg e.ctx o.gb
    .done ((List.range e.ctx.rc).foldl (fun s k =>
      let l := leaves x o.mask (rowAt e.ctx k) (rowSlice e.ctx.vl k xs)
      let fl := l.1.foldl (fun fl v => fl ||| (v.elim 0 (fun v => (topkKey o.ty v).2))) l.2
      put e.ctx n k (topkRow o.ty (min n e.ctx.vl) l.1) (addFl fl s)) s)) s

def perfVtopkIdx (o : TopkOp) : Perform :=
  topkWith o (fun c n k top s =>
    putRowVals o.d.toNat k 32 0
      (top.map (fun p => some p.1) ++ List.replicate (min n c.vl - top.length) (some 0xFFFFFFFF)) s)

def perfVtopkKey (o : TopkOp) : Perform :=
  topkWith o (fun _ _ k top s => putRowVals o.d.toNat k (tyBits o.ty) 0 (top.map (fun p => some (topkKey o.ty p.2).1)) s)

def perfVtopkMask (o : TopkOp) : Perform :=
  topkWith o (fun c _ k top s =>
    (List.range c.vl).foldl (fun s i => setMBit (o.d.toNat % 8) k i (top.any (fun p => p.1 == i)) s) s)

/-! ## exec -/

def redCheck (o : RedOp) (dst : List Reg) : Check :=
  { Check.none with width := tyBits o.ty, dst := dst, noOverlap := [o.va] }

def rearrCheck (ew : BitVec 2) (vd : Reg) (srcs : List Reg) : Check :=
  { Check.none with width := ewBits ew, dst := [vd], noOverlap := srcs }

def execVred (o : RedOp) (s : State) : Out := .next (issueV (redCheck o []) (.vred o) (perfVred o) s)
def execVredRow (o : RedOp) (s : State) : Out := .next (issueV (redCheck o [o.d]) (.vredRow o) (perfVredRow o) s)
def execVredQ (o : RedOp) (s : State) : Out := .next (issueV (redCheck o []) (.vredQ o) (perfVredQ o) s)
def execVscan (excl : Bool) (o : RedOp) (s : State) : Out :=
  .next (issueV (redCheck o [o.d]) (.vscan excl o) (perfVscan excl o) s)
def execVslideUp (amt : SlideAmt) (ew : BitVec 2) (vd va : Reg) (mask : MaskSel) (s : State) : Out :=
  .next (issueV (rearrCheck ew vd [va]) (.vslideUp amt ew vd va mask) (perfVslideUp amt ew vd va mask) s)
def execVslideDn (amt : SlideAmt) (ew : BitVec 2) (vd va : Reg) (mask : MaskSel) (s : State) : Out :=
  .next (issueV (rearrCheck ew vd [va]) (.vslideDn amt ew vd va mask) (perfVslideDn amt ew vd va mask) s)
def execVperm (tile : Bool) (ew : BitVec 2) (vd va vb : Reg) (mask : MaskSel) (s : State) : Out :=
  .next (issueV { rearrCheck ew vd [va, vb] with width := max 16 (ewBits ew) } (.vperm tile ew vd va vb mask)
    (perfVperm tile ew vd va vb mask) s)
def execVcomp (ew : BitVec 2) (vd va : Reg) (mask : MaskSel) (s : State) : Out :=
  .next (issueV (rearrCheck ew vd [va]) (.vcomp ew vd va mask) (perfVcomp ew vd va mask) s)
def execVtopkIdx (o : TopkOp) (s : State) : Out :=
  .next (issueV { Check.none with width := max 32 (tyBits o.ty), dst := [o.d], noOverlap := [o.va] } (.vtopkIdx o)
    (perfVtopkIdx o) s)
def execVtopkKey (o : TopkOp) (s : State) : Out :=
  .next (issueV { Check.none with width := tyBits o.ty, dst := [o.d], noOverlap := [o.va] } (.vtopkKey o)
    (perfVtopkKey o) s)
/-- A mask destination that is the governing mask is an overlap, m0 too (R349). -/
def execVtopkMask (o : TopkOp) (s : State) : Out :=
  .next (issueV { Check.none with width := tyBits o.ty, maskClash := o.mask.m.toNat == o.d.toNat % 8 }
    (.vtopkMask o) (perfVtopkMask o) s)

end Sys2Proof.Machine
end

