-- ==== Sys2Proof/Machine/VecMem.lean ====
section
/-! DEFINITION. Vector loads, stores, gathers, scatters and atomics, VWAIT, and the binding of registers to streams
(R105, R106, R181 to R183, R350, R370 to R374). -/

namespace Sys2Proof.Machine

/-! ## Sequences of accesses -/

/-- The fields of R436 for an element access of stream V. -/
def elemStream (c : LCtx) (log fkind : Nat) (stride : Int) (remain : Nat) (ix : Nat) : FaultStream :=
  nestStream 1 c log fkind stride remain ix

/-- MISALIGN of an element, when its address is not a multiple of its width (R350). -/
def aligned (a log : Nat) (wr atom : Bool) (s : State) : MR Unit :=
  if a % 2 ^ log ≠ 0 then .bad (misalignFlt a log wr atom) s else .ok () s

/-- The sources of an element: those already read for an access that waits (R162), or read now. -/
def readOnce (e : QEntry) (ix : Nat) (read : State → MR (List (Nat × Fl))) (s : State) : MR (List (Nat × Fl)) :=
  if ix = e.vstart ∧ !e.got.isEmpty then .ok (unpackReads e.got) s else read s

/-- The elements of a memory instruction: `read` takes the elements of registers that may be bound, `act` performs the access
and carries what the frame keeps. -/
def memRun (e : QEntry) (srcs : List Reg) (all : List (Nat × Nat)) (read : Nat → Nat → State → MR (List (Nat × Fl)))
    (act : Nat → Nat → List (Nat × Fl) → List Nat → State → MR (List Nat)) (fs : Nat → Nat → FaultStream)
    (fin : List Nat → State → LRes) : List (Nat × Nat) → List Nat → State → LRes
  | [], kept, s => fin kept s
  | (k, i) :: rest, kept, s =>
    let ix := sweepIx e.ctx k i
    if ix < e.vstart then memRun e srcs all read act fs fin rest kept s
    else match readOnce e ix (read k i) s with
      | .bad f s => stopAt { e with kept := kept, got := [] } ix f (bindStream s srcs e.ctx all (fromIx e.ctx ix all) f) s
      | .wait s => .block { e with vstart := ix, kept := kept, got := [] } (bindHang e srcs ix s) s
      | .ok xs s =>
        match act k i xs kept s with
        | .ok kept s => memRun e srcs all read act fs fin rest kept s
        | .bad f s => stopAt { e with kept := kept, got := [] } ix f (fs k i) s
        | .wait s => .block { e with vstart := ix, kept := kept, got := packReads xs } none s

/-- The element loop of a memory instruction, as far as the binding in progress goes. -/
def memLoop (e : QEntry) (srcs : List Reg) (read : Nat → Nat → State → MR (List (Nat × Fl)))
    (act : Nat → Nat → List (Nat × Fl) → List Nat → State → MR (List Nat)) (fs : Nat → Nat → FaultStream)
    (l : List (Nat × Nat)) (kept : List Nat) (s : State) : LRes :=
  let d := due e.ctx e.vstart l
  memRun e srcs l read act fs
    (fun kept s => endBind { e with kept := kept, got := [] } d.2 (fun s => .done (consume srcs s)) s) d.1 kept s

/-! ## The lines of a scatter or an atomic (R172) -/

/-- The place of an address, for a look that leaves no trace. -/
def peekLoc (w : Who) (va : Nat) (kind : AccKind) (s : State) : Option Loc :=
  match translate w va kind s with
  | .ok l _ => some l
  | _ => none

/-- A line that its home keeps in a directory: tier 1, tier 2, and the CXL window without FRO (R172). -/
def inDirectory (s : State) (l : Loc) : Bool := l.pkg == s.pkg && (decide (l.target ≤ 1) || (l.target == 3 && !l.fro))

/-- The lines of accesses of `n` bytes that are still to be made. -/
def linesOf (w : Who) (kind : AccKind) (n : Nat) (vas : List Nat) (s : State) : List Owned :=
  vas.filterMap (fun va => match peekLoc w va kind s with
    | some l => if inDirectory s l then
        some { lo := l.global / 256, hi := (l.global + n - 1) / 256 + 1, owner := w.agentOf, hart := w.hart,
               since := min w.taken (s.ticks + 1), recalled := false }
      else none
    | none => none)

/-- An engine owns the lines that it has still to write while its instruction is in progress, and none afterwards (R172). -/
def withLines (w : Who) (n : Nat) (left : QEntry → State → List Nat) : LRes → LRes
  | .done s => .done (if s.owned.isEmpty then s else setOwned w.agentOf w.hart [] s)
  | .fault e p s => .fault e p (if s.owned.isEmpty then s else setOwned w.agentOf w.hart [] s)
  | .block e why s => .block e why (setOwned w.agentOf w.hart (linesOf w .write n (left e s) s) s)

/-- The party of an indexed access: the gather path of the core. -/
def gatherWho (c : LCtx) (s : State) : Who := { vWho c s with agent := gatherAgent (coreNo s.cur), taken := takenBy s (gatherAgent (coreNo s.cur)) s.cur }

/-- Read elements of several source registers. -/
def readSrcs (c : LCtx) (k i : Nat) : List (Reg × Opd) → State → MR (List (Nat × Fl))
  | [], s => .ok [] s
  | (v, o) :: r, s =>
    mbind (srcElem c v o k i s) fun x s => mbind (readSrcs c k i r s) fun t s => .ok (x :: t) s

/-! ## VLD and VST (R370) -/

/-- The row selector of a memory instruction shares imm16 with the offset (R302). -/
def memRow (off : Nat) (row : Bool) : Option (BitVec 3) := if row then some (BitVec.ofNat 3 off) else none

/-- The address of element (k, e), moved by a replay. -/
def vmemAddr (o : VMemOp) (c : LCtx) (k i : Nat) : Nat :=
  let w : Int := ewBytes o.ew
  let base : Int := cg c o.ga + o.off.toInt + c.move
  wrapTo 64 (match o.form with
    | .unit => base + sweepIx c k i * w
    | .strided g => base + sweepIx c k i * signed 64 (cg c g)
    | .rows g => base + k * signed 64 (cg c g) + i * w)

def vmemStream (o : VMemOp) (c : LCtx) (k i : Nat) : FaultStream :=
  let w : Int := ewBytes o.ew
  let log := o.ew.toNat
  let ix := sweepIx c k i
  match o.form with
  | .unit => elemStream c log 0 w (tileSize c - ix) ix
  | .strided g => elemStream c log 1 (signed 64 (cg c g)) (tileSize c - ix) ix
  | .rows _ => elemStream c log 0 w (c.vl - i) ix

def perfVld (o : VMemOp) : Perform := fun e s =>
  let c := e.ctx
  entered 1 <| memLoop e [] (fun _ _ s => .ok [] s) (fun k i _ kept s =>
      if active (me s) o.mask k i then
        let a := vmemAddr o c k i
        mbind (aligned a o.ew.toNat false false s) fun _ s =>
          mbind (vaReadNum { vWho c s with hold := 1 } a (ewBytes o.ew) s) fun x s =>
            .ok kept (setVElem o.v.toNat k i (ewBits o.ew) x s)
      else .ok kept s)
    (vmemStream o c) (tileOf c (rowsOf c (memRow o.off.toNat o.row))) [] s

/-- Each element is a write of its own: one narrower than the element of a record that tracks it sets PART and folds
nothing (R150; the model's choice, log 57). -/
def perfVst (o : VMemOp) : Perform := fun e s =>
  let c := e.ctx
  entered 1 <| memLoop e [o.v] (fun k i s => readSrcs c k i [(o.v, .raw (ewBits o.ew))] s) (fun k i xs kept s =>
      if active (me s) o.mask k i then
        let a := vmemAddr o c k i
        mbind (aligned a o.ew.toNat true false s) fun _ s =>
          mbind (vaWrite { vWho c s with hold := 1 } a (toBytes (ewBytes o.ew) (xs.getD 0 (0, 0)).1) s) fun _ s => .ok kept s
      else .ok kept s)
    (vmemStream o c) (tileOf c (rowsOf c (memRow o.off.toNat o.row))) [] s

/-! ## VLDX and VSTX (R371, R182) -/

/-- Base, offset and a scaled signed 32-bit index. -/
def idxAddr (c : LCtx) (ga : Reg) (off : Int) (w : Nat) (x : Nat) : Nat :=
  wrapTo 64 (cg c ga + off + c.move + (w : Int) * signed 32 x)

def idxStream (c : LCtx) (ew : BitVec 2) (k i : Nat) : FaultStream :=
  let ix := sweepIx c k i
  elemStream c ew.toNat 2 0 (tileSize c - ix) ix

def perfVldx (o : VIdxOp) : Perform := fun e s =>
  let c := e.ctx
  memLoop e [o.vx] (fun k i s => readSrcs c k i [(o.vx, .int false 0 32)] s) (fun k i xs kept s =>
      if active (me s) o.mask k i then
        let a := idxAddr c o.ga o.off.toInt (ewBytes o.ew) (xs.getD 0 (0, 0)).1
        mbind (aligned a o.ew.toNat false false s) fun _ s =>
          mbind (vaReadNum (gatherWho c s) a (ewBytes o.ew) s) fun x s =>
            .ok kept (setVElem o.v.toNat k i (ewBits o.ew) x s)
      else .ok kept s)
    (idxStream c o.ew) (tileOf c (rowsOf c (memRow o.off.toNat o.row))) [] s

/-- The addresses that a scatter or an atomic has still to reach, as far as its indices are known. -/
def idxLeft (vx ga : Reg) (off : Int) (w : Nat) (mask : MaskSel) (l : List (Nat × Nat)) (e : QEntry) (s : State) : List Nat :=
  let c := e.ctx
  let x := me s
  (fromIx c e.vstart l).filterMap (fun p =>
    if !active x mask p.1 p.2 then none
    else if sweepIx c p.1 p.2 = e.vstart ∧ !e.got.isEmpty then
      some (idxAddr c ga off w ((unpackReads e.got).getD 0 (0, 0)).1)
    else if isBound x vx.toNat then none
    else some (idxAddr c ga off w (vElem x vx.toNat p.1 p.2 32)))

/-- A scatter in element order: a later duplicate overwrites an earlier one when `wins` says so; one that loses is
overwritten at once, and folds all the same (R150). `kept` holds the addresses written. -/
def scatter (o : VIdxOp) (wins : State → Bool) : Perform := fun e s =>
  let c := e.ctx
  let l := tileOf c (rowsOf c (memRow o.off.toNat o.row))
  withLines (gatherWho c s) (ewBytes o.ew) (idxLeft o.vx o.ga o.off.toInt (ewBytes o.ew) o.mask l) <| memLoop e [o.vx, o.v]
    (fun k i s => readSrcs c k i [(o.vx, .int false 0 32), (o.v, .raw (ewBits o.ew))] s)
    (fun k i xs kept s =>
      if active (me s) o.mask k i then
        let a := idxAddr c o.ga o.off.toInt (ewBytes o.ew) (xs.getD 0 (0, 0)).1
        mbind (aligned a o.ew.toNat true false s) fun _ s =>
          let put := if kept.contains a && !wins s then vaPassWrite else vaWrite
          mbind (put (gatherWho c s) a (toBytes (ewBytes o.ew) (xs.getD 1 (0, 0)).1) s) fun _ s =>
            .ok (if kept.contains a then kept else a :: kept) (bump s)
      else .ok kept s)
    (idxStream c o.ew) l e.kept s

/-- The highest duplicate survives. -/
def perfVstxOrd (o : VIdxOp) : Perform := scatter o (fun _ => true)
/-- One duplicate survives, which one is free (log 2). -/
def perfVstxAny (o : VIdxOp) : Perform := scatter o (fun s => Config.pickAny s.fresh % 2 == 1)

/-! ## VAMO (R372, R175 to R178) -/

/-- The new value of a vector atomic and its flags. -/
def vamoOp (o : VAmoOp) (old y : Nat) : Nat × Fl :=
  let w := tyBits o.ty
  let u := o.ty.isUns
  if o.ty.isFloat then
    let a := decodeF fp32 old
    let b := decodeF fp32 y
    match o.op.toNat with
    | 0 => (y, 0)
    | 1 => faddOp fp32 o.rnd.toNat false a b
    | 5 => fminOp fp32 a b
    | _ => fmaxOp fp32 a b
  else
    match o.op.toNat with
    | 0 => (y, 0)
    | 1 => ((old + y) % 2 ^ w, 0)
    | 2 => (old &&& y, 0)
    | 3 => (old ||| y, 0)
    | 4 => (old ^^^ y, 0)
    | 5 => (minOp u w old y, 0)
    | _ => (maxOp u w old y, 0)

/-- Elements are applied in increasing order, each returning the value before it (R176, R177). -/
def perfVamo (o : VAmoOp) : Perform := fun e s =>
  let c := e.ctx
  let n := ewBytes o.ty.ew
  let l := tileOf c (rowsOf c (memRow o.off.toNat o.row))
  withLines (gatherWho c s) n (idxLeft o.vx o.ga o.off.toInt n o.mask l) <| memLoop e [o.vx, o.vc]
    (fun k i s => readSrcs c k i [(o.vx, .int false 0 32), (o.vc, tyOpd o.ty o.rnd false)] s)
    (fun k i xs kept s =>
      if active (me s) o.mask k i then
        let a := idxAddr c o.ga o.off.toInt n (xs.getD 0 (0, 0)).1
        let y := xs.getD 1 (0, 0)
        mbind (aligned a o.ty.ew.toNat true true s) fun _ s =>
          mbind (vaAtomic (gatherWho c s) a n (fun old => some (vamoOp o old y.1).1) s) fun old s =>
            .ok kept (addFl ((vamoOp o old y.1).2 ||| y.2) (setVElem o.vd.toNat k i (tyBits o.ty) old s))
      else .ok kept s)
    (idxStream c o.ty.ew) l [] s

def vmemCheck (o : VMemOp) (dst : List Reg) : Check :=
  { Check.none with width := ewBits o.ew, dst := dst, row := memRow o.off.toNat o.row }
def vidxCheck (o : VIdxOp) (dst : List Reg) : Check :=
  { Check.none with width := max 32 (ewBits o.ew), dst := dst, row := memRow o.off.toNat o.row,
                    noOverlap := if o.ew = 2 then [] else [o.vx] }

def execVld (o : VMemOp) (s : State) : Out := .next (issueV (vmemCheck o [o.v]) (.vld o) (perfVld o) s)
def execVst (o : VMemOp) (s : State) : Out := .next (issueV (vmemCheck o []) (.vst o) (perfVst o) s)
def execVldx (o : VIdxOp) (s : State) : Out := .next (issueV (vidxCheck o [o.v]) (.vldx o) (perfVldx o) s)
def execVstxOrd (o : VIdxOp) (s : State) : Out := .next (issueV (vidxCheck o []) (.vstxOrd o) (perfVstxOrd o) s)
def execVstxAny (o : VIdxOp) (s : State) : Out := .next (issueV (vidxCheck o []) (.vstxAny o) (perfVstxAny o) s)
def execVamo (o : VAmoOp) (s : State) : Out :=
  .next (issueV { Check.none with width := max 32 (tyBits o.ty), dst := [o.vd], noOverlap := [o.vx, o.vc],
                                  row := memRow o.off.toNat o.row } (.vamo o) (perfVamo o) s)

/-! ## VWAIT (R181, R373) -/

def waitCond (cond w x y : Nat) : Bool :=
  match cond with
  | 0 => x == y
  | 1 => x != y
  | 2 => decide (signed w x < signed w y)
  | 3 => decide (signed w y ≤ signed w x)
  | 4 => decide (x < y)
  | _ => decide (y ≤ x)

/-- The elements a VWAIT reads: sweep index and address; `idx` holds the indices of the third form. -/
def waitElems (ew : BitVec 2) (ga : Reg) (form : WaitForm) (mask : MaskSel) (c : LCtx) (x : Hart) (idx : List (Nat × Fl)) :
    List (Nat × Nat) :=
  let w := ewBytes ew
  let base := cg c ga
  let act := (tileOf c (List.range c.rc)).filter (fun p => active x mask p.1 p.2)
  match form with
  | .single => [(0, base)]
  | .seq => act.map (fun p => (sweepIx c p.1 p.2, wrapTo 64 (base + sweepIx c p.1 p.2 * w)))
  | .idx _ => act.map (fun p =>
      (sweepIx c p.1 p.2, idxAddr { c with move := 0 } ga 0 w (idx.getD (sweepIx c p.1 p.2) (0, 0)).1))

/-- One read of every element not yet satisfied; `kept` lists 1 + the satisfied ones' sweep indices. -/
def waitPass (e : QEntry) (cond : Nat) (ew : BitVec 2) (want : Nat) (fs : Nat → FaultStream) :
    List (Nat × Nat) → List Nat → Option (Nat × Nat) → State → LRes
  | [], _, none, s => .done s
  | [], kept, some (ix, a), s =>
    .block { e with kept := kept }
      (some { flt := mkFlt cQueuehang a (5 + 256 * 1), lpc := e.ctx.pc, elem := ix, stream := 1,
              fs := { noStream with fstream := 1 } }) s
  | (ix, a) :: r, kept, first, s =>
    if kept.contains (ix + 1) then waitPass e cond ew want fs r kept first s
    else
      match mbind (aligned a ew.toNat false false s) (fun _ s => vaReadNum (vWho e.ctx s) a (ewBytes ew) s) with
      | .ok x s =>
        if waitCond cond (ewBits ew) x want then waitPass e cond ew want fs r ((ix + 1) :: kept) first s
        else waitPass e cond ew want fs r kept (match first with
          | none => some (ix, a)
          | some p => some p) s
      | .bad f s => stopAt { e with kept := kept } ix f (fs ix) s
      | .wait s => .block { e with kept := kept } none s

def waitStream (ew : BitVec 2) (form : WaitForm) (c : LCtx) (ix : Nat) : FaultStream :=
  match form with
  | .single => mkStream 1 ew.toNat 0 0 1 false
  | .seq => mkStream 1 ew.toNat 0 (ewBytes ew) (tileSize c - ix) false
  | .idx _ => mkStream 1 ew.toNat 2 0 (tileSize c - ix) false

/-- What a VWAIT keeps: the index reads, then the satisfied elements. -/
def behind (xs : List (Nat × Fl)) : LRes → LRes
  | .done s => .done s
  | .block e why s => .block { e with kept := packReads xs ++ e.kept } why s
  | .fault e p s => .fault { e with kept := packReads xs ++ e.kept } p s

def waitRun (e : QEntry) (cond : BitVec 3) (ew : BitVec 2) (ga gc : Reg) (form : WaitForm) (mask : MaskSel)
    (xs : List (Nat × Fl)) (sat : List Nat) (s : State) : LRes :=
  behind xs (waitPass e cond.toNat ew (cg e.ctx gc % 2 ^ ewBits ew) (waitStream ew form e.ctx)
    (waitElems ew ga form mask e.ctx (me s) xs) sat none s)

def perfVwait (cond : BitVec 3) (ew : BitVec 2) (ga gc : Reg) (form : WaitForm) (mask : MaskSel) : Perform := fun e s =>
  match form with
  | .idx vx =>
    let n := tileSize e.ctx
    if e.kept.length < 2 * n then
      let xs := unpackReads e.kept
      gatherElems e vx (.int false 0 32) (tileOf e.ctx (List.range e.ctx.rc)) (fun xs s => waitRun e cond ew ga gc form mask xs [] (consume [vx] s))
        ((tileOf e.ctx (List.range e.ctx.rc)).drop xs.length) xs.reverse s
    else waitRun e cond ew ga gc form mask (unpackReads (e.kept.take (2 * n))) (e.kept.drop (2 * n)) s
  | _ => waitRun e cond ew ga gc form mask [] e.kept s

/-- A pre-empted VWAIT reads every active element again when it resumes (R181). -/
def rearmWait (e : QEntry) : QEntry :=
  match e.instr with
  | .vwait _ _ _ _ (.idx _) _ => { e with kept := e.kept.take (2 * tileSize e.ctx) }
  | .vwait .. => { e with kept := [] }
  | _ => e

def waitCheck (ew : BitVec 2) (form : WaitForm) : Check :=
  match form with
  | .single => Check.none
  | .seq => { Check.none with width := ewBits ew }
  | .idx _ => { Check.none with width := max 32 (ewBits ew) }

def execVwait (cond : BitVec 3) (ew : BitVec 2) (ga gc : Reg) (form : WaitForm) (mask : MaskSel) (s : State) : Out :=
  .next (issueV (waitCheck ew form) (.vwait cond ew ga gc form mask) (perfVwait cond ew ga gc form mask) s)

/-- Perform `f` as hart `h`. -/
def asHart (h : Nat) (f : State → State) (s : State) : State := { f { s with cur := h } with cur := s.cur }

/-- VWAIT_POLL: a hart whose queue head is a VWAIT reads the elements not yet satisfied. -/
def execVwaitPoll (h : Nat) (s : State) : Out :=
  .next (asHart h (fun s =>
    match (me s).pend, (me s).vq with
    | none, e :: rest =>
      (match e.instr with
       | .vwait cond ew ga gc form mask => afterV (perfVwait cond ew ga gc form mask e s) rest
       | _ => s)
    | _, _ => s) s)

/-! ## Bindings (R105, R106, R374) -/

/-- The reason for which a binding record is refused, none when it is accepted. -/
def bindBad (b : Binding) : Bool :=
  decide (13 < b.fmt) || (b.grp == 0 && (b.fmt == 9 || b.fmt == 12)) ||
  (b.grp != 0 && b.fmt != 9 && b.fmt != 12 && b.fmt != 13) || (b.fmt == 13 && b.grp != 3) || b.strip == 0 ||
  bitsOf b.ctl.toNat 11 5 != 0 || (b.ring && !b.ctl.getLsbD 8)

/-- The rows of a register that holds no defined value (R108): free values by the counter. -/
def freeRows (v n : Nat) (x : Hart) : Hart :=
  (List.range 8).foldl (fun x k => putRow v k (Config.freeRow (n + k)) x) x

/-- A register's binding ends; it holds no defined value until it is written. -/
def endBinding (v : Nat) (s : State) : State :=
  if isBound (me s) v then
    let n := s.fresh
    let slot := ((bindingOf (me s) v).map (fun p => p.1)).getD 0
    let s := letGo s.cur (fun k => k / 4 == 2 + slot)
      (modMe (fun x => freeRows v n { x with r := { x.r with binds := x.r.binds.filter (fun p => p.2.reg != v) } }) s)
    { s with fresh := n + 8 }
  else s

/-- The binding in a slot ends. -/
def freeSlot (slot : Nat) (s : State) : State :=
  match (me s).r.binds.find? (fun p => p.1 == slot) with
  | some p => endBinding p.2.reg s
  | none => s

def noBinding : Binding := { reg := 0, src := 0, scale := 0, zp := 0, ctl := 0, reads := 0, pulled := 0, buf := [] }

def bindRecStream (n : Nat) (c : LCtx) : FaultStream := mkStream 5 0 0 1 n c.inNest

def perfVbind (vd ga : Reg) (slot : BitVec 2) : Perform := fun e s =>
  let a := cg e.ctx ga
  if a % 32 ≠ 0 then stopAt e 0 (misalignFlt a 5 false false) (bindRecStream 32 e.ctx) s
  else match vaRead (hartWho s s.cur 5 e.ctx.handler) a 32 s with
    | .bad f s => stopAt e 0 f (bindRecStream 32 e.ctx) s
    | .wait s => .block e none s
    | .ok bs s =>
      let word (i : Nat) : Word := BitVec.ofNat 64 (ofBytes ((bs.drop (8 * i)).take 8))
      let b : Binding := { reg := vd.toNat, src := word 0, scale := word 1, zp := word 2, ctl := word 3, reads := 0,
                           pulled := 0, buf := [] }
      if bindBad b then stopAt e 0 (streamFlt 3) { noStream with fstream := 5 } s
      else
        let s := endBinding vd.toNat (freeSlot slot.toNat s)
        .done (modMe (fun x => { x with r := { x.r with binds := cset noBinding slot.toNat b x.r.binds } }) s)

def perfVunbind (vd : Reg) : Perform := fun _ s => .done (endBinding vd.toNat s)

def execVbind (vd ga : Reg) (slot : BitVec 2) (s : State) : Out :=
  .next (issueV Check.none (.vbind vd ga slot) (perfVbind vd ga slot) s)
def execVunbind (vd : Reg) (s : State) : Out := .next (issueV Check.none (.vunbind vd) (perfVunbind vd) s)

end Sys2Proof.Machine
end

