-- ==== Sys2Proof/Machine/VecLoop.lean ====
section
/-! DEFINITION. Nest registers, loop capture and replay (R375 to R378, R218), and convoy headers (R304 to R306). -/

namespace Sys2Proof.Machine

/-! ## Nest registers (R375, R376) -/

def nestOf (x : Hart) (k : Nat) : BitVec 256 := cget 0 k x.r.n
def nestCount (n : BitVec 256) : Nat := bitsOf n.toNat 0 32
/-- S_j, signed. -/
def nestStride (n : BitVec 256) (j : Nat) : Int := signed 48 (bitsOf n.toNat (48 + 48 * j) 48)

/-- A nest register from its count and four 48-bit strides; reserved bits are zero. -/
def mkNest (count : Nat) (ss : List Nat) : BitVec 256 :=
  BitVec.ofNat 256 (count % 2 ^ 32 + (List.range 4).foldl (fun x j => x + ss.getD j 0 % 2 ^ 48 * 2 ^ (48 + 48 * j)) 0)

def nestStrides (n : BitVec 256) : List Nat := (List.range 4).map (fun j => bitsOf n.toNat (48 + 48 * j) 48)

/-- The value that LNEST leaves in a nest register. -/
def lnestVal (op : NestOp) (ga : Nat) (gb : Reg → Nat) (n : BitVec 256) : BitVec 256 :=
  match op with
  | .all r => mkNest ga ((List.range 4).map (fun j => wrapTo 48 (signed 16 (bitsOf (gb r) (16 * j) 16))))
  | .stride j => mkNest (nestCount n) (lset (ga % 2 ^ 48) j.toNat (nestStrides n))
  | .cnt => mkNest ga (nestStrides n)

/-- LNEST takes effect at its push, so that a CPY or LRUN pushed after it reads its values (R376; log 16). -/
def execLnest (nk : BitVec 3) (op : NestOp) (ga : Reg) (s : State) : Out :=
  .next (issueMark (.lnest nk op ga) (fun s =>
    let v := lnestVal op (gGet ga s).toNat (fun r => (gGet r s).toNat) (nestOf (me s) nk.toNat)
    modMe (fun x => { x with r := { x.r with n := cset 0 nk.toNat v x.r.n } }) s) s)

/-! ## Capture (R377) -/

/-- LCAP begins a capture at its push; the kept body is replaced. -/
def execLcap (n : BitVec 6) (s : State) : Out :=
  .next (issueMark (.lcap n) (modMe (fun x => { x with capLeft := n.toNat, body := [] })) s)

/-! ## Replay (R378) -/

/-- The meaning of an instruction that a body may hold. -/
def perfBody (i : Instr) : Perform :=
  match i with
  | .msetAll md row => perfMsetAll md row
  | .msetNone md row => perfMsetNone md row
  | .msetLt md ga row => perfMsetLt md ga row
  | .msetNz ew md va row => perfMsetNz ew md va row
  | .mlogic op md ma mb row => perfMlogic op md ma mb row
  | .vcmp cond md va b ty rnd mask row => perfVcmp cond md va b ty rnd mask row
  | .vmov ew vd va mask row => perfVmov ew vd va mask row
  | .vsplat ew vd gb mask row => perfVsplat ew vd gb mask row
  | .vsplatImm ew vd imm mask row => perfVsplatImm ew vd imm mask row
  | .vsplatQ ew vd q mask row => perfVsplatQ ew vd q mask row
  | .viota ew vd ga gb mask row => perfViota ew vd ga gb mask row
  | .vsel ew vd va vb mask row => perfVsel ew vd va vb mask row
  | .vadd o => perfVadd o
  | .vsub o => perfVsub o
  | .vmul o => perfVmul o
  | .vfma o => perfVfma o
  | .vdiv o => perfVdiv o
  | .vmin o => perfVmin o
  | .vmax o => perfVmax o
  | .vabs o => perfVabs o
  | .vneg o => perfVneg o
  | .vand o => perfVand o
  | .vor o => perfVor o
  | .vxor o => perfVxor o
  | .vshl o => perfVshl o
  | .vshr o => perfVshr o
  | .vsfu fn fmt rnd sat vd va mask row => perfVsfu fn fmt rnd sat vd va mask row
  | .vcvt form rnd sat vd va mask row => perfVcvt form rnd sat vd va mask row
  | .vhad fmt rnd vd va row => perfVhad fmt rnd vd va row
  | .vqnt o => perfVqnt o
  | .vqntSc o => perfVqntSc o
  | .vdqnt sc o => perfVdqnt sc o
  | .vlut qf g0 rnd vd va gb mask => perfVlut qf g0 rnd vd va gb mask
  | .vredRow o => perfVredRow o
  | .vscan excl o => perfVscan excl o
  | .vslideUp amt ew vd va mask => perfVslideUp amt ew vd va mask
  | .vslideDn amt ew vd va mask => perfVslideDn amt ew vd va mask
  | .vperm tile ew vd va vb mask => perfVperm tile ew vd va vb mask
  | .vcomp ew vd va mask => perfVcomp ew vd va mask
  | .vtopkIdx o => perfVtopkIdx o
  | .vtopkKey o => perfVtopkKey o
  | .vtopkMask o => perfVtopkMask o
  | .vld o => perfVld o
  | .vst o => perfVst o
  | .vldx o => perfVldx o
  | .vstxOrd o => perfVstxOrd o
  | .vstxAny o => perfVstxAny o
  | .vamo o => perfVamo o
  | _ => fun _ s => .done s

/-! ## Convoys (R217; log 17)

All the instructions of a convoy are performed in lockstep, one element group after another, and they stop and resume at the
boundary of a group, which is the convoy's position. The values are those of the instructions one after another (R204): where
the element groups cannot give these, the whole tile is one group. -/

/-- The v registers that a convoy's instruction uses at an element width: whether it writes the register, the register, and
the width in bits. -/
def vUses : Instr → List (Bool × Reg × Nat)
  | .vcmp _ _ va b ty _ _ _ => (false, va, tyBits ty) :: (src2Regs b).map (fun r => (false, r, tyBits ty))
  | .vadd o | .vsub o | .vmul o | .vfma o | .vdiv o | .vmin o | .vmax o | .vand o | .vor o | .vxor o | .vshl o | .vshr o =>
    (true, o.vd, tyBits o.ty) :: (o.va :: src2Regs o.b).map (fun r => (false, r, tyBits o.ty))
  | .vabs o | .vneg o => [(true, o.vd, tyBits o.ty), (false, o.va, tyBits o.ty)]
  | .vsel ew vd va vb _ _ => [(true, vd, ewBits ew), (false, va, ewBits ew), (false, vb, ewBits ew)]
  | .vmov ew vd va _ _ => [(true, vd, ewBits ew), (false, va, ewBits ew)]
  | .vsplat ew vd _ _ _ => [(true, vd, ewBits ew)]
  | .vsplatImm ew vd _ _ _ => [(true, vd, ewBits ew)]
  | .vsplatQ ew vd _ _ _ => [(true, vd, ewBits ew)]
  | .viota ew vd _ _ _ _ => [(true, vd, ewBits ew)]
  | .vsfu _ fmt _ _ vd va _ _ => [(true, vd, f012Bits fmt), (false, va, f012Bits fmt)]
  | .vcvt form rnd sat vd va _ _ =>
    [(true, vd, CvtForm.dstBits form), (false, va, (CvtForm.srcOpd rnd.toNat sat form).bits)]
  | .vhad fmt _ vd va _ => [(true, vd, f012Bits fmt), (false, va, f012Bits fmt)]
  | .vqnt o | .vqntSc o | .vdqnt _ o => [(true, o.vd, bitsFmt o.dst.toNat), (false, o.va, bitsFmt o.src.toNat)]
  | .vld o => [(true, o.v, ewBits o.ew)]
  | .vst o => [(false, o.v, ewBits o.ew)]
  | .vldx o => [(true, o.v, ewBits o.ew), (false, o.vx, 32)]
  | .vstxOrd o | .vstxAny o => [(false, o.v, ewBits o.ew), (false, o.vx, 32)]
  | .mdrain _ o => [(true, o.v, f012Bits o.fmt)]
  | _ => []

/-- Instructions of a convoy that are not element-wise (R349). -/
def notElementwise : Instr → Bool
  | .vred _ | .vredRow _ | .vredQ _ | .vscan .. | .vslideUp .. | .vslideDn .. | .vperm .. | .vcomp .. | .vtopkIdx _
  | .vtopkKey _ | .vtopkMask _ | .vlut .. => true
  | _ => false

/-- Two instructions use a v register at different widths, and one writes it; or both read one bound register. -/
def usesClash (x : Hart) (i j : Instr) : Bool :=
  (vUses i).any (fun a => (vUses j).any (fun b =>
    a.2.1 == b.2.1 && (((a.1 || b.1) && a.2.2 != b.2.2) || isBound x a.2.1.toNat)))

/-- The addresses of the corners of a VLD's or VST's tile, which bound all of them. -/
def corners (o : VMemOp) (c : LCtx) : List Nat :=
  let ks := match memRow o.off.toNat o.row with
    | some r => [r.toNat]
    | none => [0, c.rc - 1]
  ks.flatMap (fun k => [vmemAddr o c k 0, vmemAddr o c k (c.vl - 1)])

/-- A load and a store of one convoy may meet: not where they go through the same addresses in the same order, nor where
no byte of the one lies among the other's. -/
def spansClash (o p : VMemOp) (c d : LCtx) : Bool :=
  let lo (l : List Nat) : Nat := l.foldl min (2 ^ 64)
  let hi (l : List Nat) (w : Nat) : Nat := l.foldl max 0 + w
  let a := corners o c
  let b := corners p d
  !(decide (a = b) && o.ew == p.ew && o.row == p.row) &&
    decide (lo a < hi b (ewBytes p.ew)) && decide (lo b < hi a (ewBytes o.ew))

def memClash (e f : QEntry) : Bool :=
  match e.instr, f.instr with
  | .vld o, .vst p | .vst o, .vld p => spansClash o p e.ctx f.ctx
  | i, j => isMemSlot i && isMemSlot j

/-- An earlier and a later instruction that the element groups would mix. -/
def groupsClash (x : Hart) : List QEntry → Bool
  | [] => false
  | e :: r => notElementwise e.instr || r.any (fun f => usesClash x e.instr f.instr || memClash e f) || groupsClash x r

/-- Elements of a row that a convoy's element groups hold: the least number that is a whole number of groups of every
instruction (R200, R217), a rotation's being of 128 (R360). 0: the tile is one group. -/
def groupSpan (x : Hart) (es : List QEntry) : Nat :=
  if groupsClash x es then 0
  else es.foldl (fun n e =>
    let n := if e.ctx.width = 0 then n else Nat.lcm n (max 1 (e.ctx.vgrant * 512 / e.ctx.width))
    match e.instr with
    | .vhad .. => Nat.lcm n 128
    | _ => n) 1

/-- The boundary after position `p`; 0 when it is the tile's end. -/
def nextBoundary (c : LCtx) (g p : Nat) : Nat :=
  if g = 0 ∨ c.vl = 0 then 0
  else
    let b := p / c.vl * c.vl + min ((p % c.vl / g + 1) * g) c.vl
    if tileSize c ≤ b then 0 else b

/-- How the instructions of an element group fare: all are through it; one stalls; or one is stopped. -/
inductive GRes where
  | done (es : List QEntry) (s : State)
  | stall (es : List QEntry) (why : Option PendTrap) (s : State)
  | fault (e : QEntry) (p : PendTrap) (s : State)

/-- Each instruction is performed up to the boundary `upto`. -/
def groupOnce (run : Instr → Perform) (upto : Nat) : List QEntry → List QEntry → State → GRes
  | [], acc, s => .done acc.reverse s
  | e :: r, acc, s =>
    if e.fin then groupOnce run upto r (e :: acc) s
    else match run e.instr { e with ctx := { e.ctx with upto := upto, byRow := false } } s with
      | .done s => groupOnce run upto r ({ e with fin := true } :: acc) s
      | .block e' why s =>
        if upto ≠ 0 ∧ e'.ctx.upto = 0 then groupOnce run upto r (e' :: acc) s
        else .stall (acc.reverse ++ e' :: r) why s
      | .fault e' p s => .fault e' p s

/-- The convoy's position stands in its entries. -/
def placeGroup (p : Nat) (es : List QEntry) : List QEntry :=
  es.map (fun e => { e with ctx := { e.ctx with upto := p, byRow := false } })

/-- A group that a fault stops leaves nothing behind but the record of the fault. -/
def backTo (s t : State) : State := { s with fresh := t.fresh, faultLog := t.faultLog, parts := t.parts }

/-- What a stalled group goes back to when the convoy is stopped before the group's end. -/
def keepSnap (entries : List QEntry) (before : Hart) (s : State) : State :=
  modMe (fun x => { x with snap := some (x.snap.getD
    { entries := entries, v := before.r.v, ext := before.r.ext, m := before.r.m, acc := before.acc }) }) s

def dropSnap (s : State) : State := if (me s).snap.isSome then modMe (fun x => { x with snap := none }) s else s

/-- How a convoy fares. -/
inductive CRes where
  | done (s : State)
  | block (es : List QEntry) (why : Option PendTrap) (s : State)
  | fault (es : List QEntry) (p : PendTrap) (s : State)

/-- A convoy's element groups, those of one row for a binding. `wrap` gives the queue's entries for the convoy's. `fuel` bounds
the groups. -/
def runConvoy (run : Instr → Perform) (byRow : Bool) (wrap : List QEntry → List QEntry) : Nat → List QEntry → State → CRes
  | 0, es, s => .block es none s
  | n + 1, es, s =>
    match es with
    | [] => .done s
    | e :: _ =>
      let c := e.ctx
      let p := c.upto
      let b := nextBoundary c (groupSpan (me s) es) p
      match groupOnce run b es [] s with
      | .done es t =>
        let t := dropSnap t
        if b = 0 then .done t
        else
          let es := placeGroup b es
          if byRow ∧ b % c.vl = 0 then .block es none t else runConvoy run byRow wrap n es t
      | .stall es' why t => .block (placeGroup p es') why (keepSnap (wrap es) (me s) t)
      | .fault e' f t =>
        let back (x : QEntry) : QEntry := if f.flt.cause = cRescale ∧ x.ctx.seq = e'.ctx.seq then { x with kept := e'.kept } else x
        .fault (es.map back) f (backTo s t)

/-- The entries of a queue's first convoy, and those behind it. -/
def firstConvoy (q : List QEntry) : List QEntry × List QEntry :=
  match q with
  | [] => ([], [])
  | e :: _ => q.span (fun x => x.ctx.conv == e.ctx.conv)

/-- The convoy at the head of the vector queue is bound. It waits until its last instruction is in the queue. -/
def stepConvoy (run : Instr → Perform) (byRow : Bool) (s : State) : State :=
  let x := me s
  let d := firstConvoy x.vq
  let put (es : List QEntry) (why : Option PendTrap) (s : State) : State :=
    modMe (fun x => { x with vq := es ++ d.2, stallV := why }) s
  match d.1 with
  | [] => s
  | e :: _ =>
    if 0 < x.convLeft ∧ x.convId = e.ctx.conv then s
    else match runConvoy run byRow id (tileSize e.ctx + 1) d.1 s with
      | .done s => put [] none s
      | .block es why s => put es why s
      | .fault es p s => setPend s.cur p (put es none s)

/-- The base register of a memory instruction, as it stood at the capture. -/
def slotBase (i : Instr) (c : LCtx) : Nat :=
  match i with
  | .vld o | .vst o => cg c o.ga
  | .vldx o | .vstxOrd o | .vstxAny o => cg c o.ga
  | .vamo o => cg c o.ga
  | _ => 0

/-- D of a replay: given, or 1 + the highest nest with a count (R378). -/
def replayDims (dims : Nat) (nest : List (BitVec 256)) : Nat :=
  if dims ≠ 0 then dims
  else (List.range 6).foldl (fun d k => if nestCount (nest.getD k 0) ≠ 0 then k + 1 else d) 0

/-- Where a replay stands: nest indices, body instruction, the queue entries of this pass, and whether they were
taken. The frame keeps it (R218). -/
structure Replay where
  ix : List Nat
  b : Nat
  qs : List Nat
  inner : List Nat
  deriving DecidableEq, Repr

/-- Packed as 6 indices, body number, number of queue entries, the entries, then what the body instruction keeps. -/
def Replay.pack (r : Replay) : List Nat := r.ix ++ [r.b, r.qs.length] ++ r.qs ++ r.inner

def Replay.unpack (l : List Nat) : Replay :=
  if l.isEmpty then { ix := [0, 0, 0, 0, 0, 0], b := 0, qs := [], inner := [] }
  else
    let n := l.getD 7 0
    { ix := l.take 6, b := l.getD 6 0, qs := (l.drop 8).take n, inner := l.drop (8 + n) }

/-- The next position of the nest, innermost dimension first; none after the last. -/
def nextIx (counts : List Nat) : List Nat → Option (List Nat)
  | [] => none
  | i :: r =>
    match counts with
    | [] => none
    | c :: cs =>
      if i + 1 < c then some ((i + 1) :: r)
      else match nextIx cs r with
        | some r' => some (0 :: r')
        | none => none

/-- Σ over k < D of i_k × n_k.S_j, without the term k = D − 1 when `feed`. -/
def nestMove (d j : Nat) (feed : Bool) (nest : List (BitVec 256)) (ix : List Nat) : Int :=
  (List.range (if feed then d - 1 else d)).foldl (fun x k => x + (ix.getD k 0 : Int) * nestStride (nest.getD k 0) j) 0

/-- Memory slots before body instruction `b`: the slot number it has when it is a memory instruction. -/
def slotNo (body : List (Instr × LCtx)) (b : Nat) : Nat := ((body.take b).filter (fun p => isMemSlot p.1)).length
def slotCount (body : List (Instr × LCtx)) : Nat := slotNo body body.length

/-- A body instruction as an entry of its own at this position of the replay. -/
def bodyEntry (e : QEntry) (r : Replay) (d : Nat) (feed : Bool) (i : Instr) (c : LCtx) : QEntry :=
  let j := slotNo e.body r.b
  let nest := e.ctx.nest
  let mv := nestMove d j feed nest r.ix +
    (if feed then (r.qs.getD j 0 : Int) - slotBase i c else 0)
  let n0 := nest.getD 0 0
  { instr := i, ctx := { c with handler := e.ctx.handler, inNest := true, byRow := true, move := if isMemSlot i then mv else 0,
                                nest := [mkNest (nestCount n0 - r.ix.getD 0 0) [wrapTo 48 (nestStride n0 j)]] },
    vstart := e.vstart, kept := r.inner, got := e.got, body := [], fin := false }

/-- What the instructions of a convoy keep, in a replay's list. -/
def packGroup (es : List QEntry) : List Nat :=
  es.flatMap (fun x => [x.vstart, b2n x.fin, x.kept.length] ++ x.kept ++ [x.got.length] ++ x.got)

/-- A convoy's entries with what a replay's list keeps of them. -/
def unpackGroup : List QEntry → List Nat → List QEntry
  | x :: r, v :: f :: n :: l =>
    let m := l.getD n 0
    { x with vstart := v, fin := f == 1, kept := l.take n, got := (l.drop (n + 1)).take m } ::
      unpackGroup r (l.drop (n + 1 + m))
  | es, _ => es

/-- After `n` body instructions the replay goes on with the next one, or with the nest's next position. -/
def nextBody (e : QEntry) (r : Replay) (counts : List Nat) (d n : Nat) (feed : Bool) (s : State) : LRes :=
  let go (r : Replay) : LRes := .block { e with vstart := 0, got := [], kept := r.pack } none s
  if r.b + n < e.body.length then go { r with b := r.b + n, inner := [] }
  else match nextIx counts r.ix with
    | none => .done s
    | some ix =>
      let ix' := ix ++ List.replicate (6 - ix.length) 0
      let fresh := feed && (ix'.take (d - 1)).all (fun i => i == 0)
      go { ix := ix', b := 0, qs := if fresh then [] else r.qs, inner := [] }

/-- The convoy of a captured body that begins with its instruction `b`. -/
def bodyConvoy (e : QEntry) (r : Replay) (d : Nat) (feed : Bool) (conv : Nat) : List QEntry :=
  (((List.range e.body.length).drop r.b).filterMap (fun b => (e.body[b]?).map (fun p => (b, p)))).takeWhile
    (fun p => p.2.2.conv == conv) |>.map (fun p => bodyEntry e { r with b := p.1 } d feed p.2.1 p.2.2)

/-- One binding of a replay: a row of one body instruction, or of a convoy of the body; the entry stays until the nest is
through (R218). -/
def perfLrun (feed : Bool) (dims : BitVec 3) : Perform := fun e s =>
  let d := replayDims dims.toNat e.ctx.nest
  let counts := (List.range d).map (fun k => nestCount (e.ctx.nest.getD k 0))
  if d = 0 ∨ counts.any (fun c => c == 0) then .done s
  else
    let r := Replay.unpack e.kept
    let need := feed && r.b == 0 && (r.ix.take (d - 1)).all (fun i => i == 0) && decide (r.qs.length < slotCount e.body) &&
      e.vstart == 0 && r.inner.isEmpty
    if need then
      match queueOfHart s 0 with
      | [] => .block { e with kept := r.pack }
          (some { flt := qHang 1 0 1, lpc := e.ctx.pc, elem := 0, stream := 1, fs := { noStream with fstream := 1 } }) s
      | q :: rest => .block { e with kept := { r with qs := r.qs ++ [q.toNat] }.pack } none (setQueue 0 rest s)
    else
      match e.body[r.b]? with
      | none => .done s
      | some (i, c) =>
        let own (p : PendTrap) : PendTrap := { p with lpc := e.ctx.pc }
        if c.conv = 0 then
          let again (x : QEntry) : QEntry :=
            { e with vstart := x.vstart, got := x.got, kept := { r with inner := x.kept }.pack }
          match perfBody i (bodyEntry e r d feed i c) s with
          | .block x why s => .block (again x) (why.map own) s
          | .fault x p s => .fault (again x) (own p) s
          | .done s => nextBody e r counts d 1 feed s
        else
          let es := bodyConvoy e r d feed c.conv
          let again (es : List QEntry) : QEntry :=
            { e with vstart := (es.map (fun x => x.ctx.upto)).headD 0, kept := { r with inner := packGroup es }.pack }
          match runConvoy perfBody true (fun es => [again es]) (tileSize c + 1)
              (placeGroup e.vstart (unpackGroup (es.map (fun x => { x with vstart := 0, kept := [], got := [] })) r.inner)) s with
          | .block es why s => .block (again es) (why.map own) s
          | .fault es p s => .fault (again es) (own p) s
          | .done s => nextBody e r counts d es.length feed s

/-- LRUN takes n0 to n5 and the kept body with it when it is pushed. -/
def execLrun (q : Bool) (dims : BitVec 3) (s : State) : Out :=
  .next (let x := me s
    if 0 < x.capLeft then abandonCapture true s
    else if x.body.isEmpty then illegalLong 0 s
    else if 64 ≤ x.vq.length then s
    else
      let c := { captureCtx s with nest := (List.range 6).map (nestOf x) }
      let e : QEntry := { freshEntry (.lrun q dims) c with body := x.body }
      let now := prompt s && lanesFree s && x.convLeft == 0
      let s := retire 8 (nextInConvoy s)
      if now then afterV (perfLrun q dims e s) []
      else modMe (fun x => { x with vq := x.vq ++ [e] }) s)

def execLwait (s : State) : Out := .next (scalarLong (sync 0x02 (retire 8)) s)

/-! ## Convoy headers (R304 to R306) -/

/-- Whether a long major may stand on a unit (R306). -/
def unitTakes (unit major : Nat) : Bool :=
  match unit with
  | 1 | 2 => major == 0x09 || (decide (0x10 ≤ major) && decide (major ≤ 0x21))
  | 3 => decide (0x40 ≤ major) && decide (major ≤ 0x45)
  | 4 => major == 0x60 || major == 0x62
  | 5 => major == 0x61 || major == 0x63
  | 6 => decide (0x50 ≤ major) && decide (major ≤ 0x55)
  | 7 => major == 0x97
  | _ => false

/-- Whether the `k` long instructions from an address on fit their unit codes; an MDRAIN must have func 0 (R390). -/
def convoyFits (units : BitVec 18) : Nat → Nat → Nat → State → MR Bool
  | 0, _, _, s => .ok true s
  | n + 1, i, va, s =>
    mbind (fetchCode va s) fun c s =>
      match c with
      | .parcel _ => .ok false s
      | .long w =>
        let major := bitsOf w.toNat 2 8
        if unitTakes (convoyUnit units i) major && !(major == 0x97 && bitsOf w.toNat 45 3 != 0) then
          convoyFits units n (i + 1) (wrapTo 64 (va + 8)) s
        else .ok false s

/-- A convoy header: when it is valid, the instructions that follow are one convoy (R305), whose number is new. -/
def execConvoyHeader (units : BitVec 18) (cnt : BitVec 3) (s : State) : Out :=
  let k := cnt.toNat + 2
  .next (scalarDo (convoyFits units k 0 (wrapTo 64 ((me s).pc.toNat + 4)) s) fun fits s =>
    if fits && (decide ((me s).capLeft = 0) || decide (k ≤ (me s).capLeft)) then
      retire 4 (modMe (fun x => { x with convLeft := k, convId := s.ticks + 1 }) s)
    else illegal 7 s)

end Sys2Proof.Machine
end

