-- ==== Sys2Proof/Machine/Matrix.lean ====
section
/-! DEFINITION. Accumulator tiles, attachment, predicates, K-sums and the moving of tiles (R219, R220, R289 to R291,
R379 to R390). -/

namespace Sys2Proof.Machine

/-! ## Tiles (R380) -/

/-- Row i of tile t: 128 words. -/
def accRow (x : Hart) (t i : Nat) : BitVec 4096 := cget 0 (128 * t + i) x.acc
def accWord (x : Hart) (t i j : Nat) : Nat := (accRow x t i).toNat / 2 ^ (32 * j) % 2 ^ 32

def setAccWord (t i j w : Nat) (x : Hart) : Hart :=
  let y := (accRow x t i).toNat
  let y' := y - y / 2 ^ (32 * j) % 2 ^ 32 * 2 ^ (32 * j) + w % 2 ^ 32 * 2 ^ (32 * j)
  { x with acc := cset 0 (128 * t + i) (BitVec.ofNat 4096 y') x.acc }

/-- Every word of tile t is 0. -/
def clearTile (t : Nat) (x : Hart) : Hart := { x with acc := x.acc.filter (fun p => p.1 / 128 != t) }

def tileOn (x : Hart) (t : Nat) : Bool := x.tileen.getLsbD t
def tileRows (x : Hart) (t : Nat) : Nat := 32 * (bitsOf x.tileen.toNat (8 + 4 * t) 2 + 1)
def tileCols (x : Hart) (t : Nat) : Nat := 32 * (bitsOf x.tileen.toNat (10 + 4 * t) 2 + 1)

/-- TILEEN with tile t enabled at a shape, or disabled with its shape bits zero. -/
def tileenSet (t : Nat) (shape : Option (BitVec 2 × BitVec 2)) (x : Hart) : Hart :=
  let e := x.tileen.toNat
  let off := e - e / 2 ^ t % 2 * 2 ^ t - bitsOf e (8 + 4 * t) 4 * 2 ^ (8 + 4 * t)
  { x with tileen := BitVec.ofNat 64 (match shape with
      | some (r, c) => off + 2 ^ t + r.toNat * 2 ^ (8 + 4 * t) + c.toNat * 2 ^ (10 + 4 * t)
      | none => off) }

/-- Bytes of the enabled tiles other than t. -/
def tilesUsed (x : Hart) (t : Nat) : Nat :=
  (List.range 8).foldl (fun n u => if u ≠ t ∧ tileOn x u then n + tileRows x u * tileCols x u * 4 else n) 0

/-- The hart's accumulator share in bytes (R80). -/
def accShare (s : State) : Nat :=
  let n := match (me s).job with
    | some j => ((jobOf s j).harts.filter (fun h => coreNo h == coreNo s.cur)).length
    | none => 1
  pwAccu (coreOf s (coreNo s.cur)).pword * 16 / max n 1 * 4096

/-- TILEOFF (R381). -/
def tileoffFlt (t bits : Nat) : Flt := mkFlt cTileoff 0 (bits + 16 * t)

def mNoStream : FaultStream := { noStream with fstream := 2 }

/-- An imprecise trap of the matrix queue at an element or step. -/
def mStop (e : QEntry) (elem : Nat) (f : Flt) (s : State) : LRes := stopAt e elem f mNoStream s

/-! ## Attachment (R219, R220, R383) -/

def clusterHarts (cl : Nat) : List Nat := (List.range 32).map (fun i => 32 * cl + i)
def attachedOf (s : State) (cl : Nat) : List Nat := (clusterHarts cl).filter (fun h => decide (0 < (hartOf s h).mgrant))

/-- Eights of rows handed out one by one, each to a hart below the ceiling that the unit chooses (R219; log 2). -/
def dealRows (ceil : Nat) : Nat → Nat → List (Nat × Nat) → List (Nat × Nat)
  | 0, _, l => l
  | n + 1, seed, l =>
    let open' := l.filter (fun p => decide (p.2 < ceil))
    match open'[Config.matRows seed % max 1 open'.length]? with
    | none => l
    | some (h, _) => dealRows ceil n (seed + 1) (l.map (fun p => if p.1 = h then (h, p.2 + 1) else p))

/-- The cluster's rows divided among the harts listed: eight each, then the rest. -/
def divideRows (harts : List Nat) (s : State) : State :=
  let l := dealRows (mrows s) (4 - harts.length) s.fresh (harts.map (fun h => (h, 1)))
  l.foldl (fun s p => modHart p.1 (fun x => { x with mgrant := 8 * p.2 }) s) { s with fresh := s.fresh + 4 }

def perfMattach (d : Reg) : Perform := fun e s =>
  let l := attachedOf s (clusterNo s.cur)
  if 0 < (me s).mgrant then .done (setGNat d (me s).mgrant s)
  else if 4 ≤ l.length ∨ mrows s = 0 then .block e none s
  else
    let s := divideRows (l ++ [s.cur]) s
    .done (setGNat d (me s).mgrant s)

/-- MATRIX_REDIVIDE: the unit gives its attached harts new row counts within the bounds of R219; other divisions are
ignored. -/
def execMatrixRedivide (cluster : BitVec 6) (rows : List (Nat × Nat)) (s : State) : Out :=
  let l := attachedOf s cluster.toNat
  let held (h : Nat) : Nat := (rows.find? (fun p => p.1 == h)).elim 0 (fun p => p.2)
  let sum := l.foldl (fun n h => n + held h) 0
  let fine := l.all (fun h => held h % 8 == 0 && decide (8 ≤ held h) && decide (held h ≤ 8 * mrows s)) &&
    decide (sum ≤ 32) &&
    (sum == 32 || l.all (fun h => decide (held h = 8 * mrows s) || (hartOf s h).mq.isEmpty))
  .next (if fine then l.foldl (fun s h => modHart h (fun x => { x with mgrant := held h }) s) s else s)

/-- Leave the matrix unit: rows and group. -/
def detach (h : Nat) (s : State) : State :=
  if (hartOf s h).mgrant = 0 then s
  else
    let s := modHart h (fun x => { x with mgrant := 0, mgrp := 0 }) s
    divideRows (attachedOf s (clusterNo h)) s

def perfMdetach : Perform := fun _ s => .done (detach s.cur s)

def perfMtile (t : Idx3) (r c : BitVec 2) : Perform := fun e s =>
  let n := t.toNat
  if accShare s < tilesUsed (me s) n + 32 * (r.toNat + 1) * (32 * (c.toNat + 1)) * 4 then
    mStop e 0 (tileoffFlt n 1) s
  else .done (modMe (fun x => tileenSet n (some (r, c)) (clearTile n x)) s)

def perfMtileOff (t : Idx3) : Perform := fun _ s =>
  .done (modMe (fun x => tileenSet t.toNat none (clearTile t.toNat x)) s)

def perfMclr (t : Idx3) : Perform := fun e s =>
  if tileOn (me s) t.toNat then .done (modMe (clearTile t.toNat) s) else mStop e 0 (tileoffFlt t.toNat 0) s

/-! ## Predicates (R384) -/

def lowOnes (n : Nat) : BitVec 128 := BitVec.ofNat 128 (2 ^ min n 128 - 1)

def perfMpredRows (gb : Reg) : Perform := fun e s => .done (modMe (fun x => { x with rowpred := lowOnes (cg e.ctx gb) }) s)
def perfMpredCols (gb : Reg) : Perform := fun e s => .done (modMe (fun x => { x with colpred := lowOnes (cg e.ctx gb) }) s)
def perfMpredK (gb : Reg) : Perform := fun e s =>
  .done (modMe (fun x => { x with klim := BitVec.ofNat 32 (min (cg e.ctx gb) (2 ^ 32 - 1)) }) s)
def perfMpredRowm (ma : Idx3) : Perform := fun _ s =>
  .done (modMe (fun x => { x with rowpred := (mRow x ma.toNat 0).truncate 128 }) s)
def perfMpredColm (ma : Idx3) : Perform := fun _ s =>
  .done (modMe (fun x => { x with colpred := (mRow x ma.toNat 0).truncate 128 }) s)
def perfMpredAll : Perform := fun _ s =>
  .done (modMe (fun x => { x with rowpred := BitVec.allOnes 128, colpred := BitVec.allOnes 128, klim := BitVec.allOnes 32 }) s)

/-! ## MGROUP (R387) -/

def grpMembers (x : Hart) : Nat := x.mgrp % 16
def grpRank (x : Hart) : Nat := x.mgrp / 16

/-- The harts of a grouped hart's group, by rank. -/
def groupOf (s : State) (h : Nat) : List Nat :=
  (clusterHarts (clusterNo h)).filter (fun k =>
    grpMembers (hartOf s k) == grpMembers (hartOf s h) && grpMembers (hartOf s h) != 0 &&
    decide ((hartOf s k).job = (hartOf s h).job) && (hartOf s k).gang == (hartOf s h).gang)

def coreInCluster (h : Nat) : Nat := coreNo h % 4

/-- The arrived harts of a gang with one mask, one for each core of the mask in increasing order, if all are there. -/
def groupArrived (s : State) (h mask : Nat) : Option (List Nat) :=
  let arr := cget [] (clusterNo h) s.mgroups
  let pick (c : Nat) : Option Nat :=
    (arr.find? (fun p => p.2 == mask && coreInCluster p.1 == c && (hartOf s p.1).gang == (hartOf s h).gang &&
      decide ((hartOf s p.1).job = (hartOf s h).job))).map (fun p => p.1)
  let cores := (List.range 4).filter (fun c => mask.testBit c)
  if cores.all (fun c => (pick c).isSome) then some (cores.filterMap pick) else none

def formGroup (cl mask : Nat) (l : List Nat) (s : State) : State :=
  let s := { s with mgroups := cset [] cl ((cget [] cl s.mgroups).filter (fun p => !(l.contains p.1 && p.2 == mask))) s.mgroups }
  (List.zip l (List.range 4)).foldl (fun s p =>
    modHart p.1 (fun x => { x with mgrp := mask + 16 * p.2, mcDone := 0, mcLast := none, mcFin := 0 }) s) s

/-- `kept` is [1] once the hart has been counted. -/
def perfMgroup (d : Reg) (members : BitVec 4) : Perform := fun e s =>
  let x := me s
  let cl := clusterNo s.cur
  let m := members.toNat
  let waiting := (cget [] cl s.mgroups).any (fun p => p.1 == s.cur && p.2 == m)
  if m = 0 then .done (setGNat d 0 (modMe (fun x => { x with mgrp := 0 }) s))
  else if !e.kept.isEmpty && !waiting then .done (setGNat d (grpRank x) s)
  else
    let gk := match x.job with
      | some j => (jobOf s j).gangKind
      | none => 0
    if x.mgrant = 0 ∨ gk ≠ 2 ∨ !m.testBit (coreInCluster s.cur) then .done (setGNat d allOnes64 s)
    else
      let s := if waiting then s
        else { s with mgroups := cset [] cl (cget [] cl s.mgroups ++ [(s.cur, m)]) s.mgroups }
      match groupArrived s s.cur m with
      | some l => let s := formGroup cl m l s; .done (setGNat d (grpRank (me s)) s)
      | none => .block { e with kept := [1] } none s

/-! ## Operand descriptors (R385, R388) -/

structure MDesc where
  addr : Nat
  scale : Nat
  zp : Nat
  ctl : Nat
  deriving DecidableEq, Repr

def MDesc.stride (d : MDesc) : Nat := bitsOf d.ctl 40 24
def MDesc.sstride (d : MDesc) : Nat := bitsOf d.ctl 24 16
def MDesc.recIx (d : MDesc) : Nat := bitsOf d.ctl 8 16
def MDesc.rs (d : MDesc) : Bool := d.ctl.testBit 7
def MDesc.sfmt (d : MDesc) : Nat := bitsOf d.ctl 5 2
def MDesc.grp (d : MDesc) : Nat := bitsOf d.ctl 3 2
def MDesc.group (d : MDesc) : Nat := 16 * 2 ^ d.grp

def isGrouped (f : Nat) : Bool := f == 9 || f == 12 || f == 13

/-- Bits of a stored element. -/
def MDesc.bits (d : MDesc) (f : Nat) : Nat := if d.rs then bitsFmt d.sfmt else bitsFmt f

/-- The descriptor breaks R388 with STREAM. -/
def MDesc.bad (d : MDesc) (f : Nat) : Bool :=
  d.ctl % 8 != 0 || d.sfmt == 3 || (d.grp != 0 && !isGrouped f) || (d.grp == 0 && (f == 9 || f == 12)) ||
  (f == 13 && d.grp != 3) || (d.rs && !(f == 3 || f == 4 || f == 5 || f == 7 || f == 10)) ||
  (isGrouped f && d.sstride % 4 != 0)

/-- The slice length of a pair (R289). -/
def sliceLen (fa fb : Nat) : Nat := 1536 / max (bitsFmt fa) (bitsFmt fb)

/-- 0 float, 1 integer, 2 grouped. -/
def pairKind (fa : Nat) : Nat := if isGrouped fa then 2 else if fa < 6 then 0 else 1

/-! ## Reading operands -/

/-- The matrix unit's requests for the current hart (R22). -/
def mWho (e : QEntry) (s : State) : Who := { hartWho s s.cur 2 e.ctx.handler with
    master := 0x4000 + clusterNo s.cur, agent := matrixAgent (clusterNo s.cur),
    taken := takenBy s (matrixAgent (clusterNo s.cur)) s.cur }

/-- A read of the matrix stream: a fault carries the bytes left in its contiguous run (R436). -/
inductive KR (α : Type) where
  | ok (a : α) (s : State)
  | bad (f : Flt) (remain : Nat) (s : State)
  | wait (s : State)

def kbind {α β : Type} (m : KR α) (f : α → State → KR β) : KR β :=
  match m with
  | .ok a s => f a s
  | .bad e n s => .bad e n s
  | .wait s => .wait s

/-- `n` bytes at an address in a run that ends at `stop`. -/
def kread (w : Who) (a n stop : Nat) (s : State) : KR (List Byte) :=
  match vaReadN w (wrapTo 64 a) n s with
  | .ok bs s => .ok bs s
  | .bad f s => .bad f (min (max (stop - f.addr.toNat) 1) (2 ^ 32 - 1)) s
  | .wait s => .wait s

/-- `n` elements of `b` bits from element `k` on of a byte list that begins at the byte of element `k`. -/
def unpackElems (b k n : Nat) (bs : List Byte) : List Nat :=
  let x := ofBytes bs / 2 ^ (b * (if b = 4 then k % 2 else 0))
  (List.range n).map (fun i => bitsOf x (b * i) b)

/-- Codes k0 .. k0 + n − 1 of line l. -/
def readLine (w : Who) (d : MDesc) (b kTop l k0 n : Nat) (s : State) : KR (List Nat) :=
  let base := d.addr + l * d.stride
  let lo := k0 * b / 8
  let hi := ((k0 + n) * b + 7) / 8
  kbind (kread w (base + lo) (hi - lo) (base + (kTop * b + 7) / 8) s) fun bs s => .ok (unpackElems b k0 n bs) s

/-- One element of a grouped line: code less zero point, its group, its scale. -/
structure GElem where
  q : Int
  g : Nat
  sc : Val
  deriving DecidableEq, Repr

/-- A grouped or KV4H line (R282, R385). -/
def readGLine (w : Who) (d : MDesc) (f kTop l k0 n : Nat) (s : State) : KR (List GElem) :=
  let size := d.group
  let g0 := k0 / size
  let g1 := (k0 + n - 1) / size
  let ng := (kTop + size - 1) / size
  let sb := d.scale + l * d.sstride
  kbind (readLine w d (bitsFmt f) kTop l k0 n s) fun cs s =>
    kbind (kread w (sb + 2 * g0) (2 * (g1 - g0 + 1)) (sb + 2 * ng) s) fun ss s =>
      let zs : KR (List Nat) :=
        if f = 13 then .ok [] s
        else
          let zw := if f = 9 then 8 else 4
          let zb := d.zp + l * d.sstride / (if f = 9 then 2 else 4)
          let lo := g0 * zw / 8
          let hi := ((g1 + 1) * zw + 7) / 8
          kbind (kread w (zb + lo) (hi - lo) (zb + (ng * zw + 7) / 8) s) fun bs s =>
            .ok (unpackElems zw g0 (g1 - g0 + 1) bs) s
      kbind zs fun zs s =>
        let elem (p : Nat × Nat) : GElem :=
          let g := (k0 + p.1) / size
          let z := if f = 13 then 0 else signed (if f = 9 then 8 else 4) (zs.getD (g - g0) 0)
          { q := signed (bitsFmt f) p.2 - z, g := g,
            sc := decodeF fp16 (ofBytes ((ss.drop (2 * (g - g0))).take 2)) }
        .ok ((List.zip (List.range n) cs).map elem) s

/-- Read a list of lines. -/
def readLines {α : Type} (rd : Nat → State → KR α) : List Nat → State → KR (List (Nat × α))
  | [], s => .ok [] s
  | l :: r, s => kbind (rd l s) fun a s => kbind (readLines rd r s) fun t s => .ok ((l, a) :: t) s

/-! ## Updates of a word (R290, R291, R386) -/

/-- Exact products with their flags. -/
def products (a b : List Val) : List Val × Fl :=
  let l := List.zipWith mulV a b
  (l.map (fun p => p.1), l.foldl (fun f p => f ||| p.2) 0)

/-- The slice's exact sum S, then acc + S rounded once (R290). -/
def updFloat (rm w : Nat) (a b : List Val) : Nat × Fl :=
  let p := products a b
  let t := sumV rm p.1
  let r := sumV rm [decodeF fp32 w, t.1]
  finishF fp32 rm false (r.1, r.2 ||| p.2 ||| t.2)

def updInt (w : Nat) (a b : List Int) : Nat × Fl :=
  wrapInt32 (signed 32 w + (List.zipWith (fun x y => x * y) a b).foldl (fun x y => x + y) 0)
where
  wrapInt32 (z : Int) : Nat × Fl := intResult false false 32 z

/-- A record-scaled update: the exact sum of code products times the scales. -/
def updScaled (rm w : Nat) (sa sb : Val) (a b : List Val) : Nat × Fl :=
  let p := products a b
  let t := sumV rm p.1
  let sc := mulV sa sb
  let q := mulV t.1 sc.1
  let r := sumV rm [decodeF fp32 w, q.1]
  finishF fp32 rm false (r.1, r.2 ||| p.2 ||| t.2 ||| sc.2 ||| q.2)

/-- One fragment's update. -/
def updFragment (rm w : Nat) (n : Int) (sa sb : Val) : Nat × Fl :=
  let sc := mulV sa sb
  let q := mulV (ofInt n) sc.1
  let r := sumV rm [decodeF fp32 w, q.1]
  finishF fp32 rm false (r.1, r.2 ||| sc.2 ||| q.2)

/-- Fragments in increasing k: `cur` is the open one. -/
def updGrouped (rm : Nat) : List (GElem × GElem) → Option (Int × GElem × GElem) → Nat → Fl → Nat × Fl
  | [], none, w, fl => (w, fl)
  | [], some (n, a, b), w, fl =>
    let r := updFragment rm w n a.sc b.sc
    (r.1, fl ||| r.2)
  | (x, y) :: rest, none, w, fl => updGrouped rm rest (some (x.q * y.q, x, y)) w fl
  | (x, y) :: rest, some (n, a, b), w, fl =>
    if x.g = a.g ∧ y.g = b.g then updGrouped rm rest (some (n + x.q * y.q, a, b)) w fl
    else
      let r := updFragment rm w n a.sc b.sc
      updGrouped rm rest (some (x.q * y.q, x, y)) r.1 (fl ||| r.2)

/-- Every word (i, j) of a block updated by `f`. -/
def updBlock {α β : Type} (t : Nat) (f : Nat → α → β → Nat × Fl) (rows : List (Nat × α)) (cols : List (Nat × β)) (s : State) :
    State :=
  rows.foldl (fun s r => cols.foldl (fun s c =>
    let w := f (accWord (me s) t r.1 c.1) r.2 c.2
    addFl w.2 (modMe (setAccWord t r.1 c.1 w.1) s)) s) s

/-! ## MKSUM (R386) -/

/-- What a running MKSUM keeps. -/
structure KSum where
  /-- ordinal among the MKSUM.mc of a grouped hart, 0 when it has not arrived -/
  ord : Nat
  init : Bool
  da : MDesc
  db : MDesc
  k : Nat
  fb : Nat
  sa : Nat
  tea : Nat
  sb : Nat
  teb : Nat
  /-- 1 + l × K + k of the lowest element of A, of B, that overflowed -/
  ova : Nat
  ovb : Nat
  deriving DecidableEq, Repr

def KSum.pack (x : KSum) : List Nat :=
  [x.ord, b2n x.init, x.da.addr, x.da.scale, x.da.zp, x.da.ctl, x.db.addr, x.db.scale, x.db.zp, x.db.ctl, x.k, x.fb,
   x.sa, x.tea, x.sb, x.teb, x.ova, x.ovb]

def KSum.unpack (l : List Nat) : KSum :=
  let g (i : Nat) : Nat := l.getD i 0
  { ord := g 0, init := g 1 == 1, da := ⟨g 2, g 3, g 4, g 5⟩, db := ⟨g 6, g 7, g 8, g 9⟩, k := g 10, fb := g 11, sa := g 12,
    tea := g 13, sb := g 14, teb := g 15, ova := g 16, ovb := g 17 }

/-- Bytes of the stored element, at least one. -/
def MDesc.elemBytes (d : MDesc) (f : Nat) : Nat := max 1 (d.bits f / 8)

def kStream (n : Nat) : FaultStream := mkStream 2 0 0 1 n false

/-- Read a descriptor (R386). -/
def readDesc (w : Who) (a : Nat) (s : State) : KR MDesc :=
  if a % 32 ≠ 0 then .bad (misalignFlt a 5 false false) 32 s
  else kbind (kread w a 32 (a + 32) s) fun bs s =>
    let g (i : Nat) : Nat := ofBytes ((bs.drop (8 * i)).take 8)
    .ok ⟨g 0, g 1, g 2, g 3⟩ s

/-- The checks of R388. -/
def checkDesc (d : MDesc) (f k : Nat) (s : State) : KR Unit :=
  let n := d.elemBytes f
  if d.bad f then .bad (streamFlt 4) 0 s
  else if d.addr % n ≠ 0 ∨ d.stride % n ≠ 0 then .bad (misalignFlt d.addr (Nat.log2 n) false false) ((k * d.bits f + 7) / 8) s
  else .ok () s

/-- What an anemometer says, as the matrix stream takes it. -/
def krOf (m : MR Unit) : KR Unit :=
  match m with
  | .ok _ s => .ok () s
  | .bad f s => .bad f 0 s
  | .wait s => .wait s

/-- The record of an operand exists and may be read (R386, R30). -/
def checkRec (d : MDesc) (s : State) : KR Unit :=
  if !d.rs then .ok () s
  else if !recPresent s (me s).part.toNat d.recIx then .bad (mkFlt cAccess d.recIx 4) 0 s
  else krOf (recAllowed (dieNo s.cur) (me s).part.toNat d.recIx false d.recIx s)

/-- Scale and TE of a record-scaled operand at its one read. -/
def operandScale (d : MDesc) (f : Nat) (s : State) : Nat × Nat :=
  if d.rs then
    let p := (me s).part.toNat
    (recordScale (seenAbsmax s (dieNo s.cur) p d.recIx) f, bitsOf (recCtl s p d.recIx) 12 1)
  else (0x3F800000, 0)

/-- The operands of a multicast K-sum: the lowest member's B once every member has arrived (R387). -/
def mcArrive (gb : Nat) (fb k : Nat) (s : State) : State :=
  let s := modMe (fun x => { x with mcDone := x.mcDone + 1, mcLast := some (gb, fb, k) }) s
  let l := groupOf s s.cur
  let n := (me s).mcDone
  if l.all (fun h => (hartOf s h).mcDone == n) then
    match l.foldl (fun (b : Option Nat) h => match b with
        | none => some h
        | some g => if grpRank (hartOf s h) < grpRank (hartOf s g) then some h else some g) none with
    | some lead => l.foldl (fun s h => modHart h (fun x => { x with mcLast := (hartOf s lead).mcLast }) s) s
    | none => s
  else s

/-- Before the first step: checks, descriptors and scales. -/
def ksumInit (e : QEntry) (fa gb fb k ord : Nat) (ga : Nat) (s : State) : KR KSum :=
  let w := mWho e s
  kbind (readDesc w ga s) fun da s =>
    kbind (readDesc w gb s) fun db s =>
      kbind (checkDesc da fa k s) fun _ s =>
        kbind (checkDesc db fb k s) fun _ s =>
        kbind (checkRec da s) fun _ s =>
        kbind (checkRec db s) fun _ s =>
          let a := operandScale da fa s
          let b := operandScale db fb s
          .ok { ord := ord, init := true, da := da, db := db, k := k, fb := fb, sa := a.1, tea := a.2, sb := b.1,
                teb := b.2, ova := 0, ovb := 0 } s

/-- A line of a non-grouped operand as values of its codes; a record-scaled one is quantised (R386). -/
structure KLine where
  vals : List Val
  fl : Fl
  /-- lowest k that overflowed -/
  ov : Option Nat
  deriving DecidableEq, Repr

def quantLine (d : MDesc) (f sc k0 : Nat) (cs : List Nat) : KLine :=
  if d.rs then
    let qs := cs.map (fun c => quantize f 0 (decodeF fp32 sc) (decodeF (f012 (BitVec.ofNat 2 d.sfmt)) c))
    { vals := qs.map (fun q => decodeFmt f q.1), fl := qs.foldl (fun x q => x ||| q.2.1) 0,
      ov := ((List.zip (List.range qs.length) qs).find? (fun p => p.2.2.2)).map (fun p => k0 + p.1) }
  else { vals := cs.map (decodeFmt f), fl := 0, ov := none }

def readKLine (w : Who) (d : MDesc) (f sc kTop k0 n l : Nat) (s : State) : KR KLine :=
  kbind (readLine w d (d.bits f) kTop l k0 n s) fun cs s => .ok (quantLine d f sc k0 cs) s

/-- 1 + the lowest l × K + k among lines that overflowed, joined with an earlier one. -/
def lowestOv (k old : Nat) (ls : List (Nat × KLine)) : Nat :=
  ls.foldl (fun x l => match l.2.ov with
    | some i => if x = 0 ∨ l.1 * k + i + 1 < x then l.1 * k + i + 1 else x
    | none => x) old

def lineFlags (ls : List (Nat × KLine)) : Fl := ls.foldl (fun f l => f ||| l.2.fl) 0

/-- One step: block (bi, bj) over slice n. -/
def ksumStep (e : QEntry) (q : KSum) (t fa rm step : Nat) (s : State) : KR KSum :=
  let x := me s
  let w := mWho e s
  let br := tileRows x t / 32
  let bc := tileCols x t / 32
  let n := step / (br * bc)
  let bi := step % (br * bc) / bc
  let bj := step % bc
  let len := sliceLen fa q.fb
  let k0 := n * len
  let k1 := min (min (k0 + len) q.k) x.klim.toNat
  let rows := ((List.range 32).map (fun i => 32 * bi + i)).filter (fun i => x.rowpred.getLsbD i)
  let cols := ((List.range 32).map (fun j => 32 * bj + j)).filter (fun j => x.colpred.getLsbD j)
  if k1 ≤ k0 ∨ rows.isEmpty ∨ cols.isEmpty then .ok q s
  else
    let m := k1 - k0
    let meter (s : State) : State := addMeter x.part.toNat 1 (rows.length * cols.length * m) s
    if pairKind fa = 2 then
      kbind (readLines (fun l s => readGLine w q.da fa q.k l k0 m s) rows s) fun as s =>
        kbind (readLines (fun l s => readGLine w q.db q.fb q.k l k0 m s) cols s) fun bs s =>
          .ok q (meter (updBlock t (fun w a b => updGrouped rm (List.zip a b) none w 0) as bs s))
    else
      kbind (readLines (fun l s => readKLine w q.da fa q.sa q.k k0 m l s) rows s) fun as s =>
        kbind (readLines (fun l s => readKLine w q.db q.fb q.sb q.k k0 m l s) cols s) fun bs s =>
          let q' := { q with ova := lowestOv q.k q.ova as, ovb := lowestOv q.k q.ovb bs }
          let part := x.part.toNat
          let ovs (b : Bool) (i : Nat) (s : State) : KR Unit := if b then krOf (setOvs (dieNo s.cur) part i s) else .ok () s
          kbind (ovs (q.ova == 0 && q'.ova != 0) q.da.recIx s) fun _ s =>
          kbind (ovs (q.ovb == 0 && q'.ovb != 0) q.db.recIx s) fun _ s =>
          let s := addFl (lineFlags as ||| lineFlags bs) s
          let upd (w : Nat) (a b : KLine) : Nat × Fl :=
            if q.da.rs || q.db.rs then updScaled rm w (decodeF fp32 q.sa) (decodeF fp32 q.sb) a.vals b.vals
            else if pairKind fa = 0 then updFloat rm w a.vals b.vals
            else updInt w (a.vals.map valInt) (b.vals.map valInt)
          .ok q' (meter (updBlock t upd as bs s))
where
  /-- The integer of an integer code's value. -/
  valInt : Val → Int
    | .fin neg m _ => if neg then -(m : Int) else m
    | _ => 0

/-- Steps of a K-sum (R386). -/
def ksumSteps (x : Hart) (t fa fb k : Nat) : Nat :=
  let len := sliceLen fa fb
  (k + len - 1) / len * (tileRows x t / 32) * (tileCols x t / 32)

/-- The RESCALE of a K-sum that overflowed in an operand whose record's TE was 1 (R157): A's record where A overflowed,
else B's. -/
def ksumRescale (q : KSum) : Option (Nat × Nat) :=
  if (q.ova ≠ 0 ∧ q.tea = 1) ∨ (q.ovb ≠ 0 ∧ q.teb = 1) then
    if q.ova ≠ 0 then some (q.da.recIx, q.ova - 1) else some (q.db.recIx, q.ovb - 1)
  else none

/-- The hart's MKSUM of this ordinal is complete. -/
def mcComplete (ord : Nat) (s : State) : State := if ord = 0 then s else modMe (fun x => { x with mcFin := ord }) s

/-- One step of an MKSUM that has read its descriptors; the entry stays until its last step. -/
def ksumAdvance (e : QEntry) (q : KSum) (tn fa rnd : Nat) (s : State) : LRes :=
  if (me s).mgrant = 0 then mStop e e.vstart (tileoffFlt tn 4) s
  else if !tileOn (me s) tn then mStop e e.vstart (tileoffFlt tn 0) s
  else
    let total := ksumSteps (me s) tn fa q.fb q.k
    if total ≤ e.vstart then .done (mcComplete q.ord s)
    else match ksumStep e q tn fa rnd e.vstart s with
      | .bad f n s => stopAt { e with kept := q.pack } e.vstart f (if n = 0 then mNoStream else kStream n) s
      | .wait s => .block { e with kept := q.pack } none s
      | .ok q s =>
        if e.vstart + 1 < total then .block { e with vstart := e.vstart + 1, kept := q.pack } none s
        else match ksumRescale q with
          | some (r, i) =>
            .fault { e with vstart := total, kept := { q with tea := 0, teb := 0 }.pack }
              { flt := rescaleFlt r, lpc := e.ctx.pc, elem := i, stream := 2, fs := mNoStream } (mcComplete q.ord s)
          | none => .done (mcComplete q.ord s)

/-! ### Multicast (R387) -/

/-- The members of a hart's group that are not through with the K-sum of an ordinal. -/
def mcOthers (s : State) (ord : Nat) : List Nat :=
  (groupOf s s.cur).filter (fun h => h != s.cur && decide ((hartOf s h).mcFin < ord))

/-- A hart's multicast K-sum of an ordinal has come to a step. -/
def mcAt (x : Hart) (ord step : Nat) : Bool :=
  (decide (x.run = .running) || decide (x.run = .parked)) && x.pend.isNone && x.entry.isNone && !x.reattach &&
  match x.mq with
  | e :: _ => match e.instr with
    | .mksum .. =>
      let q := KSum.unpack e.kept
      q.init && q.ord == ord && e.vstart == step
    | _ => false
  | [] => false

/-- Whether a K-sum made its step. -/
def madeStep (e : QEntry) (r : LRes) : Bool :=
  match r with
  | .done _ => true
  | .block e' _ _ => decide (e'.vstart ≠ e.vstart)
  | .fault e' _ _ => decide (e'.vstart ≠ e.vstart)

/-- The step of another member's K-sum. -/
def mcStepOf (h : Nat) (s : State) : Bool × State :=
  let t : State := { s with cur := h }
  match (me t).mq with
  | e :: rest => match e.instr with
    | .mksum _ tl fa _ rnd _ _ _ =>
      let r := ksumAdvance e (KSum.unpack e.kept) tl.toNat fa.toNat rnd.toNat t
      (madeStep e r, { afterM r rest with cur := s.cur })
    | _ => (false, s)
  | [] => (false, s)

/-- Every other member makes the step, or the first one that cannot is named. -/
def mcStepAll : List Nat → State → State ⊕ Nat
  | [], s => .inl s
  | h :: r, s =>
    let p := mcStepOf h s
    if p.1 then mcStepAll r p.2 else .inr h

/-- Paired K-sums make a step together: all of them, or none, and then the first that cannot has its stall or trap. -/
def mcTogether (e : QEntry) (own : LRes) (others : List Nat) (s : State) : LRes :=
  if !madeStep e own then own
  else
    let stay (h : Nat) : LRes := .block e none (mcStepOf h s).2
    match own with
    | .done t => match mcStepAll others t with
      | .inl t => .done t
      | .inr h => stay h
    | .block e' why t => match mcStepAll others t with
      | .inl t => .block e' why t
      | .inr h => stay h
    | .fault e' p t => match mcStepAll others t with
      | .inl t => .fault e' p t
      | .inr h => stay h

/-- MKSUM. One of a grouped hart first arrives, then reads its descriptors when all members have arrived, and then proceeds with
theirs. -/
def perfMksum (mc : Bool) (t : Idx3) (fa fb : BitVec 4) (rnd : BitVec 2) (ga gb gc : Reg) : Perform := fun e s =>
  let tn := t.toNat
  let x := me s
  let q0 := KSum.unpack e.kept
  let grouped := mc && grpMembers x != 0
  let kOwn := cg e.ctx gc % 2 ^ 32
  if x.mgrant = 0 then mStop e e.vstart (tileoffFlt tn 4) s
  else if !tileOn x tn then mStop e e.vstart (tileoffFlt tn 0) s
  else if grouped && q0.ord == 0 then
    let s := mcArrive (cg e.ctx gb) fb.toNat kOwn s
    .block { e with kept := { q0 with ord := (me s).mcDone }.pack } none s
  else if grouped && !q0.init && (groupOf s s.cur).any (fun h => decide ((hartOf s h).mcDone < q0.ord)) then .block e none s
  else
    let ops := match grouped, x.mcLast with
      | true, some p => p
      | _, _ => (cg e.ctx gb, fb.toNat, kOwn)
    let start : KR KSum := if q0.init then .ok q0 s
      else ksumInit e fa.toNat ops.1 ops.2.1 ops.2.2 q0.ord (cg e.ctx ga) s
    match start with
    | .bad f n s => stopAt e e.vstart f (if n = 0 then mNoStream else kStream n) s
    | .wait s => .block e none s
    | .ok q s =>
      if !(grouped && q.ord != 0) then ksumAdvance e q tn fa.toNat rnd.toNat s
      else if !q0.init then .block { e with kept := q.pack } none s
      else
        let others := mcOthers s q.ord
        if others.all (fun h => mcAt (hartOf s h) q.ord e.vstart) then
          mcTogether e (ksumAdvance e q tn fa.toNat rnd.toNat s) others s
        else .block e none s

/-! ## Moving tiles (R389, R390) -/

/-- conv from the tile. -/
def lineOut (fmt : BitVec 2) (rnd : Nat) (sat : Bool) (w : Nat) : Nat × Fl :=
  if fmt = 0 then (w, 0) else convertV (f012 fmt) rnd sat (decodeF fp32 w)

/-- conv to the tile. -/
def lineIn (fmt : BitVec 2) (x : Nat) : Nat × Fl := if fmt = 0 then (x, 0) else convertV fp32 0 false (decodeF (f012 fmt) x)

/-- The tile word of element (k, e): a row line, or a column line. -/
def linePos (col : Bool) (g k i : Nat) : Nat × Nat := if col then (i, g + k) else (g + k, i)

def inTile (x : Hart) (t : Nat) (p : Nat × Nat) : Bool := decide (p.1 < tileRows x t) && decide (p.2 < tileCols x t)

/-- A disabled tile, found at element 0 (R389). A resumed instruction keeps the elements it has performed. -/
def lineOff (e : QEntry) (t : Nat) (s : State) : LRes :=
  .fault e { flt := tileoffFlt t 0, lpc := e.ctx.pc, elem := 0, stream := 2, fs := mNoStream } s

/-- Tile lines to a register; with `z` each word read is zeroed. -/
def lineRead (col z : Bool) (o : LineOp) : Perform := fun e s =>
  let t := o.tile.toNat
  let g := cg e.ctx o.gb
  if !tileOn (me s) t then lineOff e t s
  else
    elemLoop e (fun k i s =>
        if active (me s) o.mask k i then
          let p := linePos col g k i
          if inTile (me s) t p then
            let r := lineOut o.fmt o.rnd.toNat o.sat (accWord (me s) t p.1 p.2)
            let s := addFl r.2 (setVElem o.v.toNat k i (f012Bits o.fmt) r.1 s)
            .ok () (if z then modMe (setAccWord t p.1 p.2 0) s else s)
          else .bad (tileoffFlt t 2) s
        else .ok () s)
      (fun _ _ _ _ => mNoStream) (fun _ _ => none) (tileOf e.ctx (List.range e.ctx.rc)) s

/-- A register to tile lines. A bound source's fault is that of its stream. -/
def lineWrite (col : Bool) (o : LineOp) : Perform := fun e s =>
  let t := o.tile.toNat
  let g := cg e.ctx o.gb
  let opd : Opd := if o.fmt = 0 then .raw 32 else .flt o.fmt.toNat o.rnd.toNat o.sat
  if !tileOn (me s) t then lineOff e t s
  else
    memLoop e [o.v] (fun k i s => readSrcs e.ctx k i [(o.v, opd)] s)
      (fun k i xs kept s =>
        if active (me s) o.mask k i then
          let p := linePos col g k i
          if inTile (me s) t p then
            let a := xs.getD 0 (0, 0)
            let r := lineIn o.fmt a.1
            .ok kept (addFl (r.2 ||| a.2) (modMe (setAccWord t p.1 p.2 r.1) s))
          else .bad (tileoffFlt t 2) s
        else .ok kept s)
      (fun _ _ => mNoStream) (tileOf e.ctx (List.range e.ctx.rc)) [] s

/-- The words of a tile that rowpred and colpred leave, with their element numbers i × C + j. -/
def tileCells (x : Hart) (t : Nat) : List (Nat × Nat × Nat) :=
  let c := tileCols x t
  (List.range (tileRows x t)).flatMap (fun i => if x.rowpred.getLsbD i then
    ((List.range c).filter (fun j => x.colpred.getLsbD j)).map (fun j => (i * c + j, i, j)) else [])

/-- A loop over tile words in memory order. -/
def tileLoop (e : QEntry) (log : Nat) (c : Nat) (body : Nat → Nat → State → MR Unit) : List (Nat × Nat × Nat) → State → LRes
  | [], s => .done s
  | (ix, i, j) :: r, s =>
    if ix < e.vstart then tileLoop e log c body r s
    else match body i j s with
      | .ok _ s => tileLoop e log c body r s
      | .bad f s => stopAt e ix f (mkStream 2 log 0 (2 ^ log : Nat) (c - j) false) s
      | .wait s => .block { e with vstart := ix } none s

def lineMemAddr (e : QEntry) (o : LineMem) (w i j : Nat) : Nat := wrapTo 64 (cg e.ctx o.ga + i * cg e.ctx o.gb + j * w)

/-- The addresses that a store of a tile has still to write. -/
def tileLeft (o : LineMem) (w : Nat) (e : QEntry) (s : State) : List Nat :=
  ((tileCells (me s) o.tile.toNat).filter (fun p => decide (e.vstart ≤ p.1))).map (fun p => lineMemAddr e o w p.2.1 p.2.2)

/-- The predicated tile to memory (R389 func 4, R390 func 1), whose destination lines the unit owns (R172). -/
def tileStore (z : Bool) (o : LineMem) : Perform := fun e s =>
  let t := o.tile.toNat
  let w := f012Bits o.fmt / 8
  if !tileOn (me s) t then lineOff e t s
  else
    withLines (mWho e s) w (tileLeft o w) <| entered 2 <| tileLoop e (Nat.log2 w) (tileCols (me s) t) (fun i j s =>
        let r := lineOut o.fmt o.rnd.toNat o.sat (accWord (me s) t i j)
        mbind (vaWriteN { mWho e s with hold := 2 } (lineMemAddr e o w i j) (toBytes w r.1) s) fun _ s =>
          .ok () (addFl r.2 (if z then modMe (setAccWord t i j 0) s else s)))
      (tileCells (me s) t) s

/-- Memory to the predicated tile (R389 func 5). -/
def tileLoad (o : LineMem) : Perform := fun e s =>
  let t := o.tile.toNat
  let w := f012Bits o.fmt / 8
  if !tileOn (me s) t then lineOff e t s
  else
    entered 2 <| tileLoop e (Nat.log2 w) (tileCols (me s) t) (fun i j s =>
        mbind (vaReadN { mWho e s with hold := 2 } (lineMemAddr e o w i j) w s) fun bs s =>
          let r := lineIn o.fmt (ofBytes bs)
          .ok () (addFl r.2 (modMe (setAccWord t i j r.1) s)))
      (tileCells (me s) t) s

def perfMlineRrow (o : LineOp) : Perform := lineRead false false o
def perfMlineRcol (o : LineOp) : Perform := lineRead true false o
def perfMlineWrow (o : LineOp) : Perform := lineWrite false o
def perfMlineWcol (o : LineOp) : Perform := lineWrite true o
def perfMlineSt (o : LineMem) : Perform := tileStore false o
def perfMlineLd (o : LineMem) : Perform := tileLoad o
def perfMdrain (z : Bool) (o : LineOp) : Perform := lineRead false z o
def perfMdrainSt (z : Bool) (o : LineMem) : Perform := tileStore z o

/-! ## exec -/

def execMattach (d : Reg) (s : State) : Out := .next (issueM Check.none (.mattach d) (perfMattach d) s)
def execMdetach (s : State) : Out := .next (issueM Check.none .mdetach perfMdetach s)
def execMtile (t : Idx3) (r c : BitVec 2) (s : State) : Out := .next (issueM Check.none (.mtile t r c) (perfMtile t r c) s)
def execMtileOff (t : Idx3) (s : State) : Out := .next (issueM Check.none (.mtileOff t) (perfMtileOff t) s)
def execMclr (t : Idx3) (s : State) : Out := .next (issueM Check.none (.mclr t) (perfMclr t) s)
def execMpredRows (gb : Reg) (s : State) : Out := .next (issueM Check.none (.mpredRows gb) (perfMpredRows gb) s)
def execMpredCols (gb : Reg) (s : State) : Out := .next (issueM Check.none (.mpredCols gb) (perfMpredCols gb) s)
def execMpredK (gb : Reg) (s : State) : Out := .next (issueM Check.none (.mpredK gb) (perfMpredK gb) s)
def execMpredRowm (ma : Idx3) (s : State) : Out := .next (issueM Check.none (.mpredRowm ma) (perfMpredRowm ma) s)
def execMpredColm (ma : Idx3) (s : State) : Out := .next (issueM Check.none (.mpredColm ma) (perfMpredColm ma) s)
def execMpredAll (s : State) : Out := .next (issueM Check.none .mpredAll perfMpredAll s)
def execMksum (mc : Bool) (t : Idx3) (fa fb : BitVec 4) (rnd : BitVec 2) (ga gb gc : Reg) (s : State) : Out :=
  .next (issueM Check.none (.mksum mc t fa fb rnd ga gb gc) (perfMksum mc t fa fb rnd ga gb gc) s)
def lineCheck (o : LineOp) (dst : List Reg) : Check := { Check.none with width := f012Bits o.fmt, dst := dst }
def execMlineRrow (o : LineOp) (s : State) : Out := .next (issueM (lineCheck o [o.v]) (.mlineRrow o) (perfMlineRrow o) s)
def execMlineRcol (o : LineOp) (s : State) : Out := .next (issueM (lineCheck o [o.v]) (.mlineRcol o) (perfMlineRcol o) s)
def execMlineWrow (o : LineOp) (s : State) : Out := .next (issueM (lineCheck o []) (.mlineWrow o) (perfMlineWrow o) s)
def execMlineWcol (o : LineOp) (s : State) : Out := .next (issueM (lineCheck o []) (.mlineWcol o) (perfMlineWcol o) s)
def execMlineSt (o : LineMem) (s : State) : Out := .next (issueM Check.none (.mlineSt o) (perfMlineSt o) s)
def execMlineLd (o : LineMem) (s : State) : Out := .next (issueM Check.none (.mlineLd o) (perfMlineLd o) s)
/-- An MDRAIN that heads a convoy enters the vector queue with it (R390). -/
def execMdrain (z : Bool) (o : LineOp) (s : State) : Out :=
  .next (if 0 < (me s).convLeft then issueV (lineCheck o [o.v]) (.mdrain z o) (perfMdrain z o) s
    else issueM (lineCheck o [o.v]) (.mdrain z o) (perfMdrain z o) s)
def execMdrainSt (z : Bool) (o : LineMem) (s : State) : Out := .next (issueM Check.none (.mdrainSt z o) (perfMdrainSt z o) s)
def execMgroup (d : Reg) (members : BitVec 4) (s : State) : Out :=
  .next (issueM Check.none (.mgroup d members) (perfMgroup d members) s)

end Sys2Proof.Machine
end

