-- ==== Sys2Proof/Machine/Copy.lean ====
section
/-! DEFINITION. The copy engine and its tags (R67, R68, R94 to R104, R403 to R407), and the ring instructions (R109 to
R111, R408 to R412). -/

namespace Sys2Proof.Machine

/-! ## Issue (R101, R403) -/

/-- The SRF offset of a ring header is usable. -/
def ringOffOk (s : State) (a : Nat) : Bool := decide (a < srfLimit s (coreNo s.cur)) && a % 64 == 0

/-- Reserved bits of a used nest register. -/
def nestBad (n : BitVec 256) : Bool := bitsOf n.toNat 32 16 != 0

/-- The reason with which CPY is refused, none when it is accepted. -/
def cpyReason (mode : Nat) (ring : Bool) (o : CpyOp) (s : State) : Option Nat :=
  let blk := (gGet o.gb s).toNat
  let dst := (gGet o.gd s).toNat
  if blk = 0 ∨ 2 ^ 24 ≤ blk then some 0
  else if (o.keep || ring) && mode != 0 then some 0
  else if mode = 2 ∧ dst % 32 ≠ 0 then some 0
  else if ring && !ringOffOk s dst then some 0
  else if (List.range o.dims.toNat).any (fun k => nestBad (nestOf (me s) k)) then some 0
  else if 56 ≤ o.tag.toNat ∧ (coreOf s (coreNo s.cur)).revActive then some 2
  else none

/-- A command of the current hart on a stream. -/
def mkCmd (mode : Nat) (ring keep : Bool) (src dst : Word) (blk dims tag stream : Nat) (s : State) : CopyCmd :=
  let x := me s
  { hart := s.cur, part := x.part, handler := x.handler, src := src, dst := dst, blk := blk, dims := dims, tag := tag,
    mode := mode, keep := keep, ring := ring, nest := (List.range dims).map (nestOf x), pc := x.pc, stream := stream,
    blocks := 0, bytes := 0, buf := [], hash := shaInit, tail := [], phase := 0, begun := false, taken := 0, stalled := 0 }

/-- The engine takes the oldest waiting commands while it performs fewer than 16 (R98); `n` bounds how many it takes. -/
def admitCmds (core : Nat) : Nat → State → State
  | 0, s => s
  | n + 1, s =>
    let l := (coreOf s core).cmds
    if 16 ≤ (l.filter (fun c => c.begun && c.phase == 0)).length then s
    else match l.findIdx? (fun c => !c.begun && c.phase == 0) with
      | some i =>
        admitCmds core n (modCore core (fun k => { k with cmds := k.cmds.modify i (fun c => { c with begun := true }) }) s)
      | none => s

/-- A command enters its hart's copy queue and counts on its tag; the engine takes it when it has room. -/
def enqueueCmd (core : Nat) (c : CopyCmd) (s : State) : State :=
  admitCmds core 1 (incTag core c.tag (modCore core (fun k => { k with cmds := k.cmds ++ [c] }) s))

/-- Commands of the hart's stream C in its copy queue. -/
def queuedCmds (s : State) : Nat :=
  ((cmdsOf s s.cur).filter (fun c => c.stream == 3 && c.phase == 0 && !c.begun)).length

def issueCpy (mode : Nat) (ring : Bool) (o : CpyOp) (s : State) : State :=
  if 0 < (me s).capLeft then abandonCapture true s
  else match cpyReason mode ring o s with
    | some r => illegalLong r s
    | none =>
      let core := coreNo s.cur
      if 16 ≤ queuedCmds s ∨ 255 ≤ tagCountOf (coreOf s core) o.tag.toNat then s
      else
        let c := mkCmd mode ring o.keep (gGet o.ga s) (gGet o.gd s) (gGet o.gb s).toNat o.dims.toNat o.tag.toNat 3 s
        retire 8 (enqueueCmd core c s)

def execCpy (o : CpyOp) (s : State) : Out := .next (issueCpy 0 false o s)
def execCpyFill (o : CpyOp) (s : State) : Out := .next (issueCpy 1 false o s)
def execCpyHash (o : CpyOp) (s : State) : Out := .next (issueCpy 2 false o s)
def execCpyRing (o : CpyOp) (s : State) : Out := .next (issueCpy 0 true o s)

/-! ## The blocks of a command (R96, R97) -/

def cmdCounts (c : CopyCmd) : List Nat := c.nest.map nestCount
def cmdTotal (c : CopyCmd) : Nat := (cmdCounts c).foldl (fun x n => x * n) 1

/-- The indices of block `n` in nest order, innermost first. -/
def blockIndices : List Nat → Nat → List Nat
  | [], _ => []
  | c :: r, n => n % c :: blockIndices r (n / c)

/-- Source and destination of block `n`. -/
def blockAddr (c : CopyCmd) (n : Nat) : Nat × Nat :=
  let ix := (blockIndices (cmdCounts c) n).zip c.nest
  let mv (j : Nat) : Int := ix.foldl (fun x p => x + (p.1 : Int) * nestStride p.2 j) 0
  (wrapTo 64 (c.src.toNat + mv 0), wrapTo 64 (c.dst.toNat + mv 1))

/-- The engine's party (R22): its own master, the walk and privilege of the issuing hart. -/
def copyWho (core : Nat) (c : CopyCmd) (s : State) : Who :=
  { hartWho s c.hart c.stream c.handler with
      master := 0x2000 + core, agent := copyAgent core, taken := if c.taken = 0 then s.ticks + 1 else c.taken, part := c.part.toNat, walk := c.part.toNat, nest := decide (0 < c.dims),
      folds := decide (c.mode < 2) }

/-- What a side of a command holds its page's translation under (R54). -/
def copySlot (c : CopyCmd) (side : Nat) : Nat := 64 + 2 * (c.src.toNat * 2 ^ 64 + c.dst.toNat) + side

/-- How a command fares with one block. -/
inductive CmdRes where
  | go (c : CopyCmd) (s : State)
  /-- a fault at a byte of the command, with the bytes left in the block -/
  | bad (c : CopyCmd) (f : Flt) (elem remain : Nat) (s : State)
  /-- stopped with an error and no trap (R103) -/
  | err (c : CopyCmd) (s : State)
  /-- a full ring, or a link that is down: what is left of the command -/
  | stall (c : CopyCmd) (full : Bool) (s : State)

/-- A page of the destination can hold compressed bytes (R68): target 1, or target 4 inside a tier-2 region. -/
def holdsCompressed (l : Loc) : Bool :=
  l.target == 1 || (l.target == 4 && decide (0x10000000000 ≤ l.a) && decide (l.a < 0x40000000000))

/-- Pages that one block writes. -/
def blockPages (d blk : Nat) : List Nat :=
  (List.range ((d % 65536 + blk + 65535) / 65536)).map (fun i => if i = 0 then d else d / 65536 * 65536 + 65536 * i)

/-- The leaf of an address without rights or bits changed: level, address and value. -/
def leafAt (w : Who) (va : Nat) (s : State) : Option (Nat × Nat × Nat) :=
  match walkLevels w va .read 4 w.troot s with
  | .ok p _ => some p
  | _ => none

/-- The check of R68 on a page of the destination. An address beyond the 48 bits and a page that no leaf maps say nothing
yet: the write there raises PAGE (R8, R50). -/
def compressOk (w : Who) (s : State) (a : Nat) : Bool :=
  let va := wrapTo 64 a
  if 2 ^ 48 ≤ va then true
  else match leafAt w va s with
  | some (lvl, _, e) =>
    leafMalformed e lvl || leafOutside e lvl || holdsCompressed (locOf s w e lvl (leafFrame e * 65536 + va % pageSize lvl))
  | none => true

/-- Whether a KEEPCMP command meets a destination that cannot hold compressed bytes, a ring being one. It is asked until the
first byte of the command has been written (R68). -/
def compressBad (core : Nat) (c : CopyCmd) (s : State) : Bool :=
  c.keep && c.blocks == 0 && c.bytes == 0 &&
    (c.ring || !(List.range (cmdTotal c)).all (fun n => (blockPages (blockAddr c n).2 c.blk).all (compressOk (copyWho core c s) s)))

/-- The 64 KiB pages that a block covers whole with both sides at a page boundary, as offsets (R404). -/
def wholePages (sa d blk : Nat) : List Nat :=
  let off := (65536 - sa % 65536) % 65536
  if (d + off) % 65536 ≠ 0 then []
  else (List.range ((blk - off) / 65536)).map (fun i => off + 65536 * i)

/-- A page moved in its compressed form (R404): a target-1 leaf receives CMP by a walker update, which is checked as an atomic
(R51), and the owning die records it. -/
def keepPage (w : Who) (sa d : Nat) (s : State) : MR Unit :=
  match leafAt w sa s, leafAt w d s with
  | some (_, _, sl), some (lvl, ea, dl) =>
    if !sl.testBit 10 then .ok () s
    else
      let frame := leafFrame dl * 65536 + d % pageSize lvl
      let mark (g : Nat) (s : State) : State := { s with cmpHeld := cset false (g / 65536) true s.cmpHeld }
      if bitsOf dl 4 3 = 1 ∧ lvl = 4 then
        let r := checkLocal s w.hart w.walk ea .atomic
        if r ≠ 0 then .bad (accessFlt d r) (logDenial s w.hart w.walk ea .atomic r)
        else .ok () (mark frame (rawWrite ea 8 (dl ||| 2 ^ 10) s))
      else if bitsOf dl 4 3 = 4 ∧ frame / 2 ^ 44 = s.pkg then .ok () (mark (frame % 2 ^ 44) s)
      else .ok () s
  | _, _ => .ok () s

/-- The pages that a block covers whole, in order. -/
def keepPages (w : Who) (sa d : Nat) : List Nat → State → MR Unit
  | [], s => .ok () s
  | o :: r, s => mbind (keepPage w (sa + o) (d + o) s) fun _ s => keepPages w sa d r s

/-- The current block's bytes that are still to be written, read as far as they can be (R97): with what stopped the
reading. A fault leaves the bytes before its piece. -/
def blockData (w : Who) (c : CopyCmd) (sa : Nat) (s : State) : List Byte × MR Unit :=
  let have' := c.bytes + c.buf.length
  if c.mode = 1 then
    let p := toBytes 8 c.src.toNat
    (if c.buf.isEmpty then (List.range (c.blk - c.bytes)).map (fun b => p.getD ((c.bytes + b) % 8) 0) else c.buf, .ok () s)
  else if have' = c.blk then (c.buf, .ok () s)
  else
    let r := readPart w (pieces (c.blk - have')) (wrapTo 64 (sa + have')) (c.blk - have') s
    (c.buf ++ r.1, r.2)

/-- A block pushed as a slot of a ring (R100): its bytes fold as the engine's other writes do (R149). -/
def pushBlock (w : Who) (core : Nat) (c : CopyCmd) (data : List Byte) (s : State) : RingRes :=
  let r := ringHdr s core c.dst.toNat
  match ringPush core c.dst.toNat data s with
  | .ok bs s => .ok bs (foldWrite w { pkg := s.pkg, a := srfAddr core (slotOff r r.tail), leaf := 0, lvl := 4 } data s)
  | r => r

/-- One block of a command that has one left. -/
def runBlock (core : Nat) (c : CopyCmd) (s : State) : CmdRes :=
  let w := copyWho core c s
  let (sa, d) := blockAddr c c.blocks
  let next (c : CopyCmd) : CopyCmd := { c with blocks := c.blocks + 1, bytes := 0, buf := [], stalled := 0 }
  let (data, r) := blockData { w with hold := copySlot c 0 } c sa s
  let c := { c with buf := data }
  match r with
  | .wait s => .stall c false s
  | .bad f s => .bad c f (c.blocks * c.blk + data.length) (c.blk - data.length) s
  | .ok _ s =>
    if c.mode = 2 then
      let r := shaFeed c.hash c.tail data
      .go (next { c with hash := r.1, tail := r.2 }) s
    else if c.ring then
      if (ringHdr s core c.dst.toNat).size ≠ c.blk ∧ ringCheck s core c.dst.toNat = 0 then .err c s
      else match pushBlock w core c data s with
        | .ok _ s => .go (next c) s
        | .stall => .stall c true s
        | .eos => .err c s
        | .bad r => if r = ringPoison then .err c s else .bad c (streamFlt r) (c.blocks * c.blk) c.blk s
    else
      let (n, r) := writePart { w with hold := copySlot c 1 } (pieces data.length) (wrapTo 64 (d + c.bytes)) data s
      let c := { c with bytes := c.bytes + n, buf := data.drop n }
      match r with
      | .ok _ s => match keepPages w sa d (if c.keep then wholePages sa d c.blk else []) s with
        | .ok _ s => .go (next c) s
        | .wait s => .stall c false s
        | .bad f s => .bad c f (c.blocks * c.blk + c.bytes) 0 s
      | .wait s => .stall c false s
      | .bad f s => .bad c f (c.blocks * c.blk + c.bytes) (c.blk - c.bytes) s

/-- The digest of a verify hash goes to the sequencer: its first 8 bytes (R239, R246). -/
def giveDigest (c : CopyCmd) (total : Nat) (s : State) : State :=
  let d := ofBytes ((shaEnd c.hash c.tail (total * c.blk)).take 8)
  modHart c.hart (fun x => { x with r := { x.r with chains := match x.r.chains with
    | k :: rest => { k with digest := some d } :: rest
    | [] => [] } }) s

/-- The next block of a command, or its end. A hash command with a zero COUNT in a used dimension is complete at once and
writes no digest (R96; the model's choice, log 81). -/
def stepCmd (core : Nat) (c : CopyCmd) (s : State) : CmdRes :=
  let total := cmdTotal c
  if c.blocks < total then
    if compressBad core c s then
      .bad c (mkFlt cCompress 0 0) 0 c.blk s
    else runBlock core c s
  else if c.mode = 2 ∧ c.stream = 7 then .go { c with phase := 1 } (giveDigest c total s)
  else if c.mode = 2 ∧ total ≠ 0 then
    match vaWrite (copyWho core c s) c.dst.toNat (shaEnd c.hash c.tail (total * c.blk)) s with
    | .ok _ s => .go { c with phase := 1 } s
    | .bad f s => .bad c f (total * c.blk) 32 s
    | .wait s => .stall c false s
  else .go { c with phase := 1 } s

/-- A command until it is through or stops, so that no line is seen with part of its bytes (R173). -/
def runCmd (core : Nat) : Nat → CopyCmd → State → CmdRes
  | 0, c, s => .go c s
  | n + 1, c, s =>
    match stepCmd core c s with
    | .go c s => if c.phase = 0 then runCmd core n c s else .go c s
    | r => r

/-! ## The engine -/

/-- The bytes that a side of a command may touch: first and one past the last, before wrapping. -/
def cmdSpan (c : CopyCmd) (j : Nat) : Int × Int :=
  let base : Int := if j = 0 then c.src.toNat else c.dst.toNat
  let lo := c.nest.foldl (fun x n => x + min 0 ((nestCount n - 1 : Int) * nestStride n j)) base
  let hi := c.nest.foldl (fun x n => x + max 0 ((nestCount n - 1 : Int) * nestStride n j)) base
  (lo, hi + (if c.mode = 2 ∧ j = 1 then 32 else c.blk))

/-- The places of this package and others that a side of a command may touch, page by page as the tables stand: first
and one past the last global address. None when they are too many to tell. -/
def cmdPlaces (core : Nat) (c : CopyCmd) (s : State) (j : Nat) : Option (List (Nat × Nat)) :=
  if c.ring && j == 1 then
    let r := ringHdr s core c.dst.toNat
    let b := glob s (srfAddr core 0)
    some [(b + c.dst.toNat, b + c.dst.toNat + 64), (b + r.base, b + r.base + r.size * r.slots)]
  else if c.mode == 1 && j == 0 then some []
  else
    let (lo, hi) := cmdSpan c j
    if lo < 0 ∨ 2 ^ 48 < hi ∨ hi - lo > 2 ^ 26 then none
    else
      let lo := lo.toNat
      let hi := hi.toNat
      let w := copyWho core c s
      some ((List.range ((hi - 1) / 65536 + 1 - lo / 65536)).filterMap (fun i =>
        let a := max lo ((lo / 65536 + i) * 65536)
        let b := min hi ((lo / 65536 + i + 1) * 65536)
        (leafAt w a s).map (fun (lvl, _, e) =>
          let g := (locOf s w e lvl (leafFrame e * 65536 + a % pageSize lvl)).global
          (g, g + (b - a)))))

def placesMeet (a b : Option (List (Nat × Nat))) : Bool :=
  match a, b with
  | some a, some b => a.any (fun p => b.any (fun q => decide (p.1 < q.2) && decide (q.1 < p.2)))
  | _, _ => true

/-- Two commands of one stream may touch one byte, by whatever address or ring: issue order holds, for reads too (R98,
R159, R161). -/
def cmdConflict (core : Nat) (s : State) (a b : CopyCmd) : Bool :=
  (List.range 2).any (fun i => (List.range 2).any (fun j => placesMeet (cmdPlaces core a s i) (cmdPlaces core b s j)))

/-- Replace the command at an index. -/
def putCmd (core i : Nat) (c : CopyCmd) (s : State) : State := modCore core (fun k => { k with cmds := lset c i k.cmds }) s

/-- A stopped command's fault becomes the hart's pending trap (R57); an error without a trap waits for its STOP. -/
def stopCmd (core i : Nat) (c : CopyCmd) (f : Flt) (elem remain : Nat) (s : State) : State :=
  let s := letGo c.hart (fun k => k / 2 == copySlot c 0 / 2) s
  if f.cause = cAccess ∨ f.cause = cEcc then putCmd core i { c with phase := 2 } s
  else
    let fs : FaultStream :=
      { fvalid := true, fewlog := 0, fkind := if c.dims = 0 then 0 else 3, fstream := c.stream, fstride := 1, fremain := remain }
    setPend c.hart { flt := f, lpc := c.pc, elem := elem, stream := c.stream, fs := streamFor f fs }
      (putCmd core i { c with phase := 3 } s)

/-- Turns after which a stall that counts takes QUEUEHANG (R210). -/
def hangTurns : Nat := 16777216

/-- A command that a full ring stalls is counted, and takes QUEUEHANG imprecisely (R210, R233). -/
def stallCmd (core i : Nat) (c : CopyCmd) (full : Bool) (s : State) : State :=
  if !full then putCmd core i c s
  else if c.stalled + 1 < hangTurns then putCmd core i { c with stalled := c.stalled + 1 } s
  else setPend c.hart { flt := mkFlt cQueuehang c.dst.toNat (4 + 256 * c.stream), lpc := c.pc, elem := c.blocks * c.blk,
                        stream := c.stream, fs := { noStream with fstream := c.stream } }
    (putCmd core i { c with phase := 3, stalled := 0 } s)

/-- Try the commands of a list in turn: the first that can move is performed as far as it can be. -/
def runFrom (core : Nat) : List CopyCmd → List CopyCmd → State → State
  | _, [], s => s
  | before, c :: rest, s =>
    let held := before.any (fun b =>
      b.hart == c.hart && b.stream == c.stream && (b.phase == 0 || decide (3 ≤ b.phase)) && cmdConflict core s b c)
    if c.phase ≠ 0 ∨ !c.begun ∨ held then runFrom core (before ++ [c]) rest s
    else match runCmd core (cmdTotal c + 2) c s with
      | .go c s => putCmd core before.length c (letGo c.hart (fun k => k / 2 == copySlot c 0 / 2) s)
      | .err c s => putCmd core before.length { c with phase := 2 } (letGo c.hart (fun k => k / 2 == copySlot c 0 / 2) s)
      | .bad c f elem remain s => stopCmd core before.length c f elem remain s
      | .stall c full s => runFrom core (before ++ [c]) rest (stallCmd core before.length c full s)

/-- The addresses that a command has still to write: of each block left its pages, the current block from the bytes on that
it has written; of a hash its digest. -/
def writesLeft (c : CopyCmd) : List (Nat × Nat) :=
  if c.ring then []
  else if c.mode = 2 then (if c.stream = 7 then [] else [(c.dst.toNat, 32)])
  else ((List.range (cmdTotal c)).drop c.blocks).flatMap (fun n =>
    let d := (blockAddr c n).2 + (if n = c.blocks then c.bytes else 0)
    let len := c.blk - (if n = c.blocks then c.bytes else 0)
    (blockPages d len).map (fun a => (a, min (d + len) ((a / 65536 + 1) * 65536) - a)))

/-- The addresses that a command has still to read: of the current block the bytes that it has not taken yet. -/
def readsLeft (c : CopyCmd) : List (Nat × Nat) :=
  if c.mode = 1 then []
  else ((List.range (cmdTotal c)).drop c.blocks).flatMap (fun n =>
    let done := if n = c.blocks then c.bytes + c.buf.length else 0
    let d := (blockAddr c n).1 + done
    let len := c.blk - done
    (blockPages d len).map (fun a => (a, min (d + len) ((a / 65536 + 1) * 65536) - a)))

/-- The lines of a core's engine: it takes its commands, and owns the lines that those which it has taken and not finished have
still to write (R172). -/
def ownLines (core : Nat) (s : State) : State :=
  let goes (c : CopyCmd) : Bool := c.begun && c.phase == 0
  if !(coreOf s core).cmds.any goes && s.owned.isEmpty && s.reading.isEmpty then s
  else
    let s := modCore core (fun k => { k with cmds := k.cmds.map (fun c =>
      if goes c && c.taken == 0 then { c with taken := s.ticks + 1 } else c) }) s
    let cmds := (coreOf s core).cmds.filter goes
    let lines (kind : AccKind) (f : CopyCmd → List (Nat × Nat)) (l : List CopyCmd) : List Owned :=
      l.flatMap (fun c => (f c).flatMap (fun p => linesOf (copyWho core c s) kind p.2 [p.1] s))
    let s := { s with reading := s.reading.filter (fun o => o.owner != copyAgent core) ++ lines .read readsLeft cmds }
    (List.range 8).foldl (fun s i =>
      let h := 8 * core + i
      setOwned (copyAgent core) h (lines .write writesLeft (cmds.filter (fun c => c.hart == h))) s) s

/-- COPY_COMMAND_RUN: the engine performs a command. One that a full ring or a link stalls keeps its progress, and its lines. -/
def execCopyCommandRun (core : Nat) (s : State) : Out :=
  let s := admitCmds core 16 s
  .next (ownLines core (runFrom core [] (coreOf s core).cmds s))

/-- A tag's count fell; when it reached 0, parked harts of the core wake. -/
def wakeTag (core t : Nat) (s : State) : State := if tagCountOf (coreOf s core) t = 0 then wakeCore core s else s

/-- The first command in a phase leaves the engine. -/
def takePhase (core phase : Nat) (s : State) : Option CopyCmd × State :=
  let l := (coreOf s core).cmds
  match l.findIdx? (fun c => c.phase == phase) with
  | some i => (l[i]?, modCore core (fun k => { k with cmds := k.cmds.eraseIdx i }) s)
  | none => (none, s)

/-- COPY_COMMAND_COMPLETE (R102). -/
def execCopyCommandComplete (core : Nat) (s : State) : Out :=
  match takePhase core 1 s with
  | (some c, s) => .next (ownLines core (wakeTag core c.tag (decTag core c.tag s)))
  | (none, s) => .next s

/-- The chain's DEPTH and the state's index of a snapshot copy, by its slot's address (R247); for a verify hash those of
the task that waits for it. -/
def snapOf (x : Hart) (mode : Nat) (dst : Word) : Nat × Nat :=
  if mode = 2 then match x.r.chains with
    | c :: _ => (c.depth, match c.tasks with
      | .record j :: _ | .check j :: _ | .checkSlot j :: _ => j
      | _ => 0)
    | [] => (0, 0)
  else (x.r.chains.findSome? (fun c => match c.lastSnap with
    | some (m, k) => if BitVec.ofNat 64 (c.slotBase.toNat + (4 + k) * c.stateB) = dst then some (c.depth, m) else none
    | none => none)).getD (0, 0)

/-- A snapshot copy or verify hash that stopped with an error (R247): it leaves its tag, whose TAGERR bit is cleared, REVERR is
raised, and the command waits to be issued once more. -/
def snapError (core : Nat) (c : CopyCmd) (s : State) : State :=
  let (depth, m) := snapOf (hartOf s c.hart) c.mode c.dst
  let again : CopyCmd := { c with phase := 4, blocks := 0, bytes := 0, buf := [], hash := shaInit, tail := [] }
  let s := decTag core c.tag (modCore core (fun k =>
    { k with cmds := k.cmds ++ [again], tagErr := k.tagErr &&& ~~~(BitVec.ofNat 64 (2 ^ c.tag)) }) s)
  setPend c.hart
    { flt := mkFlt cReverr c.dst.toNat (3 + 16 * depth), lpc := c.pc, elem := m, stream := 7,
      fs := { noStream with fstream := 7 } } s

/-- COPY_COMMAND_STOP (R103): TAGERR, then the count. -/
def execCopyCommandStop (core : Nat) (s : State) : Out :=
  match takePhase core 2 s with
  | (some c, s) =>
    .next (ownLines core (wakeTag core c.tag (if c.stream = 7 then snapError core c s else discardCmd core c s)))
  | (none, s) => .next s

/-! ## Waiting on tags (R405 to R407) -/

/-- A tag instruction with its mask: tags of the sequencer are refused while a chain is active. -/
def tagOp (a : Reg) (f : Nat → State → State) (s : State) : State :=
  scalarLong (fun s =>
    let m := (gGet a s).toNat
    if m / 2 ^ 56 ≠ 0 ∧ (coreOf s (coreNo s.cur)).revActive then illegalLong 2 s else f m s) s

/-- Synchronising on stream C: a fault of a stopped command is delivered at the wait. -/
def tagSync (k : State → State) (s : State) : State :=
  match (me s).pend with
  | some p => if p.stream = 3 then deliver s.cur (me s).pc s else k s
  | none => k s

def readyOf (s : State) (m : Nat) : Nat := tagrdy (coreOf s (coreNo s.cur)) &&& m

/-- The lowest tag of a set, all ones for none. -/
def lowestTag (m : Nat) : Nat := if m = 0 then allOnes64 else ctzOp 64 m

def execTwait (d a : Reg) (s : State) : Out :=
  .next (tagOp a (fun m => tagSync (fun s => if readyOf s m = m then retire 8 (setGNat d m s) else s)) s)
def execTwaitAny (d a : Reg) (s : State) : Out :=
  .next (tagOp a (fun m => tagSync (fun s =>
    if m = 0 ∨ readyOf s m ≠ 0 then retire 8 (setGNat d (readyOf s m) s) else s)) s)
def execTfirst (d a : Reg) (s : State) : Out :=
  .next (tagOp a (fun m => tagSync (fun s =>
    if m = 0 ∨ readyOf s m ≠ 0 then retire 8 (setGNat d (lowestTag (readyOf s m)) s) else s)) s)
def execTfirstNw (d a : Reg) (s : State) : Out :=
  .next (tagOp a (fun m => tagSync (fun s => retire 8 (setGNat d (lowestTag (readyOf s m)) s))) s)

/-- TCLR: TAGERR is read and the bits of m cleared in one step. -/
def execTclr (d a : Reg) (s : State) : Out :=
  .next (tagOp a (fun m s =>
    let core := coreNo s.cur
    let old := (coreOf s core).tagErr
    let s := modCore core (fun c => { c with tagErr := c.tagErr &&& ~~~(BitVec.ofNat 64 m) }) s
    retire 8 (setG d old s)) s)

/-! ## Rings (R409 to R412) -/

/-- A register's storage as one number, row k at byte 2,048 × k. -/
def regNum (x : Hart) (v : Nat) : Nat := (List.range 8).foldl (fun n k => n + (vRow x v k).toNat * 2 ^ (16384 * k)) 0
def regBytes (x : Hart) (v off n : Nat) : List Byte := toBytes n (regNum x v / 2 ^ (8 * off))

/-- Bytes of a register's storage replaced; its extent grows to them (R59). -/
def putRegBytes (v off : Nat) (bs : List Byte) (x : Hart) : Hart :=
  let old := regNum x v
  let w := 8 * bs.length
  let new := old - bitsOf old (8 * off) w * 2 ^ (8 * off) + ofBytes bs * 2 ^ (8 * off)
  let x := (List.range 8).foldl (fun x k => putRow v k (BitVec.ofNat 16384 (new / 2 ^ (16384 * k))) x) x
  touchV v 0 (off + bs.length) x

def gNoStream : FaultStream := { noStream with fstream := 6 }

def gStop (e : QEntry) (elem : Nat) (f : Flt) (s : State) : LRes := stopAt e elem f gNoStream s

/-- A stalled push or pull (R233). -/
def gHang (e : QEntry) (off reason elem : Nat) : Option PendTrap :=
  some { flt := mkFlt cQueuehang off (reason + 256 * 6), lpc := e.ctx.pc, elem := elem, stream := 6, fs := gNoStream }

/-- A ring instruction that moves `n` slots: `move` moves slot i, `reason` names its stall. -/
def slotLoop (e : QEntry) (off reason eosReason : Nat) (move : Nat → State → RingRes) (land : Nat → List Byte → State → State) :
    Nat → Nat → State → LRes
  | 0, _, s => .done s
  | n + 1, i, s =>
    match move i s with
    | .ok bs s => slotLoop e off reason eosReason move land n (i + 1) (land i bs s)
    | .stall => .block { e with vstart := i } (gHang e off reason i) s
    | .eos => gStop e i (eosFlt off eosReason) s
    | .bad r => gStop e i (ringFlt 6 r) s

/-- What a push or pull checks first (R408, R409). -/
def ringStart (e : QEntry) (off n : Nat) (s : State) : Option Nat :=
  let core := coreNo s.cur
  let r := ringCheck s core off
  if r ≠ 0 then some r
  else if 2048 * e.ctx.rc < n * (ringHdr s core off).size then some 6
  else none

def perfRpush (ga vb : Reg) (c : BitVec 4) : Perform := fun e s =>
  let off := cg e.ctx ga
  let n := c.toNat + 1
  match ringStart e off n s with
  | some r => gStop e e.vstart (ringFlt 6 r) s
  | none =>
    let size := (ringHdr s (coreNo s.cur) off).size
    slotLoop e off 4 1 (fun i s => ringPush (coreNo s.cur) off (regBytes (me s) vb.toNat (i * size) size) s) (fun _ _ s => s)
      (n - e.vstart) e.vstart s

def perfRpull (vd ga : Reg) (c : BitVec 4) : Perform := fun e s =>
  let off := cg e.ctx ga
  let n := c.toNat + 1
  match ringStart e off n s with
  | some r => gStop e e.vstart (ringFlt 6 r) s
  | none =>
    let size := (ringHdr s (coreNo s.cur) off).size
    slotLoop e off 3 2 (fun _ s => ringPull (coreNo s.cur) off s)
      (fun i bs s => modMe (putRegBytes vd.toNat (i * size) bs) s) (n - e.vstart) e.vstart s

/-- REOS: earlier pushes of the stream are complete when it is the head of the queue. -/
def perfReos (ga : Reg) : Perform := fun e s =>
  let off := cg e.ctx ga
  let core := coreNo s.cur
  let r := ringCheck s core off
  if r ≠ 0 then gStop e 0 (ringFlt 6 r) s else .done (srfWrite core (off + 0x10) (toBytes 4 1) s)

/-- The RSTAT status word. -/
def ringStatus (r : RingHdr) : Nat := r.fill + 2 ^ 32 * b2n r.eos + 2 ^ 33 * b2n (r.eos && r.fill == 0)

def perfRstat (d ga : Reg) : Perform := fun e s =>
  let off := cg e.ctx ga
  let core := coreNo s.cur
  let r := ringCheck s core off
  if r ≠ 0 then gStop e 0 (ringFlt 6 r) s else toG d (ringStatus (ringHdr s core off)) s

def perfRstatReset (ga : Reg) : Perform := fun e s =>
  let off := cg e.ctx ga
  let core := coreNo s.cur
  let r := ringCheck s core off
  if r ≠ 0 then gStop e 0 (ringFlt 6 r) s else .done (srfWrite core (off + 8) (toBytes 12 0) s)

def execRpush (ga vb : Reg) (c : BitVec 4) (s : State) : Out := .next (issueV Check.none (.rpush ga vb c) (perfRpush ga vb c) s)
def execRpull (vd ga : Reg) (c : BitVec 4) (s : State) : Out :=
  .next (issueV { Check.none with dst := [vd] } (.rpull vd ga c) (perfRpull vd ga c) s)
def execReos (ga : Reg) (s : State) : Out := .next (issueV Check.none (.reos ga) (perfReos ga) s)
def execRstat (d ga : Reg) (s : State) : Out := .next (issueV Check.none (.rstat d ga) (perfRstat d ga) s)
def execRstatReset (ga : Reg) (s : State) : Out := .next (issueV Check.none (.rstatReset ga) (perfRstatReset ga) s)

end Sys2Proof.Machine
end

