-- ==== Sys2Proof/Machine/Reversal.lean ====
section
/-! DEFINITION. The Eddy sequencer (R238 to R253, R413, R414). A REVCH or REVRET in which the sequencer acts stays the
hart's instruction until the next routine call or the end of the chain: each step takes one action of R245. -/

namespace Sys2Proof.Machine

/-! ## The chain stack -/

def topChain (s : State) : Option Chain := (me s).r.chains.head?

def setTop (c : Chain) (s : State) : State :=
  modMe (fun x => { x with r := { x.r with chains := c :: x.r.chains.drop 1 } }) s

def popChain (s : State) : State :=
  settleRev (coreNo s.cur) (modMe (fun x => { x with r := { x.r with chains := x.r.chains.drop 1 } }) s)

/-- Words 0x04 and 0x24 of a frame (R238). -/
def word04 (c : Chain) : Nat := c.tier * 2 ^ 24 + c.depth * 2 ^ 16 + c.slots
def word24 (c : Chain) : Nat :=
  b2n c.inrout * 2 ^ 10 + b2n c.aborted * 2 ^ 9 + b2n c.verify * 2 ^ 8 + c.phase

/-- The frame's bytes from the sequencer's copy (R238, R241). -/
def frameImage (c : Chain) : List Byte :=
  toBytes 4 c.n ++ toBytes 4 (word04 c) ++ toBytes 8 c.step.toNat ++ toBytes 8 c.adj.toNat ++
  toBytes 8 c.slotBase.toNat ++ toBytes 4 c.stateB ++ toBytes 4 (word24 c) ++ toBytes 4 c.curidx ++
  toBytes 4 c.retarget.toNat ++ toBytes 4 c.nextadj.toNat ++ toBytes 4 c.fsteps.toNat ++ toBytes 8 c.slotMap.toNat

/-- The sequencer writes the frame on stream S (R241). -/
def putFrame (c : Chain) (s : State) : MR Unit := vaWriteN (myWho s) c.frame.toNat (frameImage c) s

/-! ## Regions (R239) -/

def regionAt (c : Chain) (k : Nat) : Nat := wrapTo 64 (c.slotBase.toNat + k * c.stateB)
def baseAt (c : Chain) : Nat := regionAt c 0
def lastAt (c : Chain) : Nat := regionAt c 1
/-- Where a step puts x_j. -/
def workAt (c : Chain) (j : Nat) : Nat := if j = c.n then lastAt c else regionAt c (2 + j % 2)
def slotAt (c : Chain) (k : Nat) : Nat := regionAt c (4 + k)

/-- The slot that holds x_j. -/
def slotOf (c : Chain) (j : Nat) : Option Nat := c.map.findIdx? (fun x => x == some j)

/-- Where x_j lies: BASE, its slot, or a work region; the forward sweep reads work regions only (R245). -/
def stateAt (c : Chain) (sweep : Bool) (j : Nat) : Nat :=
  if j = 0 then baseAt c
  else if sweep then workAt c j
  else match slotOf c j with
    | some k => slotAt c k
    | none => workAt c j

def verifyAt (c : Chain) (j : Nat) : Nat := wrapTo 64 (c.slotMap.toNat + 64 * ((4 * c.slots + 63) / 64) + 8 * j)

/-! ## The schedule (R245) -/

/-- The least t with C(s + t, s) ≥ d, with C(s + t, s) for that t; `c` is C(s + t, s). -/
def leastT (s d : Nat) : Nat → Nat → Nat → Nat × Nat
  | 0, t, c => (t, c)
  | fuel + 1, t, c => if d ≤ c then (t, c) else leastT s d fuel (t + 1) (c * (s + t + 1) / (t + 1))

/-- split(l, r, s) for s above 0: C(s + t − 1, s − 1) is C(s + t, s) × s ÷ (s + t). -/
def split (l r s : Nat) : Nat :=
  let p := leastT s (r - l) (r - l) 0 1
  l + max 1 ((r - l) - p.2 * s / (s + p.1))

/-- The set D of the forward sweep. -/
def descentFrom (r : Nat) : Nat → Nat → List Nat
  | 0, _ => []
  | k + 1, l => if r - l ≤ 1 then [] else
    let m := split l r (k + 1)
    m :: descentFrom r k m

/-- The tasks that reverse(l, r, s, descent) stands for. -/
def reverseTasks (l r s : Nat) (descent : Bool) : List Task :=
  if r - l = 1 then [.checkSlot l, .adj l]
  else if s = 0 then [.loop l (r - 1)]
  else
    let m := split l r s
    (if descent then [] else [.checkSlot l, .advance l m, .snap m]) ++
      [.reverse m r (s - 1) descent, .free m, .reverse l m s false]

/-- The adjoints i down to l with no slot left. -/
def loopTasks (l i : Nat) : List Task :=
  if l < i then [.checkSlot l, .advance l i, .adj i, .loop l (i - 1)] else [.checkSlot l, .adj l]

/-! ## Copies and hashes of the sequencer (R246, R247, R253) -/

def snapTag (s : State) : Nat := 56 + s.cur % 8
def snapCount (s : State) : Nat := tagCountOf (coreOf s (coreNo s.cur)) (snapTag s)

def noRetarget : BitVec 32 := BitVec.allOnes 32

/-- REVERR (R247, R253). -/
def reverr (c : Chain) (reason idx : Nat) (addr : Nat) (lpc : Word) : PendTrap :=
  { flt := mkFlt cReverr addr (reason + 16 * c.depth), lpc := lpc, elem := idx, stream := 7, fs := { noStream with fstream := 7 } }

/-- The hart's verify hash is under way. -/
def hashBusy (s : State) : Bool := (cmdsOf s s.cur).any (fun c => c.stream == 7 && c.mode == 2)

/-- A state's digest by a hash command on stream E and the snapshot tag (R246): the command is issued, and what follows
waits for its digest. -/
def withDigest (c : Chain) (a : Nat) (k : Nat → State → State) (s : State) : State :=
  match c.digest with
  | some d => k d s
  | none =>
    if hashBusy s then s
    else
      let at' := BitVec.ofNat 64 a
      enqueueCmd (coreNo s.cur) (mkCmd 2 false false at' at' c.stateB 0 (snapTag s) 7 s) s

/-- Compare a state's digest with its entry of the verify table; the task is done either way. -/
def compareDigest (c : Chain) (reason idx a : Nat) (rest : List Task) (s : State) : State :=
  withDigest c a (fun d s =>
    scalarDo (vaReadNum (myWho s) (verifyAt c idx) 8 s) fun want s =>
      let s := setTop { c with tasks := rest, digest := none } s
      if d = want then s else setPend s.cur (reverr c reason idx a (me s).pc) s) s

/-! ## Actions -/

/-- A copy of the last snapshot is in flight and touches the region. -/
def copyBusy (c : Chain) (s : State) (g5 : Nat) (g6 : Option Nat) : Bool :=
  match c.lastSnap with
  | some (m, k) => decide (0 < snapCount s) && (g5 == slotAt c k || g6 == some (workAt c m))
  | none => false

/-- The frames of chains that a restore has brought back are written (R419). -/
def putStale : List Chain → State → MR Unit
  | [], s => .ok () s
  | c :: r, s => if c.stale then mbind (putFrame c s) fun _ s => putStale r s else putStale r s

/-- A routine call (R243): the frame is written, those of restored outer chains before it, then control passes. -/
def callRoutine (c : Chain) (call : Nat × Nat) (g5 g6 : Nat) (target : Word) (s : State) : State :=
  let c := { c with inrout := true, calling := some call, acting := false, stale := false }
  scalarDo (mbind (putStale (((me s).r.chains.drop 1).reverse) s) fun _ s => putFrame c s) fun _ s =>
    let s := modMe (fun x => { x with r := { x.r with chains := x.r.chains.map (fun c => { c with stale := false }) } }) s
    goto target (setG 7 c.frame (setGNat 6 g6 (setGNat 5 g5 (setGNat 4 call.2 (setTop c s)))))

/-- step(j) with what follows it. -/
def callStep (c : Chain) (sweep : Bool) (j : Nat) (rest : List Task) (s : State) : State :=
  let g5 := stateAt c sweep j
  let g6 := workAt c (j + 1)
  if copyBusy c s g5 (some g6) then s
  else callRoutine { c with tasks := rest, curidx := j } (0, j) g5 g6 c.step s

def callAdjoint (c : Chain) (i : Nat) (rest : List Task) (s : State) : State :=
  let g5 := stateAt c false i
  if copyBusy c s g5 none then s
  else callRoutine { c with tasks := rest, curidx := i, phase := 2, retarget := noRetarget } (1, i) g5 0 c.adj s

/-- The end of a chain: control passes to the instruction after its REVCH (R243). -/
def leaveChain (c : Chain) (g4 : Nat) (s : State) : State :=
  goto c.ret (setG 7 c.frame (setG 6 0 (setG 5 0 (setGNat 4 g4 (popChain s)))))

/-- A word of the slot map. -/
def putMap (c : Chain) (k : Nat) (v : Option Nat) (s : State) : MR Unit :=
  vaWrite (myWho s) (wrapTo 64 (c.slotMap.toNat + 4 * k)) (toBytes 4 (v.getD (2 ^ 32 - 1))) s

def snapshot (c : Chain) (m : Nat) (rest : List Task) (s : State) : State :=
  if 0 < snapCount s then s
  else match c.map.findIdx? (fun x => x.isNone) with
    | none => setTop { c with tasks := rest } s
    | some k =>
      scalarDo (putMap c k (some m) s) fun _ s =>
        let cmd := mkCmd 0 false false (BitVec.ofNat 64 (workAt c m)) (BitVec.ofNat 64 (slotAt c k)) c.stateB 0 (snapTag s) 7 s
        enqueueCmd (coreNo s.cur) cmd (setTop { c with tasks := rest, map := lset (some m) k c.map, lastSnap := some (m, k) } s)

/-- The next action of the innermost chain. The digests that it records in the verify table are scalar stores of the hart and
fold like them; of the sequencer's writes, R149 and R242 set only the frame's and the slot map's apart (the model's choice,
log 48). -/
def act (c : Chain) (s : State) : State :=
  match c.tasks with
  | [] => leaveChain c 0 s
  | .sweep j :: rest =>
    if c.n ≤ j then setTop { c with tasks := rest } s
    else
      let after := (if c.verify then [Task.record (j + 1)] else []) ++
        (if (descentFrom c.n c.slots 0).contains (j + 1) then [Task.snap (j + 1)] else [])
      callStep { c with phase := 0 } true j (after ++ .sweep (j + 1) :: rest) s
  | .advance j m :: rest =>
    if m ≤ j then setTop { c with tasks := rest } s
    else
      let after := if c.verify then [Task.check (j + 1)] else []
      callStep { c with phase := 1, retarget := BitVec.ofNat 32 m } false j (after ++ .advance (j + 1) m :: rest) s
  | .reverse l r k descent :: rest => setTop { c with tasks := reverseTasks l r k descent ++ rest } s
  | .loop l i :: rest => setTop { c with tasks := loopTasks l i ++ rest } s
  | .snap m :: rest => snapshot c m rest s
  | .free m :: rest =>
    (match slotOf c m with
     | some k => scalarDo (putMap c k none s) fun _ s => setTop { c with tasks := rest, map := lset none k c.map } s
     | none => setTop { c with tasks := rest } s)
  | .adj i :: rest => callAdjoint c i rest s
  | .record j :: rest =>
    withDigest c (stateAt c true j) (fun d s =>
      scalarDo (vaWrite (myWho s) (verifyAt c j) (toBytes 8 d) s) fun _ s =>
        setTop { c with tasks := rest, digest := none } s) s
  | .check j :: rest => compareDigest c 1 j (workAt c j) rest s
  | .checkSlot j :: rest =>
    (match c.verify, slotOf c j with
     | true, some k => if copyBusy c s (slotAt c k) none then s else compareDigest c 2 j (slotAt c k) rest s
     | _, _ => setTop { c with tasks := rest } s)
  | .done :: _ =>
    if 0 < snapCount s then s
    else
      let c := { c with phase := 3, retarget := noRetarget }
      scalarDo (putFrame c s) fun _ s => leaveChain c 0 s

/-- The sequencer goes on; a pending trap goes first (R247, R253). -/
def goOn (c : Chain) (s : State) : State := if (me s).pend.isSome then deliver s.cur (me s).pc s else act c s

/-- REVCH, REVRET and REVABT wait for every earlier long instruction (R216); snapshot copies are none. -/
def syncAll (k : State → State) (s : State) : State :=
  if (me s).pend.isSome then deliver s.cur (me s).pc s else if busy 0x7F s then s else k s

/-! ## REVCH (R240, R242) -/

/-- A chain as REVCH reads it from its frame. -/
def chainOf (fa : Word) (bs : List Byte) (ret : Word) (depth : Nat) : Chain :=
  let f (o n : Nat) : Nat := ofBytes ((bs.drop o).take n)
  let n := f 0 4
  let slots := f 4 2
  { frame := fa, ret := ret, n := n, tier := f 7 1, depth := depth, slots := slots, step := BitVec.ofNat 64 (f 8 8),
    adj := BitVec.ofNat 64 (f 0x10 8), slotBase := BitVec.ofNat 64 (f 0x18 8), stateB := f 0x20 4, inrout := false,
    aborted := false, verify := (f 0x24 4).testBit 8, phase := 0, curidx := 0, retarget := noRetarget,
    nextadj := BitVec.ofNat 32 (n - 1), fsteps := 0, slotMap := BitVec.ofNat 64 (f 0x38 8),
    map := List.replicate slots none,
    tasks := (if (f 0x24 4).testBit 8 then [Task.record 0] else []) ++ [.sweep 0, .reverse 0 n slots true, .done],
    calling := none, lastSnap := none, digest := none, acting := true, stale := false }

/-- The sub-reason of R242 that needs no memory but the frame's word 0x24, 0 for none. -/
def chainSub (c : Chain) (w24 : Nat) (outer : Nat) : Nat :=
  if c.frame.toNat % 64 ≠ 0 ∨ c.slotBase.toNat % 64 ≠ 0 ∨ c.slotMap.toNat % 64 ≠ 0 ∨ c.step.toNat % 4 ≠ 0 ∨
      c.adj.toNat % 4 ≠ 0 then 1
  else if c.n = 0 ∨ 0x7FFFFFFF < c.n ∨ c.stateB = 0 ∨ c.stateB % 64 ≠ 0 ∨ 2 ^ 24 < c.stateB then 2
  else if w24 % 4 ≠ 0 ∨ bitsOf w24 2 6 ≠ 0 ∨ bitsOf w24 11 21 ≠ 0 then 3
  else if 3 < c.tier ∨ outer < c.tier then 4
  else 0

/-- A leaf lies in the tier that TIER names (R240). -/
def tierHolds (tier : Nat) (l : Loc) : Bool :=
  match tier with
  | 0 => l.target == 5
  | 1 => l.target == 0 || (l.target == 4 && decide (l.a < 0x10000000000))
  | 2 => l.target == 1 || (l.target == 4 && decide (0x10000000000 ≤ l.a) && decide (l.a < 0x40000000000))
  | _ => l.target == 3

def slotsHold (c : Chain) (s : State) : MR Bool :=
  if c.slots = 0 then .ok true s
  else
    mbind (translate (myWho s) (slotAt c 0) .read s) fun l s =>
      mbind (translate (myWho s) (wrapTo 64 ((slotAt c c.slots : Int) - 1)) .read s) fun l' s =>
        .ok (tierHolds c.tier l && tierHolds c.tier l') s

def revIllegal (sub : Nat) (s : State) : State := illegalLong (5 + 16 * sub) s

/-- The chain is accepted: the slot map and the frame are written, the chain is pushed (R242). Both are checked before
either is written, so that a fault leaves them as they were. -/
def startChain (c : Chain) (s : State) : State :=
  let core := coreNo s.cur
  if !(coreOf s core).revActive && !eddyTagsIdle s core then s
  else
    let w := myWho s
    scalarDo (mbind (vaProbe w c.slotMap.toNat (4 * c.slots) s) fun _ s =>
      mbind (vaProbe w c.frame.toNat 64 s) fun _ s =>
        mbind (vaWriteN w c.slotMap.toNat (List.replicate (4 * c.slots) 0xFF) s) fun _ s => putFrame c s) fun _ s =>
        modCore core (fun k => { k with revActive := true })
          (modMe (fun x => { x with r := { x.r with chains := c :: x.r.chains } }) s)

/-- REVCH's checks. R242 gives its sub-reasons no order: the lowest one that holds is reported, and a fault of the frame's read
or of a slot's translation goes before sub-reason 0x4 where it needs the address, and 0x5 (the model's choice, log 48). -/
def beginChain (fa : Word) (s : State) : State :=
  if fa.toNat % 64 ≠ 0 then revIllegal 1 s
  else
    scalarDo (vaReadN (myWho s) fa.toNat 64 s) fun bs s =>
      let x := me s
      let c := chainOf fa bs (x.pc + 8) (x.r.chains.length + 1)
      let outer := match x.r.chains with
        | o :: _ => o.tier
        | [] => 3
      let sub := chainSub c (ofBytes ((bs.drop 0x24).take 4)) outer
      if sub ≠ 0 then revIllegal sub s
      else
        scalarDo (slotsHold c s) fun ok s =>
          if !ok then revIllegal 4 s
          else if 4 ≤ x.r.chains.length then revIllegal 5 s
          else startChain c s

def execRevch (ga : Reg) (s : State) : Out :=
  .next (scalarLong (fun s =>
    if (me s).handler then revIllegal 0 s
    else match topChain s with
      | some c => if c.acting then goOn c s else syncAll (beginChain (gGet ga s)) s
      | none => syncAll (beginChain (gGet ga s)) s) s)

/-! ## REVRET, REVABT and REVST (R248, R250, R251, R414) -/

/-- The end of a call in one step (R248). -/
def commit (c : Chain) (s : State) : State :=
  match c.calling with
  | some (0, _) => setTop { c with inrout := false, calling := none, fsteps := c.fsteps + 1, acting := true } s
  | some (_, i) =>
    let c := { c with inrout := false, calling := none, nextadj := BitVec.ofInt 32 ((i : Int) - 1), acting := true }
    scalarDo (putFrame c s) fun _ s => setTop c s
  | none => s

def execRevret (s : State) : Out :=
  .next (scalarLong (fun s =>
    match topChain s with
    | none => illegalLong 6 s
    | some c =>
      if (me s).handler then illegalLong 6 s
      else if c.acting then goOn c s
      else if !c.inrout then illegalLong 6 s
      else syncAll (commit c) s) s)

/-- REVABT ends the innermost chain (R250). -/
def abandon (c : Chain) (s : State) : State :=
  if 0 < snapCount s ∧ !(cmdsOf s s.cur).all (fun x => x.stream != 7 || decide (3 ≤ x.phase)) then s
  else
    let c := { c with phase := 3, aborted := true, inrout := false }
    scalarDo (putFrame c s) fun _ s =>
      if (me s).handler then
        retire 8 (modMe (fun x => { x with revabt := some (c.ret, c.frame) }) (popChain s))
      else leaveChain c 1 s

def execRevabt (s : State) : Out :=
  .next (scalarLong (fun s =>
    match topChain s with
    | none => illegalLong 6 s
    | some c => syncAll (abandon c) s) s)

/-- A field of a chain's frame by its code (R414). -/
def chainField (c : Chain) (field : Nat) : Nat :=
  match field with
  | 0 => c.n
  | 1 => word04 c
  | 2 => c.step.toNat
  | 4 => c.adj.toNat
  | 6 => c.slotBase.toNat
  | 8 => c.stateB
  | 9 => word24 c
  | 10 => c.curidx
  | 11 => c.retarget.toNat
  | 12 => wrapTo 64 c.nextadj.toInt
  | 13 => c.fsteps.toNat
  | _ => c.slotMap.toNat

def execRevst (d : Reg) (depth : BitVec 3) (field : BitVec 4) (s : State) : Out :=
  .next (scalarLong (fun s =>
    let l := (me s).r.chains
    let c := if depth = 0 then l.head? else l.find? (fun c => c.depth == depth.toNat)
    match c with
    | some c => retire 8 (setGNat d (chainField c field.toNat) s)
    | none => retire 8 (setGNat d allOnes64 s)) s)

end Sys2Proof.Machine
end

