-- ==== Sys2Proof/Machine/System.lean ====
section
/-! DEFINITION. Constants and far calls (R415 to R417), SAVEV and RESTV (R418, R419), STEPB (R420), MARKRES (R421) and
TLBINV (R65, R66), which the scalar unit performs. -/

namespace Sys2Proof.Machine

/-! ## Constants and far calls -/

/-- The value LDI leaves in gd (R415). -/
def ldiVal (m : BitVec 2) (imm : BitVec 32) (old : Word) : Word :=
  if m = 0 then imm.signExtend 64
  else if m = 1 then imm.zeroExtend 64
  else BitVec.ofNat 64 (imm.toNat * 2 ^ 32 + old.toNat % 2 ^ 32)

def execLdi (m : BitVec 2) (d : Reg) (imm : BitVec 32) (s : State) : Out :=
  .next (scalarLong (fun s => retire 8 (setG d (ldiVal m imm (gGet d s)) s)) s)

def execAddil (d a : Reg) (imm : BitVec 32) (s : State) : Out :=
  .next (scalarLong (fun s =>
    let (x, fl) := addOp 64 (gGet a s).toNat (imm.signExtend 64).toNat
    retire 8 (addFl fl (setGNat d x s))) s)

def execCallf (d : Reg) (imm : BitVec 32) (s : State) : Out :=
  .next (scalarLong (fun s => jumpTo ((me s).pc + imm.signExtend 64) 8 d s) s)

def execCallfR (d a : Reg) (imm : BitVec 32) (s : State) : Out :=
  .next (scalarLong (fun s => jumpTo (gGet a s + imm.signExtend 64) 8 d s) s)

/-! ## SAVEV and RESTV -/

/-- The register state that SAVEV saves (R418). -/
def saveRecord (x : Hart) : FrameRec := { FrameRec.empty with kind := 1, regs := { x.r with g := [] } }

def execSavev (ga : Reg) (s : State) : Out :=
  .next (scalarLong (fun s =>
    let a := gGet ga s
    if a.toNat % 64 ≠ 0 then preciseTrap (misalignFlt a.toNat 6 true false) s
    else sync allStreams (fun s =>
      scalarDo (writeFrame s.cur a (saveRecord (me s)) noStream 0 s) fun _ s => retire 8 s) s) s)

/-- The g register that a queued instruction writes (R212). -/
def gDest : Instr → Option Reg
  | .mpopc d _ | .mfirst d _ | .vget _ _ d _ _ | .mattach d | .mgroup d _ | .kvctxCfg d _ _ | .kvctxOpen d _ _
  | .kvctxClose d _ _ | .kvctxCb d _ _ | .kvctxPin d _ _ | .kvcomp d _ _ | .srbind d _ _ _ _ | .rstat d _ => some d
  | .vred o => some o.d
  | _ => none

/-- Long instructions that touch no register which every frame holds: RESTV does not wait for them (R419). -/
def touchesSaved : Instr → Bool
  | .kvctxCfg .. | .kvctxOpen .. | .kvctxClose .. | .kvctxCb .. | .kvctxPin .. | .kvcomp .. | .kvfree ..
  | .reos .. | .rstat .. | .rstatReset .. | .srreset .. | .mattach .. | .mdetach | .mtile .. | .mtileOff .. | .mclr ..
  | .mpredRows .. | .mpredCols .. | .mpredK .. | .mpredAll | .mksum .. | .mlineSt .. | .mlineLd .. | .mdrainSt ..
  | .mgroup .. => false
  | _ => true

/-- A queued instruction of the hart will write a g register, which a trap frame restores (R212, R419). -/
def gPending (x : Hart) : Bool := (x.vq ++ x.mq).any (fun e => (gDest e.instr).isSome)

/-- A frame that passed its checks is restored (R419). -/
def restore (rec' : FrameRec) (s : State) : State :=
  let core := coreNo s.cur
  let work := !(rec'.vq.isEmpty && rec'.mq.isEmpty && rec'.cmds.isEmpty)
  if work && !(me s).handler then privTrap s
  else if !rec'.regs.chains.isEmpty && !(coreOf s core).revActive && !eddyTagsIdle s core then s
  else
    let s := adoptKeys rec'.hart s.cur (restoreRegs s.cur rec' false (letGo s.cur (fun _ => true) s))
    retire 8 (settleRev core (modMe (fun x => { x with restored := true, stoppedV := rec'.vq, stoppedM := rec'.mq,
                                                       stoppedC := rec'.cmds }) s))

def execRestv (ga : Reg) (s : State) : Out :=
  .next (scalarLong (fun s =>
    let a := gGet ga s
    if a.toNat % 64 ≠ 0 then preciseTrap (misalignFlt a.toNat 6 false false) s
    else if (me s).vq.any (fun e => touchesSaved e.instr) || (me s).mq.any (fun e => touchesSaved e.instr) then s
    else
      let held := gPending (me s)
      scalarDo (readFrame s.cur a s) fun r s =>
        match r with
        | .wrong => illegalLong 0 s
        | .good rec' => if held && rec'.kind != 1 then s else restore rec' s) s)

/-! ## STEPB -/

/-- Shadows of a partition's records on a die are folded, in order (R153). A fold that is denied raises ACCESS, whose TRAPADDR
holds the record's number: the instruction has no address of its own (the model's choice, log 57). -/
def foldEach (die part : Nat) : List Nat → State → MR Unit
  | [], s => .ok () s
  | i :: r, s => mbind (foldShadow i s die part i) fun _ s => foldEach die part r s

/-- Every non-empty shadow of a partition on a die. -/
def foldShadows (die part : Nat) (s : State) : MR Unit :=
  foldEach die part ((s.shadows.filter (fun p => p.1 / 65536 == die * 65536 + part)).map (fun p => p.1 % 65536)) s

/-- The die's lee cache holds no line of the partition (R91). -/
def dropLee (die part : Nat) (s : State) : State :=
  { s with lee := ckeep (fun k => k / 2 ^ 56 != die * 256 + part) s.lee }

def execStepb (s : State) : Out :=
  .next (scalarLong (sync allStreams (fun s =>
    let die := dieNo s.cur
    let part := (me s).part.toNat
    scalarDo (foldShadows die part s) fun _ s => retire 8 (dropLee die part s))) s)

/-! ## MARKRES -/

/-- The first addresses of the 64 KiB pages of a range, and its own first address. -/
def rangePages (a n : Nat) : List Nat :=
  (List.range ((a % 65536 + n + 65535) / 65536)).map (fun i => if i = 0 then a else a / 65536 * 65536 + 65536 * i)

/-- Every page is translated as a read, in increasing order. -/
def translateAll (w : Who) : List Nat → State → MR Unit
  | [], s => .ok () s
  | a :: r, s => mbind (translate w (wrapTo 64 a) .read s) fun _ s => translateAll w r s

/-- The job takes the buffer, or not, and gd receives the ordinal (R421). -/
def markBuffer (d : Reg) (a n : Word) (s : State) : State :=
  let x := me s
  match x.job with
  | none => retire 8 (setGNat d allOnes64 s)
  | some j =>
    let marks := (jobOf s j).marks
    if 64 ≤ marks.length then retire 8 (setGNat d allOnes64 s)
    else
      let ord := (marks.filter (fun m => m.1 == x.jobhart.toNat)).length
      retire 8 (setGNat d ord (modJob j (fun k => { k with marks := k.marks ++ [(x.jobhart.toNat, ord, a, n)] }) s))

def execMarkres (d a b : Reg) (s : State) : Out :=
  .next (scalarLong (fun s =>
    let base := gGet a s
    let n := gGet b s
    if n = 0 ∨ 2 ^ 34 < n.toNat then illegalLong 0 s
    else sync allStreams (fun s =>
      scalarDo (translateAll (myWho s) (rangePages base.toNat n.toNat) s) fun _ s => markBuffer d base n s) s) s)

/-! ## TLBINV (R63 to R66)

The model walks the tables at every access. It keeps the fetch pins, which TLBINV leaves, and what a stream in progress
holds for its page, which TLBINV drops in its hart's context. -/

/-- The range of addresses that a hart's pin covers: first address and end. -/
def pinRange (p : Nat × Nat × Nat) : Nat × Nat :=
  let size := pageSize (p.2.2 / 8 % 8)
  (p.1 * size, p.1 * size + size)

/-- Whether a hart pins a page of a range. -/
def pinsIn (x : Hart) (lo hi : Nat) : Bool :=
  match x.pin with
  | some p => decide ((pinRange p).1 < hi) && decide (lo < (pinRange p).2)
  | none => false

/-- The harts of a hart's context that pin a page of a range. -/
def pinners (s : State) (x : Hart) (lo hi : Nat) : List Nat :=
  (s.harts.filter (fun p => p.2.part == x.part && p.2.ctx == x.ctx && pinsIn p.2 lo hi)).map (fun p => p.1)

/-- An access of a hart's context, made under a translation of a range, has not completed at its target: it awaits a
link. -/
def translatedWaits (s : State) (x : Hart) (lo hi : Nat) : Bool :=
  s.links.any (fun p => p.2.outstanding.any (fun r =>
    r.req.part == x.part && r.root == x.troot.toNat && decide (r.va < hi) && decide (lo < r.va + max 1 r.req.len)))

/-- The lowest pinned page of a range: of a large page that begins below the range, the range's first page (the model's
choice, log 80). -/
def lowestPinned (s : State) (l : List Nat) (lo : Nat) : Nat :=
  l.foldl (fun m h => match (hartOf s h).pin with
    | some p => min m (max lo (pinRange p).1)
    | none => m) (2 ^ 48)

/-- The translations of a range that streams of the hart's context hold are dropped. -/
def dropRange (lo hi : Nat) (s : State) : State :=
  dropHeld (fun x => x.part == (me s).part && x.ctx == (me s).ctx) (fun page => decide (page * 65536 < hi) && decide (lo < (page + 1) * 65536)) s

/-- TLBINV over a range: `move` and `wait` report or await pins. With no page in the range there is nothing to do, and a range
that leaves the 48 bits is refused: both invalidate nothing. -/
def tlbinvRange (mv wt : Bool) (d : Reg) (a n : Word) (s : State) : State :=
  let lo := a.toNat / 65536 * 65536
  let hi := lo + n.toNat * 65536
  if n = 0 then retire 8 (setG d 0 s)
  else if 2 ^ 48 ≤ a.toNat ∨ 2 ^ 48 < hi then retire 8 (setG d 2 s)
  else
    let s := dropRange lo hi s
    let l := pinners s (me s) lo hi
    if translatedWaits s (me s) lo hi then s
    else if !(mv || wt) || l.isEmpty then retire 8 (setG d 0 s)
    else if mv || l.contains s.cur then retire 8 (setGNat d (1 + lowestPinned s l lo / 65536 % 2 ^ 32 * 65536) s)
    else modMe (fun x => { x with invWait := some (lo, hi) }) s

/-- TLBINV is privileged and waits for every stream first. -/
def tlbinvOp (f : State → State) (s : State) : Out :=
  .next (scalarLong (fun s =>
    if !(me s).handler then preciseAt (mkFlt cPriv 0 0) (me s).pc 0 s
    else sync allStreams f s) s)

def execTlbinv (d a b : Reg) (s : State) : Out :=
  tlbinvOp (fun s => tlbinvRange false false d (gGet a s) (gGet b s) s) s
def execTlbinvMove (d a b : Reg) (s : State) : Out :=
  tlbinvOp (fun s => tlbinvRange true false d (gGet a s) (gGet b s) s) s
def execTlbinvWait (d a b : Reg) (s : State) : Out :=
  tlbinvOp (fun s => tlbinvRange false true d (gGet a s) (gGet b s) s) s
def execTlbinvAll (d : Reg) (s : State) : Out :=
  tlbinvOp (fun s =>
    let s := dropRange 0 (2 ^ 48) s
    if translatedWaits s (me s) 0 (2 ^ 48) then s else retire 8 (setG d 0 s)) s

end Sys2Proof.Machine
end

