-- ==== Sys2Proof/Machine/Sched.lean ====
section
/-! DEFINITION. Pre-emption and resumption of gangs (R79, R82, R103, R221 to R223, R252), the pre-emption of TLBINV.wait
(R66), the power cap (R202, R220), and the debug port (R234 to R236). -/

namespace Sys2Proof.Machine

/-! ## Cores and harts that a launch may take (R79, R265) -/

/-- Harts of a core that a launch holds. -/
def heldHarts (s : State) (core : Nat) : List Nat :=
  ((List.range 8).map (fun i => 8 * core + i)).filter (fun h => decide ((hartOf s h).run ≠ .off))

def openHarts (s : State) (core : Nat) : List Nat :=
  ((List.range 8).map (fun i => 8 * core + i)).filter (fun h => decide ((hartOf s h).run = .off))

/-- How many harts each launch holds on a core. -/
def launchCounts (s : State) (core : Nat) : List Nat :=
  let jobs := ((heldHarts s core).map (fun h => (hartOf s h).job)).eraseDups
  jobs.map (fun j => ((heldHarts s core).filter (fun h => decide ((hartOf s h).job = j))).length)

/-- The harts of several launches fit under one word (R79). -/
def fitsWord (w : BitVec 32) (counts : List Nat) : Bool :=
  decide (counts.foldl (fun n k => n + k * (pwRcmax w + 1)) 0 ≤ pwVrfu w) &&
  decide (counts.foldl (fun n k => n + k * (pwAccu w * 16 / k)) 0 ≤ pwAccu w * 16)

def ownerOf (s : State) (cluster : Nat) : Nat := (cget 127 cluster s.clusterOwner).toNat

/-- A cluster that a cluster-gang launch uses takes no other launch (R265). -/
def gangTaken (s : State) (cluster : Nat) : Bool :=
  s.jobs.any (fun p => p.2.live && !p.2.parked && p.2.gangKind == 2 && p.2.cores.any (fun c => c / 4 == cluster))

/-- `n` harts of a launch of a partition under word `w` may be placed on a core. -/
def coreAdmits (s : State) (part : Nat) (w : BitVec 32) (n core : Nat) : Bool :=
  decide (core < 256) && ownerOf s (core / 4) == part && decide (n ≤ (openHarts s core).length) && !gangTaken s (core / 4) &&
  ((heldHarts s core).isEmpty || ((coreOf s core).pword == w && fitsWord w (launchCounts s core ++ [n])))

/-- No other launch holds a hart of the cluster. -/
def clusterFree (s : State) (cluster : Nat) : Bool := (List.range 4).all (fun i => (heldHarts s (4 * cluster + i)).isEmpty)

/-! ## Core records (R79, R223): a core's own state under a word that another word's launch has displaced -/

def scratchBase (core : Nat) : Nat := 0x80000000000 + 0x400000 * core

def coreRecord (s : State) (core : Nat) : CoreRec :=
  let c := coreOf s core
  let a := glob s (scratchBase core)
  { srbind := c.srbind, q6 := c.q6, q7 := c.q7,
    bytes := (ctake (a + 0x400000) (cdrop a s.mem)).map (fun p => (p.1 - a, p.2)) }

def installCore (core : Nat) (r : CoreRec) (s : State) : State :=
  let a := glob s (scratchBase core)
  let s := zeroMem a 0x400000 s
  let s := r.bytes.foldl (fun s p => setMem (a + p.1) [p.2] s) s
  modCore core (fun c => { c with srbind := r.srbind, q6 := r.q6, q7 := r.q7 }) s

/-- The record of a core's own state under a word: the launches of one word share it. -/
def coreKey (core : Nat) (w : BitVec 32) : Nat := core * 2 ^ 32 + w.toNat

/-- A pre-empted launch but for `job` has its place on a core under a word. -/
def leftOn (s : State) (job core : Nat) (w : BitVec 32) : Bool :=
  s.jobs.any (fun p => p.1 != job && p.2.live && p.2.parked && p.2.pword == w && p.2.cores.contains core)

def noJob : Nat := 2 ^ 64

/-- A launch takes a core under a word: a core whose word differs has its own state saved for the launches that left it,
and gets the state that launches of the new word left there, or what nothing has written (log 22). -/
def claimCore (w : BitVec 32) (core : Nat) (s : State) : State :=
  let old := (coreOf s core).pword
  if old = w then s
  else
    let put (k : Nat) (r : CoreRec) (s : State) : State := { s with coreRecs := cset CoreRec.empty k r s.coreRecs }
    let s := if leftOn s noJob core old then put (coreKey core old) (coreRecord s core) s else s
    let r := cget CoreRec.empty (coreKey core w) s.coreRecs
    put (coreKey core w) CoreRec.empty (modCore core (fun c => { c with pword := w }) (installCore core r s))

/-! ## Pre-emption (R221, R222, R252) -/

def eraseCmd (core i : Nat) (s : State) : State := modCore core (fun k => { k with cmds := k.cmds.eraseIdx i }) s

/-- The hart's snapshot tag is drained (R246); a copy stopped by a fault is saved instead. One that meets a link that is
down stays. -/
def drainSnaps (h : Nat) : Nat → State → State
  | 0, s => s
  | n + 1, s =>
    let core := coreNo h
    let l := (coreOf s core).cmds
    match l.findIdx? (fun c => c.hart == h && c.stream == 7 && decide (c.phase < 3)) with
    | none => s
    | some i =>
      match l[i]? with
      | none => s
      | some c =>
        let s :=
          if c.phase = 1 then wakeTag core c.tag (decTag core c.tag (eraseCmd core i s))
          else if c.phase = 2 then snapError core c (eraseCmd core i s)
          else match runCmd core (cmdTotal c + 2) c s with
            | .go c s => putCmd core i c s
            | .err c s => putCmd core i { c with phase := 2 } s
            | .bad c f elem remain s => stopCmd core i c f elem remain s
            | .stall c _ s => putCmd core i c s
        drainSnaps h n s

def finishSnaps (h : Nat) (s : State) : State := drainSnaps h (3 * (coreOf s (coreNo h)).cmds.length) s

/-- A snapshot copy of the hart is not through. -/
def snapsLeft (s : State) (h : Nat) : Bool := (cmdsOf s h).any (fun c => c.stream == 7 && decide (c.phase < 3))

/-- Every frame of the chain stack is written (R252). -/
def writeChains (h : Nat) (s : State) : State :=
  asHart h (fun s => (me s).r.chains.foldl (fun s c =>
    match putFrame c s with
    | .ok _ s => s
    | .bad _ s => s
    | .wait s => s) s) s

/-- Saved commands leave the core's tags, or are counted on them (R103). -/
def uncountCmds (core : Nat) (l : List CopyCmd) (s : State) : State :=
  l.foldl (fun s c => if c.phase = 4 then s else wakeTag core c.tag (decTag core c.tag s)) s

def recountCmds (core : Nat) (l : List CopyCmd) (s : State) : State :=
  l.foldl (fun s c => if c.phase = 4 then s else incTag core c.tag s) s

/-- What a stop abandons: stalls, the park of a WFE, the reads of a VWAIT, the fetch pin (R63, R181, R221). -/
def abandonWaits (x : Hart) : Hart :=
  { x with run := if x.run = .parked then .running else x.run, pin := none, stalled := 0, stallS := none,
           stallV := none, stalledV := 0, stallM := none, stalledM := 0, invWait := none, vq := x.vq.map rearmWait }

def switchKey (job jobhart : Nat) : Nat := 4096 * job + jobhart

/-- The number under which a pre-empted hart's instructions stay in progress on their keys (R139): one that no hart has. -/
def awayName (x : Hart) : Nat := 2 ^ 20 + switchKey (x.job.getD 0) x.jobhart.toNat

def renameKeys (h k : Nat) (s : State) : State :=
  { s with keyUses := s.keyUses.map (fun u => if u.hart = h then { u with hart := k } else u) }

/-- Answers over links that a hart has still to take, with their links. -/
def answersOf (s : State) (h : Nat) : List (Nat × LinkReq) :=
  s.links.flatMap (fun p => (p.2.resend.filter (fun r => r.hart == some h)).map (fun r => (p.1, r)))

/-- The party of an answer that goes with its hart to another one: the hart itself, its die's fill agent, its cluster's matrix
unit, or its core's copy engine. -/
def renameSource (h k source : Nat) : Nat :=
  if source = h then k
  else if source = fillMaster (dieNo h) then fillMaster (dieNo k)
  else if source = matrixAgent (clusterNo h) then matrixAgent (clusterNo k)
  else if source = copyAgent (coreNo h) then copyAgent (coreNo k)
  else source

/-- A hart has answers that came with its switch record. -/
def takeAnswers (h : Nat) (l : List (Nat × LinkReq)) (s : State) : State :=
  l.foldl (fun s p => modLink p.1 (fun k =>
    { k with resend := k.resend ++ [{ p.2 with hart := some h, source := renameSource (p.2.hart.getD h) h p.2.source }] }) s) s

/-- VSTART of the head that a switch stopped. -/
def headVstart (x : Hart) : Nat :=
  match x.vq ++ x.mq with
  | e :: _ => e.vstart
  | [] => 0

/-- A hart stops into its switch record (R221, R222): its commands, its answers and its place in a group go with it, its rows are
given up, and its instructions stay in progress on their keys. Snapshot copies are drained and frames written before. -/
def switchOut (h : Nat) (s : State) : SwitchRec × State :=
  let (cmds, s) := takeCmds h (endAccesses h (modHart h unwindConvoy s))
  let x := hartOf s h
  let cl := clusterNo h
  let group := ((cget [] cl s.mgroups).find? (fun p => p.1 == h)).map (fun p => p.2)
  let r : SwitchRec :=
    { head := frameHeader x.r noStream (headVstart x), cause := cPreempt,
      hart := { abandonWaits x with mgrant := 0, reattach := x.reattach || decide (0 < x.mgrant) }, cmds := cmds,
      answers := answersOf s h, group := group }
  let s := renameKeys h (awayName x) (dropAnswers h (fun _ => true) (detach h s))
  (r, { s with mgroups := cset [] cl ((cget [] cl s.mgroups).filter (fun p => p.1 != h)) s.mgroups })

/-- Snapshot copies that a debug stop holds go back to the engine (R433). -/
def releaseSnaps (h : Nat) (s : State) : State :=
  let isSnap (c : CopyCmd) : Bool := c.stream == 7 && decide (c.phase < 3)
  let held := (hartOf s h).dbg.held
  if held.any isSnap then
    modCore (coreNo h) (fun k => { k with cmds := k.cmds ++ held.filter isSnap })
      (modHart h (fun x => { x with dbg := { x.dbg with held := held.filter (fun c => !isSnap c) } }) s)
  else s

/-- The hart's scalar stores are performed, the copies of its chains are drained, those that a debug stop holds too, and its
frames are written (R160, R252, R433). -/
def settleHart (s : State) (h : Nat) : State := writeChains h (finishSnaps h (releaseSnaps h (drainStores h s)))

/-- The hart has an access that is not complete, or a snapshot copy that is not through: it cannot leave yet. -/
def cannotStop (s : State) (h : Nat) : Bool := unfinished s h || snapsLeft s h

/-- A hart leaves its place into its switch record. -/
def preemptHart (job : Nat) (s : State) (h : Nat) : State :=
  let (r, s) := switchOut h s
  let core := coreNo h
  let s := uncountCmds core (r.cmds ++ savedCmds h r.hart ++ r.hart.dbg.held) s
  let s := { s with switches := cset SwitchRec.empty (switchKey job r.hart.jobhart.toNat) r s.switches }
  settleRev core (setHart h Hart.reset s)

/-- The gangs of a job are pre-empted together, once the accesses that its harts have issued are complete; until then the
pre-emption is due. -/
def preemptJob (job : Nat) (s : State) : State :=
  let j := jobOf s job
  if !j.live || j.parked then s
  else
    let s := j.harts.foldl settleHart s
    if j.harts.any (cannotStop s) then modJob job (fun j => { j with sliceDue := true }) s
    else
      let s := j.harts.foldl (preemptHart job) s
      modJob job (fun j => { j with parked := true, sliceDue := false }) (meterClusters job s)

/-! ## Resumption (R223, R252) -/

/-- The switch records of a job, in JOBHART order. -/
def recordsOf (s : State) (job : Nat) (j : Job) : List SwitchRec :=
  (List.range j.harts.length).map (fun k => cget SwitchRec.empty (switchKey job k) s.switches)

/-- Harts of a job on its core number i. -/
def hartsOnCore (j : Job) (i : Nat) : Nat := min j.percore (j.harts.length - j.percore * i)

/-- The harts that a job's cores receive, in JOBHART order: the lowest open ones of each core. -/
def placeHarts (s : State) (j : Job) (cores : List Nat) : List Nat :=
  (cores.zip (List.range cores.length)).flatMap (fun p => (openHarts s p.1).take (hartsOnCore j p.2))

/-- A cluster gang keeps to whole clusters in the order of its cores. -/
def keepsClusters (old new : List Nat) : Bool :=
  let l := old.zip new
  l.all (fun p => p.1 % 4 == p.2 % 4 && l.all (fun q => (p.1 / 4 == q.1 / 4) == (p.2 / 4 == q.2 / 4)))

/-- The bounds of R223 on where a gang resumes. While another pre-empted launch of its word has its place on a core that it left,
the core's own state is that launch's too: the gang then comes back to that core, since no entry of its queues may be lost or
duplicated (log 22). -/
def mayResume (s : State) (job : Nat) (cores : List Nat) : Bool :=
  let j := jobOf s job
  let l := j.cores.zip cores
  j.live && j.parked && cores.length == j.cores.length && decide cores.Nodup &&
  (l.zip (List.range l.length)).all (fun p =>
    let (old, new) := p.1
    coreAdmits s j.part j.pword (hartsOnCore j p.2) new &&
    (old == new || (!leftOn s job old j.pword && (heldHarts s old).isEmpty && (heldHarts s new).isEmpty && (coreOf s new).pword == j.pword))) &&
  (j.gangKind != 2 || (keepsClusters j.cores cores && cores.all (fun c => clusterFree s (c / 4)))) &&
  ((recordsOf s job j).zip (placeHarts s j cores)).all (fun p =>
    p.1.hart.r.chains.isEmpty || (coreOf s (coreNo p.2)).revActive || eddyTagsIdle s (coreNo p.2))

/-- The core records that go into new cores: that of the core the gang leaves, or the one that was saved when another
word took that core. A gang that comes back to its core finds the state there (claimCore). -/
def recordsFor (s : State) (j : Job) (cores : List Nat) : List (Nat × CoreRec) :=
  (j.cores.zip cores).filterMap (fun p =>
    if p.1 = p.2 then none
    else some (p.2, if (coreOf s p.1).pword = j.pword then coreRecord s p.1
      else cget CoreRec.empty (coreKey p.1 j.pword) s.coreRecs))

/-- The state that a gang took along is gone from the core it left. -/
def clearLeft (w : BitVec 32) (s : State) (core : Nat) : State :=
  if (coreOf s core).pword = w then modCore core (fun k => { k with q6 := [], q7 := [], srbind := [] }) s
  else { s with coreRecs := cset CoreRec.empty (coreKey core w) CoreRec.empty s.coreRecs }

/-- The number that a renaming gives a hart. -/
def renamed (l : List (Nat × Nat)) (h : Nat) : Nat := match l.find? (fun p => p.1 == h) with
  | some p => p.2
  | none => h

/-- A hart takes its place from its switch record. -/
def switchIn (names : List (Nat × Nat)) (r : SwitchRec) (h : Nat) (s : State) : State :=
  let core := coreNo h
  let x := r.hart
  let s := setHart h { x with gang := renamed names x.gang, forkedBy := x.forkedBy.map (renamed names),
                              ibuf := [], dbg := { x.dbg with held := x.dbg.held.map (rehome h) } } s
  let s := renameKeys (awayName x) h (takeAnswers h r.answers s)
  let s := modCore core (fun c => { c with cmds := c.cmds ++ r.cmds.map (rehome h) }) s
  let cl := clusterNo h
  let s := match r.group with
    | some m => { s with mgroups := cset [] cl (cget [] cl s.mgroups ++ [(h, m)]) s.mgroups }
    | none => s
  settleRev core s

/-- A hart is placed from its switch record, its commands counted on the core's tags (R103). -/
def resumeHart (names : List (Nat × Nat)) (s : State) (p : SwitchRec × Nat) : State :=
  let (r, h) := p
  let x := r.hart
  switchIn names r h
    (recountCmds (coreNo h) (r.cmds.map (rehome h) ++ savedCmds h x ++ x.dbg.held.map (rehome h)) s)

/-- The gangs of a job resume on cores: core records and the window map first, then the harts. -/
def resumeJob (job : Nat) (cores : List Nat) (s : State) : State :=
  let j := jobOf s job
  let recs := recordsFor s j cores
  let switchRecs := recordsOf s job j
  let left := ((j.cores.zip cores).filter (fun p => p.1 != p.2)).map (fun p => p.1)
  let s := left.foldl (clearLeft j.pword) s
  let s := { s with winMap := (j.slots.zip cores).foldl (fun m p =>
    cset (BitVec.ofNat 8 p.1) (j.part * 256 + p.1) (BitVec.ofNat 8 p.2) m) s.winMap }
  let s := cores.foldl (fun s c => claimCore j.pword c s) s
  let s := recs.foldl (fun s p => installCore p.1 p.2 s) s
  let places := placeHarts s j cores
  let names := j.harts.zip places
  let s := (switchRecs.zip places).foldl (resumeHart names) s
  let s := { s with switches := ckeep (fun k => k / 4096 != job) s.switches }
  modJob job (fun j => { j with cores := cores, harts := places, parked := false, since := s.ticks }) s

/-! ## The pre-emption of TLBINV.wait (R66, R208) -/

/-- A pinning hart is stopped into its switch record and resumed at once on the same hart, its commands counted
throughout (R103): its pin is gone. One that cannot stop yet is stopped at a later turn of the wait. -/
def bounceHart (s : State) (h : Nat) : State :=
  let s := settleHart s h
  if cannotStop s h then s
  else let (r, s) := switchOut h s; switchIn [] r h s

/-- PIN_WAIT_PREEMPT: the hart that waits at TLBINV.wait, after 80,000 cycles. -/
def execPinWaitPreempt (h : Nat) (s : State) : Out :=
  match (hartOf s h).invWait with
  | some (lo, hi) => .next (((pinners s (hartOf s h) lo hi).filter (fun k => k != h)).foldl bounceHart s)
  | none => .next s

/-! ## The power cap (R202) -/

/-- POWER_CAP_CHANGE: legal values are MROWS 1 to 4 and LGMAX 1 to 8; any other write is none the manager makes. -/
def execPowerCapChange (value : BitVec 64) (s : State) : Out :=
  let lg := bitsOf value.toNat 0 4
  let mr := bitsOf value.toNat 4 3
  .next (if value.toNat / 128 = 0 ∧ 1 ≤ lg ∧ lg ≤ 8 ∧ 1 ≤ mr ∧ mr ≤ 4 then { s with pwrcap := value } else s)

/-- At a row-step boundary the unit divides its rows again when a bound of R219 asks for it (R220). -/
def regrantRows (cluster : Nat) (s : State) : State :=
  let l := attachedOf s cluster
  let sum := l.foldl (fun n h => n + (hartOf s h).mgrant) 0
  let top := 8 * mrows s
  if l.any (fun h => decide (top < (hartOf s h).mgrant)) ||
      (decide (sum < 32) && l.any (fun h => decide ((hartOf s h).mgrant < top) && !(hartOf s h).mq.isEmpty)) then
    divideRows l s
  else s

/-! ## The debug port (R234 to R236) -/

/-- HALTREQ stops a resident hart that runs. -/
def haltHart (h : Nat) (s : State) : State :=
  let x := hartOf s h
  if x.dbg.due.isSome then s
  else if x.run = .running ∨ x.run = .parked then debugStop h 0 x.pc s else s

def execHaltreq (h : Nat) (s : State) : Out := .next (haltHart h s)

/-- The state of a stopped hart from a debug frame; the g registers and CSRs are those the windows hold (log 21). A trap that was
pending at the stop, or that a snapshot copy raised during it (R433), is still pending. -/
def fromDebugFrame (r : FrameRec) (x : Hart) : Hart :=
  if r.kind = 3 then
    { x with r := { r.regs with g := x.r.g }, acc := r.acc, vq := r.vq, mq := r.mq, capLeft := r.capLeft,
             convLeft := r.conv.1, convId := r.conv.2, body := r.body, vl := r.vl, rc := r.rc, vgrant := r.vgrant, pc := if x.dbg.passed then r.pc + 4 else r.pc }
  else x

/-- The copy commands that a stop held go back to the engine. One that had stopped is issued again, but while its trap is
pending: that trap's frame will hold it. -/
def resumeHeld (h : Nat) (s : State) : State :=
  let x := hartOf s h
  if x.pend.isSome then
    modCore (coreNo h) (fun c => { c with cmds := c.cmds ++ x.dbg.held.map (rehome h) }) s
  else issueStopped h x.vq x.mq x.dbg.held s

/-- RESUME: the frame at DFRAME is restored and the hart goes on; DCTL says whether it stops after one instruction. -/
def debugResume (h : Nat) (s : State) : State :=
  let x := hartOf s h
  if x.run ≠ .stopped then s
  else
    let s := match readFrame h x.dbg.dframe s with
      | .ok (.good r) s => modHart h (fromDebugFrame r) s
      | .ok .wrong s => s
      | .bad _ s => s
      | .wait s => s
    let x := hartOf s h
    let steps := b2n (x.dbg.dctl.getLsbD 2) + 2 * b2n (x.dbg.dctl.getLsbD 3)
    modHart h (fun x => { x with run := .running, vq := x.vq.map rearmWait, dbg := { x.dbg with
        suppress := true, stepping := steps, held := [], passed := false, due := none } }) (resumeHeld h s)

def execResume (h : Nat) (s : State) : Out := .next (debugResume h s)

/-- A write to a register of a hart's debug page. -/
def debugWrite (h off : Nat) (v : Word) (s : State) : State :=
  let x := hartOf s h
  let put (f : Debug → Debug) : State := modHart h (fun x => { x with dbg := f x.dbg }) s
  if off = 0 then
    let kept := bitsOf v.toNat 2 6 * 4 + bitsOf v.toNat 33 20 * 2 ^ 33
    let s := put (fun d => { d with dctl := BitVec.ofNat 64 kept })
    if x.run = .stopped then (if v.getLsbD 1 then debugResume h s else s)
    else if v.getLsbD 0 then haltHart h s else s
  else if off = 0x18 then put (fun d => { d with dframe := BitVec.ofNat 64 (v.toNat / 64 * 64) })
  else if 0x20 ≤ off ∧ off < 0x40 then put (fun d => { d with dbp := lset v ((off - 0x20) / 8) d.dbp })
  else if off = 0x40 then put (fun d => { d with dwa0 := v })
  else if off = 0x48 then put (fun d => { d with dwa1 := v })
  else if off = 0x50 then put (fun d => { d with dwk := BitVec.ofNat 64 (v.toNat % 16) })
  else if x.run ≠ .stopped then s
  else if 0x108 ≤ off ∧ off < 0x200 then
    modHart h (fun x => { x with r := { x.r with g := cset 0 ((off - 0x100) / 8) v x.r.g } }) s
  else if 0x800 ≤ off ∧ off < 0x1000 then modHart h (csrPut ((off - 0x800) / 8) v) s
  else s

/-- A write of a KV controller's control block: a partition's quota (R136; log 85). -/
def kvControlWrite (off : Nat) (v : Word) (s : State) : State :=
  if off < 2048 ∧ off % 16 = 0 then modPart (off / 16) (fun p => { p with kvQuota := v.toNat }) s else s

/-- REGISTER_WRITE: a write to a debug register or a KV quota takes effect; the anemometer views are read-only, and no other
register of the region is described (R17, R136, R234). A device that waits for a firmware image takes none (R275). -/
def execRegisterWrite (addr : BitVec 64) (value : BitVec 64) (s : State) : Out :=
  let a := addr.toNat
  .next (if s.boot.imageOnly then s
    else if 0xF0000000000 ≤ a ∧ a < 0xF0000800000 then debugWrite ((a - 0xF0000000000) / 4096) (a % 4096) value s
    else if 0xF0040000000 ≤ a ∧ a < 0xF0040040000 then kvControlWrite (a % 65536) value s else s)

end Sys2Proof.Machine
end

