-- ==== Sys2Proof/Machine/Fabric.lean ====
section
/-! DEFINITION. Events of the memory system: requests that reach a target from outside the harts (R28 to R34), lee-cache
fills (R90), directory recalls (R173), access-table changes (R35, R36), and links (R179, R180). -/

namespace Sys2Proof.Machine

/-! ## Requests -/

/-- The answer to a request goes to its master (R33, R34); one to a request that came over a link is in the link's reply cache
under its tag (R179). -/
def answerTo (via : Option (Nat × Nat)) (master code : Nat) (data : List Byte) (s : State) : State :=
  let s := match via with
    | some (link, tag) => cacheReply link master tag code data s
    | none => s
  { s with replies := s.replies ++ [{ master := master, denied := code, data := data }] }

def answer (master code : Nat) (data : List Byte) (s : State) : State := answerTo none master code data s

/-- What a denied request returns (R34): all ones to a host function that reads, else the reason alone. -/
def deniedData (r : Request) : List Byte :=
  if r.master.toNat / 8192 = 4 ∧ r.kind = .read then List.replicate r.len 0xFF else []

/-- The bytes a request reads. -/
def requestBytes (r : Request) (s : State) : List Byte :=
  let a := r.addr.toNat
  match r.kind with
  | .write => []
  | .read | .fetch | .atomic =>
    let n := if isWr r.kind then r.data.length else r.len
    if isMmio a then mmioBytes s a n else memBytes s (glob s a) n

/-- An admitted request takes effect at its target and is answered (R28): a read with its bytes; a write and an atomic
leave the bytes that the request carries; for an atomic these are the result of the atomic unit (log 23). -/
def applyRequest (r : Request) (via : Option (Nat × Nat)) (s : State) : State :=
  let a := r.addr.toNat
  let s := settleZero s a
  let s' := if isWr r.kind then (if isMmio a then mmioWrite a r.data s else setMem (glob s a) r.data s) else s
  answerTo via r.master.toNat 0 (requestBytes r s) s'

/-- Bytes that a request reads or writes. -/
def requestLen (r : Request) : Nat := if isWr r.kind then r.data.length else r.len

/-- The lines of a request that engines own are recalled (R173). -/
def recallLines (agent a n : Nat) (s : State) : State :=
  { s with owned := s.owned.map (fun o =>
      if o.owner ≠ agent ∧ o.lo ≤ (a + n - 1) / 256 ∧ a / 256 < o.hi then { o with recalled := true } else o) }

/-- An admitted request goes to its target. One to a line that an engine owns waits until the engine has finished the line
(R173); one to the host or the CXL window crosses its link, or stays outstanding there (R37, R180). -/
def passRequest (r : Request) (via : Option (Nat × Nat)) (s : State) : State :=
  let a := r.addr.toNat
  let n := requestLen r
  let m := r.master.toNat
  if ownedByOther s m (glob s a) n then
    let s := recallLines m (glob s a) n s
    { s with waiting := s.waiting ++ [{ req := r, via := via }] }
  else match linkFor s { pkg := s.pkg, a := a, leaf := 0, lvl := 4 } with
  | none => applyRequest r via s
  | some (link, meter) =>
    if (linkOf s link).trained then
      applyRequest r via (crossLink link meter m r.part.toNat n (requestBytes r s) s)
    else
      holdRequest link
        { source := m, seq := nextTag s link m, req := { r with addr := BitVec.ofNat 64 (glob s a) }, cls := reqClass r.kind,
          hart := none, stream := 0, va := a, root := 0, handler := false, applied := false, via := via } s

/-- The requests from outside that waited for a line make their way again, in order. -/
def retryWaiting (s : State) : State :=
  s.waiting.foldl (fun s w => passRequest w.req w.via s) { s with waiting := [] }

/-- A request covers at most 256 bytes inside one 64 KiB page (R29). -/
def requestFits (r : Request) : Bool :=
  let n := requestLen r
  decide (0 < n) && decide (n ≤ 256) && decide (r.addr.toNat % 65536 + n ≤ 65536)

/-- check(I, P, A, K) decides: admitted, or denied with a record, a denial response and nothing else (R28, R33). -/
def takeRequest (r : Request) (via : Option (Nat × Nat)) (s : State) : State :=
  let a := r.addr.toNat
  let code := if 2 ^ 44 ≤ a then 1 else checkLocal s r.master.toNat r.part.toNat a r.kind
  if code ≠ 0 then
    answerTo via r.master.toNat code (deniedData r) (logDenial s r.master.toNat r.part.toNat a r.kind code)
  else passRequest r via s

/-- The partition that the command complex carries on a request of its own (R22): 126 for the scheduling firmware, 127 for
root firmware. Packets' accesses, which carry their queue's, are those of the packets. -/
def carriesOwn (r : Request) : Bool :=
  if r.master.toNat / 8192 = 3 then r.part.toNat == (if r.master.toNat = rootMaster then 127 else 126) else true

/-- TARGET_REQUEST; no requester of the device makes a larger request. Root firmware's writes of the access tables in
memory (R35) are such requests of the root core. -/
def execTargetRequest (r : Request) (s : State) : Out :=
  .next (if requestFits r && carriesOwn r && !s.boot.imageOnly then takeRequest r none s else s)

/-- The package-local address that the aperture map gives an offset of a function (R32). Only the request's first offset is
looked up: one that runs past the end of its map goes on at the addresses that follow, where it is checked as any other, and
of overlapping maps the first one holds. R32 says nothing of either (the model's choice, log 23). -/
def apertureAt (s : State) (fn off : Nat) : Option Nat :=
  match s.aperture.find? (fun m => m.1 == fn && decide (m.2.1 ≤ off) && decide (off < m.2.1 + m.2.2.1)) with
  | some m => some (m.2.2.2 + (off - m.2.1))
  | none => none

/-- HOST_REQUEST: a function's request crosses the Tammas link, is mapped and then checked as class 4. The record of an offset
that no map covers holds the offset itself as its address, there being no other. A request that is larger than 256 bytes or
crosses a 64 KiB page, which R29 gives no requester, has no effect and no answer (the model's choices, log 23). -/
def execHostRequest (fn : BitVec 7) (off : BitVec 64) (kind : AccKind) (len : Nat) (data : List Byte) (s : State) : Out :=
  let master := 0x8000 + fn.toNat
  let n := if isWr kind then data.length else len
  let via := some (0, nextTag s 0 master)
  if s.boot.imageOnly || !(linkOf s 0).trained || 64 < fn.toNat then .next s
  else
    let s := addMeter fn.toNat 5 n (useTag 0 master s)
    let r (a : Nat) : Request :=
      { master := BitVec.ofNat 16 master, part := fn, addr := BitVec.ofNat 64 a, kind := kind, len := len, data := data }
    match apertureAt s fn.toNat off.toNat with
    | none => .next (answerTo via master 1 (deniedData (r 0)) (logDenial s master fn.toNat off.toNat kind 1))
    | some a =>
      let r := r a
      .next (if requestFits r then takeRequest r via s else s)

/-- PEER_REQUEST: it arrives over a UALink station as class 5 with the requester's partition (R22, R31). One that is larger than
256 bytes or crosses a 64 KiB page has no effect and no answer (R29; the model's choice, log 23). -/
def execPeerRequest (pkg : BitVec 10) (r : Request) (s : State) : Out :=
  let link := 2 + (Config.stationOf pkg.toNat).toNat
  let r := { r with master := BitVec.ofNat 16 (0xA000 + pkg.toNat) }
  let m := 0xA000 + pkg.toNat
  .next (if (linkOf s link).trained && requestFits r then
    takeRequest r (some (link, nextTag s link m)) (addMeter r.part.toNat 6 (requestLen r) (useTag link m s)) else s)

/-! ## Caches -/

/-- LEE_CACHE_FILL: the fill agent of a die completes the fill of the line that holds a global address, for a read that
missed. The model fills at the read itself; the event fills only a line that such a read still waits for, from the answer
that its link has brought (log 24). -/
def execLeeCacheFill (die : BitVec 2) (part : BitVec 7) (addr : BitVec 64) (s : State) : Out :=
  let k := leeKey die.toNat part.toNat addr.toNat
  let fill (r : LinkReq) : Bool :=
    r.source == fillMaster die.toNat && r.req.part == part && decide (r.req.addr.toNat = addr.toNat / 256 * 256) && r.cls == 0
  match s.links.findSome? (fun p => p.2.resend.find? fill) with
  | some r => .next (if cget [] k s.lee = [] then { s with lee := cset [] k r.req.data s.lee } else s)
  | none => .next s

/-- DIRECTORY_RECALL: the directory recalls a line from the engine that owns it, which finishes its writes to the line first:
accesses of other agents wait until then (R173; log 25). -/
def execDirectoryRecall (line : BitVec 64) (s : State) : Out :=
  .next (recallLines (2 ^ 16 * 2 ^ 16) (line.toNat / 256 * 256) 256 s)

/-! ## Access tables (R35, R36) -/

/-- Where the tables lie: partition 127's tier-1 memory of die 0 (R24; the place and order are the model's choice,
log 11). A target's table has 65,536 entries of 8 bytes and 256 descriptors of 16. -/
def tableBase : Nat := 0x700000000
def tableBytes : Nat := 0x81000
def tablesEnd : Nat := tableBase + 8 * 256 * tableBytes
def entryAddr (k : Nat) : Nat := tableBase + k / 65536 * tableBytes + k % 65536 * 8
def regionAddr (k : Nat) : Nat := tableBase + k / 256 * tableBytes + 0x80000 + k % 256 * 16

/-- Entry and descriptor as memory holds them. -/
def entryInMem (s : State) (k : Nat) : BitVec 64 := BitVec.ofNat 64 (rawRead s (entryAddr k) 8)
def regionInMem (s : State) (k : Nat) : BitVec 128 := BitVec.ofNat 128 (rawRead s (regionAddr k) 16)

/-- Keys of the entries and of the descriptors of which memory lists a byte. -/
def listedOffsets (s : State) : List Nat :=
  s.mem.filterMap (fun p =>
    let a := glob s tableBase
    if a ≤ p.1 ∧ p.1 < glob s tablesEnd then some (p.1 - a) else none)
def listedEntries (s : State) : List Nat :=
  ((listedOffsets s).filterMap (fun o =>
    if o % tableBytes < 0x80000 then some (o / tableBytes * 65536 + o % tableBytes / 8) else none)).eraseDups
def listedRegions (s : State) : List Nat :=
  ((listedOffsets s).filterMap (fun o =>
    if o % tableBytes < 0x80000 then none else some (o / tableBytes * 256 + (o % tableBytes - 0x80000) / 16))).eraseDups

/-- An ACTINV write names a master. -/
def namesMaster (all : Bool) (master m : Nat) : Bool := all || m == master

/-- Entries of the named kinds and masters are taken from the tables in memory; so are the kinds' descriptors. -/
def takeTables (all : Bool) (master : Nat) (kinds : BitVec 8) (s : State) : State :=
  let kindOf (t : Nat) : Bool := kinds.getLsbD (t / 256)
  let e (k : Nat) : Bool := kindOf (k / 65536) && namesMaster all master (k % 65536)
  let d (k : Nat) : Bool := kindOf (k / 256)
  { s with accE := ((listedEntries s).filter e).foldl (fun m k => cset 0 k (entryInMem s k) m) (ckeep (fun k => !e k) s.accE),
           accD := ((listedRegions s).filter d).foldl (fun m k => cset 0 k (regionInMem s k) m) (ckeep (fun k => !d k) s.accD),
           rootCached := if namesMaster all master rootMaster then s.rootCached &&& ~~~kinds else s.rootCached }

/-- ACTINV: a write while DONE is 0, or with no kind, has no effect. -/
def execActinv (value : BitVec 64) (s : State) : Out :=
  let kinds : BitVec 8 := value.extractLsb' 0 8
  let master := bitsOf value.toNat 32 16
  let all := value.getLsbD 62
  .next (if !s.actDone || kinds = 0 then s
    else takeTables all master kinds
      { s with actDone := false, actMaster := if all then none else some master, actKinds := kinds })

/-- ACTINV_DONE: DONE rises once no request of a named master that was admitted before is outstanding. -/
def execActinvDone (s : State) : Out :=
  let waits := s.links.any (fun p => p.2.outstanding.any (fun r => match s.actMaster with
    | some m => r.source == m
    | none => true))
  .next (if s.actDone || waits then s else { s with actDone := true })

/-! ## Links (R179, R180) -/

/-- LINK_REPLAY: the link layer replays a request whose reply was lost. A target that finds its tag in the reply cache
returns the cached reply and performs nothing (R179). -/
def execLinkReplay (link : BitVec 4) (source seq : BitVec 16) (s : State) : Out :=
  .next (match (linkOf s link.toNat).replies.find? (fun r => r.source == source.toNat && r.seq == seq.toNat) with
    | some r => answer source.toNat r.code r.data s
    | none => s)

/-- LINK_RESET: the link is down until it retrains; its reply cache stays. -/
def execLinkReset (link : BitVec 4) (s : State) : Out :=
  .next (if link.toNat < 10 then modLink link.toNat (fun k => { k with trained := false }) s else s)

/-- LINKLOST (R180). -/
def linklostFlt (link : Nat) (r : LinkReq) : Flt :=
  mkFlt cLinklost 0 (link + 16 * b2n (decide (r.cls ≠ 0)) + 32 * b2n (decide (r.cls = 2)))

/-- The long instruction of a hart that a stream's lost request belongs to: address and element. -/
def lostAt (x : Hart) (stream : Nat) : Word × Nat :=
  match (if stream = 2 then x.mq else x.vq) with
  | e :: _ => (e.ctx.pc, e.vstart)
  | [] => (0, 0)

/-- A copy command's next access is this one. -/
def accessesAt (c : CopyCmd) (r : LinkReq) : Bool :=
  let d := blockAddr c c.blocks
  if r.cls = 0 then r.va == wrapTo 64 (d.1 + c.bytes + c.buf.length)
  else r.va == wrapTo 64 (d.2 + c.bytes) || (c.mode == 2 && r.va == c.dst.toNat)

/-- The copy command whose access was lost stops with an error (R103, R180). -/
def stopLostCopy (h : Nat) (r : LinkReq) (s : State) : State :=
  match (coreOf s (coreNo h)).cmds.findIdx? (fun x => x.hart == h && x.stream == r.stream && x.phase == 0 && accessesAt x r) with
  | some i => modCore (coreNo h) (fun c => { c with cmds := c.cmds.modify i (fun x => { x with phase := 2 }) }) s
  | none => s

/-- A lost request's hart takes LINKLOST: precisely for a scalar access, imprecisely for a stream; a copy command stops
with an error. A trap that waits for the access goes first, and names its instruction (R228). -/
def loseRequest (link : Nat) (s : State) (r : LinkReq) : State :=
  let f := linklostFlt link r
  match r.hart with
  | none => answerTo r.via r.source 6 [] s
  | some h =>
    let x := hartOf s h
    if x.run = .off then s
    else if r.stream = 0 then
      (if x.entry.isSome then s
       else if x.pend.isSome then deliver h x.pc s
       else enterTrap h f false x.pc 0 0 0 noStream s)
    else if r.stream = 3 ∨ r.stream = 7 then stopLostCopy h r s
    else
      let (lpc, elem) := lostAt x r.stream
      setPend h { flt := f, lpc := lpc, elem := elem, stream := r.stream, fs := { noStream with fstream := r.stream } } s

/-- A request that is sent again with its own tag after the link has retrained (R180): performed, unless the target had
performed it before. A hart has its answer to take when it makes the access again, but for a load of uncorrectable data, which
it makes anew. -/
def sendAgain (link : Nat) (s : State) (r : LinkReq) : State :=
  let g := r.req.addr.toNat
  match r.hart with
  | some _ =>
    if r.cls = 0 then
      if (firstPoison s g r.req.len).isSome then s
      else
        let bs := memBytes s g r.req.len
        modLink link (fun k => { k with resend := k.resend ++ [{ r with req := { r.req with data := bs } }] })
          (cacheReply link r.source r.seq 0 bs s)
    else
      let s := if r.applied then s else setMem g r.req.data (cacheReply link r.source r.seq 0 [] s)
      modLink link (fun k => { k with resend := k.resend ++ [{ r with applied := true }] }) s
  | none =>
    let q := { r.req with addr := BitVec.ofNat 64 (g % 2 ^ 44) }
    let s := if r.applied then s else cacheReply link r.source r.seq 0 (requestBytes q s) s
    if r.applied then answerTo r.via r.source 0 (requestBytes q s) s else applyRequest q r.via s

/-- LINK_RETRAIN: loads and stores are sent again, each with its tag; atomics, and after a reset of the far side stores, are
lost. In minimal mode only the Tammas link is there (R275). -/
def execLinkRetrain (link : BitVec 4) (farReset : Bool) (s : State) : Out :=
  let k := link.toNat
  if 10 ≤ k ∨ (linkOf s k).trained ∨ (s.boot.minimal ∧ k ≠ 0) then .next s
  else
    let lostNow (r : LinkReq) : Bool := decide (r.cls = 2) || (farReset && decide (r.cls = 1))
    let out := (linkOf s k).outstanding
    let s := modLink k (fun l => { l with trained := true, outstanding := [], replies := if farReset then [] else l.replies }) s
    let s := (out.filter (fun r => !lostNow r)).foldl (sendAgain k) s
    .next ((out.filter lostNow).foldl (loseRequest k) s)

/-- LINKLOST: the link did not retrain within 1 ms. -/
def execLinklost (link : BitVec 4) (s : State) : Out :=
  let k := link.toNat
  if 10 ≤ k ∨ (linkOf s k).trained then .next s
  else
    let lost := (linkOf s k).outstanding
    .next (lost.foldl (loseRequest k) (modLink k (fun l => { l with outstanding := [] }) s))

end Sys2Proof.Machine
end

