-- ==== Sys2Proof/Machine/Queues.lean ====
section
/-! DEFINITION. Sloisk's queues: control blocks and their write-back (R260, R261), doorbells (R262), packets and their
completion (R263, R264), and the stride scheduler (R266, R267). -/

namespace Sys2Proof.Machine

/-! ## Accesses of the command complex (R22, R258, R263) -/

/-- The die whose command core serves a partition: that of its lowest cluster (log 26). -/
def commandDie (s : State) (part : Nat) : Nat :=
  match s.clusterOwner.find? (fun p => p.2.toNat == part) with
  | some p => p.1 / 16 % 4
  | none => 0

/-- A command core's access, carrying a partition number: 126 for the scheduling firmware's own, the queue's for a
packet's. The walk is that of the queue's context and carries the partition (log 26, log 78). -/
def commandWho (s : State) (part ctx carried : Nat) : Who :=
  let m := 0x6000 + commandDie s part
  { master := m, part := carried, walk := part, hart := m, troot := contextRoot s part ctx, handler := true,
    stream := 0, nest := false,
    folds := false, hold := 0, agent := 0, taken := 0 }

def ctxOf (s : State) (part q : Nat) : Nat := (queueOf s part q).ctx
def packetWho (s : State) (part q : Nat) : Who := commandWho s part (ctxOf s part q) part
def schedWho (s : State) (part q : Nat) : Who := commandWho s part (ctxOf s part q) 126

/-- Root firmware's own accesses. -/
def rootWho (s : State) (part q : Nat) : Who :=
  { commandWho s part (ctxOf s part q) 127 with master := rootMaster, walk := 127, hart := rootMaster }

/-- The hash path as a fabric agent of kind 4 (R421). -/
def hashWho (s : State) (part q : Nat) : Who :=
  let m := hashMaster (commandDie s part)
  { packetWho s part q with master := m, hart := m }

/-- A failed access leaves the state it reached. -/
def after {α : Type} (m : MR α) (s0 : State) : State :=
  match m with
  | .ok _ s => s
  | .bad _ s => s
  | .wait _ => s0

/-! ## The signal word (R264) -/

/-- What is known of a partition's signal word, which is no request but whether a WAIT is satisfied (R267). -/
def signalNow (s : State) (part q addr : Nat) : MR Nat := vaReadNum (packetWho s part q) addr 8 s

/-- One atomic on a signal word. -/
def signalOp (part q addr : Nat) (f : Nat → Nat) (s : State) : MR Nat :=
  vaAtomic (packetWho s part q) addr 8 (fun x => some (f x % 2 ^ 64)) s

/-! ## Packets (R263) -/

def pktWord (p : List Byte) (off : Nat) : Nat := ofBytes ((p.drop off).take 8)
def pktType (p : List Byte) : Nat := pktWord p 0 % 256
def pktFence (p : List Byte) : Bool := (pktWord p 0).testBit 8 || pktType p == 6
def pktBad (p : List Byte) : Bool := decide (pktWord p 0 / 512 ≠ 0) || pktType p == 0 || decide (8 < pktType p)

/-- The condition of a WAIT that blocks a queue is met, or its read is denied: either ends the WAIT. While the word's link is
down it is not met. -/
def waitMet (s : State) (part q : Nat) (k : Queue) : Bool :=
  match signalNow s part q (pktWord k.pkt 8) with
  | .ok v _ => decide (pktWord k.pkt 16 ≤ v)
  | .bad _ _ => true
  | .wait _ => false

/-! ## Ready queues and strides (R266, R267) -/

def liveJobs (s : State) (part q : Nat) : List (Nat × Job) :=
  s.jobs.filter (fun p => p.2.live && p.2.part == part && p.2.queue == q)

def isOpen (k : Queue) : Bool := k.state == 1

/-- Packets written and not taken: both indices count modulo 2^64 (R260). -/
def waiting (k : Queue) : Nat := (k.writeIdx + 2 ^ 64 - k.readIdx) % 2 ^ 64
def isReady (s : State) (part q : Nat) : Bool :=
  let k := queueOf s part q
  isOpen k && (decide (0 < waiting k) || (liveJobs s part q).any (fun p => p.2.parked))

/-- STATE of R260. -/
def queueState (s : State) (part q : Nat) : Nat :=
  let k := queueOf s part q
  if k.state ≠ 1 then k.state
  else if k.active || (liveJobs s part q).any (fun p => !p.2.parked) then 3
  else if isReady s part q then 2
  else 1

/-- The queues of a partition, in number order. -/
def queuesOf (s : State) (part : Nat) : List (Nat × Queue) :=
  (s.queues.filter (fun p => decide (p.1 / 256 = part))).map (fun p => (p.1 % 256, p.2))

/-- The queue that a blocked queue lends to: the lowest that lists its signal. -/
def producerOf (s : State) (part : Nat) (k : Queue) : Option Nat :=
  let sig := BitVec.ofNat 64 (pktWord k.pkt 8)
  ((queuesOf s part).find? (fun p => decide (p.2.state ≠ 0) && sig != 0 && p.2.prodsig.contains sig)).map (fun p => p.1)

/-- A queue blocked on a WAIT that no write has satisfied. -/
def isBlocked (s : State) (part q : Nat) (k : Queue) : Bool := k.state == 4 && !waitMet s part q k

/-- Whether lending from a queue reaches another, at most `n` queues on and never back into the chain. -/
def lendsTo (s : State) (part target : Nat) : Nat → List Nat → Queue → Bool
  | 0, _, _ => false
  | n + 1, chain, k =>
    match producerOf s part k with
    | none => false
    | some r =>
      if chain.contains r then false
      else if r = target then true
      else
        let k' := queueOf s part r
        isBlocked s part r k' && lendsTo s part target n (r :: chain) k'

def lentTo (s : State) (part q : Nat) : Nat :=
  (queuesOf s part).foldl (fun n p =>
    if isBlocked s part p.1 p.2 && lendsTo s part q 4 [p.1] p.2 then n + p.2.tickets else n) 0

def strideOf (s : State) (part q : Nat) : Nat := 2 ^ 20 / max 1 ((queueOf s part q).tickets + lentTo s part q)

def chargeUnits (part q n : Nat) (s : State) : State :=
  let d := strideOf s part q * n
  modQueue part q (fun k => { k with pass := k.pass + d }) s

/-- PASS of a queue that becomes ready after being idle or blocked. -/
def rejoin (part q : Nat) (s : State) : State :=
  let others := ((queuesOf s part).filter (fun p => p.1 != q && isReady s part p.1)).map (fun p => p.2.pass)
  match others with
  | [] => s
  | x :: r => modQueue part q (fun k => { k with pass := max k.pass (r.foldl min x) }) s

/-! ## The control block (R260, R261) -/

/-- The privileged part as root firmware writes it. -/
def privBytes (s : State) (part q : Nat) : List Byte :=
  let k := queueOf s part q
  toBytes 8 (part * 2 ^ 57 + queueState s part q * 2 ^ 54 + k.tickets) ++ toBytes 8 k.pass ++ toBytes 4 k.step ++
  toBytes 4 k.ovwr ++ toBytes 8 0 ++ (List.range 4).flatMap (fun i => toBytes 8 (k.prodsig.getD i 0).toNat)

/-- An access of the command complex that is denied leaves the state it reached; one that meets a link which is down waits. -/
def orDenied {α : Type} (m : MR α) : MR Unit :=
  match m with
  | .ok _ s => .ok () s
  | .bad _ s => .ok () s
  | .wait s => .wait s

/-- A guest overwrite counts, and a record is appended to the partition's fault log. -/
def checkOverwrite (part q : Nat) (s : State) : MR Unit :=
  let k := queueOf s part q
  orDenied <| mbind (vaReadN (rootWho s part q) (k.qcb.toNat + 0x40) 64 s) fun bs s =>
    .ok () <| if k.wrote = [] ∨ bs = k.wrote then s
    else
      let r : LogRec := { part := part, target := 0xFFFF, master := 0, addr := k.qcb.toNat, kind := 1, reason := 8 }
      modPart part (fun p => { p with overwrites := p.overwrites + 1 })
        (modQueue part q (fun k => { k with ovwr := (k.ovwr + 1) % 2 ^ 32 }) { s with faultLog := s.faultLog ++ [r] })

/-- The compare of R261, the scheduler's fields, and root firmware's copy of the privileged part. -/
def writeQcb (part q : Nat) (s : State) : MR Unit :=
  mbind (checkOverwrite part q s) fun _ s =>
    let k := queueOf s part q
    mbind (orDenied (vaWriteN (schedWho s part q) (k.qcb.toNat + 0x18)
      (toBytes 8 k.readIdx ++ toBytes 8 (k.lastStat * 2 ^ 56 + k.lastIdx % 2 ^ 56)) s)) fun _ s =>
      let bs := privBytes s part q
      orDenied (mbind (vaWriteN (rootWho s part q) (k.qcb.toNat + 0x40) bs s) fun _ s =>
        .ok () (modQueue part q (fun k => { k with wrote := bs }) s))

/-- The queue switches: the control block is compared and written; while its link is down, that is owed (R261). -/
def writeBack (part q : Nat) (s : State) : State :=
  match writeQcb part q s with
  | .ok _ t => if (queueOf t part q).owed then modQueue part q (fun k => { k with owed := false }) t else t
  | .bad _ t => t
  | .wait _ => modQueue part q (fun k => { k with owed := true }) s

/-- RINGBASE and RINGSIZE, where the size is legal. -/
def ringOf (part q : Nat) (s : State) : MR (Option (Nat × Nat)) :=
  mbind (vaReadN (schedWho s part q) (queueOf s part q).qcb.toNat 16 s) fun bs s =>
    let size := ofBytes ((bs.drop 8).take 4)
    .ok (if (List.range 13).any (fun i => size == 2 ^ (i + 4)) then some (ofBytes (bs.take 8) / 64 * 64, size) else none) s

/-- The head packet's bytes; none when the ring is none. -/
def headPacket (part q : Nat) (s : State) : MR (Option (List Byte)) :=
  mbind (ringOf part q s) fun r s =>
    match r with
    | none => .ok none s
    | some (base, size) =>
      mbind (vaReadN (schedWho s part q) (base + 64 * ((queueOf s part q).readIdx % size)) 64 s) fun bs s => .ok (some bs) s

/-! ## Doorbells (R262) -/

/-- How far an index lies ahead of READIDX. -/
def ahead (k : Queue) (v : Nat) : Nat := (v + 2 ^ 64 - k.readIdx) % 2 ^ 64

/-- A new WRITEIDX, taken or ignored and logged, for a ring of `size` packets. A queue that becomes ready after being idle rejoins
(R266). -/
def judgeDoorbell (part q v size : Nat) (s : State) : State :=
  let k := queueOf s part q
  if k.state = 0 ∨ size < ahead k v ∨ ahead k v < waiting k then
    { s with faultLog := s.faultLog ++ [{ part := part, target := 3 * 256, master := 0, addr := 8 * q, kind := 1, reason := 9 }] }
  else
    let idle := queueState s part q == 1
    let s := modQueue part q (fun k => { k with writeIdx := v }) s
    if idle && isReady s part q then rejoin part q s else s

/-- A doorbell is judged by the ring's size, which the control block holds: while its link is down, or an earlier doorbell waits
for that, it is kept. -/
def takeDoorbell (part q v : Nat) (s : State) : State :=
  let k := queueOf s part q
  if k.state = 0 then judgeDoorbell part q v 0 s
  else if !k.bells.isEmpty then modQueue part q (fun k => { k with bells := k.bells ++ [v] }) s
  else match ringOf part q s with
    | .ok (some r) t => judgeDoorbell part q v r.2 t
    | .ok none t => judgeDoorbell part q v 0 t
    | .bad _ t => judgeDoorbell part q v 0 t
    | .wait _ => modQueue part q (fun k => { k with bells := k.bells ++ [v] }) s

/-- What a queue owes to a link that was down is made up: its doorbells and its write-back. -/
def settleQueue (part q : Nat) (s : State) : State :=
  let l := (queueOf s part q).bells
  let s := if l.isEmpty then s
    else l.foldl (fun s v => takeDoorbell part q v s) (modQueue part q (fun k => { k with bells := [] }) s)
  if (queueOf s part q).owed then writeBack part q s else s

/-- DOORBELL: function n's doorbells are those of partition n. A device that waits for a firmware image has none (R275). -/
def execDoorbell (fn : BitVec 7) (q : BitVec 8) (value : BitVec 64) (s : State) : Out :=
  .next (if s.boot.imageOnly then s else takeDoorbell fn.toNat q.toNat value.toNat s)

/-! ## Completion (R263, R264, R268) -/

/-- Jobs whose slice ended while the queue's packet was in progress are pre-empted now. -/
def takeDueSlices (part q : Nat) (s : State) : State :=
  ((liveJobs s part q).filter (fun p => p.2.sliceDue)).foldl (fun s p => preemptJob p.1 s) s

/-- A job is pre-empted: its queue switches, with the check and the write-back of R261. -/
def switchOff (job : Nat) (s : State) : State :=
  let j := jobOf s job
  if !j.live || j.parked then s else writeBack j.part j.queue (preemptJob job s)

def execPreempt (job : Nat) (s : State) : Out := .next (switchOff job s)

def execResumeGang (job : Nat) (cores : List Nat) (s : State) : Out :=
  let j := jobOf s job
  .next (if mayResume s job cores then writeBack j.part j.queue (resumeJob job cores s) else s)

/-- READIDX moves past the packet. -/
def passPacket (part q : Nat) (s : State) : State :=
  modQueue part q (fun k => { k with readIdx := (k.readIdx + 1) % 2 ^ 64, begun := false, active := false, pkt := [], step := 0,
                                     hash := [] }) s

/-- The packet at READIDX completes with a status; BADPACKET stops the queue. -/
def completePacket (part q status : Nat) (s : State) : State :=
  let idx := (queueOf s part q).readIdx
  let blocked := (queueOf s part q).state == 4
  let s := modQueue part q (fun k => { k with lastStat := status, lastIdx := idx,
                                              state := if status = 3 then 5 else if k.state = 4 then 1 else k.state })
    (passPacket part q s)
  let s := if blocked && isReady s part q then rejoin part q s else s
  writeBack part q (takeDueSlices part q s)

/-- A packet in progress of a type is performed. -/
def withPacket (type : Nat) (part q : Nat) (f : List Byte → State → State) (s : State) : State :=
  let k := queueOf s part q
  if k.active && isOpen k && pktType k.pkt == type then f k.pkt s else s

/-- The end of one step of a packet. -/
def stepDone (part q : Nat) (s : State) : State := modQueue part q (fun k => { k with step := k.step + 1 }) s

/-- A packet's access: denied, the packet completes with DENIED; on a link that is down it is made again. -/
def packetDo {α : Type} (part q : Nat) (m : MR α) (k : α → State → State) (s0 : State) : State :=
  match m with
  | .ok a s => k a s
  | .bad _ s => completePacket part q 4 s
  | .wait _ => s0

def mib : Nat := 2 ^ 20

/-- Steps of one MiB. -/
def mibSteps (n : Nat) : Nat := (n + mib - 1) / mib

/-- COPY: one step is at most 1 MiB. -/
def execCopy (part : BitVec 7) (q : BitVec 8) (s : State) : Out :=
  let p := part.toNat
  let n := q.toNat
  .next (withPacket 2 p n (fun pkt s =>
    let k := (queueOf s p n).step
    let len := min mib (pktWord pkt 24 - k * mib)
    if mibSteps (pktWord pkt 24) ≤ k then completePacket p n 0 s
    else
      packetDo p n (vaReadN (packetWho s p n) (wrapTo 64 (pktWord pkt 8 + k * mib)) len s) (fun bs s =>
        packetDo p n (vaWriteN (packetWho s p n) (wrapTo 64 (pktWord pkt 16 + k * mib)) bs s) (fun _ s =>
          let s := stepDone p n s
          if mibSteps (pktWord pkt 24) ≤ k + 1 then completePacket p n 0 s else s) s) s) s)

/-- SIGNAL: OP 0 sets, 1 adds; a word that is not 8-byte aligned is none (log 27). -/
def execSignal (part : BitVec 7) (q : BitVec 8) (s : State) : Out :=
  let p := part.toNat
  let n := q.toNat
  .next (withPacket 3 p n (fun pkt s =>
    let v := pktWord pkt 16
    let op := pktWord pkt 24
    if 1 < op ∨ pktWord pkt 8 % 8 ≠ 0 then completePacket p n 3 s
    else packetDo p n (signalOp p n (pktWord pkt 8) (fun x => if op = 0 then v else x + v) s)
      (fun _ s => completePacket p n 0 s) s) s)

/-- WAIT: satisfied at its first read, or the queue blocks. -/
def execWait (part : BitVec 7) (q : BitVec 8) (s : State) : Out :=
  let p := part.toNat
  let n := q.toNat
  .next (withPacket 4 p n (fun pkt s =>
    if pktWord pkt 8 % 8 ≠ 0 then completePacket p n 3 s
    else packetDo p n (vaReadNum (packetWho s p n) (pktWord pkt 8) 8 s) (fun v s =>
      if pktWord pkt 16 ≤ v then completePacket p n 0 s
      else writeBack p n (modQueue p n (fun k => { k with state := 4, active := false }) s)) s) s)

/-- WAIT_SATISFIED: a later read meets the condition, and the queue goes on. -/
def execWaitSatisfied (part : BitVec 7) (q : BitVec 8) (s : State) : Out :=
  let p := part.toNat
  let n := q.toNat
  let k := queueOf s p n
  if k.state ≠ 4 then .next s
  else .next (packetDo p n (vaReadNum (packetWho s p n) (pktWord k.pkt 8) 8 s) (fun v s =>
    if pktWord k.pkt 16 ≤ v then completePacket p n 0 s else s) s)

/-- WRITE_SIGNAL: the write, then the signal. -/
def execWriteSignal (part : BitVec 7) (q : BitVec 8) (s : State) : Out :=
  let p := part.toNat
  let n := q.toNat
  .next (withPacket 5 p n (fun pkt s =>
    if pktWord pkt 48 % 8 ≠ 0 then completePacket p n 3 s
    else if (queueOf s p n).step = 0 then
      packetDo p n (vaWriteN (packetWho s p n) (pktWord pkt 8) ((pkt.drop 16).take 32) s) (fun _ s => stepDone p n s) s
    else packetDo p n (signalOp p n (pktWord pkt 48) (fun x => x + 1) s) (fun _ s => completePacket p n 0 s) s) s)

/-- BARRIER: the scheduler begins it as a fenced packet; it has no action. -/
def execBarrier (part : BitVec 7) (q : BitVec 8) (s : State) : Out :=
  .next (withPacket 6 part.toNat q.toNat (fun _ s => completePacket part.toNat q.toNat 0 s) s)

/-! ## Measurement and receipts (R269, R270) -/

/-- M := SHA-256(M ‖ kind ‖ digest). -/
def extendChain (part q kind : Nat) (digest : List Byte) (s : State) : State :=
  modQueue part q (fun k => { k with meas := digestNum (sha256 (digestBytes k.meas ++ toBytes 1 kind ++ digest)),
                                     mcount := (k.mcount + 1) % 2 ^ 32 }) s

/-- MEASURE: one step hashes at most 1 MiB; the hash state is kept between steps. -/
def execMeasure (part : BitVec 7) (q : BitVec 8) (s : State) : Out :=
  let p := part.toNat
  let n := q.toNat
  .next (withPacket 7 p n (fun pkt s =>
    let total := pktWord pkt 16
    let kind := pktWord pkt 24
    let k := (queueOf s p n).step
    let len := min mib (total - k * mib)
    if kind ≠ 1 ∧ kind ≠ 2 then completePacket p n 3 s
    else
      packetDo p n (vaReadN (packetWho s p n) (wrapTo 64 (pktWord pkt 8 + k * mib)) len s) (fun bs s =>
        let st := if k = 0 then shaInit else (queueOf s p n).hash
        let r := shaFeed st [] bs
        if mibSteps total ≤ k + 1 then completePacket p n 0 (extendChain p n kind (shaEnd r.1 r.2 total) s)
        else stepDone p n (modQueue p n (fun x => { x with hash := r.1 }) s)) s) s)

/-- KEYID of this boot's receipt key (R270). -/
def receiptKeyId (s : State) : List Byte := keyIdOf (Config.receiptKey s.boot.bootId)

/-- The first 80 bytes of a receipt. -/
def receiptHead (s : State) (part q : Nat) : List Byte :=
  let k := queueOf s part q
  toBytes 4 1 ++ toBytes 4 (part + q * 65536) ++ toBytes 8 k.seq ++ toBytes 8 (timeNow s) ++
  toBytes 4 k.mcount ++ toBytes 4 s.boot.bootId.toNat ++ digestBytes k.meas ++ receiptKeyId s ++ toBytes 8 0

/-- A record with the ECDSA signature of this boot's receipt key over its bytes (R270, R272; log 8). -/
def signed' (s : State) (bs : List Byte) : List Byte :=
  let r := ecdsaSign (Config.receiptKey s.boot.bootId) (Config.signNonce s.fresh) (digestNum (sha256 bs))
  bs ++ toBytes 32 r.1 ++ toBytes 32 r.2

/-- RECEIPT, one step: the partition's count rises, then the record is written; while a link is down neither has happened. -/
def execReceipt (part : BitVec 7) (q : BitVec 8) (s : State) : Out :=
  let p := part.toNat
  let n := q.toNat
  .next (withPacket 8 p n (fun pkt s0 =>
    let s := bump (addMeter p 9 1 (modQueue p n (fun k => { k with seq := (k.seq + 1) % 2 ^ 64 }) s0))
    packetDo p n (vaWriteN (packetWho s p n) (pktWord pkt 8) (signed' s (receiptHead s p n)) s)
      (fun _ s => completePacket p n 0 s) s0) s)

end Sys2Proof.Machine
end

