-- ==== Sys2Proof/Machine/Jobs.lean ====
section
/-! DEFINITION. Sloisk's scheduler: launches and their completion (R199, R265, R269), choice and slices (R266, R268), and
usage records (R271, R272). -/

namespace Sys2Proof.Machine

/-! ## The LAUNCH body (R265) -/

structure Launch where
  start : Nat
  argptr : Nat
  trapvec : Nat
  frames : Nat
  sig : Nat
  pword : BitVec 32
  harts : Nat
  percore : Nat
  gang : Nat
  idle : Nat
  lset : Nat
  weight : Nat
  deriving DecidableEq, Repr

def launchOf (p : List Byte) : Launch :=
  let w := ofBytes ((p.drop 0x36).take 2)
  { start := pktWord p 0x08, argptr := pktWord p 0x10, trapvec := pktWord p 0x18, frames := pktWord p 0x20,
    sig := pktWord p 0x28, pword := BitVec.ofNat 32 (ofBytes ((p.drop 0x30).take 4)), harts := ofBytes ((p.drop 0x34).take 2),
    percore := w / 2 ^ 12, gang := w / 2 ^ 10 % 4, idle := w / 2 ^ 7 % 8, lset := ofBytes ((p.drop 0x38).take 1),
    weight := ofBytes ((p.drop 0x39).take 1) % 16 }

/-- A field outside its range, or a reserved bit (R263, R265). -/
def launchBad (p : List Byte) : Bool :=
  let l := launchOf p
  l.gang == 3 || l.harts == 0 || decide (2048 < l.harts) || l.percore == 0 || decide (8 < l.percore) ||
  decide (l.percore ≤ l.idle) || l.lset == 0 || l.weight == 0 || ofBytes ((p.drop 0x36).take 2) % 128 != 0 ||
  ofBytes ((p.drop 0x39).take 1) / 16 != 0 || ofBytes ((p.drop 0x3A).take 6) != 0

def Launch.cores (l : Launch) : Nat := (l.harts + l.percore - 1) / l.percore
/-- Harts on core i of the job. -/
def Launch.hartsOn (l : Launch) (i : Nat) : Nat := min l.percore (l.harts - l.percore * i)

/-- The word is valid for every core (R77). -/
def Launch.wordOk (l : Launch) : Bool := (List.range l.cores).all (fun i => pwValid l.pword (l.hartsOn i))

/-- Each cluster's cores come in increasing order, cluster by cluster. -/
def clusterOrder : List Nat → List Nat → Bool
  | _, [] => true
  | done, c :: r =>
    let cl := c / 4
    match done with
    | [] => clusterOrder [c] r
    | d :: _ => (if d / 4 = cl then decide (d < c) else !(done.any (fun x => x / 4 == cl))) && clusterOrder (c :: done) r

/-- A slot that a moved gang of the partition names elsewhere keeps its core from a launch (R82). -/
def slotAway (s : State) (part core : Nat) : Bool :=
  s.jobs.any (fun p => p.2.live && p.2.part == part && (p.2.slots.zip p.2.cores).any (fun q => q.1 == core && q.2 != core))

/-- A core takes the harts that the launch has on its core number i. -/
def fitsAt (s : State) (part : Nat) (l : Launch) (i core : Nat) : Bool :=
  coreAdmits s part l.pword (l.hartsOn i) core && !slotAway s part core

/-- From place i on, the cores taken pass over no core of a cluster that admits the launch: not before a later core of the
cluster, and not before the next cluster. `c` is the core taken last. -/
def fillsClusters (s : State) (part : Nat) (l : Launch) : Nat → Nat → List Nat → Bool
  | _, _, [] => true
  | i, c, d :: r =>
    (List.range 4).all (fun k =>
      let x := d / 4 * 4 + k
      let y := c / 4 * 4 + k
      (if d / 4 = c / 4 then decide (x ≤ c) || decide (d ≤ x) || !fitsAt s part l i x
       else (decide (d ≤ x) || !fitsAt s part l i x) && (decide (y ≤ c) || !fitsAt s part l i y))) &&
    fillsClusters s part l (i + 1) d r

/-- The same from the launch's first core on. -/
def fillsFrom (s : State) (part : Nat) (l : Launch) : List Nat → Bool
  | [] => true
  | d :: r => (List.range (d % 4)).all (fun k => !fitsAt s part l 0 (d / 4 * 4 + k)) && fillsClusters s part l 1 d r

/-- The bounds of R265 on the cores of a launch. -/
def placementOk (s : State) (part : Nat) (l : Launch) (cores : List Nat) : Bool :=
  cores.length == l.cores && decide cores.Nodup && clusterOrder [] cores && fillsFrom s part l cores &&
  (cores.zip (List.range cores.length)).all (fun p => fitsAt s part l p.2 p.1) &&
  (l.gang != 2 || ((cores.zip (List.range cores.length)).all (fun p => p.1 % 4 == p.2 % 4) &&
    cores.all (fun c => clusterFree s (c / 4))))

/-- Cores of a list, in its order, each the first that takes the harts of the launch's next core. -/
def fillCores (s : State) (part : Nat) (l : Launch) : Nat → List Nat → List Nat
  | _, [] => []
  | i, c :: r => if i < l.cores ∧ fitsAt s part l i c then c :: fillCores s part l (i + 1) r else fillCores s part l i r

/-- Cores on which a launch can begin, in the clusters of the free cores: cluster by cluster, each cluster being tried as the
last one, which may hold the launch's smaller last core. -/
def chooseCores (s : State) (part : Nat) (l : Launch) (free : List Nat) : Option (List Nat) :=
  let coresOf (cl : Nat) : List Nat := (List.range 4).map (fun i => 4 * cl + i)
  let all := (free.map (fun c => c / 4)).eraseDups
  let cls := if l.gang = 2 then all.filter (fun cl => clusterFree s cl && (coresOf cl).all (fitsAt s part l 0)) else all
  (cls :: cls.map (fun cl => cls.filter (fun x => x != cl) ++ [cl])).findSome? (fun order =>
    let cs := fillCores s part l 0 (order.flatMap coresOf)
    if placementOk s part l cs then some cs else none)

/-! ## Starting a job (R199) -/

/-- A launched hart's state, with the roots of its context descriptor (R43, R45); its debug registers stay. The PC is 4-byte
aligned (R297): bits 1:0 of START are dropped, as those of TRAPVEC are (the model's choice, log 82). -/
def launchHart (s : State) (l : Launch) (part ctx job j gang : Nat) (old : Hart) : Hart :=
  let vg := grantOf s (BitVec.ofNat 8 l.lset)
  let g := cset 0 5 (BitVec.ofNat 64 l.harts) (cset 0 4 (BitVec.ofNat 64 j) (cset 0 3 (BitVec.ofNat 64 l.argptr) []))
  { Hart.reset with
      run := .running, pc := BitVec.ofNat 64 (l.start / 4 * 4), r := { Regs.reset with g := g }, vl := vg * 64, vgrant := vg,
      lset := BitVec.ofNat 8 l.lset, weight := BitVec.ofNat 4 l.weight, jobhart := BitVec.ofNat 64 j,
      jobsize := BitVec.ofNat 64 l.harts, argptr := BitVec.ofNat 64 l.argptr, part := BitVec.ofNat 7 part, job := some job,
      ctx := ctx, troot := (contextOf s part ctx).troot, kvroot := (contextOf s part ctx).kvroot, gang := gang,
      t := { TrapCsrs.reset with vec := BitVec.ofNat 64 (l.trapvec / 4 * 4),
                                 frame := BitVec.ofNat 64 ((l.frames + 589824 * j) / 64 * 64) },
      dbg := { old.dbg with suppress := false, stepping := 0, held := [], passed := false } }

/-- Size of a gang, 1 for none (R265). -/
def Launch.gangSize (l : Launch) : Nat := if l.gang = 0 then 1 else if l.gang = 1 then l.percore else 4 * l.percore

/-- Hart j of the job is placed without being started. -/
def Launch.isIdle (l : Launch) (j : Nat) : Bool :=
  let i := j / l.percore
  decide (l.hartsOn i ≤ j % l.percore + l.idle)

/-- The next job number. -/
def nextJob (s : State) : Nat := s.jobs.foldl (fun n p => max n (p.1 + 1)) 0

def startJob (part q : Nat) (l : Launch) (cores : List Nat) (s : State) : State :=
  let job := nextJob s
  let ctx := ctxOf s part q
  let s := cores.foldl (fun s c => claimCore l.pword c s) s
  let s := { s with winMap := cores.foldl (fun m c => cset (BitVec.ofNat 8 c) (part * 256 + c) (BitVec.ofNat 8 c) m) s.winMap }
  let j : Job := { Job.none with part := part, ctx := ctx, queue := q, index := (queueOf s part q).readIdx, cores := cores,
                                 harts := List.replicate l.harts 0, percore := l.percore, gangKind := l.gang,
                                 sig := BitVec.ofNat 64 l.sig, since := s.ticks, live := true,
                                 pword := l.pword, slots := cores }
  let places := placeHarts s j cores
  let s := { s with jobs := cset Job.none job { j with harts := places } s.jobs }
  (places.zip (List.range places.length)).foldl (fun s p =>
    let (h, k) := p
    let x := launchHart s l part ctx job k (places.getD (k / l.gangSize * l.gangSize) h) (hartOf s h)
    setHart h (if l.isIdle k then { x with run := .free } else x) s) s

/-- A party that acts for a job of a context. -/
def jobWho (s : State) (part ctx : Nat) : Who := commandWho s part ctx part

/-- The end of a launch is shown: the status word, then one added to the signal, each where its own access is admitted
(R265). While a link is down the rest stays due. -/
def showEnd (e : EndSignal) (s : State) : Option EndSignal × State :=
  let w := jobWho s e.part e.ctx
  let add (s : State) : Option EndSignal × State :=
    match vaAtomic w e.sig 8 (fun x => some ((x + 1) % 2 ^ 64)) s with
    | .ok _ s => (none, s)
    | .bad _ s => (none, s)
    | .wait _ => (some { e with written := true }, s)
  if e.written then add s
  else match vaWrite w (wrapTo 64 (e.sig + 8)) (toBytes 8 e.status) s with
    | .ok _ s => add s
    | .bad _ s => add s
    | .wait _ => (some e, s)

/-- Every end that is due is tried. -/
def showEnds (s : State) : State :=
  s.signals.foldl (fun s e =>
    let (rest, s) := showEnd e s
    { s with signals := s.signals ++ rest.toList }) { s with signals := [] }

/-- A launch of a context ends with a status. -/
def fireSignal (part ctx sig status : Nat) (s : State) : State :=
  showEnds { s with signals := s.signals ++ [{ part := part, ctx := ctx, sig := sig, status := status, written := false }] }

/-- LAUNCH: BADPACKET and PARTWORD start no hart; else the harts start on the cores, when these are within bounds. -/
def execLaunch (part : BitVec 7) (q : BitVec 8) (cores : List Nat) (s : State) : Out :=
  let p := part.toNat
  let n := q.toNat
  .next (withPacket 1 p n (fun pkt s =>
    let l := launchOf pkt
    if launchBad pkt then completePacket p n 3 s
    else if !l.wordOk then completePacket p n 1 (fireSignal p (ctxOf s p n) l.sig 1 s)
    else if placementOk s p l cores then writeBack p n (takeDueSlices p n (passPacket p n (startJob p n l cores s)))
    else s) s)

/-! ## The end of a job (R196, R265, R269) -/

def isDone (x : Hart) : Bool := decide (x.run = .halted) || decide (x.run = .free)

/-- Insertion by JOBHART and then program order. -/
def insertMark (m : Nat × Nat × Word × Word) : List (Nat × Nat × Word × Word) → List (Nat × Nat × Word × Word)
  | [] => [m]
  | x :: r => if m.1 < x.1 ∨ (m.1 = x.1 ∧ m.2.1 < x.2.1) then m :: x :: r else x :: insertMark m r

def sortMarks (l : List (Nat × Nat × Word × Word)) : List (Nat × Nat × Word × Word) := l.foldl (fun r m => insertMark m r) []

/-- A marked buffer is hashed into the queue's chain; one whose translation fails or whose read is denied counts as kind
0x83 with a zero digest (R421). None while a link is down. -/
def hashMark (part q : Nat) (w : Who) (m : Nat × Nat × Word × Word) (s : State) : Option State :=
  match vaReadN w m.2.2.1.toNat m.2.2.2.toNat s with
  | .ok bs s => some (extendChain part q 3 (sha256 bs) s)
  | .bad _ s => some (extendChain part q 0x83 (List.replicate 32 0) s)
  | .wait _ => none

/-- The buffers in order; those that a link which is down holds up stay with the job. -/
def hashMarks (job : Nat) (w : Who) : List (Nat × Nat × Word × Word) → State → State
  | [], s => s
  | m :: rest, s =>
    let j := jobOf s job
    match hashMark j.part j.queue w m s with
    | some s => hashMarks job w rest (modJob job (fun j => { j with marks := rest }) s)
    | none => s

/-- The hart's place is open again. -/
def freeHartPlace (s : State) (h : Nat) : State :=
  let s := endWork h (detach h s)
  let cl := clusterNo h
  let s := { s with mgroups := cset [] cl ((cget [] cl s.mgroups).filter (fun p => p.1 != h)) s.mgroups }
  settleRev (coreNo h) (setHart h { Hart.reset with dbg := { (hartOf s h).dbg with suppress := false, stepping := 0 } } s)

/-- A launch that has used a core under the core's word and still has harts that have not halted. -/
def holdsBinds (s : State) (core : Nat) : Bool :=
  s.jobs.any (fun p => p.2.live && p.2.pword == (coreOf s core).pword && (p.2.cores.contains core || p.2.slots.contains core))

/-- The core's bind slots are cleared when no such launch is left (R400; log 76). -/
def dropBinds (s : State) (core : Nat) : State :=
  if holdsBinds s core then s else modCore core (fun c => { c with srbind := [] }) s

/-- The pre-empted harts of a job are in progress on no key any more (R139). -/
def dropAway (job : Nat) (s : State) : State :=
  { s with keyUses := s.keyUses.filter (fun u => !(decide (2 ^ 20 ≤ u.hart) && (u.hart - 2 ^ 20) / 4096 == job)) }

/-- The job ends with a status: buffers, meters, status, signal, LASTSTAT. It stays while a buffer cannot be read yet. -/
def finishJob (job status : Nat) (s : State) : State :=
  let j := jobOf s job
  let who := { hashWho s j.part j.queue with troot := contextRoot s j.part j.ctx }
  let s := hashMarks job who (sortMarks j.marks) s
  if !(jobOf s job).marks.isEmpty then s
  else
  let s := if j.parked then s else meterClusters job s
  let s := fireSignal j.part j.ctx j.sig.toNat status s
  let s := if j.parked then dropAway job s else j.harts.foldl freeHartPlace s
  let s := { s with switches := ckeep (fun k => k / 4096 != job) s.switches }
  let s := (j.cores ++ j.slots).foldl dropBinds (modJob job (fun j => { j with live := false, marks := [] }) s)
  writeBack j.part j.queue (modQueue j.part j.queue (fun k => { k with lastStat := status, lastIdx := j.index }) s)

/-- JOB_COMPLETION: every hart of the job has halted. -/
def execJobCompletion (job : Nat) (s : State) : Out :=
  let j := jobOf s job
  .next (if j.live && !j.parked && j.harts.all (fun h => isDone (hartOf s h)) then finishJob job j.status s else s)

/-! ## The stride scheduler (R266) -/

def activeCount (s : State) : Nat := (s.queues.filter (fun p => p.2.active)).length

/-- What a ready queue can do next. -/
inductive Head where
  | none
  /-- the head cannot be read, or is no packet -/
  | fail (status : Nat)
  | packet (bytes : List Byte)
  /-- the packet that was saved goes on -/
  | again
  /-- a pre-empted job, with the cores it resumes on -/
  | job (job : Nat) (cores : List Nat)
  deriving DecidableEq, Repr

/-- A pre-empted job of the queue that can resume, on its own cores or else on free ones. -/
def resumable (s : State) (part q : Nat) (free : List Nat) : Option (Nat × List Nat) :=
  (liveJobs s part q).findSome? (fun p =>
    let other := (free.filter (fun c => !p.2.cores.contains c)).take p.2.cores.length
    if mayResume s p.1 p.2.cores then some (p.1, p.2.cores)
    else if mayResume s p.1 other then some (p.1, other)
    else none)

/-- What a queue can do next. A pre-empted job resumes whatever its queue waits for (R209). -/
def headOf (s : State) (part q : Nat) (free : List Nat) : Head :=
  let k := queueOf s part q
  if k.active then .none
  else match resumable s part q free with
    | some (j, cs) => .job j cs
    | none =>
      if !isReady s part q then .none
      else if k.begun then (if activeCount s < 4 then .again else .none)
      else if waiting k = 0 then .none
      else match headPacket part q s with
        | .wait _ => .none
        | .bad _ _ => .fail 4
        | .ok none _ => .fail 4
        | .ok (some p) _ =>
          if pktFence p && !(liveJobs s part q).isEmpty then .none
          else if pktBad p then .fail 3
          else if 4 ≤ activeCount s then .none
          else if pktType p = 1 && !launchBad p && (launchOf p).wordOk && (chooseCores s part (launchOf p) free).isNone then .none
          else .packet p

/-- The ready queue with the smallest PASS whose head can begin, the lower number first. -/
def pickQueue (s : State) (part : Nat) (free : List Nat) : Option (Nat × Head) :=
  (queuesOf s part).foldl (fun best p =>
    match headOf s part p.1 free with
    | .none => best
    | h => match best with
      | some (b, hb) => if (queueOf s part p.1).pass < (queueOf s part b).pass then some (p.1, h) else some (b, hb)
      | none => some (p.1, h)) none

/-- The chosen queue issues: its packet begins and is charged, its saved packet goes on, or its job resumes. -/
def issueHead (part q : Nat) (h : Head) (s : State) : State :=
  let readHead (s : State) : State := after (headPacket part q s) s
  match h with
  | .none => s
  | .fail st => completePacket part q st (chargeUnits part q 1 (readHead s))
  | .packet p =>
    let s := readHead s
    writeBack part q (modQueue part q (fun k => { k with begun := true, active := true, pkt := p, step := 0, hash := [] })
      (chargeUnits part q 1 s))
  | .again => writeBack part q (modQueue part q (fun k => { k with active := true }) s)
  | .job j cs => writeBack part q (resumeJob j cs s)

/-- STRIDE_SCHEDULE: a cluster or command core is free for the partition; `cores` are those a launch may take. -/
def execStrideSchedule (part : BitVec 7) (cores : List Nat) (s : State) : Out :=
  match pickQueue s part.toNat cores with
  | some (q, h) => .next (issueHead part.toNat q h s)
  | none => .next s

/-! ## Time slices (R268) -/

/-- TIME_SLICE_END: the job is charged for its clusters, and pre-empted when another ready queue has a smaller PASS; a
packet of its queue in progress defers the switch. -/
def execTimeSliceEnd (job : Nat) (s : State) : Out :=
  let j := jobOf s job
  if !j.live || j.parked then .next s
  else
    let s := chargeUnits j.part j.queue (jobClusters j).length s
    let mine := (queueOf s j.part j.queue).pass
    let smaller := (queuesOf s j.part).any (fun p => p.1 != j.queue && isReady s j.part p.1 && decide (p.2.pass < mine))
    let s :=
      if !smaller then s
      else if (queueOf s j.part j.queue).active then modJob job (fun j => { j with sliceDue := true }) s
      else preemptJob job s
    .next (writeBack j.part j.queue s)

/-- PACKET_DEFER_TIMEOUT: the packet is saved at its step boundary, and the deferred switch takes place. -/
def execPacketDeferTimeout (part : BitVec 7) (q : BitVec 8) (s : State) : Out :=
  let p := part.toNat
  let n := q.toNat
  .next (if (queueOf s p n).active && (liveJobs s p n).any (fun j => j.2.sliceDue) then
    writeBack p n (takeDueSlices p n (modQueue p n (fun k => { k with active := false }) s)) else s)

/-! ## Usage records (R272) -/

/-- The first 160 bytes of a usage record, of which the signature's digest is taken. -/
def usageHead (s : State) (part : Nat) : List Byte :=
  let p := partOf s part
  toBytes 4 1 ++ toBytes 4 part ++ toBytes 8 (p.useq + 1) ++ toBytes 8 (timeNow s) ++ digestBytes p.prevHash ++
  (List.range 10).flatMap (fun k => toBytes 8 (meterVal p k)) ++ toBytes 8 (spanNs p.usince s.ticks / 1000000) ++
  receiptKeyId s ++ toBytes 8 0

/-- Waiting records enter a ring while it has room; how much room its reader has left is a free value (log 20). -/
def drainUsage (part : Nat) (s : State) : State :=
  let room := (Config.freeWord s.fresh).toNat
  let s := bump s
  modPart part (fun p => { p with ringOwn := p.ringOwn ++ p.ubuf.take room, ringOp := p.ringOp ++ p.ubuf.take room,
                                  ubuf := p.ubuf.drop room }) s

/-- One record of all counters, unless 64 records wait. -/
def emitUsage (part : Nat) (s : State) : State :=
  let s := drainUsage part (settleMeters part s)
  let p := partOf s part
  if 64 ≤ p.ubuf.length then s
  else
    let r := signed' s (usageHead s part)
    drainUsage part (modPart part (fun p => { p with useq := p.useq + 1, prevHash := digestNum (sha256 (r.take 0x90)),
                                                     usince := s.ticks, ubuf := p.ubuf ++ [r], finalDue := false }) (bump s))

/-- USAGE_PERIOD_END: the record of the period. Records of a partition that is gone go on to the rings, the final one
among them when 64 waited at its teardown (R273). -/
def execUsagePeriodEnd (part : BitVec 7) (s : State) : Out :=
  let p := partOf s part.toNat
  .next (if p.live || p.finalDue then emitUsage part.toNat s
    else if p.ubuf.isEmpty then s
    else drainUsage part.toNat s)

end Sys2Proof.Machine
end

