-- ==== Sys2Proof/Machine/KvWalk.lean ====
section
/-! DEFINITION. The key-value space: tables and their walk (R42, R112 to R121), allocation and freeing (R135, R136,
R142), the stored formats (R122 to R128, R130) and the rebuild of R131. -/

namespace Sys2Proof.Machine

/-! ## KV addresses (R42) -/

def kaKind (a : Nat) : Nat := bitsOf a 60 2
def kaSeq (a : Nat) : Nat := bitsOf a 40 20
def kaLayer (a : Nat) : Nat := bitsOf a 33 7
def kaHead (a : Nat) : Nat := bitsOf a 26 7
def kaPos (a : Nat) : Nat := bitsOf a 0 26
/-- The address with another position. -/
def kaAt (a pos : Nat) : Nat := a - a % 2 ^ 26 + pos % 2 ^ 26
def posLimit : Nat := 2 ^ 26

/-- KVPAGE (R138). -/
def kvFlt (ga reason level : Nat) (wr remote : Bool) : Flt :=
  mkFlt cKvpage ga (reason + 16 * level + 128 * b2n wr + 256 * b2n remote)

/-- QUOTA (R136, R233). -/
def quotaFlt (ga item pool : Nat) : Flt := mkFlt cQuota ga (2 * item + pool)

/-! ## Accesses of the KV controllers -/

/-- The request's party: the KV controller of the issuing hart's die with the hart's partition (R43, R121). -/
def kvWho (c : LCtx) (s : State) : Who :=
  { hartWho s s.cur 4 c.handler with master := kvMaster (dieNo s.cur), folds := false }

/-- The place of a global physical address. -/
def globLoc (g : Nat) : Loc := { pkg := g / 2 ^ 44 % 1024, a := g % 2 ^ 44, leaf := 0, lvl := 4 }

/-- A fault on uncorrectable data that names a KV address. -/
def kvEcc (ga place : Nat) : Flt := mkFlt cEcc ga (place + 16 * 4 + 256)

/-- What stands between a request of a KV controller and its bytes; `ga` is the KV address that a fault names. The result is
the answer's bytes of an access that has been performed, none for one that is still to be performed (R180). -/
def kvReach (w : Who) (ga : Nat) (l : Loc) (kind : AccKind) (n : Nat) (bs : List Byte) (s : State) :
    MR (Option (List Byte)) :=
  let r := if issuedBefore s w ga l kind then 0 else admitCode s w.master w.part l kind
  if r ≠ 0 then .bad (accessFlt ga r) (logAt s w.master w.part l kind r)
  else if ownedByOther s w.agentOf l.global n then .wait s
  else match linkFor s l with
    | some (k, m) =>
      if (linkOf s k).trained then crossNow k m w ga l kind n s
      else .wait (leaveOutstanding k w ga l kind n bs s)
    | none => .ok none (if l.pkg = s.pkg then settleZero s l.a else s)

/-- The request of a hart to the KV controller of its die, checked at that controller's table (R24, R31). A KV address lies
in no page of that table: the page compared is that of the controller's control block (the model's choice, log 38). -/
def hartAsk (w : Who) (ga : Nat) (wr : Bool) (s : State) : MR Unit :=
  let die := dieNo w.hart
  let kind : AccKind := if wr then .write else .read
  let r := checkAt s (7, die) false w.hart w.part (0xF004000 + die) kind
  if r ≠ 0 then .bad (accessFlt ga r) (logRecord (tgtKey (7, die)) w.part w.hart ga kind r s) else .ok () s

/-- `n` bytes at a global address; `place` is WHERE of R233 for data that is unreadable, 0 for that of the target. -/
def kvGet (w : Who) (ga g n place : Nat) (s : State) : MR (List Byte) :=
  let l := globLoc g
  mbind (kvReach w ga l .read n [] s) fun got s =>
    match got, firstPoison s l.global n with
    | some bs, _ => .ok bs s
    | none, some _ => .bad (kvEcc ga (if place = 0 then eccWhere s l else place)) s
    | none, none => .ok (memBytes s l.global n) s

/-- Bytes inside one 256-byte line are written. A line of another package leaves the die's lee cache (R92, R141). -/
def kvPut (w : Who) (ga g : Nat) (bs : List Byte) (s : State) : MR Unit :=
  let l := globLoc g
  mbind (kvReach w ga l .write bs.length bs s) fun got s =>
    let s := if l.pkg = s.pkg then s else dropLine w l s
    .ok () (if got.isNone then setMem l.global bs s else s)

/-- A run of bytes written in pieces inside 256-byte lines; `fuel` bounds their number. -/
def kvPutRun (w : Who) (ga : Nat) : Nat → Nat → List Byte → State → MR Unit
  | 0, _, _, s => .ok () s
  | fuel + 1, g, bs, s =>
    if bs.isEmpty then .ok () s
    else
      let m := pieceLen g bs.length
      mbind (kvPut w ga g (bs.take m) s) fun _ s => kvPutRun w ga fuel (g + m) (bs.drop m) s

def kvPutN (w : Who) (ga g : Nat) (bs : List Byte) (s : State) : MR Unit := kvPutRun w ga (pieces bs.length) g bs s

/-- Zeros over `n` bytes of this package. The requests of a 64 KiB page are checked alike, and so once; `pages` counts
those left. -/
def kvZeroPages (w : Who) (ga g n : Nat) : Nat → State → MR Unit
  | 0, s => .ok () s
  | p + 1, s =>
    mbind (kvZeroPages w ga g n p s) fun _ s =>
      let lo := max g ((g / 65536 + p) * 65536)
      let hi := min (g + n) ((g / 65536 + p + 1) * 65536)
      mbind (kvReach w ga (globLoc lo) .write (hi - lo) [] s) fun _ s => .ok () (zeroMem lo (hi - lo) s)

def kvZero (w : Who) (ga g n : Nat) (s : State) : MR Unit :=
  kvZeroPages w ga g n ((g % 65536 + n + 65535) / 65536) s

/-- A number in a first-stage table. -/
def kvNum (w : Who) (ga g n : Nat) (s : State) : MR Nat := mbind (kvGet w ga g n 0 s) fun bs s => .ok (ofBytes bs) s

/-- ADDR of a pointer entry (R115). -/
def ptrAddr (e : Nat) : Nat := bitsOf e 6 48 * 64
def mkPtr (g : Nat) : Nat := g / 64 * 64 + 1

/-- What an operation that fails as a whole leaves: the state before it, with the records and counts of requests. -/
def undo (part : Nat) (s s' : State) : State :=
  modPart part (fun p => { p with denials := (partOf s' part).denials, meters := (partOf s' part).meters })
    { s with faultLog := s'.faultLog, links := s'.links, lee := s'.lee, keyUses := s'.keyUses, fresh := s'.fresh }

/-- Requests that reached their targets before the link went down are performed there (R180). -/
def keepApplied (s s' : State) : State :=
  let old := s.links.flatMap (fun p => p.2.outstanding)
  let new := s'.links.flatMap (fun p => p.2.outstanding.filter (fun r => r.applied && !old.contains r))
  new.foldl (fun s r => setMem r.req.addr.toNat r.req.data s) s

/-- An operation that is performed whole or not at all. -/
def whole {α : Type} (w : Who) (m : State → MR α) (s : State) : MR α :=
  match m s with
  | .ok a s' => .ok a s'
  | .bad f s' => .bad f (undo w.part s s')
  | .wait s' => .wait (undo w.part (keepApplied s s') s')

/-! ## The pool (R135, R136, R119) -/

def findChunk (s : State) (p : Chunk → Bool) : Option Chunk := s.chunks.find? p

def setChunk (block : Nat) (f : Chunk → Chunk) (s : State) : State :=
  { s with chunks := s.chunks.map (fun c => if c.block = block then f c else c) }

/-- The second-stage entry of a local block, as root firmware sees it. -/
def stage2Get (s : State) (b : Nat) : Nat := rawRead s (s.stage2 + 16 * b) 16
/-- Root firmware's write of that entry. -/
def stage2Put (b e : Nat) (s : State) : State := rawWrite (s.stage2 + 16 * b) 16 e s
/-- The KV controller's read and write of it (R30). -/
def kvEntryGet (w : Who) (ga b : Nat) (s : State) : MR Nat := kvNum w ga (glob s (s.stage2 + 16 * b)) 16 s
def kvEntry (w : Who) (ga b e : Nat) (s : State) : MR Unit := kvPut w ga (glob s (s.stage2 + 16 * b)) (toBytes 16 e) s

def s2Gen (e : Nat) : Nat := bitsOf e 96 32
def s2State (e : Nat) : Nat := bitsOf e 62 2
def s2Owner (e : Nat) : Nat := bitsOf e 55 7
def s2Kind (e : Nat) : Nat := bitsOf e 53 2
def s2Addr (e : Nat) : Nat := bitsOf e 6 38 * 64
def mkS2 (gen state owner bkind pcode addr : Nat) : Nat :=
  gen % 2 ^ 32 * 2 ^ 96 + state % 4 * 2 ^ 62 + owner % 128 * 2 ^ 55 + bkind % 4 * 2 ^ 53 + pcode % 4 * 2 ^ 51 +
    addr / 64 % 2 ^ 38 * 64

/-- Take a chunk for a block: its entry becomes resident and its bytes zero. -/
def takeChunk (w : Who) (ga : Nat) (c : Chunk) (bkind pcode n : Nat) (s : State) : MR Unit :=
  let s := setChunk c.block (fun x => { x with used := true }) s
  mbind (kvEntryGet w ga c.block s) fun e s =>
    mbind (kvEntry w ga c.block (mkS2 (s2Gen e) 1 w.part bkind pcode c.addr) s) fun _ s => kvZero w ga (glob s c.addr) n s

/-- The first free chunk of a tier that holds `n` bytes. -/
def freeChunk (s : State) (tier n : Nat) : Option Chunk :=
  findChunk s (fun c => !c.used && !c.retired && c.tier == tier && decide (n ≤ c.bytes) && decide (c.block < s.stage2Entries))

/-- Allocate `n` bytes for the partition: block and package-local address. -/
def kvAlloc (w : Who) (ga item tier bkind pcode n : Nat) (s : State) : MR Chunk :=
  let p := partOf s w.part
  if p.kvQuota < p.kvHeld + 1 then .bad (quotaFlt ga item 0) s
  else match freeChunk s tier n with
    | none => .bad (quotaFlt ga item 1) s
    | some c =>
      mbind (takeChunk w ga c bkind pcode n s) fun _ s =>
        .ok c (modPart w.part (fun p => { p with kvHeld := p.kvHeld + 1 }) (settleMeters w.part s))

/-- The entry of a block that is freed (R142): STATE 0, GEN incremented. -/
def freedEntry (e : Nat) : Nat := e - s2State e * 2 ^ 62 - s2Gen e * 2 ^ 96 + (s2Gen e + 1) % 2 ^ 32 * 2 ^ 96

/-- A freed block is in the pool again, and its owner's count of pages is lowered (R136, R142). -/
def countFreed (b owner : Nat) (s : State) : State :=
  modPart owner (fun p => { p with kvHeld := p.kvHeld - 1 })
    (settleMeters owner (setChunk b (fun c => { c with used := false }) s))

/-- Free a block of this package. -/
def freeBlock (w : Who) (ga b : Nat) (s : State) : MR Unit :=
  mbind (kvEntryGet w ga b s) fun e s =>
    mbind (kvEntry w ga b (freedEntry e) s) fun _ s => .ok () (countFreed b (s2Owner e) s)

/-- Free a table by its global address. -/
def freeTable (w : Who) (ga g : Nat) (s : State) : MR Unit :=
  match findChunk s (fun c => c.used && glob s c.addr == g) with
  | some c => freeBlock w ga c.block s
  | none => .ok () s

/-! ## The context (R112) -/

def hdrV (h : Nat) : Bool := h.testBit 63
def hdrPcode (h : Nat) : Nat := bitsOf h 58 2
def hdrP (h : Nat) : Nat := 16 * 4 ^ hdrPcode h
def hdrAtier (h : Nat) : Nat := bitsOf h 56 2
def hdrRtier (h : Nat) : Nat := bitsOf h 54 2
def hdrLayers (h : Nat) : Nat := bitsOf h 47 7
def hdrHeads (h : Nat) : Nat := bitsOf h 40 7
def hdrSeqdir (h : Nat) : Nat := bitsOf h 64 64

/-- KVROOT of the hart that asks (R43). -/
def kvRoot (w : Who) (s : State) : Nat := (hartOf s w.hart).kvroot.toNat
def isRemote (s : State) (g : Nat) : Bool := g / 2 ^ 44 % 1024 != s.pkg

/-- A key's place: the header and the address of its layer-head entry. -/
structure Key where
  hdr : Nat
  lh : Nat
  deriving DecidableEq, Repr

/-- A hart's instruction makes a walk: it is in progress on its key (R139). -/
def beginWalk (w : Who) (s : State) : State :=
  { s with keyUses := s.keyUses.map (fun u => if u.hart = w.hart ∧ u.handler = w.handler then { u with begun := true } else u) }

/-- The walk of R121 to the layer-head entry. -/
def kvHead (w : Who) (ga : Nat) (wr : Bool) (s : State) : MR Key :=
  mbind (hartAsk w ga wr (beginWalk w s)) fun _ s =>
  if ga / 2 ^ 62 ≠ 0 ∨ kaKind ga = 3 then .bad (kvFlt ga 5 0 wr false) s
  else
    let root := kvRoot w s
    mbind (kvNum w ga root 64 s) fun h s =>
      if !hdrV h then .bad (kvFlt ga 8 0 wr (isRemote s root)) s
      else if hdrLayers h < kaLayer ga ∨ hdrHeads h < kaHead ga then .bad (kvFlt ga 5 0 wr (isRemote s root)) s
      else
        let a1 := ptrAddr (hdrSeqdir h) + 8 * (kaSeq ga / 1024)
        mbind (kvNum w ga a1 8 s) fun p1 s =>
          if !p1.testBit 0 then .bad (kvFlt ga 8 1 wr (isRemote s a1)) s
          else
            let a2 := ptrAddr p1 + 8 * (kaSeq ga % 1024)
            mbind (kvNum w ga a2 8 s) fun p2 s =>
              if !p2.testBit 0 then .bad (kvFlt ga 8 2 wr (isRemote s a2)) s
              else .ok { hdr := h, lh := ptrAddr p2 + 64 * (kaLayer ga * (hdrHeads h + 1) + kaHead ga) } s

def nextPos (w : Who) (ga : Nat) (k : Key) (s : State) : MR Nat :=
  mbind (kvNum w ga (k.lh + 0x38) 4 s) fun x s => .ok (x % posLimit) s

/-- NPAGES of a layer-head entry moves by `d`. -/
def addPages (w : Who) (ga : Nat) (k : Key) (d : Int) (s : State) : MR Unit :=
  mbind (kvNum w ga (k.lh + 0x3C) 4 s) fun n s => kvPut w ga (k.lh + 0x3C) (toBytes 4 (wrapTo 32 (n + d))) s

/-! ## The kinds of a key: 0 keys, 1 values, 2 scores, 3 and 4 the recovery copies of keys and values -/

def kvKinds : List Nat := [0, 1, 2, 3, 4]
def dirOff (kind : Nat) : Nat := 8 * kind
def cbOff (kind : Nat) : Nat := 0x28 + 8 * (kind % 3)
def isRecovery (kind : Nat) : Bool := decide (3 ≤ kind)

/-- Bytes of a page (R124, R127, R130). -/
def pageBytes (kind p : Nat) : Nat :=
  if kind < 2 then (70 * p + 63) / 64 * 64 else if kind = 2 then 4 * p else 20 * p

/-- Place of slot t's data and of its metadata word in a page. -/
def slotData (kind t : Nat) : Nat := if kind < 2 then 64 * t else if kind = 2 then 4 * t else 16 * t
def slotLen (kind : Nat) : Nat := if kind < 2 then 64 else if kind = 2 then 4 else 16
def slotMeta (kind p t : Nat) : Nat := if kind < 2 then 66 * p + 4 * t else 16 * p + 4 * t
def slotScale (p t : Nat) : Nat := 64 * p + 2 * t

/-- Block kind of R119 for a kind. -/
def blockKind (kind : Nat) : Nat := if kind < 2 then 0 else if kind = 2 then 2 else 1
/-- bkind(leaf, kind) of R121. -/
def leafBkind (leaf kind : Nat) : Nat := if kind = 2 then 2 else b2n (leaf.testBit 59)

def leafPkg (l : Nat) : Nat := bitsOf l 47 10
def leafBlock (l : Nat) : Nat := bitsOf l 7 40
def mkLeaf (kind tier pkg block : Nat) : Nat :=
  2 ^ 63 + b2n (isRecovery kind) * 2 ^ 59 + tier % 4 * 2 ^ 57 + pkg % 1024 * 2 ^ 47 + block % 2 ^ 40 * 128

/-- A page of a key: where its leaf lies, the leaf, and the global address of its block. -/
structure Page where
  leafAt : Nat
  leaf : Nat
  addr : Nat
  deriving DecidableEq, Repr

/-- The content of a new page (R125): every slot empty. -/
def freshPage (w : Who) (ga kind p addr : Nat) (s : State) : MR Unit :=
  if kind = 2 then .ok () s
  else kvPutN w ga (addr + slotMeta kind p 0) ((List.range p).flatMap (fun _ => toBytes 4 0x40000000)) s

/-- The second stage of R121 for a leaf (R120). -/
def stage2 (w : Who) (ga kind leafAt leaf : Nat) (wr : Bool) (s : State) : MR Page :=
  let pkg := leafPkg leaf
  let b := leafBlock leaf
  let rem := decide (pkg ≠ s.pkg)
  if bitsOf leaf 57 2 = 3 ∨ leaf % 128 ≠ 0 then .bad (kvFlt ga 2 5 wr (isRemote s leafAt)) s
  else
    let fin (e : Nat) (s : State) : MR Page :=
      if s2State e = 0 ∨ s2State e = 3 ∨ s2Kind e ≠ leafBkind leaf kind then .bad (kvFlt ga 2 6 wr rem) s
      else if s2State e = 2 then .bad (kvFlt ga 3 6 wr rem) s
      else if s2Owner e ≠ w.part then
        let t := tgtKey (7, dieOfLoc (s2Addr e) % 4)
        .bad (accessFlt ga 3) (logRecord t w.part w.master (s2Addr e) (if wr then .write else .read) 3 s)
      else .ok { leafAt := leafAt, leaf := leaf, addr := pkg * 2 ^ 44 + s2Addr e } s
    if rem then fin (Config.peerEntry pkg b s.ticks).toNat (bump s)
    else if s.stage2Entries ≤ b then .bad (kvFlt ga 2 6 wr false) s
    else mbind (kvEntryGet w ga b s) fun e s => fin e s

/-- The address of a table named by the pointer entry at `ea`: present, absent, or allocated by a write. -/
def kvTable (w : Who) (ga : Nat) (k : Key) (ea n : Nat) (wr : Bool) (s : State) : MR (Option Nat) :=
  mbind (kvNum w ga ea 8 s) fun e s =>
    if e.testBit 0 then .ok (some (ptrAddr e)) s
    else if !wr then .ok none s
    else
      mbind (kvAlloc w ga 2 0 3 (hdrPcode k.hdr) n s) fun c s =>
        mbind (kvPut w ga ea (toBytes 8 (mkPtr (glob s c.addr))) s) fun _ s =>
          mbind (addPages w ga k 1 s) fun _ s => .ok (some (glob s c.addr)) s

/-- Bytes of a block directory (R117). -/
def dirBytes (h : Nat) : Nat := 8 * (posLimit / (512 * hdrP h))

/-- The tier of a new page. Score pages are data pages here, and take that of ATIER (the model's choice, log 83). -/
def newTier (h kind : Nat) : Nat := if isRecovery kind then hdrRtier h else hdrAtier h

/-- The page of a kind that holds block number `blk`: none where a read finds none, with the level at which it is absent
and the address of the entry that says so; allocated by a write. -/
def kvPage (w : Who) (ga : Nat) (k : Key) (kind blk : Nat) (wr : Bool) (s : State) : MR (Page ⊕ (Nat × Nat)) :=
  mbind (kvTable w ga k (k.lh + dirOff kind) (dirBytes k.hdr) wr s) fun d s =>
    match d with
    | none => .ok (.inr (4, k.lh)) s
    | some d =>
      mbind (kvTable w ga k (d + 8 * (blk / 512)) 4096 wr s) fun t s =>
        match t with
        | none => .ok (.inr (4, d)) s
        | some t =>
          let la := t + 8 * (blk % 512)
          mbind (kvNum w ga la 8 s) fun leaf s =>
            if leaf.testBit 63 then mbind (stage2 w ga kind la leaf wr s) fun p s => .ok (.inl p) s
            else if !wr then .ok (.inr (5, la)) s
            else
              mbind (kvAlloc w ga (b2n (isRecovery kind)) (newTier k.hdr kind) (blockKind kind) (hdrPcode k.hdr)
                  (pageBytes kind (hdrP k.hdr)) s) fun c s =>
                let leaf := mkLeaf kind (newTier k.hdr kind) s.pkg c.block
                mbind (freshPage w ga kind (hdrP k.hdr) (glob s c.addr) s) fun _ s =>
                  mbind (kvPut w ga la (toBytes 8 leaf) s) fun _ s =>
                    mbind (addPages w ga k 1 s) fun _ s =>
                      .ok (.inl { leafAt := la, leaf := leaf, addr := glob s c.addr }) s

/-- A page that a read needs: NOT_PRESENT where it is absent. -/
def kvNeed (w : Who) (ga : Nat) (k : Key) (kind blk : Nat) (s : State) : MR Page :=
  mbind (kvPage w ga k kind blk false s) fun p s =>
    match p with
    | .inl p => .ok p s
    | .inr (lvl, ea) => .bad (kvFlt ga 1 lvl false (isRemote s ea)) s

/-- A run of bytes that the KV controller reads in pieces inside 256-byte lines. -/
def tableRun (w : Who) (ga : Nat) : Nat → Nat → Nat → State → MR (List Byte)
  | 0, _, _, s => .ok [] s
  | fuel + 1, g, n, s =>
    if n = 0 then .ok [] s
    else
      let m := pieceLen g n
      mbind (kvGet w ga g m 0 s) fun bs s =>
        mbind (tableRun w ga fuel (g + m) (n - m) s) fun r s => .ok (bs ++ r) s

/-- Whether a slot of a page is stale, by its metadata words. Where these are uncorrectable, the leaf's DEGRADED stays as it
is (the model's choice, log 83). -/
def anyStale (w : Who) (ga kind p : Nat) (pg : Page) (s : State) : MR Bool :=
  if kind = 2 then .ok false s
  else match tableRun w ga (pieces (4 * p)) (pg.addr + slotMeta kind p 0) (4 * p) s with
    | .ok bs s => .ok ((List.range p).any (fun t => (bs.getD (4 * t + 3) 0).getLsbD 7)) s
    | .bad f s => if f.cause = cEcc then .ok (pg.leaf.testBit 60) s else .bad f s
    | .wait s => .wait s

/-- A leaf after a write to its page: DIRTY, and DEGRADED while a slot is stale (R118, R132, R143). -/
def touchLeaf (w : Who) (ga kind p : Nat) (pg : Page) (s : State) : MR Unit :=
  mbind (anyStale w ga kind p pg s) fun stale s =>
    let l := (pg.leaf ||| 2 ^ 61) - b2n (pg.leaf.testBit 60) * 2 ^ 60 + b2n stale * 2 ^ 60
    kvPut w ga pg.leafAt (toBytes 8 l) s

/-! ## Stored tokens (R123 to R128) -/

/-- Round m ÷ n to nearest, ties to even. -/
def divRne (m n : Nat) : Nat :=
  let q := m / n
  let r := m % n
  if n < 2 * r ∨ (2 * r = n ∧ q % 2 = 1) then q + 1 else q

/-- A token of KV4H: the scale and 128 codes. -/
structure Kv4 where
  scale : Nat
  codes : List Int
  deriving DecidableEq, Repr

/-- One code of R123: the code, whether it was clamped, whether it is inexact. -/
def kvCode (sm : Nat) (se : Int) (v : Val) : Int × Bool × Bool :=
  match v with
  | .fin neg m e =>
    let num := if se ≤ e then m * 2 ^ (e - se).toNat else m
    let den := if se ≤ e then sm else sm * 2 ^ (se - e).toNat
    let q := divRne num den
    let c := min q 7
    (if neg then -(c : Int) else c, decide (7 < q), decide (c * den ≠ num))
  | _ => (0, false, false)

/-- R123 on 128 FP32 codes. -/
def quantKv4 (y : List Nat) : Kv4 × Fl :=
  let vs := y.map (decodeF fp32)
  if vs.any (fun v => v.isNan || v.isInf) then ({ scale := 0x7E00, codes := List.replicate 128 0 }, flInvalid)
  else
    let top := y.foldl (fun x c => max x (c % 2 ^ 31)) 0
    if top = 0 then ({ scale := 0, codes := List.replicate 128 0 }, 0)
    else
      let r := (roundV fp16 3 false (divV (decodeF fp32 top) (ofInt 7)).1).1
      let sc := min r 0x7BFF
      let (sm, se) := match decodeF fp16 sc with
        | .fin _ m e => (m, e)
        | _ => (1, 0)
      let cs := vs.map (kvCode sm se)
      ({ scale := sc, codes := cs.map (fun c => c.1) },
       flIf (decide (0x7BFF < r) || cs.any (fun c => c.2.1)) flSaturated ||| flIf (cs.any (fun c => c.2.2)) flInexact)

/-- The 64 bytes of 128 codes (R124). -/
def packCodes : List Int → List Byte
  | a :: b :: r => BitVec.ofNat 8 (wrapTo 4 a + 16 * wrapTo 4 b) :: packCodes r
  | _ => []

def unpackCodes (bs : List Byte) : List Int :=
  bs.flatMap (fun b => [signed 4 (b.toNat % 16), signed 4 (b.toNat / 16)])

/-- A codebook as 256 entries of eight values (R127). -/
def cbEntry (cb : List Byte) (c : Nat) : List Val :=
  (List.range 8).map (fun j => decodeF fp16 (ofBytes ((cb.drop (16 * c + 2 * j)).take 2)))

/-- The exact squared distance of two groups as a value; none when an element is not finite. -/
def distV (y c : List Val) : Option Val :=
  let d := List.zipWith (fun a b => (sumV 0 [a, b.neg]).1) y c
  let r := (sumV 0 (d.map (fun x => (mulV x x).1))).1
  if r.isNan || r.isInf then none else some r

/-- The index of the entry at least distance, the lowest of equals (R128); none when no distance is finite. -/
def nearest (cb : List Byte) (y : List Val) : Option Nat :=
  ((List.range 256).foldl (fun (best : Option (Nat × Val)) c =>
    match distV y (cbEntry cb c), best with
    | some d, some (i, b) => if ltV d b then some (c, d) else some (i, b)
    | some d, none => some (c, d)
    | none, b => b) none).map (fun p => p.1)

/-- The sixteen indices of a rotated vector. A group with an element that is not finite has no nearest entry that R128
states: its index is free (log 18). -/
def vqIndices (cb : List Byte) (y : List Nat) (s : State) : List Nat :=
  (List.range 16).map (fun g =>
    match nearest cb (((y.drop (8 * g)).take 8).map (decodeF fp32)) with
    | some c => c
    | none => (Config.freeWord (s.fresh + g)).toNat % 256)

/-- The FP32 codes that a VQ8 token stands for (R131). -/
def vqDecode (cb : List Byte) (ix : List Byte) : List Nat :=
  ix.flatMap (fun i => (cbEntry cb i.toNat).map (fun v => (roundV fp32 0 false v).1))

/-- Write a token's slot of a KV4H page with its metadata word. -/
def putKv4 (w : Who) (ga p : Nat) (pg : Page) (t : Nat) (x : Kv4) (md : Nat) (s : State) : MR Unit :=
  mbind (kvPut w ga (pg.addr + slotData 0 t) (packCodes x.codes) s) fun _ s =>
    mbind (kvPut w ga (pg.addr + slotScale p t) (toBytes 2 x.scale) s) fun _ s =>
      mbind (kvPut w ga (pg.addr + slotMeta 0 p t) (toBytes 4 md) s) fun _ s => touchLeaf w ga 0 p pg s

/-- Write a token's slot of a VQ8 page. -/
def putVq (w : Who) (ga p : Nat) (pg : Page) (t : Nat) (ix : List Nat) (md : Nat) (s : State) : MR Unit :=
  mbind (kvPut w ga (pg.addr + slotData 3 t) (ix.map (BitVec.ofNat 8)) s) fun _ s =>
    mbind (kvPut w ga (pg.addr + slotMeta 3 p t) (toBytes 4 md) s) fun _ s => touchLeaf w ga 3 p pg s

/-! ## Reading a block's bytes -/

/-- A read of a block: a remote one goes through the reading die's lee cache, which the KV controller fills (R43, R141).
`place` 0 stands for WHERE of the target. -/
def blockRead (w : Who) (ga g n place : Nat) (s : State) : MR (List Byte) :=
  let l := globLoc g
  if l.pkg = s.pkg then kvGet w ga g n place s
  else
    match leeReadBy w.master w ga { l with leaf := 4 * 16 + 128 } n s with
    | .bad f s => .bad (if f.cause = cEcc then kvEcc ga (if place = 0 then 6 else place) else f) s
    | r => r

/-- A run of a block's bytes in pieces inside 256-byte lines. -/
def blockRun (w : Who) (ga place : Nat) : Nat → Nat → Nat → State → MR (List Byte)
  | 0, _, _, s => .ok [] s
  | fuel + 1, g, n, s =>
    if n = 0 then .ok [] s
    else
      let m := pieceLen g n
      mbind (blockRead w ga g m place s) fun bs s =>
        mbind (blockRun w ga place fuel (g + m) (n - m) s) fun r s => .ok (bs ++ r) s

def blockBytes (w : Who) (ga g n place : Nat) (s : State) : MR (List Byte) := blockRun w ga place (pieces n) g n s

/-- The codebook of a kind; none when it is absent. -/
def kvCodebook (w : Who) (ga : Nat) (k : Key) (kind : Nat) (s : State) : MR (Option (List Byte)) :=
  mbind (kvNum w ga (k.lh + cbOff kind) 8 s) fun e s =>
    if e.testBit 0 then mbind (blockBytes w ga (ptrAddr e) 4096 0 s) fun bs s => .ok (some bs) s else .ok none s

/-! ## The rebuild of R131 -/

/-- Requantise every token of a recovery page into a new page; its flags are those of R123. The decoded token is not rotated
again: the recovery copy holds the rotated token, and R131's steps name no rotation, though R122 counts the rebuild among
what rotates (the model's choice, log 83). -/
def rebuildSlots (w : Who) (ga p : Nat) (cb : List Byte) (old : List Byte) (pg : Page) : List Nat → State → MR Unit
  | [], s => .ok () s
  | t :: r, s =>
    let md := ofBytes ((old.drop (slotMeta 3 p t)).take 4)
    if md.testBit 30 then rebuildSlots w ga p cb old pg r s
    else
      let x := quantKv4 (vqDecode cb ((old.drop (slotData 3 t)).take 16))
      mbind (putKv4 w ga p pg t x.1 (md ||| 2 ^ 31) s) fun _ s => rebuildSlots w ga p cb old pg r (addFl x.2 s)

/-- The failed block leaves the pool for good and keeps its charge in the new block's place. -/
def retire' (w : Who) (ga : Nat) (pg : Page) (s : State) : MR Unit :=
  if leafPkg pg.leaf = s.pkg then
    let b := leafBlock pg.leaf
    mbind (kvEntryGet w ga b s) fun e s =>
      mbind (kvEntry w ga b (e - s2State e * 2 ^ 62) s) fun _ s =>
        .ok () (setChunk b (fun c => { c with used := false, retired := true }) s)
  else .ok () s

/-- The tier of a page's block: where the block lies on this package, that of the chunk that holds it now. -/
def tierOf (s : State) (pg : Page) : Nat :=
  match findChunk s (fun c => c.block == leafBlock pg.leaf) with
  | some c => if leafPkg pg.leaf = s.pkg then c.tier else bitsOf pg.leaf 57 2
  | none => bitsOf pg.leaf 57 2

/-- The recovery page's bytes and the codebook; none when they cannot be had. -/
def recoveryOf (w : Who) (ga : Nat) (k : Key) (kind blk : Nat) (s : State) : MR (Option (List Byte × List Byte)) :=
  match mbind (kvNeed w ga k (kind + 3) blk s) (fun rp s =>
      mbind (blockBytes w ga rp.addr (pageBytes 3 (hdrP k.hdr)) 7 s) fun old s =>
        mbind (kvCodebook w ga k kind s) fun cb s => .ok (cb.map (fun cb => (old, cb))) s) with
  | .bad _ s => .ok none s
  | r => r

/-- The new page of a rebuild in a chunk, its leaf and the record in the fault log. DIRTY of the leaf stays as it was: R118 has
the writes of KV instructions set it, and R131 does not name it (the model's choice, log 83). -/
def rebuildIn (w : Who) (ga : Nat) (k : Key) (kind : Nat) (pg : Page) (c : Chunk) (old cb : List Byte) (s : State) :
    MR Page :=
  let p := hdrP k.hdr
  let leaf := mkLeaf kind c.tier s.pkg c.block + b2n (pg.leaf.testBit 62) * 2 ^ 62
  let np : Page := { leafAt := pg.leafAt, leaf := leaf, addr := glob s c.addr }
  mbind (takeChunk w ga c 0 (hdrPcode k.hdr) (pageBytes kind p) s) fun _ s =>
    mbind (retire' w ga pg s) fun _ s =>
      mbind (freshPage w ga kind p np.addr s) fun _ s =>
        mbind (rebuildSlots w ga p cb old np (List.range p) s) fun _ s =>
          let leaf := (leaf ||| 2 ^ 60) ||| (pg.leaf &&& 2 ^ 61)
          mbind (kvPut w ga pg.leafAt (toBytes 8 leaf) s) fun _ s =>
            let r : LogRec :=
              { part := w.part, target := (targetOf s (pg.addr % 2 ^ 44)).elim 0xFFFF tgtKey, master := w.master,
                addr := pg.addr, kind := 0, reason := 7 }
            .ok { np with leaf := leaf } { s with faultLog := s.faultLog ++ [r] }

/-- Rebuild a KV4H page from its recovery copy: the new page, or the fault ECC when none can be read. The new block comes
from the pool of the reader's package, wherever the failed one lies (the model's choice, log 83). -/
def rebuild (w : Who) (ga : Nat) (k : Key) (kind blk : Nat) (pg : Page) (s : State) : MR Page :=
  mbind (recoveryOf w ga k kind blk s) fun r s =>
    match r with
    | none => .bad (kvEcc ga 7) s
    | some (old, cb) =>
      match freeChunk s (tierOf s pg) (pageBytes kind (hdrP k.hdr)) with
      | none => .bad (quotaFlt ga 0 1) s
      | some c => rebuildIn w ga k kind pg c old cb s

/-- The scale and codes of slot t of a KV4H page, rebuilt first when its data is uncorrectable. -/
def readKv4 (w : Who) (ga : Nat) (k : Key) (kind blk t : Nat) (s : State) : MR Kv4 :=
  let p := hdrP k.hdr
  let get (pg : Page) (s : State) : MR Kv4 :=
    mbind (blockBytes w ga (pg.addr + slotData 0 t) 64 7 s) fun cs s =>
      mbind (blockBytes w ga (pg.addr + slotScale p t) 2 7 s) fun sc s =>
        .ok { scale := ofBytes sc, codes := unpackCodes cs } s
  mbind (kvNeed w ga k kind blk s) fun pg s =>
    match get pg s with
    | .bad f s =>
      if f.cause = cEcc then mbind (whole w (rebuild w ga k kind blk pg) s) fun np s => get np s else .bad f s
    | r => r

end Sys2Proof.Machine
end

