-- ==== Sys2Proof/Machine/Kv.lean ====
section
/-! DEFINITION. The KV instructions (R114, R128 to R144, R391 to R398, R437) and root firmware's moves of KV blocks. -/

namespace Sys2Proof.Machine

/-! ## Keys in use (R139) -/

/-- Two instructions of a context of which the later waits for the earlier. -/
def keyClash (a b : KeyUse) : Bool :=
  a.root == b.root && (a.cls == 2 || b.cls == 2 || (a.cls == 1 && b.cls == 1)) &&
  (if a.all || b.all then a.key / 2 ^ 14 == b.key / 2 ^ 14 else a.key == b.key)

/-- An instruction waits for those that reached its key before it, in progress or waiting. -/
def keyWaits (s : State) (u : KeyUse) : Bool :=
  (s.keyUses.takeWhile (fun v => !sameUse v u)).any (fun v => keyClash v u)

/-- The instruction is among those that have reached its key. -/
def atKey (s : State) (u : KeyUse) : Bool := s.keyUses.any (sameUse u)

def reachKey (u : KeyUse) (s : State) : State :=
  if atKey s u then s else { s with keyUses := s.keyUses ++ [u] }

/-- Its first walk is made: it stays in progress. -/
def onItsKey (s : State) (u : KeyUse) : Bool := s.keyUses.any (fun v => sameUse u v && v.begun)

/-- NEXTPOS is taken again after a stop (R137). -/
def forgetNext (kept : List Nat) : List Nat := if kept.isEmpty then [] else lset 0 0 kept

/-- A compaction that has made its first move: its key is held until it completes, whatever stops it (R397). -/
def compacting (cls : Nat) (e : QEntry) : Bool := cls == 2 && e.kept.getD 0 0 == 1

/-- An instruction on the key of g(ga), or on every key of its sequence: it waits for its turn under R139, and is in
progress from its first walk until it completes or stops on a fault of its own. A reader that comes to its key anew takes
NEXTPOS anew. -/
def onKey (cls : Nat) (all : Bool) (ga : Reg) (run : Perform) : Perform := fun e s =>
  let u : KeyUse := { hart := s.cur, handler := e.ctx.handler, root := (me s).kvroot.toNat, key := bitsOf (cg e.ctx ga) 26 34,
                      all := all, cls := cls, begun := false }
  let e := if cls = 0 ∧ atKey s u = false then { e with kept := forgetNext e.kept } else e
  let s := reachKey u s
  if keyWaits s u then .block e none s
  else match run e s with
    | .done s => .done (leaveKey u s)
    | .fault e p s => .fault e p (if compacting cls e then s else leaveKey u s)
    | .block e why s => .block e why (if onItsKey s u then s else leaveKey u s)

/-! ## Shared forms -/

/-- The frame fields of a fault at a KV address (R436). -/
def kvStream (e : QEntry) (log ix : Nat) : FaultStream := mkStream 4 log 0 0 (tileSize e.ctx - ix) false

/-- What an instruction has of the registers that an element needs, in `kept`: all, or the reads made before a fault or a
stall. -/
inductive Pre where
  | ok (kept : List Nat) (s : State)
  | bad (f : Flt) (kept : List Nat) (s : State)
  | wait (kept : List Nat) (s : State)

/-- The reads of registers that may be bound: `pre` gives those of an element, `all` are the elements that the instruction reads,
and `left` those from an element's own reads on (R436). -/
structure KvSrc where
  srcs : List Reg
  pre : Nat → Nat → List Nat → State → Pre
  all : List (Nat × Nat)
  left : Nat → Nat → List (Nat × Nat)

/-- No register that may be bound is read. -/
def noSrc : KvSrc := { srcs := [], pre := fun _ _ kept s => .ok kept s, all := [], left := fun _ _ => [] }

/-- The elements of a KV instruction not yet performed, in order: its registers are read, then `act` walks and performs. The
head of `kept` is 1 + the NEXTPOS taken at the first walk (R139). -/
def kvRun (e : QEntry) (src : KvSrc) (log : Nat) (act : Nat → Nat → List Nat → State → MR (List Nat))
    (fin : List Nat → State → LRes) : List (Nat × Nat) → List Nat → State → LRes
  | [], kept, s => fin kept s
  | (k, i) :: rest, kept, s =>
    let ix := sweepIx e.ctx k i
    if ix < e.vstart then kvRun e src log act fin rest kept s
    else match src.pre k i kept s with
      | .bad f kept s =>
        stopAt { e with kept := forgetNext kept } ix f (bindStream s src.srcs e.ctx src.all (src.left k i) f) s
      | .wait kept s => .block { e with vstart := ix, kept := kept } (bindHang e src.srcs ix s) s
      | .ok kept s =>
        match act k i kept s with
        | .ok kept s => kvRun e src log act fin rest kept s
        | .bad f s => stopAt { e with kept := forgetNext kept } ix f (kvStream e log ix) s
        | .wait s => .block { e with vstart := ix, kept := kept } none s

/-- The element loop of a KV instruction, as far as the binding in progress goes. -/
def kvLoop (e : QEntry) (src : KvSrc) (log : Nat) (act : Nat → Nat → List Nat → State → MR (List Nat))
    (l : List (Nat × Nat)) (s : State) : LRes :=
  let d := due e.ctx e.vstart l
  kvRun e src log act (fun kept s => endBind { e with kept := kept } d.2 (fun s => .done (consume src.srcs s)) s) d.1 e.kept s

/-- The walk to a key for the position of an element (R121, R437): the key, and what is kept with NEXTPOS in it. A
position at or beyond NEXTPOS raises BEYOND. -/
def kvAt (w : Who) (ga off : Nat) (wr : Bool) (kept : List Nat) (s : State) : MR (Key × List Nat) :=
  let pos := kaPos ga + off
  if posLimit ≤ pos then .bad (kvFlt ga 5 0 wr false) s
  else
    let a := kaAt ga pos
    mbind (kvHead w a wr s) fun k s =>
      mbind (if kept.getD 0 0 = 0 then mbind (nextPos w a k s) (fun n s => .ok (lset (n + 1) 0 kept) s) else .ok kept s)
        fun kept s =>
          if kept.getD 0 0 ≤ pos + 1 then .bad (kvFlt a 4 3 wr (isRemote s k.lh)) s
          else .ok (k, kept) s

/-- An instruction on a key performed once (R391, R397, R398): a fault stops it at element 0. -/
def kvOnce (e : QEntry) (m : MR Unit) : LRes :=
  match m with
  | .ok _ s => .done s
  | .bad f s => stopAt e 0 f (kvStream e 0 0) s
  | .wait s => .block e none s

/-- Reads of places in registers, up to where they stop. -/
inductive PlaceReads where
  | ok (xs : List (Nat × Fl)) (s : State)
  | bad (f : Flt) (xs : List (Nat × Fl)) (s : State)
  | wait (xs : List (Nat × Fl)) (s : State)

/-- Places of registers (register, row, element) are read in order; `acc` holds those read, last first. -/
def readPlaces (get : Reg → Nat → Nat → State → MR (Nat × Fl)) : List (Reg × Nat × Nat) → List (Nat × Fl) → State → PlaceReads
  | [], acc, s => .ok acc.reverse s
  | (v, k, i) :: r, acc, s =>
    match get v k i s with
    | .ok x s => readPlaces get r (x :: acc) s
    | .bad f s => .bad f acc.reverse s
    | .wait s => .wait acc.reverse s

/-! ## KVAPP (R134, R392) -/

/-- An element of a token as an FP32 code; a masked-off one is +0. -/
def appElem (e : QEntry) (fmt : BitVec 2) (mask : MaskSel) (v : Reg) (k i : Nat) (s : State) : MR (Nat × Fl) :=
  if !active (me s) mask k i then .ok (0, 0) s
  else mbind (srcElem e.ctx v (.flt fmt.toNat 0 false) k i s) fun x s =>
    .ok ((roundV fp32 0 false (decodeF (f012 fmt) x.1)).1, x.2) s

/-- A token's recovery slot, where one is kept (R128). -/
def appRecovery (w : Who) (a : Nat) (k : Key) (kind np : Nat) (y : List Nat) (s : State) : MR Unit :=
  if hdrRtier k.hdr = 0 then .ok () s
  else
    mbind (kvCodebook w a k kind s) fun cb s =>
      match cb with
      | none => .ok () s
      | some cb =>
        let p := hdrP k.hdr
        mbind (kvPage w a k (kind + 3) (np / p) true s) fun pg s =>
          match pg with
          | .inl pg => putVq w a p pg (np % p) (vqIndices cb y s) np { s with fresh := s.fresh + 16 }
          | .inr _ => .ok () s

/-- The slot of a rotated vector at position `np`. -/
def appVector (w : Who) (a : Nat) (k : Key) (kind np : Nat) (y : List Nat) (s : State) : MR Unit :=
  let p := hdrP k.hdr
  mbind (kvPage w a k kind (np / p) true s) fun pg s =>
    match pg with
    | .inl pg =>
      let x := quantKv4 y
      mbind (putKv4 w a p pg (np % p) x.1 np s) fun _ s => .ok () (addFl x.2 s)
    | .inr _ => .ok () s

/-- One token appended at NEXTPOS, whole or not at all. The address of a fault keeps KIND 0 of the instruction's address
with NEXTPOS, on value and recovery pages too (the model's choice, log 83). -/
def appendToken (w : Who) (ga : Nat) (y z : List Nat) : State → MR Unit :=
  whole w fun s =>
    mbind (kvHead w ga true s) fun k s =>
      mbind (nextPos w ga k s) fun np s =>
        let a := kaAt ga np
        if posLimit - 1 ≤ np then .bad (kvFlt a 6 3 true (isRemote s k.lh)) s
        else
          mbind (appVector w a k 0 np y s) fun _ s =>
            mbind (appVector w a k 1 np z s) fun _ s =>
              mbind (appRecovery w a k 0 np y s) fun _ s =>
                mbind (appRecovery w a k 1 np z s) fun _ s => kvPut w a (k.lh + 0x38) (toBytes 4 (np + 1)) s

/-- The places of a token: keys, then values. -/
def tokenPlaces (vb vc : Reg) (k i0 : Nat) : List (Reg × Nat × Nat) :=
  (List.range 128).map (fun i => (vb, k, i0 + i)) ++ (List.range 128).map (fun i => (vc, k, i0 + i))

/-- The elements of tokens. -/
def tokenElems (l : List (Nat × Nat)) : List (Nat × Nat) := l.flatMap (fun p => (List.range 128).map (fun i => (p.1, p.2 + i)))

/-- The tokens of a sweep: row and first element. -/
def tokensOf (c : LCtx) : List (Nat × Nat) :=
  (List.range c.rc).flatMap (fun k => (List.range (c.vl / 128)).map (fun j => (k, 128 * j)))

/-- Tokens not yet appended, in order; `all` are those of the sweep. -/
def appTokens (e : QEntry) (fmt : BitVec 2) (ga vb vc : Reg) (mask : MaskSel) (all : List (Nat × Nat)) (fin : State → LRes) :
    List (Nat × Nat) → List Nat → State → LRes
  | [], _, s => fin s
  | (k, i0) :: rest, kept, s =>
    let ix := sweepIx e.ctx k i0
    if ix < e.vstart then appTokens e fmt ga vb vc mask all fin rest kept s
    else if !(List.range 128).any (fun i => active (me s) mask k (i0 + i)) then
      appTokens e fmt ga vb vc mask all fin rest [] s
    else
      let old := unpackReads kept
      match readPlaces (appElem e fmt mask) ((tokenPlaces vb vc k i0).drop old.length) old.reverse s with
      | .bad f xs s =>
        stopAt { e with kept := packReads xs } ix f
          (bindStream s [vb, vc] e.ctx (tokenElems all) (tokenElems (fromIx e.ctx ix all)) f) s
      | .wait xs s => .block { e with vstart := ix, kept := packReads xs } (bindHang e [vb, vc] ix s) s
      | .ok xs s =>
        let ys := xs.map (fun p => p.1)
        match appendToken (kvWho e.ctx s) (cg e.ctx ga) (rotate128 (ys.take 128)).1 (rotate128 (ys.drop 128)).1 s with
        | .ok _ s => appTokens e fmt ga vb vc mask all fin rest [] (addFl (xs.foldl (fun f p => f ||| p.2) 0) s)
        | .bad f s => stopAt { e with kept := packReads xs } ix f (kvStream e (if fmt = 0 then 2 else 1) ix) s
        | .wait s => .block { e with vstart := ix, kept := packReads xs } none s

def perfKvapp (fmt : BitVec 2) (ga vb vc : Reg) (mask : MaskSel) : Perform := onKey 1 false ga fun e s =>
  let l := tokensOf e.ctx
  let d := due e.ctx e.vstart l
  appTokens e fmt ga vb vc mask l (endBind { e with kept := [] } d.2 (fun s => .done (consume [vb, vc] s))) d.1 e.kept s

/-! ## KVLD (R393) -/

/-- Keep the token at a position: its number, scale and codes. -/
def keepToken (kept : List Nat) (t : Nat) (x : Kv4) : List Nat :=
  kept.getD 0 0 :: (t + 1) :: x.scale :: x.codes.map (wrapTo 4)

def perfKvld (fmt rnd : BitVec 2) (sat : Bool) (vd ga : Reg) (mask : MaskSel) (row : Option (BitVec 3)) : Perform :=
  onKey 0 false ga fun e s =>
  let c := e.ctx
  let a := cg c ga
  let put (k i : Nat) (x : Nat × Fl) (s : State) : State := addFl x.2 (setVElem vd.toNat k i (f012Bits fmt) x.1 s)
  kvLoop e noSrc (if fmt = 0 then 2 else 1) (fun k i kept s =>
      let w := kvWho c s
      let ix := sweepIx c k i
      let kept := if kept.isEmpty then [0] else kept
      if !active (me s) mask k i then .ok kept s
      else if kaKind a = 2 then
        mbind (kvAt w a ix false kept s) fun x s =>
          let pos := kaPos a + ix
          let p := hdrP x.1.hdr
          mbind (kvPage w (kaAt a pos) x.1 2 (pos / p) false s) fun pg s =>
            match pg with
            | .inr _ => .ok x.2 (put k i (0, 0) s)
            | .inl pg =>
              mbind (blockBytes w (kaAt a pos) (pg.addr + 4 * (pos % p)) 4 8 s) fun bs s =>
                .ok x.2 (put k i (convertV (f012 fmt) rnd.toNat sat (decodeF fp32 (ofBytes bs))) s)
      else
        let t := ix / 128
        let pos := kaPos a + t
        let token : MR (List Nat) :=
          if kept.getD 1 0 = t + 1 then .ok kept s
          else
            mbind (kvAt w a t false [kept.getD 0 0] s) fun x s =>
              mbind (readKv4 w (kaAt a pos) x.1 (kaKind a) (pos / hdrP x.1.hdr) (pos % hdrP x.1.hdr) s) fun y s =>
                .ok (keepToken x.2 t y) s
        mbind token fun kept s =>
          let code := signed 4 (kept.getD (3 + ix % 128) 0)
          let v := mulV (ofInt code) (decodeF fp16 (kept.getD 2 0))
          .ok kept (put k i (finishF (f012 fmt) rnd.toNat sat v) s))
    (tileOf c (rowsOf c row)) s

/-! ## KVSCORE (R126, R394) -/

/-- Places that several elements share are read once, under a tag: `kept` holds 1 + NEXTPOS, the tag, the flags of the reads,
and the codes read. The flags are raised with each result that the reads go into (R288). -/
def sharedReads (get : Reg → Nat → Nat → State → MR (Nat × Fl)) (act : Bool) (tag : Nat) (places : List (Reg × Nat × Nat))
    (kept : List Nat) (s : State) : Pre :=
  let same := kept.getD 1 0 == tag
  if !act || (same && decide (places.length + 3 ≤ kept.length)) then .ok (if kept.isEmpty then [0, 0, 0] else kept) s
  else
    let old := if same then kept.drop 3 else []
    let fl := if same then BitVec.ofNat 7 (kept.getD 2 0) else 0
    let keep (xs : List (Nat × Fl)) : List Nat :=
      kept.getD 0 0 :: tag :: (xs.foldl (fun f p => f ||| p.2) fl).toNat :: xs.map (fun p => p.1)
    match readPlaces get (places.drop old.length) (old.map (fun x => (x, 0))).reverse s with
    | .ok xs s => .ok (keep xs) s
    | .bad f xs s => .bad f (keep xs) s
    | .wait xs s => .wait (keep xs) s

/-- The flags of the reads that are kept. -/
def readsFl (kept : List Nat) : Fl := BitVec.ofNat 7 (kept.getD 2 0)

/-- The query of an element's row: elements 0 to 127, read once a row. -/
def querySrc (e : QEntry) (vb : Reg) (fmt : BitVec 2) (mask : MaskSel) (rows : List Nat) : KvSrc :=
  let row (k : Nat) : List (Nat × Nat) := (List.range 128).map (fun i => (k, i))
  { srcs := [vb],
    pre := fun k i kept s =>
      sharedReads (fun v k i s => srcElem e.ctx v (.flt fmt.toNat 0 false) k i s) (active (me s) mask k i) (k + 1)
        ((row k).map (fun p => (vb, p))) kept s,
    all := rows.flatMap row,
    left := fun k _ => (rows.filter (fun j => decide (k ≤ j))).flatMap row }

/-- The score of a query against a stored token (R126). -/
def kvScore (q : List Val) (x : Kv4) : Nat × Fl :=
  let p := List.zipWith (fun a c => mulV a (ofInt c)) q x.codes
  let t := sumV 0 (p.map (fun y => y.1))
  let sc := decodeF fp16 x.scale
  let r := mulV t.1 sc
  let r := if sc.isZero ∧ !t.1.isNan ∧ !t.1.isInf then (Val.zero false, r.2) else r
  finishF fp32 0 false (r.1, p.foldl (fun f y => f ||| y.2) (t.2 ||| r.2 ||| q.foldl (fun f y => f ||| sigFl y) 0))

def perfKvscore (fmt : BitVec 2) (vd ga vb : Reg) (mask : MaskSel) (row : Option (BitVec 3)) : Perform :=
    onKey 0 false ga fun e s =>
  let c := e.ctx
  let a := cg c ga
  kvLoop e (querySrc e vb fmt mask (rowsOf c row)) 2 (fun k i kept s =>
      let w := kvWho c s
      if !active (me s) mask k i then .ok kept s
      else
        mbind (kvAt w a i false kept s) fun x s =>
          let pos := kaPos a + i
          let p := hdrP x.1.hdr
          mbind (readKv4 w (kaAt a pos) x.1 0 (pos / p) (pos % p) s) fun y s =>
            let r := kvScore ((x.2.drop 3).map (decodeF (f012 fmt))) y
            .ok x.2 (addFl (readsFl x.2 ||| r.2) (setVElem vd.toNat k i 32 r.1 s)))
    (tileOf c (rowsOf c row)) s

/-! ## KVVQS (R129, R395) -/

/-- Step 2 of R129: the pairwise tree over the sixteen groups. -/
def vqSum (t : Nat → Nat → Nat) (ix : List Byte) : Nat × Fl :=
  let xs := (List.range 16).map (fun g => some (t g (ix.getD g 0).toNat))
  match redTree add32 8 xs with
  | (some x, fl) => (x, fl)
  | (none, fl) => (0, fl)

/-- The indices of the recovery copy's token at an element's position. -/
def vqToken (w : Who) (a i : Nat) (kept : List Nat) (s : State) : MR (Key × List Nat × List Byte) :=
  mbind (kvAt w a i false kept s) fun x s =>
    let pos := kaPos a + i
    let p := hdrP x.1.hdr
    mbind (kvNeed w (kaAt a pos) x.1 3 (pos / p) s) fun pg s =>
      mbind (blockBytes w (kaAt a pos) (pg.addr + slotData 3 (pos % p)) 16 8 s) fun ix s => .ok (x.1, x.2, ix) s

/-- The tables of func 0: rows 0 to 7, elements 0 to 255 of each register, read in full, once. -/
def lutSrc (e : QEntry) (mask : MaskSel) (vb vc : Reg) : KvSrc :=
  let table : List (Nat × Nat) := (List.range 8).flatMap (fun r => (List.range 256).map (fun j => (r, j)))
  { srcs := [vb, vc],
    pre := fun k i kept s =>
      sharedReads (fun v k i s => srcElem e.ctx v (.flt 0 0 false) k i s) (active (me s) mask k i) 1
        (table.map (fun p => (vb, p)) ++ table.map (fun p => (vc, p))) kept s,
    all := table, left := fun _ _ => table }

def perfKvvqsLut (vd ga vb vc : Reg) (mask : MaskSel) (row : Option (BitVec 3)) : Perform := onKey 0 false ga fun e s =>
  let c := e.ctx
  kvLoop e (lutSrc e mask vb vc) 2 (fun k i kept s =>
      if !active (me s) mask k i then .ok kept s
      else
        mbind (vqToken (kvWho c s) (cg c ga) i kept s) fun x s =>
          let r := vqSum (fun g j => x.2.1.getD (3 + 256 * g + j) 0) x.2.2
          .ok x.2.1 (addFl (readsFl x.2.1 ||| r.2) (setVElem vd.toNat k i 32 r.1 s)))
    (tileOf c (rowsOf c row)) s

/-- Step 1 of R129 for sixteen groups. -/
def vqTables (q : List Val) (cb : List Byte) : List Nat × Fl :=
  let ts := (List.range 16).flatMap (fun g =>
    (List.range 256).map (fun j => lutSum 0 ((q.drop (8 * g)).take 8) ((cb.drop (16 * j)).take 16)))
  (ts.map (fun x => x.1), ts.foldl (fun f x => f ||| x.2) 0)

/-- Func 1 keeps, behind the query, the row's tables once they are formed, and their flags with those of the query. -/
def perfKvvqsQ (qf : BitVec 2) (vd ga vb : Reg) (mask : MaskSel) (row : Option (BitVec 3)) : Perform :=
    onKey 0 false ga fun e s =>
  let c := e.ctx
  let a := cg c ga
  kvLoop e (querySrc e vb qf mask (rowsOf c row)) 2 (fun k i kept s =>
      let w := kvWho c s
      if !active (me s) mask k i then .ok kept s
      else
        let tables : MR (List Nat) :=
          if 131 < kept.length then .ok kept s
          else
            mbind (kvAt w a i false kept s) fun x s =>
              mbind (kvCodebook w (kaAt a (kaPos a + i)) x.1 0 s) fun cb s =>
                match cb with
                | none => .bad (kvFlt (kaAt a (kaPos a + i)) 1 3 false (isRemote s x.1.lh)) s
                | some cb =>
                  let t := vqTables ((x.2.drop 3).map (decodeF (f012 qf))) cb
                  .ok (lset (readsFl x.2 ||| t.2).toNat 2 x.2 ++ t.1) s
        mbind tables fun kept s =>
          mbind (vqToken w a i kept s) fun x s =>
            let r := vqSum (fun g j => x.2.1.getD (131 + 256 * g + j) 0) x.2.2
            .ok x.2.1 (addFl (readsFl x.2.1 ||| r.2) (setVElem vd.toNat k i 32 r.1 s)))
    (tileOf c (rowsOf c row)) s

/-! ## KVACC (R130, R396) -/

/-- One FP32 read-modify-write of a score, by the memory-side atomic units of its package. -/
def accScore (w : Who) (ga p t y : Nat) (pg : Page) (s : State) : MR Unit :=
  let l := globLoc (pg.addr + 4 * t)
  let sum (s : State) : Nat × Fl := add32 (ofBytes (memBytes s l.global 4)) y
  mbind (kvReach w ga l .atomic 4 (toBytes 4 (sum s).1) s) fun _ s =>
    match firstPoison s l.global 4 with
    | some _ => .bad (kvEcc ga 8) s
    | none =>
      let r := sum s
      let s := if l.pkg = s.pkg then s else dropLine w l s
      mbind (touchLeaf w ga 2 p pg (setMem l.global (toBytes 4 r.1) s)) fun _ s => .ok () (addFl r.2 s)

/-- The element that KVACC adds. -/
def accSrc (e : QEntry) (vb : Reg) (mask : MaskSel) (l : List (Nat × Nat)) : KvSrc :=
  { srcs := [vb],
    pre := fun k i kept s =>
      if active (me s) mask k i then
        match srcElem e.ctx vb (.flt 0 0 false) k i s with
        | .ok x s => .ok [kept.getD 0 0, x.1, x.2.toNat] s
        | .bad f s => .bad f kept s
        | .wait s => .wait kept s
      else .ok (if kept.isEmpty then [0] else kept) s,
    all := l, left := fun k i => fromIx e.ctx (sweepIx e.ctx k i) l }

def perfKvacc (ga vb : Reg) (mask : MaskSel) (row : Option (BitVec 3)) : Perform := onKey 0 false ga fun e s =>
  let c := e.ctx
  let a := cg c ga
  kvLoop e (accSrc e vb mask (tileOf c (rowsOf c row))) 2
    (fun k i kept s =>
      if !active (me s) mask k i then .ok kept s
      else
        let w := kvWho c s
        let pos := kaPos a + i
        whole w (fun s =>
          mbind (kvAt w a i true kept s) fun x s =>
            let p := hdrP x.1.hdr
            mbind (kvPage w (kaAt a pos) x.1 2 (pos / p) true s) fun pg s =>
              match pg with
              | .inr _ => .ok x.2 s
              | .inl pg =>
                mbind (accScore w (kaAt a pos) p (pos % p) (x.2.getD 1 0) pg s) fun _ s =>
                  .ok [x.2.getD 0 0] (addFl (BitVec.ofNat 7 (x.2.getD 2 0)) s)) s)
    (tileOf c (rowsOf c row)) s

/-! ## The pages and tables of a key -/

/-- The 8-byte entries of a table. -/
def tableEntries (w : Who) (ga g n : Nat) (s : State) : MR (List Nat) :=
  mbind (tableRun w ga (pieces (8 * n)) g (8 * n) s) fun bs s =>
    .ok ((List.range n).map (fun i => ofBytes ((bs.drop (8 * i)).take 8))) s

/-- The valid entries of a list of pointers with their indices. -/
def validPtrs (es : List Nat) : List (Nat × Nat) :=
  ((List.range es.length).zip es).filter (fun p => p.2.testBit 0)

/-- Leaf tables of a kind: number and address; the second part says whether the kind has a directory. -/
def leafTables (w : Who) (ga : Nat) (k : Key) (kind : Nat) (s : State) : MR (Option Nat × List (Nat × Nat)) :=
  mbind (kvNum w ga (k.lh + dirOff kind) 8 s) fun e s =>
    if e.testBit 0 then
      mbind (tableEntries w ga (ptrAddr e) (dirBytes k.hdr / 8) s) fun es s =>
        .ok (some (ptrAddr e), (validPtrs es).map (fun p => (p.1, ptrAddr p.2))) s
    else .ok (none, []) s

/-- A page of a key with its kind and number. -/
structure KPage where
  kind : Nat
  blk : Nat
  pg : Page
  deriving DecidableEq, Repr

/-- The present leaves of one leaf table, whose blocks are not looked up yet. -/
def leavesIn (kind t base : Nat) (es : List Nat) : List KPage :=
  (((List.range es.length).zip es).filter (fun p => p.2.testBit 63)).map (fun p =>
    { kind := kind, blk := base + p.1, pg := { leafAt := t + 8 * p.1, leaf := p.2, addr := 0 } })

def leavesOf (w : Who) (ga kind : Nat) : List (Nat × Nat) → State → MR (List KPage)
  | [], s => .ok [] s
  | (i, t) :: r, s =>
    mbind (tableEntries w ga t 512 s) fun es s =>
      mbind (leavesOf w ga kind r s) fun b s => .ok (leavesIn kind t (512 * i) es ++ b) s

/-- The leaves of every present page of a key, all kinds and recovery copies. -/
def keyLeaves (w : Who) (ga : Nat) (k : Key) : List Nat → State → MR (List KPage)
  | [], s => .ok [] s
  | kind :: r, s =>
    mbind (leafTables w ga k kind s) fun d s =>
      mbind (leavesOf w ga kind d.2 s) fun a s => mbind (keyLeaves w ga k r s) fun b s => .ok (a ++ b) s

/-- Leaves walked on to their blocks, as writes. -/
def walkLeaves (w : Who) (ga : Nat) : List KPage → State → MR (List KPage)
  | [], s => .ok [] s
  | x :: r, s =>
    mbind (stage2 w ga x.kind x.pg.leafAt x.pg.leaf true s) fun pg s =>
      mbind (walkLeaves w ga r s) fun ps s => .ok ({ x with pg := pg } :: ps) s

/-- Free pages (R142). -/
def freePages (w : Who) (ga : Nat) (k : Key) : List KPage → State → MR Unit
  | [], s => .ok () s
  | x :: r, s =>
    mbind (kvPut w ga x.pg.leafAt (toBytes 8 (x.pg.leaf % 2 ^ 63)) s) fun _ s =>
      mbind (if leafPkg x.pg.leaf = s.pkg then freeBlock w ga (leafBlock x.pg.leaf) s else .ok () s) fun _ s =>
        mbind (addPages w ga k (-1) s) fun _ s => freePages w ga k r s

/-- Free a table that a pointer names, and invalidate the pointer. -/
def dropTable (w : Who) (ga : Nat) (k : Key) (ea t : Nat) (s : State) : MR Unit :=
  mbind (freeTable w ga t s) fun _ s =>
    mbind (kvPut w ga ea (toBytes 8 0) s) fun _ s => addPages w ga k (-1) s

def dropLeafTables (w : Who) (ga : Nat) (k : Key) (dir : Nat) : List (Nat × Nat) → State → MR Bool
  | [], s => .ok true s
  | (i, t) :: r, s =>
    mbind (tableEntries w ga t 512 s) fun es s =>
      let free := es.all (fun e => !e.testBit 63)
      mbind (if free then dropTable w ga k (dir + 8 * i) t s else .ok () s) fun _ s =>
        mbind (dropLeafTables w ga k dir r s) fun rest s => .ok (free && rest) s

/-- Directories and leaf tables left with no valid entry are freed (R142). -/
def dropTables (w : Who) (ga : Nat) (k : Key) : List Nat → State → MR Unit
  | [], s => .ok () s
  | kind :: r, s =>
    mbind (leafTables w ga k kind s) fun d s =>
      mbind (match d.1 with
        | none => .ok () s
        | some dir =>
          mbind (dropLeafTables w ga k dir d.2 s) fun free s =>
            if free then dropTable w ga k (k.lh + dirOff kind) dir s else .ok () s) fun _ s => dropTables w ga k r s

/-! ## KVFREE (R142, R398) -/

/-- The pages of a key that lie whole in positions `lo` to `hi` and are not pinned are freed, then tables left empty. Only
those pages are walked. -/
def freeRange (w : Who) (a hi : Nat) (s : State) : MR Unit :=
  mbind (kvHead w a true s) fun k s =>
    mbind (keyLeaves w a k kvKinds s) fun ls s =>
      let p := hdrP k.hdr
      let inside := ls.filter (fun x => decide (kaPos a ≤ x.blk * p ∧ (x.blk + 1) * p ≤ hi) && !x.pg.leaf.testBit 62)
      if inside.isEmpty then .ok () s
      else
        mbind (walkLeaves w a inside s) fun ps s =>
          mbind (freePages w a k ps s) fun _ s => dropTables w a k kvKinds s

def perfKvfree (ga gb : Reg) : Perform := onKey 2 false ga fun e s =>
  let a := cg e.ctx ga
  let hi := min (cg e.ctx gb) posLimit
  let w := kvWho e.ctx s
  if hi ≤ kaPos a then .done s else kvOnce e (whole w (freeRange w a hi) s)

/-! ## KVCOMP (R143, R144, R397) -/

def pageAt (ps : List KPage) (kind blk : Nat) : Option Page :=
  (ps.find? (fun x => x.kind == kind && x.blk == blk)).map (fun x => x.pg)

/-- Leading pages of the key that are pinned, from page `q` on; `fuel` bounds their number. -/
def pinnedPrefix (ps : List KPage) : Nat → Nat → Nat
  | 0, q => q
  | n + 1, q =>
    match pageAt ps 0 q with
    | some pg => if pg.leaf.testBit 62 then pinnedPrefix ps n (q + 1) else q
    | none => q

/-- A clear slot (R125). -/
def clearSlot (w : Who) (ga kind p t : Nat) (pg : Page) (s : State) : MR Unit :=
  mbind (kvPut w ga (pg.addr + slotData kind t) (List.replicate (slotLen kind) 0) s) fun _ s =>
    mbind (if kind < 2 then kvPut w ga (pg.addr + slotScale p t) (toBytes 2 0) s else .ok () s) fun _ s =>
      if kind = 2 then .ok () s else kvPut w ga (pg.addr + slotMeta kind p t) (toBytes 4 0x40000000) s

/-- The data, scale and metadata word of a slot. -/
structure Slot where
  data : List Byte
  scale : List Byte
  word : List Byte
  deriving DecidableEq, Repr

/-- A slot is read; a remote one through the lee cache (R141). -/
def readSlot (w : Who) (ga kind p : Nat) (pg : Page) (t : Nat) (s : State) : MR Slot :=
  let place := if kind < 2 then 7 else 8
  mbind (blockBytes w ga (pg.addr + slotData kind t) (slotLen kind) place s) fun d s =>
    mbind (if kind < 2 then blockBytes w ga (pg.addr + slotScale p t) 2 place s else .ok [] s) fun c s =>
      mbind (if kind = 2 then .ok [] s else blockBytes w ga (pg.addr + slotMeta kind p t) 4 place s) fun m s =>
        .ok { data := d, scale := c, word := m } s

def writeSlot (w : Who) (ga kind p : Nat) (pg : Page) (t : Nat) (x : Slot) (s : State) : MR Unit :=
  mbind (kvPutN w ga (pg.addr + slotData kind t) x.data s) fun _ s =>
    mbind (if kind < 2 then kvPut w ga (pg.addr + slotScale p t) x.scale s else .ok () s) fun _ s =>
      if kind = 2 then .ok () s else kvPut w ga (pg.addr + slotMeta kind p t) x.word s

/-- What is moved of a slot that cannot be read: a scale that is a NaN (R144), with what its bytes hold. -/
def sickSlot (s : State) (kind p : Nat) (pg : Page) (t : Nat) : Slot :=
  { data := memBytes s (pg.addr + slotData kind t) (slotLen kind), scale := toBytes 2 0x7E00,
    word := memBytes s (pg.addr + slotMeta kind p t) 4 }

/-- The slot of a KV4H page as a move takes it: rebuilt first where that is possible (R144). The result says which page it
came from, and whether it is lost. -/
def takeSlot (w : Who) (ga : Nat) (k : Key) (kind blk t : Nat) (pg : Page) (s : State) : MR (Slot × Page × Bool) :=
  let p := hdrP k.hdr
  match readSlot w ga kind p pg t s with
  | .ok x s => .ok (x, pg, false) s
  | .wait s => .wait s
  | .bad f s =>
    if f.cause ≠ cEcc ∨ 2 ≤ kind then .bad f s
    else match whole w (rebuild w ga k kind blk pg) s with
      | .ok np s => mbind (readSlot w ga kind p np t s) fun x s => .ok (x, np, false) s
      | .wait s => .wait s
      | .bad _ s => .ok (sickSlot s kind p pg t, pg, true) s

/-- Destination pages that moves need (R143): kept positions with their new ones. -/
def compAlloc (w : Who) (ga : Nat) (k : Key) : List (Nat × Nat × Nat) → List KPage → State → MR (List KPage)
  | [], ps, s => .ok ps s
  | (kind, p, j) :: r, ps, s =>
    let n := hdrP k.hdr
    match pageAt ps kind (p / n), pageAt ps kind (j / n) with
    | some _, none =>
      mbind (kvPage w (kaAt ga j) k kind (j / n) true s) fun x s =>
        match x with
        | .inl pg => compAlloc w ga k r (ps ++ [{ kind := kind, blk := j / n, pg := pg }]) s
        | .inr _ => compAlloc w ga k r ps s
    | _, _ => compAlloc w ga k r ps s

/-- The page of a kind at a block number as the tables name it now, for a write. -/
def pageNow (w : Who) (ga : Nat) (k : Key) (kind blk : Nat) (s : State) : MR (Option Page) :=
  mbind (kvTable w ga k (k.lh + dirOff kind) (dirBytes k.hdr) false s) fun d s =>
    match d with
    | none => .ok none s
    | some d =>
      mbind (kvTable w ga k (d + 8 * (blk / 512)) 4096 false s) fun t s =>
        match t with
        | none => .ok none s
        | some t =>
          mbind (kvNum w ga (t + 8 * (blk % 512)) 8 s) fun leaf s =>
            if leaf.testBit 63 then
              mbind (stage2 w ga kind (t + 8 * (blk % 512)) leaf true s) fun pg s => .ok (some pg) s
            else .ok none s

/-- A compaction in progress, as its frame keeps it (R397): the pinned prefix in pages, 1 + the first new position whose data was
lost (0 for none), the next of its moves, clearings and frees, and the positions that it keeps. -/
structure Comp where
  q : Nat
  lost : Nat
  pos : Nat
  kept : List Nat
  deriving DecidableEq, Repr

/-- `kept` of a KVCOMP in progress begins with 1. -/
def Comp.pack (c : Comp) : List Nat := 1 :: c.q :: c.lost :: c.pos :: c.kept

def Comp.unpack (l : List Nat) : Comp := { q := l.getD 1 0, lost := l.getD 2 0, pos := l.getD 3 0, kept := l.drop 4 }

/-- The new NEXTPOS, for pages of `p` positions. -/
def Comp.count (c : Comp) (p : Nat) : Nat := c.q * p + c.kept.length

/-- Slot p is moved to slot j in one kind, or slot j is cleared (R143); the result says whether the token's data is lost. -/
def moveSlot (w : Who) (ga : Nat) (k : Key) (kind p j : Nat) (s : State) : MR Bool :=
  let n := hdrP k.hdr
  mbind (pageNow w (kaAt ga p) k kind (p / n) s) fun src s =>
    match src with
    | some src =>
      mbind (takeSlot w (kaAt ga p) k kind (p / n) (p % n) src s) fun x s =>
        mbind (pageNow w (kaAt ga p) k kind (j / n) s) fun dst s =>
          match dst with
          | some dst => mbind (writeSlot w (kaAt ga p) kind n dst (j % n) x.1 s) fun _ s => .ok x.2.2 s
          | none => .ok false s
    | none =>
      mbind (pageNow w (kaAt ga p) k kind (j / n) s) fun dst s =>
        match dst with
        | some dst => mbind (clearSlot w ga kind n (j % n) dst s) fun _ s => .ok false s
        | none => .ok false s

def touchPages (w : Who) (ga p : Nat) : List KPage → State → MR Unit
  | [], s => .ok () s
  | x :: r, s => mbind (touchLeaf w ga x.kind p x.pg s) fun _ s => touchPages w ga p r s

/-- The end of a compaction: empty tables are freed, the remaining leaves are touched, and NEXTPOS is written last. -/
def compEnd (w : Who) (ga : Nat) (k : Key) (j : Nat) (s : State) : MR Unit :=
  mbind (dropTables w ga k kvKinds s) fun _ s =>
    mbind (keyLeaves w ga k kvKinds s) fun ls s =>
      mbind (walkLeaves w ga ls s) fun ps s =>
        mbind (touchPages w ga (hdrP k.hdr) ps s) fun _ s => kvPut w ga (k.lh + 0x38) (toBytes 4 j) s

/-- One move, one clearing or one free of R143, whole or not at all: the compaction after it, none when it has ended. -/
def compStep (w : Who) (ga : Nat) (k : Key) (c : Comp) : State → MR (Option Comp) :=
  whole w fun s =>
    let p := hdrP k.hdr
    let j := c.count p
    let last := (j + p - 1) / p
    let moves := 5 * c.kept.length
    let next : Comp := { c with pos := c.pos + 1 }
    if c.pos < moves then
      let dest := c.q * p + c.pos / 5
      mbind (moveSlot w ga k (c.pos % 5) (c.kept.getD (c.pos / 5) 0) dest s) fun gone s =>
        .ok (some (if gone && c.lost == 0 then { next with lost := dest + 1 } else next)) s
    else if c.pos < moves + 5 * (last * p - j) then
      let x := j + (c.pos - moves) / 5
      let kind := (c.pos - moves) % 5
      mbind (pageNow w ga k kind (x / p) s) fun pg s =>
        match pg with
        | some pg => mbind (clearSlot w ga kind p (x % p) pg s) fun _ s => .ok (some next) s
        | none => .ok (some next) s
    else
      mbind (keyLeaves w ga k kvKinds s) fun ls s =>
        match ls.find? (fun x => decide (last ≤ x.blk)) with
        | some x =>
          mbind (walkLeaves w ga [x] s) fun ps s => mbind (freePages w ga k ps s) fun _ s => .ok (some next) s
        | none => mbind (compEnd w ga k j s) fun _ s => .ok none s

/-- The start of a compaction (R143): every page is walked, and the pages that moves need are allocated; a fault changes
nothing. -/
def compStart (w : Who) (ga : Nat) (k : Key) (n : Nat) (mask : List Byte) : State → MR Comp :=
  whole w fun s =>
    mbind (keyLeaves w ga k kvKinds s) fun ls s =>
      let p := hdrP k.hdr
      let q := pinnedPrefix ls ls.length 0
      match ls.find? (fun x => decide (q ≤ x.blk) && x.pg.leaf.testBit 62) with
      | some x => .bad (kvFlt ga 7 5 true (isRemote s x.pg.leafAt)) s
      | none =>
        mbind (walkLeaves w ga ls s) fun ps s =>
          let keep (x : Nat) : Bool := (mask.getD (x / 8) 0).getLsbD (x % 8) && (pageAt ps 0 (x / p)).isSome
          let kept := ((List.range n).drop (q * p)).filter keep
          let moves := ((List.range kept.length).zip kept).flatMap (fun m => kvKinds.map (fun kind => (kind, m.2, q * p + m.1)))
          mbind (compAlloc w ga k moves ps s) fun _ s => .ok { q := q, lost := 0, pos := 0, kept := kept } s

/-- The moves, clearings and frees that are left, or only the next one when the binding in progress is for one; `fuel` bounds
their number. A stop between two of them keeps the compaction. -/
def compRun (e : QEntry) (d : Reg) (w : Who) (ga : Nat) (k : Key) : Nat → Comp → State → LRes
  | 0, c, s => .block { e with kept := c.pack } none s
  | fuel + 1, c, s =>
    match compStep w ga k c s with
    | .bad f s => stopAt { e with kept := c.pack } 0 f (kvStream e 0 0) s
    | .wait s => .block { e with kept := c.pack } none s
    | .ok (some c) s => if e.ctx.byRow then .block { e.yielded with kept := c.pack } none s else compRun e d w ga k fuel c s
    | .ok none s =>
      let s := setGNat d (c.count (hdrP k.hdr)) s
      if c.lost = 0 then .done s
      else stopAt { e with kept := [2] } (c.lost - 1) (kvEcc (kaAt ga (c.lost - 1)) 7) (kvStream e 0 0) s

/-- More than the moves, clearings and frees of a compaction of `n` positions. -/
def compFuel (n : Nat) : Nat := 16 * n + 16384

/-- KVCOMP. Its first move is made in the step of its start; `kept` is a compaction in progress, or [2] once it is done and its ECC
trap has been taken. -/
def perfKvcomp (d ga gb : Reg) : Perform := onKey 2 false ga fun e s =>
  if e.kept = [2] then .done s
  else
    let a := cg e.ctx ga
    let w := kvWho e.ctx s
    match mbind (kvHead w a true s) (fun k s => mbind (nextPos w a k s) fun n s => .ok (k, n) s) with
    | .bad f s => stopAt e 0 f (kvStream e 0 0) s
    | .wait s => .block e none s
    | .ok (k, n) s =>
      if e.kept.getD 0 0 = 1 then compRun e d w a k (compFuel n) (Comp.unpack e.kept) s
      else
        let len := (n + 7) / 8
        match vaReadN (hartWho s s.cur 4 e.ctx.handler) (cg e.ctx gb) len s with
        | .bad f s => stopAt e 0 f (mkStream 4 0 0 1 (len - (f.addr.toNat - cg e.ctx gb)) false) s
        | .wait s => .block e none s
        | .ok mask s =>
          match compStart w a k n mask s with
          | .bad f s => stopAt e 0 f (kvStream e 0 0) s
          | .wait s => .block e none s
          | .ok c s => compRun e d w a k (compFuel n) c s

/-! ## KVCTX (R114, R391) -/

/-- The header word, and whether it is configured. -/
def kvHeader (w : Who) (ga : Nat) (s : State) : MR Nat :=
  mbind (hartAsk w ga true s) fun _ s => kvNum w ga (kvRoot w s) 64 s

/-- The pointer entries of a sequence: address of the high entry, the low directory, the layer-head table; none where
one is absent. -/
def seqTable (w : Who) (ga h : Nat) (s : State) : MR (Nat × Option Nat × Option Nat) :=
  let a1 := ptrAddr (hdrSeqdir h) + 8 * (kaSeq ga / 1024)
  mbind (kvNum w ga a1 8 s) fun p1 s =>
    if !p1.testBit 0 then .ok (a1, none, none) s
    else
      mbind (kvNum w ga (ptrAddr p1 + 8 * (kaSeq ga % 1024)) 8 s) fun p2 s =>
        .ok (a1, some (ptrAddr p1), if p2.testBit 0 then some (ptrAddr p2) else none) s

/-- Whether a low directory of the list has a valid entry. -/
def anyOpen (w : Who) (ga : Nat) : List (Nat × Nat) → State → MR Bool
  | [], s => .ok false s
  | (_, p) :: r, s =>
    mbind (tableEntries w ga (ptrAddr p) 1024 s) fun es s =>
      if (validPtrs es).isEmpty then anyOpen w ga r s else .ok true s

def kvCfg (w : Who) (a : Nat) (s : State) : MR Nat :=
  let word := bitsOf a 40 20 * 2 ^ 40
  if a ≠ word ∨ hdrPcode word = 3 ∨ 2 ≤ hdrAtier word ∨ hdrRtier word = 3 then .ok 2 s
  else
    mbind (kvHeader w a s) fun h s =>
      let same := hdrPcode h = hdrPcode word ∧ hdrLayers h = hdrLayers word ∧ hdrHeads h = hdrHeads word
      mbind (if hdrV h && (hdrSeqdir h).testBit 0 && !decide same then
          mbind (tableEntries w a (ptrAddr (hdrSeqdir h)) 1024 s) (fun es s => anyOpen w a (validPtrs es) s)
        else .ok false s) fun busy s =>
          if busy then .ok 1 s
          else
            mbind (if (hdrSeqdir h).testBit 0 then .ok () s
              else
                mbind (kvAlloc w a 2 0 3 (hdrPcode word) 8192 s) fun c s =>
                  kvPut w a (kvRoot w s + 8) (toBytes 8 (mkPtr (glob s c.addr))) s) fun _ s =>
              mbind (kvPut w a (kvRoot w s) (toBytes 8 (2 ^ 63 + word)) s) fun _ s => .ok 0 s

/-- The argument of .open and .close: SEQ alone. -/
def seqOnly (a : Nat) : Bool := a == kaSeq a * 2 ^ 40

def kvOpen (w : Who) (a : Nat) (s : State) : MR Nat :=
  if !seqOnly a then .ok 2 s
  else
    mbind (kvHeader w a s) fun h s =>
      if !hdrV h then .ok 4 s
      else
        mbind (seqTable w a h s) fun x s =>
          if x.2.2.isSome then .ok 3 s
          else
            mbind (match x.2.1 with
              | some low => .ok low s
              | none =>
                mbind (kvAlloc w a 2 0 3 (hdrPcode h) 8192 s) fun c s =>
                  mbind (kvPut w a x.1 (toBytes 8 (mkPtr (glob s c.addr))) s) fun _ s => .ok (glob s c.addr) s)
              fun low s =>
                mbind (kvAlloc w a 2 0 3 (hdrPcode h) (64 * (hdrLayers h + 1) * (hdrHeads h + 1)) s) fun c s =>
                  mbind (kvPut w a (low + 8 * (kaSeq a % 1024)) (toBytes 8 (mkPtr (glob s c.addr))) s) fun _ s => .ok 0 s

/-- Free what a codebook pointer names. -/
def dropCodebook (w : Who) (ga : Nat) (k : Key) (kind : Nat) (s : State) : MR Unit :=
  mbind (kvNum w ga (k.lh + cbOff kind) 8 s) fun e s =>
    if e.testBit 0 then dropTable w ga k (k.lh + cbOff kind) (ptrAddr e) s else .ok () s

/-- Every page and table of the heads of a sequence is freed, pinned pages included. -/
def closeHeads (w : Who) (a h lht : Nat) : List Nat → State → MR Unit
  | [], s => .ok () s
  | i :: r, s =>
    let k : Key := { hdr := h, lh := lht + 64 * i }
    mbind (mbind (keyLeaves w a k kvKinds s) (walkLeaves w a)) fun ps s =>
      mbind (freePages w a k ps s) fun _ s =>
        mbind (dropTables w a k kvKinds s) fun _ s =>
          mbind (dropCodebook w a k 0 s) fun _ s =>
            mbind (dropCodebook w a k 1 s) fun _ s => closeHeads w a h lht r s

def kvClose (w : Who) (a : Nat) (s : State) : MR Nat :=
  if !seqOnly a then .ok 2 s
  else
    mbind (kvHeader w a (beginWalk w s)) fun h s =>
      if !hdrV h then .ok 4 s
      else
        mbind (seqTable w a h s) fun x s =>
          match x.2.1, x.2.2 with
          | some low, some lht =>
            mbind (closeHeads w a h lht (List.range ((hdrLayers h + 1) * (hdrHeads h + 1))) s) fun _ s =>
              mbind (freeTable w a lht s) fun _ s =>
                mbind (kvPut w a (low + 8 * (kaSeq a % 1024)) (toBytes 8 0) s) fun _ s =>
                  mbind (tableEntries w a low 1024 s) fun es s =>
                    if (validPtrs es).isEmpty then
                      mbind (freeTable w a low s) fun _ s => mbind (kvPut w a x.1 (toBytes 8 0) s) fun _ s => .ok 0 s
                    else .ok 0 s
          | _, _ => .ok 5 s

/-- The layer-head entry for .cb and .pin, or the status that refuses it. -/
def ctxKey (w : Who) (a : Nat) (s : State) : MR (Key ⊕ Nat) :=
  mbind (kvHeader w a s) fun h s =>
    if !hdrV h then .ok (.inr 4) s
    else if hdrLayers h < kaLayer a ∨ hdrHeads h < kaHead a then .ok (.inr 2) s
    else
      mbind (seqTable w a h s) fun x s =>
        match x.2.2 with
        | some lht => .ok (.inl { hdr := h, lh := lht + 64 * (kaLayer a * (hdrHeads h + 1) + kaHead a) }) s
        | none => .ok (.inr 5) s

/-- `src` reads the 4 KiB at g(gb). -/
def kvCb (w : Who) (a b : Nat) (src : State → MR (List Byte)) (s : State) : MR Nat :=
  if 2 ^ 62 ≤ a ∨ kaKind a = 2 ∨ kaPos a ≠ 0 ∨ b % 64 ≠ 0 then .ok 2 s
  else if kaKind a = 3 then .bad (kvFlt a 5 0 true false) s
  else
    mbind (ctxKey w a s) fun x s =>
      match x with
      | .inr st => .ok st s
      | .inl k =>
        mbind (src s) fun bs s =>
          mbind (kvNum w a (k.lh + cbOff (kaKind a)) 8 s) fun old s =>
            mbind (kvAlloc w a 3 0 3 (hdrPcode k.hdr) 4096 s) fun c s =>
              mbind (kvPutN w a (glob s c.addr) bs s) fun _ s =>
              mbind (if old.testBit 0 then freeTable w a (ptrAddr old) s else .ok () s) fun _ s =>
              mbind (kvPut w a (k.lh + cbOff (kaKind a)) (toBytes 8 (mkPtr (glob s c.addr))) s) fun _ s =>
                mbind (if old.testBit 0 then .ok () s else addPages w a k 1 s) fun _ s => .ok 0 s

def pinPages (w : Who) (a : Nat) : List KPage → State → MR Unit
  | [], s => .ok () s
  | x :: r, s =>
    mbind (kvPut w a x.pg.leafAt (toBytes 8 (x.pg.leaf ||| 2 ^ 62)) s) fun _ s => pinPages w a r s

def kvPin (w : Who) (a : Nat) (s : State) : MR Nat :=
  if 2 ^ 62 ≤ a ∨ kaKind a = 1 ∨ kaKind a = 2 then .ok 2 s
  else if kaKind a = 3 then .bad (kvFlt a 5 0 true false) s
  else
    mbind (ctxKey w a s) fun x s =>
      match x with
      | .inr st => .ok st s
      | .inl k =>
        mbind (keyLeaves w a k kvKinds s) fun ls s =>
          mbind (pinPages w a (ls.filter (fun x => decide (x.blk * hdrP k.hdr < kaPos a))) s) fun _ s => .ok 0 s

/-- A configuration operation performed once: its status goes to gd; a fault changes nothing. -/
def ctxOp (d ga : Reg) (f : Who → Nat → State → MR Nat) : Perform := fun e s =>
  let w := kvWho e.ctx s
  kvOnce e (mbind (whole w (f w (cg e.ctx ga)) s) fun st s => .ok () (setGNat d st s))

def perfKvctxCfg (d ga : Reg) : Perform := ctxOp d ga kvCfg
def perfKvctxOpen (d ga : Reg) : Perform := ctxOp d ga kvOpen
def perfKvctxClose (d ga : Reg) : Perform := onKey 2 true ga (ctxOp d ga kvClose)
def perfKvctxPin (d ga : Reg) : Perform := ctxOp d ga kvPin

/-- The codebook's source is read with the hart's own accesses on stream K. -/
def perfKvctxCb (d ga gb : Reg) : Perform := fun e s =>
  let w := kvWho e.ctx s
  let b := cg e.ctx gb
  match whole w (kvCb w (cg e.ctx ga) b (vaReadN (hartWho s s.cur 4 e.ctx.handler) b 4096)) s with
  | .ok st s => .done (setGNat d st s)
  | .bad f s =>
    let fs := if f.cause = cPage ∨ (f.cause = cAccess ∧ b ≤ f.addr.toNat ∧ f.addr.toNat < b + 4096) then
        mkStream 4 0 0 1 (4096 - (f.addr.toNat - b)) false
      else kvStream e 0 0
    stopAt e 0 f fs s
  | .wait s => .block e none s

/-! ## The instructions -/

/-- The push checks on a KV address (R379). -/
def kindIs (s : State) (ga : Reg) (kind : Nat) : Bool := kaKind (gGet ga s).toNat == kind
def posZero (s : State) (ga : Reg) : Bool := kaPos (gGet ga s).toNat == 0
def tokenVl (s : State) : Bool := (me s).vl % 128 == 0

def execKvctxCfg (d a b : Reg) (s : State) : Out :=
  .next (issueV Check.none (.kvctxCfg d a b) (perfKvctxCfg d a) s)
def execKvctxOpen (d a b : Reg) (s : State) : Out :=
  .next (issueV Check.none (.kvctxOpen d a b) (perfKvctxOpen d a) s)
def execKvctxClose (d a b : Reg) (s : State) : Out :=
  .next (issueV Check.none (.kvctxClose d a b) (perfKvctxClose d a) s)
def execKvctxCb (d a b : Reg) (s : State) : Out :=
  .next (issueV Check.none (.kvctxCb d a b) (perfKvctxCb d a b) s)
def execKvctxPin (d a b : Reg) (s : State) : Out :=
  .next (issueV Check.none (.kvctxPin d a b) (perfKvctxPin d a) s)

def execKvapp (fmt : BitVec 2) (ga vb vc : Reg) (mask : MaskSel) (s : State) : Out :=
  .next (issueV { Check.none with width := f012Bits fmt, bad := !(kindIs s ga 0 && posZero s ga && tokenVl s) }
    (.kvapp fmt ga vb vc mask) (perfKvapp fmt ga vb vc mask) s)

def execKvld (fmt rnd : BitVec 2) (sat : Bool) (vd ga : Reg) (mask : MaskSel) (row : Option (BitVec 3)) (s : State) : Out :=
  .next (issueV { Check.none with width := f012Bits fmt, dst := [vd], row := row,
                                  bad := (kindIs s ga 0 || kindIs s ga 1) && !tokenVl s }
    (.kvld fmt rnd sat vd ga mask row) (perfKvld fmt rnd sat vd ga mask row) s)

def execKvscore (fmt : BitVec 2) (vd ga vb : Reg) (mask : MaskSel) (row : Option (BitVec 3)) (s : State) : Out :=
  .next (issueV { Check.none with width := 32, dst := [vd], noOverlap := [vb], row := row, bad := !kindIs s ga 0 }
    (.kvscore fmt vd ga vb mask row) (perfKvscore fmt vd ga vb mask row) s)

def execKvvqsLut (vd ga vb vc : Reg) (mask : MaskSel) (row : Option (BitVec 3)) (s : State) : Out :=
  .next (issueV { Check.none with width := 32, dst := [vd], noOverlap := [vb, vc], row := row, bad := !kindIs s ga 0 }
    (.kvvqsLut vd ga vb vc mask row) (perfKvvqsLut vd ga vb vc mask row) s)

def execKvvqsQ (qf : BitVec 2) (vd ga vb : Reg) (mask : MaskSel) (row : Option (BitVec 3)) (s : State) : Out :=
  .next (issueV { Check.none with width := 32, dst := [vd], noOverlap := [vb], row := row, bad := !kindIs s ga 0 }
    (.kvvqsQ qf vd ga vb mask row) (perfKvvqsQ qf vd ga vb mask row) s)

def execKvacc (ga vb : Reg) (mask : MaskSel) (row : Option (BitVec 3)) (s : State) : Out :=
  .next (issueV { Check.none with width := 32, row := row, bad := !kindIs s ga 2 } (.kvacc ga vb mask row)
    (perfKvacc ga vb mask row) s)

def execKvcomp (d a b : Reg) (s : State) : Out :=
  .next (issueV { Check.none with bad := !(kindIs s a 0 && posZero s a) } (.kvcomp d a b) (perfKvcomp d a b) s)

def execKvfree (a b : Reg) (s : State) : Out :=
  .next (issueV { Check.none with bad := !kindIs s a 0 } (.kvfree a b) (perfKvfree a b) s)

/-! ## Moves of a block between tiers (R119, R120, R138) -/

/-- The 8-byte entries of a table that can hold something other than zero. -/
def listedAt (s : State) (g n : Nat) : List Nat := ((ctake (g + n) (cdrop g s.mem)).map (fun p => (p.1 - g) / 8)).eraseDups

def entryAt (s : State) (g i : Nat) : Nat := ofBytes (memBytes s (g + 8 * i) 8)

/-- Root firmware's edit of the leaves of a leaf table: `f` gives a leaf's new value. -/
def editTable (f : Nat → Nat) (t : Nat) (s : State) : State :=
  (listedAt s t 4096).foldl (fun s i =>
    let l := entryAt s t i
    if l.testBit 63 && f l != l then setMem (t + 8 * i) (toBytes 8 (f l)) s else s) s

/-- The same of every leaf of a key's directories. -/
def editKey (f : Nat → Nat) (hdr lh : Nat) (s : State) : State :=
  kvKinds.foldl (fun s kind =>
    let d := ofBytes (memBytes s (lh + dirOff kind) 8)
    if !d.testBit 0 then s
    else (listedAt s (ptrAddr d) (dirBytes hdr)).foldl (fun s i =>
      let t := entryAt s (ptrAddr d) i
      if t.testBit 0 then editTable f (ptrAddr t) s else s) s) s

/-- The same of every first-stage leaf of a context. -/
def editContext (f : Nat → Nat) (s : State) (c : Context) : State :=
  let hdr := ofBytes (memBytes s c.kvroot.toNat 64)
  if !hdrV hdr then s
  else
    let dir := ptrAddr (hdrSeqdir hdr)
    (listedAt s dir 8192).foldl (fun s i =>
      let p1 := entryAt s dir i
      if !p1.testBit 0 then s
      else (listedAt s (ptrAddr p1) 8192).foldl (fun s j =>
        let p2 := entryAt s (ptrAddr p1) j
        if !p2.testBit 0 then s
        else (List.range ((hdrLayers hdr + 1) * (hdrHeads hdr + 1))).foldl (fun s n =>
          editKey f hdr (ptrAddr p2 + 64 * n) s) s) s) s

/-- The same of every first-stage leaf of a partition's contexts. -/
def editLeaves (part : Nat) (f : Nat → Nat) (s : State) : State :=
  (partOf s part).contexts.foldl (editContext f) s

/-- A leaf of a block of this package that root firmware copies to a tier: it names the tier, and DIRTY is clear (R118). -/
def copiedLeaf (pkg block tier l : Nat) : Nat :=
  if leafPkg l = pkg ∧ leafBlock l = block then
    l - b2n (l.testBit 61) * 2 ^ 61 - bitsOf l 57 2 * 2 ^ 57 + tier % 4 * 2 ^ 57
  else l

/-- KV_BLOCK_MIGRATION: STATE is 2 while root firmware copies the block to its new place, and the leaves that name it say so;
the place it leaves becomes that of the free chunk it came to. -/
def execKvBlockMigration (block : Nat) (tier : BitVec 2) (addr : BitVec 44) (s : State) : Out :=
  let e := stage2Get s block
  match findChunk s (fun c => c.used && c.block == block) with
  | some c =>
    if s2State e ≠ 1 ∨ s.stage2Entries ≤ block then .next s
    else
      let a := addr.toNat
      let bs := memBytes s (glob s c.addr) c.bytes
      let s := { s with chunks := s.chunks.map (fun x =>
        if x.block = block then { x with tier := tier.toNat, addr := a }
        else if x.addr = a then { x with tier := c.tier, addr := c.addr } else x) }
      let s := editLeaves (s2Owner e) (copiedLeaf s.pkg block tier.toNat) (rootPut a bs s)
      .next (stage2Put block (mkS2 (s2Gen e) 2 (s2Owner e) (s2Kind e) (bitsOf e 51 2) a) s)
  | none => .next s

/-- KV_BLOCK_MOVE_DONE: the block is resident again. -/
def execKvBlockMoveDone (block : Nat) (s : State) : Out :=
  let e := stage2Get s block
  if s2State e = 2 ∧ block < s.stage2Entries then .next (stage2Put block (e - 2 ^ 62) s) else .next s

end Sys2Proof.Machine
end

