-- ==== Sys2Proof/Machine/Root.lean ====
section
/-! DEFINITION. Root firmware: partitions (R20, R71, R273), queue reopening (R263), live migration (R72 to R75), the HDM
decoders (R439), and the boot of the device (R274 to R276). -/

namespace Sys2Proof.Machine

/-! ## Access tables (R25, R26, R35) -/

def entryKey (e : EntrySpec) : Nat := tgtKey (e.kind.toNat, e.inst.toNat) * 65536 + e.master.toNat
def regionKey (r : RegionSpec) : Nat := tgtKey (r.kind.toNat, r.inst.toNat) * 256 + r.index.toNat

/-- An entry or a descriptor is written in memory, and ACTINV is carried through: the target's copy is the new one. -/
def putEntry (k : Nat) (e : BitVec 64) (s : State) : State :=
  let s := rootPut (entryAddr k) (toBytes 8 e.toNat) s
  { s with accE := cset 0 k e s.accE }
def putRegion (k : Nat) (d : BitVec 128) (s : State) : State :=
  let s := rootPut (regionAddr k) (toBytes 16 d.toNat) s
  { s with accD := cset 0 k d s.accD }

def writeTables (es : List EntrySpec) (rs : List RegionSpec) (s : State) : State :=
  rs.foldl (fun s r => putRegion (regionKey r) r.word s) (es.foldl (fun s e => putEntry (entryKey e) e.word s) s)

/-- An entry or descriptor that names a partition. -/
def entryOf (part : Nat) (e : BitVec 64) : Bool := bitsOf e.toNat 56 7 == part && !e.toNat.testBit 51
def regionOf (part : Nat) (d : BitVec 128) : Bool := bitsOf d.toNat 56 7 == part

/-- Two ranges share a byte. -/
def rangesMeet (a b : Nat × Nat) : Bool := decide (a.1 < b.1 + b.2 ∧ b.1 < a.1 + a.2 ∧ 0 < a.2 ∧ 0 < b.2)

/-- First address and end of a descriptor's pages. -/
def regionSpan (d : Nat) : Nat × Nat := (bitsOf d 16 28 * 65536, (bitsOf d 80 28 + 1) * 65536)

/-- Page number of this package at which a context's virtual address lies. -/
def framePage (s : State) (part ctx va : Nat) : Option Nat :=
  let w := commandWho s part ctx 126
  if 2 ^ 48 ≤ va then none
  else match leafAt w va s with
  | some (lvl, _, e) =>
    if leafMalformed e lvl || leafOutside e lvl then none
    else
      let l := locOf s w e lvl (leafFrame e * 65536 + va % pageSize lvl)
      if l.pkg = s.pkg then some (l.a / 65536) else none
  | none => none

/-- The pages that hold a queue's control block, its packet ring and its signal words (R258). -/
def queuePages (s : State) (part q : Nat) : List Nat :=
  let k := queueOf s part q
  let pages (va n : Nat) : List Nat :=
    (List.range ((va % 65536 + n + 65535) / 65536)).filterMap (fun i => framePage s part k.ctx (va / 65536 * 65536 + 65536 * i))
  let ring : List Nat := match ringOf part q s with
    | .ok (some (base, size)) _ => pages base (64 * size)
    | _ => []
  pages k.qcb.toNat 128 ++ ring ++ k.prodsig.flatMap (fun a => pages a.toNat 8)

/-- What the scheduling firmware may reach for a partition: pages of its queues and its doorbell page (R258). -/
def schedPages (s : State) (part : Nat) : List Nat :=
  (0xF0010000000 / 65536 + part) :: (queuesOf s part).flatMap (fun p => queuePages s part p.1)

/-- A descriptor of the scheduling firmware over pages of a partition: its regions, its queues, its doorbells. -/
def schedOver (s : State) (part : Nat) (pages : List Nat) (d : BitVec 128) : Bool :=
  let p := partOf s part
  let r := regionSpan d.toNat
  bitsOf d.toNat 56 7 == 126 && bitsOf d.toNat 63 1 == 1 &&
    ([p.t1, p.t2, p.host, p.cxl].any (fun b => rangesMeet b (r.1, r.2 - r.1)) ||
     pages.any (fun n => decide (r.1 ≤ n * 65536 ∧ n * 65536 < r.2)))

/-- No entry and no descriptor of a partition is left, in memory or at a target (R35), nor what the scheduling firmware was given
for it. -/
def revokeTables (part : Nat) (s : State) : State :=
  let pages := schedPages s part
  let gone (d : BitVec 128) : Bool := regionOf part d || schedOver s part pages d
  let t := ((listedEntries s).filter (fun k => entryOf part (entryInMem s k))).foldl
    (fun s k => rootPut (entryAddr k) (toBytes 8 0) s) s
  let t := ((listedRegions s).filter (fun k => gone (regionInMem s k))).foldl
    (fun s k => rootPut (regionAddr k) (toBytes 16 0) s) t
  { t with accE := t.accE.filter (fun p => !entryOf part p.2), accD := t.accD.filter (fun p => !gone p.2) }

/-! ## What root firmware keeps to itself (R24, R113, R119, R145, R258) -/

/-- Memory of partition 127 that only named masters may reach: base, bytes, and the kind of fabric agent, if any, that
shares it with the root core. -/
structure Kept where
  base : Nat
  bytes : Nat
  agent : Option Nat
  deriving DecidableEq, Repr

/-- The record table that a RECBASE names (R145). -/
def recTable (r : Word) : Option (Nat × Nat) :=
  if r.getLsbD 0 then some (bitsOf r.toNat 7 37 * 128, 128 * (bitsOf r.toNat 48 16 + 1)) else none

/-- The access tables, the second-stage table and the KV pool, every record table and every context's KV header. -/
def keptRanges (s : State) : List Kept :=
  let live := (s.parts.filter (fun p => p.2.live)).map (fun p => p.2)
  let heads := (live.flatMap (fun p => p.contexts)).filter (fun c => c.kvroot.toNat / 2 ^ 44 == s.pkg)
  { base := tableBase, bytes := tablesEnd - tableBase, agent := none } ::
  { base := s.stage2, bytes := 16 * s.stage2Entries, agent := some 1 } ::
  (s.chunks.map (fun c => { base := c.addr, bytes := c.bytes, agent := some 1 }) ++
   (live.filterMap (fun p => recTable p.recbase)).map (fun r => { base := r.1, bytes := r.2, agent := some 5 }) ++
   heads.map (fun c => { base := c.kvroot.toNat % 2 ^ 44, bytes := 64, agent := some 1 }))

/-- A master may hold a descriptor over a kept range. -/
def keptAllows (g : Kept) (master : Nat) : Bool :=
  master == rootMaster || g.agent.any (fun k => master / 8192 == 6 && bitsOf master 2 3 == k)

def meetsKept (g : Kept) (d : Nat) : Bool :=
  d.testBit 63 && decide ((regionSpan d).1 < g.base + g.bytes ∧ g.base < (regionSpan d).2)

/-- No entry of a memory target opens a kept range to a master that is not to have it. -/
def keptClosed (s : State) : Bool :=
  let kept := keptRanges s
  s.accE.all (fun p =>
    let t := p.1 / 65536
    let e := p.2.toNat
    !e.testBit 63 || decide (6 ≤ t / 256) ||
    (List.range (min (bitsOf e 16 8) (256 - bitsOf e 8 8))).all (fun i =>
      let d := (cget 0 (t * 256 + bitsOf e 8 8 + i) s.accD).toNat
      kept.all (fun g => !meetsKept g d || keptAllows g (p.1 % 65536))))

/-! ## Partitions (R273) -/

/-- Pages of a tier-2 region. -/
def regionPages (r : Nat × Nat) : List Nat := (List.range (r.2 / 65536)).map (fun i => r.1 / 65536 + i)

def markZero (r : Nat × Nat) (s : State) : State :=
  { s with zeroPend := (regionPages r).foldl (fun m p => cset false p true m) s.zeroPend }

/-- A queue opens: M is zero, its privileged part is written (R260, R269). -/
def openQueue (part : Nat) (s : State) (k : QueueSpec) : State :=
  let s := modQueue part k.q.toNat (fun _ => { Queue.reset with qcb := k.qcb, part := BitVec.ofNat 7 part, ctx := k.ctx,
                                                                 state := 1, tickets := k.tickets.toNat, prodsig := k.prodsig }) s
  writeBack part k.q.toNat s

/-- A queue is well formed: a ticket, a block on a 128-byte boundary, at most four producer signals, a context of the
partition (R260). -/
def queueSpecOk (p : PartSpec) (k : QueueSpec) : Bool :=
  k.tickets != 0 && k.qcb.toNat % 128 == 0 && decide (k.prodsig.length ≤ 4) && decide (k.ctx < p.contexts.length)

/-- A context's roots are aligned: TROOT to 2 KiB (R45), the KV header to its 64 bytes (R112). -/
def contextSpecOk (c : BitVec 64 × BitVec 64) : Bool := c.1.toNat % 2048 == 0 && c.2.toNat % 64 == 0

/-- RECBASE has the layout of R145, and its table lies in tier 1, outside every partition's region and every other table. -/
def recbaseOk (s : State) (p : PartSpec) : Bool :=
  bitsOf p.recbase.toNat 44 4 == 0 && bitsOf p.recbase.toNat 1 6 == 0 &&
  match recTable p.recbase with
  | none => true
  | some r =>
    decide (r.1 + r.2 ≤ 0x2000000000) && !rangesMeet r (p.t1.1.toNat, p.t1.2) &&
    s.parts.all (fun x => !x.2.live || !rangesMeet r x.2.t1) &&
    (keptRanges s).all (fun g => !rangesMeet r (g.base, g.bytes))

/-- The partition's regions hold nothing that root firmware keeps. -/
def regionsOk (s : State) (p : PartSpec) : Bool :=
  (keptRanges s).all (fun g => !rangesMeet (p.t1.1.toNat, p.t1.2) (g.base, g.bytes) &&
    !rangesMeet (p.t2.1.toNat, p.t2.2) (g.base, g.bytes))

/-- A descriptor of the scheduling firmware covers pages of the partition's queues, as the created partition has them, and its
doorbell page, and no other (R258; log 84). -/
def schedRegionOk (pages : List Nat) (r : RegionSpec) : Bool :=
  let d := r.word.toNat
  let lo := bitsOf d 16 28
  let n := bitsOf d 80 28 + 1 - lo
  !d.testBit 63 || bitsOf d 56 7 != 126 ||
  (decide (n ≤ pages.length) && (List.range n).all (fun i => pages.contains (lo + i)))

/-- A command core's entry has PROXY (R263). -/
def commandEntryOk (e : EntrySpec) : Bool :=
  !e.word.toNat.testBit 63 || decide (e.master.toNat < 0x6000) || decide (0x6003 < e.master.toNat) || e.word.toNat.testBit 51

/-- New chunks of the pool name blocks of the second-stage table that no chunk has, one each. -/
def chunksOk (s : State) (p : PartSpec) : Bool :=
  decide ((p.chunks.map (fun c => c.block)).Nodup) &&
  p.chunks.all (fun c => decide (c.block < s.stage2Entries) && s.chunks.all (fun x => x.block != c.block))

def addChunks (p : PartSpec) (s : State) : State :=
  { s with chunks := s.chunks ++ p.chunks.map (fun c =>
      { block := c.block, tier := c.tier.toNat, addr := c.addr.toNat, bytes := c.bytes, used := false, retired := false }) }

/-- A context's KV header is not configured yet (R112). -/
def clearHeader (s : State) (c : BitVec 64 × BitVec 64) : State :=
  let g := c.2.toNat
  if g / 2 ^ 44 = s.pkg then rootPut (g % 2 ^ 44) (List.replicate 64 0) s else s

/-- The fields of a new record table that R147 calls zero. -/
def clearRecords (recbase : Word) (s : State) : State :=
  match recTable recbase with
  | some r => (List.range (r.2 / 128)).foldl (fun s i =>
      rootPut (r.1 + 128 * i + 0x18) (toBytes 8 (rawRead s (r.1 + 128 * i + 0x18) 4 % 2 ^ 15)) s) s
  | none => s

/-- The steps of R273 in order. What the memory of the record table holds stays, but for the fields that are zero: R147 gives a
record's values at reset, and no rule gives them for a table that is allocated later (the model's choice, log 84). -/
def createPartition (p : PartSpec) (s : State) : State :=
  let n := p.part.toNat
  let s := { s with clusterOwner := p.clusters.foldl (fun m c => cset 127 c.toNat p.part m) s.clusterOwner }
  let s := writeTables p.entries p.regions s
  let s := markZero (p.t2.1.toNat, p.t2.2) s
  let s := zeroMem (glob s p.t1.1.toNat) p.t1.2 s
  let s := addChunks p { s with aperture := s.aperture ++ p.maps.map (fun m => (n, m)) }
  let s := p.image.foldl (fun s b => rootPut b.1 [b.2] s) (p.contexts.foldl clearHeader (clearRecords p.recbase s))
  let old := partOf s n
  let s := setPart n { Part.reset with
    live := true, tenant := p.tenant, sliceUs := p.sliceUs,
    contexts := p.contexts.map (fun c => { troot := c.1, kvroot := c.2 }), recbase := p.recbase,
    t1 := (p.t1.1.toNat, p.t1.2), t2 := (p.t2.1.toNat, p.t2.2), host := (p.host.1.toNat, p.host.2),
    cxl := (p.cxl.1.toNat, p.cxl.2), uperiod := p.uperiod.toNat, metered := s.ticks, usince := s.ticks, ready := true,
    kvQuota := p.kvQuota, ubuf := old.ubuf, ringOwn := old.ringOwn, ringOp := old.ringOp } s
  p.queues.foldl (openQueue n) s

/-- What root firmware accepts: a number of R18 that no partition has, with clusters that none owns and whose harts are
off; in minimal mode only the physical function and cluster 0 (R275); tables and regions that leave closed what it keeps (R24,
R113, R145, R258), command cores that proxy (R263). A number whose last usage record still waits is not free yet (R273). -/
def createOk (p : PartSpec) (s : State) : Bool :=
  let n := p.part.toNat
  let t := createPartition p s
  !s.boot.imageOnly && decide (n ≤ 64) && !(partOf s n).live && !(partOf s n).finalDue && decide p.clusters.Nodup &&
  p.clusters.all (fun c => ownerOf s c.toNat == 127 && clusterFree s c.toNat) &&
  (!s.boot.minimal || (n == 0 && p.clusters.all (fun c => c == 0))) &&
  decide (100 ≤ p.uperiod.toNat) && decide (p.uperiod.toNat ≤ 60000) &&
  decide (250 ≤ p.sliceUs) && decide (p.sliceUs ≤ 100000) &&
  p.queues.all (queueSpecOk p) && p.contexts.all contextSpecOk && p.entries.all commandEntryOk && chunksOk s p &&
  recbaseOk (addChunks p s) p && regionsOk t p && keptClosed t && p.regions.all (schedRegionOk (schedPages t n))

def execPartitionCreate (spec : PartSpec) (s : State) : Out :=
  .next (if createOk spec s then createPartition spec s else s)

/-- The live jobs of a partition. -/
def partJobs (s : State) (part : Nat) : List Nat :=
  (s.jobs.filter (fun p => p.2.live && p.2.part == part)).map (fun p => p.1)

/-- The harts of a job stop with their work discarded. -/
def stopJob (job : Nat) (s : State) : State :=
  if (jobOf s job).parked then s else (jobOf s job).harts.foldl (fun s h => killHart h s) s

/-- A block that root firmware frees (R142). -/
def rootFree (s : State) (b : Nat) : State :=
  let e := stage2Get s b
  countFreed b (s2Owner e) (stage2Put b (freedEntry e) s)

/-- Blocks of the KV pool that a partition owns. -/
def blocksOf (s : State) (part : Nat) : List Chunk :=
  s.chunks.filter (fun c => c.used && s2Owner (stage2Get s c.block) == part)

/-- Steps 3 to 6 of R273's teardown, once no job is left. -/
def dismantle (part : Nat) (s : State) : State :=
  let s := revokeTables part (emitUsage part s)
  let s := (blocksOf s part).foldl (fun s c => rootFree s c.block) s
  let s := { s with queues := ckeep (fun k => k / 256 != part) s.queues,
                    shadows := ckeep (fun k => k / 65536 % 65536 != part) s.shadows,
                    lee := ckeep (fun k => k / 2 ^ 56 % 256 != part) s.lee,
                    winMap := ckeep (fun k => k / 256 != part) s.winMap,
                    coreRecs := ckeep (fun k => ownerOf s (k / 2 ^ 32 / 4) != part) s.coreRecs,
                    aperture := s.aperture.filter (fun m => m.1 != part),
                    migr := cset Migration.none part Migration.none s.migr }
  let s := markZero (partOf s part).t2 s
  let full := decide (64 ≤ (partOf s part).ubuf.length)
  modPart part (fun p => { p with live := false, ready := false, closing := false, contexts := [], finalDue := full })
    { s with clusterOwner := s.clusterOwner.filter (fun p => p.2.toNat != part) }

/-- A KV block of the partition is on the move between tiers. -/
def kvMoving (s : State) (part : Nat) : Bool := (blocksOf s part).any (fun c => s2State (stage2Get s c.block) == 2)

/-- R273's teardown: queues stop; the harts' snapshot copies are drained (R74, R252); then jobs end with ABORTED. While an
access of a hart, a marked buffer, a status or a signal meets a link that is down, or a KV block is on the move, the rest
stays due. -/
def teardown (part : Nat) (s : State) : State :=
  let s := { s with queues := s.queues.map (fun p =>
    if p.1 / 256 = part then (p.1, { p.2 with state := 5, active := false }) else p) }
  let harts := (partJobs s part).flatMap (fun j => if (jobOf s j).parked then [] else (jobOf s j).harts)
  let s := harts.foldl settleHart s
  let due := modPart part (fun p => { p with closing := true })
  if harts.any (cannotStop s) then due s
  else
    let s := (partJobs s part).foldl (fun s j => finishJob j 5 (stopJob j s)) s
    if (partJobs s part).isEmpty && !s.signals.any (fun e => e.part == part) && !kvMoving s part then dismantle part s else due s

def execPartitionTeardown (part : BitVec 7) (s : State) : Out :=
  .next (if (partOf s part.toNat).live then teardown part.toNat s else s)

/-- QUEUE_REOPEN: a stopped queue goes on behind the packet that stopped it, with its chain and its PASS (log 28). -/
def execQueueReopen (part : BitVec 7) (q : BitVec 8) (s : State) : Out :=
  let p := part.toNat
  let n := q.toNat
  .next (if (queueOf s p n).state = 5 && !(partOf s p).closing then
    writeBack p n (modQueue p n (fun k => { k with state := 1 }) s) else s)

/-! ## Live migration (R72 to R75) -/

/-- WTR is set in every writable leaf below a table; `n` levels are left. -/
def setWtr : Nat → Nat → State → State
  | 0, _, s => s
  | n + 1, t, s =>
    (List.range 256).foldl (fun s i =>
      let ea := t + 8 * i
      let e := rawRead s ea 8
      let lvl := 4 - n
      if cget false (ea / 65536) s.zeroPend || !e.testBit 0 then s
      else if lvl = 4 ∨ (e.testBit 15 ∧ 1 < lvl) then (if e.testBit 1 then rawWrite ea 8 (e ||| 2 ^ 9) s else s)
      else if e.testBit 15 then s
      else setWtr n (bitsOf e 16 48 * 65536 + bitsOf e 7 5 * 0x800) s) s

/-- `n` bytes at a package-local address are copied to another package's memory at the same address (R75). -/
def copyRange (dest a n : Nat) (s : State) : State :=
  let src := glob s a
  let dst := dest * 2 ^ 44 + a
  (ctake (src + n) (cdrop src s.mem)).foldl (fun s p => setMem (dst + (p.1 - src)) [p.2] s) (zeroMem dst n s)

def copyPage (dest : Nat) (s : State) (p : Nat) : State := copyRange dest (p * 65536) 65536 (settleZero s (p * 65536))

/-- The pages of a partition's tier-1 and tier-2 regions. -/
def partPages (s : State) (part : Nat) : List Nat := regionPages (partOf s part).t1 ++ regionPages (partOf s part).t2

/-- First page and count of the pages whose leaf below a table has PIN; `n` levels are left. -/
def pinSpans (s : State) : Nat → Nat → List (Nat × Nat)
  | 0, _ => []
  | n + 1, t =>
    (List.range 256).flatMap (fun i =>
      let ea := t + 8 * i
      let e := rawRead s ea 8
      let lvl := 4 - n
      if cget false (ea / 65536) s.zeroPend || !e.testBit 0 then []
      else if lvl = 4 ∨ (e.testBit 15 ∧ 1 < lvl) then
        if e.testBit 14 && decide (bitsOf e 4 3 < 2) then [(leafFrame e, pageSize lvl / 65536)] else []
      else if e.testBit 15 then []
      else pinSpans s n (bitsOf e 16 48 * 65536 + bitsOf e 7 5 * 0x800))

/-- The pages that the partition's software keeps at their frames: those of leaves with PIN (R47, R62, R73). -/
def pinnedPages (s : State) (part : Nat) : List (Nat × Nat) := (partOf s part).contexts.flatMap (fun c => pinSpans s 4 c.troot.toNat)

def isPinned (pins : List (Nat × Nat)) (page : Nat) : Bool := pins.any (fun p => decide (p.1 ≤ page ∧ page < p.1 + p.2))

/-- An access of the partition is still outstanding on a link. -/
def partWaits (s : State) (part : Nat) : Bool :=
  s.links.any (fun p => p.2.outstanding.any (fun r => r.req.part.toNat == part))

/-- Pass 0 copies every unpinned page, once every access under a translation of before has completed. -/
def passZero (part : Nat) (s : State) : State :=
  let m := migrOf s part
  if !m.on || m.begun || partWaits s part then s
  else
    let pins := pinnedPages s part
    let (held, free) := (partPages s part).partition (isPinned pins)
    modMigr part (fun m => { m with begun := true, skipped := held.foldl (fun c p => cset false p true c) [] })
      (free.foldl (copyPage m.dest) s)

/-- MIGRATION_START: WTR is set in the leaves of every context, no translation held before is left, and pass 0 begins. -/
def execMigrationStart (move : MigrationSpec) (s : State) : Out :=
  let p := move.part.toNat
  .next (if !(partOf s p).live || (partOf s p).closing || (migrOf s p).on || move.dest.toNat == s.pkg then s
    else
      let s := (partOf s p).contexts.foldl (fun s c => setWtr 4 c.troot.toNat s) (dropHeld (fun x => x.part == move.part) (fun _ => true) s)
      passZero p (modMigr p (fun _ => { Migration.none with on := true, dest := move.dest.toNat }) s))

def bitmapPages (l : List (Cells Bool)) : List Nat := (l.flatMap (fun c => c.map (fun p => p.1))).eraseDups

/-- GENERATION_SWITCH: the generation is closed, and the next pass copies the pages marked in it, but for pinned ones, which
the stop phase copies (R62). -/
def execGenerationSwitch (part : BitVec 7) (s : State) : Out :=
  let p := part.toNat
  let m := migrOf s p
  let pins := pinnedPages s p
  let (held, free) := (bitmapPages [m.cur]).partition (isPinned pins)
  .next (if !m.on || !m.begun then s
    else free.foldl (copyPage m.dest)
      (modMigr p (fun m => { m with older := m.old, old := m.cur, cur := [], pass := m.pass + 1,
                                    skipped := held.foldl (fun c p => cset false p true c) m.skipped }) s))

/-- Pages that are not settled (R73): a page is settled when its bit is clear in the generation closed at the end of the pass
after the one that copied it, so that the last two generations closed hold those that are not, once there are two. -/
def unsettled (s : State) (part : Nat) : List Nat :=
  let m := migrOf s part
  if m.pass < 2 then partPages s part else bitmapPages [m.old, m.older]

/-- A leaf of a block that migration copies: it names the destination, and DIRTY is clear (R74, R118). -/
def movedLeaf (pkg dest l : Nat) : Nat :=
  if leafPkg l = pkg then l - b2n (l.testBit 61) * 2 ^ 61 - leafPkg l * 2 ^ 47 + dest % 1024 * 2 ^ 47 else l

/-- Step 3 of R74: the pages left, and the partition's blocks, tables and cursors of the KV space with their entries. -/
def copyRest (part : Nat) (s : State) : State :=
  let m := migrOf s part
  let pins := pinnedPages s part
  let pages := (unsettled s part ++ bitmapPages [m.cur, m.skipped] ++ (partPages s part).filter (isPinned pins)).eraseDups
  let s := pages.foldl (copyPage m.dest) s
  (blocksOf s part).foldl (fun s c =>
    copyRange m.dest (s.stage2 + 16 * c.block) 16 (copyRange m.dest c.addr c.bytes s)) s

/-- Steps 3 to 5 of R74 on the source package; step 6 belongs to the destination (log 67). The first-stage leaves are rewritten
before the tables that hold them are copied, so that those of the destination name it. -/
def leavePackage (part : Nat) (s : State) : State :=
  let s := (List.range 4).foldl (fun s die => after (foldShadows die part s) s) s
  let s := revokeTables part (copyRest part (editLeaves part (movedLeaf s.pkg (migrOf s part).dest) s))
  let s := { s with jobs := s.jobs.map (fun p => if p.2.part = part then (p.1, { p.2 with live := false }) else p),
                    queues := ckeep (fun k => k / 256 != part) s.queues,
                    migr := cset Migration.none part Migration.none s.migr,
                    clusterOwner := s.clusterOwner.filter (fun p => p.2.toNat != part) }
  modPart part (fun p => { p with live := false, ready := false }) s

/-- The stop phase: every hart is pre-empted (R252) and KV controllers are drained; then the partition leaves. What cannot
be stopped yet keeps the phase due. -/
def stopPhase (part : Nat) (s : State) : State :=
  let s := (partJobs s part).foldl (fun s j => if (jobOf s j).parked then s else switchOff j s) s
  if (partJobs s part).any (fun j => !(jobOf s j).parked) || kvMoving s part then
    modMigr part (fun m => { m with stopping := true }) s
  else leavePackage part s

/-- MIGRATION_STOP_PHASE: passes end when fewer pages than the threshold are not settled. -/
def execMigrationStopPhase (part : BitVec 7) (dest : BitVec 10) (s : State) : Out :=
  let p := part.toNat
  let m := migrOf s p
  .next (if m.on && m.begun && m.dest == dest.toNat && decide ((unsettled s p).length < m.threshold) then stopPhase p s else s)

/-- What root firmware has begun and could not finish goes on: pass 0, stop phases, teardowns. -/
def rootTurn (s : State) : State :=
  let s := (s.migr.map (fun p => p.1)).foldl (fun s p =>
    if (migrOf s p).stopping then stopPhase p s else passZero p s) s
  ((s.parts.filter (fun p => p.2.live && p.2.closing)).map (fun p => p.1)).foldl (fun s p => teardown p s) s

/-! ## HDM decoders (R38, R439) -/

/-- A decoder inside the CXL window, with the ways and granularities of R38. -/
def hdmSpecOk (r : HdmSpec) : Bool :=
  decide (0x60000000000 ≤ r.base.toNat) && decide (r.base.toNat + r.bytes ≤ 0x80000000000) &&
  [1, 2, 4, 8].contains r.ways && [256, 4096].contains r.gran

/-- HDM_DECODER_PROGRAM: at most eight decoders. -/
def execHdmDecoderProgram (decoders : List HdmSpec) (s : State) : Out :=
  .next (if !s.boot.imageOnly && decide (decoders.length ≤ 8) && decoders.all hdmSpecOk then
    { s with hdm := decoders.map (fun r => { base := r.base.toNat, bytes := r.bytes, ways := r.ways, gran := r.gran }) } else s)

/-! ## Boot (R274 to R276) -/

/-- An image's key is the vendor's, whose hash the fuses hold, and its signature verifies (R7, R274; log 8). -/
def imageOk (fuse : BitVec 256) (i : SignedImage) : Bool :=
  digestNum (sha256 (keyBytes i.keyX i.keyY)) == fuse && ecdsaVerify i.keyX i.keyY (digestNum (sha256 i.bytes)) i.r i.s

/-- The reason of the first check or training that fails, 0 when none does. -/
def bootReason (fuse : BitVec 256) (minimal : Bool) (b : BootIn) : Nat :=
  if !imageOk fuse b.root then 1
  else if !b.images.all (imageOk fuse) then 2
  else if !b.diesOk then 3
  else if !minimal && !b.ucieOk then 4
  else if !minimal && !b.t1Ok then 5
  else if !minimal && !b.t2Ok then 6
  else if (if minimal then !b.bist.getLsbD 0 else b.bist != 15) then 7
  else 0

def pushReason (r code : Nat) : BitVec 24 := BitVec.ofNat 24 (r * 256 + code)

/-- In minimal mode no link but the Tammas link is available (R275). -/
def bootLinks (minimal : Bool) : Cells Link :=
  if minimal then (List.range 9).map (fun k => (k + 1, { Link.reset with trained := false })) else []

/-- The second-stage table is laid out in partition 127's tier 1 (R119). -/
def stage2Ok (b : BootIn) : Bool :=
  b.stage2.toNat % 16 == 0 && decide (b.stage2.toNat + 16 * b.stage2Entries ≤ 0x2000000000) &&
  !rangesMeet (b.stage2.toNat, 16 * b.stage2Entries) (tableBase, tablesEnd - tableBase)

/-- BOOT: the device starts from its reset state; what is non-volatile stays. The ROM raises the failed-start count, and
ready clears it. A start that begins with a count of 3 is in minimal mode, whose count only the host clears (R275). A start
that passes its checks but is not in time is neither ready nor failed until BOOT_READY_TIMEOUT. -/
def execBoot (b : BootIn) (s : State) : Out :=
  let o := s.boot
  let minimal := decide (3 ≤ o.failCount)
  let code := bootReason o.fuse minimal b
  let ok := decide (code = 0)
  let ready := ok && b.inTime
  let boot : BootSt :=
    { fuse := o.fuse, resetAt := s.ticks, failCount := if minimal then 3 else if ready then 0 else o.failCount + 1,
      bootId := o.bootId + 1, minimal := minimal,
      fails := min o.failCount 255, bist := if code = 0 ∨ code = 7 then (if minimal then b.bist &&& 1 else b.bist) else 0,
      reason := if ok then o.reason else pushReason o.reason.toNat code, ready := ready,
      imageOnly := minimal && code == 1, failed := !ok }
  .next { State.reset with ticks := s.ticks, fresh := s.fresh, inbox := s.inbox, turn := s.turn, plan := s.plan, pkg := s.pkg,
                            links := bootLinks minimal, boot := boot, stage2 := b.stage2.toNat,
                            stage2Entries := if ok && stage2Ok b then b.stage2Entries else 0 }

/-- BOOT_READY_TIMEOUT: a start that has neither become ready nor failed counts as failed; the ROM has raised the count. -/
def execBootReadyTimeout (s : State) : Out :=
  let o := s.boot
  .next (if o.ready || o.failed then s
    else { s with boot := { o with reason := pushReason o.reason.toNat 8, failed := true } })

/-- FAILED_START_CLEAR: the host's request in minimal mode. -/
def execFailedStartClear (s : State) : Out :=
  .next (if s.boot.minimal && !s.boot.imageOnly then { s with boot := { s.boot with failCount := 0 } } else s)

/-- FIRMWARE_IMAGE_LOAD: an image over the Tammas link; one with the vendor's signature ends the state in which the device
accepts nothing else. -/
def execFirmwareImageLoad (image : SignedImage) (s : State) : Out :=
  .next (if s.boot.imageOnly && (linkOf s 0).trained && imageOk s.boot.fuse image then
    { s with boot := { s.boot with imageOnly := false } } else s)

end Sys2Proof.Machine
end

