-- ==== Sys2Proof/Machine/Scalar.lean ====
section
/-! DEFINITION. Scalar integer arithmetic and immediates (R320 to R324). -/

namespace Sys2Proof.Machine

/-- An SR instruction of R320: `f` computes on the operands at the width of the form (R321); the result of .w is
sign-extended. -/
def alu (w : Bool) (f : Nat → Nat → Nat → Nat × Fl) (d a b : Reg) (s : State) : Out :=
  let n := if w then 32 else 64
  let (x, fl) := f n ((gGet a s).toNat % 2 ^ n) ((gGet b s).toNat % 2 ^ n)
  .next (retire 4 (addFl fl (setG d (BitVec.ofInt 64 (signed n x)) s)))

def execAdd (w : Bool) (d a b : Reg) (s : State) : Out := alu w addOp d a b s
def execSub (w : Bool) (d a b : Reg) (s : State) : Out := alu w subOp d a b s
def execAnd (w : Bool) (d a b : Reg) (s : State) : Out := alu w (fun _ x y => (x &&& y, 0)) d a b s
def execOr (w : Bool) (d a b : Reg) (s : State) : Out := alu w (fun _ x y => (x ||| y, 0)) d a b s
def execXor (w : Bool) (d a b : Reg) (s : State) : Out := alu w (fun _ x y => (x ^^^ y, 0)) d a b s
def execShl (w : Bool) (d a b : Reg) (s : State) : Out := alu w (fun n x y => (shlOp n x y, 0)) d a b s
def execShr (w : Bool) (d a b : Reg) (s : State) : Out := alu w (fun n x y => (shrOp n x y, 0)) d a b s
def execSar (w : Bool) (d a b : Reg) (s : State) : Out := alu w (fun n x y => (sarOp n x y, 0)) d a b s
def execMul (w : Bool) (d a b : Reg) (s : State) : Out := alu w mulOp d a b s
def execMulh (u w : Bool) (d a b : Reg) (s : State) : Out := alu w (fun n x y => (mulhOp u n x y, 0)) d a b s
def execDiv (u w : Bool) (d a b : Reg) (s : State) : Out := alu w (fun n x y => (intDivRem u n x y).1) d a b s
def execRem (u w : Bool) (d a b : Reg) (s : State) : Out := alu w (fun n x y => (intDivRem u n x y).2) d a b s
def execMin (u w : Bool) (d a b : Reg) (s : State) : Out := alu w (fun n x y => (minOp u n x y, 0)) d a b s
def execMax (u w : Bool) (d a b : Reg) (s : State) : Out := alu w (fun n x y => (maxOp u n x y, 0)) d a b s
def execSlt (u w : Bool) (d a b : Reg) (s : State) : Out :=
  alu w (fun n x y => (b2n (decide (asInt u n x < asInt u n y)), 0)) d a b s
def execClz (w : Bool) (d a : Reg) (s : State) : Out := alu w (fun n x _ => (n - bitLen x, 0)) d a 0 s
def execCtz (w : Bool) (d a : Reg) (s : State) : Out := alu w (fun n x _ => (ctzOp n x, 0)) d a 0 s
def execPopc (w : Bool) (d a : Reg) (s : State) : Out := alu w (fun n x _ => (popcount n x, 0)) d a 0 s
def execExt (u w : Bool) (d a b : Reg) (s : State) : Out := alu w (fun n x y => (extOp u n x y, 0)) d a b s

/-- An SI instruction of R324 on 64 bits with the widened immediate `y`. -/
def aluImm (f : Nat → Nat → Nat → Nat × Fl) (y : Word) (d a : Reg) (s : State) : Out :=
  let (x, fl) := f 64 (gGet a s).toNat y.toNat
  .next (retire 4 (addFl fl (setGNat d x s)))

def execAddi (d a : Reg) (imm : BitVec 14) (s : State) : Out := aluImm addOp (imm.signExtend 64) d a s
def execAndi (d a : Reg) (imm : BitVec 14) (s : State) : Out :=
  aluImm (fun _ x y => (x &&& y, 0)) (imm.zeroExtend 64) d a s
def execOri (d a : Reg) (imm : BitVec 14) (s : State) : Out :=
  aluImm (fun _ x y => (x ||| y, 0)) (imm.zeroExtend 64) d a s
def execXori (d a : Reg) (imm : BitVec 14) (s : State) : Out :=
  aluImm (fun _ x y => (x ^^^ y, 0)) (imm.zeroExtend 64) d a s
def execShli (d a : Reg) (sh : BitVec 6) (s : State) : Out :=
  aluImm (fun n x y => (shlOp n x y, 0)) (sh.zeroExtend 64) d a s
def execShri (d a : Reg) (sh : BitVec 6) (s : State) : Out :=
  aluImm (fun n x y => (shrOp n x y, 0)) (sh.zeroExtend 64) d a s
def execSari (d a : Reg) (sh : BitVec 6) (s : State) : Out :=
  aluImm (fun n x y => (sarOp n x y, 0)) (sh.zeroExtend 64) d a s
def execSlti (d a : Reg) (imm : BitVec 14) (s : State) : Out :=
  aluImm (fun n x y => (b2n (decide (signed n x < signed n y)), 0)) (imm.signExtend 64) d a s

/-- LIH (R324): sext(imm19) << 13. -/
def execLih (d : Reg) (imm : BitVec 19) (s : State) : Out :=
  .next (retire 4 (setG d (imm.signExtend 64 <<< 13) s))

end Sys2Proof.Machine
end

