-- ==== Sys2Proof/Machine/ScalarFp.lean ====
section
/-! DEFINITION. Scalar floating point (R325 to R328). -/

namespace Sys2Proof.Machine

/-- A scalar FP instruction writes its code with zeros above it and raises its flags. -/
def fpDone (d : Reg) (r : Nat × Fl) (s : State) : Out := .next (retire 4 (addFl r.2 (setGNat d r.1 s)))

def execFadd (t rnd : BitVec 2) (d a b : Reg) (s : State) : Out :=
  fpDone d (faddOp (sfmt t) rnd.toNat false (sval t (gGet a s)) (sval t (gGet b s))) s
def execFsub (t rnd : BitVec 2) (d a b : Reg) (s : State) : Out :=
  fpDone d (fsubOp (sfmt t) rnd.toNat false (sval t (gGet a s)) (sval t (gGet b s))) s
def execFmul (t rnd : BitVec 2) (d a b : Reg) (s : State) : Out :=
  fpDone d (fmulOp (sfmt t) rnd.toNat false (sval t (gGet a s)) (sval t (gGet b s))) s
def execFdiv (t rnd : BitVec 2) (d a b : Reg) (s : State) : Out :=
  fpDone d (fdivOp (sfmt t) rnd.toNat false (sval t (gGet a s)) (sval t (gGet b s))) s
def execFsqrt (t rnd : BitVec 2) (d a : Reg) (s : State) : Out :=
  fpDone d (fsqrtOp (sfmt t) rnd.toNat false (sval t (gGet a s))) s
/-- FMA (R326): c is the register that d names. -/
def execFma (t rnd : BitVec 2) (d a b : Reg) (s : State) : Out :=
  fpDone d (fmaOp (sfmt t) rnd.toNat false (sval t (gGet a s)) (sval t (gGet b s)) (sval t (gGet d s))) s
def execFmin (t : BitVec 2) (d a b : Reg) (s : State) : Out :=
  fpDone d (fminOp (sfmt t) (sval t (gGet a s)) (sval t (gGet b s))) s
def execFmax (t : BitVec 2) (d a b : Reg) (s : State) : Out :=
  fpDone d (fmaxOp (sfmt t) (sval t (gGet a s)) (sval t (gGet b s))) s
def execFcmp (cond t : BitVec 2) (d a b : Reg) (s : State) : Out :=
  let r := fcmpOp cond.toNat (sval t (gGet a s)) (sval t (gGet b s))
  fpDone d (b2n r.1, r.2) s
def execFcvt (dst src rnd : BitVec 2) (d a : Reg) (s : State) : Out :=
  fpDone d (fcvtOp dst src rnd.toNat (gGet a s)) s

end Sys2Proof.Machine
end

