-- ==== Sys2Proof/Machine/Stats.lean ====
section
/-! DEFINITION. Statistics instructions (R148, R399, R400) and the long recurrence (R254 to R256, R401, R402). -/

namespace Sys2Proof.Machine

/-! ## SRREAD, SRRESET and SRBIND -/

/-- A record as the reading die sees it (R154), as a number of 128 bytes. Its zero fields read as zero (R147). -/
def seenRecord (s : State) (die part i : Nat) : Nat :=
  let a := recAddr s part i
  let sh := cget Shadow.empty (shadowKey die part i) s.shadows
  let word (off n : Nat) (f : Nat → Nat) : List Byte := toBytes n (f (rawRead s (a + off) n))
  let bin (b : Nat) : List Byte := word (0x20 + 3 * b) 3 (fun x => min (x + cget 0 b sh.bins) (2 ^ 24 - 1))
  ofBytes (word 0 4 (fun x => max x sh.absmax) ++ word 4 4 id ++ word 8 8 (fun x => (x + sh.count) % 2 ^ 64) ++
    word 0x10 4 (fun x => min (x + sh.nans) (2 ^ 32 - 1)) ++ word 0x14 4 (fun x => min (x + sh.infs) (2 ^ 32 - 1)) ++
    word 0x18 4 (fun x => x % 2 ^ 15) ++ toBytes 4 0 ++ (List.range 32).flatMap bin)

def perfSrread (vd gb : Reg) : Perform := fun e s =>
  let part := (me s).part.toNat
  let i := cg e.ctx gb
  if !recPresent s part i then noRecord e i s
  else withRecord e i (fun s =>
    let r := seenRecord s (dieNo s.cur) part i
    .done ((List.range 32).foldl (fun s j => setVElem vd.toNat 0 j 32 (bitsOf r (32 * j) 32) s) s)) s

/-- The format codes that a record may have (R147). -/
def recFmtOk (f : Nat) : Bool := decide (f ≤ 8) || f == 10 || f == 11

/-- R148: the home record starts anew, written by the anemometer of the die, and every die's shadow of it is discarded. -/
def resetRecord (by' part i ctl : Nat) (s : State) : State :=
  let a := recAddr s part i
  let gen := (rawRead s (a + 4) 4 + 1) % 2 ^ 32
  let s := recWrite by' a 4 0 s
  let s := recWrite by' (a + 4) 4 gen s
  let s := recWrite by' (a + 8) 16 0 s
  let s := recWrite by' (a + 0x18) 8 ctl s
  let s := recWrite by' (a + 0x20) 96 0 s
  (List.range 4).foldl (fun s die =>
    { s with shadows := cset Shadow.empty (shadowKey die part i) Shadow.empty s.shadows }) s

/-- The anemometer of the hart's die writes the record, or its denial is ACCESS at element 0 and nothing is written (R34). -/
def perfSrreset (gb ga : Reg) : Perform := fun e s =>
  let die := dieNo s.cur
  let part := (me s).part.toNat
  let i := cg e.ctx gb
  match recAllowed die part i true i s with
  | .ok _ s => .done (resetRecord die part i (cg e.ctx ga % 2 ^ 13) s)
  | .bad f s => stopAt e 0 f { noStream with fstream := 1 } s
  | .wait s => .block e none s

/-- The range [o, o + n) meets a slot other than `slot`. -/
def bindClash (c : Core) (slot o n : Nat) : Bool :=
  c.srbind.any (fun p => p.1 != slot && decide (o < p.2.1 + p.2.2.1 ∧ p.2.1 < o + n))

/-- The status of SRBIND. Where several of R400's hold, a length of 0 is taken first, then its list's order (the model's choice,
log 90). -/
def srbindStatus (s : State) (slot o n r : Nat) : Nat :=
  let c := coreOf s (coreNo s.cur)
  if n = 0 then 0
  else if bindClash c slot o n then 1
  else if pwScru c.pword * 65536 < o + n then 2
  else if !recPresent s (me s).part.toNat r then 3
  else 0

def perfSrbind (d : Reg) (slot : BitVec 2) (ga gb gc : Reg) : Perform := fun e s =>
  let o := cg e.ctx ga
  let n := cg e.ctx gb
  let st := srbindStatus s slot.toNat o n (cg e.ctx gc)
  let v := if n = 0 then (0, 0, 0) else (o, n, cg e.ctx gc)
  let s := if st ≠ 0 then s
    else modCore (coreNo s.cur) (fun c => { c with srbind := cset (0, 0, 0) slot.toNat v c.srbind }) s
  toG d st s

def execSrread (vd gb : Reg) (s : State) : Out :=
  .next (issueV { Check.none with dst := [vd] } (.srread vd gb) (perfSrread vd gb) s)

def execSrreset (gb ga : Reg) (s : State) : Out :=
  let v := (gGet ga s).toNat
  let bad := decide (2 ^ 13 ≤ v) || !recFmtOk (bitsOf v 8 4) || !recPresent s (me s).part.toNat (gGet gb s).toNat
  .next (issueV { Check.none with bad := bad } (.srreset gb ga) (perfSrreset gb ga) s)

/-- Offset and length that are no multiples of 64 are refused at push (log 19). -/
def execSrbind (d : Reg) (slot : BitVec 2) (ga gb gc : Reg) (s : State) : Out :=
  let bad := (gGet ga s).toNat % 64 != 0 || (gGet gb s).toNat % 64 != 0
  .next (issueV { Check.none with bad := bad } (.srbind d slot ga gb gc) (perfSrbind d slot ga gb gc) s)

/-! ## LCONV (R254 to R256) -/

def Carry.zero : Carry := { hi := 0, lo := 0, cf := 0 }

def carryOf (x : Hart) (k : Nat) : Carry := cget Carry.zero k x.r.carries
def setCarry (k : Nat) (c : Carry) (s : State) : State :=
  modMe (fun x => { x with r := { x.r with carries := cset Carry.zero k c x.r.carries } }) s

def isInfCode (f : FFmt) (x : Nat) : Bool := (decodeF f x).isInf

/-- R256: a carry of another format is rounded to F. -/
def carryTo (f : BitVec 2) (rnd : Nat) (sat : Bool) (c : Carry) : Carry × Fl :=
  if c.cf = f.toNat then (c, 0)
  else
    let src := f012 (BitVec.ofNat 2 c.cf)
    let h := convertV (f012 f) rnd sat (decodeF src c.hi)
    let l := convertV (f012 f) rnd sat (decodeF src c.lo)
    ({ hi := h.1, lo := if isInfCode (f012 f) h.1 then 0 else l.1, cf := f.toNat }, h.2 ||| l.2)

/-- One time step: the new carry, y, and flags. -/
def lconvStep (comp : Bool) (f : FFmt) (cf rnd : Nat) (sat : Bool) (a b c x : Val) (hi lo : Nat) : Carry × Nat × Fl :=
  let p := mulV a (decodeF f hi)
  let q := mulV a (decodeF f lo)
  let r := mulV b x
  let w := sumV rnd [p.1, q.1, r.1]
  let fl := p.2 ||| q.2 ||| r.2 ||| w.2
  let h := roundV f rnd sat w.1
  let fin := match w.1 with
    | .fin .. => true
    | _ => false
  let hi' := if fin then h else ((roundV f rnd false w.1).1, 0)
  let lo' : Nat × Fl :=
    if fin && comp && !isInfCode f hi'.1 then roundV f 0 sat (sumV 0 [w.1, (decodeF f hi'.1).neg]).1 else (0, 0)
  let y := finishF f rnd sat (mulV c (sumV rnd [decodeF f hi'.1, decodeF f lo'.1]).1)
  ({ hi := hi'.1, lo := lo'.1, cf := cf }, y.1, fl ||| hi'.2 ||| lo'.2 ||| y.2)

/-- Coefficients of row k, read once: `kept` is 1 + the row, the three codes and the flags of their reads. -/
def lconvCoefs (e : QEntry) (fmt : BitVec 2) (rnd : Nat) (sat : Bool) (vb : Reg) (k : Nat) (kept : List Nat) (s : State) :
    MR (List Nat) :=
  if kept.getD 0 0 = k + 1 then .ok kept s
  else
    let rd (i : Nat) (s : State) : MR (Nat × Fl) := srcElem e.ctx vb (.flt fmt.toNat rnd sat) k i s
    mbind (rd 0 s) fun a s => mbind (rd 1 s) fun b s => mbind (rd 2 s) fun c s =>
      .ok [k + 1, a.1, b.1, c.1, (a.2 ||| b.2 ||| c.2).toNat] s

def perfLconv (comp : Bool) (fmt rnd : BitVec 2) (sat : Bool) (vd va vb : Reg) (mr : Idx3) : Perform := fun e s =>
  let c := e.ctx
  let f := f012 fmt
  keepLoop e [va, vb] (fun k t kept s =>
      mbind (lconvCoefs e fmt rnd.toNat sat vb k kept s) fun kept s =>
        mbind (srcElem c va (.flt fmt.toNat rnd.toNat sat) k t s) fun x s =>
          let cy := carryTo fmt rnd.toNat sat (carryOf (me s) k)
          let mark := mr != 0 && mBit (me s) mr.toNat k t
          let hi := if mark then 0 else cy.1.hi
          let lo := if mark || !comp then 0 else cy.1.lo
          let v (i : Nat) : Val := decodeF f (kept.getD i 0)
          let r := lconvStep comp f fmt.toNat rnd.toNat sat (v 1) (v 2) (v 3) (decodeF f x.1) hi lo
          .ok kept (addFl (r.2.2 ||| x.2 ||| cy.2 ||| BitVec.ofNat 7 (kept.getD 4 0))
            (setVElem vd.toNat k t (f012Bits fmt) r.2.1 (setCarry k r.1 s))))
    (fun _ s => .done (consume [va, vb] s)) (tileOf c (List.range c.rc)) e.kept s

/-! ## LCSTATE (R402), which ignores VL -/

def perfLcstateGet (fmt rnd : BitVec 2) (vd : Reg) : Perform := fun e s =>
  .done ((List.range e.ctx.rc).foldl (fun s k =>
    let cy := carryOf (me s) k
    let src := f012 (BitVec.ofNat 2 cy.cf)
    let h := convertV (f012 fmt) rnd.toNat false (decodeF src cy.hi)
    let l := convertV (f012 fmt) rnd.toNat false (decodeF src cy.lo)
    addFl (h.2 ||| l.2)
      (setVElem vd.toNat k 1 (f012Bits fmt) l.1 (setVElem vd.toNat k 0 (f012Bits fmt) h.1 s))) s)

/-- Elements 0 and 1 of every row, by sweep pairs. -/
def perfLcstatePut (fmt : BitVec 2) (va : Reg) : Perform := fun e s =>
  readThen e va (.flt fmt.toNat 0 false) ((List.range e.ctx.rc).flatMap (fun k => [(k, 0), (k, 1)])) (fun xs s =>
    .done ((List.range e.ctx.rc).foldl (fun s k =>
      let h := xs.getD (2 * k) (0, 0)
      let l := xs.getD (2 * k + 1) (0, 0)
      addFl (h.2 ||| l.2) (setCarry k { hi := h.1, lo := l.1, cf := fmt.toNat } s)) s)) s

def perfLcstateZero : Perform := fun _ s => .done (modMe (fun x => { x with r := { x.r with carries := [] } }) s)

def execLconv (comp : Bool) (fmt rnd : BitVec 2) (sat : Bool) (vd va vb : Reg) (mr : Idx3) (s : State) : Out :=
  .next (issueV { Check.none with width := f012Bits fmt, dst := [vd], noOverlap := [vb] }
    (.lconv comp fmt rnd sat vd va vb mr) (perfLconv comp fmt rnd sat vd va vb mr) s)

def execLcstateGet (fmt rnd : BitVec 2) (vd : Reg) (s : State) : Out :=
  .next (issueV { Check.none with dst := [vd] } (.lcstateGet fmt rnd vd)
    (perfLcstateGet fmt rnd vd) s)
def execLcstatePut (fmt : BitVec 2) (va : Reg) (s : State) : Out :=
  .next (issueV Check.none (.lcstatePut fmt va) (perfLcstatePut fmt va) s)
def execLcstateZero (s : State) : Out := .next (issueV Check.none .lcstateZero perfLcstateZero s)

end Sys2Proof.Machine
end

