-- ==== Sys2Proof/Machine/Agents.lean ====
section
/-! DEFINITION. What each agent does in its turn: a core's lane arbiter (R204 to R206, R212, R220), its copy engine, the
command complex, and a hart's scalar unit up to the instruction that it performs; and whose turn is next (log 3). -/

namespace Sys2Proof.Machine

/-- The state an outcome gives, or the one before it. -/
def outState (o : Out) (s : State) : State :=
  match o with
  | .next s => s
  | .fault _ => s
  | .refused _ => s

/-! ## The queues of a hart -/

/-- The meaning of a queued instruction that has reached its unit. -/
def perfQueued (i : Instr) : Perform :=
  match i with
  | .mpopc d ma => perfMpopc d ma
  | .mpopcQ q ma => perfMpopcQ q ma
  | .mfirst d ma => perfMfirst d ma
  | .mfirstQ q ma => perfMfirstQ q ma
  | .vget u ew d va gb => perfVget u ew d va gb
  | .vgetQ u ew q va gb => perfVgetQ u ew q va gb
  | .vput ew vd ga gb => perfVput ew vd ga gb
  | .vred o => perfVred o
  | .vredQ o => perfVredQ o
  | .vwait cond ew ga gc form mask => perfVwait cond ew ga gc form mask
  | .vbind vd ga slot => perfVbind vd ga slot
  | .vunbind vd => perfVunbind vd
  | .lrun q dims => perfLrun q dims
  | .mattach d => perfMattach d
  | .mdetach => perfMdetach
  | .mtile t r c => perfMtile t r c
  | .mtileOff t => perfMtileOff t
  | .mclr t => perfMclr t
  | .mpredRows gb => perfMpredRows gb
  | .mpredCols gb => perfMpredCols gb
  | .mpredK gb => perfMpredK gb
  | .mpredRowm ma => perfMpredRowm ma
  | .mpredColm ma => perfMpredColm ma
  | .mpredAll => perfMpredAll
  | .mksum mc t fa fb rnd ga gb gc => perfMksum mc t fa fb rnd ga gb gc
  | .mlineRrow o => perfMlineRrow o
  | .mlineRcol o => perfMlineRcol o
  | .mlineWrow o => perfMlineWrow o
  | .mlineWcol o => perfMlineWcol o
  | .mlineSt o => perfMlineSt o
  | .mlineLd o => perfMlineLd o
  | .mdrain z o => perfMdrain z o
  | .mdrainSt z o => perfMdrainSt z o
  | .mgroup d members => perfMgroup d members
  | .kvctxCfg d a _ => perfKvctxCfg d a
  | .kvctxOpen d a _ => perfKvctxOpen d a
  | .kvctxClose d a _ => perfKvctxClose d a
  | .kvctxCb d a b => perfKvctxCb d a b
  | .kvctxPin d a _ => perfKvctxPin d a
  | .kvapp fmt ga vb vc mask => perfKvapp fmt ga vb vc mask
  | .kvld fmt rnd sat vd ga mask row => perfKvld fmt rnd sat vd ga mask row
  | .kvscore fmt vd ga vb mask row => perfKvscore fmt vd ga vb mask row
  | .kvvqsLut vd ga vb vc mask row => perfKvvqsLut vd ga vb vc mask row
  | .kvvqsQ qf vd ga vb mask row => perfKvvqsQ qf vd ga vb mask row
  | .kvacc ga vb mask row => perfKvacc ga vb mask row
  | .kvcomp d a b => perfKvcomp d a b
  | .kvfree a b => perfKvfree a b
  | .srread vd gb => perfSrread vd gb
  | .srreset gb ga => perfSrreset gb ga
  | .srbind d slot ga gb gc => perfSrbind d slot ga gb gc
  | .lconv comp fmt rnd sat vd va vb mr => perfLconv comp fmt rnd sat vd va vb mr
  | .lcstateGet fmt rnd vd => perfLcstateGet fmt rnd vd
  | .lcstatePut fmt va => perfLcstatePut fmt va
  | .lcstateZero => perfLcstateZero
  | .rpush ga vb c => perfRpush ga vb c
  | .rpull vd ga c => perfRpull vd ga c
  | .reos ga => perfReos ga
  | .rstat d ga => perfRstat d ga
  | .rstatReset ga => perfRstatReset ga
  | i => perfBody i

/-- A binding of one row is over. -/
def rowOver (e : QEntry) : QEntry := { e with ctx := { e.ctx with byRow := false } }

def rowsOver : LRes → LRes
  | .done s => .done s
  | .block e why s => .block (rowOver e) why s
  | .fault e p s => .fault (rowOver e) p s

/-- MDRAIN in a convoy of the vector queue reads what the matrix queue's instructions before it leave (R212, R390). -/
def isDrain : Instr → Bool
  | .mdrain .. => true
  | _ => false

/-- The instructions that a binding of the vector queue's head performs are those of a convoy with an MDRAIN. -/
def drainsNext (x : Hart) : Bool := (firstConvoy x.vq).1.any (fun e => e.ctx.conv != 0 && isDrain e.instr)

/-- A hart that was attached when it was pre-empted attaches again (R383), when the unit has room. -/
def reattach (s : State) : State :=
  let l := attachedOf s (clusterNo s.cur)
  if 0 < (me s).mgrant then modMe (fun x => { x with reattach := false }) s
  else if 4 ≤ l.length ∨ mrows s = 0 then s
  else divideRows (l ++ [s.cur]) (modMe (fun x => { x with reattach := false }) s)

/-- The head of the vector queue, or the convoy that it begins, is bound for one row (R205, R217). -/
def stepV (s : State) : State :=
  let s := if (me s).reattach && drainsNext (me s) then reattach s else s
  match (me s).vq with
  | [] => s
  | e :: rest =>
    if e.ctx.conv ≠ 0 then (if (me s).reattach && drainsNext (me s) then s else stepConvoy perfQueued true s)
    else afterV (rowsOver (perfQueued e.instr { e with ctx := { e.ctx with byRow := true } } s)) rest

/-- The head of the matrix queue makes a step. -/
def stepM (s : State) : State :=
  let s := if (me s).reattach then reattach s else s
  match (me s).mq with
  | [] => s
  | e :: rest => if (me s).reattach then s else afterM (perfQueued e.instr e s) rest

/-- Whether the heads are what they were: the head did not move. -/
def sameV (x y : Hart) : Bool := decide (x.vq.length = y.vq.length) && decide (x.vq.head? = y.vq.head?)
def sameM (x y : Hart) : Bool := decide (x.mq.length = y.mq.length) && decide (x.mq.head? = y.mq.head?)

/-- The head of the vector queue may pass the older entries of the matrix queue: none of them uses a register that the
vector queue's instructions use (R212). -/
def vMayPass (x : Hart) : Bool :=
  match x.vq with
  | [] => false
  | e :: _ => x.mq.all (fun m => decide (e.ctx.seq < m.ctx.seq) || (!touchesSaved m.instr && !drainsNext x))

/-- The head of the matrix queue may pass older entries of the vector queue. -/
def mMayPass (x : Hart) : Bool :=
  match x.mq with
  | [] => false
  | m :: _ => x.vq.all (fun e => decide (m.ctx.seq < e.ctx.seq) || (!touchesSaved m.instr && !isDrain e.instr))

/-- The older of the two heads makes a step; when it cannot move, the other does if it may (R211, R212). -/
def stepQueues (s : State) : State :=
  let x := me s
  match x.vq, x.mq with
  | [], [] => s
  | _ :: _, [] => stepV s
  | [], _ :: _ => stepM s
  | e :: _, m :: _ =>
    if e.ctx.seq < m.ctx.seq then
      let t := stepV s
      if sameV x (me t) && (me t).pend.isNone && mMayPass (me t) then stepM t else t
    else
      let t := stepM s
      if sameM x (me t) && (me t).pend.isNone && vMayPass (me t) then stepV t else t

/-- The stall of a vector queue's head is counted, and takes QUEUEHANG imprecisely (R210). -/
def countStallV (before : Hart) (s : State) : State :=
  let x := me s
  match x.stallV with
  | none => if x.stalledV = 0 then s else modMe (fun x => { x with stalledV := 0 }) s
  | some p =>
    if !sameV before x then modMe (fun x => { x with stalledV := 0 }) s
    else if hangTurns ≤ x.stalledV + 1 then setPend s.cur p (modMe (fun x => { x with stalledV := 0 }) s)
    else modMe (fun x => { x with stalledV := x.stalledV + 1 }) s

/-- The same of the matrix queue's head. -/
def countStallM (before : Hart) (s : State) : State :=
  let x := me s
  match x.stallM with
  | none => if x.stalledM = 0 then s else modMe (fun x => { x with stalledM := 0 }) s
  | some p =>
    if !sameM before x then modMe (fun x => { x with stalledM := 0 }) s
    else if hangTurns ≤ x.stalledM + 1 then setPend s.cur p (modMe (fun x => { x with stalledM := 0 }) s)
    else modMe (fun x => { x with stalledM := x.stalledM + 1 }) s

/-! ## The lane arbiter (R205, R206; log 17) -/

/-- The hart's queues may move: it is resident and running, and has no trap to deliver and no stop to make. -/
def queuesMove (x : Hart) : Bool :=
  (decide (x.run = .running) || decide (x.run = .parked)) && x.pend.isNone && x.entry.isNone && x.dbg.due.isNone &&
    !(x.vq.isEmpty && x.mq.isEmpty)

/-- A head that competes for lane groups. -/
def competes (x : Hart) : Bool := queuesMove x && !x.vq.isEmpty

/-- VGRANT groups, as the head took them at its push (R201), all of the hart's LSET, of those that are free in this step. -/
def pickGroups (x : Hart) (free : List Nat) : Option (List Nat) :=
  let l := free.filter (fun g => x.lset.getLsbD g)
  let n := min ((x.vq.head?.map (fun e => e.ctx.vgrant)).getD x.vgrant) (popcount 8 x.lset.toNat)
  if n ≤ l.length then some (l.take n) else none

/-- Steps after which one of `n` competing heads goes before those that wait less. With at most `n` − 2 others before it, it is
bound after at most 15 steps without a binding, and so once in every 16 (R206). -/
def lanePatience (n : Nat) : Nat := 17 - n

/-- What a binding costs a hart: the inverse of its weight, in units that every weight from 1 to 15 divides. -/
def bindingCost (x : Hart) : Nat := 360360 / max 1 x.weight.toNat

/-- Head a goes before head b: the longer wait once it is due, else the smaller count, the lower number. -/
def goesFirst (n : Nat) (a b : Nat × Hart) : Bool :=
  let due (x : Hart) : Nat := if lanePatience n ≤ x.laneWait then x.laneWait else 0
  decide (due b.2 < due a.2) ||
    (due a.2 == due b.2 && (decide (a.2.credit < b.2.credit) || (a.2.credit == b.2.credit && decide (a.1 < b.1))))

def insertHead (n : Nat) (a : Nat × Hart) : List (Nat × Hart) → List (Nat × Hart)
  | [] => [a]
  | b :: r => if goesFirst n a b then a :: b :: r else b :: insertHead n a r

/-- The competing heads of a core in the order in which they are given groups. -/
def laneOrder (s : State) (core : Nat) : List (Nat × Hart) :=
  let heads := ((List.range 8).map (fun i => (8 * core + i, hartOf s (8 * core + i)))).filter (fun p => competes p.2)
  heads.foldl (fun l p => insertHead heads.length p l) []

/-- The harts that are bound: each has all its groups at once. -/
def bindHeads : List (Nat × Hart) → List Nat → List Nat
  | [], _ => []
  | (h, x) :: r, free =>
    match pickGroups x free with
    | some gs => h :: bindHeads r (free.filter (fun g => !gs.contains g))
    | none => bindHeads r free

/-- The counts of a step: a bound head pays, another one waits, and a hart without a head keeps to the least count of the
others, so that it does not gain by pausing. -/
def countLanes (bound : List Nat) (heads : List (Nat × Hart)) (core : Nat) (s : State) : State :=
  match heads.map (fun p => p.2.credit) with
  | [] => s
  | c :: cs =>
    let least := cs.foldl min c
    (List.range 8).foldl (fun s i =>
      let h := 8 * core + i
      if bound.contains h then modHart h (fun x => { x with credit := x.credit + bindingCost x, laneWait := 0 }) s
      else if heads.any (fun p => p.1 == h) then modHart h (fun x => { x with laneWait := x.laneWait + 1 }) s
      else if (hartOf s h).run = .off then s
      else modHart h (fun x => { x with credit := max x.credit least, laneWait := 0, rowDebt := 0 }) s) s

/-- The matrix queue's head alone makes a step, where it may. -/
def stepMatrix (s : State) : State :=
  let x := me s
  match x.vq, x.mq with
  | _, [] => s
  | [], _ :: _ => stepM s
  | e :: _, m :: _ => if m.ctx.seq < e.ctx.seq || mMayPass x then stepM s else s

/-- Instructions that read or write all rows in one step. -/
def atOnce : Instr → Bool
  | .mpopc .. | .mpopcQ .. | .mfirst .. | .mfirstQ .. | .lcstateGet .. => true
  | _ => false

/-- Row steps for which an instruction, or a convoy, that has performed all its rows in one step still holds its groups: `y` is
the hart after the step, `e` the head before it. -/
def rowsOwed (e : QEntry) (y : Hart) : Nat :=
  let convoyOver := e.ctx.conv != 0 && e.ctx.upto == 0 && !y.vq.any (fun x => x.ctx.conv == e.ctx.conv)
  if (e.ctx.conv == 0 && atOnce e.instr) || convoyOver then e.ctx.rc - 1 else 0

/-- One row step of a bound hart: its head processes one row. -/
def boundStep (s : State) : State :=
  let x := me s
  if 0 < x.rowDebt then stepMatrix (modMe (fun x => { x with rowDebt := x.rowDebt - 1 }) s)
  else
    let t := stepQueues s
    match x.vq with
    | e :: _ => if sameV x (me t) then t else modMe (fun y => { y with rowDebt := rowsOwed e y }) t
    | [] => t

/-- A hart's queues in a row step. -/
def laneStep (bound : List Nat) (h : Nat) (s : State) : State :=
  let x := hartOf s h
  if queuesMove x then
    asHart h (fun s => countStallM x (countStallV x (if bound.contains h then boundStep s else stepMatrix s))) s
  else s

/-- ROW_STEP_BOUNDARY: heads are bound to lane groups and each bound head processes one row; the cluster's matrix rows follow
their bounds (R205, R206, R220). -/
def execRowStepBoundary (core : Nat) (s : State) : Out :=
  let heads := laneOrder s core
  let bound := bindHeads heads (List.range 8)
  .next (regrantRows (core / 4)
    ((List.range 8).foldl (fun s i => laneStep bound (8 * core + i) s) (countLanes bound heads core s)))

/-! ## The copy engine -/

/-- A core's engine completes a command, stops one, or performs one. -/
def engineStep (core : Nat) (s : State) : State :=
  let l := (coreOf s core).cmds
  if l.any (fun c => c.phase == 1) then outState (execCopyCommandComplete core s) s
  else if l.any (fun c => c.phase == 2) then outState (execCopyCommandStop core s) s
  else outState (execCopyCommandRun core s) s

/-! ## The command complex -/

/-- The cores of a partition, in order. -/
def coresOf (s : State) (part : Nat) : List Nat :=
  (List.range 256).filter (fun c => ownerOf s (c / 4) == part)

/-- The cores on which a queue's LAUNCH starts. -/
def launchCores (s : State) (p q : Nat) : List Nat :=
  (chooseCores s p (launchOf (queueOf s p q).pkt) (coresOf s p)).getD []

/-- One step of the packet in progress of a queue, by its type (R263). -/
def packetStep (p q : Nat) (s : State) : State :=
  let pn := BitVec.ofNat 7 p
  let qn := BitVec.ofNat 8 q
  match pktType (queueOf s p q).pkt with
  | 1 => outState (execLaunch pn qn (launchCores s p q) s) s
  | 2 => outState (execCopy pn qn s) s
  | 3 => outState (execSignal pn qn s) s
  | 4 => outState (execWait pn qn s) s
  | 5 => outState (execWriteSignal pn qn s) s
  | 6 => outState (execBarrier pn qn s) s
  | 7 => outState (execMeasure pn qn s) s
  | _ => outState (execReceipt pn qn s) s

/-- The jobs whose harts have all halted complete (R265). -/
def completeJobs (s : State) : State :=
  (s.jobs.filter (fun p => p.2.live)).foldl (fun s p => outState (execJobCompletion p.1 s) s) s

/-- A queue with a packet in progress makes a step. -/
def queueTurn (s : State) (k : Nat) : State :=
  if (queueOf s (k / 256) (k % 256)).active then packetStep (k / 256) (k % 256) s else s

/-- A blocked queue reads its signal. -/
def waitTurn (s : State) (k : Nat) : State :=
  if (queueOf s (k / 256) (k % 256)).state = 4 then
    outState (execWaitSatisfied (BitVec.ofNat 7 (k / 256)) (BitVec.ofNat 8 (k % 256)) s) s
  else s

/-- Every partition's scheduler chooses (R266). -/
def scheduleTurn (s : State) (p : Nat) : State := outState (execStrideSchedule (BitVec.ofNat 7 p) (coresOf s p) s) s

/-- A job whose pre-emption is due goes when its queue has no packet in progress (R268). -/
def dueTurn (s : State) : State :=
  (s.jobs.filter (fun p => p.2.live && p.2.sliceDue && !(queueOf s p.2.part p.2.queue).active)).foldl
    (fun s p => switchOff p.1 s) s

/-- What waited for a link or for an engine's lines goes on: requests from outside, and what queues owe. -/
def settleTurn (s : State) : State :=
  let s := retryWaiting s
  ((s.queues.filter (fun p => p.2.owed || !p.2.bells.isEmpty)).map (fun p => p.1)).foldl
    (fun s k => settleQueue (k / 256) (k % 256) s) s

def sloiskStep (s : State) : State :=
  let s := rootTurn (dueTurn (showEnds (completeJobs (settleTurn s))))
  let s := (s.queues.map (fun p => p.1)).foldl queueTurn s
  let s := (s.queues.map (fun p => p.1)).foldl waitTurn s
  ((s.parts.filter (fun p => p.2.live)).map (fun p => p.1)).foldl scheduleTurn s

/-! ## The scalar unit -/

/-- The g register of a second source. -/
def srcGs : Src2 → List Reg
  | .g r => [r]
  | .v _ => []

/-- The g registers that an instruction reads or writes. -/
def gNames : Instr → List Reg
  | .add _ d a b | .sub _ d a b | .and _ d a b | .or _ d a b | .xor _ d a b | .shl _ d a b | .shr _ d a b | .sar _ d a b
  | .mul _ d a b | .mulh _ _ d a b | .div _ _ d a b | .rem _ _ d a b | .min _ _ d a b | .max _ _ d a b | .slt _ _ d a b
  | .ext _ _ d a b | .fadd _ _ d a b | .fsub _ _ d a b | .fmul _ _ d a b | .fdiv _ _ d a b | .fma _ _ d a b
  | .fmin _ d a b | .fmax _ d a b | .fcmp _ _ d a b | .amoSwap _ d a b | .amoAdd _ d a b | .amoAnd _ d a b
  | .amoOr _ d a b | .amoXor _ d a b | .amoMin _ d a b | .amoMax _ d a b | .cas _ d a b | .markres d a b
  | .tlbinv d a b | .tlbinvMove d a b | .tlbinvWait d a b | .kvctxCfg d a b | .kvctxOpen d a b | .kvctxClose d a b
  | .kvctxCb d a b | .kvctxPin d a b | .kvcomp d a b => [d, a, b]
  | .clz _ d a | .ctz _ d a | .popc _ d a | .addi d a _ | .andi d a _ | .ori d a _ | .xori d a _ | .shli d a _
  | .shri d a _ | .sari d a _ | .slti d a _ | .fsqrt _ _ d a | .fcvt _ _ _ d a | .ldB d a _ | .ldH d a _ | .ldW d a _
  | .ldD d a _ | .ldBu d a _ | .ldHu d a _ | .ldWu d a _ | .jr d a _ | .csrs d a _ | .csrc d a _ | .vsetl _ d a
  | .vsetr d a | .lanes d a | .twait d a | .twaitAny d a | .tfirst d a | .tfirstNw d a | .tclr d a | .rstat d a
  | .addil d a _ | .callfR d a _ => [d, a]
  | .stB a b _ | .stH a b _ | .stW a b _ | .stD a b _ | .beq a b _ | .bne a b _ | .blt a b _ | .bge a b _ | .bltu a b _
  | .bgeu a b _ | .kvfree a b | .srreset a b => [a, b]
  | .lih d _ | .qget d _ | .qstat d _ | .call d _ | .csrr d _ | .mpopc d _ | .mfirst d _ | .mattach d
  | .mgroup d _ | .revst d _ _ | .ldi _ d _ | .callf d _ | .tlbinvAll d => [d]
  | .qput _ a | .csrw a _ | .joinl a | .savev a | .restv a | .revch a | .reos a | .rstatReset a | .lnest _ .cnt a
  | .lnest _ (.stride _) a | .msetLt _ a _ | .kvapp _ a _ _ _ | .kvld _ _ _ _ a _ _ | .kvscore _ _ a _ _ _
  | .kvvqsLut _ a _ _ _ _ | .kvvqsQ _ _ a _ _ _ | .kvacc a _ _ _ | .rpush a _ _ | .rpull _ a _ | .vbind _ a _
  | .mpredRows a | .mpredCols a | .mpredK a | .srread _ a | .vsplat _ _ a _ _ | .vlut _ _ _ _ _ a _ => [a]
  | .lnest _ (.all b) a | .viota _ _ a b _ _ | .vput _ _ a b | .vwait _ _ a b _ _ => [a, b]
  | .vget _ _ d _ b => [d, b]
  | .vgetQ _ _ _ _ b => [b]
  | .mksum _ _ _ _ _ a b c => [a, b, c]
  | .srbind d _ a b c => [d, a, b, c]
  | .vcmp _ _ _ b _ _ _ _ => srcGs b
  | .vadd o | .vsub o | .vmul o | .vfma o | .vdiv o | .vmin o | .vmax o | .vand o | .vor o | .vxor o | .vshl o
  | .vshr o => srcGs o.b
  | .vqnt o | .vqntSc o | .vdqnt _ o => [o.gb]
  | .vred o => [o.d, o.gb]
  | .vredRow o | .vredQ o | .vscan _ o => [o.gb]
  | .vslideUp (.g r) _ _ _ _ | .vslideDn (.g r) _ _ _ _ => [r]
  | .vtopkIdx o | .vtopkKey o | .vtopkMask o => [o.gb]
  | .vld o | .vst o => match o.form with
    | .unit => [o.ga]
    | .strided b => [o.ga, b]
    | .rows b => [o.ga, b]
  | .vldx o | .vstxOrd o | .vstxAny o => [o.ga]
  | .vamo o => [o.ga]
  | .mlineRrow o | .mlineRcol o | .mlineWrow o | .mlineWcol o | .mdrain _ o => [o.gb]
  | .mlineSt o | .mlineLd o | .mdrainSt _ o => [o.ga, o.gb]
  | .cpy o | .cpyFill o | .cpyHash o | .cpyRing o => [o.gd, o.ga, o.gb]
  | .forkl d _ => d :: (List.range 31).map (fun i => BitVec.ofNat 5 (i + 1))
  | _ => []

/-- An instruction that names a g register which a queued instruction will write waits for it (R212): not within a convoy that is
still being pushed, which runs only when it is in the queue whole (R217). -/
def gWaits (x : Hart) (i : Instr) : Bool :=
  let own (e : QEntry) : Bool := decide (0 < x.convLeft) && e.ctx.conv == x.convId
  let l := ((x.vq ++ x.mq).filter (fun e => !own e)).filterMap (fun e => gDest e.instr)
  (gNames i).any (fun r => r != 0 && l.contains r)

def isWait : Instr → Bool
  | .vwait .. => true
  | _ => false

/-- A VWAIT that is not complete holds the scalar unit behind it (R211, R373). -/
def heldByWait (x : Hart) : Bool := x.vq.any (fun e => isWait e.instr)

/-- The enabled breakpoint at an address, the lowest first (R235, R236). -/
def breakAt (d : Debug) (pc : Word) : Option Nat :=
  if d.suppress then none
  else (List.range 4).find? (fun n => d.dctl.getLsbD (4 + n) && d.dbp.getD n 0 == pc)

/-- Parcels for which a detected imprecise trap may wait: at most those of 64 cycles (R226). -/
def deliverAge (s : State) : Nat := min s.runAhead 64

/-- Control parcels that may stand in a captured body: convoy headers (R377). -/
def capturesOver (c : Code) (i : Instr) : Bool :=
  match c with
  | .long _ => true
  | .parcel _ => match i with
    | .convoyHeader .. => true
    | _ => false

/-- What the scalar unit does in a turn: something else than an instruction, or an instruction, which exec performs. -/
inductive Gate where
  | moved (s : State)
  | run (i : Instr) (s : State)

/-- A parcel that is no long instruction ends the convoy that is being pushed: its header's instructions are not all there. -/
def leaveConvoy (c : Code) (s : State) : State :=
  match c with
  | .parcel _ => if 0 < (me s).convLeft then modMe (fun x => { x with convLeft := 0 }) s else s
  | .long _ => s

/-- A fetched word: refused with its reason, kept back, or performed. -/
def gateCode (c : Code) (s : State) : Gate :=
  match decodeCode c with
  | .error e => match c with
    | .parcel _ => .moved (if 0 < (me s).capLeft ∧ e ≠ .badConvoy then abandonCapture false s else illegal e.reason s)
    | .long _ => .moved (if 0 < (me s).capLeft then abandonCapture true s else illegalLong e.reason s)
  | .ok i =>
    if 0 < (me s).capLeft && !capturesOver c i then .moved (abandonCapture false s)
    else if gWaits (me s) i then .moved s
    else .run i (leaveConvoy c s)

/-- The long instruction after which a single step ends is complete (R235). -/
def stepOver (s : State) : Bool :=
  let x := me s
  (x.dbg.stepping == 4 && (x.vq ++ x.mq).all (fun e => decide (x.dbg.stepSeq < e.ctx.seq))) ||
  (x.dbg.stepping == 5 && (cmdsOf s s.cur).all (fun c => c.pc.toNat != x.dbg.stepSeq))

/-- The hart's waiting stores are performed, but in a late turn (R160; log 3). -/
def settleStores (s : State) : State := if s.late then s else drainStores s.cur s

/-- The scalar unit of the current hart up to its next instruction: a debug stop or a trap entry that was held up, a due trap, the
end of a single step, a VWAIT, a breakpoint, and the fetch, in this order. -/
def gate (s : State) : Gate :=
  let s := settleStores s
  let x := me s
  if x.run ≠ .running ∧ x.run ≠ .parked then .moved s
  else match x.dbg.due with
  | some why => .moved (debugStop s.cur why x.pc s)
  | none =>
  if x.run = .parked then .moved (wake s.cur s)
  else match x.entry with
  | some t => .moved (enterTrap s.cur t.flt t.imp t.pc t.lpc t.elem t.vstart t.fs s)
  | none =>
  if x.pend.isSome && (decide (deliverAge s ≤ x.pendAge) || heldByWait x) then .moved (deliver s.cur x.pc s)
  else if stepOver s then .moved (debugStop s.cur 0xFE x.pc s)
  else if heldByWait x then .moved s
  else match breakAt x.dbg x.pc with
    | some n => .moved (preciseAt (mkFlt cBreak 0 (n * 2 ^ 14 + 2 ^ 16)) x.pc 0 s)
    | none =>
      if x.pc.toNat % 4 ≠ 0 then .moved (preciseTrap (misalignFlt x.pc.toNat 2 false false) s)
      else match fetchCode x.pc.toNat s with
        | .ok c s => gateCode c s
        | .bad f s => .moved (preciseTrap f s)
        | .wait s => .moved s

/-- Branches that may name their own address: they are performed though the PC stands. -/
def isBranch : Instr → Bool
  | .beq .. | .bne .. | .blt .. | .bge .. | .bltu .. | .bgeu .. | .jmp _ | .call .. | .jr .. | .callf .. | .callfR ..
  | .bany .. | .ball .. | .bnone .. => true
  | _ => false

def isLong (i : Instr) : Bool :=
  match encode i with
  | some (.long _) => true
  | _ => false

def isTrapCall : Instr → Bool
  | .trap _ | .brk _ => true
  | _ => false

/-- Branches that wait for the vector queue (R337). -/
def isMaskBranch : Instr → Bool
  | .bany .. | .ball .. | .bnone .. => true
  | _ => false

/-- Whether the instruction was performed, and not stalled or trapped. -/
def performed (i : Instr) (before s : State) : Bool :=
  let old := me before
  let new := me s
  (decide (old.pc ≠ new.pc) || (isBranch i && !(isMaskBranch i && busy maskStreams before))) &&
    (old.handler || !new.handler || isTrapCall i) && decide (new.run ≠ .stopped)

def isCopy : Instr → Bool
  | .cpy _ | .cpyFill _ | .cpyHash _ | .cpyRing _ => true
  | _ => false

/-- STEPL waits for the long instruction just pushed: for its queue entry, or for its copy command. -/
def stepLong (i : Instr) (old : Hart) (d : Debug) (ticks : Nat) : Debug :=
  if isCopy i then { d with stepping := 5, stepSeq := old.pc.toNat } else { d with stepping := 4, stepSeq := ticks }

/-- After a performed instruction: it takes no answer over a link any more, breakpoints match again (R342), and a single step
ends, at once or when the long instruction just pushed is complete (R235). -/
def afterPerformed (i : Instr) (old : Hart) (s : State) : State :=
  let s := dropAnswers s.cur (fun r => r.stream == 0 && r.handler == old.handler) s
  let x := me s
  let s := match i with
    | .eret => s
    | _ => modMe (fun x => { x with dbg := { x.dbg with suppress := false } }) s
  if isLong i then
    if x.dbg.stepping = 2 ∨ x.dbg.stepping = 3 then modMe (fun x => { x with dbg := stepLong i old x.dbg s.ticks }) s else s
  else if x.dbg.stepping % 2 = 1 ∧ x.dbg.stepping < 4 then debugStop s.cur 0xFE x.pc s
  else s

/-- The age of a pending trap, and the count of a stall that takes QUEUEHANG (R210, R226). -/
def countTurn (s : State) : State :=
  let s := if (me s).pend.isSome then modMe (fun x => { x with pendAge := x.pendAge + 1 }) s else s
  if (me s).stallS.isNone then s
  else if hangTurns ≤ (me s).stalled + 1 then outState (execQueuehang s.cur s) s
  else modMe (fun x => { x with stalled := x.stalled + 1 }) s

/-- What follows an instruction of the current hart. -/
def afterParcel (i : Instr) (before s : State) : State :=
  countTurn (if performed i before s then afterPerformed i (me before) s else s)

/-! ## Register writes -/

/-- The register that an 8-byte write of the CSR and MMIO region reaches (R17, R36, R262; log 10). -/
def applyRegWrite (a : Nat) (v : Word) (s : State) : State :=
  if a < 0xF0000800000 then outState (execRegisterWrite (BitVec.ofNat 64 a) v s) s
  else if 0xF0010000000 ≤ a ∧ a < 0xF0010410000 then
    let off := (a - 0xF0010000000) % 65536
    if off < 2048 then
      outState (execDoorbell (BitVec.ofNat 7 ((a - 0xF0010000000) / 65536)) (BitVec.ofNat 8 (off / 8)) v s) s
    else s
  else if a = 0xF0030000000 then outState (execActinv v s) s
  else if 0xF0040000000 ≤ a then outState (execRegisterWrite (BitVec.ofNat 64 a) v s) s
  else s

/-! ## Whose turn is next -/

/-- A number for each agent, in the order of their turns. -/
def Turn.rank : Turn → Nat
  | .hart h => h
  | .engine c => 0x100000 + c
  | .lanes c => 0x200000 + c
  | .sloisk => 0x300000

/-- The agents that have something to do, in the order of their turns. -/
def agents (s : State) : List Turn :=
  (s.harts.filter (fun p => decide (p.2.run = .running) || decide (p.2.run = .parked))).map (fun p => .hart p.1) ++
  (s.cores.filter (fun p => !p.2.cmds.isEmpty)).map (fun p => .engine p.1) ++
  (((s.harts.filter (fun p => !(p.2.vq.isEmpty && p.2.mq.isEmpty))).map (fun p => coreNo p.1)).eraseDups).map .lanes ++
  [.sloisk]

/-- The next agent after the one whose turn it was. -/
def nextTurn (s : State) : Turn :=
  let l := agents s
  match l.find? (fun t => decide (s.turn.rank < t.rank)) with
  | some t => t
  | none => l.headD .sloisk

/-- The end of a turn: the next one that is planned, of an agent that has something to do, or else the next agent's, which is not
late (log 3). -/
def endTurn (s : State) : State :=
  match s.plan.dropWhile (fun p => !(agents s).contains p.1) with
  | p :: r => { s with turn := p.1, late := p.2, plan := r }
  | [] => { s with turn := nextTurn s, late := false, plan := [] }

end Sys2Proof.Machine
end

