-- ==== Sys2Proof/Machine/Dispatch.lean ====
section
/-! DEFINITION. The meaning of each instruction and event of the opcode table. -/

namespace Sys2Proof.Machine

/-- The one dispatch: each arm is a direct call of that instruction's meaning. -/
def exec (i : Instr) (s : State) : Host.Outcome State Fault Refusal :=
  match i with
  | .add w d a b => Sys2Proof.Machine.execAdd w d a b s
  | .sub w d a b => Sys2Proof.Machine.execSub w d a b s
  | .and w d a b => Sys2Proof.Machine.execAnd w d a b s
  | .or w d a b => Sys2Proof.Machine.execOr w d a b s
  | .xor w d a b => Sys2Proof.Machine.execXor w d a b s
  | .shl w d a b => Sys2Proof.Machine.execShl w d a b s
  | .shr w d a b => Sys2Proof.Machine.execShr w d a b s
  | .sar w d a b => Sys2Proof.Machine.execSar w d a b s
  | .mul w d a b => Sys2Proof.Machine.execMul w d a b s
  | .mulh u w d a b => Sys2Proof.Machine.execMulh u w d a b s
  | .div u w d a b => Sys2Proof.Machine.execDiv u w d a b s
  | .rem u w d a b => Sys2Proof.Machine.execRem u w d a b s
  | .min u w d a b => Sys2Proof.Machine.execMin u w d a b s
  | .max u w d a b => Sys2Proof.Machine.execMax u w d a b s
  | .slt u w d a b => Sys2Proof.Machine.execSlt u w d a b s
  | .clz w d a => Sys2Proof.Machine.execClz w d a s
  | .ctz w d a => Sys2Proof.Machine.execCtz w d a s
  | .popc w d a => Sys2Proof.Machine.execPopc w d a s
  | .ext u w d a b => Sys2Proof.Machine.execExt u w d a b s
  | .addi d a imm => Sys2Proof.Machine.execAddi d a imm s
  | .andi d a imm => Sys2Proof.Machine.execAndi d a imm s
  | .ori d a imm => Sys2Proof.Machine.execOri d a imm s
  | .xori d a imm => Sys2Proof.Machine.execXori d a imm s
  | .shli d a sh => Sys2Proof.Machine.execShli d a sh s
  | .shri d a sh => Sys2Proof.Machine.execShri d a sh s
  | .sari d a sh => Sys2Proof.Machine.execSari d a sh s
  | .slti d a imm => Sys2Proof.Machine.execSlti d a imm s
  | .lih d imm => Sys2Proof.Machine.execLih d imm s
  | .fadd t rnd d a b => Sys2Proof.Machine.execFadd t rnd d a b s
  | .fsub t rnd d a b => Sys2Proof.Machine.execFsub t rnd d a b s
  | .fmul t rnd d a b => Sys2Proof.Machine.execFmul t rnd d a b s
  | .fdiv t rnd d a b => Sys2Proof.Machine.execFdiv t rnd d a b s
  | .fsqrt t rnd d a => Sys2Proof.Machine.execFsqrt t rnd d a s
  | .fma t rnd d a b => Sys2Proof.Machine.execFma t rnd d a b s
  | .fmin t d a b => Sys2Proof.Machine.execFmin t d a b s
  | .fmax t d a b => Sys2Proof.Machine.execFmax t d a b s
  | .fcmp cond t d a b => Sys2Proof.Machine.execFcmp cond t d a b s
  | .fcvt dst src rnd d a => Sys2Proof.Machine.execFcvt dst src rnd d a s
  | .qput q a => Sys2Proof.Machine.execQput q a s
  | .qget d q => Sys2Proof.Machine.execQget d q s
  | .qstat d q => Sys2Proof.Machine.execQstat d q s
  | .gbar => Sys2Proof.Machine.execGbar s
  | .gbarAllArrived gang => Sys2Proof.Machine.execGbarAllArrived gang s
  | .ldB d a imm => Sys2Proof.Machine.execLdB d a imm s
  | .ldH d a imm => Sys2Proof.Machine.execLdH d a imm s
  | .ldW d a imm => Sys2Proof.Machine.execLdW d a imm s
  | .ldD d a imm => Sys2Proof.Machine.execLdD d a imm s
  | .ldBu d a imm => Sys2Proof.Machine.execLdBu d a imm s
  | .ldHu d a imm => Sys2Proof.Machine.execLdHu d a imm s
  | .ldWu d a imm => Sys2Proof.Machine.execLdWu d a imm s
  | .stB a b imm => Sys2Proof.Machine.execStB a b imm s
  | .stH a b imm => Sys2Proof.Machine.execStH a b imm s
  | .stW a b imm => Sys2Proof.Machine.execStW a b imm s
  | .stD a b imm => Sys2Proof.Machine.execStD a b imm s
  | .amoSwap o d a b => Sys2Proof.Machine.execAmoSwap o d a b s
  | .amoAdd o d a b => Sys2Proof.Machine.execAmoAdd o d a b s
  | .amoAnd o d a b => Sys2Proof.Machine.execAmoAnd o d a b s
  | .amoOr o d a b => Sys2Proof.Machine.execAmoOr o d a b s
  | .amoXor o d a b => Sys2Proof.Machine.execAmoXor o d a b s
  | .amoMin o d a b => Sys2Proof.Machine.execAmoMin o d a b s
  | .amoMax o d a b => Sys2Proof.Machine.execAmoMax o d a b s
  | .cas o d a b => Sys2Proof.Machine.execCas o d a b s
  | .beq a b imm => Sys2Proof.Machine.execBeq a b imm s
  | .bne a b imm => Sys2Proof.Machine.execBne a b imm s
  | .blt a b imm => Sys2Proof.Machine.execBlt a b imm s
  | .bge a b imm => Sys2Proof.Machine.execBge a b imm s
  | .bltu a b imm => Sys2Proof.Machine.execBltu a b imm s
  | .bgeu a b imm => Sys2Proof.Machine.execBgeu a b imm s
  | .bany m imm => Sys2Proof.Machine.execBany m imm s
  | .ball m imm => Sys2Proof.Machine.execBall m imm s
  | .bnone m imm => Sys2Proof.Machine.execBnone m imm s
  | .jmp imm => Sys2Proof.Machine.execJmp imm s
  | .call d imm => Sys2Proof.Machine.execCall d imm s
  | .jr d a imm => Sys2Proof.Machine.execJr d a imm s
  | .fence scope acq rel => Sys2Proof.Machine.execFence scope acq rel s
  | .sbar streams => Sys2Proof.Machine.execSbar streams s
  | .csrr d csr => Sys2Proof.Machine.execCsrr d csr s
  | .csrw a csr => Sys2Proof.Machine.execCsrw a csr s
  | .csrs d a csr => Sys2Proof.Machine.execCsrs d a csr s
  | .csrc d a csr => Sys2Proof.Machine.execCsrc d a csr s
  | .trap code => Sys2Proof.Machine.execTrap code s
  | .brk code => Sys2Proof.Machine.execBrk code s
  | .eret => Sys2Proof.Machine.execEret s
  | .wfe => Sys2Proof.Machine.execWfe s
  | .wfeTimeout h => Sys2Proof.Machine.execWfeTimeout h s
  | .halt => Sys2Proof.Machine.execHalt s
  | .convoyHeader units cnt => Sys2Proof.Machine.execConvoyHeader units cnt s
  | .nop32 => Sys2Proof.Machine.execNop32 s
  | .impreciseTrapDelivery h => Sys2Proof.Machine.execImpreciseTrapDelivery h s
  | .queuehang h => Sys2Proof.Machine.execQueuehang h s
  | .vsetl ew d a => Sys2Proof.Machine.execVsetl ew d a s
  | .vsetr d a => Sys2Proof.Machine.execVsetr d a s
  | .lanes d a => Sys2Proof.Machine.execLanes d a s
  | .forkl d off => Sys2Proof.Machine.execForkl d off s
  | .joinl a => Sys2Proof.Machine.execJoinl a s
  | .msetAll md row => Sys2Proof.Machine.execMsetAll md row s
  | .msetNone md row => Sys2Proof.Machine.execMsetNone md row s
  | .msetLt md ga row => Sys2Proof.Machine.execMsetLt md ga row s
  | .msetNz ew md va row => Sys2Proof.Machine.execMsetNz ew md va row s
  | .mlogic op md ma mb row => Sys2Proof.Machine.execMlogic op md ma mb row s
  | .mpopc d ma => Sys2Proof.Machine.execMpopc d ma s
  | .mpopcQ q ma => Sys2Proof.Machine.execMpopcQ q ma s
  | .mfirst d ma => Sys2Proof.Machine.execMfirst d ma s
  | .mfirstQ q ma => Sys2Proof.Machine.execMfirstQ q ma s
  | .vcmp cond md va b ty rnd mask row => Sys2Proof.Machine.execVcmp cond md va b ty rnd mask row s
  | .vget u ew d va gb => Sys2Proof.Machine.execVget u ew d va gb s
  | .vgetQ u ew q va gb => Sys2Proof.Machine.execVgetQ u ew q va gb s
  | .vput ew vd ga gb => Sys2Proof.Machine.execVput ew vd ga gb s
  | .vmov ew vd va mask row => Sys2Proof.Machine.execVmov ew vd va mask row s
  | .vsplat ew vd gb mask row => Sys2Proof.Machine.execVsplat ew vd gb mask row s
  | .vsplatImm ew vd imm mask row => Sys2Proof.Machine.execVsplatImm ew vd imm mask row s
  | .vsplatQ ew vd q mask row => Sys2Proof.Machine.execVsplatQ ew vd q mask row s
  | .viota ew vd ga gb mask row => Sys2Proof.Machine.execViota ew vd ga gb mask row s
  | .vsel ew vd va vb mask row => Sys2Proof.Machine.execVsel ew vd va vb mask row s
  | .vadd o => Sys2Proof.Machine.execVadd o s
  | .vsub o => Sys2Proof.Machine.execVsub o s
  | .vmul o => Sys2Proof.Machine.execVmul o s
  | .vfma o => Sys2Proof.Machine.execVfma o s
  | .vdiv o => Sys2Proof.Machine.execVdiv o s
  | .vmin o => Sys2Proof.Machine.execVmin o s
  | .vmax o => Sys2Proof.Machine.execVmax o s
  | .vabs o => Sys2Proof.Machine.execVabs o s
  | .vneg o => Sys2Proof.Machine.execVneg o s
  | .vand o => Sys2Proof.Machine.execVand o s
  | .vor o => Sys2Proof.Machine.execVor o s
  | .vxor o => Sys2Proof.Machine.execVxor o s
  | .vshl o => Sys2Proof.Machine.execVshl o s
  | .vshr o => Sys2Proof.Machine.execVshr o s
  | .vsfu fn fmt rnd sat vd va mask row => Sys2Proof.Machine.execVsfu fn fmt rnd sat vd va mask row s
  | .vcvt form rnd sat vd va mask row => Sys2Proof.Machine.execVcvt form rnd sat vd va mask row s
  | .vhad fmt rnd vd va row => Sys2Proof.Machine.execVhad fmt rnd vd va row s
  | .vqnt o => Sys2Proof.Machine.execVqnt o s
  | .vqntSc o => Sys2Proof.Machine.execVqntSc o s
  | .vdqnt sc o => Sys2Proof.Machine.execVdqnt sc o s
  | .vlut qf g0 rnd vd va gb mask => Sys2Proof.Machine.execVlut qf g0 rnd vd va gb mask s
  | .vred o => Sys2Proof.Machine.execVred o s
  | .vredRow o => Sys2Proof.Machine.execVredRow o s
  | .vredQ o => Sys2Proof.Machine.execVredQ o s
  | .vscan excl o => Sys2Proof.Machine.execVscan excl o s
  | .vslideUp amt ew vd va mask => Sys2Proof.Machine.execVslideUp amt ew vd va mask s
  | .vslideDn amt ew vd va mask => Sys2Proof.Machine.execVslideDn amt ew vd va mask s
  | .vperm tile ew vd va vb mask => Sys2Proof.Machine.execVperm tile ew vd va vb mask s
  | .vcomp ew vd va mask => Sys2Proof.Machine.execVcomp ew vd va mask s
  | .vtopkIdx o => Sys2Proof.Machine.execVtopkIdx o s
  | .vtopkKey o => Sys2Proof.Machine.execVtopkKey o s
  | .vtopkMask o => Sys2Proof.Machine.execVtopkMask o s
  | .vld o => Sys2Proof.Machine.execVld o s
  | .vst o => Sys2Proof.Machine.execVst o s
  | .vldx o => Sys2Proof.Machine.execVldx o s
  | .vstxOrd o => Sys2Proof.Machine.execVstxOrd o s
  | .vstxAny o => Sys2Proof.Machine.execVstxAny o s
  | .vamo o => Sys2Proof.Machine.execVamo o s
  | .vwait cond ew ga gc form mask => Sys2Proof.Machine.execVwait cond ew ga gc form mask s
  | .vwaitPoll h => Sys2Proof.Machine.execVwaitPoll h s
  | .vbind vd ga slot => Sys2Proof.Machine.execVbind vd ga slot s
  | .vunbind vd => Sys2Proof.Machine.execVunbind vd s
  | .lcap n => Sys2Proof.Machine.execLcap n s
  | .lnest nk op ga => Sys2Proof.Machine.execLnest nk op ga s
  | .lrun q dims => Sys2Proof.Machine.execLrun q dims s
  | .lwait => Sys2Proof.Machine.execLwait s
  | .mattach d => Sys2Proof.Machine.execMattach d s
  | .matrixRedivide cluster rows => Sys2Proof.Machine.execMatrixRedivide cluster rows s
  | .mdetach => Sys2Proof.Machine.execMdetach s
  | .mtile t r c => Sys2Proof.Machine.execMtile t r c s
  | .mtileOff t => Sys2Proof.Machine.execMtileOff t s
  | .mclr t => Sys2Proof.Machine.execMclr t s
  | .mpredRows gb => Sys2Proof.Machine.execMpredRows gb s
  | .mpredCols gb => Sys2Proof.Machine.execMpredCols gb s
  | .mpredK gb => Sys2Proof.Machine.execMpredK gb s
  | .mpredRowm ma => Sys2Proof.Machine.execMpredRowm ma s
  | .mpredColm ma => Sys2Proof.Machine.execMpredColm ma s
  | .mpredAll => Sys2Proof.Machine.execMpredAll s
  | .mksum mc t fa fb rnd ga gb gc => Sys2Proof.Machine.execMksum mc t fa fb rnd ga gb gc s
  | .mlineRrow o => Sys2Proof.Machine.execMlineRrow o s
  | .mlineRcol o => Sys2Proof.Machine.execMlineRcol o s
  | .mlineWrow o => Sys2Proof.Machine.execMlineWrow o s
  | .mlineWcol o => Sys2Proof.Machine.execMlineWcol o s
  | .mlineSt o => Sys2Proof.Machine.execMlineSt o s
  | .mlineLd o => Sys2Proof.Machine.execMlineLd o s
  | .mdrain z o => Sys2Proof.Machine.execMdrain z o s
  | .mdrainSt z o => Sys2Proof.Machine.execMdrainSt z o s
  | .mgroup d members => Sys2Proof.Machine.execMgroup d members s
  | .kvctxCfg d a b => Sys2Proof.Machine.execKvctxCfg d a b s
  | .kvctxOpen d a b => Sys2Proof.Machine.execKvctxOpen d a b s
  | .kvctxClose d a b => Sys2Proof.Machine.execKvctxClose d a b s
  | .kvctxCb d a b => Sys2Proof.Machine.execKvctxCb d a b s
  | .kvctxPin d a b => Sys2Proof.Machine.execKvctxPin d a b s
  | .kvapp fmt ga vb vc mask => Sys2Proof.Machine.execKvapp fmt ga vb vc mask s
  | .kvld fmt rnd sat vd ga mask row => Sys2Proof.Machine.execKvld fmt rnd sat vd ga mask row s
  | .kvscore fmt vd ga vb mask row => Sys2Proof.Machine.execKvscore fmt vd ga vb mask row s
  | .kvvqsLut vd ga vb vc mask row => Sys2Proof.Machine.execKvvqsLut vd ga vb vc mask row s
  | .kvvqsQ qf vd ga vb mask row => Sys2Proof.Machine.execKvvqsQ qf vd ga vb mask row s
  | .kvacc ga vb mask row => Sys2Proof.Machine.execKvacc ga vb mask row s
  | .kvcomp d a b => Sys2Proof.Machine.execKvcomp d a b s
  | .kvfree a b => Sys2Proof.Machine.execKvfree a b s
  | .kvBlockMigration block tier addr => Sys2Proof.Machine.execKvBlockMigration block tier addr s
  | .srread vd gb => Sys2Proof.Machine.execSrread vd gb s
  | .srreset gb ga => Sys2Proof.Machine.execSrreset gb ga s
  | .srbind d slot ga gb gc => Sys2Proof.Machine.execSrbind d slot ga gb gc s
  | .lconv comp fmt rnd sat vd va vb mr => Sys2Proof.Machine.execLconv comp fmt rnd sat vd va vb mr s
  | .lcstateGet fmt rnd vd => Sys2Proof.Machine.execLcstateGet fmt rnd vd s
  | .lcstatePut fmt va => Sys2Proof.Machine.execLcstatePut fmt va s
  | .lcstateZero => Sys2Proof.Machine.execLcstateZero s
  | .cpy o => Sys2Proof.Machine.execCpy o s
  | .cpyFill o => Sys2Proof.Machine.execCpyFill o s
  | .cpyHash o => Sys2Proof.Machine.execCpyHash o s
  | .cpyRing o => Sys2Proof.Machine.execCpyRing o s
  | .copyCommandRun core => Sys2Proof.Machine.execCopyCommandRun core s
  | .copyCommandComplete core => Sys2Proof.Machine.execCopyCommandComplete core s
  | .copyCommandStop core => Sys2Proof.Machine.execCopyCommandStop core s
  | .twait d a => Sys2Proof.Machine.execTwait d a s
  | .twaitAny d a => Sys2Proof.Machine.execTwaitAny d a s
  | .tfirst d a => Sys2Proof.Machine.execTfirst d a s
  | .tfirstNw d a => Sys2Proof.Machine.execTfirstNw d a s
  | .tclr d a => Sys2Proof.Machine.execTclr d a s
  | .rpush ga vb c => Sys2Proof.Machine.execRpush ga vb c s
  | .rpull vd ga c => Sys2Proof.Machine.execRpull vd ga c s
  | .reos ga => Sys2Proof.Machine.execReos ga s
  | .rstat d ga => Sys2Proof.Machine.execRstat d ga s
  | .rstatReset ga => Sys2Proof.Machine.execRstatReset ga s
  | .revch ga => Sys2Proof.Machine.execRevch ga s
  | .revret => Sys2Proof.Machine.execRevret s
  | .revst d depth field => Sys2Proof.Machine.execRevst d depth field s
  | .revabt => Sys2Proof.Machine.execRevabt s
  | .ldi m d imm => Sys2Proof.Machine.execLdi m d imm s
  | .addil d a imm => Sys2Proof.Machine.execAddil d a imm s
  | .callf d imm => Sys2Proof.Machine.execCallf d imm s
  | .callfR d a imm => Sys2Proof.Machine.execCallfR d a imm s
  | .savev ga => Sys2Proof.Machine.execSavev ga s
  | .restv ga => Sys2Proof.Machine.execRestv ga s
  | .stepb => Sys2Proof.Machine.execStepb s
  | .markres d a b => Sys2Proof.Machine.execMarkres d a b s
  | .tlbinv d a b => Sys2Proof.Machine.execTlbinv d a b s
  | .tlbinvMove d a b => Sys2Proof.Machine.execTlbinvMove d a b s
  | .tlbinvWait d a b => Sys2Proof.Machine.execTlbinvWait d a b s
  | .tlbinvAll d => Sys2Proof.Machine.execTlbinvAll d s
  | .pinWaitPreempt h => Sys2Proof.Machine.execPinWaitPreempt h s
  | .targetRequest r => Sys2Proof.Machine.execTargetRequest r s
  | .hostRequest fn off kind len data => Sys2Proof.Machine.execHostRequest fn off kind len data s
  | .peerRequest pkg r => Sys2Proof.Machine.execPeerRequest pkg r s
  | .leeCacheFill die part addr => Sys2Proof.Machine.execLeeCacheFill die part addr s
  | .directoryRecall line => Sys2Proof.Machine.execDirectoryRecall line s
  | .actinv value => Sys2Proof.Machine.execActinv value s
  | .actinvDone => Sys2Proof.Machine.execActinvDone s
  | .linkReplay link source seq => Sys2Proof.Machine.execLinkReplay link source seq s
  | .linkReset link => Sys2Proof.Machine.execLinkReset link s
  | .linkRetrain link farReset => Sys2Proof.Machine.execLinkRetrain link farReset s
  | .linklost link => Sys2Proof.Machine.execLinklost link s
  | .preempt job => Sys2Proof.Machine.execPreempt job s
  | .resumeGang job cores => Sys2Proof.Machine.execResumeGang job cores s
  | .powerCapChange value => Sys2Proof.Machine.execPowerCapChange value s
  | .haltreq h => Sys2Proof.Machine.execHaltreq h s
  | .resume h => Sys2Proof.Machine.execResume h s
  | .registerWrite addr value => Sys2Proof.Machine.execRegisterWrite addr value s
  | .doorbell fn q value => Sys2Proof.Machine.execDoorbell fn q value s
  | .launch part q cores => Sys2Proof.Machine.execLaunch part q cores s
  | .copy part q => Sys2Proof.Machine.execCopy part q s
  | .signal part q => Sys2Proof.Machine.execSignal part q s
  | .wait part q => Sys2Proof.Machine.execWait part q s
  | .waitSatisfied part q => Sys2Proof.Machine.execWaitSatisfied part q s
  | .writeSignal part q => Sys2Proof.Machine.execWriteSignal part q s
  | .barrier part q => Sys2Proof.Machine.execBarrier part q s
  | .measure part q => Sys2Proof.Machine.execMeasure part q s
  | .receipt part q => Sys2Proof.Machine.execReceipt part q s
  | .jobCompletion job => Sys2Proof.Machine.execJobCompletion job s
  | .strideSchedule part cores => Sys2Proof.Machine.execStrideSchedule part cores s
  | .timeSliceEnd job => Sys2Proof.Machine.execTimeSliceEnd job s
  | .packetDeferTimeout part q => Sys2Proof.Machine.execPacketDeferTimeout part q s
  | .usagePeriodEnd part => Sys2Proof.Machine.execUsagePeriodEnd part s
  | .partitionCreate spec => Sys2Proof.Machine.execPartitionCreate spec s
  | .partitionTeardown part => Sys2Proof.Machine.execPartitionTeardown part s
  | .queueReopen part q => Sys2Proof.Machine.execQueueReopen part q s
  | .migrationStart move => Sys2Proof.Machine.execMigrationStart move s
  | .generationSwitch part => Sys2Proof.Machine.execGenerationSwitch part s
  | .migrationStopPhase part dest => Sys2Proof.Machine.execMigrationStopPhase part dest s
  | .hdmDecoderProgram decoders => Sys2Proof.Machine.execHdmDecoderProgram decoders s
  | .boot b => Sys2Proof.Machine.execBoot b s
  | .bootReadyTimeout => Sys2Proof.Machine.execBootReadyTimeout s
  | .failedStartClear => Sys2Proof.Machine.execFailedStartClear s
  | .rowStepBoundary core => Sys2Proof.Machine.execRowStepBoundary core s
  | .kvBlockMoveDone block => Sys2Proof.Machine.execKvBlockMoveDone block s
  | .firmwareImageLoad image => Sys2Proof.Machine.execFirmwareImageLoad image s

end Sys2Proof.Machine
end

