-- ==== Sys2Proof/Machine/Step.lean ====
section
/-! DEFINITION. One step of the package: an event given from outside, or a register write, or one agent's turn (log 3). -/

namespace Sys2Proof.Machine

/-- A step is counted (log 2). -/
def tick (s : State) : State := { s with ticks := s.ticks + 1 }

/-- A hart's turn: what its scalar unit does, the instruction's meaning being exec's. -/
def hartTurn (s : State) : Host.Outcome State Fault Refusal :=
  match gate s with
  | .moved t => .next (countTurn t)
  | .run i t =>
    match exec i t with
    | .next u => .next (afterParcel i t u)
    | .fault r => .fault r
    | .refused r => .refused r

/-- The turn of the agent whose turn it is. -/
def agentTurn (s : State) : Host.Outcome State Fault Refusal :=
  match s.turn with
  | .hart h => if h < 2048 then hartTurn { s with cur := h } else .fault (.noSuchHart h)
  | .engine c => .next (engineStep c s)
  | .lanes c => execRowStepBoundary c s
  | .sloisk => .next (sloiskStep s)

/-- One step. -/
def step (s : State) : Host.Outcome State Fault Refusal :=
  match s.inbox with
  | i :: rest =>
    match exec i { s with inbox := rest } with
    | .next t => .next (tick t)
    | .fault r => .fault r
    | .refused r => .refused r
  | [] =>
    match s.regWrites with
    | (a, v) :: rest => .next (tick (applyRegWrite a v { s with regWrites := rest }))
    | [] =>
      match agentTurn s with
      | .next t => .next (tick (endTurn t))
      | .fault r => .fault r
      | .refused r => .refused r

/-- `s` with an instruction of `nbits` bits `w` at the PC of hart 0, which runs and has its fetch pinned to the first
tier-2 page; hart 0 may access that page's target (log 29). -/
def State.withFetchWord (s : State) (nbits w : Nat) : State :=
  let x := hartOf s 0
  let base := 0x10000000000
  let g := glob s base
  let key := tgtKey (1, 0)
  let x := { x with run := .running, pc := 0, pin := some (0, base / 65536, 64 + 8 * 4 + 1), pend := none, vq := [], mq := [],
                    capLeft := 0, convLeft := 0, snap := none, sbuf := [], ibuf := [], entry := none,
                    dbg := { x.dbg with suppress := true, due := none, stepping := 0 } }
  let s := { s with inbox := [], regWrites := [], turn := .hart 0, late := false, plan := [], owned := [], reading := [],
                    accE := cset 0 (key * 65536) (BitVec.ofNat 64 (2 ^ 63 + 15 * 2 ^ 52 + 2 ^ 51 + 2 ^ 16)) s.accE,
                    accD := cset 0 (key * 256) (BitVec.ofNat 128 (2 ^ 63 + 15 * 2 ^ 52 + 127 * 2 ^ 56 + (2 ^ 28 - 1) * 2 ^ 80)) s.accD,
                    zeroPend := cset false (base / 65536) false s.zeroPend }
  setMem g (toBytes 8 (w % 2 ^ nbits)) (setHart 0 x s)

end Sys2Proof.Machine
end

