-- ==== Sys2Proof/Safety.lean ====
section
/-! DEFINITION. What counts as a safe run of this machine, and the terms in which statements about it are written:
quiet harts, the two invariants, the state an instruction of the scalar unit leaves, and what an instruction may touch. -/

namespace Sys2Proof.Machine

/-- Nothing of the current hart is in flight: its queues are empty, no imprecise trap is pending, no capture runs, no
copy command of it is in the engine, no store of it waits, no convoy is being pushed; and nothing holds it up: its turn is
not one in which long instructions wait (log 3), and no other hart of the core has work for the lanes. -/
structure Quiet (s : State) : Prop where
  vq : (me s).vq = []
  mq : (me s).mq = []
  pend : (me s).pend = none
  cap : (me s).capLeft = 0
  reattach : (me s).reattach = false
  cmds : cmdsOf s s.cur = []
  sbuf : (me s).sbuf = []
  conv : (me s).convLeft = 0
  late : s.late = false
  lanes : lanesFree s = true

/-- The current hart has no bound register (R105). -/
def Unbound (s : State) : Prop := (me s).r.binds = []

/-- The decoder's checks of a long instruction pass (R203, R224, R302, R349). -/
def Passes (k : Check) (s : State) : Prop := k.reason (me s) = none

/-- VGRANT, RC and VL are within what the lanes hold: at most eight lanes and eight rows (R198, R201, R202). -/
def LaneOk (vgrant rc : Nat) : Prop := vgrant ≤ 8 ∧ 1 ≤ rc ∧ rc ≤ 8

/-- Memory is in its canonical form. -/
def MemInv (s : State) : Prop := Memory.wf s.mem = true

/-- Every lane grant that is in force or saved is legal: of the harts, of the switch records and of the frames, and the
power cap's lane bound and row bound are within R202. -/
def LaneInv (s : State) : Prop :=
  (∀ p ∈ s.harts, LaneOk p.2.vgrant p.2.rc) ∧
  (∀ p ∈ s.switches, LaneOk p.2.hart.vgrant p.2.hart.rc) ∧
  (∀ p ∈ s.frames, LaneOk p.2.vgrant p.2.rc)

/-- The current hart's lane grant is legal. -/
def Lanes (s : State) : Prop := LaneOk (me s).vgrant (me s).rc

/-- A run is safe: the machine never stops. -/
def Safe (s : State) : Prop := ∃ t, step s = .next t

/-! ## The state after an instruction -/

/-- The current hart with one g register written, flags raised, and the PC moved by `n` bytes; nothing else changes. -/
def afterScalar (n : Word) (d : Reg) (v : Word) (fl : BitVec 7) (s : State) : State :=
  modMe (fun x =>
    { x with pc := x.pc + n, fflags := x.fflags ||| fl, stalled := 0, stallS := none, invWait := none,
             r := if d = 0 then x.r else { x.r with g := cset 0 d.toNat v x.r.g } }) s

/-- A 64-bit form on whole registers, a .w form on their low halves with the result sign-extended (R321). -/
def atWidth (w : Bool) (f : (n : Nat) → BitVec n → BitVec n → BitVec n) (x y : Word) : Word :=
  if w then (f 32 (x.setWidth 32) (y.setWidth 32)).signExtend 64 else f 64 x y

/-- A condition on operands at the width of the form. -/
def testWidth (w : Bool) (f : (n : Nat) → BitVec n → BitVec n → Bool) (x y : Word) : Bool :=
  if w then f 32 (x.setWidth 32) (y.setWidth 32) else f 64 x y

/-- Flag `fl` when `c` holds. -/
def flagIf (c : Bool) (fl : BitVec 7) : BitVec 7 := if c then fl else 0

/-! ## Frames -/

/-- Only the current hart changes, besides `f`'s view of the state: every other hart is as before. -/
def OtherHarts (s t : State) : Prop := ∀ h, h ≠ s.cur → hartOf t h = hartOf s h

/-- Everything but the harts is as before, memory included. -/
def OnlyHarts (s t : State) : Prop := { t with harts := s.harts } = s

/-- Every byte of memory reads as before. -/
def MemSame (s t : State) : Prop := ∀ a, memByte t a = memByte s a

/-- Every byte of memory but `n` bytes from `a` reads as before. -/
def MemSameBut (a n : Nat) (s t : State) : Prop := ∀ b, (b < a ∨ a + n ≤ b) → memByte t b = memByte s b

/-- The current hart's g registers but those listed read as before. -/
def RegsSameBut (ds : List Reg) (s t : State) : Prop := ∀ r, r ∉ ds → gGet r t = gGet r s

/-- Of the current hart, only its g registers, its PC, its sticky flags and the counts of a stall may have changed. -/
def HartSame (s t : State) : Prop :=
  { me t with pc := (me s).pc, fflags := (me s).fflags, stalled := (me s).stalled, stallS := (me s).stallS,
              invWait := (me s).invWait, r := { (me t).r with g := (me s).r.g } } = me s

/-! ## Accesses -/

/-- An access of `n` bytes that reaches plain memory of this package at `l`: admitted, not watched, with no link, lee
cache, pending zeroing, poison, tracked page or device on its way. -/
def PlainPlace (s : State) (w : Who) (va n : Nat) (kind : AccKind) (l : Loc) : Prop :=
  l.pkg = s.pkg ∧ l.a + n ≤ 0x40000000000 ∧ admitCode s w.master w.part l kind = 0 ∧ watchHit s w va n kind = none ∧
  lineHeld s w (isWr kind) l.global n = false ∧
  cget false (l.a / 65536) s.zeroPend = false ∧ firstPoison s l.global n = none ∧ l.leaf.testBit 8 = false ∧
  l.target ≤ 1

/-- Reads of `n` bytes at the addresses, one after another from `s`, all succeed, with these bytes, and leave `s1`. -/
def ReadsAre (w : Who) (n : Nat) : List Nat → List (List Byte) → State → State → Prop
  | [], [], s, s1 => s1 = s
  | a :: as, b :: bs, s, s1 => ∃ s2, vaRead w a n s = .ok b s2 ∧ ReadsAre w n as bs s2 s1
  | _, _, _, _ => False

/-- Writes, one after another from `s`, all succeed and leave `s1`. -/
def WritesAre (w : Who) : List (Nat × List Byte) → State → State → Prop
  | [], s, s1 => s1 = s
  | p :: ps, s, s1 => ∃ s2, vaWrite w p.1 p.2 s = .ok () s2 ∧ WritesAre w ps s2 s1

/-- The writes of a scatter, one after another from `s`, all succeed and leave `s1`: `lands` says of each whether its bytes
stay, or another write of the scatter overwrites them at once (R182). -/
def ScattersAre (w : Who) : List (Nat × List Byte) → List Bool → State → State → Prop
  | [], [], s, s1 => s1 = s
  | p :: ps, l :: ls, s, s1 =>
    ∃ s2, (if l then vaWrite w p.1 p.2 s else vaPassWrite w p.1 p.2 s) = .ok () s2 ∧ ScattersAre w ps ls s2 s1
  | _, _, _, _ => False

/-- Atomics of `n` bytes, one after another from `s`, all succeed, with these old values, and leave `s1`. -/
def AtomicsAre (w : Who) (n : Nat) : List (Nat × (Nat → Nat)) → List Nat → State → State → Prop
  | [], [], s, s1 => s1 = s
  | p :: ps, x :: xs, s, s1 =>
    ∃ s2, vaAtomic w p.1 n (fun old => some (p.2 old)) s = .ok x s2 ∧ AtomicsAre w n ps xs s2 s1
  | _, _, _, _ => False

/-- Reads of a run of bytes each, in requests of R29, one after another. -/
def RunsRead (w : Who) (n : Nat) : List Nat → List (List Byte) → State → State → Prop
  | [], [], s, s1 => s1 = s
  | a :: as, b :: bs, s, s1 => ∃ s2, vaReadN w a n s = .ok b s2 ∧ RunsRead w n as bs s2 s1
  | _, _, _, _ => False

/-- Writes of a run of bytes each, in requests of R29, one after another. -/
def RunsWritten (w : Who) : List (Nat × List Byte) → State → State → Prop
  | [], s, s1 => s1 = s
  | p :: ps, s, s1 => ∃ s2, vaWriteN w p.1 p.2 s = .ok () s2 ∧ RunsWritten w ps s2 s1

/-- The current hart after a matrix instruction that `f` describes; nothing else changes. -/
def afterMatrix (f : Hart → Hart) (s : State) : State :=
  modMe (fun x => f { x with pc := x.pc + 8, stalled := 0, stallS := none, invWait := none }) s

/-! ## Traps -/

/-- What taking a trap leaves at hart `h` (R227): the trap CSRs, handler privilege, the PC at TRAPVEC, empty queues, and
the registers as they were, those of a convoy that had begun an element group at the group's start (R217). -/
def TrapTaken (h : Nat) (cause : Nat) (imp : Bool) (pc lpc addr stat : Word) (elem : Nat) (s t : State) : Prop :=
  let x := hartOf s h
  let y := hartOf t h
  y.t.cause = BitVec.ofNat 64 (cause + 256 * b2n imp) ∧ y.t.pc = pc ∧ y.t.lpc = lpc ∧ y.t.addr = addr ∧ y.t.stat = stat ∧
  y.t.elem = BitVec.ofNat 64 elem ∧ y.handler = true ∧ y.pc = x.t.vec ∧ y.run = .running ∧ y.vq = [] ∧ y.mq = [] ∧
  y.pend = none ∧ y.r = (unwindConvoy x).r ∧ y.t.vec = x.t.vec ∧ y.t.frame = x.t.frame ∧ y.vl = x.vl ∧ y.rc = x.rc ∧ y.fflags = x.fflags

/-- The frame of a trap of hart `h` at `pc` can be written at TRAPFRAME: no store of the hart waits to be performed, no access
of it is unfinished (R221), and the writes of the frame succeed. -/
def FrameWritable (h : Nat) (pc : Word) (fs : FaultStream) (vstart : Nat) (s : State) : Prop :=
  (hartOf s h).sbuf = [] ∧ unfinished s h = false ∧
  ∃ s2, writeFrame h (hartOf s h).t.frame (recordOf 0 h { unwindConvoy (hartOf s h) with pc := pc } (takeCmds h s).1) fs
    vstart (takeCmds h s).2 = .ok () s2

/-- The hart takes its traps itself: user privilege, and no debug stop on the cause (R227, R230). -/
def TakesTraps (h cause : Nat) (s : State) : Prop :=
  (hartOf s h).handler = false ∧ stopsFor (hartOf s h) cause = false

/-! ## Vector instructions -/

/-- Element (k, e) belongs to the sweep of an instruction with a row selector or none (R302, R303). -/
def InSweep (row : Option (BitVec 3)) (s : State) (k e : Nat) : Prop :=
  k < (me s).rc ∧ e < (me s).vl ∧ ∀ r, row = some r → k = r.toNat

/-- The widest element, of `w` bits, fits the grant (R203), and the row selector names a row (R302). -/
def Fits (w : Nat) (row : Option (BitVec 3)) (s : State) : Prop :=
  (me s).vl * w ≤ (me s).vgrant * 2048 ∧ ∀ r, row = some r → r.toNat < (me s).rc

/-- The premises of a vector instruction's own effect: nothing in flight, no bound register, a legal lane grant, and
elements and a row selector that fit. -/
def VecReady (w : Nat) (row : Option (BitVec 3)) (s : State) : Prop :=
  Quiet s ∧ Unbound s ∧ Lanes s ∧ Fits w row s

/-- The premises of a vector instruction that accesses memory: the hart also runs, so that its own debug page reads the
same throughout (R235). -/
def MemReady (w : Nat) (row : Option (BitVec 3)) (s : State) : Prop := VecReady w row s ∧ (me s).run = .running

/-- The active elements of a sweep, in the order of R303. -/
def activeOf (row : Option (BitVec 3)) (mask : MaskSel) (s : State) : List (Nat × Nat) :=
  (tileOf (captureCtx s) (rowsOf (captureCtx s) row)).filter (fun p => active (me s) mask p.1 p.2)

/-- A second source's element: of a vector register, or g(gb) in the element's width (R347). -/
def secondOf (b : Src2) (s : State) (k e w : Nat) : Nat :=
  match b with
  | .v r => vElem (me s) r.toNat k e w
  | .g r => (gGet r s).toNat % 2 ^ w

/-- The active elements of the sweep hold `val`, the inactive ones what they held. -/
def ElemsAre (d : Reg) (w : Nat) (row : Option (BitVec 3)) (mask : MaskSel) (val : Nat → Nat → Nat) (s t : State) : Prop :=
  ∀ k e, InSweep row s k e →
    vElem (me t) d.toNat k e w = if active (me s) mask k e then val k e else vElem (me s) d.toNat k e w

/-- FFLAGS gains the flags of the active elements and no other (R288). -/
def FlagsAre (row : Option (BitVec 3)) (mask : MaskSel) (fl : Nat → Nat → Fl) (s t : State) : Prop :=
  ∀ i, (me t).fflags.getLsbD i = true ↔ (me s).fflags.getLsbD i = true ∨
    ∃ k e, InSweep row s k e ∧ active (me s) mask k e = true ∧ (fl k e).getLsbD i = true

/-- What a vector instruction leaves as it was, memory apart: every g register but `gs`, every queue register but `qs`,
every mask but `ms`, every vector register but `vs`, every other hart, and the trap CSRs; the PC moves by 8 and
nothing is left in a queue. -/
def RegFrame (gs : List Reg) (qs ms vs : List Nat) (s t : State) : Prop :=
  RegsSameBut gs s t ∧ (∀ n, n < 8 → n ∉ qs → queueOfHart t n = queueOfHart s n) ∧
  (∀ m k, k < 8 → m ∉ ms → mRow (me t) m k = mRow (me s) m k) ∧
  (∀ v k, k < 8 → v ∉ vs → vRow (me t) v k = vRow (me s) v k) ∧
  (me t).vl = (me s).vl ∧ (me t).rc = (me s).rc ∧ (me t).t = (me s).t ∧ (me t).handler = (me s).handler ∧
  (me t).acc = (me s).acc ∧ (me t).pc = (me s).pc + 8 ∧ (me t).vq = [] ∧ (me t).mq = [] ∧ (me t).pend = none ∧
  OtherHarts s t

/-- The same of an instruction that accesses no memory. -/
def VecFrame (gs : List Reg) (qs ms vs : List Nat) (s t : State) : Prop := RegFrame gs qs ms vs s t ∧ MemSame s t

/-- Outside the sweep the destination's elements are as they were (R303: tail elements and rows). -/
def TailSame (d : Reg) (w : Nat) (row : Option (BitVec 3)) (s t : State) : Prop :=
  ∀ k e, k < 8 → (e + 1) * w ≤ 16384 → ¬ InSweep row s k e →
    vElem (me t) d.toNat k e w = vElem (me s) d.toNat k e w

/-- The whole of an element-wise instruction over registers: it completes, and `val` gives the result and the flags of
each active element from the state before it. -/
def ElementWise (i : Instr) (d : Reg) (w : Nat) (row : Option (BitVec 3)) (mask : MaskSel)
    (val : Nat → Nat → Nat × Fl) (s : State) : Prop :=
  ∃ t, exec i s = .next t ∧ ElemsAre d w row mask (fun k e => (val k e).1) s t ∧
    FlagsAre row mask (fun k e => (val k e).2) s t ∧ TailSame d w row s t ∧ VecFrame [] [] [] [d.toNat] s t

/-- An exact integer result at `w` bits: clamped with saturated under .sat, else wrapped with intovf (R287). -/
def exactInt (u sat : Bool) (w : Nat) (z : Int) : Nat × Fl :=
  let lo : Int := if u then 0 else -(2 ^ (w - 1))
  let hi : Int := if u then 2 ^ w - 1 else 2 ^ (w - 1) - 1
  if lo ≤ z ∧ z ≤ hi then ((z % 2 ^ w).toNat, 0)
  else if sat then (((if z < lo then lo else hi) % 2 ^ w).toNat, flSaturated)
  else ((z % 2 ^ w).toNat, flIntovf)

/-- A code of `w` bits as an unsigned or two's complement integer. -/
def intOf (u : Bool) (w x : Nat) : Int := if u then (x : Int) else if x < 2 ^ (w - 1) then (x : Int) else (x : Int) - 2 ^ w

/-- An exact result and its flags rounded once in a mode (R283 to R288). -/
def rounded (f : FFmt) (rm : Nat) (sat : Bool) (p : Val × Fl) : Nat × Fl :=
  ((roundV f rm sat p.1).1, (roundV f rm sat p.1).2 ||| p.2)

/-- The result of a typed instruction: float through `ff`, integer through `fi`. -/
def typed (t : ElemTy) (ff : FFmt → Val → Val → Val → Nat × Fl) (fi : Bool → Nat → Int → Int → Int → Nat × Fl)
    (a b d : Nat) : Nat × Fl :=
  match t with
  | .f32 => ff fp32 (decodeF fp32 a) (decodeF fp32 b) (decodeF fp32 d)
  | .bf16 => ff bf16 (decodeF bf16 a) (decodeF bf16 b) (decodeF bf16 d)
  | .f16 => ff fp16 (decodeF fp16 a) (decodeF fp16 b) (decodeF fp16 d)
  | .sint ew => fi false (ewBits ew) (intOf false (ewBits ew) a) (intOf false (ewBits ew) b) (intOf false (ewBits ew) d)
  | .uint ew => fi true (ewBits ew) (intOf true (ewBits ew) a) (intOf true (ewBits ew) b) (intOf true (ewBits ew) d)

end Sys2Proof.Machine
end

