-- ==== Sys2Proof/Certificates/Slice0/Obligations.lean ====
section
/-! DEFINITION. Statements about the FJ2 model, for the provers. Each docstring names the rules of spec/ it rests on. -/

open Sys2Proof Sys2Proof.Machine

/-! ## Integer arithmetic -/

/-- R320, R321, R323: ADD, SUB and MUL complete in every state, for every destination and width: the wrapped result is
written (g0 discards it), intovf is raised exactly on signed overflow at the width of the form, and nothing but the
PC changes besides. -/
def WrappingArithmetic : Prop :=
  ∀ (s : State) (w : Bool) (d a b : Reg), let x := gGet a s; let y := gGet b s
    exec (.add w d a b) s = .next (afterScalar 4 d (atWidth w (fun _ x y => x + y) x y)
      (flagIf (testWidth w (fun _ x y => x.saddOverflow y) x y) flIntovf) s) ∧
    exec (.sub w d a b) s = .next (afterScalar 4 d (atWidth w (fun _ x y => x - y) x y)
      (flagIf (testWidth w (fun _ x y => x.ssubOverflow y) x y) flIntovf) s) ∧
    exec (.mul w d a b) s = .next (afterScalar 4 d (atWidth w (fun _ x y => x * y) x y)
      (flagIf (testWidth w (fun _ x y => x.smulOverflow y) x y) flIntovf) s)

/-- R320, R321: AND, OR, XOR and the shifts complete in every state and raise no flag; shift counts are taken modulo the
width of the form. -/
def LogicAndShifts : Prop :=
  ∀ (s : State) (w : Bool) (d a b : Reg), let x := gGet a s; let y := gGet b s
    exec (.and w d a b) s = .next (afterScalar 4 d (atWidth w (fun _ x y => x &&& y) x y) 0 s) ∧
    exec (.or w d a b) s = .next (afterScalar 4 d (atWidth w (fun _ x y => x ||| y) x y) 0 s) ∧
    exec (.xor w d a b) s = .next (afterScalar 4 d (atWidth w (fun _ x y => x ^^^ y) x y) 0 s) ∧
    exec (.shl w d a b) s = .next (afterScalar 4 d (atWidth w (fun n x y => x <<< (y.toNat % n)) x y) 0 s) ∧
    exec (.shr w d a b) s = .next (afterScalar 4 d (atWidth w (fun n x y => x >>> (y.toNat % n)) x y) 0 s) ∧
    exec (.sar w d a b) s = .next (afterScalar 4 d (atWidth w (fun n x y => x.sshiftRight (y.toNat % n)) x y) 0 s)

/-- R322: DIV and REM complete in every state and never trap. A divisor of zero gives a quotient of all ones and a remainder
equal to the dividend, and sets divzero; the most negative value divided by −1 gives itself with intovf for DIV, and 0
without a flag for REM; otherwise (R287) the quotient is truncated and the remainder follows the dividend. -/
def Obligations.DivisionCorners : Prop :=
  ∀ (s : State) (u w : Bool) (d a b : Reg), let x := gGet a s; let y := gGet b s
    exec (.div u w d a b) s = .next (afterScalar 4 d
      (atWidth w (fun n x y => if y = 0 then BitVec.allOnes n else if u then x.udiv y else x.sdiv y) x y)
      (flagIf (testWidth w (fun _ _ y => y == 0) x y) flDivzero |||
        flagIf (!u && testWidth w (fun n x y => x == BitVec.intMin n && y == BitVec.allOnes n) x y) flIntovf) s) ∧
    exec (.rem u w d a b) s = .next (afterScalar 4 d
      (atWidth w (fun _ x y => if y = 0 then x else if u then x.umod y else x.srem y) x y)
      (flagIf (testWidth w (fun _ _ y => y == 0) x y) flDivzero) s)

/-- R320, R321: MIN, MAX, SLT and MULH complete in every state and raise no flag. -/
def CompareAndHigh : Prop :=
  ∀ (s : State) (u w : Bool) (d a b : Reg), let x := gGet a s; let y := gGet b s
    exec (.min u w d a b) s = .next (afterScalar 4 d
      (atWidth w (fun _ x y => if (if u then x.ult y else x.slt y) then x else y) x y) 0 s) ∧
    exec (.max u w d a b) s = .next (afterScalar 4 d
      (atWidth w (fun _ x y => if (if u then x.ult y else x.slt y) then y else x) x y) 0 s) ∧
    exec (.slt u w d a b) s = .next (afterScalar 4 d
      (if testWidth w (fun _ x y => if u then x.ult y else x.slt y) x y then 1 else 0) 0 s) ∧
    exec (.mulh u w d a b) s = .next (afterScalar 4 d
      (atWidth w (fun n x y =>
        if u then ((x.setWidth (2 * n) * y.setWidth (2 * n)) >>> n).setWidth n
        else ((x.signExtend (2 * n) * y.signExtend (2 * n)) >>> n).setWidth n) x y) 0 s)

/-- R320, R321: CLZ, CTZ and POPC complete in every state and raise no flag. CLZ counts the zeros above the highest one bit
of the operand at the width of the form, CTZ those below the lowest, each the width for an operand of zero; POPC
counts the one bits. -/
def BitCounts : Prop :=
  ∀ (s : State) (w : Bool) (d a : Reg), let n : Nat := if w then 32 else 64; let x := gGet a s
    (∃ r, exec (.clz w d a) s = .next (afterScalar 4 d (BitVec.ofNat 64 r) 0 s) ∧ r ≤ n ∧
      (∀ i, n - r ≤ i → i < n → x.getLsbD i = false) ∧ (r < n → x.getLsbD (n - 1 - r) = true)) ∧
    (∃ r, exec (.ctz w d a) s = .next (afterScalar 4 d (BitVec.ofNat 64 r) 0 s) ∧ r ≤ n ∧
      (∀ i, i < r → x.getLsbD i = false) ∧ (r < n → x.getLsbD r = true)) ∧
    exec (.popc w d a) s =
      .next (afterScalar 4 d (BitVec.ofNat 64 ((List.range n).filter (fun i => x.getLsbD i)).length) 0 s)

/-- R320, R321: EXT completes in every state and raises no flag. The field of x begins at lo := y[5:0] and has
y[13:8] + 1 bits, each taken modulo the width of the form, and ends at the width; its top bit is copied above it,
or zeros with .u. -/
def FieldExtract : Prop :=
  ∀ (s : State) (u w : Bool) (d a b : Reg), let n : Nat := if w then 32 else 64; let x := gGet a s; let y := gGet b s
    let lo := (y.toNat % 64) % n
    let hi := min (lo + ((y.toNat / 256 % 64) % n + 1)) n
    ∃ r : Word, exec (.ext u w d a b) s = .next (afterScalar 4 d r 0 s) ∧
      (∀ i, i < hi - lo → r.getLsbD i = x.getLsbD (lo + i)) ∧
      (∀ i, hi - lo ≤ i → i < n → r.getLsbD i = (!u && x.getLsbD (hi - 1))) ∧
      (∀ i, n ≤ i → i < 64 → r.getLsbD i = r.getLsbD (n - 1))

/-- WrappingArithmetic, LogicAndShifts, CompareAndHigh, BitCounts and FieldExtract, together. -/
def Obligations.IntegerRegisterForms : Prop := WrappingArithmetic ∧ LogicAndShifts ∧ CompareAndHigh ∧ BitCounts ∧ FieldExtract

/-- R323, R324: the immediate forms complete in every state: ADDI and SLTI sign-extend imm14, ANDI, ORI and XORI
zero-extend it, the shifts take a six-bit count, LIH shifts its sign-extended imm19 left by 13; only ADDI raises a
flag. -/
def Obligations.Immediates : Prop :=
  ∀ (s : State) (d a : Reg) (imm : BitVec 14) (sh : BitVec 6) (long : BitVec 19), let x := gGet a s
    exec (.addi d a imm) s = .next (afterScalar 4 d (x + imm.signExtend 64)
      (flagIf (x.saddOverflow (imm.signExtend 64)) flIntovf) s) ∧
    exec (.andi d a imm) s = .next (afterScalar 4 d (x &&& imm.setWidth 64) 0 s) ∧
    exec (.ori d a imm) s = .next (afterScalar 4 d (x ||| imm.setWidth 64) 0 s) ∧
    exec (.xori d a imm) s = .next (afterScalar 4 d (x ^^^ imm.setWidth 64) 0 s) ∧
    exec (.shli d a sh) s = .next (afterScalar 4 d (x <<< sh.toNat) 0 s) ∧
    exec (.shri d a sh) s = .next (afterScalar 4 d (x >>> sh.toNat) 0 s) ∧
    exec (.sari d a sh) s = .next (afterScalar 4 d (x.sshiftRight sh.toNat) 0 s) ∧
    exec (.slti d a imm) s = .next (afterScalar 4 d (if x.slt (imm.signExtend 64) then 1 else 0) 0 s) ∧
    exec (.lih d long) s = .next (afterScalar 4 d (long.signExtend 64 <<< 13) 0 s)

/-! ## Scalar floating point -/

/-- R325, R326: FADD, FSUB, FMUL, FDIV, FSQRT and FMA complete in every state. Their operands are read in the type of the
form with the bits above it ignored, the exact result is rounded once in the mode of the instruction, and it is
written with zeros above it; the product and the sum of FMA are exact. -/
def ScalarFloat : Prop :=
  ∀ (s : State) (t rnd : BitVec 2) (d a b : Reg), t ≠ 3 →
    let f := sfmt t; let rm := rnd.toNat
    let x := sval t (gGet a s); let y := sval t (gGet b s); let z := sval t (gGet d s)
    let done (p : Nat × Fl) : Out := .next (afterScalar 4 d (BitVec.ofNat 64 p.1) p.2 s)
    exec (.fadd t rnd d a b) s = done (rounded f rm false (addV rm x y)) ∧
    exec (.fsub t rnd d a b) s = done (rounded f rm false (addV rm x y.neg)) ∧
    exec (.fmul t rnd d a b) s = done (rounded f rm false (mulV x y)) ∧
    exec (.fdiv t rnd d a b) s = done (rounded f rm false (divV x y)) ∧
    exec (.fsqrt t rnd d a) s = done (rounded f rm false (sqrtV x)) ∧
    exec (.fma t rnd d a b) s =
      done (rounded f rm false ((sumV rm [(mulV x y).1, z]).1, (mulV x y).2 ||| (sumV rm [(mulV x y).1, z]).2))

/-- The integer to which `m × 2^e`, negated where `neg`, is rounded in a mode of R283 (0 to nearest, ties to even; 1 toward
zero; 2 toward −∞; 3 toward +∞), and whether it differs from that value. -/
def nearestInt (rm : Nat) (neg : Bool) (m : Nat) (e : Int) : Int × Bool :=
  let d := 2 ^ (-e).toNat
  let q := m * 2 ^ e.toNat / d
  let rem := m * 2 ^ e.toNat % d
  let up : Bool :=
    if rm = 0 then decide (d < 2 * rem ∨ (2 * rem = d ∧ q % 2 = 1))
    else if rm = 2 then neg && rem != 0
    else if rm = 3 then !neg && rem != 0 else false
  ((if neg then -1 else 1) * ((q : Int) + if up then 1 else 0), rem != 0)

/-- R286, R287, R327, R328: FMIN, FMAX, FCMP and FCVT complete in every state. FCMP writes 1 when the relation holds and is
false for an unordered pair, and .lt and .le raise invalid for any NaN. A conversion to i64 is rounded in the mode and
clamped to the range: a NaN gives 0 and invalid, an infinity the end of the range and saturated, and a finite value that is
not represented raises inexact, with saturated where it is clamped. -/
def ScalarFloatOrder : Prop :=
  ∀ (s : State) (t : BitVec 2) (d a b : Reg), t ≠ 3 →
    let f := sfmt t; let x := sval t (gGet a s); let y := sval t (gGet b s)
    let un := x.isNan || y.isNan
    let flag (c : Bool) (fl : Fl) (s : State) : Out := .next (afterScalar 4 d (if c then 1 else 0) fl s)
    exec (.fmin t d a b) s = .next (afterScalar 4 d (BitVec.ofNat 64 (rounded f 0 false (minV x y)).1) (rounded f 0 false (minV x y)).2 s) ∧
    exec (.fmax t d a b) s = .next (afterScalar 4 d (BitVec.ofNat 64 (rounded f 0 false (maxV x y)).1) (rounded f 0 false (maxV x y)).2 s) ∧
    exec (.fcmp 0 t d a b) s = flag (!un && eqV x y) (sigFl x ||| sigFl y) s ∧
    exec (.fcmp 1 t d a b) s = flag (!un && ltV x y) (flagIf un flInvalid) s ∧
    exec (.fcmp 2 t d a b) s = flag (!un && (ltV x y || eqV x y)) (flagIf un flInvalid) s ∧
    exec (.fcmp 3 t d a b) s = flag un (sigFl x ||| sigFl y) s ∧
    (∀ rnd : BitVec 2,
      (∀ sig, x = .nan sig → exec (.fcvt 3 t rnd d a) s = .next (afterScalar 4 d 0 flInvalid s)) ∧
      (∀ neg, x = .inf neg → exec (.fcvt 3 t rnd d a) s =
        .next (afterScalar 4 d (if neg then BitVec.intMin 64 else BitVec.intMax 64) flSaturated s)) ∧
      (∀ neg m e, x = .fin neg m e → let z := nearestInt rnd.toNat neg m e
        let c := max (-(2 ^ 63)) (min (2 ^ 63 - 1) z.1)
        exec (.fcvt 3 t rnd d a) s = .next (afterScalar 4 d (BitVec.ofInt 64 c)
          (if c = z.1 then flagIf z.2 flInexact else flInexact ||| flSaturated) s)) ∧
      exec (.fcvt t 3 rnd d a) s = .next (afterScalar 4 d
        (BitVec.ofNat 64 (convertV f rnd.toNat false (ofInt (gGet a s).toInt)).1)
        (convertV f rnd.toNat false (ofInt (gGet a s).toInt)).2 s) ∧
      ∀ src : BitVec 2, src ≠ 3 →
        exec (.fcvt t src rnd d a) s = .next (afterScalar 4 d
          (BitVec.ofNat 64 (convertV f rnd.toNat false (sval src (gGet a s))).1)
          (convertV f rnd.toNat false (sval src (gGet a s))).2 s))

/-- ScalarFloat and ScalarFloatOrder, together. -/
def Obligations.ScalarFloatingPoint : Prop := ScalarFloat ∧ ScalarFloatOrder

/-- R279, R283 to R288: a value that a format represents is rounded to its own code, in every mode and without a flag;
addition and multiplication of two operands give one code in either order. -/
def Obligations.RoundingIsExactOnCodes : Prop :=
  (∀ (f : FFmt), f = fp32 ∨ f = bf16 ∨ f = fp16 ∨ f = fp64 → ∀ (rm c : Nat), rm < 4 → c < 2 ^ (1 + f.ebits + f.fbits) →
    (decodeF f c).isNan = false → roundV f rm false (decodeF f c) = (c, 0)) ∧
  (∀ (rm : Nat) (x y : Val), addV rm x y = addV rm y x) ∧
  (∀ (x y : Val), mulV x y = mulV y x)

/-! ## Queue registers and GBAR -/

/-- R214, R216, R329: QPUT appends g(ga) to a queue that is not full, QGET removes the oldest entry of q4 to q7, and QSTAT
counts the entries; a QPUT to a full queue and a QGET from an empty one wait at their instruction and leave the queue, and a
QGET of q4 or q5 waits for the stream that writes it. -/
def QueueRegisters : Prop :=
  ∀ (s : State) (q : Idx3) (d a : Reg), let n := q.toNat
    (q ≠ 4 → q ≠ 5 → (queueOfHart s n).length < queueDepth n →
      ∃ t, exec (.qput q a) s = .next t ∧ queueOfHart t n = queueOfHart s n ++ [gGet a s] ∧
        (me t).pc = (me s).pc + 4 ∧ RegsSameBut [] s t) ∧
    (q ≠ 4 → q ≠ 5 → queueDepth n ≤ (queueOfHart s n).length →
      ∃ t, exec (.qput q a) s = .next t ∧ queueOfHart t n = queueOfHart s n ∧ (me t).pc = (me s).pc) ∧
    (4 ≤ n → (n < 6 → (me s).pend = none ∧ busy 2 s = false) → ∀ v r, queueOfHart s n = v :: r →
      ∃ t, exec (.qget d q) s = .next t ∧ queueOfHart t n = r ∧ gGet d t = (if d = 0 then 0 else v) ∧
        (me t).pc = (me s).pc + 4 ∧ RegsSameBut [d] s t) ∧
    (4 ≤ n → (n < 6 → (me s).pend = none ∧ busy 2 s = false) → queueOfHart s n = [] →
      ∃ t, exec (.qget d q) s = .next t ∧ queueOfHart t n = [] ∧ (me t).pc = (me s).pc) ∧
    (q = 4 ∨ q = 5 → (me s).pend = none → busy 2 s = true → exec (.qget d q) s = .next s) ∧
    exec (.qstat d q) s = .next (afterScalar 4 d (BitVec.ofNat 64 (queueOfHart s n).length) 0 s)

/-- R195, R208, R330: a GBAR completes once every hart of the gang waits at it, has halted or was never started; every
waiting hart then passes it, and nothing passes before. -/
def GangBarrier : Prop :=
  (∀ s : State, Quiet s → (me s).arrived = false → s.cur ∈ gangOf s s.cur →
    (∀ h ∈ gangOf s s.cur, h ≠ s.cur → gbarIn s h = true) →
    ∃ t, exec .gbar s = .next t ∧ (me t).pc = (me s).pc + 4 ∧ (me t).arrived = false ∧
      ∀ h ∈ gangOf s s.cur, h ≠ s.cur →
        (hartOf t h).arrived = false ∧ ((hartOf s h).arrived = true → (hartOf t h).pc = (hartOf s h).pc + 4)) ∧
  (∀ (s : State), Quiet s → (me s).arrived = false → (∃ h ∈ gangOf s s.cur, h ≠ s.cur ∧ gbarIn s h = false) →
    ∃ t, exec .gbar s = .next t ∧ (me t).arrived = true ∧ (me t).pc = (me s).pc) ∧
  (∀ (s : State) (gang : Nat), (∀ h ∈ gangOf s gang, gbarIn s h = true) →
    ∃ t, exec (.gbarAllArrived gang) s = .next t ∧
      ∀ h ∈ gangOf s gang, (hartOf t h).arrived = false ∧
        (hartOf t h).pc = (if (hartOf s h).arrived then (hartOf s h).pc + 4 else (hartOf s h).pc))

/-- QueueRegisters and GangBarrier, together. -/
def Obligations.QueuesAndBarrier : Prop := QueueRegisters ∧ GangBarrier

/-! ## Loads, stores and atomics -/

/-- What a load of `n` bytes does, `ext` the value of the bytes (R331): where the access succeeds, and where it reaches
plain memory; and where the hart's newest store to those very bytes still waits to be performed, whose bytes it returns
(R159). -/
def LoadForm (i : Instr) (n : Nat) (ext : Nat → Word) (d a : Reg) (imm : BitVec 14) (s : State) : Prop :=
  let va := (gGet a s + imm.signExtend 64).toNat
  va % n = 0 →
    ((me s).sbuf = [] → ∀ bs s1, vaRead (myWho s) va n s = .ok bs s1 →
      ∃ t, exec i s = .next t ∧ gGet d t = (if d = 0 then 0 else ext (ofBytes bs)) ∧ (me t).pc = (me s).pc + 4 ∧
        RegsSameBut [d] s t ∧ HartSame s t ∧ OtherHarts s t ∧ MemSame s1 t) ∧
    (∀ l s1, translate (myWho s) va .read s = .ok l s1 → PlainPlace s1 (myWho s) va n .read l →
      ((me s).sbuf = [] →
        ∃ t, exec i s = .next t ∧ gGet d t = (if d = 0 then 0 else ext (ofBytes (memBytes s1 l.global n))) ∧
          (me t).pc = (me s).pc + 4 ∧ MemSame s1 t) ∧
      (∀ r c, (me s).sbuf = r ++ [c] → c.loc.global = l.global → c.data.length = n →
        ∃ t, exec i s = .next t ∧ gGet d t = (if d = 0 then 0 else ext (ofBytes c.data)) ∧
          (me t).pc = (me s).pc + 4 ∧ (me t).sbuf = (me s).sbuf ∧ MemSame s1 t))

/-- R331, R318: every load that succeeds completes: the bytes at g(ga) + imm, least significant first, are extended as the
form says and written to gd, and the frame says what stays. The translation that the access makes is the only one
that may write memory (the A bit of the leaf, R51). -/
def Loads : Prop :=
  ∀ (s : State) (d a : Reg) (imm : BitVec 14),
    LoadForm (.ldB d a imm) 1 (fun x => (BitVec.ofNat 8 x).signExtend 64) d a imm s ∧
    LoadForm (.ldH d a imm) 2 (fun x => (BitVec.ofNat 16 x).signExtend 64) d a imm s ∧
    LoadForm (.ldW d a imm) 4 (fun x => (BitVec.ofNat 32 x).signExtend 64) d a imm s ∧
    LoadForm (.ldD d a imm) 8 (BitVec.ofNat 64) d a imm s ∧
    LoadForm (.ldBu d a imm) 1 (BitVec.ofNat 64) d a imm s ∧
    LoadForm (.ldHu d a imm) 2 (BitVec.ofNat 64) d a imm s ∧
    LoadForm (.ldWu d a imm) 4 (BitVec.ofNat 64) d a imm s

/-- What a store of `n` bytes does (R331): in a turn in which the hart's stores are performed at once (log 3), and in one in
which they wait (R160), where it leaves memory as it is. -/
def StoreForm (i : Instr) (n : Nat) (a b : Reg) (imm : BitVec 14) (s : State) : Prop :=
  let va := (gGet a s + imm.signExtend 64).toNat
  va % n = 0 →
    (s.late = false → (me s).sbuf = [] → ∀ s1, vaWrite (myWho s) va (toBytes n (gGet b s).toNat) s = .ok () s1 →
      ∃ t, exec i s = .next t ∧ (me t).pc = (me s).pc + 4 ∧ RegsSameBut [] s t ∧ HartSame s t ∧ OtherHarts s t ∧
        MemSame s1 t) ∧
    (∀ l s1, translate (myWho s) va .write s = .ok l s1 → PlainPlace s1 (myWho s) va n .write l →
      (MemInv s → s.late = false → (me s).sbuf = [] →
        ∃ t, exec i s = .next t ∧ (me t).pc = (me s).pc + 4 ∧ RegsSameBut [] s t ∧
          (∀ k, k < n → memByte t (l.global + k) = ((gGet b s) >>> (8 * k)).setWidth 8) ∧ MemSameBut l.global n s1 t) ∧
      (s.late = true →
        ∃ t c, exec i s = .next t ∧ (me t).pc = (me s).pc + 4 ∧ RegsSameBut [] s t ∧ OtherHarts s t ∧ MemSame s1 t ∧
          (me t).sbuf = (me s).sbuf ++ [c] ∧ c.loc = l ∧ c.data = toBytes n (gGet b s).toNat))

/-- R159, R160: a store that waited, to plain memory whose line no engine owns, puts its bytes where its translation said, and
changes no other byte. -/
def WaitingStoreIsPerformed (s : State) (h : Nat) (c : LateStore) : Prop :=
  MemInv s → (hartOf s h).sbuf = [c] → c.pkg = s.pkg → c.a + c.data.length ≤ 0x40000000000 → c.loc.target ≤ 1 →
    c.leaf.testBit 8 = false → ownedByOther s h c.loc.global c.data.length = false →
    let t := drainStores h s
    (hartOf t h).sbuf = [] ∧ (∀ k, k < c.data.length → memByte t (c.loc.global + k) = c.data.getD k 0) ∧
      MemSameBut c.loc.global c.data.length s t

/-- R331: every store that succeeds completes: byte k of gb goes to the place of g(ga) + imm + k, every other byte of
memory is as the translation left it, and no register changes. One that waits does so when it is performed. -/
def Stores : Prop :=
  ∀ (s : State) (a b : Reg) (imm : BitVec 14),
    StoreForm (.stB a b imm) 1 a b imm s ∧ StoreForm (.stH a b imm) 2 a b imm s ∧
    StoreForm (.stW a b imm) 4 a b imm s ∧ StoreForm (.stD a b imm) 8 a b imm s ∧
    ∀ h c, WaitingStoreIsPerformed s h c

/-- Loads and Stores, together. -/
def Obligations.LoadsAndStores : Prop := Loads ∧ Stores

/-- What an atomic does, `new` giving what it writes at the width of the form, if anything (R333, R334). -/
def AtomicForm (i : Instr) (o : AmoOrd) (new : (n : Nat) → BitVec n → Option (BitVec n)) (d a : Reg) (s : State) : Prop :=
  let n := if o.w32 then 4 else 8
  let va := (gGet a s).toNat
  let result (old : Nat) : Word := if o.w32 then (BitVec.ofNat 32 old).signExtend 64 else BitVec.ofNat 64 old
  va % n = 0 → MemInv s → (me s).sbuf = [] →
  ∀ l s1, translate (myWho s) va .atomic s = .ok l s1 → PlainPlace s1 (myWho s) va n .atomic l →
    let old := ofBytes (memBytes s1 l.global n)
    ∃ t, exec i s = .next t ∧ gGet d t = (if d = 0 then 0 else result old) ∧ (me t).pc = (me s).pc + 4 ∧
      RegsSameBut [d] s t ∧ OtherHarts s t ∧ (me t).fflags = (me s).fflags ∧
      ofBytes (memBytes t l.global n) =
        (match new (8 * n) (BitVec.ofNat (8 * n) old) with
         | some x => x.toNat
         | none => old) ∧
      MemSameBut l.global n s1 t

/-- R333, R334: each AMO and CAS on plain memory completes, the hart's earlier stores being performed (R159): gd receives the old value, sign-extended, and the place the
new one; a CAS that does not match writes nothing; no flag is raised and no other byte changes. -/
def Obligations.Atomics : Prop :=
  ∀ (s : State) (o : AmoOrd) (d a b : Reg), let y := gGet b s
    AtomicForm (.amoSwap o d a b) o (fun n _ => some (y.setWidth n)) d a s ∧
    AtomicForm (.amoAdd o d a b) o (fun n x => some (x + y.setWidth n)) d a s ∧
    AtomicForm (.amoAnd o d a b) o (fun n x => some (x &&& y.setWidth n)) d a s ∧
    AtomicForm (.amoOr o d a b) o (fun n x => some (x ||| y.setWidth n)) d a s ∧
    AtomicForm (.amoXor o d a b) o (fun n x => some (x ^^^ y.setWidth n)) d a s ∧
    AtomicForm (.amoMin o d a b) o (fun n x => some (if x.slt (y.setWidth n) then x else y.setWidth n)) d a s ∧
    AtomicForm (.amoMax o d a b) o (fun n x => some (if x.slt (y.setWidth n) then y.setWidth n else x)) d a s ∧
    AtomicForm (.cas o d a b) o (fun n x => if x = (gGet d s).setWidth n then some (y.setWidth n) else none) d a s

/-- R8: bits 63:48 of a context virtual address must be zero. An access of any party that presents an address with one of
them set raises PAGE: no table is read and nothing is changed, and TRAPADDR holds the whole 64-bit address. -/
def AddressesAreTranslatedTo48Bits : Prop :=
  ∀ (s : State) (w : Who) (va : Word) (n : Nat) (bs : List Byte) (f : Nat → Option Nat), 2 ^ 48 ≤ va.toNat →
    let page {α : Type} (m : MR α) : Prop := ∃ stat, m = .bad { cause := 4, addr := va, stat := stat } s
    page (vaRead w va.toNat n s) ∧ page (vaWrite w va.toNat bs s) ∧ page (vaAtomic w va.toNat n f s) ∧
    page (translate w va.toNat .fetch s)

/-- R54 (read so by log 33): a stream translates once for a page it enters. Once a translation of it has succeeded, every later
access of it in that page of 64 KiB that the leaf's rights allow (R49) gets the same leaf, with its own offset, and reads and
writes nothing; one that they deny raises PAGE. -/
def OneTranslationForAPage : Prop :=
  ∀ (s s1 : State) (w : Who) (va va' : Nat) (kind kind' : AccKind) (l : Loc), w.hold ≠ 0 →
    transFor w va kind s = .ok l s1 → va' / 65536 = va / 65536 →
    (leafDenies w kind' l.leaf = none →
      ∃ l', transFor w va' kind' s1 = .ok l' s1 ∧ l'.leaf = l.leaf ∧ l'.lvl = l.lvl ∧
        (bitsOf l.leaf 4 3 ≠ 5 → l'.pkg = l.pkg ∧ l'.a + va % 65536 = l.a + va' % 65536)) ∧
    (∀ r, leafDenies w kind' l.leaf = some r →
      ∃ stat, transFor w va' kind' s1 = .bad { cause := 4, addr := BitVec.ofNat 64 va', stat := stat } s1)

/-- AddressesAreTranslatedTo48Bits and OneTranslationForAPage, together. -/
def Obligations.TranslationOfAddresses : Prop := AddressesAreTranslatedTo48Bits ∧ OneTranslationForAPage

/-- R331 to R334: a load, store, AMO or CAS whose address is not a multiple of its size raises MISALIGN before translation,
with TRAPADDR the address and TRAPSTAT the size, WRITE and ATOM. -/
def Obligations.MisalignedAccesses : Prop :=
  ∀ (s : State) (d a b : Reg) (imm : BitVec 14) (o : AmoOrd), let va := (gGet a s + imm.signExtend 64).toNat
    let trap (log wr atom : Nat) (va : Nat) : Out :=
      .next (preciseTrap { cause := 3, addr := BitVec.ofNat 64 va, stat := BitVec.ofNat 64 (log + 64 * wr + 256 * atom) } s)
    (va % 2 ≠ 0 → exec (.ldH d a imm) s = trap 1 0 0 va ∧ exec (.ldHu d a imm) s = trap 1 0 0 va ∧
      exec (.stH a b imm) s = trap 1 1 0 va) ∧
    (va % 4 ≠ 0 → exec (.ldW d a imm) s = trap 2 0 0 va ∧ exec (.ldWu d a imm) s = trap 2 0 0 va ∧
      exec (.stW a b imm) s = trap 2 1 0 va) ∧
    (va % 8 ≠ 0 → exec (.ldD d a imm) s = trap 3 0 0 va ∧ exec (.stD a b imm) s = trap 3 1 0 va) ∧
    ((gGet a s).toNat % (if o.w32 then 4 else 8) ≠ 0 →
      ∀ i ∈ [Instr.amoSwap o d a b, .amoAdd o d a b, .amoAnd o d a b, .amoOr o d a b, .amoXor o d a b, .amoMin o d a b,
        .amoMax o d a b, .cas o d a b],
        exec i s = trap (if o.w32 then 2 else 3) 1 1 (gGet a s).toNat)

/-! ## Branches, jumps and ordering -/

/-- R336: a branch completes in every state; it moves the PC by four times its sign-extended imm14 when the relation
holds, by 4 otherwise, and changes nothing else. -/
def Branches : Prop :=
  ∀ (s : State) (a b : Reg) (imm : BitVec 14), let x := gGet a s; let y := gGet b s
    let go (c : Bool) : Out := .next (afterScalar (if c then imm.signExtend 64 * 4 else 4) 0 0 0 s)
    exec (.beq a b imm) s = go (x == y) ∧ exec (.bne a b imm) s = go (x != y) ∧
    exec (.blt a b imm) s = go (x.slt y) ∧ exec (.bge a b imm) s = go (!x.slt y) ∧
    exec (.bltu a b imm) s = go (x.ult y) ∧ exec (.bgeu a b imm) s = go (!x.ult y)

/-- R338, R297: the jumps complete and write the link, g0 discarding it; JR adds its sign-extended immediate to the register
as it stood, and a target that is not a multiple of 4 raises MISALIGN at the jump, with no link written. -/
def Jumps : Prop :=
  ∀ (s : State) (d a : Reg) (imm14 : BitVec 14) (imm19 : BitVec 19), let pc := (me s).pc
    exec (.jmp imm19) s = .next (afterScalar (imm19.signExtend 64 * 4) 0 0 0 s) ∧
    exec (.call d imm19) s = .next (afterScalar (imm19.signExtend 64 * 4) d (pc + 4) 0 s) ∧
    (let t := gGet a s + imm14.signExtend 64
     exec (.jr d a imm14) s =
       if t.toNat % 4 = 0 then .next (afterScalar (t - pc) d (pc + 4) 0 s)
       else .next (preciseTrap { cause := 3, addr := t, stat := 2 } s))

/-- R337: with its streams idle a mask branch completes: BANY is taken when some element of the RC rows and VL columns
is set, BALL when every one is, BNONE when none is; so with VL 0 BANY is not taken and the other two are. -/
def MaskBranches : Prop :=
  ∀ (s : State) (m : Idx3) (imm : BitVec 14), Quiet s →
    let bit (k e : Nat) : Prop := mBit (me s) m.toNat k e = true
    let within (k e : Nat) : Prop := k < (me s).rc ∧ e < (me s).vl
    let taken : State := afterScalar (imm.signExtend 64 * 4) 0 0 0 s
    let not : State := afterScalar 4 0 0 0 s
    ((∃ k e, within k e ∧ bit k e) → exec (.bany m imm) s = .next taken ∧ exec (.bnone m imm) s = .next not) ∧
    (¬ (∃ k e, within k e ∧ bit k e) → exec (.bany m imm) s = .next not ∧ exec (.bnone m imm) s = .next taken) ∧
    ((∀ k e, within k e → bit k e) → exec (.ball m imm) s = .next taken) ∧
    (¬ (∀ k e, within k e → bit k e) → exec (.ball m imm) s = .next not)

/-- Branches, Jumps and MaskBranches, together. -/
def Obligations.BranchesAndJumps : Prop := Branches ∧ Jumps ∧ MaskBranches

/-- R168, R171, R339, R340: with nothing in flight FENCE and SBAR complete and change no register, flag or byte of memory;
under tenant policy a FENCE of system scope, and no other, counts in SCOPECL. -/
def OrderingInstructions : Prop :=
  ∀ (s : State) (scope : BitVec 3) (acq rel : Bool) (mask : BitVec 8), Quiet s → ¬ (acq = true ∧ rel = true) →
    (∃ t, exec (.fence scope acq rel) s = .next t ∧ (me t).pc = (me s).pc + 4 ∧ (me t).r = (me s).r ∧
      (me t).fflags = (me s).fflags ∧ MemSame s t ∧ OtherHarts s t ∧
      (me t).scopecl = (if scope = 6 ∧ (partOf s (me s).part.toNat).tenant = true then (me s).scopecl + 1
        else (me s).scopecl)) ∧
    exec (.sbar mask) s = .next (afterScalar 4 0 0 0 s)

/-- R173, R216, R340: while work of a named stream is not complete SBAR waits at its instruction: the state is as it was. A
store that waits for a line that an engine owns is such work. -/
def SbarWaits : Prop :=
  ∀ (s : State) (mask : BitVec 8), (me s).pend = none →
    let held : Prop := ∃ c r, (me s).sbuf = c :: r ∧ ownedByOther s s.cur c.loc.global c.data.length = true
    (mask.getLsbD 0 = false ∨ (me s).sbuf = [] ∨ held) →
    ((mask.getLsbD 0 = true ∧ held) ∨ (mask.getLsbD 2 = true ∧ (me s).mq ≠ []) ∨ (∃ c ∈ cmdsOf s s.cur, c.stream = 3 ∧ mask.getLsbD 3 = true) ∨
      (∃ e ∈ (me s).vq, streamOf e.instr = 1 ∧ mask.getLsbD 1 = true)) →
    exec (.sbar mask) s = .next s

/-- OrderingInstructions and SbarWaits, together. -/
def Obligations.OrderingAndWaiting : Prop := OrderingInstructions ∧ SbarWaits

/-! ## Control and status registers -/

/-- R232, R341: with nothing in flight a CSR access that has its right completes. CSRR reads; CSRW writes FFLAGS, TRAPVEC and
TRAPFRAME with the bits that R341 names; CSRS and CSRC return the old value and set or clear the bits of a non-zero
g(ga). -/
def CsrAccess : Prop :=
  ∀ (s : State) (d a : Reg) (csr : BitVec 14), Quiet s → csrListed csr.toNat = true →
    let n := csr.toNat; let v := gGet a s
    let old : Word := BitVec.ofNat 64 (csrVal s s.cur n (me s).handler)
    let written (v : Word) (t : State) : Prop :=
      (n = 0x040 → (me t).fflags = v.setWidth 7) ∧
      (n = 0x056 → (me t).t.vec = (v >>> 2) <<< 2) ∧ (n = 0x055 → (me t).t.frame = (v >>> 6) <<< 6)
    (csrRight n (me s).handler ≠ 0 → exec (.csrr d csr) s = .next (afterScalar 4 d old 0 s)) ∧
    (csrRight n (me s).handler = 2 →
      (∃ t, exec (.csrw a csr) s = .next t ∧ written v t ∧ (me t).pc = (me s).pc + 4 ∧ RegsSameBut [] s t ∧ MemSame s t) ∧
      (v ≠ 0 →
        (∃ t, exec (.csrs d a csr) s = .next t ∧ written (old ||| v) t ∧ gGet d t = (if d = 0 then 0 else old) ∧
          (me t).pc = (me s).pc + 4 ∧ RegsSameBut [d] s t) ∧
        (∃ t, exec (.csrc d a csr) s = .next t ∧ written (old &&& ~~~v) t ∧ gGet d t = (if d = 0 then 0 else old) ∧
          (me t).pc = (me s).pc + 4 ∧ RegsSameBut [d] s t))) ∧
    (csrRight n (me s).handler ≠ 0 → v = 0 →
      exec (.csrs d a csr) s = .next (afterScalar 4 d old 0 s) ∧ exec (.csrc d a csr) s = .next (afterScalar 4 d old 0 s))

/-- R232, R341, R318: a number that is not listed raises ILLEGAL with reason 1 at either privilege; a CSR of the handler
raises PRIV at user privilege; a write to a read-only CSR raises ILLEGAL with reason 1, CSRW of g0 included and a
CSRS or CSRC of zero not. -/
def CsrPrivilege : Prop :=
  ∀ (s : State) (d a : Reg) (csr : BitVec 14), let n := csr.toNat
    let illegal1 : Out := .next (preciseTrap { cause := 1, addr := 0, stat := 1 } s)
    let priv : Out := .next (preciseTrap { cause := 2, addr := 0, stat := 0 } s)
    (csrListed n = false → exec (.csrr d csr) s = illegal1 ∧ exec (.csrw a csr) s = illegal1 ∧
      exec (.csrs d a csr) s = illegal1 ∧ exec (.csrc d a csr) s = illegal1) ∧
    ((0x050 ≤ n ∧ n ≤ 0x057) → (me s).handler = false → exec (.csrr d csr) s = priv ∧ exec (.csrw a csr) s = priv ∧
      exec (.csrs d a csr) s = priv ∧ exec (.csrc d a csr) s = priv) ∧
    (csrListed n = true → n ≠ 0x040 → n ≠ 0x055 → n ≠ 0x056 → (n < 0x050 ∨ 0x058 ≤ n) →
      n ≠ 0x071 → exec (.csrw a csr) s = illegal1 ∧
        (gGet a s ≠ 0 → exec (.csrs d a csr) s = illegal1 ∧ exec (.csrc d a csr) s = illegal1))

/-- CsrAccess and CsrPrivilege, together. -/
def Obligations.ControlRegisters : Prop := CsrAccess ∧ CsrPrivilege

/-! ## Traps, and the end of a hart -/

/-- R227, R228: with no imprecise trap pending, a precise fault at user privilege whose frame can be written takes the trap:
the cause and what it states are in the trap CSRs, TRAPLPC and TRAPELEM are 0, TRAPPC is the PC of the instruction,
the queues are empty, the registers are as they were, and control is at TRAPVEC at handler privilege. While an access of
the hart has no answer from a link yet (R221), the entry is kept and nothing else changes. -/
def Obligations.PreciseTrapEntry : Prop :=
  ∀ (s : State) (f : Flt), (me s).pend = none → TakesTraps s.cur f.cause s →
    (FrameWritable s.cur (me s).pc noStream 0 s →
      TrapTaken s.cur f.cause false (me s).pc 0 f.addr f.stat 0 s (preciseTrap f s)) ∧
    ((me s).entry = none → (me s).sbuf = [] → awaitsLink s s.cur = true → let t := preciseTrap f s
      (∃ e, (me t).entry = some e ∧ e.flt = f ∧ e.pc = (me s).pc) ∧ { me t with entry := none } = me s ∧
        OtherHarts s t ∧ MemSame s t)

/-- R57, R226, R227: the delivery of a pending imprecise trap takes it with bit 8 of TRAPCAUSE set, TRAPLPC the long
instruction, TRAPELEM its element, and TRAPPC the first parcel not performed. -/
def ImpreciseTrapDelivery : Prop :=
  ∀ (s : State) (h : Nat) (p : PendTrap), (hartOf s h).pend = some p → TakesTraps h p.flt.cause s →
    FrameWritable h (hartOf s h).pc p.fs (stoppedVstart (hartOf s h) p) s →
    ∃ t, exec (.impreciseTrapDelivery h) s = .next t ∧
      TrapTaken h p.flt.cause true (hartOf s h).pc p.lpc p.flt.addr p.flt.stat p.elem s t

/-- R228: a precise fault while an imprecise trap is pending delivers the imprecise trap, with TRAPPC the instruction that
would have faulted. -/
def ImpreciseGoesFirst : Prop :=
  ∀ (s : State) (f : Flt) (p : PendTrap), (me s).pend = some p → TakesTraps s.cur p.flt.cause s →
    FrameWritable s.cur (me s).pc p.fs (stoppedVstart (me s) p) s →
    TrapTaken s.cur p.flt.cause true (me s).pc p.lpc p.flt.addr p.flt.stat p.elem s (preciseTrap f s)

/-- ImpreciseTrapDelivery and ImpreciseGoesFirst, together. -/
def Obligations.ImpreciseTraps : Prop := ImpreciseTrapDelivery ∧ ImpreciseGoesFirst

/-- R230, R264: a trap at handler privilege, and a frame that cannot be written, is a double trap: every hart of the job
stops with its queues empty, and the job's status is DOUBLETRAP (2). A frame whose link is down is still to be written
(R180) and is no double trap. -/
def Obligations.DoubleTrap : Prop :=
  ∀ (s : State) (f : Flt) (j : Nat), (me s).pend = none → (me s).job = some j → stopsFor (me s) f.cause = false →
    (me s).sbuf = [] → awaitsLink s s.cur = false →
    ((me s).handler = true ∨ ∃ flt s2, writeFrame s.cur (me s).t.frame (recordOf 0 s.cur (unwindConvoy (me s))
      (takeCmds s.cur s).1) noStream 0 (takeCmds s.cur s).2 = .bad flt s2) →
    let t := preciseTrap f s
    (jobOf t j).status = 2 ∧ (me t).run = .halted ∧
    ∀ h ∈ (jobOf s j).harts, (hartOf t h).run = .halted ∧ (hartOf t h).vq = [] ∧ (hartOf t h).mq = [] ∧
      (hartOf t h).pend = none

/-- R342: TRAP and BREAK are performed: with nothing in flight, at user privilege, they take CALLTRAP and BREAK with the code in
TRAPSTAT and the next parcel in TRAPPC. -/
def Obligations.CallsToTheHandler : Prop :=
  ∀ (s : State) (code : BitVec 14), Quiet s → FrameWritable s.cur ((me s).pc + 4) noStream 0 s →
    (TakesTraps s.cur 0x0D s → ∃ t, exec (.trap code) s = .next t ∧
      TrapTaken s.cur 0x0D false ((me s).pc + 4) 0 0 (code.setWidth 64) 0 s t) ∧
    (TakesTraps s.cur 0x0C s → ∃ t, exec (.brk code) s = .next t ∧
      TrapTaken s.cur 0x0C false ((me s).pc + 4) 0 0 (code.setWidth 64) 0 s t)

/-- R229, R343: ERET raises PRIV at user privilege. At handler privilege, with nothing in flight, it returns to TRAPPC at user
privilege: after RESTV with the registers as they are and the work that RESTV took back, otherwise with the registers,
lanes and work of the frame at TRAPFRAME, when that frame passes its checks. That VL, RC, VGRANT and the lanes come back from the
frame is log 31's reading. -/
def Obligations.ReturnFromTrap : Prop :=
  ∀ (s : State),
    ((me s).handler = false → exec .eret s = .next (preciseTrap { cause := 2, addr := 0, stat := 0 } s)) ∧
    ((me s).handler = true → Quiet s → (me s).revabt = none →
      ((me s).restored = true → ∃ t, exec .eret s = .next t ∧ (me t).handler = false ∧ (me t).pc = (me s).t.pc ∧
        (me t).r = (me s).r ∧ (me t).vq = (me s).stoppedV ∧ (me t).mq = (me s).stoppedM ∧ MemSame s t) ∧
      ((me s).restored = false → ∀ rec' s1, readFrame s.cur (me s).t.frame s = .ok (.good rec') s1 → rec'.kind = 0 →
        ∃ t, exec .eret s = .next t ∧ (me t).handler = false ∧ (me t).pc = (me s).t.pc ∧
          (∀ r, gGet r t = if r = 0 then 0 else cget 0 r.toNat rec'.regs.g) ∧ (me t).r.m = rec'.regs.m ∧
          (me t).r.q = rec'.regs.q ∧ (me t).r.n = rec'.regs.n ∧ (me t).vl = rec'.vl ∧ (me t).rc = rec'.rc ∧
          (me t).vgrant = rec'.vgrant ∧ (me t).vq = rec'.vq ∧ (me t).mq = rec'.mq))

/-- R344, R345: WFE parks the hart after its instruction; the end of its wait lets it run; HALT, with nothing in flight and no
chain active, stops it for good, and with a chain active raises ILLEGAL with reason 6; NOP32 moves on. -/
def ParkHaltNop : Prop :=
  ∀ (s : State),
    (∃ t, exec .wfe s = .next t ∧ (me t).run = .parked ∧ (me t).pc = (me s).pc + 4 ∧ (me t).r = (me s).r ∧ MemSame s t) ∧
    (∀ h, (hartOf s h).run = .parked →
      ∃ t, exec (.wfeTimeout h) s = .next t ∧ hartOf t h = { hartOf s h with run := .running } ∧ MemSame s t) ∧
    ((me s).r.chains = [] → Quiet s →
      ∃ t, exec .halt s = .next t ∧ (me t).run = .halted ∧ (me t).r = (me s).r ∧ MemSame s t ∧ OtherHarts s t) ∧
    ((me s).r.chains ≠ [] → exec .halt s = .next (preciseTrap { cause := 1, addr := 0, stat := 6 } s)) ∧
    exec .nop32 s = .next (afterScalar 4 0 0 0 s)

/-- R304 to R306: a convoy header whose `cnt` + 2 following instructions are long and fit their units, and a capture where one
runs, makes them one convoy, with a number of its own, and moves on to them; any other raises ILLEGAL with reason 7. -/
def ConvoyHeaders : Prop :=
  ∀ (s s1 : State) (units : BitVec 18) (cnt : BitVec 3) (fits : Bool),
    convoyFits units (cnt.toNat + 2) 0 (wrapTo 64 ((me s).pc.toNat + 4)) s = .ok fits s1 →
    exec (.convoyHeader units cnt) s =
      if fits = true ∧ ((me s1).capLeft = 0 ∨ cnt.toNat + 2 ≤ (me s1).capLeft) then
        .next (modMe (fun x => { x with pc := x.pc + 4, stalled := 0, stallS := none, invWait := none,
                                        convLeft := cnt.toNat + 2, convId := s1.ticks + 1 }) s1)
      else .next (preciseTrap { cause := 1, addr := 0, stat := 7 } s1)

/-- R217 (in the element groups of log 17): the instructions of a convoy stop and resume at one position, whatever they are:
a convoy that has a common position and is blocked or stopped has one again, and a fault in its next element group leaves
the registers and memory as they were. -/
def ConvoysStopTogether : Prop :=
  ∀ (run : Instr → Perform) (byRow : Bool) (wrap : List QEntry → List QEntry) (n p : Nat) (es : List QEntry) (s : State),
    (∀ e ∈ es, e.ctx.upto = p) →
    (match runConvoy run byRow wrap n es s with
     | .done _ => True
     | .block es' _ _ => ∃ p', ∀ e ∈ es', e.ctx.upto = p'
     | .fault es' _ _ => ∃ p', ∀ e ∈ es', e.ctx.upto = p') ∧
    (∀ e r e' f u, es = e :: r → groupOnce run (nextBoundary e.ctx (groupSpan (me s) es) p) es [] s = .fault e' f u →
      ∃ es' t, runConvoy run byRow wrap (n + 1) es s = .fault es' f t ∧ t.harts = s.harts ∧ t.mem = s.mem)

/-- R210, R233: the limit of a stall raises QUEUEHANG: precisely at the stalled scalar instruction with what it states, and for a
stalled head of the vector or the matrix queue as the pending imprecise trap. -/
def QueueHangs : Prop :=
  ∀ (s : State) (h : Nat), (hartOf s h).pend = none →
    (∀ f, (hartOf s h).stallS = some f → TakesTraps h f.cause s →
      FrameWritable h (hartOf s h).pc noStream 0 s →
      ∃ t, exec (.queuehang h) s = .next t ∧ TrapTaken h f.cause false (hartOf s h).pc 0 f.addr f.stat 0 s t) ∧
    (∀ p, (hartOf s h).stallS = none →
      ((hartOf s h).stallV = some p ∨ ((hartOf s h).stallV = none ∧ (hartOf s h).stallM = some p)) →
      ∃ t, exec (.queuehang h) s = .next t ∧ (hartOf t h).pend = some p ∧ (hartOf t h).pc = (hartOf s h).pc)

/-- ParkHaltNop, ConvoyHeaders, ConvoysStopTogether and QueueHangs, together. -/
def Obligations.HeadersAndParking : Prop := ParkHaltNop ∧ ConvoyHeaders ∧ ConvoysStopTogether ∧ QueueHangs

/-! ## Length, rows and lanes -/

/-- The lane groups granted to a lane set: its set bits, at most PWRCAP.LGMAX (R201, R202). -/
def lanesGranted (lset : BitVec 8) (s : State) : Nat :=
  min ((List.range 8).filter (fun i => lset.getLsbD i)).length (s.pwrcap.toNat % 16)

/-- R201, R202, R351: outside a capture VSETL grants min(g(ga), VGRANT × 256 ÷ W) elements of W bytes, with VGRANT the lanes
granted to LSET, and VSETR min(max(g(ga), 1), RCMAX + 1) rows; each is written to gd. -/
def LengthAndRows : Prop :=
  ∀ (s : State) (ew : BitVec 2) (d a : Reg), (me s).capLeft = 0 →
    (let vg := lanesGranted (me s).lset s
     let n := min (gGet a s).toNat (vg * 256 / 2 ^ ew.toNat)
     ∃ t, exec (.vsetl ew d a) s = .next t ∧ (me t).vl = n ∧ (me t).vgrant = vg ∧ (me t).rc = (me s).rc ∧
       gGet d t = (if d = 0 then 0 else BitVec.ofNat 64 n) ∧ RegsSameBut [d] s t ∧ (me t).pc = (me s).pc + 8) ∧
    (let n := min (max (gGet a s).toNat 1) (pwRcmax (coreOf s (coreNo s.cur)).pword + 1)
     ∃ t, exec (.vsetr d a) s = .next t ∧ (me t).rc = n ∧ (me t).vl = (me s).vl ∧ (me t).vgrant = (me s).vgrant ∧
       gGet d t = (if d = 0 then 0 else BitVec.ofNat 64 n) ∧ RegsSameBut [d] s t ∧ (me t).pc = (me s).pc + 8)

/-- R207, R351, R352: with nothing in flight LANES returns the old lane set and takes g(ga)[7:0] unless it is 0; FORKL gives the
upper half of the groups to the lowest free hart of the gang on the core, which starts at the target with the
registers R352 lists, or writes all ones and changes nothing but VL; JOINL of a halted hart that this hart forked adds its groups. Each sets
VL to 0, and but for a FORKL that fails VGRANT follows the lane set. -/
def LaneSharing : Prop :=
  ∀ (s : State), Quiet s →
    (∀ d a : Reg, let m := (gGet a s).setWidth 8
      ∃ t, exec (.lanes d a) s = .next t ∧ (me t).lset = (if m = 0 then (me s).lset else m) ∧ (me t).vl = 0 ∧
        (me t).vgrant = lanesGranted (me t).lset t ∧ gGet d t = (if d = 0 then 0 else (me s).lset.setWidth 64) ∧
        (me t).pc = (me s).pc + 8 ∧ RegsSameBut [d] s t) ∧
    (∀ (d : Reg) (off : BitVec 16) (h : Nat), freeHart s = some h →
      2 ≤ ((List.range 8).filter (fun i => (me s).lset.getLsbD i)).length →
      ∃ t, exec (.forkl d off) s = .next t ∧ (me t).vl = 0 ∧ gGet d t = (if d = 0 then 0 else BitVec.ofNat 64 (h % 8)) ∧
        (me t).pc = (me s).pc + 8 ∧
        (me t).lset ||| (hartOf t h).lset = (me s).lset ∧ (me t).lset &&& (hartOf t h).lset = 0 ∧
        (∀ i j, (hartOf t h).lset.getLsbD i = true → (me t).lset.getLsbD j = true → j < i) ∧
        ((List.range 8).filter (fun i => (hartOf t h).lset.getLsbD i)).length =
          ((List.range 8).filter (fun i => (me s).lset.getLsbD i)).length / 2 ∧
        (hartOf t h).run = .running ∧ (hartOf t h).handler = false ∧ (hartOf t h).pc = (me s).pc + off.signExtend 64 * 4 ∧
        (hartOf t h).r.g = (me s).r.g ∧ (hartOf t h).r.n = (me s).r.n ∧ (hartOf t h).rc = (me s).rc ∧
        (hartOf t h).vl = 0 ∧ (hartOf t h).fflags = 0 ∧ (hartOf t h).r.v = [] ∧ (hartOf t h).r.m = [] ∧
        (hartOf t h).r.q = [] ∧ (hartOf t h).t.vec = (me s).t.vec ∧ (hartOf t h).t.frame = (hartOf s h).t.frame ∧
        (hartOf t h).forkedBy = some s.cur ∧ (hartOf t h).vgrant = lanesGranted (hartOf t h).lset t) ∧
    (∀ (d : Reg) (off : BitVec 16),
      (freeHart s = none ∨ ((List.range 8).filter (fun i => (me s).lset.getLsbD i)).length < 2) →
      ∃ t, exec (.forkl d off) s = .next t ∧ (me t).vl = 0 ∧ (me t).lset = (me s).lset ∧ (me t).vgrant = (me s).vgrant ∧
        RegsSameBut [d] s t ∧ OtherHarts s t ∧
        gGet d t = (if d = 0 then 0 else BitVec.allOnes 64) ∧ (me t).pc = (me s).pc + 8) ∧
    (∀ (a : Reg), let h := 8 * coreNo s.cur + (gGet a s).toNat
      ((gGet a s).toNat < 8 → h ≠ s.cur → (hartOf s h).forkedBy = some s.cur → (hartOf s h).run = .halted →
        ∃ t, exec (.joinl a) s = .next t ∧ (me t).lset = (me s).lset ||| (hartOf s h).lset ∧ (me t).vl = 0 ∧
          (hartOf t h).forkedBy = none ∧ (me t).pc = (me s).pc + 8 ∧ RegsSameBut [] s t) ∧
      ((gGet a s).toNat < 8 → (hartOf s h).forkedBy = some s.cur → (hartOf s h).run ≠ .halted →
        exec (.joinl a) s = .next s) ∧
      (8 ≤ (gGet a s).toNat ∨ (hartOf s h).forkedBy ≠ some s.cur →
        ∃ t, exec (.joinl a) s = .next t ∧ (me t).lset = (me s).lset ∧ (me t).vgrant = (me s).vgrant ∧ (me t).vl = 0 ∧
          (me t).pc = (me s).pc + 8 ∧ RegsSameBut [] s t ∧ OtherHarts s t))

/-- LengthAndRows and LaneSharing, together. -/
def Obligations.LengthRowsAndLanes : Prop := LengthAndRows ∧ LaneSharing

/-! ## Masks, compares and moves -/

/-- The bits of mask md that a mask instruction writes; m0 discards the write (R348, R353). -/
def MaskWrite (i : Instr) (md : Idx3) (row : Option (BitVec 3)) (bit : Nat → Nat → Bool) (s : State) : Prop :=
  ∃ t, exec i s = .next t ∧
    (∀ k e, InSweep row s k e → mBit (me t) md.toNat k e = if md = 0 then true else bit k e) ∧
    (∀ k e, k < 8 → ¬ InSweep row s k e → mBit (me t) md.toNat k e = mBit (me s) md.toNat k e) ∧
    (me t).fflags = (me s).fflags ∧ VecFrame [] [] [md.toNat] [] s t

/-- MLOGIC's operations by func (R353). -/
def logicOf (op : BitVec 3) (a b : Bool) : Bool :=
  if op = 0 then a && b else if op = 1 then a || b else if op = 2 then a ^^ b else if op = 3 then a && !b
  else if op = 4 then a || !b else if op = 5 then !(a && b) else if op = 6 then !(a || b) else !(a ^^ b)

/-- R348, R353: MSET and MLOGIC complete and write bit (k, e) for the rows and elements of their sweep only. -/
def MaskWrites : Prop :=
  ∀ (s : State) (md ma mb : Idx3) (row : Option (BitVec 3)) (op : BitVec 3) (ew : BitVec 2) (va ga : Reg),
    (VecReady 8 row s →
      MaskWrite (.msetAll md row) md row (fun _ _ => true) s ∧ MaskWrite (.msetNone md row) md row (fun _ _ => false) s ∧
      MaskWrite (.msetLt md ga row) md row (fun _ e => decide (e < (gGet ga s).toNat)) s ∧
      MaskWrite (.mlogic op md ma mb row) md row
        (fun k e => logicOf op (mBit (me s) ma.toNat k e) (mBit (me s) mb.toNat k e)) s) ∧
    (VecReady (ewBits ew) row s →
      MaskWrite (.msetNz ew md va row) md row (fun k e => vElem (me s) va.toNat k e (ewBits ew) != 0) s)

/-- Sweep indices of the tile whose bit of a mask is set, in order (R200). -/
def setIndices (m : Nat) (s : State) : List Nat :=
  (List.range ((me s).rc * (me s).vl)).filter (fun i => mBit (me s) m (i / (me s).vl) (i % (me s).vl))

/-- R353, R356: MPOPC counts the set bits of the tile and MFIRST finds the lowest sweep index, all ones when none; the queue
forms append the same to q4 or q5. -/
def MaskReads : Prop :=
  ∀ (s : State) (d : Reg) (ma : Idx3) (q : Idx3), VecReady 8 none s → q = 4 ∨ q = 5 →
    let count : Word := BitVec.ofNat 64 (setIndices ma.toNat s).length
    let first : Word := match (setIndices ma.toNat s).head? with
      | some i => BitVec.ofNat 64 i
      | none => BitVec.allOnes 64
    let toReg (i : Instr) (v : Word) : Prop := ∃ t, exec i s = .next t ∧ gGet d t = (if d = 0 then 0 else v) ∧
      (me t).fflags = (me s).fflags ∧ VecFrame [d] [] [] [] s t
    let toQueue (i : Instr) (v : Word) : Prop := ∃ t, exec i s = .next t ∧
      queueOfHart t q.toNat = queueOfHart s q.toNat ++ [v] ∧ (me t).fflags = (me s).fflags ∧ VecFrame [] [q.toNat] [] [] s t
    toReg (.mpopc d ma) count ∧ toReg (.mfirst d ma) first ∧
    ((queueOfHart s q.toNat).length < 8 → toQueue (.mpopcQ q ma) count ∧ toQueue (.mfirstQ q ma) first)

/-- MaskWrites and MaskReads, together. -/
def Obligations.Masks : Prop := MaskWrites ∧ MaskReads

/-- The relation of a compare by func, with the flags of a float compare (R354). -/
def compareOf (cond : BitVec 3) (ty : ElemTy) (a b : Nat) : Bool × Fl :=
  let float (x y : Val) : Bool × Fl :=
    let un := x.isNan || y.isNan
    let sig := flagIf (x.isSig || y.isSig) flInvalid
    if cond = 0 then (!un && eqV x y, sig) else if cond = 1 then (un || !eqV x y, sig)
    else if cond = 2 then (!un && ltV x y, flagIf un flInvalid)
    else if cond = 3 then (!un && (ltV x y || eqV x y), flagIf un flInvalid)
    else if cond = 4 then (!un && ltV y x, flagIf un flInvalid)
    else if cond = 5 then (!un && (ltV y x || eqV x y), flagIf un flInvalid) else (un, sig)
  let int (x y : Int) : Bool × Fl :=
    (if cond = 0 then x == y else if cond = 1 then x != y else if cond = 2 then decide (x < y)
     else if cond = 3 then decide (x ≤ y) else if cond = 4 then decide (y < x) else if cond = 5 then decide (y ≤ x)
     else false, 0)
  match ty with
  | .f32 => float (decodeF fp32 a) (decodeF fp32 b)
  | .bf16 => float (decodeF bf16 a) (decodeF bf16 b)
  | .f16 => float (decodeF fp16 a) (decodeF fp16 b)
  | .sint ew => int (intOf false (ewBits ew) a) (intOf false (ewBits ew) b)
  | .uint ew => int (intOf true (ewBits ew) a) (intOf true (ewBits ew) b)

/-- R354: VCMP completes; each active element writes its bit of md, inactive bits keep their values, and a float compare
raises invalid as the table says. -/
def Obligations.VectorCompare : Prop :=
  ∀ (s : State) (cond : BitVec 3) (md : Idx3) (va : Reg) (b : Src2) (ty : ElemTy) (rnd : BitVec 2) (mask : MaskSel)
    (row : Option (BitVec 3)), VecReady (Machine.tyBits ty) row s →
    let r (k e : Nat) : Bool × Fl :=
      compareOf cond ty (vElem (me s) va.toNat k e (Machine.tyBits ty)) (secondOf b s k e (Machine.tyBits ty))
    ∃ t, exec (.vcmp cond md va b ty rnd mask row) s = .next t ∧
      (∀ k e, InSweep row s k e → mBit (me t) md.toNat k e =
        if md = 0 then true else if active (me s) mask k e then (r k e).1 else mBit (me s) md.toNat k e) ∧
      (∀ k e, k < 8 → ¬ InSweep row s k e → mBit (me t) md.toNat k e = mBit (me s) md.toNat k e) ∧
      FlagsAre row mask (fun k e => (r k e).2) s t ∧ VecFrame [] [] [md.toNat] [] s t

/-- R355, R356: VMOV, VSPLAT, VSPLAT.q, VIOTA, VSEL and VPUT complete and write their elements; VSPLAT.q takes one entry of its queue
for the whole instruction; VSEL writes inactive elements too. -/
def ElementMoves : Prop :=
  ∀ (s : State) (ew : BitVec 2) (vd va vb ga gb : Reg) (imm : BitVec 16) (q : BitVec 2) (mask : MaskSel)
    (row : Option (BitVec 3)), let w := ewBits ew
    (VecReady w row s →
      ElementWise (.vmov ew vd va mask row) vd w row mask (fun k e => (vElem (me s) va.toNat k e w, 0)) s ∧
      ElementWise (.vsplat ew vd gb mask row) vd w row mask (fun _ _ => ((gGet gb s).toNat % 2 ^ w, 0)) s ∧
      ElementWise (.viota ew vd ga gb mask row) vd w row mask
        (fun _ e => ((gGet ga s + BitVec.ofNat 64 e * gGet gb s).toNat % 2 ^ w, 0)) s ∧
      (∀ x r, queueOfHart s q.toNat = x :: r → ∃ t, exec (.vsplatQ ew vd q mask row) s = .next t ∧
        queueOfHart t q.toNat = r ∧ ElemsAre vd w row mask (fun _ _ => x.toNat % 2 ^ w) s t ∧ TailSame vd w row s t ∧
        (me t).fflags = (me s).fflags ∧ VecFrame [] [q.toNat] [] [vd.toNat] s t)) ∧
    (∀ one : Bool, VecReady w (if one then some (imm.setWidth 3) else none) s →
      ElementWise (.vsplatImm ew vd imm mask one) vd w (if one then some (imm.setWidth 3) else none) mask
        (fun _ _ => ((imm.signExtend 64).toNat % 2 ^ w, 0)) s) ∧
    (VecReady w row s →
      ∃ t, exec (.vsel ew vd va vb mask row) s = .next t ∧
        (∀ k e, InSweep row s k e → vElem (me t) vd.toNat k e w =
          if active (me s) mask k e then vElem (me s) va.toNat k e w else vElem (me s) vb.toNat k e w) ∧
        TailSame vd w row s t ∧ (me t).fflags = (me s).fflags ∧ VecFrame [] [] [] [vd.toNat] s t) ∧
    (VecReady w none s →
      (∃ t, exec (.vput ew vd ga gb) s = .next t ∧ (me t).fflags = (me s).fflags ∧
        (∀ k e, k < 8 → (e + 1) * w ≤ 16384 → vElem (me t) vd.toNat k e w =
          if k < (me s).rc ∧ e < (me s).vl ∧ k * (me s).vl + e = (gGet gb s).toNat then (gGet ga s).toNat % 2 ^ w
          else vElem (me s) vd.toNat k e w) ∧ VecFrame [] [] [] [vd.toNat] s t))

/-- R355, R356: VGET writes the element with sweep index g(gb), sign- or zero-extended, or 0 beyond the tile, to gd; VGET.q appends
the same to q4 or q5. -/
def ElementToScalar : Prop :=
  ∀ (s : State) (u : Bool) (ew : BitVec 2) (d va gb : Reg) (q : Idx3), VecReady (ewBits ew) none s → q = 4 ∨ q = 5 →
    let w := ewBits ew; let i := (gGet gb s).toNat
    let v : Word := if (me s).rc * (me s).vl ≤ i then 0
      else if u then BitVec.ofNat 64 (vElem (me s) va.toNat (i / (me s).vl) (i % (me s).vl) w)
      else BitVec.ofInt 64 (intOf false w (vElem (me s) va.toNat (i / (me s).vl) (i % (me s).vl) w))
    (∃ t, exec (.vget u ew d va gb) s = .next t ∧ gGet d t = (if d = 0 then 0 else v) ∧ (me t).fflags = (me s).fflags ∧
      VecFrame [d] [] [] [] s t) ∧
    ((queueOfHart s q.toNat).length < 8 → ∃ t, exec (.vgetQ u ew q va gb) s = .next t ∧
      queueOfHart t q.toNat = queueOfHart s q.toNat ++ [v] ∧ (me t).fflags = (me s).fflags ∧ VecFrame [] [q.toNat] [] [] s t)

/-- ElementMoves and ElementToScalar, together. -/
def Obligations.Moves : Prop := ElementMoves ∧ ElementToScalar

/-! ## Element-wise arithmetic -/

/-- A two-source element-wise instruction whose active elements get `r` of a, b and the old destination. -/
def TwoSource (i : Ew2 → Instr) (r : Ew2 → Nat → Nat → Nat → Nat × Fl) (o : Ew2) (s : State) : Prop :=
  let w := Machine.tyBits o.ty
  ElementWise (i o) o.vd w o.row o.mask
    (fun k e => r o (vElem (me s) o.va.toNat k e w) (secondOf o.b s k e w) (vElem (me s) o.vd.toNat k e w)) s

/-- R287, R288, R357: VADD, VSUB, VMUL, VFMA, VDIV, VMIN and VMAX complete. Integer results are exact, then wrapped with intovf or
clamped with saturated; float results are rounded once; division by zero gives all ones with divzero; inactive and
tail elements keep their values and raise no flag. -/
def Obligations.VectorArithmetic : Prop :=
  ∀ (s : State) (o : Ew2), VecReady (Machine.tyBits o.ty) o.row s →
    let rm := o.rnd.toNat
    TwoSource .vadd (fun o => typed o.ty (fun f a b _ => rounded f rm o.sat (addV rm a b))
      (fun u w a b _ => exactInt u o.sat w (a + b))) o s ∧
    TwoSource .vsub (fun o => typed o.ty (fun f a b _ => rounded f rm o.sat (addV rm a b.neg))
      (fun u w a b _ => exactInt u o.sat w (a - b))) o s ∧
    TwoSource .vmul (fun o => typed o.ty (fun f a b _ => rounded f rm o.sat (mulV a b))
      (fun u w a b _ => exactInt u o.sat w (a * b))) o s ∧
    TwoSource .vfma (fun o => typed o.ty
      (fun f a b d => rounded f rm o.sat ((sumV rm [(mulV a b).1, d]).1, (mulV a b).2 ||| (sumV rm [(mulV a b).1, d]).2))
      (fun u w a b d => exactInt u o.sat w (a * b + d))) o s ∧
    TwoSource .vdiv (fun o => typed o.ty (fun f a b _ => rounded f rm o.sat (divV a b))
      (fun u w a b _ => if b = 0 then (2 ^ w - 1, flDivzero) else exactInt u false w (a.tdiv b))) o s ∧
    TwoSource .vmin (fun o => typed o.ty (fun f a b _ => rounded f 0 false (minV a b))
      (fun _ w a b _ => (((if a < b then a else b) % 2 ^ w).toNat, 0))) o s ∧
    TwoSource .vmax (fun o => typed o.ty (fun f a b _ => rounded f 0 false (maxV a b))
      (fun _ w a b _ => (((if a < b then b else a) % 2 ^ w).toNat, 0))) o s

/-- R357: the bit instructions and shifts complete on integer elements and raise no flag; shift counts are taken modulo the
element width, and VSHR is logical with .u and arithmetic without. -/
def VectorLogic : Prop :=
  ∀ (s : State) (o : Ew2), VecReady (Machine.tyBits o.ty) o.row s → o.ty.isFloat = false →
    let w := Machine.tyBits o.ty
    let bits (f : BitVec w → BitVec w → BitVec w) (_ : Ew2) (a b _ : Nat) : Nat × Fl :=
      ((f (BitVec.ofNat w a) (BitVec.ofNat w b)).toNat, 0)
    TwoSource .vand (bits (fun a b => a &&& b)) o s ∧ TwoSource .vor (bits (fun a b => a ||| b)) o s ∧
    TwoSource .vxor (bits (fun a b => a ^^^ b)) o s ∧ TwoSource .vshl (bits (fun a b => a <<< (b.toNat % w))) o s ∧
    TwoSource .vshr (bits (fun a b => if o.ty.isUns then a >>> (b.toNat % w) else a.sshiftRight (b.toNat % w))) o s

/-- R357: VABS and VNEG complete. Float results are exact, with the canonical NaN for a NaN; an integer result follows
R287, so the most negative value wraps with intovf or is clamped. -/
def VectorAbsNeg : Prop :=
  ∀ (s : State) (o : Ew1), VecReady (Machine.tyBits o.ty) o.row s →
    let w := Machine.tyBits o.ty
    let a (k e : Nat) : Nat := vElem (me s) o.va.toNat k e w
    ElementWise (.vabs o) o.vd w o.row o.mask
      (fun k e => typed o.ty (fun f x _ _ => convertV f 0 false x.abs)
        (fun u w x _ _ => exactInt u o.sat w (if x < 0 then -x else x)) (a k e) 0 0) s ∧
    ElementWise (.vneg o) o.vd w o.row o.mask
      (fun k e => typed o.ty (fun f x _ _ => convertV f 0 false x.neg) (fun u w x _ _ => exactInt u o.sat w (-x)) (a k e) 0 0) s

/-- VectorLogic and VectorAbsNeg, together. -/
def Obligations.VectorBitsAndSigns : Prop := VectorLogic ∧ VectorAbsNeg

/-! ## Functions, conversion and quantising -/

/-- The result of a VCVT of one code with its flags (R359): format to format rounds once, a signalling NaN raising invalid;
an integer source is exact before its rounding; an integer result is rounded in the mode and clamped. -/
def conversionOf (form : CvtForm) (rm : Nat) (sat : Bool) (x : Nat) : Nat × Fl :=
  match form with
  | .fmt d f => ((encodeFmt d.toNat rm sat (decodeFmt f.toNat x)).1,
      (encodeFmt d.toNat rm sat (decodeFmt f.toNat x)).2 ||| flagIf (decodeFmt f.toNat x).isSig flInvalid)
  | .fromInt u ew d => encodeFmt d.toNat rm sat (ofInt (intOf u (ewBits ew) x))
  | .toInt u ew f =>
    let z := toIntV rm (if u then 0 else -(2 ^ (ewBits ew - 1))) (if u then 2 ^ ewBits ew - 1 else 2 ^ (ewBits ew - 1) - 1)
      (decodeFmt f.toNat x)
    ((z.1 % 2 ^ ewBits ew).toNat, z.2)

/-- R358, R359: VSFU and VCVT complete; each active element gets the function of its source rounded once in the mode; the
reciprocal is 1 divided by the source and the square root that of R286. -/
def Obligations.FunctionsAndConversion : Prop :=
  ∀ (s : State) (fn : BitVec 3) (fmt rnd : BitVec 2) (sat : Bool) (vd va : Reg) (mask : MaskSel) (row : Option (BitVec 3))
    (form : CvtForm) (one : Bool),
    (let w := f012Bits fmt
     let x (k e : Nat) : Val := decodeF (f012 fmt) (vElem (me s) va.toNat k e w)
     fmt ≠ 3 → VecReady w row s → ElementWise (.vsfu fn fmt rnd sat vd va mask row) vd w row mask (fun k e =>
       rounded (f012 fmt) rnd.toNat sat
         (if fn = 0 then divV (.fin false 1 0) (x k e) else if fn = 2 then sqrtV (x k e) else sfuOp fn.toNat (x k e))) s) ∧
    (let src := (CvtForm.srcOpd rnd.toNat sat form).bits; let dst := CvtForm.dstBits form
     VecReady (max src dst) (cvtRow form one) s → (src ≠ dst → vd ≠ va) →
       ElementWise (.vcvt form rnd sat vd va mask one) vd dst (cvtRow form one) mask
         (fun k e => conversionOf form rnd.toNat sat (vElem (me s) va.toNat k e src)) s)

/-- R122, R360: VHAD completes; every element below VL of a group of 128 gets the element of the group's rotation, rounded from
FP32 in the mode, the source being read as FP32 with zeros beyond VL. -/
def Obligations.HadamardRotation : Prop :=
  ∀ (s : State) (fmt rnd : BitVec 2) (vd va : Reg) (row : Option (BitVec 3)), let w := f012Bits fmt
    fmt ≠ 3 → VecReady w row s →
    let group (k e : Nat) : List Nat := (List.range 128).map (fun i =>
      if 128 * (e / 128) + i < (me s).vl then
        (convertV fp32 0 false (decodeF (f012 fmt) (vElem (me s) va.toNat k (128 * (e / 128) + i) w))).1 else 0)
    ∃ t, exec (.vhad fmt rnd vd va row) s = .next t ∧
      (∀ k e, InSweep row s k e → vElem (me t) vd.toNat k e w =
        (convertV (f012 fmt) rnd.toNat false (decodeF fp32 ((rotate128 (group k e)).1.getD (e % 128) 0))).1) ∧
      TailSame vd w row s t ∧ VecFrame [] [] [] [vd.toNat] s t

/-- The widths and the overlap that VQNT and VDQNT allow (R203, R224). -/
def QuantReady (o : QntOp) (s : State) : Prop :=
  let src := bitsFmt o.src.toNat; let dst := bitsFmt o.dst.toNat
  VecReady (max src dst) (qntRow o) s ∧ (src ≠ dst → o.vd ≠ o.va)

/-- An explicit scale that VQNT.sc refuses: zero, negative, infinite or NaN. -/
def badScale : Val → Bool
  | .fin neg m _ => neg || m == 0
  | .inf _ => true
  | .nan _ => true

/-- R361, R362: VQNT.sc and VDQNT.sc complete with the scale in the low half of g(gb): VQNT.sc divides, rounds and saturates at
the format's limit, VDQNT.sc multiplies and rounds once. A bad scale gives the NaN code, or 0, and raises invalid, whatever
elements are active. -/
def Obligations.ExplicitScales : Prop :=
  ∀ (s : State) (o : QntOp), QuantReady o s →
    let scale := decodeF fp32 ((gGet o.gb s).toNat % 2 ^ 32)
    let x (k e : Nat) : Nat := vElem (me s) o.va.toNat k e (bitsFmt o.src.toNat)
    ((o.src = 0 ∨ o.src = 1 ∨ o.src = 2) →
      (badScale scale = false → ElementWise (.vqntSc o) o.vd (bitsFmt o.dst.toNat) (qntRow o) o.mask (fun k e =>
        let q := quantize o.dst.toNat o.rnd.toNat scale (decodeFmt o.src.toNat (x k e))
        (q.1, q.2.1)) s) ∧
      (badScale scale = true → ∃ t, exec (.vqntSc o) s = .next t ∧
        ElemsAre o.vd (bitsFmt o.dst.toNat) (qntRow o) o.mask (fun _ _ => nanCode o.dst.toNat) s t ∧
        (me t).fflags = (me s).fflags ||| flInvalid ∧ TailSame o.vd (bitsFmt o.dst.toNat) (qntRow o) s t ∧
        VecFrame [] [] [] [o.vd.toNat] s t)) ∧
    ((o.dst = 0 ∨ o.dst = 1 ∨ o.dst = 2) → ElementWise (.vdqnt true o) o.vd (bitsFmt o.dst.toNat) (qntRow o) o.mask (fun k e =>
      let p := mulV (decodeFmt o.src.toNat (x k e)) scale
      rounded (f012 (o.dst.truncate 2)) o.rnd.toNat o.sat (p.1, p.2 ||| flagIf scale.isNan flInvalid)) s)

/-- R154 to R157, R361, R362: with its record present, and the anemometer of its die admitted to it (R30), VQNT uses the scale
of R155 for the record's largest magnitude. Where no active element overflows it is element-wise and writes no memory. Where
some overflows, the elements are saturated, and RESCALE is pending at the lowest of them exactly when TE is set. VDQNT
multiplies by the record's scale. A record that is not present raises ACCESS with reason 4 at element 0, and one that the
anemometer may not read ACCESS with the denial's reason (R34; TRAPADDR is log 57's); neither writes an element. -/
def Obligations.RecordScales : Prop :=
  ∀ (s : State) (o : QntOp), QuantReady o s →
    let part := (me s).part.toNat; let r := (gGet o.gb s).toNat
    let absmax := seenAbsmax s (dieNo s.cur) part r
    let x (k e : Nat) : Nat := vElem (me s) o.va.toNat k e (bitsFmt o.src.toNat)
    let q (k e : Nat) := quantize o.dst.toNat o.rnd.toNat (decodeF fp32 (recordScale absmax o.dst.toNat))
      (decodeFmt o.src.toNat (x k e))
    let ovf (k e : Nat) : Prop := InSweep (qntRow o) s k e ∧ active (me s) o.mask k e = true ∧ (q k e).2.2 = true
    let may (kind : AccKind) : Prop := recCode s (dieNo s.cur) part r kind = 0
    (recPresent s part r = true → may .read → (o.src = 0 ∨ o.src = 1 ∨ o.src = 2) →
      ((¬ ∃ k e, ovf k e) → ElementWise (.vqnt o) o.vd (bitsFmt o.dst.toNat) (qntRow o) o.mask
        (fun k e => ((q k e).1, (q k e).2.1)) s) ∧
      (may .write → (∃ k e, ovf k e) → ∃ t, exec (.vqnt o) s = .next t ∧
        ElemsAre o.vd (bitsFmt o.dst.toNat) (qntRow o) o.mask (fun k e => (q k e).1) s t ∧
        ((recCtl s part r).testBit 12 = false → (me t).pend = none) ∧
        ((recCtl s part r).testBit 12 = true → ∃ p, (me t).pend = some p ∧ p.flt = mkFlt 9 0 (r % 65536 + 65536) ∧
          p.lpc = (me s).pc ∧ (∃ k e, ovf k e ∧ p.elem = k * (me s).vl + e) ∧
          ∀ k e, ovf k e → p.elem ≤ k * (me s).vl + e))) ∧
    (recPresent s part r = true → may .read → (o.dst = 0 ∨ o.dst = 1 ∨ o.dst = 2) →
      (absmax = 0 ∨ (o.src ≠ 6 ∧ o.src ≠ 8 ∧ o.src ≠ 11)) →
      ElementWise (.vdqnt false o) o.vd (bitsFmt o.dst.toNat) (qntRow o) o.mask (fun k e =>
        let sc := decodeF fp32 (recordScale absmax o.src.toNat)
        let p := mulV (decodeFmt o.src.toNat (x k e)) sc
        rounded (f012 (o.dst.truncate 2)) o.rnd.toNat o.sat (p.1, p.2 ||| flagIf sc.isNan flInvalid)) s) ∧
    (∀ i ∈ [Instr.vqnt o, .vdqnt false o],
      let stopped (reason : Nat) : Prop := ∃ t p, exec i s = .next t ∧ (me t).pend = some p ∧ p.flt = mkFlt 5 r reason ∧
        p.elem = 0 ∧ (me t).r = (me s).r ∧ MemSame s t
      (recPresent s part r = false → stopped 4) ∧
      (recPresent s part r = true → ¬ may .read → stopped (recCode s (dieNo s.cur) part r .read)))

/-- R363: VLUT completes when its codebook can be read: each active element (k, e) with table g0 + k at most 15 and e below 256
gets the FP32 sum of products of the query's eight values and the entry's, any other active element 0. -/
def Obligations.LookupTables : Prop :=
  ∀ (s s1 : State) (qf rnd : BitVec 2) (g0 : BitVec 4) (vd va gb : Reg) (mask : MaskSel) (bs : List (List Byte)),
    qf ≠ 3 → MemReady (max 32 (f012Bits qf)) none s → vd ≠ va →
    let cb := (gGet gb s).toNat
    let known (p : Nat × Nat) : Bool := decide (g0.toNat + p.1 ≤ 15 ∧ p.2 ≤ 255)
    let at' := (activeOf none mask s).filter known
    cb % 64 = 0 → ReadsAre (vWho (captureCtx s) s) 16 (at'.map (fun p : Nat × Nat => wrapTo 64 (cb + 16 * p.2))) bs s s1 →
    let query (k j : Nat) : Val := decodeF (f012 qf) (vElem (me s) va.toNat 0 (8 * (g0.toNat + k) + j) (f012Bits qf))
    ∃ t, exec (.vlut qf g0 rnd vd va gb mask) s = .next t ∧
      (∀ (n : Nat) (p : Nat × Nat) (entry : List Byte), at'[n]? = some p → bs[n]? = some entry → vElem (me t) vd.toNat p.1 p.2 32 =
        (lutSum rnd.toNat ((List.range 8).map (query p.1)) entry).1) ∧
      (∀ k e, InSweep none s k e → known (k, e) = false →
        vElem (me t) vd.toNat k e 32 = if active (me s) mask k e then 0 else vElem (me s) vd.toNat k e 32) ∧
      (∀ k e, InSweep none s k e → active (me s) mask k e = false →
        vElem (me t) vd.toNat k e 32 = vElem (me s) vd.toNat k e 32) ∧
      TailSame vd 32 none s t ∧ RegFrame [] [] [] [vd.toNat] s t ∧ MemSame s1 t

/-! ## Reductions and rearrangements -/

/-- The elements that a reduction takes, in order, absent where inactive. -/
def takenOf (o : RedOp) (at' : List (Nat × Nat)) (s : State) : List (Option Nat) :=
  at'.map (fun p => if active (me s) o.mask p.1 p.2 then some (vElem (me s) o.va.toNat p.1 p.2 (Machine.tyBits o.ty)) else none)

/-- R292, R364: VRED completes in each of its forms: the tree of R292 over the active elements, joined with the seed in g(gb),
goes to gd or a queue, extended by its type, or, row by row, to element 0 of vd. -/
def Obligations.Reductions : Prop :=
  ∀ (s : State) (o : RedOp), let w := Machine.tyBits o.ty
    VecReady w none s →
    let f := redApply o.op.toNat o.ty o.rnd.toNat o.sat
    let seed := (gGet o.gb s).toNat % 2 ^ w
    let all := reduceV f seed (takenOf o (tileOf (captureCtx s) (List.range (me s).rc)) s)
    let row (k : Nat) := reduceV f seed (takenOf o (rowAt (captureCtx s) k) s)
    let v : Word := if o.ty.isFloat || o.ty.isUns then BitVec.ofNat 64 all.1 else BitVec.ofInt 64 (intOf false w all.1)
    (∃ t, exec (.vred o) s = .next t ∧ gGet o.d t = (if o.d = 0 then 0 else v) ∧
      (me t).fflags = (me s).fflags ||| all.2 ∧ VecFrame [o.d] [] [] [] s t) ∧
    (let q := o.d.toNat % 8
     (q = 4 ∨ q = 5) → (queueOfHart s q).length < 8 → ∃ t, exec (.vredQ o) s = .next t ∧
      queueOfHart t q = queueOfHart s q ++ [v] ∧ (me t).fflags = (me s).fflags ||| all.2 ∧ VecFrame [] [q] [] [] s t) ∧
    (o.d ≠ o.va → ∃ t, exec (.vredRow o) s = .next t ∧
      (∀ k e, k < 8 → (e + 1) * w ≤ 16384 → vElem (me t) o.d.toNat k e w =
        if k < (me s).rc ∧ e = 0 ∧ (me s).vl ≠ 0 then (row k).1 else vElem (me s) o.d.toNat k e w) ∧
      VecFrame [] [] [] [o.d.toNat] s t)

/-- R292, R287: an integer add reduction without .sat gives the seed plus the sum of the active elements, modulo the width,
however the tree joins them. -/
def Obligations.SumReduction : Prop :=
  ∀ (s : State) (o : RedOp), let w := Machine.tyBits o.ty
    VecReady w none s → o.op = 0 → o.ty.isFloat = false → o.sat = false →
    ∃ t x, exec (.vred o) s = .next t ∧ gGet o.d t = (if o.d = 0 then 0 else BitVec.ofInt 64 (intOf o.ty.isUns w x)) ∧
      x = ((gGet o.gb s).toNat % 2 ^ w +
        ((takenOf o (tileOf (captureCtx s) (List.range (me s).rc)) s).map (fun v => v.getD 0)).sum) % 2 ^ w

/-- R293, R365: VSCAN completes: along each row the running value of the operation, begun with the seed, is applied in element
order; an active element gets it after its own application, or before it with .excl; inactive ones keep theirs. -/
def Obligations.Scans : Prop :=
  ∀ (s : State) (excl : Bool) (o : RedOp), let w := Machine.tyBits o.ty
    VecReady w none s → o.d ≠ o.va →
    let f := redApply o.op.toNat o.ty o.rnd.toNat o.sat
    let upto (k n : Nat) : Nat := ((List.range n).filter (fun e => active (me s) o.mask k e)).foldl
      (fun x e => (f x (vElem (me s) o.va.toNat k e w)).1) ((gGet o.gb s).toNat % 2 ^ w)
    ∃ t, exec (.vscan excl o) s = .next t ∧
      ElemsAre o.d w none o.mask (fun k e => upto k (if excl then e else e + 1) % 2 ^ w) s t ∧ TailSame o.d w none s t ∧
      VecFrame [] [] [] [o.d.toNat] s t

/-- R366, R367, R368: the slides, permutes and compress complete and move elements as the tables say; positions that they do not
write keep their values. -/
def Obligations.Rearrangements : Prop :=
  ∀ (s : State) (amt : SlideAmt) (ew : BitVec 2) (vd va vb : Reg) (mask : MaskSel) (tile : Bool), let w := ewBits ew
    let vl := (me s).vl
    let d : Nat := match amt with
      | .g r => (gGet r s).toNat
      | .imm i => i.toNat
    let x (k e : Nat) : Nat := vElem (me s) va.toNat k e w
    let old (k e : Nat) : Nat := vElem (me s) vd.toNat k e w
    let does (i : Instr) (val : Nat → Nat → Nat) : Prop := ∃ t, exec i s = .next t ∧ ElemsAre vd w none mask val s t ∧
      TailSame vd w none s t ∧ (me t).fflags = (me s).fflags ∧ VecFrame [] [] [] [vd.toNat] s t
    (VecReady w none s → vd ≠ va →
      does (.vslideUp amt ew vd va mask) (fun k e => if d ≤ e then x k (e - d) else old k e) ∧
      does (.vslideDn amt ew vd va mask) (fun k e => if e + d < vl then x k (e + d) else 0) ∧
      (let kept (k : Nat) := (List.range vl).filter (fun e => active (me s) mask k e)
       ∃ t, exec (.vcomp ew vd va mask) s = .next t ∧
        (∀ k e, InSweep none s k e → vElem (me t) vd.toNat k e w =
          if e < (kept k).length then x k ((kept k).getD e 0) else old k e) ∧
        TailSame vd w none s t ∧ (me t).fflags = (me s).fflags ∧ VecFrame [] [] [] [vd.toNat] s t)) ∧
    (VecReady (max 16 w) none s → vd ≠ va → vd ≠ vb →
      does (.vperm tile ew vd va vb mask) (fun k e =>
        let i := vElem (me s) vb.toNat k e 16
        if tile then (if i < (me s).rc * vl then x (i / vl) (i % vl) else 0) else if i < vl then x k i else 0))

/-- Whether key a at element i comes before key b at element j (R369): by decreasing value, equal keys with the higher index
first, every NaN below all others. -/
def keyBefore (ty : ElemTy) (i a j b : Nat) : Prop :=
  let above (a b : Nat) : Prop := match ty with
    | .f32 => ((decodeF fp32 b).isNan = true ∧ (decodeF fp32 a).isNan = false) ∨ ltV (decodeF fp32 b) (decodeF fp32 a) = true
    | .bf16 => ((decodeF bf16 b).isNan = true ∧ (decodeF bf16 a).isNan = false) ∨ ltV (decodeF bf16 b) (decodeF bf16 a) = true
    | .f16 => ((decodeF fp16 b).isNan = true ∧ (decodeF fp16 a).isNan = false) ∨ ltV (decodeF fp16 b) (decodeF fp16 a) = true
    | .sint ew => intOf false (ewBits ew) b < intOf false (ewBits ew) a
    | .uint _ => b < a
  above a b ∨ (¬ above b a ∧ j < i)

/-- A key as VTOPK.key delivers it: the canonical NaN of R280 for a NaN. -/
def keyDelivered (ty : ElemTy) (v : Nat) : Nat :=
  match ty with
  | .f32 => if (decodeF fp32 v).isNan then 0x7FC00000 else v
  | .bf16 => if (decodeF bf16 v).isNan then 0x7FC0 else v
  | .f16 => if (decodeF fp16 v).isNan then 0x7E00 else v
  | .sint _ => v
  | .uint _ => v

/-- The flag of reading a key: invalid for a signalling NaN (R280). -/
def keyFlag (ty : ElemTy) (v : Nat) : Fl :=
  match ty with
  | .f32 => flagIf (decodeF fp32 v).isSig flInvalid
  | .bf16 => flagIf (decodeF bf16 v).isSig flInvalid
  | .f16 => flagIf (decodeF fp16 v).isSig flInvalid
  | .sint _ => 0
  | .uint _ => 0

open Classical in
/-- The place of element e among the active keys of row k. -/
noncomputable def keyRank (o : TopkOp) (s : State) (k e : Nat) : Nat :=
  let key (i : Nat) : Nat := vElem (me s) o.va.toNat k i (Machine.tyBits o.ty)
  ((List.range (me s).vl).filter (fun j => active (me s) o.mask k j && decide (keyBefore o.ty j (key j) e (key e)))).length

/-- R280, R369: VTOPK completes in its three forms: the first c of the active keys in order give their indices with 0xFFFFFFFF
up to min(k, VL), or themselves, a NaN as the canonical one, or the bits of a mask. A signalling NaN among the active
keys raises invalid, and no other flag is raised. -/
def Obligations.TopK : Prop :=
  ∀ (s : State) (o : TopkOp), let w := Machine.tyBits o.ty; let n := (gGet o.gb s).toNat
    let act (k e : Nat) : Prop := InSweep none s k e ∧ active (me s) o.mask k e = true
    let count (k : Nat) : Nat := ((List.range (me s).vl).filter (fun e => active (me s) o.mask k e)).length
    let flags (t : State) : Prop := FlagsAre none o.mask (fun k e => keyFlag o.ty (vElem (me s) o.va.toNat k e w)) s t
    (VecReady (max 32 w) none s → o.d ≠ o.va → ∃ t, exec (.vtopkIdx o) s = .next t ∧
      (∀ k e, act k e → keyRank o s k e < n → vElem (me t) o.d.toNat k (keyRank o s k e) 32 = e) ∧
      (∀ k j, InSweep none s k j → count k ≤ j → j < n → vElem (me t) o.d.toNat k j 32 = 0xFFFFFFFF) ∧
      (∀ k j, InSweep none s k j → n ≤ j → vElem (me t) o.d.toNat k j 32 = vElem (me s) o.d.toNat k j 32) ∧
      flags t ∧ TailSame o.d 32 none s t ∧ VecFrame [] [] [] [o.d.toNat] s t) ∧
    (VecReady w none s → o.d ≠ o.va → ∃ t, exec (.vtopkKey o) s = .next t ∧
      (∀ k e, act k e → keyRank o s k e < n →
        vElem (me t) o.d.toNat k (keyRank o s k e) w = keyDelivered o.ty (vElem (me s) o.va.toNat k e w)) ∧
      (∀ k j, InSweep none s k j → (count k ≤ j ∨ n ≤ j) → vElem (me t) o.d.toNat k j w = vElem (me s) o.d.toNat k j w) ∧
      flags t ∧ TailSame o.d w none s t ∧ VecFrame [] [] [] [o.d.toNat] s t) ∧
    (let m := o.d.toNat % 8
     VecReady w none s → o.mask.m.toNat ≠ m → ∃ t, exec (.vtopkMask o) s = .next t ∧
      (∀ k e, InSweep none s k e → m ≠ 0 →
        (mBit (me t) m k e = true ↔ active (me s) o.mask k e = true ∧ keyRank o s k e < n)) ∧
      (∀ k e, k < 8 → ¬ InSweep none s k e → mBit (me t) m k e = mBit (me s) m k e) ∧ flags t ∧ VecFrame [] [] [m] [] s t)

/-! ## Vector memory -/

/-- The elements at the places hold these bytes, in order; the sweep's other elements what they held. -/
def Loaded (d : Reg) (w : Nat) (row : Option (BitVec 3)) (at' : List (Nat × Nat)) (bs : List (List Byte)) (s t : State) :
    Prop :=
  (∀ (n : Nat) (p : Nat × Nat) (b : List Byte), at'[n]? = some p → bs[n]? = some b →
    vElem (me t) d.toNat p.1 p.2 w = ofBytes b % 2 ^ w) ∧
  (∀ k e, InSweep row s k e → (k, e) ∉ at' → vElem (me t) d.toNat k e w = vElem (me s) d.toNat k e w)

/-- R54, R57, R302, R350, R370: VLD and VST whose accesses succeed complete: the active elements, in the order of R303, are read from or
written to the addresses of their form, each of one element's bytes, with one translation held for a page. Where the accesses before an element succeed and
its own faults, VLD stops there: the elements before it are loaded and the fault is pending with that sweep index. -/
def Obligations.VectorLoadsAndStores : Prop :=
  ∀ (s s1 : State) (o : VMemOp) (bs : List (List Byte)), let w := ewBits o.ew; let row := memRow o.off.toNat o.row
    let at' := activeOf row o.mask s
    let addr (p : Nat × Nat) : Nat := vmemAddr o (captureCtx s) p.1 p.2
    let who := { vWho (captureCtx s) s with hold := 1 }
    MemReady w row s → (∀ p ∈ at', addr p % ewBytes o.ew = 0) →
    (ReadsAre who (ewBytes o.ew) (at'.map addr) bs s s1 →
      ∃ t, exec (.vld o) s = .next t ∧ Loaded o.v w row at' bs s t ∧ TailSame o.v w row s t ∧
        (me t).fflags = (me s).fflags ∧ RegFrame [] [] [] [o.v.toNat] s t ∧ MemSame s1 t) ∧
    (WritesAre who (at'.map (fun p => (addr p, toBytes (ewBytes o.ew) (vElem (me s) o.v.toNat p.1 p.2 w)))) s s1 →
      ∃ t, exec (.vst o) s = .next t ∧ (me t).fflags = (me s).fflags ∧ RegFrame [] [] [] [] s t ∧ MemSame s1 t) ∧
    (∀ (n : Nat) (p : Nat × Nat) (f : Flt) (s2 : State), at'[n]? = some p →
      ReadsAre who (ewBytes o.ew) ((at'.take n).map addr) bs s s1 → vaRead who (addr p) (ewBytes o.ew) s1 = .bad f s2 →
      ∃ t q, exec (.vld o) s = .next t ∧ Loaded o.v w row (at'.take n) bs s t ∧ (me t).pend = some q ∧ q.flt = f ∧
        q.lpc = (me s).pc ∧ q.elem = p.1 * (me s).vl + p.2 ∧ (me t).pc = (me s).pc + 8 ∧ MemSame s2 t)

/-- R182, R183, R371: VLDX and VSTX whose accesses succeed complete, at base, offset and scaled signed 32-bit index. With .ord the
writes land in element order, so that the highest duplicate survives; with .any the first write to every address lands,
each later one lands or is overwritten at once, and every one of them counts as a write. -/
def Obligations.GathersAndScatters : Prop :=
  ∀ (s s1 : State) (o : VIdxOp) (bs : List (List Byte)), let w := ewBits o.ew; let n := ewBytes o.ew
    let row := memRow o.off.toNat o.row
    let at' := activeOf row o.mask s
    let addr (p : Nat × Nat) : Nat := wrapTo 64
      ((gGet o.ga s).toNat + o.off.toInt + (n : Int) * intOf false 32 (vElem (me s) o.vx.toNat p.1 p.2 32))
    let who := gatherWho (captureCtx s) s
    let writes := at'.map (fun p => (addr p, toBytes n (vElem (me s) o.v.toNat p.1 p.2 w)))
    MemReady (max 32 w) row s → (∀ p ∈ at', addr p % n = 0) →
    ((o.ew ≠ 2 → o.v ≠ o.vx) → ReadsAre who n (at'.map addr) bs s s1 →
      ∃ t, exec (.vldx o) s = .next t ∧ Loaded o.v w row at' bs s t ∧ TailSame o.v w row s t ∧
        (me t).fflags = (me s).fflags ∧ RegFrame [] [] [] [o.v.toNat] s t ∧ MemSame s1 t) ∧
    (WritesAre who writes s s1 →
      ∃ t, exec (.vstxOrd o) s = .next t ∧ (me t).fflags = (me s).fflags ∧ RegFrame [] [] [] [] s t ∧ MemSame s1 t) ∧
    ((∀ lands : List Bool, lands.length = writes.length → ∃ s2, ScattersAre who writes lands s s2) →
      ∃ t s2 lands, exec (.vstxAny o) s = .next t ∧ ScattersAre who writes lands s s2 ∧
        (∀ (j : Nat) (q : Nat × List Byte), writes[j]? = some q →
          (∀ (i : Nat) (p : Nat × List Byte), i < j → writes[i]? = some p → p.1 ≠ q.1) → lands[j]? = some true) ∧
        (me t).fflags = (me s).fflags ∧ RegFrame [] [] [] [] s t ∧ MemSame s2 t)

/-- R175 to R177, R372: a VAMO whose atomics succeed completes: they are made in element order, each returning the value that it
found to its element, and FFLAGS gains the flags of their float operations. -/
def Obligations.VectorAtomics : Prop :=
  ∀ (s s1 : State) (o : VAmoOp) (olds : List Nat), let w := Machine.tyBits o.ty; let n := ewBytes o.ty.ew
    let row := memRow o.off.toNat o.row
    let at' := activeOf row o.mask s
    let addr (p : Nat × Nat) : Nat := wrapTo 64
      ((gGet o.ga s).toNat + o.off.toInt + (n : Int) * intOf false 32 (vElem (me s) o.vx.toNat p.1 p.2 32))
    let op (p : Nat × Nat) (old : Nat) : Nat × Fl := vamoOp o old (vElem (me s) o.vc.toNat p.1 p.2 w)
    MemReady (max 32 w) row s → (∀ p ∈ at', addr p % n = 0) → o.vd ≠ o.vx → o.vd ≠ o.vc →
    AtomicsAre (gatherWho (captureCtx s) s) n (at'.map (fun p => (addr p, fun old => (op p old).1))) olds s s1 →
    ∃ t, exec (.vamo o) s = .next t ∧
      (∀ (j : Nat) (p : Nat × Nat) (old : Nat), at'[j]? = some p → olds[j]? = some old →
        vElem (me t) o.vd.toNat p.1 p.2 w = old % 2 ^ w) ∧
      (∀ k e, InSweep row s k e → (k, e) ∉ at' → vElem (me t) o.vd.toNat k e w = vElem (me s) o.vd.toNat k e w) ∧
      (∀ i, (me t).fflags.getLsbD i = true ↔ (me s).fflags.getLsbD i = true ∨
        ∃ (j : Nat) (p : Nat × Nat) (old : Nat), at'[j]? = some p ∧ olds[j]? = some old ∧ (op p old).2.getLsbD i = true) ∧
      TailSame o.vd w row s t ∧ RegFrame [] [] [] [o.vd.toNat] s t ∧ MemSame s1 t

/-- R181, R373: a VWAIT whose reads succeed completes when every element meets the condition; otherwise it stays at the head of
the vector queue, and a later poll of one that waits for a single value completes it once the value meets the
condition. -/
def VectorWaits : Prop :=
  (∀ (s s1 : State) (cond : BitVec 3) (ew : BitVec 2) (ga gc : Reg) (form : WaitForm) (mask : MaskSel) (bs : List (List Byte)),
    let i : Instr := .vwait cond ew ga gc form mask
    let idx : List (Nat × Fl) := match form with
      | .idx vx => (tileOf (captureCtx s) (List.range (me s).rc)).map (fun p => (vElem (me s) vx.toNat p.1 p.2 32, 0))
      | _ => []
    let els := waitElems ew ga form mask (captureCtx s) (me s) idx
    let met (b : List Byte) : Bool := waitCond cond.toNat (ewBits ew) (ofBytes b) ((gGet gc s).toNat % 2 ^ ewBits ew)
    MemReady (waitCheck ew form).width none s → (∀ p ∈ els, p.2 % ewBytes ew = 0) →
    ReadsAre (vWho (captureCtx s) s) (ewBytes ew) (els.map (fun p => p.2)) bs s s1 →
    ((∀ b ∈ bs, met b = true) → ∃ t, exec i s = .next t ∧ (me t).r = (me s).r ∧ (me t).pc = (me s).pc + 8 ∧
      (me t).vq = [] ∧ (me t).pend = none ∧ MemSame s1 t) ∧
    ((∃ b ∈ bs, met b = false) → ∃ t e, exec i s = .next t ∧ (me t).r = (me s).r ∧ (me t).pc = (me s).pc + 8 ∧
      (me t).vq = [e] ∧ e.instr = i ∧ (me t).pend = none ∧ MemSame s1 t)) ∧
  (∀ (s s1 : State) (h x : Nat) (e : QEntry) (rest : List QEntry) (cond : BitVec 3) (ew : BitVec 2) (ga gc : Reg)
      (mask : MaskSel),
    (hartOf s h).pend = none → (hartOf s h).vq = e :: rest → e.instr = .vwait cond ew ga gc .single mask → e.kept = [] →
    cg e.ctx ga % ewBytes ew = 0 →
    vaReadNum (vWho e.ctx { s with cur := h }) (cg e.ctx ga) (ewBytes ew) { s with cur := h } = .ok x s1 →
    ∃ t, exec (.vwaitPoll h) s = .next t ∧ t.cur = s.cur ∧ (hartOf t h).r = (hartOf s h).r ∧
      (hartOf t h).vq = if waitCond cond.toNat (ewBits ew) x (cg e.ctx gc % 2 ^ ewBits ew) then rest else e :: rest)

/-- R105, R106, R108, R374: VBIND reads its 32-byte record and binds vd through the slot, ending what the slot and the register
were bound to; a record that R106 refuses raises STREAM with reason 3 and changes no binding; VUNBIND ends the
binding of vd alone. -/
def Bindings : Prop :=
  ∀ (s : State) (vd ga : Reg) (slot : BitVec 2), Quiet s → (me s).run = .running →
    let a := (gGet ga s).toNat
    (∀ bs s1, a % 32 = 0 → vaRead (hartWho s s.cur 5 (me s).handler) a 32 s = .ok bs s1 →
      let word (i : Nat) : Word := BitVec.ofNat 64 (ofBytes ((bs.drop (8 * i)).take 8))
      let b : Binding := { reg := vd.toNat, src := word 0, scale := word 1, zp := word 2, ctl := word 3, reads := 0,
                           pulled := 0, buf := [] }
      (bindBad b = false → ∃ t, exec (.vbind vd ga slot) s = .next t ∧ bindingOf (me t) vd.toNat = some (slot.toNat, b) ∧
        (∀ p ∈ (me s).r.binds, p.1 ≠ slot.toNat → p.2.reg ≠ vd.toNat →
          (∀ q ∈ (me s).r.binds, q.1 = slot.toNat → q.2.reg ≠ p.2.reg) → p ∈ (me t).r.binds) ∧
        (∀ v k, k < 8 → (isBound (me s) v = false) → vRow (me t) v k = vRow (me s) v k) ∧
        (me t).pc = (me s).pc + 8 ∧ RegsSameBut [] s t ∧ MemSame s1 t) ∧
      (bindBad b = true → ∃ t p, exec (.vbind vd ga slot) s = .next t ∧ (me t).pend = some p ∧ p.flt = streamFlt 3 ∧
        (me t).r = (me s).r)) ∧
    (∃ t, exec (.vunbind vd) s = .next t ∧ isBound (me t) vd.toNat = false ∧
      (∀ p, p.2.reg ≠ vd.toNat → (p ∈ (me t).r.binds ↔ p ∈ (me s).r.binds)) ∧
      (∀ v k, k < 8 → v ≠ vd.toNat → vRow (me t) v k = vRow (me s) v k) ∧
      (me t).pc = (me s).pc + 8 ∧ RegsSameBut [] s t ∧ MemSame s t)

/-- VectorWaits and Bindings, together. -/
def Obligations.WaitsAndBindings : Prop := VectorWaits ∧ Bindings

/-! ## Nests, capture and replay -/

/-- R205, R211, R218, R375 to R378: LNEST writes its nest register's fields; both it and LCAP take effect at their push, also
while entries are queued, and wait while the vector queue is full (log 16); LCAP begins a capture, and a capturable
instruction met during it joins the body without effect; LRUN with a count of zero does nothing, and with one body
instruction performs a row of it at a binding, staying in the queue while rows or positions are left; LWAIT with nothing in
flight goes on. -/
def Obligations.NestsAndReplay : Prop :=
  (∀ (s : State) (nk : BitVec 3) (op : NestOp) (ga : Reg), (me s).capLeft = 0 → (me s).vq.length < 64 →
    let old := nestOf (me s) nk.toNat; let x := (gGet ga s).toNat
    ∃ t, exec (.lnest nk op ga) s = .next t ∧ (me t).pc = (me s).pc + 8 ∧ RegsSameBut [] s t ∧ MemSame s t ∧
      (∀ k, k ≠ nk.toNat → nestOf (me t) k = nestOf (me s) k) ∧
      (let new := nestOf (me t) nk.toNat
       nestCount new = (match op with
         | .stride _ => nestCount old
         | _ => x % 2 ^ 32) ∧
       ∀ j, j < 4 → nestStride new j = (match op with
         | .all r => intOf false 16 ((gGet r s).toNat / 2 ^ (16 * j) % 2 ^ 16)
         | .stride i => if j = i.toNat then intOf false 48 (x % 2 ^ 48) else nestStride old j
         | .cnt => nestStride old j))) ∧
  (∀ (s : State) (n : BitVec 6), (me s).capLeft = 0 → (me s).vq.length < 64 →
    ∃ t, exec (.lcap n) s = .next t ∧ (me t).capLeft = n.toNat ∧ (me t).body = [] ∧ (me t).r = (me s).r ∧
      (me t).pc = (me s).pc + 8 ∧ MemSame s t) ∧
  (∀ (s : State) (o : Ew2) (n : Nat), (me s).capLeft = n + 1 → Passes (ew2Check o) s →
    ∃ t, exec (.vadd o) s = .next t ∧ (me t).capLeft = n ∧ (me t).body = (me s).body ++ [(.vadd o, { captureCtx s with width := Machine.tyBits o.ty })] ∧
      (me t).r = (me s).r ∧ (me t).pc = (me s).pc + 8) ∧
  (∀ (s : State) (nk : BitVec 3) (op : NestOp) (ga : Reg) (n : BitVec 6), (me s).capLeft = 0 → 64 ≤ (me s).vq.length →
    exec (.lnest nk op ga) s = .next s ∧ exec (.lcap n) s = .next s) ∧
  (∀ (s : State) (q : Bool) (ew : BitVec 2) (vd va : Reg) (mask : MaskSel) (row : Option (BitVec 3)) (c : LCtx),
    VecReady (ewBits ew) row s → (me s).body = [(.vmov ew vd va mask row, c)] → c.vl = (me s).vl → c.rc = (me s).rc →
    c.conv = 0 → c.upto = 0 →
    let count := nestCount (nestOf (me s) 0)
    let first : Option (BitVec 3) := some (row.getD 0)
    let whole : Prop := row ≠ none ∨ (me s).rc = 1 ∨ (me s).vl = 0
    (count = 0 → ∃ t, exec (.lrun q 1) s = .next t ∧ (me t).r = (me s).r ∧ (me t).vq = [] ∧ (me t).pc = (me s).pc + 8) ∧
    (0 < count → ∃ t, exec (.lrun q 1) s = .next t ∧
      ElemsAre vd (ewBits ew) first mask (fun k e => vElem (me s) va.toNat k e (ewBits ew)) s t ∧
      TailSame vd (ewBits ew) first s t ∧ (count = 1 ∧ whole → (me t).vq = []) ∧
      (¬ (count = 1 ∧ whole) → (me t).vq.length = 1) ∧ (me t).pc = (me s).pc + 8 ∧ MemSame s t)) ∧
  (∀ s : State, Quiet s → exec .lwait s = .next (afterScalar 8 0 0 0 s))

/-! ## The matrix unit -/

/-- The bounds of R219 on the rows of the listed harts: each holds at least 8 and at most 8 × MROWS, in multiples of 8, at
most 32 in all, and fewer only when every one is at its ceiling (log 69's reading). -/
def RowsDivided (harts : List Nat) (s : State) : Prop :=
  (∀ h ∈ harts, 8 ≤ (hartOf s h).mgrant ∧ (hartOf s h).mgrant ≤ 8 * mrows s ∧ (hartOf s h).mgrant % 8 = 0) ∧
  (harts.map (fun h => (hartOf s h).mgrant)).sum ≤ 32 ∧
  ((harts.map (fun h => (hartOf s h).mgrant)).sum = 32 ∨ ∀ h ∈ harts, (hartOf s h).mgrant = 8 * mrows s)

/-- R219, R220, R383: MATTACH of a hart that is not attached takes its rows, divided as log 69 reads R219, while fewer than four are
attached, and otherwise waits; an attached one reads MGRANT; MDETACH gives up rows and group, and the others hold rows within the bounds; a
re-division by the unit that keeps the bounds is taken. -/
def Attachment : Prop :=
  (∀ (s : State) (d : Reg), Quiet s → let l := attachedOf s (clusterNo s.cur)
    (0 < (me s).mgrant → ∃ t, exec (.mattach d) s = .next t ∧ gGet d t = (if d = 0 then 0 else BitVec.ofNat 64 (me s).mgrant) ∧
      (me t).mgrant = (me s).mgrant ∧ (me t).pc = (me s).pc + 8 ∧ RegsSameBut [d] s t) ∧
    ((me s).mgrant = 0 → l.length < 4 → 1 ≤ mrows s → ∃ t, exec (.mattach d) s = .next t ∧ RowsDivided (s.cur :: l) t ∧
      gGet d t = (if d = 0 then 0 else BitVec.ofNat 64 (me t).mgrant) ∧ (me t).mq = [] ∧ (me t).pc = (me s).pc + 8 ∧
      RegsSameBut [d] s t ∧ (∀ h, h ∉ s.cur :: l → hartOf t h = hartOf s h) ∧ MemSame s t) ∧
    ((me s).mgrant = 0 → 4 ≤ l.length → ∃ t e, exec (.mattach d) s = .next t ∧ (me t).mq = [e] ∧ e.instr = .mattach d ∧
      (me t).mgrant = 0 ∧ OtherHarts s t)) ∧
  (∀ (s : State), Quiet s → 1 ≤ mrows s → let l := (attachedOf s (clusterNo s.cur)).filter (fun h => h != s.cur)
    l.length < 4 → ∃ t, exec .mdetach s = .next t ∧ (me t).mgrant = 0 ∧ (0 < (me s).mgrant → (me t).mgrp = 0 ∧ RowsDivided l t) ∧
      (me t).acc = (me s).acc ∧ (me t).tileen = (me s).tileen ∧ (me t).pc = (me s).pc + 8 ∧ RegsSameBut [] s t ∧ MemSame s t) ∧
  (∀ (s : State) (cl : BitVec 6) (rows : List (Nat × Nat)) (held : Nat → Nat), let l := attachedOf s cl.toNat
    (∀ h ∈ l, rows.find? (fun p => p.1 == h) = some (h, held h) ∧ held h % 8 = 0 ∧ 8 ≤ held h ∧ held h ≤ 8 * mrows s) →
    (l.map held).sum = 32 →
    ∃ t, exec (.matrixRedivide cl rows) s = .next t ∧ (∀ h ∈ l, hartOf t h = { hartOf s h with mgrant := held h }) ∧
      (∀ h, h ∉ l → hartOf t h = hartOf s h) ∧ MemSame s t)

/-- A tile as it is seen: enabled, its shape, and its words. -/
def TileSame (u : Nat) (s t : State) : Prop :=
  tileOn (me t) u = tileOn (me s) u ∧ tileRows (me t) u = tileRows (me s) u ∧ tileCols (me t) u = tileCols (me s) u ∧
  ∀ i j, i < 128 → j < 128 → accWord (me t) u i j = accWord (me s) u i j

/-- What a matrix instruction that writes no register and no memory leaves as it was. -/
def MatrixFrame (s t : State) : Prop :=
  (me t).r = (me s).r ∧ (me t).fflags = (me s).fflags ∧ (me t).pc = (me s).pc + 8 ∧ (me t).vq = [] ∧ (me t).t = (me s).t ∧
  OtherHarts s t ∧ MemSame s t

/-- R380, R381, R383: MTILE within the hart's share enables its tile with its shape and zero words, beyond it raises TILEOFF
with CAP and changes no tile; MTILE.off disables, MCLR zeroes an enabled tile; other tiles stay. -/
def TileControl : Prop :=
  ∀ (s : State) (n : Idx3) (r c : BitVec 2), Quiet s → let u := n.toNat
    let size := 32 * (r.toNat + 1) * (32 * (c.toNat + 1)) * 4
    let tileoff (i : Instr) (bits : Nat) : Prop := ∃ t p, exec i s = .next t ∧ (me t).pend = some p ∧
      p.flt = mkFlt 8 0 (bits + 16 * u) ∧ (∀ v, v < 8 → TileSame v s t) ∧ MatrixFrame s t
    (tilesUsed (me s) u + size ≤ accShare s → ∃ t, exec (.mtile n r c) s = .next t ∧ tileOn (me t) u = true ∧
      tileRows (me t) u = 32 * (r.toNat + 1) ∧ tileCols (me t) u = 32 * (c.toNat + 1) ∧
      (∀ i j, i < 128 → j < 128 → accWord (me t) u i j = 0) ∧ (∀ v, v < 8 → v ≠ u → TileSame v s t) ∧ MatrixFrame s t) ∧
    (accShare s < tilesUsed (me s) u + size → tileoff (.mtile n r c) 1) ∧
    (∃ t, exec (.mtileOff n) s = .next t ∧ tileOn (me t) u = false ∧ (∀ v, v < 8 → v ≠ u → TileSame v s t) ∧ MatrixFrame s t) ∧
    (tileOn (me s) u = true → ∃ t, exec (.mclr n) s = .next t ∧ (me t).tileen = (me s).tileen ∧
      (∀ i j, i < 128 → j < 128 → accWord (me t) u i j = 0) ∧ (∀ v, v < 8 → v ≠ u → TileSame v s t) ∧ MatrixFrame s t) ∧
    (tileOn (me s) u = false → tileoff (.mclr n) 0)

/-- R384: each MPRED completes and sets its predicate: the lowest g(gb) bits, or all; the K limit; row 0 of a mask; or all of
them set. Nothing else changes. -/
def Predicates : Prop :=
  ∀ (s : State) (gb : Reg) (ma : Idx3), Quiet s → let n := (gGet gb s).toNat
    exec (.mpredRows gb) s = .next (afterMatrix (fun x => { x with rowpred := BitVec.ofNat 128 (2 ^ min n 128 - 1) }) s) ∧
    exec (.mpredCols gb) s = .next (afterMatrix (fun x => { x with colpred := BitVec.ofNat 128 (2 ^ min n 128 - 1) }) s) ∧
    exec (.mpredK gb) s = .next (afterMatrix (fun x => { x with klim := BitVec.ofNat 32 (min n (2 ^ 32 - 1)) }) s) ∧
    exec (.mpredRowm ma) s =
      .next (afterMatrix (fun x => { x with rowpred := (mRow (me s) ma.toNat 0).setWidth 128 }) s) ∧
    exec (.mpredColm ma) s =
      .next (afterMatrix (fun x => { x with colpred := (mRow (me s) ma.toNat 0).setWidth 128 }) s) ∧
    exec .mpredAll s = .next (afterMatrix (fun x =>
      { x with rowpred := BitVec.allOnes 128, colpred := BitVec.allOnes 128, klim := BitVec.allOnes 32 }) s)

/-- R387: MGROUP with mask 0 leaves the group; a hart that may not group, an unattached one among them (log 54), gets all ones and
nothing changes; the last hart to
arrive forms the group, each member receiving the mask and its rank; before that the hart waits. -/
def Groups : Prop :=
  ∀ (s : State) (d : Reg) (m : BitVec 4), Quiet s →
    let gangKind : Nat := match (me s).job with
      | some j => (jobOf s j).gangKind
      | none => 0
    let able := (me s).mgrant ≠ 0 ∧ gangKind = 2 ∧ m.getLsbD (coreInCluster s.cur) = true
    let cl := clusterNo s.cur
    let arrived : State := { s with mgroups := cset [] cl (cget [] cl s.mgroups ++ [(s.cur, m.toNat)]) s.mgroups }
    (m = 0 → ∃ t, exec (.mgroup d m) s = .next t ∧ (me t).mgrp = 0 ∧ gGet d t = 0 ∧ (me t).pc = (me s).pc + 8 ∧ RegsSameBut [d] s t) ∧
    (m ≠ 0 → ¬ able → ∃ t, exec (.mgroup d m) s = .next t ∧ (me t).mgrp = (me s).mgrp ∧
      gGet d t = (if d = 0 then 0 else BitVec.allOnes 64) ∧ (me t).pc = (me s).pc + 8 ∧ RegsSameBut [d] s t) ∧
    (m ≠ 0 → able → (∀ p ∈ cget [] cl s.mgroups, p ≠ (s.cur, m.toNat)) →
      (∀ l, groupArrived arrived s.cur m.toNat = some l → ∃ t, exec (.mgroup d m) s = .next t ∧
        (∀ (k h : Nat), l[k]? = some h → (hartOf t h).mgrp = m.toNat + 16 * k) ∧
        (∀ k, l[k]? = some s.cur → gGet d t = (if d = 0 then 0 else BitVec.ofNat 64 k)) ∧ (me t).pc = (me s).pc + 8 ∧
        RegsSameBut [d] s t) ∧
      (groupArrived arrived s.cur m.toNat = none → ∃ t e, exec (.mgroup d m) s = .next t ∧ (me t).mq = [e] ∧
        e.instr = .mgroup d m ∧ (me t).mgrp = (me s).mgrp ∧ RegsSameBut [] s t))

/-- Attachment, TileControl, Predicates and Groups, together. -/
def Obligations.MatrixControl : Prop := Attachment ∧ TileControl ∧ Predicates ∧ Groups

/-- The matrix unit's party for the current hart (R22). -/
def matrixWho (s : State) : Who := mWho (freshEntry .mdetach (captureCtx s)) s

/-- What a tile word becomes in a register or in memory, with flags (R389): FP32 words move as they are. -/
def wordOut (fmt rnd : BitVec 2) (sat : Bool) (w : Nat) : Nat × Fl :=
  if fmt = 0 then (w, 0) else convertV (f012 fmt) rnd.toNat sat (decodeF fp32 w)

/-- What an element becomes as a tile word, with flags. -/
def wordIn (fmt : BitVec 2) (x : Nat) : Nat × Fl := if fmt = 0 then (x, 0) else convertV fp32 0 false (decodeF (f012 fmt) x)

/-- MLINE.r, MLINE.w and MDRAIN between an enabled tile and vd with every active element inside the tile (R389, R390). -/
def LineMoves (o : LineOp) (s : State) : Prop :=
  let u := o.tile.toNat; let w := f012Bits o.fmt; let g := (gGet o.gb s).toNat
  let pos (col : Bool) (k e : Nat) : Nat × Nat := if col then (e, g + k) else (g + k, e)
  let act (k e : Nat) : Prop := InSweep none s k e ∧ active (me s) o.mask k e = true
  let within (col : Bool) : Prop :=
    ∀ k e, act k e → (pos col k e).1 < tileRows (me s) u ∧ (pos col k e).2 < tileCols (me s) u
  let out (col : Bool) (k e : Nat) : Nat × Fl :=
    wordOut o.fmt o.rnd o.sat (accWord (me s) u (pos col k e).1 (pos col k e).2)
  let read (i : Instr) (col z : Bool) : Prop := within col → ∃ t, exec i s = .next t ∧
    ElemsAre o.v w none o.mask (fun k e => (out col k e).1) s t ∧ FlagsAre none o.mask (fun k e => (out col k e).2) s t ∧
    TailSame o.v w none s t ∧ (∀ r q, r < 128 → q < 128 → accWord (me t) u r q =
      if z = true ∧ (g ≤ r ∧ r < g + (me s).rc ∧ q < (me s).vl ∧ active (me s) o.mask (r - g) q = true) then 0
      else accWord (me s) u r q) ∧ (∀ v, v < 8 → v ≠ u → TileSame v s t) ∧ (me t).tileen = (me s).tileen ∧
    (me t).pc = (me s).pc + 8 ∧ RegsSameBut [] s t ∧ OtherHarts s t ∧ MemSame s t
  let write (i : Instr) (col : Bool) : Prop := within col → ∃ t, exec i s = .next t ∧
    (∀ k e, act k e → accWord (me t) u (pos col k e).1 (pos col k e).2 = (wordIn o.fmt (vElem (me s) o.v.toNat k e w)).1) ∧
    (∀ r q, r < 128 → q < 128 → (∀ k e, act k e → pos col k e ≠ (r, q)) → accWord (me t) u r q = accWord (me s) u r q) ∧
    FlagsAre none o.mask (fun k e => (wordIn o.fmt (vElem (me s) o.v.toNat k e w)).2) s t ∧
    (∀ v, v < 8 → v ≠ u → TileSame v s t) ∧ (me t).r = (me s).r ∧ (me t).pc = (me s).pc + 8 ∧ OtherHarts s t ∧ MemSame s t
  o.fmt ≠ 3 → VecReady w none s → tileOn (me s) u = true →
    read (.mlineRrow o) false false ∧ read (.mlineRcol o) true false ∧ (∀ z, read (.mdrain z o) false z) ∧
    write (.mlineWrow o) false ∧ write (.mlineWcol o) true

/-- MLINE.st, MLINE.ld and MDRAIN.st of an enabled tile whose accesses succeed (R389, R390). -/
def TileTransfers (o : LineMem) (s : State) : Prop :=
  let u := o.tile.toNat; let n := f012Bits o.fmt / 8
  let cells := tileCells (me s) u
  let addr (p : Nat × Nat × Nat) : Nat := wrapTo 64 ((gGet o.ga s).toNat + p.2.1 * (gGet o.gb s).toNat + p.2.2 * n : Nat)
  let out (p : Nat × Nat × Nat) : Nat × Fl := wordOut o.fmt o.rnd o.sat (accWord (me s) u p.2.1 p.2.2)
  let kept (z : Bool) (t : State) : Prop := ∀ r q, r < 128 → q < 128 → accWord (me t) u r q =
    if z = true ∧ cells.any (fun p => p.2.1 == r && p.2.2 == q) = true then 0 else accWord (me s) u r q
  let frame (s1 t : State) : Prop := (∀ v, v < 8 → v ≠ u → TileSame v s t) ∧ (me t).tileen = (me s).tileen ∧
    (me t).r = (me s).r ∧ (me t).pc = (me s).pc + 8 ∧ (me t).mq = [] ∧ OtherHarts s t ∧ MemSame s1 t
  Quiet s → (me s).run = .running → tileOn (me s) u = true →
    (∀ s1, RunsWritten { matrixWho s with hold := 2 } (cells.map (fun p => (addr p, toBytes n (out p).1))) s s1 →
      (∃ t, exec (.mlineSt o) s = .next t ∧ kept false t ∧ frame s1 t) ∧
      ∀ z, ∃ t, exec (.mdrainSt z o) s = .next t ∧ kept z t ∧ frame s1 t) ∧
    (∀ s1 bs, RunsRead { matrixWho s with hold := 2 } n (cells.map addr) bs s s1 → ∃ t, exec (.mlineLd o) s = .next t ∧
      (∀ (k : Nat) (p : Nat × Nat × Nat) (b : List Byte), cells[k]? = some p → bs[k]? = some b →
        accWord (me t) u p.2.1 p.2.2 = (wordIn o.fmt (ofBytes b)).1 % 2 ^ 32) ∧
      (∀ r q, r < 128 → q < 128 → cells.any (fun p => p.2.1 == r && p.2.2 == q) = false →
        accWord (me t) u r q = accWord (me s) u r q) ∧ frame s1 t)

/-- R389, R390: the moves between tiles and registers or memory complete, for every format, with one rounding each. -/
def Obligations.TileMoves : Prop :=
  ∀ (s : State), (∀ o : LineOp, LineMoves o s) ∧ ∀ o : LineMem, TileTransfers o s

/-- R289 to R291, R386: an MKSUM of a 32 × 32 tile over one slice, with formats that are not grouped and no record scale, whose
operands can be read and leave the state as it is, completes: each word that the predicates leave gets, in a float
format, the word plus the exact sum of products rounded once, and in an integer format the sum wrapped to 32 bits;
the other words stay, and no register is written. A hart that is not attached and a disabled tile raise TILEOFF. -/
def Obligations.KSums : Prop :=
  ∀ (s : State) (mc : Bool) (n : Idx3) (fa fb : BitVec 4) (rnd : BitVec 2) (ga gb gc : Reg), Quiet s →
    let u := n.toNat; let i : Instr := .mksum mc n fa fb rnd ga gb gc
    let tileoff (bits : Nat) : Prop := ∃ t p, exec i s = .next t ∧ (me t).pend = some p ∧ p.flt = mkFlt 8 0 (bits + 16 * u) ∧
      (me t).acc = (me s).acc
    ((me s).mgrant = 0 → tileoff 4) ∧
    ((me s).mgrant ≠ 0 → tileOn (me s) u = false → tileoff 0) ∧
    (∀ (da db : MDesc) (A B : Nat → List Nat), let k := (gGet gc s).toNat % 2 ^ 32
      let kk := min k (me s).klim.toNat
      let w := matrixWho s
      fa.toNat ≤ 13 → fb.toNat ≤ 13 → (me s).run = .running → (mc = false ∨ (me s).mgrp % 16 = 0) → (me s).mgrant ≠ 0 → tileOn (me s) u = true →
      tileRows (me s) u = 32 → tileCols (me s) u = 32 → 0 < kk → k ≤ sliceLen fa.toNat fb.toNat →
      pairKind fa.toNat ≠ 2 → pairKind fb.toNat = pairKind fa.toNat → da.rs = false → db.rs = false →
      readDesc w (gGet ga s).toNat s = .ok da s → readDesc w (gGet gb s).toNat s = .ok db s →
      checkDesc da fa.toNat k s = .ok () s → checkDesc db fb.toNat k s = .ok () s →
      (∀ l, l < 32 → (me s).rowpred.getLsbD l = true → readLine w da (bitsFmt fa.toNat) k l 0 kk s = .ok (A l) s) →
      (∀ l, l < 32 → (me s).colpred.getLsbD l = true → readLine w db (bitsFmt fb.toNat) k l 0 kk s = .ok (B l) s) →
      let word (p q : Nat) : Nat := if pairKind fa.toNat = 0 then
          (updFloat rnd.toNat (accWord (me s) u p q) ((A p).map (decodeFmt fa.toNat)) ((B q).map (decodeFmt fb.toNat))).1
        else ((intOf false 32 (accWord (me s) u p q) + (List.zipWith (fun x y =>
          intOf (fa == 8 || fa == 11) (bitsFmt fa.toNat) x * intOf (fb == 8 || fb == 11) (bitsFmt fb.toNat) y) (A p) (B q)).sum) %
            2 ^ 32).toNat
      ∃ t, exec i s = .next t ∧
        (∀ p q, p < 32 → q < 32 → accWord (me t) u p q =
          if (me s).rowpred.getLsbD p = true ∧ (me s).colpred.getLsbD q = true then word p q else accWord (me s) u p q) ∧
        (∀ v, v < 8 → v ≠ u → TileSame v s t) ∧ (me t).r = (me s).r ∧ (me t).mq = [] ∧ (me t).pc = (me s).pc + 8 ∧
        OtherHarts s t ∧ MemSame s t)

/-! ## Key-value instructions -/

/-- The KV party of the current hart (R43, R121). -/
def keyWho (s : State) : Who := kvWho (captureCtx s) s

/-- Moves, clearings and frees of a compaction one after another, all succeeding, to its end, at most a given number of them: the
compaction before its last one, and the state after it (R143, R397). -/
def CompSteps (w : Who) (a : Nat) (k : Key) : Nat → Comp → State → Comp → State → Prop
  | 0, _, _, _, _ => False
  | n + 1, c, s, z, s1 => ∃ r s2, compStep w a k c s = .ok r s2 ∧ match r with
    | none => z = c ∧ s1 = s2
    | some c2 => CompSteps w a k n c2 s2 z s1

/-- R142 to R144, R391, R397, R398: with no key in use, an operation on a context or a key that its walks and accesses allow completes, whole, with its
status or new NEXTPOS in gd; arguments with bits outside their fields give BADARG (2) and change no memory, whatever other status applies too (log 43's order); after
.cfg a header in this package's memory holds V and the configuration word; KVFREE of an empty range does nothing; a KVCOMP whose
start and whose moves, clearings and frees succeed completes in one step where nothing stops it; data that it could not
read leaves an ECC trap at its new position. -/
def ContextAndKey : Prop :=
  ∀ (s : State) (d ga gb : Reg), Quiet s → Unbound s → (me s).run = .running → s.keyUses = [] →
    let a := (gGet ga s).toNat; let b := (gGet gb s).toNat; let w := keyWho s
    let status (i : Instr) (m : MR Nat) : Prop := ∀ st s1, m = .ok st s1 → ∃ t, exec i s = .next t ∧
      gGet d t = (if d = 0 then 0 else BitVec.ofNat 64 st) ∧ (me t).fflags = (me s).fflags ∧ RegFrame [d] [] [] [] s t ∧ MemSame s1 t
    let refused (i : Instr) : Prop := ∃ t, exec i s = .next t ∧ gGet d t = (if d = 0 then 0 else 2) ∧ VecFrame [d] [] [] [] s t
    status (.kvctxCfg d ga gb) (whole w (kvCfg w a) s) ∧
    status (.kvctxOpen d ga gb) (whole w (kvOpen w a) s) ∧
    status (.kvctxClose d ga gb) (whole w (kvClose w a) s) ∧
    status (.kvctxPin d ga gb) (whole w (kvPin w a) s) ∧
    status (.kvctxCb d ga gb) (whole w (kvCb w a b (vaReadN (hartWho s s.cur 4 (me s).handler) b 4096)) s) ∧
    (a % 2 ^ 40 ≠ 0 ∨ 2 ^ 60 ≤ a → refused (.kvctxCfg d ga gb) ∧ refused (.kvctxOpen d ga gb) ∧ refused (.kvctxClose d ga gb)) ∧
    (∀ s1, MemInv s1 → whole w (kvCfg w a) s = .ok 0 s1 → kvRoot w s < 2 ^ 54 →
      kvRoot w s / 2 ^ 44 = s.pkg → kvRoot w s % 2 ^ 44 < 0x40000000000 →
      ofBytes (memBytes s1 (kvRoot w s) 8) = 2 ^ 63 + a) ∧
    (kaKind a = 0 →
      (min b posLimit ≤ kaPos a → ∃ t, exec (.kvfree ga gb) s = .next t ∧ VecFrame [] [] [] [] s t) ∧
      (kaPos a < min b posLimit → ∀ s1, whole w (freeRange w a (min b posLimit)) s = .ok () s1 →
        ∃ t, exec (.kvfree ga gb) s = .next t ∧ RegFrame [] [] [] [] s t ∧ MemSame s1 t)) ∧
    (kaKind a = 0 → kaPos a = 0 → ∀ k n s1 s2 s3 s4 s5 mask c0 c, kvHead w a true s = .ok k s1 → nextPos w a k s1 = .ok n s2 →
      vaReadN (hartWho s s.cur 4 (me s).handler) b ((n + 7) / 8) s2 = .ok mask s3 →
      compStart w a k n mask s3 = .ok c0 s4 → CompSteps w a k (compFuel n) c0 s4 c s5 →
      ∃ t, exec (.kvcomp d ga gb) s = .next t ∧
        gGet d t = (if d = 0 then 0 else BitVec.ofNat 64 (c.count (hdrP k.hdr))) ∧ MemSame s5 t ∧
        (me t).pc = (me s).pc + 8 ∧ RegsSameBut [d] s t ∧
        (c.lost = 0 → (me t).vq = [] ∧ (me t).pend = none) ∧
        (0 < c.lost → ∃ p, (me t).pend = some p ∧ p.flt.cause = 0x0A ∧ p.elem = c.lost - 1))

/-- R119, R120, R138 (the event's form is log 46's): a block's migration leaves its entry in STATE 2 at the new address with its owner and generation, and the end of
the move leaves it in STATE 1 as it was; both pass a block in another state by. -/
def BlockMoves : Prop :=
  ∀ (s : State) (block : Nat) (tier : BitVec 2) (addr : BitVec 44) (c : Chunk), MemInv s → block < s.stage2Entries →
    let e := stage2Get s block
    (s.chunks.find? (fun x => x.used && x.block == block) = some c → s2State e = 1 →
      ∃ t, exec (.kvBlockMigration block tier addr) s = .next t ∧ s2State (stage2Get t block) = 2 ∧
        s2Addr (stage2Get t block) = addr.toNat / 64 * 64 ∧ s2Owner (stage2Get t block) = s2Owner e ∧
        s2Gen (stage2Get t block) = s2Gen e ∧ t.harts = s.harts) ∧
    (s2State e ≠ 1 → exec (.kvBlockMigration block tier addr) s = .next s) ∧
    (s2State e = 2 → ∃ t, exec (.kvBlockMoveDone block) s = .next t ∧ stage2Get t block = e - 2 ^ 62 ∧
      s2State (stage2Get t block) = 1 ∧ t.harts = s.harts) ∧
    (s2State e ≠ 2 → exec (.kvBlockMoveDone block) s = .next s)

/-- R139: while an instruction of another hart is in progress on its key, or reached it before, a KVFREE or KVCOMP waits at the
head of its queue and changes no register, flag or byte of memory. -/
def KeysInTurn : Prop :=
  ∀ (s : State) (d ga gb : Reg) (v : KeyUse), Quiet s → (∀ u ∈ s.keyUses, u.hart ≠ s.cur) → v ∈ s.keyUses →
    v.root = (me s).kvroot.toNat → v.all = false → v.key = bitsOf (gGet ga s).toNat 26 34 → kaKind (gGet ga s).toNat = 0 →
    let waits (i : Instr) : Prop := ∃ t e, exec i s = .next t ∧ (me t).vq = [e] ∧ e.instr = i ∧ (me t).r = (me s).r ∧
      (me t).fflags = (me s).fflags ∧ (me t).pend = none ∧ OtherHarts s t ∧ MemSame s t
    waits (.kvfree ga gb) ∧ (kaPos (gGet ga s).toNat = 0 → waits (.kvcomp d ga gb))

/-- ContextAndKey, KeysInTurn and BlockMoves, together. -/
def Obligations.KeyContexts : Prop := ContextAndKey ∧ KeysInTurn ∧ BlockMoves

/-- Tokens appended to a key one after another, all succeeding (R134). -/
def Appended (w : Who) (a : Nat) : List (List Nat × List Nat) → State → State → Prop
  | [], s, s1 => s1 = s
  | p :: r, s, s1 => ∃ s2, appendToken w a p.1 p.2 s = .ok () s2 ∧ Appended w a r s2 s1

/-- Scores added one after another, all succeeding, with NEXTPOS taken at the first (R130, R139). -/
def ScoresAdded (w : Who) (a : Nat) : List (Nat × Nat) → List Nat → State → State → Prop
  | [], _, s, s1 => s1 = s
  | (i, y) :: r, kept, s, s1 => ∃ key kept' pg s2 s3 s4, kvAt w a i true kept s = .ok (key, kept') s2 ∧
      kvPage w (kaAt a (kaPos a + i)) key 2 ((kaPos a + i) / hdrP key.hdr) true s2 = .ok (.inl pg) s3 ∧
      accScore w (kaAt a (kaPos a + i)) (hdrP key.hdr) ((kaPos a + i) % hdrP key.hdr) y pg s3 = .ok () s4 ∧
      ScoresAdded w a r kept' s4 s1

/-- The elements of a query row as values. -/
def queryOf (fmt : BitVec 2) (v : Reg) (k : Nat) (s : State) : List Val :=
  (List.range 128).map (fun j => decodeF (f012 fmt) (vElem (me s) v.toNat k j (f012Bits fmt)))

/-- R122, R123, R126, R128 to R130, R134, R392 to R396: with no key in use, the KV instructions on elements complete when their walks and
accesses succeed (the reading ones on a key whose reads leave the state as it is): KVAPP appends the rotated tokens that have an
active element, in order; KVLD delivers scale times code, or a score; KVSCORE the score of R126; KVVQS the sum of its
sixteen table entries; KVACC adds to the scores in element order. -/
def Obligations.KeyElements : Prop :=
  ∀ (s : State) (fmt rnd : BitVec 2) (sat : Bool) (vd ga vb vc : Reg) (mask : MaskSel) (row : Option (BitVec 3)),
    fmt ≠ 3 → (me s).run = .running → s.keyUses = [] →
    let a := (gGet ga s).toNat; let w := keyWho s
    let act (k i : Nat) : Prop := InSweep row s k i ∧ active (me s) mask k i = true
    let walked (i : Nat) (np : Nat) (key : Key) : Prop := kvAt w a i false [0] s = .ok (key, [np + 1]) s
    let token (kind i : Nat) (np : Nat) (x : Kv4) : Prop := ∃ key, walked i np key ∧
      readKv4 w (kaAt a (kaPos a + i)) key kind ((kaPos a + i) / hdrP key.hdr) ((kaPos a + i) % hdrP key.hdr) s = .ok x s
    let done (i : Instr) (bits : Nat) (val : Nat → Nat → Nat) : Prop := ∃ t, exec i s = .next t ∧
      ElemsAre vd bits row mask val s t ∧ TailSame vd bits row s t ∧ VecFrame [] [] [] [vd.toNat] s t
    (VecReady (f012Bits fmt) none s → kaKind a = 0 → kaPos a = 0 → (me s).vl % 128 = 0 →
      let part (v : Reg) (k i0 : Nat) : List Nat := (rotate128 ((List.range 128).map (fun j =>
        if active (me s) mask k (i0 + j) then
          (roundV fp32 0 false (decodeF (f012 fmt) (vElem (me s) v.toNat k (i0 + j) (f012Bits fmt)))).1
        else 0))).1
      let tokens := ((tokensOf (captureCtx s)).filter (fun p =>
        (List.range 128).any (fun j => active (me s) mask p.1 (p.2 + j)))).map (fun p => (part vb p.1 p.2, part vc p.1 p.2))
      ∀ s1, Appended w a tokens s s1 →
        ∃ t, exec (.kvapp fmt ga vb vc mask) s = .next t ∧ RegFrame [] [] [] [] s t ∧ MemSame s1 t) ∧
    (VecReady (f012Bits fmt) row s → (kaKind a = 0 ∨ kaKind a = 1) → (me s).vl % 128 = 0 → ∀ (np : Nat) (x : Nat → Kv4),
      (∀ k i, act k i → token (kaKind a) ((k * (me s).vl + i) / 128) np (x ((k * (me s).vl + i) / 128))) →
      done (.kvld fmt rnd sat vd ga mask row) (f012Bits fmt) (fun k i => let ix := k * (me s).vl + i
        (rounded (f012 fmt) rnd.toNat sat (mulV (ofInt (intOf false 4 (wrapTo 4 ((x (ix / 128)).codes.getD (ix % 128) 0))))
          (decodeF fp16 (x (ix / 128)).scale))).1)) ∧
    (VecReady (f012Bits fmt) row s → kaKind a = 2 → ∀ (np : Nat) (y : Nat → List Byte),
      (∀ k i, act k i → let ix := k * (me s).vl + i; let pos := kaPos a + ix; ∃ key pg, walked ix np key ∧
        kvPage w (kaAt a pos) key 2 (pos / hdrP key.hdr) false s = .ok (.inl pg) s ∧
        blockBytes w (kaAt a pos) (pg.addr + 4 * (pos % hdrP key.hdr)) 4 8 s = .ok (y ix) s) →
      done (.kvld fmt rnd sat vd ga mask row) (f012Bits fmt) (fun k i =>
        (convertV (f012 fmt) rnd.toNat sat (decodeF fp32 (ofBytes (y (k * (me s).vl + i))))).1)) ∧
    (VecReady 32 row s → kaKind a = 0 → vd ≠ vb → ∀ (np : Nat) (x : Nat → Kv4), (∀ k i, act k i → token 0 i np (x i)) →
      done (.kvscore fmt vd ga vb mask row) 32 (fun k i => (kvScore (queryOf fmt vb k s) (x i)).1)) ∧
    (VecReady 32 row s → kaKind a = 0 → ∀ (np : Nat) (ix : Nat → List Byte),
      (∀ k i, act k i → ∃ key, vqToken w a i [0] s = .ok (key, [np + 1], ix i) s) →
      (vd ≠ vb → vd ≠ vc → done (.kvvqsLut vd ga vb vc mask row) 32 (fun _ i =>
        (vqSum (fun g j => vElem (me s) (if g < 8 then vb.toNat else vc.toNat) (g % 8) j 32) (ix i)).1)) ∧
      (∀ cb : List Byte, vd ≠ vb →
        (∀ k i, act k i → ∃ key, walked i np key ∧ kvCodebook w (kaAt a (kaPos a + i)) key 0 s = .ok (some cb) s) →
        done (.kvvqsQ fmt vd ga vb mask row) 32 (fun k i =>
          (vqSum (fun g j => (vqTables (queryOf fmt vb k s) cb).1.getD (256 * g + j) 0) (ix i)).1))) ∧
    (VecReady 32 row s → kaKind a = 2 → ∀ s1,
      ScoresAdded w a ((activeOf row mask s).map (fun p => (p.2, vElem (me s) vb.toNat p.1 p.2 32))) [0] s s1 →
      ∃ t, exec (.kvacc ga vb mask row) s = .next t ∧ RegFrame [] [] [] [] s t ∧ MemSame s1 t)

/-! ## Records, the long recurrence and the chain sequencer -/

/-- R34, R147, R148, R154, R399, R400: SRREAD of a present record that the anemometer of the die may read writes its 32 words, as the
die sees them, to row 0 of vd; SRRESET of a present record with a legal control word, which the anemometer may read and
write, starts it anew, generation one higher, its zero word zero and shadows gone, and changes nothing outside it; a bad one raises ILLEGAL with
reason 0. Where the anemometer is denied, both take ACCESS at element 0 with the reason, at the record's number (log 57), and
no byte changes. SRBIND answers its status and binds or frees its slot when it is 0; where several statuses hold, a length of 0
goes first, then overlap, extent and record (the model's choice, log 90). -/
def RecordInstructions : Prop :=
  ∀ (s : State) (vd d ga gb gc : Reg) (slot : BitVec 2), Quiet s → Unbound s →
    let part := (me s).part.toNat; let x := (gGet ga s).toNat; let y := (gGet gb s).toNat; let r := (gGet gc s).toNat
    let core := coreOf s (coreNo s.cur)
    let may (kind : AccKind) : Prop := recCode s (dieNo s.cur) part y kind = 0
    let denied (i : Instr) (kind : AccKind) : Prop := ∃ t p, exec i s = .next t ∧ (me t).pend = some p ∧
      p.flt = mkFlt 5 y (recCode s (dieNo s.cur) part y kind) ∧ p.elem = 0 ∧ (me t).r = (me s).r ∧ MemSame s t
    (recPresent s part y = true → ¬ may .read → denied (.srread vd gb) .read) ∧
    (recPresent s part y = true → x < 2 ^ 13 → recFmtOk (bitsOf x 8 4) = true →
      (¬ may .read → denied (.srreset gb ga) .read) ∧ (may .read → ¬ may .write → denied (.srreset gb ga) .write)) ∧
    (recPresent s part y = true → may .read → ∃ t, exec (.srread vd gb) s = .next t ∧
      (∀ k e, k < 8 → e < 512 → vElem (me t) vd.toNat k e 32 = if k = 0 ∧ e < 32 then
        bitsOf (seenRecord s (dieNo s.cur) part y) (32 * e) 32 else vElem (me s) vd.toNat k e 32) ∧
      (me t).fflags = (me s).fflags ∧ VecFrame [] [] [] [vd.toNat] s t) ∧
    (MemInv s → x < 2 ^ 13 → recFmtOk (bitsOf x 8 4) = true → recPresent s part y = true → let a := recAddr s part y
      may .read → may .write → cget false (a / 65536) s.zeroPend = false →
      ∃ t, exec (.srreset gb ga) s = .next t ∧ rawRead t a 4 = 0 ∧ rawRead t (a + 4) 4 = (rawRead s (a + 4) 4 + 1) % 2 ^ 32 ∧
        rawRead t (a + 8) 16 = 0 ∧ rawRead t (a + 0x18) 4 = x ∧ rawRead t (a + 0x1C) 4 = 0 ∧
        rawRead t (a + 0x20) 96 = 0 ∧ MemSameBut (glob s a) 128 s t ∧
        (∀ die, die < 4 → cget Shadow.empty (shadowKey die part y) t.shadows = Shadow.empty) ∧ RegFrame [] [] [] [] s t) ∧
    ((2 ^ 13 ≤ x ∨ recFmtOk (bitsOf x 8 4) = false ∨ recPresent s part y = false) →
      exec (.srreset gb ga) s = .next (illegalLong 0 s)) ∧
    (x % 64 = 0 → y % 64 = 0 →
      let clash := core.srbind.any (fun p => p.1 != slot.toNat && decide (x < p.2.1 + p.2.2.1 ∧ p.2.1 < x + y))
      let st : Nat := if y = 0 then 0 else if clash then 1 else if pwScru core.pword * 65536 < x + y then 2
        else if recPresent s part r then 0 else 3
      ∃ t, exec (.srbind d slot ga gb gc) s = .next t ∧ gGet d t = (if d = 0 then 0 else BitVec.ofNat 64 st) ∧
        (∀ k, cget (0, 0, 0) k (coreOf t (coreNo s.cur)).srbind =
          if st = 0 ∧ k = slot.toNat then (if y = 0 then (0, 0, 0) else (x, y, r)) else cget (0, 0, 0) k core.srbind) ∧
        VecFrame [d] [] [] [] s t)

/-- The carry of a row and the output of its last step after `n` time steps of an LCONV (R254, R255, R256). -/
def recurrence (comp : Bool) (fmt rnd : BitVec 2) (sat : Bool) (va vb : Reg) (mr : Idx3) (s : State) (k : Nat) :
    Nat → Carry × Nat
  | 0 => (carryOf (me s) k, 0)
  | n + 1 =>
    let coef (i : Nat) : Val := decodeF (f012 fmt) (vElem (me s) vb.toNat k i (f012Bits fmt))
    let before := (carryTo fmt rnd.toNat sat (recurrence comp fmt rnd sat va vb mr s k n).1).1
    let reset := mr != 0 && mBit (me s) mr.toNat k n
    let r := lconvStep comp (f012 fmt) fmt.toNat rnd.toNat sat (coef 0) (coef 1) (coef 2)
      (decodeF (f012 fmt) (vElem (me s) va.toNat k n (f012Bits fmt))) (if reset then 0 else before.hi)
      (if reset || !comp then 0 else before.lo)
    (r.1, r.2.1)

/-- R254 to R256, R401, R402: LCONV completes: along each row the carry is updated and each element gets the step's output, a
marked element starting from zero; LCSTATE reads, writes and zeroes the carries of the rows whatever VL is. -/
def LongRecurrence : Prop :=
  ∀ (s : State) (comp : Bool) (fmt rnd : BitVec 2) (sat : Bool) (vd va vb : Reg) (mr : Idx3), fmt ≠ 3 →
    let w := f012Bits fmt; let rc := (me s).rc
    (VecReady w none s → vd ≠ vb → ∃ t, exec (.lconv comp fmt rnd sat vd va vb mr) s = .next t ∧
      (∀ k e, InSweep none s k e → vElem (me t) vd.toNat k e w = (recurrence comp fmt rnd sat va vb mr s k (e + 1)).2 % 2 ^ w) ∧
      (∀ k, carryOf (me t) k = if k < rc then (recurrence comp fmt rnd sat va vb mr s k (me s).vl).1 else carryOf (me s) k) ∧
      TailSame vd w none s t ∧ VecFrame [] [] [] [vd.toNat] s t) ∧
    (Quiet s → Unbound s → Lanes s →
      let conv (x : Nat) (c : Carry) : Nat := (convertV (f012 fmt) rnd.toNat false (decodeF (f012 (BitVec.ofNat 2 c.cf)) x)).1
      (∃ t, exec (.lcstateGet fmt rnd vd) s = .next t ∧
        (∀ k e, k < 8 → (e + 1) * w ≤ 16384 → vElem (me t) vd.toNat k e w =
          if k < rc ∧ e = 0 then conv (carryOf (me s) k).hi (carryOf (me s) k)
          else if k < rc ∧ e = 1 then conv (carryOf (me s) k).lo (carryOf (me s) k) else vElem (me s) vd.toNat k e w) ∧
        (∀ k, carryOf (me t) k = carryOf (me s) k) ∧ VecFrame [] [] [] [vd.toNat] s t) ∧
      (∃ t, exec (.lcstatePut fmt va) s = .next t ∧ (∀ k, carryOf (me t) k = if k < rc then
        { hi := vElem (me s) va.toNat k 0 w, lo := vElem (me s) va.toNat k 1 w, cf := fmt.toNat } else carryOf (me s) k) ∧
        VecFrame [] [] [] [] s t) ∧
      (∃ t, exec .lcstateZero s = .next t ∧ (∀ k, carryOf (me t) k = { hi := 0, lo := 0, cf := 0 }) ∧ VecFrame [] [] [] [] s t))

/-- RecordInstructions and LongRecurrence, together. -/
def Obligations.RecordsAndRecurrence : Prop := RecordInstructions ∧ LongRecurrence

/-- R238 to R251, R413, R414: REVCH of a frame that passes its checks, with the map and the frame found writable and then written,
pushes the chain and lets the sequencer act; it calls the next step, or an adjoint, with the registers of R243, the frames of outer
chains that a restore brought back being written first (R419), and after its last action
returns behind REVCH with g4 zero. REVRET ends the call in progress; REVABT ends the chain with g4 one; REVST reads a
field. At handler privilege REVCH, and outside a chain REVRET and REVABT, raise ILLEGAL. That both places are probed before either is
written, and that REVABT clears INROUT in the frame it writes, are log 48's. -/
def Obligations.ChainReversal : Prop :=
  ∀ (s : State) (ga : Reg), (me s).capLeft = 0 →
    let fa := gGet ga s; let core := coreNo s.cur
    let called (t : State) (target : Word) (g4 g5 g6 : Nat) (g7 : Word) : Prop := (me t).pc = target ∧ gGet 4 t = BitVec.ofNat 64 g4 ∧
      gGet 5 t = BitVec.ofNat 64 g5 ∧ gGet 6 t = BitVec.ofNat 64 g6 ∧ gGet 7 t = g7 ∧ RegsSameBut [4, 5, 6, 7] s t
    ((me s).handler = true → exec (.revch ga) s = .next (illegalLong 5 s)) ∧
    ((me s).r.chains = [] → exec .revret s = .next (illegalLong 6 s) ∧ exec .revabt s = .next (illegalLong 6 s)) ∧
    (Quiet s → (me s).handler = false → (∀ c r, (me s).r.chains = c :: r → c.acting = false) → fa.toNat % 64 = 0 →
      ∀ bs s1 s2 p1 p2 s3 s4, vaReadN (myWho s) fa.toNat 64 s = .ok bs s1 → let c := chainOf fa bs ((me s).pc + 8) ((me s).r.chains.length + 1)
      let outer : Nat := match (me s).r.chains with
        | o :: _ => o.tier
        | [] => 3
      chainSub c (ofBytes ((bs.drop 0x24).take 4)) outer = 0 → slotsHold c s1 = .ok true s2 → (me s).r.chains.length < 4 →
      ((coreOf s2 core).revActive = true ∨ eddyTagsIdle s2 core = true) →
      vaProbe (myWho s) c.slotMap.toNat (4 * c.slots) s2 = .ok () p1 → vaProbe (myWho s) fa.toNat 64 p1 = .ok () p2 →
      vaWriteN (myWho s) c.slotMap.toNat (List.replicate (4 * c.slots) 0xFF) p2 = .ok () s3 → putFrame c s3 = .ok () s4 →
      ∃ t, exec (.revch ga) s = .next t ∧ (me t).r.chains = c :: (me s).r.chains ∧ (me t).pc = (me s).pc ∧
        (coreOf t core).revActive = true ∧ RegsSameBut [] s t ∧ MemSame s4 t) ∧
    (∀ c r, (me s).r.chains = c :: r → (me s).pend = none → (me s).handler = false → c.acting = true →
      ∀ i ∈ [Instr.revch ga, .revret],
        (∀ j rest s0 s1, c.tasks = .sweep j :: rest → j < c.n →
          copyBusy c s (stateAt c true j) (some (workAt c (j + 1))) = false → putStale r.reverse s = .ok () s0 →
          putFrame { c with phase := 0, curidx := j, inrout := true } s0 = .ok () s1 →
          ∃ t, exec i s = .next t ∧ called t c.step j (stateAt c true j) (workAt c (j + 1)) c.frame ∧ MemSame s1 t) ∧
        (∀ k rest s0 s1, c.tasks = .adj k :: rest → copyBusy c s (stateAt c false k) none = false →
          putStale r.reverse s = .ok () s0 →
          putFrame { c with phase := 2, retarget := noRetarget, curidx := k, inrout := true } s0 = .ok () s1 →
          ∃ t, exec i s = .next t ∧ called t c.adj k (stateAt c false k) 0 c.frame ∧ MemSame s1 t) ∧
        (∀ rest s1, c.tasks = .done :: rest → snapCount s = 0 → putFrame { c with phase := 3, retarget := noRetarget } s = .ok () s1 →
          ∃ t, exec i s = .next t ∧ called t c.ret 0 0 0 c.frame ∧ (me t).r.chains = r ∧ MemSame s1 t)) ∧
    (∀ c r, (me s).r.chains = c :: r → Quiet s →
      ((me s).handler = false → c.acting = false → c.inrout = true →
        (∀ j, c.calling = some (0, j) → ∃ t c', exec .revret s = .next t ∧ (me t).r.chains = c' :: r ∧ c'.fsteps = c.fsteps + 1 ∧
          c'.inrout = false ∧ c'.calling = none ∧ c'.acting = true ∧ (me t).pc = (me s).pc ∧ MemSame s t) ∧
        (∀ j s1, c.calling = some (1, j) →
          putFrame { c with inrout := false, calling := none, nextadj := BitVec.ofInt 32 ((j : Int) - 1), acting := true } s = .ok () s1 →
          ∃ t c', exec .revret s = .next t ∧ (me t).r.chains = c' :: r ∧ c'.nextadj = BitVec.ofInt 32 ((j : Int) - 1) ∧
            c'.inrout = false ∧ (me t).pc = (me s).pc ∧ MemSame s1 t)) ∧
      ((me s).handler = false → snapCount s = 0 → ∀ s1, putFrame { c with phase := 3, aborted := true, inrout := false } s = .ok () s1 →
        ∃ t, exec .revabt s = .next t ∧ called t c.ret 1 0 0 c.frame ∧ (me t).r.chains = r ∧ MemSame s1 t)) ∧
    (∀ (d : Reg) (depth : BitVec 3) (field : BitVec 4),
      let c := if depth = 0 then (me s).r.chains.head? else (me s).r.chains.find? (fun c => c.depth == depth.toNat)
      exec (.revst d depth field) s = .next (afterScalar 8 d (match c with
        | some c => BitVec.ofNat 64 (chainField c field.toNat)
        | none => BitVec.allOnes 64) 0 s))

/-! ## Copies, tags and rings -/

/-- R94 to R104, R403 to R407: a CPY that passes its checks enters its hart's copy queue and counts on its tag, else it raises
ILLEGAL or, with 16 commands in the queue or 255 of the tag in flight, waits; with every earlier command taken and fewer
than 16 being performed the engine takes it. The engine moves, fills or hashes a block of a command; its end lowers the count; a stop sets TAGERR too. The tag instructions answer or wait, and TCLR clears. -/
def Obligations.CopiesAndTags : Prop :=
  (∀ (s : State) (o : CpyOp), (me s).capLeft = 0 → let core := coreNo s.cur
    ∀ p ∈ [((0 : Nat), false, Instr.cpy o), (1, false, .cpyFill o), (2, false, .cpyHash o), (0, true, .cpyRing o)],
      let mode := p.1; let ring := p.2.1; let i := p.2.2
      (∀ r, cpyReason mode ring o s = some r → exec i s = .next (illegalLong r s)) ∧
      (cpyReason mode ring o s = none → (16 ≤ queuedCmds s ∨ 255 ≤ tagCountOf (coreOf s core) o.tag.toNat) → exec i s = .next s) ∧
      (cpyReason mode ring o s = none → queuedCmds s < 16 → tagCountOf (coreOf s core) o.tag.toNat < 255 →
        ∃ t c l, exec i s = .next t ∧ (coreOf t core).cmds = l ++ [c] ∧
          l.map (fun x => { x with begun := false }) = (coreOf s core).cmds.map (fun x => { x with begun := false }) ∧
          ((∀ x ∈ (coreOf s core).cmds, x.phase = 0 → x.begun = true) →
            ((coreOf s core).cmds.filter (fun x => x.phase == 0)).length < 16 → c.begun = true) ∧
          c.hart = s.cur ∧ c.mode = mode ∧
          c.ring = ring ∧ c.src = gGet o.ga s ∧ c.dst = gGet o.gd s ∧ c.blk = (gGet o.gb s).toNat ∧ c.tag = o.tag.toNat ∧
          c.nest = (List.range o.dims.toNat).map (nestOf (me s)) ∧ c.phase = 0 ∧
          tagCountOf (coreOf t core) o.tag.toNat = tagCountOf (coreOf s core) o.tag.toNat + 1 ∧ (me t).pc = (me s).pc + 8 ∧
          RegsSameBut [] s t ∧ OtherHarts s t ∧ MemSame s t)) ∧
  (∀ (s : State) (core : Nat) (c : CopyCmd), (coreOf s core).cmds = [c] →
    (c.phase = 0 → c.dims = 0 → c.nest = [] → c.ring = false → c.keep = false → c.blocks = 0 → c.bytes = 0 → c.buf = [] →
      c.hash = shaInit → c.tail = [] → let w := copyWho core c s
      let rd := { w with hold := copySlot c 0 }; let wr := { w with hold := copySlot c 1 }
      (∀ bs s1 s2, c.mode = 0 → vaReadN rd c.src.toNat c.blk s = .ok bs s1 → vaWriteN wr c.dst.toNat bs s1 = .ok () s2 →
        ∃ t c', exec (.copyCommandRun core) s = .next t ∧ (coreOf t core).cmds = [c'] ∧ c'.phase = 1 ∧ MemSame s2 t ∧ t.harts = s2.harts) ∧
      (∀ s2, c.mode = 1 →
        vaWriteN wr c.dst.toNat ((List.range c.blk).map (fun b => (toBytes 8 c.src.toNat).getD (b % 8) 0)) s = .ok () s2 →
        ∃ t c', exec (.copyCommandRun core) s = .next t ∧ (coreOf t core).cmds = [c'] ∧ c'.phase = 1 ∧ MemSame s2 t) ∧
      (∀ bs s1 s2, c.mode = 2 → c.stream ≠ 7 → bs.length = c.blk → vaReadN rd c.src.toNat c.blk s = .ok bs s1 →
        vaWrite w c.dst.toNat (sha256 bs) s1 = .ok () s2 →
        ∃ t c', exec (.copyCommandRun core) s = .next t ∧ (coreOf t core).cmds = [c'] ∧ c'.phase = 1 ∧ MemSame s2 t)) ∧
    (c.phase = 1 → ∃ t, exec (.copyCommandComplete core) s = .next t ∧ (coreOf t core).cmds = [] ∧
      tagCountOf (coreOf t core) c.tag = tagCountOf (coreOf s core) c.tag - 1 ∧ (coreOf t core).tagErr = (coreOf s core).tagErr ∧
      MemSame s t) ∧
    (c.phase = 2 → c.stream ≠ 7 → ∃ t, exec (.copyCommandStop core) s = .next t ∧ (coreOf t core).cmds = [] ∧
      tagCountOf (coreOf t core) c.tag = tagCountOf (coreOf s core) c.tag - 1 ∧
      (coreOf t core).tagErr = (coreOf s core).tagErr ||| BitVec.ofNat 64 (2 ^ c.tag) ∧ MemSame s t)) ∧
  (∀ (s : State) (d a : Reg), (me s).capLeft = 0 → (me s).pend = none → let m := (gGet a s).toNat
    let ready := tagrdy (coreOf s (coreNo s.cur)) &&& m
    let lowest (x : Nat) : Word := if x = 0 then BitVec.allOnes 64 else BitVec.ofNat 64 (ctzOp 64 x)
    let answer (v : Word) : Out := .next (afterScalar 8 d v 0 s)
    (m < 2 ^ 56 ∨ (coreOf s (coreNo s.cur)).revActive = false →
      exec (.twait d a) s = (if ready = m then answer (gGet a s) else .next s) ∧
      exec (.twaitAny d a) s = (if m = 0 ∨ ready ≠ 0 then answer (BitVec.ofNat 64 ready) else .next s) ∧
      exec (.tfirst d a) s = (if m = 0 ∨ ready ≠ 0 then answer (lowest ready) else .next s) ∧
      exec (.tfirstNw d a) s = answer (lowest ready) ∧
      ∃ t, exec (.tclr d a) s = .next t ∧ gGet d t = (if d = 0 then 0 else (coreOf s (coreNo s.cur)).tagErr) ∧
        (coreOf t (coreNo s.cur)).tagErr = (coreOf s (coreNo s.cur)).tagErr &&& ~~~(gGet a s) ∧ (me t).pc = (me s).pc + 8 ∧
        RegsSameBut [d] s t) ∧
    (2 ^ 56 ≤ m → (coreOf s (coreNo s.cur)).revActive = true →
      ∀ i ∈ [Instr.twait d a, .twaitAny d a, .tfirst d a, .tfirstNw d a, .tclr d a], exec i s = .next (illegalLong 2 s)))

/-- Slots pushed one after another, slot i holding `data i`, all succeeding. -/
def Pushed (core off : Nat) (data : Nat → List Byte) : Nat → Nat → State → State → Prop
  | 0, _, s, s1 => s1 = s
  | n + 1, i, s, s1 => ∃ x s2, ringPush core off (data i) s = .ok x s2 ∧ Pushed core off data n (i + 1) s2 s1

/-- Slots pulled one after another, with their bytes, all succeeding. -/
def Pulled (core off : Nat) : List (List Byte) → State → State → Prop
  | [], s, s1 => s1 = s
  | b :: r, s, s1 => ∃ s2, ringPull core off s = .ok b s2 ∧ Pulled core off r s2 s1

/-- R109 to R111, R408 to R412: RPUSH pushes its slots from the register's storage and RPULL pulls them into it; REOS sets EOS, RSTAT
reads the count and EOS, and its reset empties the ring; a slot pushed to an empty ring is what the next pull gives. -/
def Obligations.Rings : Prop :=
  (∀ (s : State) (d ga v : Reg) (c : BitVec 4), VecReady 0 none s → let core := coreNo s.cur; let off := (gGet ga s).toNat
    ringCheck s core off = 0 → let r := ringHdr s core off
    ((c.toNat + 1) * r.size ≤ 2048 * (me s).rc →
      (∀ s1, Pushed core off (fun i => regBytes (me s) v.toNat (i * r.size) r.size) (c.toNat + 1) 0 s s1 →
        ∃ t, exec (.rpush ga v c) s = .next t ∧ RegFrame [] [] [] [] s t ∧ MemSame s1 t) ∧
      (∀ bs s1, bs.length = c.toNat + 1 → (∀ b ∈ bs, b.length = r.size) → Pulled core off bs s s1 →
        ∃ t, exec (.rpull v ga c) s = .next t ∧ regBytes (me t) v.toNat 0 (bs.flatten).length = bs.flatten ∧
          RegFrame [] [] [] [v.toNat] s t ∧ MemSame s1 t)) ∧
    (2048 * (me s).rc < (c.toNat + 1) * r.size → ∃ t p, exec (.rpush ga v c) s = .next t ∧ (me t).pend = some p ∧
      p.flt = mkFlt 0x10 0 6 ∧ MemSame s t) ∧
    (∃ t, exec (.rstat d ga) s = .next t ∧ gGet d t = (if d = 0 then 0 else
      BitVec.ofNat 64 (r.fill + 2 ^ 32 * b2n r.eos + 2 ^ 33 * b2n (r.eos && r.fill == 0))) ∧ VecFrame [d] [] [] [] s t) ∧
    (MemInv s → (∃ t, exec (.reos ga) s = .next t ∧ ringHdr t core off = { r with eos := true } ∧ RegFrame [] [] [] [] s t) ∧
      (∃ t, exec (.rstatReset ga) s = .next t ∧ ringHdr t core off = { r with head := 0, tail := 0, eos := false } ∧
        RegFrame [] [] [] [] s t))) ∧
  (∀ (s s1 : State) (core off : Nat) (bs x : List Byte), MemInv s → let r := ringHdr s core off
    r.fill = 0 → bs.length = r.size → (slotOff r r.tail + r.size ≤ off ∨ off + 64 ≤ slotOff r r.tail) →
    ringPush core off bs s = .ok x s1 → ∃ s2, ringPull core off s1 = .ok bs s2 ∧ (ringHdr s2 core off).fill = 0)

/-! ## Long immediates and system instructions -/

/-- R415 to R417: LDI writes the immediate sign-extended, zero-extended (.z), or above the register's low 32 bits (.hi); ADDIL
adds the sign-extended immediate with ADD's flag; CALLF links and jumps PC-relative or register-relative, and a target
that is no multiple of 4 raises MISALIGN instead. -/
def ConstantsAndFarCalls : Prop :=
  ∀ (s : State) (d a : Reg) (imm : BitVec 32), (me s).capLeft = 0 →
    let pc := (me s).pc; let x := imm.signExtend 64
    let far (i : Instr) (t : Word) : Prop := exec i s = if t.toNat % 4 = 0 then .next (afterScalar (t - pc) d (pc + 8) 0 s)
      else .next (preciseTrap { cause := 3, addr := t, stat := 2 } s)
    exec (.ldi 0 d imm) s = .next (afterScalar 8 d x 0 s) ∧
    exec (.ldi 1 d imm) s = .next (afterScalar 8 d (imm.zeroExtend 64) 0 s) ∧
    exec (.ldi 2 d imm) s = .next (afterScalar 8 d (imm ++ (gGet d s).setWidth 32 : BitVec (32 + 32)) 0 s) ∧
    exec (.addil d a imm) s = .next (afterScalar 8 d (gGet a s + x) (flagIf ((gGet a s).saddOverflow x) flIntovf) s) ∧
    far (.callf d imm) (pc + x) ∧ far (.callfR d a imm) (gGet a s + x)

/-- The anemometer of the hart's die may fold every shadow that the die holds of the hart's partition (R30, R34). -/
def FoldsAllowed (s : State) : Prop :=
  let die := dieNo s.cur; let part := (me s).part.toNat
  ∀ r, r < 65536 → cget Shadow.empty (shadowKey die part r) s.shadows ≠ Shadow.empty →
    recCode s die part r .read = 0 ∧ recCode s die part r .write = 0

/-- R418 to R421: SAVEV writes the frame of the hart's registers but the g registers; RESTV restores the registers of a frame
that passes its checks, cut at each register's extent, keeps the g registers for a SAVEV frame and holds stopped work
for ERET; a failed check, and stopped work at user privilege, trap. The frames of restored chains are to be written again
before the next routine is called (R243). STEPB, where the anemometer is admitted to the records, leaves no shadow of the
partition on the die and merges one into its record; where it is denied one, STEPB takes ACCESS (R34) at the record's number
(log 57). MARKRES adds the buffer to its job and answers its ordinal, or all ones. -/
def SavingAndMarking : Prop :=
  ∀ (s : State) (d a b : Reg), Quiet s →
    let x := me s; let at' := (gGet a s).toNat
    (at' % 64 ≠ 0 → exec (.savev a) s = .next (preciseTrap (mkFlt 3 at' (6 + 64)) s) ∧
      exec (.restv a) s = .next (preciseTrap (mkFlt 3 at' 6) s)) ∧
    (at' % 64 = 0 →
      (∀ s1, writeFrame s.cur (gGet a s) { FrameRec.empty with kind := 1, regs := { x.r with g := [] } } noStream 0 s = .ok () s1 →
        exec (.savev a) s = .next (afterScalar 8 0 0 0 s1)) ∧
      (∀ s1, readFrame s.cur (gGet a s) s = .ok .wrong s1 → exec (.restv a) s = .next (illegalLong 0 s1)) ∧
      (∀ f s1, readFrame s.cur (gGet a s) s = .ok (.good f) s1 →
        let idle := f.vq = [] ∧ f.mq = [] ∧ f.cmds = []
        (¬ idle → x.handler = false → exec (.restv a) s = .next (privTrap s1)) ∧
        ((idle ∨ x.handler = true) →
          (f.regs.chains = [] ∨ (coreOf s1 (coreNo s.cur)).revActive = true ∨ eddyTagsIdle s1 (coreNo s.cur) = true) →
          ∃ t, exec (.restv a) s = .next t ∧ (me t).pc = x.pc + 8 ∧ MemSame s1 t ∧ OtherHarts s1 t ∧
            (me t).r = { f.regs with v := (me t).r.v, g := if f.kind = 1 then x.r.g else f.regs.g,
                                     chains := f.regs.chains.map (fun c => { c with stale := true }) } ∧
            (∀ v k, k < 8 → vRow (me t) v k = clipRow k (cget 0 v f.regs.ext) (cget 0 (8 * v + k) f.regs.v)) ∧
            (f.kind = 1 → (me t).vl = x.vl ∧ (me t).rc = x.rc) ∧ (me t).stoppedV = f.vq ∧ (me t).stoppedM = f.mq ∧
            (me t).stoppedC = f.cmds ∧ (me t).restored = true))) ∧
    (∀ r sh, s.shadows = [(shadowKey (dieNo s.cur) x.part.toNat r, sh)] → r < 65536 → sh ≠ Shadow.empty →
      let code (kind : AccKind) : Nat := recCode s (dieNo s.cur) x.part.toNat r kind
      let denied (kind : AccKind) : Prop := exec .stepb s = .next (preciseTrap (mkFlt 5 r (code kind))
        (logDenial s (anemMaster (dieNo s.cur)) 127 (recAddr s x.part.toNat r) kind (code kind)))
      (code .read ≠ 0 → denied .read) ∧ (code .read = 0 → code .write ≠ 0 → denied .write)) ∧
    (FoldsAllowed s → ∃ t, exec .stepb s = .next t ∧ (me t).pc = x.pc + 8 ∧ RegsSameBut [] s t ∧ OtherHarts s t ∧
      (∀ r, r < 65536 → cget Shadow.empty (shadowKey (dieNo s.cur) x.part.toNat r) t.shadows = Shadow.empty) ∧
      (∀ r sh, MemInv s → s.shadows = [(shadowKey (dieNo s.cur) x.part.toNat r, sh)] → r < 65536 → sh ≠ Shadow.empty →
        sh.absmax < 2 ^ 32 → (∀ p ∈ sh.bins, p.1 < 32) → let home := recAddr s x.part.toNat r
        cget false (home / 65536) s.zeroPend = false →
        rawRead t home 4 = Nat.max (rawRead s home 4) sh.absmax ∧
        rawRead t (home + 4) 4 = (rawRead s (home + 4) 4 + 1) % 2 ^ 32 ∧
        rawRead t (home + 8) 8 = (rawRead s (home + 8) 8 + sh.count) % 2 ^ 64) ∧
      (s.shadows = [] → MemSame s t)) ∧
    (let n := (gGet b s).toNat
     ((n = 0 ∨ 2 ^ 34 < n) → exec (.markres d a b) s = .next (illegalLong 0 s)) ∧
     (0 < n → n ≤ 2 ^ 34 → ∀ s1, translateAll (myWho s) (rangePages at' n) s = .ok () s1 →
       (x.job = none → exec (.markres d a b) s = .next (afterScalar 8 d (BitVec.allOnes 64) 0 s1)) ∧
       (∀ j, x.job = some j → let marks := (jobOf s1 j).marks
         (64 ≤ marks.length → exec (.markres d a b) s = .next (afterScalar 8 d (BitVec.allOnes 64) 0 s1)) ∧
         (marks.length < 64 → let ord := (marks.filter (fun m => m.1 == x.jobhart.toNat)).length
           ∃ t, exec (.markres d a b) s = .next t ∧ gGet d t = (if d = 0 then 0 else BitVec.ofNat 64 ord) ∧
             (jobOf t j).marks = marks ++ [(x.jobhart.toNat, ord, gGet a s, gGet b s)] ∧ (me t).pc = x.pc + 8 ∧
             RegsSameBut [d] s t ∧ MemSame s1 t))))

/-- R91: a STEPB that completes leaves no line of the executing partition in its die's lee cache, whatever the line's global
address; it completes in every state in which nothing of the hart is in flight and the anemometer of the die may fold what it
holds for the partition, and other lines stay. -/
def Obligations.StepbInvalidatesLeeLines : Prop :=
  ∀ s : State, Quiet s → FoldsAllowed s → let die := dieNo s.cur; let part := (me s).part.toNat
    ∃ t, exec .stepb s = .next t ∧ (me t).pc = (me s).pc + 8 ∧
      (∀ g, g < 2 ^ 64 → cget [] (leeKey die part g) t.lee = []) ∧
      (∀ d p g, p < 128 → g < 2 ^ 64 → (d ≠ die ∨ p ≠ part) → cget [] (leeKey d p g) t.lee = cget [] (leeKey d p g) s.lee)

/-- R65, R66: at user privilege TLBINV raises PRIV. At handler privilege it answers 0 for no page and 2 for a range outside the
address space, and then invalidates nothing; else it drops the translations that the streams of its context hold (R54; held
a 64 KiB page at a time, log 33) of pages that overlap the range, and of no other page or context, stays while an access of
the context that a translation of the range began awaits a link (log 65), and answers 0 where no hart of the context pins a
page of the range; .move reports the lowest pinned page (of a large one that begins below the range, the range's first page, log
80), .wait too when the hart itself pins one, else it stays until the pins are gone. The pre-emption of a wait stops each other
hart that pins a page of the range and can stop, and its pin is gone; one with an access that is not complete, or a snapshot copy
that is not through, stays as its settlement leaves it. -/
def TranslationInvalidation : Prop :=
  ∀ (s : State) (d a b : Reg), (me s).capLeft = 0 →
    let lo := (gGet a s).toNat / 65536 * 65536; let hi := lo + (gGet b s).toNat * 65536
    let ranged : List Instr := [.tlbinv d a b, .tlbinvMove d a b, .tlbinvWait d a b]
    let u := dropRange lo hi s
    let answer (v : Word) : Out := .next (afterScalar 8 d v 0 u)
    (∀ first last, let u := dropRange first last s
      (∀ e, e ∈ u.held ↔ e ∈ s.held ∧ ¬ ((hartOf s e.hart).part = (me s).part ∧ (hartOf s e.hart).ctx = (me s).ctx ∧
        e.page * 65536 < last ∧ first < (e.page + 1) * 65536)) ∧ { u with held := s.held } = s) ∧
    ((me s).handler = false → ∀ i ∈ Instr.tlbinvAll d :: ranged, exec i s = .next (privTrap s)) ∧
    ((me s).handler = true → Quiet s →
      let l := pinners s (me s) lo hi
      (let v := dropRange 0 (2 ^ 48) s
       (translatedWaits s (me s) 0 (2 ^ 48) = true → exec (.tlbinvAll d) s = .next v) ∧
       (translatedWaits s (me s) 0 (2 ^ 48) = false → exec (.tlbinvAll d) s = .next (afterScalar 8 d 0 0 v))) ∧
      (gGet b s = 0 → ∀ i ∈ ranged, exec i s = .next (afterScalar 8 d 0 0 s)) ∧
      (gGet b s ≠ 0 → (2 ^ 48 ≤ (gGet a s).toNat ∨ 2 ^ 48 < hi) → ∀ i ∈ ranged,
        exec i s = .next (afterScalar 8 d 2 0 s)) ∧
      (gGet b s ≠ 0 → (gGet a s).toNat < 2 ^ 48 → hi ≤ 2 ^ 48 → translatedWaits s (me s) lo hi = true →
        ∀ i ∈ ranged, exec i s = .next u) ∧
      (gGet b s ≠ 0 → (gGet a s).toNat < 2 ^ 48 → hi ≤ 2 ^ 48 → translatedWaits s (me s) lo hi = false →
        exec (.tlbinv d a b) s = answer 0 ∧
        (l = [] → ∀ i ∈ ranged, exec i s = answer 0) ∧
        (l ≠ [] → let v : Word := BitVec.ofNat 64 (1 + lowestPinned s l lo / 65536 % 2 ^ 32 * 65536)
          exec (.tlbinvMove d a b) s = answer v ∧ (s.cur ∈ l → exec (.tlbinvWait d a b) s = answer v) ∧
          (s.cur ∉ l → exec (.tlbinvWait d a b) s = .next (modMe (fun x => { x with invWait := some (lo, hi) }) u))))) ∧
    (∀ h, ((hartOf s h).invWait = none → exec (.pinWaitPreempt h) s = .next s) ∧
      (∀ lo hi, (hartOf s h).invWait = some (lo, hi) →
        let l := (pinners s (hartOf s h) lo hi).filter (fun k => k != h)
        ((∀ l1 k l2, l = l1 ++ k :: l2 → let before := l1.foldl bounceHart s; cannotStop (settleHart before k) k = false) →
          ∃ t, exec (.pinWaitPreempt h) s = .next t ∧ ∀ k ∈ l, (hartOf t k).pin = none) ∧
        (∀ k, l = [k] → cannotStop (settleHart s k) k = true → exec (.pinWaitPreempt h) s = .next (settleHart s k))))

/-- ConstantsAndFarCalls, SavingAndMarking and TranslationInvalidation, together. -/
def Obligations.SystemInstructions : Prop := ConstantsAndFarCalls ∧ SavingAndMarking ∧ TranslationInvalidation

/-! ## Requests, access tables and links -/

/-- What the check of its target says of a request (R28): 0, or the reason of a denial; there is no target beyond the package. -/
def targetCode (s : State) (r : Request) : Nat :=
  if 2 ^ 44 ≤ r.addr.toNat then 1 else checkLocal s r.master.toNat r.part.toNat r.addr.toNat r.kind

/-- A request waits for a line that an engine owns (R173). -/
def LineOwned (s : State) (r : Request) : Prop :=
  ownedByOther s r.master.toNat (glob s r.addr.toNat) (if isWr r.kind then r.data.length else r.len) = true

/-- R28, R29, R33, R34, R37, R173: a request of at most 256 bytes inside a page that the check admits takes effect at its target and
nowhere else, and is answered; a denied one appends one record and is answered with its reason, a host's read with all ones. A
larger one is none, nor one of the command complex under another partition than 126, or 127 of the root core (R22), or any while
the device takes only an image (R275). One to an owned line waits; one to a link that is down stays outstanding. -/
def RequestsAtATarget : Prop :=
  ∀ (s : State) (r : Request),
    let a := r.addr.toNat; let n := if isWr r.kind then r.data.length else r.len; let m := r.master.toNat
    let code := targetCode s r
    let fits := 0 < n ∧ n ≤ 256 ∧ a % 65536 + n ≤ 65536 ∧ s.boot.imageOnly = false ∧
      (m / 8192 = 3 → r.part.toNat = if m = 0x6004 then 127 else 126)
    let answered (t : State) (code : Nat) (bs : List Byte) : Prop :=
      t.replies = s.replies ++ [{ master := m, denied := code, data := bs }]
    let old : List Byte := if r.kind = .write then [] else memBytes s (glob s a) n
    let inWindow := 0x40000000000 ≤ a ∧ a < 0x80000000000
    let link := if a < 0x60000000000 then 0 else 1
    let admitted := fits ∧ code = 0 ∧ ¬ LineOwned s r ∧ cget false (a / 65536) s.zeroPend = false
    (fits → code = 0 → LineOwned s r → ∃ t, exec (.targetRequest r) s = .next t ∧
      t.waiting = s.waiting ++ [{ req := r, via := none }] ∧ t.replies = s.replies ∧ t.harts = s.harts ∧ t.mem = s.mem) ∧
    (¬ fits → exec (.targetRequest r) s = .next s) ∧
    (fits → code ≠ 0 → ∃ t tgt, exec (.targetRequest r) s = .next t ∧ t.mem = s.mem ∧ t.harts = s.harts ∧
      t.faultLog = s.faultLog ++ [{ part := r.part.toNat, target := tgt, master := m, addr := a,
                                    kind := kindCode r.kind, reason := code }] ∧
      (partOf t r.part.toNat).denials = (partOf s r.part.toNat).denials + 1 ∧
      answered t code (if m / 8192 = 4 ∧ r.kind = .read then List.replicate r.len 0xFF else [])) ∧
    (admitted → isMmio a = false → (inWindow → (linkOf s link).trained = true) →
      ∃ t, exec (.targetRequest r) s = .next t ∧ answered t 0 old ∧ t.harts = s.harts ∧ t.faultLog = s.faultLog ∧
        (isWr r.kind = false → t.mem = s.mem) ∧
        (isWr r.kind = true → MemInv s →
          memBytes t (glob s a) r.data.length = r.data ∧ MemSameBut (glob s a) r.data.length s t)) ∧
    (admitted → isMmio a = true →
      (isWr r.kind = false → exec (.targetRequest r) s =
        .next { s with replies := s.replies ++ [{ master := m, denied := 0, data := mmioBytes s a n }] }) ∧
      (isWr r.kind = true → r.data.length = 8 → a % 8 = 0 → exec (.targetRequest r) s =
        .next { s with regWrites := s.regWrites ++ [(a, BitVec.ofNat 64 (ofBytes r.data))],
                       replies := s.replies ++ [{ master := m, denied := 0, data := if r.kind = .write then [] else mmioBytes s a 8 }] })) ∧
    (admitted → inWindow → (linkOf s link).trained = false →
      ((linkOf s link).outstanding.filter (fun q => q.source == m)).length < 64 →
      ∃ t q, exec (.targetRequest r) s = .next t ∧ t.replies = s.replies ∧ t.harts = s.harts ∧
        (linkOf t link).outstanding = (linkOf s link).outstanding ++ [q] ∧ q.source = m ∧ q.hart = none ∧
        q.cls = reqClass r.kind ∧ (q.applied = false → t.mem = s.mem))

/-- R22, R30 to R32, R90, R173, R179: a host's request is mapped by the aperture of its function and then checked as class 4, an
unmapped one is denied at its offset (log 23); a peer's is checked as class 5; both are metered and take a tag of their link,
under which the reply is cached. With the link down, or in image-only mode, a request changes nothing; one that is larger
than 256 bytes or crosses a page goes no further (log 23). A fill brings its link's answer into a die's lee cache for a read that
waits for the line (log 24), and a recall marks the lines that engines own (log 25). -/
def RequestsOverLinks : Prop :=
  ∀ (s : State) (fn : BitVec 7) (off : BitVec 64) (kind : AccKind) (len : Nat) (data : List Byte) (pkg : BitVec 10)
    (r : Request) (die : BitVec 2) (part : BitVec 7) (addr line : BitVec 64),
    let n := if isWr kind then data.length else len
    let host := exec (.hostRequest fn off kind len data) s
    let u := addMeter fn.toNat 5 n (useTag 0 (0x8000 + fn.toNat) s)
    let via := some (0, nextTag s 0 (0x8000 + fn.toNat))
    let link := 2 + (Config.stationOf pkg.toNat).toNat
    let m := if isWr r.kind then r.data.length else r.len
    ((s.boot.imageOnly = true ∨ (linkOf s 0).trained = false ∨ 64 < fn.toNat) → host = .next s) ∧
    (s.boot.imageOnly = false → (linkOf s 0).trained = true → fn.toNat ≤ 64 →
      (∀ a, apertureAt s fn.toNat off.toNat = some a →
        let q : Request := { master := BitVec.ofNat 16 (0x8000 + fn.toNat), part := fn, addr := BitVec.ofNat 64 a, kind := kind,
                             len := len, data := data }
        host = .next (if requestFits q then takeRequest q via u else u)) ∧
      (apertureAt s fn.toNat off.toNat = none → let back := if kind = .read then List.replicate len 0xFF else []
        ∃ t, host = .next t ∧ t.mem = s.mem ∧ t.harts = s.harts ∧ (∃ e, t.faultLog = s.faultLog ++ [e] ∧ e.addr = off.toNat) ∧
        (partOf t fn.toNat).denials = (partOf s fn.toNat).denials + 1 ∧
        { source := 0x8000 + fn.toNat, seq := nextTag s 0 (0x8000 + fn.toNat), code := 1, data := back } ∈ (linkOf t 0).replies ∧
        t.replies = s.replies ++ [{ master := 0x8000 + fn.toNat, denied := 1, data := back }])) ∧
    (((linkOf s link).trained = false ∨ requestFits r = false) → exec (.peerRequest pkg r) s = .next s) ∧
    ((linkOf s link).trained = true → requestFits r = true → exec (.peerRequest pkg r) s =
      .next (takeRequest { r with master := BitVec.ofNat 16 (0xA000 + pkg.toNat) } (some (link, nextTag s link (0xA000 + pkg.toNat)))
        (addMeter r.part.toNat 6 m (useTag link (0xA000 + pkg.toNat) s)))) ∧
    (r.master.toNat / 8192 ≠ 3 → requestFits r = true → s.boot.imageOnly = false →
      exec (.targetRequest r) s = .next (takeRequest r none s) ∧
      (targetCode s r ≠ 0 ∨ (¬ LineOwned s r ∧ ∀ p, linkFor s { pkg := s.pkg, a := r.addr.toNat, leaf := 0, lvl := 4 } = some p →
          (linkOf s p.1).trained = true) →
        ∀ tag, ∃ back, let t := takeRequest r none s
          t.replies = s.replies ++ [{ master := r.master.toNat, denied := targetCode s r, data := back }] ∧
          takeRequest r (some (link, tag)) s = cacheReply link r.master.toNat tag (targetCode s r) back t)) ∧
    (let key := leeKey die.toNat part.toNat addr.toNat
     let fills (q : LinkReq) : Prop := (∃ p ∈ s.links, q ∈ p.2.resend) ∧ q.source = fillMaster die.toNat ∧ q.req.part = part ∧
       q.req.addr.toNat = addr.toNat / 256 * 256 ∧ q.cls = 0
     ((¬ ∃ q, fills q) ∨ cget [] key s.lee ≠ [] → exec (.leeCacheFill die part addr) s = .next s) ∧
     ((∃ q, fills q) → cget [] key s.lee = [] → ∃ q, fills q ∧
       exec (.leeCacheFill die part addr) s = .next { s with lee := cset [] key q.req.data s.lee })) ∧
    ((∀ o ∈ s.owned, o.owner < 2 ^ 32) → exec (.directoryRecall line) s = .next { s with owned := s.owned.map (fun o =>
      if o.lo ≤ line.toNat / 256 ∧ line.toNat / 256 < o.hi then { o with recalled := true } else o) })

/-- R35, R36: a write of ACTINV while DONE is 1 takes the entries of the named kinds and masters and the kinds' descriptors from
the tables in memory and clears DONE; with DONE 0 or no kind it has no effect; DONE rises when no request of a named
master waits any longer. The tables' place and the word's layout are logs 11's and 34's. -/
def AccessTableChanges : Prop :=
  ∀ (s : State) (value : BitVec 64),
    let kinds : BitVec 8 := value.extractLsb' 0 8; let master := bitsOf value.toNat 32 16; let all := value.getLsbD 62
    ((s.actDone = false ∨ kinds = 0) → exec (.actinv value) s = .next s) ∧
    (s.actDone = true → kinds ≠ 0 → ∃ t, exec (.actinv value) s = .next t ∧ t.actDone = false ∧ t.actKinds = kinds ∧
      t.actMaster = (if all then none else some master) ∧
      (∀ k, cget 0 k t.accE = if kinds.getLsbD (k / 65536 / 256) && (all || k % 65536 == master) then entryInMem s k
        else cget 0 k s.accE) ∧
      (∀ k, cget 0 k t.accD = if kinds.getLsbD (k / 256 / 256) then regionInMem s k else cget 0 k s.accD) ∧
      t.rootCached = (if all ∨ master = 0x6004 then s.rootCached &&& ~~~kinds else s.rootCached) ∧
      t.mem = s.mem ∧ t.harts = s.harts) ∧
    (let waits := ∃ k x, (k, x) ∈ s.links ∧ ∃ r ∈ x.outstanding, ∀ m, s.actMaster = some m → r.source = m
     (¬ waits → exec .actinvDone s = .next { s with actDone := true }) ∧ (waits → exec .actinvDone s = .next s))

/-- R179, R180, R275: a replay whose tag is in the reply cache is answered from it and performs nothing; a reset takes a link down and
keeps its replies; a retrain, of the Tammas link alone in minimal mode, brings it up and sends loads and stores again, each once,
with its tag, a store that its target has performed not being performed again: a hart takes the answer when it makes its access
again, but for a load of uncorrectable data, and another master is answered; an atomic that was under way, or anything at a link that did not come back, is lost: the hart takes LINKLOST,
precisely for a scalar access and imprecisely for a stream, and another master is told so (log 50). -/
def LinkEvents : Prop :=
  ∀ (s : State) (link : BitVec 4) (src seq : BitVec 16) (far : Bool),
    let k := link.toNat; let old := linkOf s k
    let answers (t : State) (m code : Nat) (bs : List Byte) : Prop :=
      t.replies = s.replies ++ [{ master := m, denied := code, data := bs }]
    let up : State := modLink k (fun x =>
      { x with trained := true, outstanding := [], replies := if far then [] else old.replies }) s
    let again (r : LinkReq) : Prop := r.cls = 0 ∨ (r.cls = 1 ∧ far = false)
    let takes (t : State) (l : List LinkReq) : Prop := (linkOf t k).trained = true ∧ (linkOf t k).outstanding = [] ∧
      (linkOf t k).resend = old.resend ++ l ∧ t.harts = s.harts ∧ t.replies = s.replies
    let fate (t : State) (s0 : State) (q : LinkReq) : Prop :=
      let f := mkFlt 0x0B 0 (k + 16 * (if q.cls = 0 then 0 else 1) + 32 * (if q.cls = 2 then 1 else 0))
      (q.hart = none → t.harts = s.harts ∧ answers t q.source 6 []) ∧
      (∀ h, q.hart = some h → (hartOf s h).run ≠ .off → (hartOf s h).pend = none → (hartOf s h).entry = none →
        (q.stream = 1 → ∀ e rest, (hartOf s h).vq = e :: rest → (hartOf t h).pend = some
          { flt := f, lpc := e.ctx.pc, elem := e.vstart, stream := 1, fs := { noStream with fstream := 1 } }) ∧
        (q.stream = 0 → TakesTraps h 0x0B s → FrameWritable h (hartOf s h).pc noStream 0 s0 →
          TrapTaken h 0x0B false (hartOf s h).pc 0 f.addr f.stat 0 s t))
    let found := old.replies.find? (fun r => r.source == src.toNat && r.seq == seq.toNat)
    (found = none → exec (.linkReplay link src seq) s = .next s) ∧
    (∀ r, found = some r → exec (.linkReplay link src seq) s =
      .next { s with replies := s.replies ++ [{ master := src.toNat, denied := r.code, data := r.data }] }) ∧
    (k < 10 → ∃ t, exec (.linkReset link) s = .next t ∧ linkOf t k = { old with trained := false } ∧
      (∀ j, j ≠ k → linkOf t j = linkOf s j) ∧ t.mem = s.mem ∧ t.harts = s.harts) ∧
    ((10 ≤ k ∨ old.trained = true) → exec (.linkRetrain link far) s = .next s ∧ exec (.linklost link) s = .next s) ∧
    (s.boot.minimal = true → k ≠ 0 → exec (.linkRetrain link far) s = .next s) ∧
    (k < 10 → old.trained = false → (∀ q, old.outstanding = [q] →
      ∃ t, exec (.linklost link) s = .next t ∧ fate t (modLink k (fun x => { x with outstanding := [] }) s) q)) ∧
    (k < 10 → old.trained = false → (s.boot.minimal = true → k = 0) →
      ((∀ r ∈ old.outstanding, r.hart.isSome = true ∧ again r ∧ (r.cls = 0 → firstPoison s r.req.addr.toNat r.req.len = none)) →
        ∃ t l, exec (.linkRetrain link far) s = .next t ∧ takes t l ∧ l.map (fun r => (r.hart, r.source, r.seq, r.cls, r.va)) =
          old.outstanding.map (fun r => (r.hart, r.source, r.seq, r.cls, r.va))) ∧
      (∀ q, old.outstanding = [q] → q.hart.isSome = true →
        (q.cls = 0 → ∃ t, exec (.linkRetrain link far) s = .next t ∧ t.mem = s.mem ∧
          takes t (if firstPoison s q.req.addr.toNat q.req.len = none then
            [{ q with req := { q.req with data := memBytes s q.req.addr.toNat q.req.len } }] else [])) ∧
        (q.cls = 1 → far = false → ∃ t, exec (.linkRetrain link far) s = .next t ∧ takes t [{ q with applied := true }] ∧
          (q.applied = true → t.mem = s.mem) ∧
          (q.applied = false → MemInv s → memBytes t q.req.addr.toNat q.req.data.length = q.req.data ∧
            MemSameBut q.req.addr.toNat q.req.data.length s t))) ∧
      (∀ q, old.outstanding = [q] → q.hart = none → again q → q.req.master.toNat = q.source →
        let a := q.req.addr.toNat % 2 ^ 44
        isMmio a = false → cget false (a / 65536) s.zeroPend = false →
        ∃ t, exec (.linkRetrain link far) s = .next t ∧ (linkOf t k).trained = true ∧ (linkOf t k).outstanding = [] ∧
          t.harts = s.harts ∧
          (q.req.kind = .read → t.mem = s.mem ∧ answers t q.source 0 (memBytes s (glob s a) q.req.len)) ∧
          (q.req.kind = .write → answers t q.source 0 [] ∧ (q.applied = true → t.mem = s.mem) ∧
            (q.applied = false → MemInv s → memBytes t (glob s a) q.req.data.length = q.req.data ∧
              MemSameBut (glob s a) q.req.data.length s t))) ∧
      (∀ q, old.outstanding = [q] →
        (q.cls = 2 ∨ (q.cls = 1 ∧ far = true)) → ∃ t, exec (.linkRetrain link far) s = .next t ∧ fate t up q))

/-- RequestsAtATarget, RequestsOverLinks, AccessTableChanges and LinkEvents, together. -/
def Obligations.RequestsTablesAndLinks : Prop := RequestsAtATarget ∧ RequestsOverLinks ∧ AccessTableChanges ∧ LinkEvents

/-! ## Gangs, power and the debug port -/

/-- R221 to R223, R252: a pre-emption drains the snapshot copies of the job's harts and writes their chain frames; then, once
no access of theirs is without an answer, it parks the job, empties its harts' places and keeps each hart in its switch
record, whose first bytes are those of R59 and whose cause is PREEMPT (where the records lie is log 51's), a convoy being taken
back to the start of its element group (R217; log 17); until then it is due. A resumption within the
bounds of R223 puts the harts back with their registers; otherwise it changes nothing (log 74). -/
def GangSwitches : Prop :=
  ∀ (s : State) (job : Nat) (cores : List Nat), let j := jobOf s job; let u := j.harts.foldl settleHart s
    ((j.live = false ∨ j.parked = true) → exec (.preempt job) s = .next s) ∧
    (j.live = true → j.parked = false → (∃ h ∈ j.harts, cannotStop u h = true) →
      ∃ t, exec (.preempt job) s = .next t ∧ (jobOf t job).parked = false ∧ (jobOf t job).sliceDue = true ∧ t.harts = u.harts) ∧
    (j.live = true → j.parked = false → (∀ h ∈ j.harts, cannotStop u h = false) →
      ∃ t, exec (.preempt job) s = .next t ∧ (jobOf t job).parked = true ∧ (jobOf t job).cores = j.cores ∧
        (∀ h ∈ j.harts, (hartOf t h).run = .off) ∧
        (∀ h, j.harts = [h] →
          let x := unwindConvoy (hartOf u h); let r := cget SwitchRec.empty (switchKey job x.jobhart.toNat) t.switches; let y := r.hart
          r.cause = 0x13 ∧ r.head = frameHeader x.r noStream (headVstart x) ∧
          y.r = x.r ∧ y.pc = x.pc ∧ y.vl = x.vl ∧ y.rc = x.rc ∧ y.acc = x.acc ∧ y.t = x.t ∧ y.fflags = x.fflags ∧
          y.handler = x.handler ∧ y.pin = none)) ∧
    (mayResume s job cores = false → exec (.resumeGang job cores) s = .next s) ∧
    (mayResume s job cores = true →
      ∃ t, exec (.resumeGang job cores) s = .next t ∧ (jobOf t job).parked = false ∧ (jobOf t job).cores = cores ∧
        (∀ h, j.harts.length = 1 → placeHarts s j cores = [h] →
          let x := (cget SwitchRec.empty (switchKey job 0) s.switches).hart
          (hartOf t h).r = x.r ∧ (hartOf t h).pc = x.pc ∧ (hartOf t h).vl = x.vl ∧ (hartOf t h).rc = x.rc ∧
          (hartOf t h).acc = x.acc ∧ (hartOf t h).t = x.t ∧ (hartOf t h).fflags = x.fflags ∧ (hartOf t h).run = x.run))

/-- R201, R202, R205, R206: the power cap takes its legal values only, another write changing nothing (log 74); heads that are bound
together have disjoint lane groups, each all the VGRANT groups that it took at its push; at a row-step boundary a core's only
queued vector instruction, or the convoy that it begins, is bound and processes one row; one that reads or writes all rows at
once, and a convoy that has completed, holds its groups for a step a row (log 17); a core with empty queues and no attached hart
stays as it is. -/
def GrantEvents : Prop :=
  ∀ (s : State) (value : BitVec 64) (core : Nat),
    let lg := value.toNat % 16; let mr := value.toNat / 16 % 8
    (value.toNat < 128 ∧ 1 ≤ lg ∧ lg ≤ 8 ∧ 1 ≤ mr ∧ mr ≤ 4 → exec (.powerCapChange value) s = .next { s with pwrcap := value }) ∧
    (¬ (value.toNat < 128 ∧ 1 ≤ lg ∧ lg ≤ 8 ∧ 1 ≤ mr ∧ mr ≤ 4) → exec (.powerCapChange value) s = .next s) ∧
    (∀ (heads : List (Nat × Hart)) (free : List Nat), (heads.map (fun p => p.1)).Nodup →
      ((heads.filter (fun p => (bindHeads heads free).contains p.1)).map
        (fun p => min ((p.2.vq.head?.map (fun e => e.ctx.vgrant)).getD p.2.vgrant) (popcount 8 p.2.lset.toNat))).sum ≤
          free.length) ∧
    ((∀ i, i < 8 → (hartOf s (8 * core + i)).vq = [] ∧ (hartOf s (8 * core + i)).mq = []) → attachedOf s (core / 4) = [] →
      exec (.rowStepBoundary core) s = .next s) ∧
    (∀ i e rest, i < 8 → let h := 8 * core + i; let x := hartOf s h
      (∀ k, k < 8 → k ≠ i → (hartOf s (8 * core + k)).vq = [] ∧ (hartOf s (8 * core + k)).mq = []) →
      x.vq = e :: rest → x.mq = [] → x.pend = none → x.entry = none → x.dbg.due = none →
      x.run = .running →
      let u := countLanes [h] [(h, x)] core s; let y := hartOf u h
      (0 < x.rowDebt → attachedOf s (core / 4) = [] → ∃ t, exec (.rowStepBoundary core) s = .next t ∧
        (hartOf t h).rowDebt = x.rowDebt - 1 ∧ (hartOf t h).vq = x.vq ∧ (hartOf t h).r = x.r ∧ t.mem = s.mem) ∧
      (x.rowDebt = 0 → drainsNext x = false →
        let v := asHart h (fun w =>
          let w' := if e.ctx.conv = 0 then
              afterV (rowsOver (perfQueued e.instr { e with ctx := { e.ctx with byRow := true } } w)) rest
            else stepConvoy perfQueued true w
          countStallM y (countStallV y
            (if sameV y (me w') then w' else modMe (fun z => { z with rowDebt := rowsOwed e z }) w'))) u
        (∀ k, k < 8 → i < k → (hartOf v (8 * core + k)).vq = [] ∧ (hartOf v (8 * core + k)).mq = []) →
        attachedOf v (core / 4) = [] → exec (.rowStepBoundary core) s = .next v))

/-- R234 to R236, R427: HALTREQ stops a running hart at its next parcel, once the accesses that it has issued are complete, and changes
none of its registers, but that a convoy goes back to the start of its element group (R217; log 17); RESUME makes a stopped
hart go on with the g registers that the debugger left, behind the GBAR when its gang has passed the one it stopped at; a
write of a debug register takes effect, a g register's and a CSR's only while the hart is stopped; a write of a KV quota
raises or lowers it (R136; its place is the model's choice, log 85), and no other write of the region changes anything, nor
does any while the device takes only a firmware image (R275). What RESUME leaves and where it goes on are log 21's. -/
def DebugPort : Prop :=
  ∀ (s : State) (h : Nat), let x := hartOf s h
    ((x.run = .running ∨ x.run = .parked) → x.dbg.due = none →
      (unfinished (drainStores h s) h = true → exec (.haltreq h) s =
        .next (modHart h (fun x => { x with dbg := { x.dbg with due := some 0 } }) (drainStores h s))) ∧
      (x.sbuf = [] → awaitsLink s h = false → ∃ t, exec (.haltreq h) s = .next t ∧ (hartOf t h).run = .stopped ∧
        (hartOf t h).dbg.why = 0 ∧ (hartOf t h).dbg.dpc = x.pc ∧ (hartOf t h).r = (unwindConvoy x).r ∧
        (hartOf t h).handler = x.handler ∧ (hartOf t h).t = x.t ∧ (hartOf t h).pc = x.pc)) ∧
    ((x.dbg.due.isSome = true ∨ (x.run ≠ .running ∧ x.run ≠ .parked)) → exec (.haltreq h) s = .next s) ∧
    (x.run = .stopped → ∃ t, exec (.resume h) s = .next t ∧ (hartOf t h).run = .running ∧ (hartOf t h).r.g = x.r.g ∧
      (hartOf t h).handler = x.handler ∧ (hartOf t h).t = x.t ∧ (hartOf t h).dbg.suppress = true ∧
      ∀ r u, readFrame h x.dbg.dframe s = .ok (.good r) u → r.kind = 3 →
        (hartOf t h).pc = if x.dbg.passed then r.pc + 4 else r.pc) ∧
    (x.run ≠ .stopped → exec (.resume h) s = .next s) ∧
    (∀ (a v : Word), s.boot.imageOnly = true → exec (.registerWrite a v) s = .next s) ∧
    (∀ (off : Nat) (v : Word), s.boot.imageOnly = false → h < 2048 → off < 4096 → off % 8 = 0 →
      let write := exec (.registerWrite (BitVec.ofNat 64 (0xF0000000000 + 4096 * h + off)) v) s
      let dbg (f : Debug → Debug) : Out := .next (modHart h (fun x => { x with dbg := f x.dbg }) s)
      (off = 0x18 → write = dbg (fun d => { d with dframe := v &&& ~~~63 })) ∧
      (off = 0x40 → write = dbg (fun d => { d with dwa0 := v })) ∧ (off = 0x48 → write = dbg (fun d => { d with dwa1 := v })) ∧
      (off = 0x50 → write = dbg (fun d => { d with dwk := v &&& 15 })) ∧
      (∀ i, i < 4 → off = 0x20 + 8 * i → write = dbg (fun d => { d with dbp := lset v i d.dbp })) ∧
      (off = 0 → (v.getLsbD 1 = false ∨ x.run ≠ .stopped) → (v.getLsbD 0 = false ∨ (x.run ≠ .running ∧ x.run ≠ .parked)) →
        ∃ t, write = .next t ∧ ∀ i, i < 64 → (hartOf t h).dbg.dctl.getLsbD i =
          ((decide (2 ≤ i ∧ i < 8) || decide (33 ≤ i ∧ i < 53)) && v.getLsbD i)) ∧
      (∀ n, 1 ≤ n → n < 32 → off = 0x100 + 8 * n → write = if x.run = .stopped then
        .next (modHart h (fun x => { x with r := { x.r with g := cset 0 n v x.r.g } }) s) else .next s) ∧
      (∀ n, off = 0x800 + 8 * n → n < 256 → write = if x.run = .stopped then .next (modHart h (csrPut n v) s) else .next s)) ∧
    (∀ (die off : Nat) (v : Word), s.boot.imageOnly = false → die < 4 → off < 65536 →
      exec (.registerWrite (BitVec.ofNat 64 (0xF0040000000 + 65536 * die + off)) v) s = .next (if off < 2048 ∧ off % 16 = 0 then
        modPart (off / 16) (fun p => { p with kvQuota := v.toNat }) s else s)) ∧
    (∀ (a v : Word), (a.toNat < 0xF0000000000 ∨ (0xF0000800000 ≤ a.toNat ∧ a.toNat < 0xF0040000000) ∨ 0xF0040040000 ≤ a.toNat) →
      exec (.registerWrite a v) s = .next s)

/-- GangSwitches, GrantEvents and DebugPort, together. -/
def Obligations.SwitchesGrantsAndDebug : Prop := GangSwitches ∧ GrantEvents ∧ DebugPort

/-! ## Packets, queues and jobs -/

/-- A packet that completes with a status (R263, R264): READIDX moves past it, LASTSTAT names it, BADPACKET stops the queue. -/
def PacketEnds (p q st : Nat) (s t : State) : Prop :=
  let k := queueOf s p q; let k' := queueOf t p q
  k'.readIdx = (k.readIdx + 1) % 2 ^ 64 ∧ k'.lastStat = st ∧ k'.lastIdx = k.readIdx ∧ k'.active = false ∧ k'.begun = false ∧
  k'.state = (if st = 3 then 5 else 1) ∧ k'.seq = k.seq

/-- R262 to R265, R269, R270, R275: a doorbell's legal value, in indices modulo 2^64, becomes WRITEIDX, another is logged and ignored
(its record is log 66's); one whose ring cannot be read while a link is down is kept, and those after it; a device that waits for a
firmware image takes none. A packet in progress
of each type has its effect, one step at a time, and completes with status OK; a bad one stops its queue, a denied
access completes it with DENIED; a signal word that is not aligned makes a bad packet (log 27); a receipt that a link holds up is
not yet counted. READIDX moves past a LAUNCH when its job starts (log 52). A LAUNCH starts its harts with the
values of R199 and the roots of its queue's context; that bits 1:0 of START are dropped is the model's choice (log 82). -/
def Obligations.Packets : Prop :=
  ∀ (s : State) (part : BitVec 7) (q : BitVec 8), let p := part.toNat; let n := q.toNat; let k := queueOf s p n
    let pkt := k.pkt; let w := pktWord pkt; let me' := packetWho s p n
    let ends (i : Instr) (st : Nat) : Prop := ∃ t, exec i s = .next t ∧ PacketEnds p n st s t
    let going (type : Nat) : Prop := k.active = true ∧ k.state = 1 ∧ pktType pkt = type
    (∀ v : BitVec 64, s.boot.imageOnly = true → exec (.doorbell part q v) s = .next s) ∧
    (∀ v : BitVec 64, s.boot.imageOnly = false → k.state ≠ 0 → (k.bells ≠ [] ∨ ∃ u, ringOf p n s = .wait u) →
      exec (.doorbell part q v) s = .next (modQueue p n (fun x => { x with bells := k.bells ++ [v.toNat] }) s)) ∧
    (∀ v : BitVec 64, s.boot.imageOnly = false → (k.state = 0 ∨ (k.bells = [] ∧ ¬ ∃ u, ringOf p n s = .wait u)) →
      let size := match ringOf p n s with
        | .ok (some r) _ => r.2
        | _ => 0
      let u := if k.state = 0 then s else after (ringOf p n s) s
      let past (x : Nat) : Nat := (x + 2 ^ 64 - k.readIdx) % 2 ^ 64
      let legal := k.state ≠ 0 ∧ past v.toNat ≤ size ∧ past k.writeIdx ≤ past v.toNat
      (legal → ∃ t, exec (.doorbell part q v) s = .next t ∧ (queueOf t p n).writeIdx = v.toNat ∧ t.faultLog = u.faultLog ∧
        (queueOf t p n).readIdx = k.readIdx ∧ t.harts = s.harts ∧ MemSame u t) ∧
      (¬ legal → exec (.doorbell part q v) s = .next { u with faultLog := u.faultLog ++
        [{ part := p, target := 3 * 256, master := 0, addr := 8 * n, kind := 1, reason := 9 }] })) ∧
    (going 1 → ∀ cores, let l := launchOf pkt
      (launchBad pkt = true → ends (.launch part q cores) 3) ∧
      (launchBad pkt = false → l.wordOk = false → ends (.launch part q cores) 1) ∧
      (launchBad pkt = false → l.wordOk = true → placementOk s p l cores = false → exec (.launch part q cores) s = .next s) ∧
      (launchBad pkt = false → l.wordOk = true → placementOk s p l cores = true → (∀ j ∈ liveJobs s p n, j.2.sliceDue = false) →
        ∃ t, exec (.launch part q cores) s = .next t ∧ let j := jobOf t (nextJob s)
          j.live = true ∧ j.cores = cores ∧ j.harts.length = l.harts ∧ (queueOf t p n).readIdx = (k.readIdx + 1) % 2 ^ 64 ∧
          ∀ i h, j.harts[i]? = some h → let x := hartOf t h
            x.pc = BitVec.ofNat 64 (l.start / 4 * 4) ∧ x.ctx = k.ctx ∧ x.troot = (contextOf s p k.ctx).troot ∧
            x.kvroot = (contextOf s p k.ctx).kvroot ∧ cget 0 3 x.r.g = BitVec.ofNat 64 l.argptr ∧ cget 0 4 x.r.g = BitVec.ofNat 64 i ∧
            cget 0 5 x.r.g = BitVec.ofNat 64 l.harts ∧ x.part = part ∧ x.handler = false ∧ x.rc = 1 ∧
            x.vgrant = grantOf s (BitVec.ofNat 8 l.lset) ∧ x.vl = x.vgrant * 64 ∧ x.job = some (nextJob s) ∧
            x.run = if l.isIdle i then .free else .running)) ∧
    (going 2 → let len := Nat.min (2 ^ 20) (w 24 - k.step * 2 ^ 20)
      (mibSteps (w 24) ≤ k.step → ends (.copy part q) 0) ∧
      (k.step < mibSteps (w 24) →
        (∀ f s1, vaReadN me' (wrapTo 64 (w 8 + k.step * mib)) len s = .bad f s1 → ends (.copy part q) 4) ∧
        (∀ bs s1, vaReadN me' (wrapTo 64 (w 8 + k.step * mib)) len s = .ok bs s1 →
          ∀ s2, vaWriteN me' (wrapTo 64 (w 16 + k.step * mib)) bs s1 = .ok () s2 →
          (mibSteps (w 24) ≤ k.step + 1 → ends (.copy part q) 0) ∧
          (k.step + 1 < mibSteps (w 24) → ∃ t, exec (.copy part q) s = .next t ∧ (queueOf t p n).step = k.step + 1 ∧
            (queueOf t p n).active = true ∧ MemSame s2 t)))) ∧
    (going 3 → ((1 < w 24 ∨ w 8 % 8 ≠ 0) → ends (.signal part q) 3) ∧ (w 24 ≤ 1 → w 8 % 8 = 0 →
      (∀ f s1, signalOp p n (w 8) (fun x => if w 24 = 0 then w 16 else x + w 16) s = .bad f s1 → ends (.signal part q) 4) ∧
      (∀ old s1, signalOp p n (w 8) (fun x => if w 24 = 0 then w 16 else x + w 16) s = .ok old s1 → ends (.signal part q) 0))) ∧
    (going 4 → (w 8 % 8 ≠ 0 → ends (.wait part q) 3) ∧ (w 8 % 8 = 0 → ∀ v s1, vaReadNum me' (w 8) 8 s = .ok v s1 →
      (w 16 ≤ v → ends (.wait part q) 0) ∧
      (v < w 16 → ∃ t, exec (.wait part q) s = .next t ∧ (queueOf t p n).state = 4 ∧ (queueOf t p n).active = false ∧
        (queueOf t p n).readIdx = k.readIdx))) ∧
    (k.state = 4 → ∀ v s1, vaReadNum me' (w 8) 8 s = .ok v s1 → (w 16 ≤ v → ends (.waitSatisfied part q) 0) ∧
      (v < w 16 → exec (.waitSatisfied part q) s = .next s1)) ∧
    (k.state ≠ 4 → exec (.waitSatisfied part q) s = .next s) ∧
    (going 5 → (w 48 % 8 ≠ 0 → ends (.writeSignal part q) 3) ∧ (w 48 % 8 = 0 →
      (k.step = 0 → ∀ s1, vaWriteN me' (w 8) ((pkt.drop 16).take 32) s = .ok () s1 → ∃ t, exec (.writeSignal part q) s = .next t ∧
        (queueOf t p n).step = 1 ∧ MemSame s1 t) ∧
      (0 < k.step → ∀ old s1, signalOp p n (w 48) (fun x => x + 1) s = .ok old s1 → ends (.writeSignal part q) 0))) ∧
    (going 6 → ends (.barrier part q) 0) ∧
    (going 7 → (w 24 ≠ 1 → w 24 ≠ 2 → ends (.measure part q) 3) ∧ ((w 24 = 1 ∨ w 24 = 2) → w 16 ≤ 2 ^ 20 → k.step = 0 →
      ∀ bs s1, vaReadN me' (wrapTo 64 (w 8)) (w 16) s = .ok bs s1 → bs.length = w 16 →
        ∃ t, exec (.measure part q) s = .next t ∧ PacketEnds p n 0 s t ∧ (queueOf t p n).mcount = (k.mcount + 1) % 2 ^ 32 ∧
          (queueOf t p n).meas = digestNum (sha256 (digestBytes k.meas ++ toBytes 1 (w 24) ++ sha256 bs)))) ∧
    (going 8 → let u := bump (addMeter p 9 1 (modQueue p n (fun x => { x with seq := (k.seq + 1) % 2 ^ 64 }) s))
      let write := vaWriteN (packetWho u p n) (w 8) (signed' u (receiptHead u p n)) u
      (∀ s1, write = .ok () s1 →
        ∃ t, exec (.receipt part q) s = .next t ∧ (queueOf t p n).seq = (k.seq + 1) % 2 ^ 64 ∧ (queueOf t p n).lastStat = 0 ∧
          (queueOf t p n).readIdx = (k.readIdx + 1) % 2 ^ 64) ∧
      (∀ s1, write = .wait s1 → exec (.receipt part q) s = .next s))

/-- R265 to R268: the chosen queue has the smallest PASS of those whose head can begin; its packet begins and its PASS rises by
its stride, or its parked job goes on. A slice's end charges the job its clusters and pre-empts it when another ready
queue has a smaller PASS. A job whose harts have all halted ends, its buffers hashed: its places open and its queue names it. -/
def Scheduling : Prop :=
  ∀ (s : State) (part : BitVec 7) (q : BitVec 8) (cores : List Nat) (job : Nat),
    let p := part.toNat; let n := q.toNat; let pick := exec (.strideSchedule part cores) s; let j := jobOf s job
    (pickQueue s p cores = none → pick = .next s) ∧
    (∀ k h, pickQueue s p cores = some (k, h) → headOf s p k cores = h ∧
      (∀ x ∈ queuesOf s p, headOf s p x.1 cores ≠ .none → (queueOf s p k).pass ≤ (queueOf s p x.1).pass)) ∧
    (∀ k b, pickQueue s p cores = some (k, .packet b) → k < 256 → let u := after (headPacket p k s) s
      ∃ t, pick = .next t ∧ let x := queueOf t p k
      x.begun = true ∧ x.active = true ∧ x.pkt = b ∧ x.step = 0 ∧ x.pass = (queueOf s p k).pass + strideOf u p k ∧
      x.readIdx = (queueOf s p k).readIdx) ∧
    (∀ k st, pickQueue s p cores = some (k, .fail st) → k < 256 → let u := after (headPacket p k s) s
      ∃ t, pick = .next t ∧ (queueOf t p k).lastStat = st ∧
      (queueOf t p k).readIdx = ((queueOf s p k).readIdx + 1) % 2 ^ 64 ∧ (queueOf t p k).pass = (queueOf s p k).pass + strideOf u p k) ∧
    (∀ k, pickQueue s p cores = some (k, .again) → k < 256 → ∃ t, pick = .next t ∧ let x := queueOf t p k; let y := queueOf s p k
      x.active = true ∧ x.pkt = y.pkt ∧ x.step = y.step ∧ x.hash = y.hash ∧ x.pass = y.pass ∧ x.readIdx = y.readIdx) ∧
    (∀ k i cs, pickQueue s p cores = some (k, .job i cs) → ∃ t, pick = .next t ∧ (jobOf t i).parked = false ∧ (jobOf t i).cores = cs) ∧
    ((j.live = false ∨ j.parked = true) → exec (.timeSliceEnd job) s = .next s ∧ exec (.jobCompletion job) s = .next s) ∧
    (j.live = true → j.parked = false →
      (let smaller := ∃ x ∈ queuesOf s j.part, x.1 ≠ j.queue ∧ isReady s j.part x.1 = true ∧
          x.2.pass < (queueOf s j.part j.queue).pass + strideOf s j.part j.queue * (jobClusters j).length
       let u := j.harts.foldl settleHart (chargeUnits j.part j.queue (jobClusters j).length s)
       j.queue < 256 → ∃ t, exec (.timeSliceEnd job) s = .next t ∧
        (queueOf t j.part j.queue).pass = (queueOf s j.part j.queue).pass + strideOf s j.part j.queue * (jobClusters j).length ∧
        (¬ smaller → jobOf t job = j) ∧
        (smaller → (queueOf s j.part j.queue).active = true → jobOf t job = { j with sliceDue := true }) ∧
        (smaller → (queueOf s j.part j.queue).active = false →
          ((∀ h ∈ j.harts, cannotStop u h = false) → (jobOf t job).parked = true) ∧
          ((∃ h ∈ j.harts, cannotStop u h = true) → (jobOf t job).parked = false ∧ (jobOf t job).sliceDue = true))) ∧
      ((∃ h ∈ j.harts, (hartOf s h).run ≠ .halted ∧ (hartOf s h).run ≠ .free) → exec (.jobCompletion job) s = .next s) ∧
      ((∀ h ∈ j.harts, (hartOf s h).run = .halted ∨ (hartOf s h).run = .free) → j.queue < 256 →
        let u := hashMarks job { hashWho s j.part j.queue with troot := contextRoot s j.part j.ctx } (sortMarks j.marks) s
        ((jobOf u job).marks ≠ [] → exec (.jobCompletion job) s = .next u) ∧
        ((jobOf u job).marks = [] →
          ∃ t, exec (.jobCompletion job) s = .next t ∧ (jobOf t job).live = false ∧ (∀ h ∈ j.harts, (hartOf t h).run = .off) ∧
            (queueOf t j.part j.queue).lastStat = j.status ∧ (queueOf t j.part j.queue).lastIdx = j.index))) ∧
    (((queueOf s p n).active = false ∨ ∀ x ∈ liveJobs s p n, x.2.sliceDue = false) → exec (.packetDeferTimeout part q) s = .next s) ∧
    ((queueOf s p n).active = true → (∃ x ∈ liveJobs s p n, x.2.sliceDue = true) →
      ∃ t, exec (.packetDeferTimeout part q) s = .next t ∧ (queueOf t p n).active = false ∧
        (queueOf t p n).step = (queueOf s p n).step ∧ (queueOf t p n).pkt = (queueOf s p n).pkt ∧ (queueOf t p n).begun = (queueOf s p n).begun)

/-! ## Root firmware -/

/-- R258, R263, R272, R273: a partition that root firmware accepts (what it accepts is log 84's) becomes live with its clusters and
its queues open; a teardown leaves
no job, queue, entry, cluster or descriptor of it, nor one that the scheduling firmware had over its regions, and marks its tier-2
region for zeroing, once its harts' accesses are answered, every end of a launch is shown, and no KV block of it is on the move; a
stopped queue reopens with its chain, its count and its PASS (log 28); a usage period's end appends one record while fewer
than 64 wait, and records that wait when the partition is gone lose nothing (log 20). An event whose premise does not hold
changes nothing (log 74). -/
def PartitionEvents : Prop :=
  (∀ (s : State) (spec : PartSpec), let p := spec.part.toNat
    (createOk spec s = false → exec (.partitionCreate spec) s = .next s) ∧
    (createOk spec s = true → ∃ t, exec (.partitionCreate spec) s = .next t ∧ (partOf t p).live = true ∧ (partOf t p).ready = true ∧
      (partOf t p).contexts = spec.contexts.map (fun c => { troot := c.1, kvroot := c.2 }) ∧ (partOf t p).recbase = spec.recbase ∧
      (partOf t p).kvQuota = spec.kvQuota ∧ (partOf t p).closing = false ∧
      (∀ c ∈ spec.clusters, ownerOf t c.toNat = p) ∧
      (∀ k ∈ spec.queues, (spec.queues.map (fun k => k.q)).Nodup → let x := queueOf t p k.q.toNat
        x.state = 1 ∧ x.qcb = k.qcb ∧ x.ctx = k.ctx ∧ x.tickets = k.tickets.toNat ∧ x.prodsig = k.prodsig ∧ x.meas = 0 ∧ x.seq = 0 ∧ x.pass = 0))) ∧
  (∀ (s : State) (part : BitVec 7) (q : BitVec 8), let p := part.toNat
    let v : State := { s with queues := s.queues.map (fun x =>
      if x.1 / 256 = p then (x.1, { x.2 with state := 5, active := false }) else x) }
    let harts := (partJobs s p).flatMap (fun i => if (jobOf s i).parked then [] else (jobOf s i).harts)
    let u := harts.foldl settleHart v
    let ended := (partJobs s p).foldl (fun s j => finishJob j 5 (stopJob j s)) u
    let waits := ended.signals.any (fun e => e.part == p) = true ∨ kvMoving ended p = true
    ((partOf s p).live = false → exec (.partitionTeardown part) s = .next s ∧
      ((partOf s p).finalDue = false → (partOf s p).ubuf = [] → exec (.usagePeriodEnd part) s = .next s) ∧
      ((partOf s p).finalDue = false → (partOf s p).ubuf ≠ [] → ∃ t, exec (.usagePeriodEnd part) s = .next t ∧
        (partOf t p).useq = (partOf s p).useq ∧ MemSame s t ∧ t.harts = s.harts ∧
        (partOf t p).ringOwn ++ (partOf t p).ubuf = (partOf s p).ringOwn ++ (partOf s p).ubuf)) ∧
    ((partOf s p).live = true → (∃ h ∈ harts, cannotStop u h = true) → ∃ t, exec (.partitionTeardown part) s = .next t ∧
      (partOf t p).live = true ∧ (partOf t p).closing = true ∧ t.harts = u.harts ∧ t.jobs = s.jobs ∧ t.queues = v.queues) ∧
    ((partOf s p).live = true → (∀ h ∈ harts, cannotStop u h = false) → (∀ i ∈ partJobs s p, (jobOf s i).marks = []) → waits →
      ∃ t, exec (.partitionTeardown part) s = .next t ∧ (partOf t p).live = true ∧ (partOf t p).closing = true ∧ partJobs t p = []) ∧
    ((partOf s p).live = true → p ≤ 64 → (∀ h ∈ harts, cannotStop u h = false) → (∀ i ∈ partJobs s p, (jobOf s i).marks = []) →
      ¬ waits → ∃ t, exec (.partitionTeardown part) s = .next t ∧ (partOf t p).live = false ∧
      (∀ n, n < 256 → queueOf t p n = Queue.reset) ∧ (∀ c, ownerOf t c ≠ p) ∧
      (∀ i, (jobOf t i).part = p → (jobOf t i).live = false) ∧
      (∀ k, let e := cget 0 k t.accE
        e.getLsbD 63 = true → (e.extractLsb' 56 7).toNat = p → e.getLsbD 51 = true) ∧
      (∀ k, let d := cget 0 k t.accD
        d.getLsbD 63 = true → (d.extractLsb' 56 7).toNat ≠ p ∧ ((d.extractLsb' 56 7).toNat = 126 →
          ∀ b ∈ [(partOf s p).t1, (partOf s p).t2, (partOf s p).host, (partOf s p).cxl],
            let r := regionSpan d.toNat; rangesMeet b (r.1, r.2 - r.1) = false)) ∧
      (∀ i, i < (partOf s p).t2.2 / 65536 → cget false ((partOf s p).t2.1 / 65536 + i) t.zeroPend = true)) ∧
    ((queueOf s p q.toNat).state = 5 → (partOf s p).closing = false → ∃ t, exec (.queueReopen part q) s = .next t ∧
      let x := queueOf t p q.toNat; let y := queueOf s p q.toNat
      x.state = 1 ∧ x.meas = y.meas ∧ x.seq = y.seq ∧ x.readIdx = y.readIdx ∧ x.pass = y.pass) ∧
    (((queueOf s p q.toNat).state ≠ 5 ∨ (partOf s p).closing = true) → exec (.queueReopen part q) s = .next s) ∧
    (((partOf s p).live = true ∨ (partOf s p).finalDue = true) → (partOf s p).ubuf.length < 64 →
      ∃ t, exec (.usagePeriodEnd part) s = .next t ∧ (partOf t p).finalDue = false ∧
      (partOf t p).useq = (partOf s p).useq + 1 ∧ (partOf t p).usince = s.ticks ∧ MemSame s t ∧ t.harts = s.harts))

/-- R72 to R74, R38, R439: a migration's start opens a generation of the write bitmaps and leaves no translation of the
partition held; a switch closes it and copies the pages marked in it, but for those of leaves with PIN, which it leaves for the
stop phase (R62; log 67); the stop phase, once fewer pages than the threshold
are not settled, every job of the partition is parked and no KV block is on the move, ends the partition here; HDM decoders
take at most eight ranges of the window, with the ways and granularities of R38. -/
def MigrationEvents : Prop :=
  ∀ (s : State) (part : BitVec 7) (dest : BitVec 10) (ds : List HdmSpec), let p := part.toNat; let m := migrOf s p
    (((partOf s p).live = false ∨ (partOf s p).closing = true ∨ m.on = true ∨ dest.toNat = s.pkg) →
      exec (.migrationStart { part := part, dest := dest }) s = .next s) ∧
    ((partOf s p).live = true → (partOf s p).closing = false → m.on = false → dest.toNat ≠ s.pkg →
      ∃ t, exec (.migrationStart { part := part, dest := dest }) s = .next t ∧ t.harts = s.harts ∧ t.parts = s.parts ∧
        (∀ e ∈ t.held, (hartOf s e.hart).part ≠ part) ∧ let y := migrOf t p
        y.on = true ∧ y.dest = dest.toNat ∧ y.begun = !partWaits s p ∧ y.stopping = false ∧ y.pass = 0 ∧ y.cur = [] ∧ y.old = [] ∧
        y.older = [] ∧ y.threshold = 1024) ∧
    ((m.on = false ∨ m.begun = false) → exec (.generationSwitch part) s = .next s ∧ exec (.migrationStopPhase part dest) s = .next s) ∧
    (m.on = true → m.begun = true → ∃ t, exec (.generationSwitch part) s = .next t ∧ t.harts = s.harts ∧
      migrOf t p = { m with older := m.old, old := m.cur, cur := [], pass := m.pass + 1,
                            skipped := ((bitmapPages [m.cur]).filter (isPinned (pinnedPages s p))).foldl
                              (fun c n => cset false n true c) m.skipped } ∧
      (MemInv s → m.dest ≠ s.pkg → (∀ e ∈ m.cur, e.1 < 2 ^ 28) → ∀ e ∈ m.cur, isPinned (pinnedPages s p) e.1 = false →
        ∀ b, b < 65536 →
        memByte t (m.dest * 2 ^ 44 + e.1 * 65536 + b) = memByte t (glob s (e.1 * 65536 + b)))) ∧
    ((dest.toNat ≠ m.dest ∨ m.threshold ≤ (unsettled s p).length) → exec (.migrationStopPhase part dest) s = .next s) ∧
    (m.on = true → m.begun = true → dest.toNat = m.dest → (unsettled s p).length < m.threshold →
      (∀ i ∈ partJobs s p, (jobOf s i).parked = true) →
      (kvMoving s p = true → exec (.migrationStopPhase part dest) s = .next (modMigr p (fun x => { x with stopping := true }) s)) ∧
      (kvMoving s p = false → p ≤ 64 → ∃ t, exec (.migrationStopPhase part dest) s = .next t ∧
        migrOf t p = Migration.none ∧ (partOf t p).live = false ∧
        (∀ c, ownerOf t c ≠ p) ∧ (∀ n, n < 256 → queueOf t p n = Queue.reset) ∧ (∀ i, (jobOf t i).part = p → (jobOf t i).live = false) ∧
        (∀ k, let e := cget 0 k t.accE
          e.getLsbD 63 = true → (e.extractLsb' 56 7).toNat = p → e.getLsbD 51 = true))) ∧
    (let ok := s.boot.imageOnly = false ∧ ds.length ≤ 8 ∧ ∀ d ∈ ds, 0x60000000000 ≤ d.base.toNat ∧
       d.base.toNat + d.bytes ≤ 0x80000000000 ∧ (d.ways = 1 ∨ d.ways = 2 ∨ d.ways = 4 ∨ d.ways = 8) ∧ (d.gran = 256 ∨ d.gran = 4096)
     (ok → exec (.hdmDecoderProgram ds) s = .next { s with hdm := ds.map (fun d =>
       { base := d.base.toNat, bytes := d.bytes, ways := d.ways, gran := d.gran }) }) ∧
     (¬ ok → exec (.hdmDecoderProgram ds) s = .next s))

/-- R274 to R276: a start leaves the reset state but for the boot record (log 64); it is in minimal mode when three starts before it
failed; an image passes when its key's hash is that of the fuses and its signature verifies; the start becomes ready when
every check passes in time, and counts as failed, with the reason of the first check that fails or of the time, until it is
ready; the host clears the count in minimal mode; a good image over the Tammas link ends the wait for one. -/
def BootEvents : Prop :=
  ∀ (s : State) (b : BootIn) (image : SignedImage), let o := s.boot
    let good (i : SignedImage) : Bool := digestNum (sha256 (keyBytes i.keyX i.keyY)) == o.fuse &&
      ecdsaVerify i.keyX i.keyY (digestNum (sha256 i.bytes)) i.r i.s
    let minimal := 3 ≤ o.failCount
    let code : Nat := if good b.root = false then 1 else if b.images.all good = false then 2 else if b.diesOk = false then 3
      else if ¬ minimal ∧ b.ucieOk = false then 4 else if ¬ minimal ∧ b.t1Ok = false then 5 else if ¬ minimal ∧ b.t2Ok = false then 6
      else if (minimal ∧ b.bist.getLsbD 0 = false) ∨ (¬ minimal ∧ b.bist ≠ 15) then 7 else 0
    let ready := code = 0 ∧ b.inTime = true
    (∃ t, exec (.boot b) s = .next t ∧ t.harts = [] ∧ t.mem = [] ∧ t.parts = [] ∧ t.queues = [] ∧ t.accE = [] ∧ t.pwrcap = 0x48 ∧
      t.boot.fuse = o.fuse ∧ t.boot.resetAt = s.ticks ∧
      t.boot.bootId = o.bootId + 1 ∧ t.boot.ready = decide ready ∧ t.boot.minimal = decide minimal ∧
      t.boot.failed = decide (code ≠ 0) ∧ t.boot.failCount = (if minimal then 3 else if ready then 0 else o.failCount + 1) ∧
      t.boot.bist = (if code = 0 ∨ code = 7 then (if minimal then b.bist &&& 1 else b.bist) else 0) ∧
      t.boot.reason = (if code = 0 then o.reason else BitVec.ofNat 24 (o.reason.toNat * 256 + code)) ∧
      t.boot.imageOnly = decide (minimal ∧ code = 1) ∧
      (∀ k, k < 10 → (linkOf t k).trained = decide (k = 0 ∨ ¬ minimal))) ∧
    ((o.ready = true ∨ o.failed = true) → exec .bootReadyTimeout s = .next s) ∧
    (o.ready = false → o.failed = false → exec .bootReadyTimeout s = .next { s with boot := { o with
      reason := BitVec.ofNat 24 (o.reason.toNat * 256 + 8), failed := true } }) ∧
    exec .failedStartClear s =
      .next (if o.minimal && !o.imageOnly then { s with boot := { o with failCount := 0 } } else s) ∧
    exec (.firmwareImageLoad image) s = .next (if o.imageOnly && (linkOf s 0).trained && good image then
      { s with boot := { o with imageOnly := false } } else s)

/-- Scheduling, PartitionEvents, MigrationEvents and BootEvents, together. -/
def Obligations.SchedulingAndRoot : Prop := Scheduling ∧ PartitionEvents ∧ MigrationEvents ∧ BootEvents

/-! ## Steps, words, reset and invariants -/

/-- R49, R63, R297 to R299: a step of a running hart with nothing due performs exec of the instruction that the bytes at its PC
decode to, once its waiting stores are performed, and adds only what follows a parcel: the answers of links that it has taken are
gone, the age of a pending trap, the count of a stall, the end of a single step, breakpoints armed again, and whose turn is
next. An event given from outside goes first; that and the order of turns are the model's choice (log 3). The bytes are those at
the place that the fetch pin names, four for a parcel and eight for a long instruction: memory's, or those that the fetch unit has
held of the line since the last FENCE (log 88). -/
def Obligations.StepRunsDecoded : Prop :=
  (∀ (s : State) (h : Nat) (c : Code) (i : Instr) (v : State), s.inbox = [] → s.regWrites = [] → s.turn = .hart h → h < 2048 →
    let u : State := settleStores { s with cur := h }; let x := me u
    x.run = .running → x.pend = none → x.entry = none → x.dbg.due = none → x.dbg.stepping = 0 → heldByWait x = false → breakAt x.dbg x.pc = none →
    x.pc.toNat % 4 = 0 → fetchCode x.pc.toNat u = .ok c v → decodeCode c = .ok i →
    ((me v).capLeft = 0 ∨ capturesOver c i = true) → gWaits (me v) i = false →
    let v := leaveConvoy c v
    ∀ t, exec i v = .next t → step s = .next (tick (endTurn (afterParcel i v t))) ∧
      ((me t).pend = none → (me t).stallS = none → (me t).dbg.stepping = 0 →
        let taken := dropAnswers t.cur (fun r => r.stream == 0 && r.handler == (me v).handler) t
        afterParcel i v t = t ∨ afterParcel i v t = taken ∨
        afterParcel i v t = modMe (fun y => { y with dbg := { y.dbg with suppress := false } }) taken)) ∧
  (∀ (s : State) (i : Instr) (rest : List Instr), s.inbox = i :: rest →
    ∀ t, exec i { s with inbox := rest } = .next t → step s = .next (tick t)) ∧
  (∀ (s : State) (pc : Nat) (p : Nat × Nat × Nat) (l : Loc), (me s).pin = some p → pinLoc s p pc = some l →
    ((me s).handler = true ∨ 64 ≤ p.2.2) → pc % 4 = 0 → PlainPlace s (myWho s) pc 4 .fetch l →
    let word (l : Loc) : Nat := match cget [] (l.global / 256) (me s).ibuf with
      | [] => ofBytes (memBytes s l.global 4)
      | line => ofBytes ((line.drop (l.global % 256)).take 4)
    let w := word l
    let gives (c : Code) : Prop := ∃ t, fetchCode pc s = .ok c t ∧ t.mem = s.mem ∧ { me t with ibuf := (me s).ibuf } = me s ∧
      OtherHarts s t
    (w % 4 ≠ 2 → gives (.parcel (BitVec.ofNat 32 w))) ∧
    (w % 4 = 2 → ∀ l2, pinLoc s p (pc + 4) = some l2 → pc + 4 < 2 ^ 64 → PlainPlace s (myWho s) (pc + 4) 4 .fetch l2 →
      gives (.long (BitVec.ofNat 64 (w + word l2 * 2 ^ 32)))))

/-- Words written out from the spec's encodings, of every family, decode to the instructions they stand for: the major, the
class, each register and immediate stand where R300, R302 and the descriptions put them. -/
def Obligations.WrittenWords : Prop :=
  let all : MaskSel := ⟨0, false⟩
  decodeParcel 0x0401084C = .ok (.addi 8 8 256) ∧ decodeParcel 0x00948328 = .ok (.div true false 3 4 5) ∧
  decodeParcel 0x1234476C = .ok (.lih 7 0x91A2) ∧ decodeParcel 0x0020E684 = .ok (.fma 0 0 6 7 8) ∧
  decodeParcel 0x0001E098 = .ok (.qput 0 15) ∧ decodeParcel 0x0041090D = .ok (.ldD 9 8 16) ∧
  decodeParcel 0x0035C029 = .ok (.stD 14 13 0) ∧ decodeParcel 0x88A5072D = .ok (.amoAdd ⟨false, true, false, 4⟩ 7 8 9) ∧
  decodeParcel 0xFF80D439 = .ok (.bne 6 0 0x3FF4) ∧ decodeParcel 0x00500065 = .ok (.fence 4 false true) ∧
  decodeParcel 0x01000A6D = .ok (.csrr 10 0x40) ∧ decodeParcel 0x0014007D = .ok (.trap 5) ∧
  decodeParcel 0x00015123 = .ok (.convoyHeader 0x151 1) ∧
  decodeLong 0x0000000800031C02 = .ok (.vsetl 2 7 6) ∧
  decodeLong 0x0000400800208426 = .ok (.vcmp 2 1 1 (.v 2) (.sint 2) 0 all none) ∧
  decodeLong 0x8000001400831C4E = .ok (.vfma ⟨7, 6, .v 8, .bf16, 0, false, all, none⟩) ∧
  decodeLong 0x0000080800C22D42 = .ok (.vred ⟨0, .sint 2, 0, false, 11, 4, 12, all⟩) ∧
  decodeLong 0x000000080054198E = .ok (.vstxOrd ⟨2, 6, 8, 0, 5, all, false⟩) ∧
  decodeLong 0x0000000C1A070196 = .ok (.vwait 0 3 14 13 .single all) ∧
  decodeLong 0x001008103DDE0256 = .ok (.mksum false 0 1 1 0 28 29 30) ∧
  decodeLong 0x000000080014928E = .ok (.kvscore 0 4 9 1 all none) ∧
  decodeLong 0x0000200840308B62 = .ok (.lconv true 0 0 false 2 1 3 1) ∧
  decodeLong 0x00050800016AD302 = .ok (.cpy ⟨false, 0, 5, 20, 21, 22⟩) ∧ decodeLong 0x0C9F0A = .ok (.tfirst 7 25) ∧
  decodeLong 0x002402E2 = .ok (.rpush 8 2 0) ∧ decodeLong 0x00C0000000002B4A = .ok (.revst 10 0 12) ∧
  decodeLong 0x0000004100202382 = .ok (.ldi 2 8 0x41) ∧ decodeLong 0x0000280000941FD2 = .ok (.tlbinvMove 7 8 9)

/-- R297, R300, R302, R307: every well-formed instruction that has an encoding decodes from it to itself, with every operand at
every value, and a word that decodes is the encoding of a well-formed instruction: no field is dropped, and a field
that a description does not use must be zero. -/
def Obligations.EncodingRoundTrips : Prop :=
  (∀ (i : Instr) (w : BitVec 32), i.wellFormed = true → encode i = some (.parcel w) → decodeParcel w = .ok i) ∧
  (∀ (i : Instr) (w : BitVec 64), i.wellFormed = true → encode i = some (.long w) → decodeLong w = .ok i) ∧
  (∀ (i : Instr) (c : Code), decodeCode c = .ok i → i.wellFormed = true ∧ encode i = some c)

/-- The state after reset: MROWS is 4 and LGMAX 8 (R202), DONE is 1 (R36), every tag is ready and TAGERR is zero (R102), every
core's word is zero (R76), no hart runs. That memory reads zero and that a hart's registers are zero are the model's
choices (logs 4, 6). Memory is in its canonical form and every lane grant is legal. -/
def Obligations.ResetState : Prop :=
  let s := State.reset
  mrows s = 4 ∧ lgmax s = 8 ∧ s.actDone = true ∧
  (∀ c, (coreOf s c).pword = 0 ∧ (coreOf s c).tagErr = 0 ∧ ∀ t, tagCountOf (coreOf s c) t = 0) ∧
  (∀ h, (hartOf s h).run = .off ∧ (hartOf s h).handler = false ∧ (hartOf s h).r = Regs.reset) ∧
  (∀ a, memByte s a = 0) ∧ MemInv s ∧ LaneInv s

/-- Every step, of whatever agent or event, keeps memory in its canonical form and every lane grant, in force or saved,
legal: VGRANT at most 8 and RC from 1 to 8 (R198, R201, R202). -/
def Obligations.StepKeepsInvariants : Prop :=
  ∀ s t : State, MemInv s → LaneInv s → step s = .next t → MemInv t ∧ LaneInv t
end

