-- ==== Sys2Proof/Laws/Cells.lean ====
section
/-! SUPPORT. The laws of sparse maps: a lookup after an update, and that every update keeps the canonical form. -/

namespace Sys2Proof.Machine

variable {β : Type}

@[simp] theorem cget_nil (d : β) (k : Nat) : cget d k [] = d := rfl

@[simp] theorem cget_cdel_same (d : β) (k : Nat) (m : Cells β) : cget d k (cdel k m) = d := by
  induction m with
  | nil => rfl
  | cons p r ih =>
    obtain ⟨i, x⟩ := p
    by_cases h : i = k <;> simp [cdel, cget, h, ih]

theorem cget_cdel_other (d : β) {j k : Nat} (h : j ≠ k) (m : Cells β) : cget d j (cdel k m) = cget d j m := by
  induction m with
  | nil => rfl
  | cons p r ih =>
    obtain ⟨i, x⟩ := p
    by_cases hk : i = k
    · subst hk
      simp [cdel, cget, ih, Ne.symm h]
    · simp only [cdel, hk, if_false, cget, ih]

theorem cget_cinsert_same (d : β) (k : Nat) (x : β) (m : Cells β) (h : ∀ p ∈ m, p.1 ≠ k) :
    cget d k (cinsert k x m) = x := by
  induction m with
  | nil => simp [cinsert, cget]
  | cons p r ih =>
    obtain ⟨i, y⟩ := p
    have hi : i ≠ k := h (i, y) (by simp)
    by_cases hk : k < i
    · simp [cinsert, cget, hk]
    · simp only [cinsert, hk, if_false, cget, hi]
      exact ih (fun q hq => h q (by simp [hq]))

theorem cget_cinsert_other (d : β) {j k : Nat} (hj : j ≠ k) (x : β) (m : Cells β) :
    cget d j (cinsert k x m) = cget d j m := by
  induction m with
  | nil => simp [cinsert, cget, Ne.symm hj]
  | cons p r ih =>
    obtain ⟨i, y⟩ := p
    by_cases hk : k < i
    · simp [cinsert, cget, hk, Ne.symm hj]
    · simp [cinsert, cget, hk, ih]

theorem cdel_keys (k : Nat) (m : Cells β) : ∀ p ∈ cdel k m, p.1 ≠ k := by
  induction m with
  | nil => simp [cdel]
  | cons p r ih =>
    obtain ⟨i, x⟩ := p
    by_cases h : i = k
    · simpa [cdel, h] using ih
    · intro q hq
      simp only [cdel, h, if_false, List.mem_cons] at hq
      rcases hq with rfl | hq
      · exact h
      · exact ih q hq

/-- What was written is read. -/
@[simp] theorem cget_cset_same [DecidableEq β] (d : β) (k : Nat) (x : β) (m : Cells β) : cget d k (cset d k x m) = x := by
  by_cases h : x = d
  · simp [cset, h]
  · simp only [cset, h, if_false]
    exact cget_cinsert_same d k x _ (cdel_keys k m)

/-- Every other key reads as before. -/
theorem cget_cset_other [DecidableEq β] (d : β) {j k : Nat} (h : j ≠ k) (x : β) (m : Cells β) :
    cget d j (cset d k x m) = cget d j m := by
  by_cases hx : x = d
  · simp [cset, hx, cget_cdel_other d h]
  · simp [cset, hx, cget_cinsert_other d h, cget_cdel_other d h]

theorem cget_cset [DecidableEq β] (d : β) (j k : Nat) (x : β) (m : Cells β) :
    cget d j (cset d k x m) = if j = k then x else cget d j m := by
  by_cases h : j = k
  · subst h; simp
  · simp [h, cget_cset_other d h]

/-! ## The canonical form -/

/-- Keys above a bound, strictly rising. -/
def Rising (lo : Nat) : Cells β → Prop
  | [] => True
  | (i, _) :: r => lo ≤ i ∧ Rising (i + 1) r

theorem Rising.mono {lo lo' : Nat} (h : lo' ≤ lo) {m : Cells β} (hm : Rising lo m) : Rising lo' m := by
  cases m with
  | nil => trivial
  | cons p r => exact ⟨Nat.le_trans h hm.1, hm.2⟩

theorem cellsSorted_cons (i : Nat) (x : β) (r : Cells β) : cellsSorted ((i, x) :: r) = true ↔ Rising (i + 1) r := by
  induction r generalizing i x with
  | nil => simp [cellsSorted, Rising]
  | cons p r ih =>
    obtain ⟨j, y⟩ := p
    simp only [cellsSorted, Bool.and_eq_true, decide_eq_true_eq, Rising, ih]
    exact Iff.rfl

theorem cellsSorted_iff (m : Cells β) : cellsSorted m = true ↔ Rising 0 m := by
  cases m with
  | nil => simp [cellsSorted, Rising]
  | cons p r =>
    obtain ⟨i, x⟩ := p
    simp [cellsSorted_cons, Rising]

theorem cellsWf_iff [DecidableEq β] (d : Nat → β) (m : Cells β) :
    cellsWf d m = true ↔ Rising 0 m ∧ ∀ p ∈ m, p.2 ≠ d p.1 := by
  simp [cellsWf, cellsSorted_iff, List.all_eq_true]

theorem Rising.cdel {lo : Nat} (k : Nat) {m : Cells β} (h : Rising lo m) : Rising lo (cdel k m) := by
  induction m generalizing lo with
  | nil => trivial
  | cons p r ih =>
    obtain ⟨i, x⟩ := p
    by_cases hi : i = k
    · simpa [Machine.cdel, hi] using (ih h.2).mono (Nat.le_succ_of_le h.1)
    · simpa [Machine.cdel, hi] using ⟨h.1, ih h.2⟩

theorem Rising.cinsert {lo : Nat} (k : Nat) (x : β) {m : Cells β} (hl : lo ≤ k) (hk : ∀ p ∈ m, p.1 ≠ k)
    (h : Rising lo m) : Rising lo (cinsert k x m) := by
  induction m generalizing lo with
  | nil => exact ⟨hl, trivial⟩
  | cons p r ih =>
    obtain ⟨i, y⟩ := p
    by_cases hi : k < i
    · simpa [Machine.cinsert, hi] using ⟨hl, Nat.succ_le_of_lt hi, h.2⟩
    · have hne : i ≠ k := hk (i, y) (by simp)
      have : i + 1 ≤ k := by omega
      simpa [Machine.cinsert, hi] using ⟨h.1, ih this (fun q hq => hk q (by simp [hq])) h.2⟩

theorem mem_cdel {k : Nat} {m : Cells β} {p : Nat × β} (h : p ∈ cdel k m) : p ∈ m := by
  induction m with
  | nil => simp [cdel] at h
  | cons q r ih =>
    obtain ⟨i, x⟩ := q
    by_cases hi : i = k
    · exact List.mem_cons_of_mem _ (ih (by simpa [cdel, hi] using h))
    · simp only [cdel, hi, if_false, List.mem_cons] at h
      rcases h with rfl | h
      · simp
      · exact List.mem_cons_of_mem _ (ih h)

theorem mem_cinsert {k : Nat} {x : β} {m : Cells β} {p : Nat × β} (h : p ∈ cinsert k x m) : p = (k, x) ∨ p ∈ m := by
  induction m with
  | nil => simpa [cinsert] using h
  | cons q r ih =>
    obtain ⟨i, y⟩ := q
    by_cases hi : k < i
    · simpa [cinsert, hi] using h
    · simp only [cinsert, hi, if_false, List.mem_cons] at h
      rcases h with rfl | h
      · simp
      · rcases ih h with h | h
        · exact Or.inl h
        · exact Or.inr (List.mem_cons_of_mem _ h)

/-- An update keeps the canonical form. -/
theorem cset_wf [DecidableEq β] (d : β) (k : Nat) (x : β) {m : Cells β} (h : cellsWf (fun _ => d) m = true) :
    cellsWf (fun _ => d) (cset d k x m) = true := by
  rw [cellsWf_iff] at h ⊢
  by_cases hx : x = d
  · simp only [cset, hx, if_true]
    exact ⟨h.1.cdel k, fun p hp => h.2 p (mem_cdel hp)⟩
  · simp only [cset, hx, if_false]
    refine ⟨Rising.cinsert k x (Nat.zero_le k) (cdel_keys k m) (h.1.cdel k), fun p hp => ?_⟩
    rcases mem_cinsert hp with rfl | hp
    · exact hx
    · exact h.2 p (mem_cdel hp)

/-! ## Ranges -/

theorem Rising.ctake {lo : Nat} (a : Nat) {m : Cells β} (h : Rising lo m) : Rising lo (ctake a m) := by
  induction m generalizing lo with
  | nil => trivial
  | cons p r ih =>
    obtain ⟨i, x⟩ := p
    by_cases hi : i < a
    · simpa [Machine.ctake, hi] using ⟨h.1, ih h.2⟩
    · simp [Machine.ctake, hi, Rising]

theorem Rising.cdrop {lo : Nat} (a : Nat) {m : Cells β} (h : Rising lo m) : Rising (max lo a) (cdrop a m) := by
  induction m generalizing lo with
  | nil => trivial
  | cons p r ih =>
    obtain ⟨i, x⟩ := p
    by_cases hi : i < a
    · simp only [Machine.cdrop, hi, if_true]
      exact (ih h.2).mono (by have := h.1; omega)
    · simp only [Machine.cdrop, hi, if_false, Rising]
      exact ⟨by have := h.1; omega, h.2⟩

theorem mem_ctake {a : Nat} {m : Cells β} {p : Nat × β} (h : p ∈ ctake a m) : p ∈ m ∧ p.1 < a := by
  induction m with
  | nil => simp [ctake] at h
  | cons q r ih =>
    obtain ⟨i, x⟩ := q
    by_cases hi : i < a
    · simp only [ctake, hi, if_true, List.mem_cons] at h
      rcases h with rfl | h
      · exact ⟨by simp, hi⟩
      · exact ⟨List.mem_cons_of_mem _ (ih h).1, (ih h).2⟩
    · simp [ctake, hi] at h

theorem mem_cdrop {a : Nat} {m : Cells β} {p : Nat × β} (h : p ∈ cdrop a m) : p ∈ m := by
  induction m with
  | nil => simp [cdrop] at h
  | cons q r ih =>
    obtain ⟨i, x⟩ := q
    by_cases hi : i < a
    · exact List.mem_cons_of_mem _ (ih (by simpa [cdrop, hi] using h))
    · simpa [cdrop, hi] using h

/-- Entries below a bound in front of entries from it on. -/
theorem Rising.append {lo a : Nat} {m n : Cells β} (hm : Rising lo m) (hlt : ∀ p ∈ m, p.1 < a) (hn : Rising a n)
    (hla : lo ≤ a) : Rising lo (m ++ n) := by
  induction m generalizing lo with
  | nil => exact hn.mono hla
  | cons p r ih =>
    obtain ⟨i, x⟩ := p
    have : i < a := hlt (i, x) (by simp)
    exact ⟨hm.1, ih hm.2 (fun q hq => hlt q (by simp [hq])) (by omega)⟩

theorem centries_rising [DecidableEq β] (d : β) (a : Nat) (xs : List β) : Rising a (centries d a xs) := by
  induction xs generalizing a with
  | nil => trivial
  | cons x r ih =>
    by_cases h : x = d
    · simpa [centries, h] using (ih (a + 1)).mono (Nat.le_succ a)
    · simpa [centries, h] using ⟨Nat.le_refl a, ih (a + 1)⟩

theorem mem_centries [DecidableEq β] {d : β} {a : Nat} {xs : List β} {p : Nat × β} (h : p ∈ centries d a xs) :
    p.2 ≠ d ∧ p.1 < a + xs.length := by
  induction xs generalizing a with
  | nil => simp [centries] at h
  | cons x r ih =>
    by_cases hx : x = d
    · have := ih (by simpa [centries, hx] using h)
      exact ⟨this.1, by simp; omega⟩
    · simp only [centries, hx, if_false, List.mem_cons] at h
      rcases h with rfl | h
      · exact ⟨hx, by simp⟩
      · have := ih h
        exact ⟨this.1, by simp; omega⟩

/-- Taking a range out keeps the canonical form. -/
theorem cut_wf [DecidableEq β] (d : β) (a n : Nat) {m : Cells β} (h : cellsWf (fun _ => d) m = true) :
    cellsWf (fun _ => d) (ctake a m ++ cdrop (a + n) m) = true := by
  rw [cellsWf_iff] at h ⊢
  refine ⟨Rising.append (h.1.ctake a) (fun p hp => (mem_ctake hp).2)
    ((h.1.cdrop (a + n)).mono (by omega)) (Nat.zero_le a), fun p hp => ?_⟩
  rcases List.mem_append.mp hp with hp | hp
  · exact h.2 p (mem_ctake hp).1
  · exact h.2 p (mem_cdrop hp)

/-- Entries of a range put in the place of what a map lists there keep the canonical form. -/
theorem splice_wf [DecidableEq β] (d : β) (a n : Nat) {m e : Cells β} (h : cellsWf (fun _ => d) m = true)
    (he : Rising a e) (hlt : ∀ p ∈ e, p.1 < a + n) (hd : ∀ p ∈ e, p.2 ≠ d) :
    cellsWf (fun _ => d) (ctake a m ++ (e ++ cdrop (a + n) m)) = true := by
  rw [cellsWf_iff] at h ⊢
  refine ⟨Rising.append (h.1.ctake a) (fun p hp => (mem_ctake hp).2)
    (Rising.append he hlt ((h.1.cdrop (a + n)).mono (by omega)) (Nat.le_add_right a n)) (Nat.zero_le a), fun p hp => ?_⟩
  rcases List.mem_append.mp hp with hp | hp
  · exact h.2 p (mem_ctake hp).1
  · rcases List.mem_append.mp hp with hp | hp
    · exact hd p hp
    · exact h.2 p (mem_cdrop hp)

/-- Writing consecutive values keeps the canonical form. -/
theorem csetRange_wf [DecidableEq β] (d : β) (a : Nat) (xs : List β) {m : Cells β} (h : cellsWf (fun _ => d) m = true) :
    cellsWf (fun _ => d) (csetRange d a xs m) = true :=
  splice_wf d a xs.length h (centries_rising d a xs) (fun _ hp => (mem_centries hp).2) (fun _ hp => (mem_centries hp).1)

theorem cget_of_rising (d : β) {lo k : Nat} {m : Cells β} (h : Rising lo m) (hk : k < lo) : cget d k m = d := by
  induction m generalizing lo with
  | nil => rfl
  | cons p r ih =>
    obtain ⟨i, x⟩ := p
    have h1 := h.1
    have : i ≠ k := by omega
    simp only [cget, this, if_false]
    exact ih h.2 (by omega)

theorem cget_ctake (d : β) {a k : Nat} {m : Cells β} (hs : Rising 0 m) (hk : k < a) : cget d k (ctake a m) = cget d k m := by
  suffices ∀ lo, Rising lo m → cget d k (ctake a m) = cget d k m from this 0 hs
  intro lo h
  induction m generalizing lo with
  | nil => rfl
  | cons p r ih =>
    obtain ⟨i, x⟩ := p
    by_cases hi : i < a
    · by_cases hik : i = k
      · subst hik
        simp only [ctake, hi, if_true, cget]
      · simp only [ctake, hi, if_true, cget, hik, if_false]
        exact ih (h.2.mono (Nat.zero_le _)) _ h.2
    · have hne : i ≠ k := by omega
      simp only [ctake, hi, if_false, cget, hne]
      exact (cget_of_rising d h.2 (by omega)).symm

theorem cget_cdrop (d : β) {a k : Nat} (m : Cells β) (hk : a ≤ k) : cget d k (cdrop a m) = cget d k m := by
  induction m with
  | nil => rfl
  | cons p r ih =>
    obtain ⟨i, x⟩ := p
    by_cases hi : i < a
    · have hne : i ≠ k := by omega
      simp [cdrop, hi, cget, hne, ih]
    · simp [cdrop, hi]

theorem cget_append_left (d : β) {k : Nat} (m n : Cells β) (h : cget d k n = d) : cget d k (m ++ n) = cget d k m := by
  induction m with
  | nil => simpa using h
  | cons p r ih =>
    obtain ⟨i, x⟩ := p
    by_cases hi : i = k <;> simp [cget, hi, ih]

theorem cget_append_right (d : β) {k : Nat} (m n : Cells β) (h : ∀ p ∈ m, p.1 ≠ k) : cget d k (m ++ n) = cget d k n := by
  induction m with
  | nil => rfl
  | cons p r ih =>
    obtain ⟨i, x⟩ := p
    have : i ≠ k := h (i, x) (by simp)
    simp only [List.cons_append, cget, this, if_false]
    exact ih (fun q hq => h q (by simp [hq]))

theorem cget_centries [DecidableEq β] (d : β) (a k : Nat) (xs : List β) :
    cget d k (centries d a xs) = if a ≤ k ∧ k < a + xs.length then xs.getD (k - a) d else d := by
  induction xs generalizing a with
  | nil => simp [centries]
  | cons x r ih =>
    by_cases hk : k = a
    · subst hk
      by_cases hx : x = d
      · simp [centries, hx, cget_of_rising d (centries_rising d (k + 1) r) (Nat.lt_succ_self k)]
      · simp [centries, hx, cget]
    · have hstep : cget d k (centries d a (x :: r)) = cget d k (centries d (a + 1) r) := by
        by_cases hx : x = d
        · simp [centries, hx]
        · simp [centries, hx, cget, Ne.symm hk]
      rw [hstep, ih]
      by_cases h1 : a + 1 ≤ k ∧ k < a + 1 + r.length
      · have h2 : a ≤ k ∧ k < a + (x :: r).length := by simp; omega
        rw [if_pos h1, if_pos h2]
        obtain ⟨j, rfl⟩ : ∃ j, k = a + 1 + j := ⟨k - (a + 1), by omega⟩
        have e1 : a + 1 + j - (a + 1) = j := by omega
        have e2 : a + 1 + j - a = j + 1 := by omega
        rw [e1, e2]
        simp
      · have h2 : ¬(a ≤ k ∧ k < a + (x :: r).length) := by simp; omega
        rw [if_neg h1, if_neg h2]

/-- A range that was written reads as the values written, and every other key as before. -/
theorem cget_csetRange [DecidableEq β] (d : β) (a k : Nat) (xs : List β) {m : Cells β} (h : cellsWf (fun _ => d) m = true) :
    cget d k (csetRange d a xs m) = if a ≤ k ∧ k < a + xs.length then xs.getD (k - a) d else cget d k m := by
  have hs := ((cellsWf_iff _ _).mp h).1
  unfold csetRange
  by_cases h1 : k < a
  · have hn : cget d k (centries d a xs ++ cdrop (a + xs.length) m) = d :=
      cget_of_rising d (Rising.append (centries_rising d a xs) (fun p hp => (mem_centries hp).2)
        ((hs.cdrop (a + xs.length)).mono (by omega)) (Nat.le_add_right _ _)) h1
    rw [cget_append_left d _ _ hn, cget_ctake d hs h1, if_neg (by omega)]
  · rw [cget_append_right d _ _ (fun p hp => by have := (mem_ctake hp).2; omega)]
    by_cases h2 : k < a + xs.length
    · have hn : cget d k (cdrop (a + xs.length) m) = d :=
        cget_of_rising d ((hs.cdrop (a + xs.length)).mono (Nat.le_max_right _ _)) h2
      rw [cget_append_left d _ _ hn, cget_centries, if_pos (by omega), if_pos (by omega)]
    · rw [cget_append_right d _ _ (fun p hp => by have := (mem_centries hp).2; omega), cget_cdrop d m (by omega),
        if_neg (by omega)]

/-- A range taken out reads as unlisted, and every other key as before. -/
theorem cget_cut [DecidableEq β] (d : β) (a n k : Nat) {m : Cells β} (h : cellsWf (fun _ => d) m = true) :
    cget d k (ctake a m ++ cdrop (a + n) m) = if a ≤ k ∧ k < a + n then d else cget d k m := by
  have hs := ((cellsWf_iff _ _).mp h).1
  by_cases h1 : k < a
  · have hn : cget d k (cdrop (a + n) m) = d := cget_of_rising d (hs.cdrop (a + n)) (by omega)
    rw [cget_append_left d _ _ hn, cget_ctake d hs h1, if_neg (by omega)]
  · rw [cget_append_right d _ _ (fun p hp => by have := (mem_ctake hp).2; omega)]
    by_cases h2 : k < a + n
    · rw [if_pos (by omega), cget_of_rising d (hs.cdrop (a + n)) (by omega)]
    · rw [if_neg (by omega), cget_cdrop d m (by omega)]

/-- Reading consecutive values is reading each. -/
theorem crun_eq (d : β) (a n : Nat) {m : Cells β} (h : Rising a m) :
    crun d a n m = (List.range n).map (fun i => cget d (a + i) m) := by
  induction n generalizing a m with
  | zero => cases m <;> rfl
  | succ n ih =>
    rw [List.range_succ_eq_map, List.map_cons, List.map_map]
    cases m with
    | nil =>
      simp only [crun, cget, ih (a + 1) (m := []) trivial]
      simp [Function.comp_def]
    | cons p r =>
      obtain ⟨i, x⟩ := p
      have hai := h.1
      by_cases hi : i = a
      · subst hi
        have hr : ∀ k, cget d (i + (k + 1)) ((i, x) :: r) = cget d (i + 1 + k) r := by
          intro k
          have : i ≠ i + (k + 1) := by omega
          simp only [cget, this, if_false]
          congr 1
          omega
        simp only [crun, if_true, ih (i + 1) h.2, Function.comp_def, Nat.succ_eq_add_one, hr]
        simp [cget]
      · have h' : Rising (a + 1) ((i, x) :: r) := ⟨by omega, h.2⟩
        simp only [crun, hi, if_false, ih (a + 1) h']
        have h0 : cget d (a + 0) ((i, x) :: r) = d := cget_of_rising d h' (by omega)
        rw [h0]
        congr 1
        apply List.map_congr_left
        intro k _
        show _ = cget d (a + (k + 1)) _
        congr 1
        omega

theorem cgetRange_eq (d : β) (a n : Nat) [DecidableEq β] {m : Cells β} (h : cellsWf (fun _ => d) m = true) :
    cgetRange d a n m = (List.range n).map (fun i => cget d (a + i) m) := by
  have hs := ((cellsWf_iff _ _).mp h).1
  unfold cgetRange
  rw [crun_eq d a n ((hs.cdrop a).mono (Nat.le_max_right _ _))]
  apply List.map_congr_left
  intro i _
  exact cget_cdrop d m (Nat.le_add_right a i)

/-! ## One key written twice -/

theorem cdel_cdel (k : Nat) (m : Cells β) : cdel k (cdel k m) = cdel k m := by
  induction m with
  | nil => rfl
  | cons p r ih =>
    obtain ⟨i, y⟩ := p
    by_cases h : i = k
    · simp [cdel, h, ih]
    · simp [cdel, h, ih]

theorem cdel_cinsert (k : Nat) (x : β) (m : Cells β) : cdel k (cinsert k x m) = cdel k m := by
  induction m with
  | nil => simp [cinsert, cdel]
  | cons p r ih =>
    obtain ⟨i, y⟩ := p
    by_cases h : k < i
    · simp [cinsert, h, cdel]
    · by_cases h' : i = k
      · subst h'
        simp [cinsert, cdel, ih]
      · simp [cinsert, h, cdel, h', ih]

/-- The later of two writes to one key stands. -/
@[simp] theorem cset_cset [DecidableEq β] (d : β) (k : Nat) (x y : β) (m : Cells β) :
    cset d k y (cset d k x m) = cset d k y m := by
  have h : cdel k (cset d k x m) = cdel k m := by
    unfold cset
    split
    · exact cdel_cdel k m
    · rw [cdel_cinsert, cdel_cdel]
  show (if y = d then cdel k (cset d k x m) else cinsert k y (cdel k (cset d k x m))) = _
  rw [h]
  rfl

end Sys2Proof.Machine
end

