-- ==== Sys2Proof/Laws/State.lean ====
section
/-! SUPPORT. What each update of State leaves in each field: one lemma a field and update, true by rfl; then what a hart, a
core and the other numbered parts read as after an update, and the canonical form of memory. -/

namespace Sys2Proof.Machine

@[simp] theorem setHart_ticks (h : Nat) (x : Hart) (s : State) : (setHart h x s).ticks = s.ticks := rfl
@[simp] theorem setHart_fresh (h : Nat) (x : Hart) (s : State) : (setHart h x s).fresh = s.fresh := rfl
@[simp] theorem setHart_inbox (h : Nat) (x : Hart) (s : State) : (setHart h x s).inbox = s.inbox := rfl
@[simp] theorem setHart_regWrites (h : Nat) (x : Hart) (s : State) : (setHart h x s).regWrites = s.regWrites := rfl
@[simp] theorem setHart_turn (h : Nat) (x : Hart) (s : State) : (setHart h x s).turn = s.turn := rfl
@[simp] theorem setHart_plan (h : Nat) (x : Hart) (s : State) : (setHart h x s).plan = s.plan := rfl
@[simp] theorem setHart_late (h : Nat) (x : Hart) (s : State) : (setHart h x s).late = s.late := rfl
@[simp] theorem setHart_cur (h : Nat) (x : Hart) (s : State) : (setHart h x s).cur = s.cur := rfl
@[simp] theorem setHart_runAhead (h : Nat) (x : Hart) (s : State) : (setHart h x s).runAhead = s.runAhead := rfl
@[simp] theorem setHart_frames (h : Nat) (x : Hart) (s : State) : (setHart h x s).frames = s.frames := rfl
@[simp] theorem setHart_mem (h : Nat) (x : Hart) (s : State) : (setHart h x s).mem = s.mem := rfl
@[simp] theorem setHart_poison (h : Nat) (x : Hart) (s : State) : (setHart h x s).poison = s.poison := rfl
@[simp] theorem setHart_pkg (h : Nat) (x : Hart) (s : State) : (setHart h x s).pkg = s.pkg := rfl
@[simp] theorem setHart_accE (h : Nat) (x : Hart) (s : State) : (setHart h x s).accE = s.accE := rfl
@[simp] theorem setHart_accD (h : Nat) (x : Hart) (s : State) : (setHart h x s).accD = s.accD := rfl
@[simp] theorem setHart_rootCached (h : Nat) (x : Hart) (s : State) : (setHart h x s).rootCached = s.rootCached := rfl
@[simp] theorem setHart_actDone (h : Nat) (x : Hart) (s : State) : (setHart h x s).actDone = s.actDone := rfl
@[simp] theorem setHart_actMaster (h : Nat) (x : Hart) (s : State) : (setHart h x s).actMaster = s.actMaster := rfl
@[simp] theorem setHart_actKinds (h : Nat) (x : Hart) (s : State) : (setHart h x s).actKinds = s.actKinds := rfl
@[simp] theorem setHart_aperture (h : Nat) (x : Hart) (s : State) : (setHart h x s).aperture = s.aperture := rfl
@[simp] theorem setHart_faultLog (h : Nat) (x : Hart) (s : State) : (setHart h x s).faultLog = s.faultLog := rfl
@[simp] theorem setHart_clusterOwner (h : Nat) (x : Hart) (s : State) : (setHart h x s).clusterOwner = s.clusterOwner := rfl
@[simp] theorem setHart_winMap (h : Nat) (x : Hart) (s : State) : (setHart h x s).winMap = s.winMap := rfl
@[simp] theorem setHart_hdm (h : Nat) (x : Hart) (s : State) : (setHart h x s).hdm = s.hdm := rfl
@[simp] theorem setHart_zeroPend (h : Nat) (x : Hart) (s : State) : (setHart h x s).zeroPend = s.zeroPend := rfl
@[simp] theorem setHart_cmpHeld (h : Nat) (x : Hart) (s : State) : (setHart h x s).cmpHeld = s.cmpHeld := rfl
@[simp] theorem setHart_migr (h : Nat) (x : Hart) (s : State) : (setHart h x s).migr = s.migr := rfl
@[simp] theorem setHart_lee (h : Nat) (x : Hart) (s : State) : (setHart h x s).lee = s.lee := rfl
@[simp] theorem setHart_shadows (h : Nat) (x : Hart) (s : State) : (setHart h x s).shadows = s.shadows := rfl
@[simp] theorem setHart_stage2 (h : Nat) (x : Hart) (s : State) : (setHart h x s).stage2 = s.stage2 := rfl
@[simp] theorem setHart_stage2Entries (h : Nat) (x : Hart) (s : State) : (setHart h x s).stage2Entries = s.stage2Entries := rfl
@[simp] theorem setHart_chunks (h : Nat) (x : Hart) (s : State) : (setHart h x s).chunks = s.chunks := rfl
@[simp] theorem setHart_keyUses (h : Nat) (x : Hart) (s : State) : (setHart h x s).keyUses = s.keyUses := rfl
@[simp] theorem setHart_held (h : Nat) (x : Hart) (s : State) : (setHart h x s).held = s.held := rfl
@[simp] theorem setHart_owned (h : Nat) (x : Hart) (s : State) : (setHart h x s).owned = s.owned := rfl
@[simp] theorem setHart_reading (h : Nat) (x : Hart) (s : State) : (setHart h x s).reading = s.reading := rfl
@[simp] theorem setHart_waiting (h : Nat) (x : Hart) (s : State) : (setHart h x s).waiting = s.waiting := rfl
@[simp] theorem setHart_parts (h : Nat) (x : Hart) (s : State) : (setHart h x s).parts = s.parts := rfl
@[simp] theorem setHart_queues (h : Nat) (x : Hart) (s : State) : (setHart h x s).queues = s.queues := rfl
@[simp] theorem setHart_jobs (h : Nat) (x : Hart) (s : State) : (setHart h x s).jobs = s.jobs := rfl
@[simp] theorem setHart_cores (h : Nat) (x : Hart) (s : State) : (setHart h x s).cores = s.cores := rfl
@[simp] theorem setHart_mgroups (h : Nat) (x : Hart) (s : State) : (setHart h x s).mgroups = s.mgroups := rfl
@[simp] theorem setHart_pwrcap (h : Nat) (x : Hart) (s : State) : (setHart h x s).pwrcap = s.pwrcap := rfl
@[simp] theorem setHart_replies (h : Nat) (x : Hart) (s : State) : (setHart h x s).replies = s.replies := rfl
@[simp] theorem setHart_signals (h : Nat) (x : Hart) (s : State) : (setHart h x s).signals = s.signals := rfl
@[simp] theorem setHart_links (h : Nat) (x : Hart) (s : State) : (setHart h x s).links = s.links := rfl
@[simp] theorem setHart_boot (h : Nat) (x : Hart) (s : State) : (setHart h x s).boot = s.boot := rfl
@[simp] theorem setHart_switches (h : Nat) (x : Hart) (s : State) : (setHart h x s).switches = s.switches := rfl
@[simp] theorem setHart_coreRecs (h : Nat) (x : Hart) (s : State) : (setHart h x s).coreRecs = s.coreRecs := rfl

@[simp] theorem modHart_ticks (h : Nat) (f : Hart → Hart) (s : State) : (modHart h f s).ticks = s.ticks := rfl
@[simp] theorem modHart_fresh (h : Nat) (f : Hart → Hart) (s : State) : (modHart h f s).fresh = s.fresh := rfl
@[simp] theorem modHart_inbox (h : Nat) (f : Hart → Hart) (s : State) : (modHart h f s).inbox = s.inbox := rfl
@[simp] theorem modHart_regWrites (h : Nat) (f : Hart → Hart) (s : State) : (modHart h f s).regWrites = s.regWrites := rfl
@[simp] theorem modHart_turn (h : Nat) (f : Hart → Hart) (s : State) : (modHart h f s).turn = s.turn := rfl
@[simp] theorem modHart_plan (h : Nat) (f : Hart → Hart) (s : State) : (modHart h f s).plan = s.plan := rfl
@[simp] theorem modHart_late (h : Nat) (f : Hart → Hart) (s : State) : (modHart h f s).late = s.late := rfl
@[simp] theorem modHart_cur (h : Nat) (f : Hart → Hart) (s : State) : (modHart h f s).cur = s.cur := rfl
@[simp] theorem modHart_runAhead (h : Nat) (f : Hart → Hart) (s : State) : (modHart h f s).runAhead = s.runAhead := rfl
@[simp] theorem modHart_frames (h : Nat) (f : Hart → Hart) (s : State) : (modHart h f s).frames = s.frames := rfl
@[simp] theorem modHart_mem (h : Nat) (f : Hart → Hart) (s : State) : (modHart h f s).mem = s.mem := rfl
@[simp] theorem modHart_poison (h : Nat) (f : Hart → Hart) (s : State) : (modHart h f s).poison = s.poison := rfl
@[simp] theorem modHart_pkg (h : Nat) (f : Hart → Hart) (s : State) : (modHart h f s).pkg = s.pkg := rfl
@[simp] theorem modHart_accE (h : Nat) (f : Hart → Hart) (s : State) : (modHart h f s).accE = s.accE := rfl
@[simp] theorem modHart_accD (h : Nat) (f : Hart → Hart) (s : State) : (modHart h f s).accD = s.accD := rfl
@[simp] theorem modHart_rootCached (h : Nat) (f : Hart → Hart) (s : State) : (modHart h f s).rootCached = s.rootCached := rfl
@[simp] theorem modHart_actDone (h : Nat) (f : Hart → Hart) (s : State) : (modHart h f s).actDone = s.actDone := rfl
@[simp] theorem modHart_actMaster (h : Nat) (f : Hart → Hart) (s : State) : (modHart h f s).actMaster = s.actMaster := rfl
@[simp] theorem modHart_actKinds (h : Nat) (f : Hart → Hart) (s : State) : (modHart h f s).actKinds = s.actKinds := rfl
@[simp] theorem modHart_aperture (h : Nat) (f : Hart → Hart) (s : State) : (modHart h f s).aperture = s.aperture := rfl
@[simp] theorem modHart_faultLog (h : Nat) (f : Hart → Hart) (s : State) : (modHart h f s).faultLog = s.faultLog := rfl
@[simp] theorem modHart_clusterOwner (h : Nat) (f : Hart → Hart) (s : State) : (modHart h f s).clusterOwner = s.clusterOwner := rfl
@[simp] theorem modHart_winMap (h : Nat) (f : Hart → Hart) (s : State) : (modHart h f s).winMap = s.winMap := rfl
@[simp] theorem modHart_hdm (h : Nat) (f : Hart → Hart) (s : State) : (modHart h f s).hdm = s.hdm := rfl
@[simp] theorem modHart_zeroPend (h : Nat) (f : Hart → Hart) (s : State) : (modHart h f s).zeroPend = s.zeroPend := rfl
@[simp] theorem modHart_cmpHeld (h : Nat) (f : Hart → Hart) (s : State) : (modHart h f s).cmpHeld = s.cmpHeld := rfl
@[simp] theorem modHart_migr (h : Nat) (f : Hart → Hart) (s : State) : (modHart h f s).migr = s.migr := rfl
@[simp] theorem modHart_lee (h : Nat) (f : Hart → Hart) (s : State) : (modHart h f s).lee = s.lee := rfl
@[simp] theorem modHart_shadows (h : Nat) (f : Hart → Hart) (s : State) : (modHart h f s).shadows = s.shadows := rfl
@[simp] theorem modHart_stage2 (h : Nat) (f : Hart → Hart) (s : State) : (modHart h f s).stage2 = s.stage2 := rfl
@[simp] theorem modHart_stage2Entries (h : Nat) (f : Hart → Hart) (s : State) : (modHart h f s).stage2Entries = s.stage2Entries := rfl
@[simp] theorem modHart_chunks (h : Nat) (f : Hart → Hart) (s : State) : (modHart h f s).chunks = s.chunks := rfl
@[simp] theorem modHart_keyUses (h : Nat) (f : Hart → Hart) (s : State) : (modHart h f s).keyUses = s.keyUses := rfl
@[simp] theorem modHart_held (h : Nat) (f : Hart → Hart) (s : State) : (modHart h f s).held = s.held := rfl
@[simp] theorem modHart_owned (h : Nat) (f : Hart → Hart) (s : State) : (modHart h f s).owned = s.owned := rfl
@[simp] theorem modHart_reading (h : Nat) (f : Hart → Hart) (s : State) : (modHart h f s).reading = s.reading := rfl
@[simp] theorem modHart_waiting (h : Nat) (f : Hart → Hart) (s : State) : (modHart h f s).waiting = s.waiting := rfl
@[simp] theorem modHart_parts (h : Nat) (f : Hart → Hart) (s : State) : (modHart h f s).parts = s.parts := rfl
@[simp] theorem modHart_queues (h : Nat) (f : Hart → Hart) (s : State) : (modHart h f s).queues = s.queues := rfl
@[simp] theorem modHart_jobs (h : Nat) (f : Hart → Hart) (s : State) : (modHart h f s).jobs = s.jobs := rfl
@[simp] theorem modHart_cores (h : Nat) (f : Hart → Hart) (s : State) : (modHart h f s).cores = s.cores := rfl
@[simp] theorem modHart_mgroups (h : Nat) (f : Hart → Hart) (s : State) : (modHart h f s).mgroups = s.mgroups := rfl
@[simp] theorem modHart_pwrcap (h : Nat) (f : Hart → Hart) (s : State) : (modHart h f s).pwrcap = s.pwrcap := rfl
@[simp] theorem modHart_replies (h : Nat) (f : Hart → Hart) (s : State) : (modHart h f s).replies = s.replies := rfl
@[simp] theorem modHart_signals (h : Nat) (f : Hart → Hart) (s : State) : (modHart h f s).signals = s.signals := rfl
@[simp] theorem modHart_links (h : Nat) (f : Hart → Hart) (s : State) : (modHart h f s).links = s.links := rfl
@[simp] theorem modHart_boot (h : Nat) (f : Hart → Hart) (s : State) : (modHart h f s).boot = s.boot := rfl
@[simp] theorem modHart_switches (h : Nat) (f : Hart → Hart) (s : State) : (modHart h f s).switches = s.switches := rfl
@[simp] theorem modHart_coreRecs (h : Nat) (f : Hart → Hart) (s : State) : (modHart h f s).coreRecs = s.coreRecs := rfl

@[simp] theorem modMe_ticks (f : Hart → Hart) (s : State) : (modMe f s).ticks = s.ticks := rfl
@[simp] theorem modMe_fresh (f : Hart → Hart) (s : State) : (modMe f s).fresh = s.fresh := rfl
@[simp] theorem modMe_inbox (f : Hart → Hart) (s : State) : (modMe f s).inbox = s.inbox := rfl
@[simp] theorem modMe_regWrites (f : Hart → Hart) (s : State) : (modMe f s).regWrites = s.regWrites := rfl
@[simp] theorem modMe_turn (f : Hart → Hart) (s : State) : (modMe f s).turn = s.turn := rfl
@[simp] theorem modMe_plan (f : Hart → Hart) (s : State) : (modMe f s).plan = s.plan := rfl
@[simp] theorem modMe_late (f : Hart → Hart) (s : State) : (modMe f s).late = s.late := rfl
@[simp] theorem modMe_cur (f : Hart → Hart) (s : State) : (modMe f s).cur = s.cur := rfl
@[simp] theorem modMe_runAhead (f : Hart → Hart) (s : State) : (modMe f s).runAhead = s.runAhead := rfl
@[simp] theorem modMe_frames (f : Hart → Hart) (s : State) : (modMe f s).frames = s.frames := rfl
@[simp] theorem modMe_mem (f : Hart → Hart) (s : State) : (modMe f s).mem = s.mem := rfl
@[simp] theorem modMe_poison (f : Hart → Hart) (s : State) : (modMe f s).poison = s.poison := rfl
@[simp] theorem modMe_pkg (f : Hart → Hart) (s : State) : (modMe f s).pkg = s.pkg := rfl
@[simp] theorem modMe_accE (f : Hart → Hart) (s : State) : (modMe f s).accE = s.accE := rfl
@[simp] theorem modMe_accD (f : Hart → Hart) (s : State) : (modMe f s).accD = s.accD := rfl
@[simp] theorem modMe_rootCached (f : Hart → Hart) (s : State) : (modMe f s).rootCached = s.rootCached := rfl
@[simp] theorem modMe_actDone (f : Hart → Hart) (s : State) : (modMe f s).actDone = s.actDone := rfl
@[simp] theorem modMe_actMaster (f : Hart → Hart) (s : State) : (modMe f s).actMaster = s.actMaster := rfl
@[simp] theorem modMe_actKinds (f : Hart → Hart) (s : State) : (modMe f s).actKinds = s.actKinds := rfl
@[simp] theorem modMe_aperture (f : Hart → Hart) (s : State) : (modMe f s).aperture = s.aperture := rfl
@[simp] theorem modMe_faultLog (f : Hart → Hart) (s : State) : (modMe f s).faultLog = s.faultLog := rfl
@[simp] theorem modMe_clusterOwner (f : Hart → Hart) (s : State) : (modMe f s).clusterOwner = s.clusterOwner := rfl
@[simp] theorem modMe_winMap (f : Hart → Hart) (s : State) : (modMe f s).winMap = s.winMap := rfl
@[simp] theorem modMe_hdm (f : Hart → Hart) (s : State) : (modMe f s).hdm = s.hdm := rfl
@[simp] theorem modMe_zeroPend (f : Hart → Hart) (s : State) : (modMe f s).zeroPend = s.zeroPend := rfl
@[simp] theorem modMe_cmpHeld (f : Hart → Hart) (s : State) : (modMe f s).cmpHeld = s.cmpHeld := rfl
@[simp] theorem modMe_migr (f : Hart → Hart) (s : State) : (modMe f s).migr = s.migr := rfl
@[simp] theorem modMe_lee (f : Hart → Hart) (s : State) : (modMe f s).lee = s.lee := rfl
@[simp] theorem modMe_shadows (f : Hart → Hart) (s : State) : (modMe f s).shadows = s.shadows := rfl
@[simp] theorem modMe_stage2 (f : Hart → Hart) (s : State) : (modMe f s).stage2 = s.stage2 := rfl
@[simp] theorem modMe_stage2Entries (f : Hart → Hart) (s : State) : (modMe f s).stage2Entries = s.stage2Entries := rfl
@[simp] theorem modMe_chunks (f : Hart → Hart) (s : State) : (modMe f s).chunks = s.chunks := rfl
@[simp] theorem modMe_keyUses (f : Hart → Hart) (s : State) : (modMe f s).keyUses = s.keyUses := rfl
@[simp] theorem modMe_held (f : Hart → Hart) (s : State) : (modMe f s).held = s.held := rfl
@[simp] theorem modMe_owned (f : Hart → Hart) (s : State) : (modMe f s).owned = s.owned := rfl
@[simp] theorem modMe_reading (f : Hart → Hart) (s : State) : (modMe f s).reading = s.reading := rfl
@[simp] theorem modMe_waiting (f : Hart → Hart) (s : State) : (modMe f s).waiting = s.waiting := rfl
@[simp] theorem modMe_parts (f : Hart → Hart) (s : State) : (modMe f s).parts = s.parts := rfl
@[simp] theorem modMe_queues (f : Hart → Hart) (s : State) : (modMe f s).queues = s.queues := rfl
@[simp] theorem modMe_jobs (f : Hart → Hart) (s : State) : (modMe f s).jobs = s.jobs := rfl
@[simp] theorem modMe_cores (f : Hart → Hart) (s : State) : (modMe f s).cores = s.cores := rfl
@[simp] theorem modMe_mgroups (f : Hart → Hart) (s : State) : (modMe f s).mgroups = s.mgroups := rfl
@[simp] theorem modMe_pwrcap (f : Hart → Hart) (s : State) : (modMe f s).pwrcap = s.pwrcap := rfl
@[simp] theorem modMe_replies (f : Hart → Hart) (s : State) : (modMe f s).replies = s.replies := rfl
@[simp] theorem modMe_signals (f : Hart → Hart) (s : State) : (modMe f s).signals = s.signals := rfl
@[simp] theorem modMe_links (f : Hart → Hart) (s : State) : (modMe f s).links = s.links := rfl
@[simp] theorem modMe_boot (f : Hart → Hart) (s : State) : (modMe f s).boot = s.boot := rfl
@[simp] theorem modMe_switches (f : Hart → Hart) (s : State) : (modMe f s).switches = s.switches := rfl
@[simp] theorem modMe_coreRecs (f : Hart → Hart) (s : State) : (modMe f s).coreRecs = s.coreRecs := rfl

@[simp] theorem setCore_ticks (c : Nat) (x : Core) (s : State) : (setCore c x s).ticks = s.ticks := rfl
@[simp] theorem setCore_fresh (c : Nat) (x : Core) (s : State) : (setCore c x s).fresh = s.fresh := rfl
@[simp] theorem setCore_inbox (c : Nat) (x : Core) (s : State) : (setCore c x s).inbox = s.inbox := rfl
@[simp] theorem setCore_regWrites (c : Nat) (x : Core) (s : State) : (setCore c x s).regWrites = s.regWrites := rfl
@[simp] theorem setCore_turn (c : Nat) (x : Core) (s : State) : (setCore c x s).turn = s.turn := rfl
@[simp] theorem setCore_plan (c : Nat) (x : Core) (s : State) : (setCore c x s).plan = s.plan := rfl
@[simp] theorem setCore_late (c : Nat) (x : Core) (s : State) : (setCore c x s).late = s.late := rfl
@[simp] theorem setCore_cur (c : Nat) (x : Core) (s : State) : (setCore c x s).cur = s.cur := rfl
@[simp] theorem setCore_runAhead (c : Nat) (x : Core) (s : State) : (setCore c x s).runAhead = s.runAhead := rfl
@[simp] theorem setCore_frames (c : Nat) (x : Core) (s : State) : (setCore c x s).frames = s.frames := rfl
@[simp] theorem setCore_mem (c : Nat) (x : Core) (s : State) : (setCore c x s).mem = s.mem := rfl
@[simp] theorem setCore_poison (c : Nat) (x : Core) (s : State) : (setCore c x s).poison = s.poison := rfl
@[simp] theorem setCore_pkg (c : Nat) (x : Core) (s : State) : (setCore c x s).pkg = s.pkg := rfl
@[simp] theorem setCore_accE (c : Nat) (x : Core) (s : State) : (setCore c x s).accE = s.accE := rfl
@[simp] theorem setCore_accD (c : Nat) (x : Core) (s : State) : (setCore c x s).accD = s.accD := rfl
@[simp] theorem setCore_rootCached (c : Nat) (x : Core) (s : State) : (setCore c x s).rootCached = s.rootCached := rfl
@[simp] theorem setCore_actDone (c : Nat) (x : Core) (s : State) : (setCore c x s).actDone = s.actDone := rfl
@[simp] theorem setCore_actMaster (c : Nat) (x : Core) (s : State) : (setCore c x s).actMaster = s.actMaster := rfl
@[simp] theorem setCore_actKinds (c : Nat) (x : Core) (s : State) : (setCore c x s).actKinds = s.actKinds := rfl
@[simp] theorem setCore_aperture (c : Nat) (x : Core) (s : State) : (setCore c x s).aperture = s.aperture := rfl
@[simp] theorem setCore_faultLog (c : Nat) (x : Core) (s : State) : (setCore c x s).faultLog = s.faultLog := rfl
@[simp] theorem setCore_clusterOwner (c : Nat) (x : Core) (s : State) : (setCore c x s).clusterOwner = s.clusterOwner := rfl
@[simp] theorem setCore_winMap (c : Nat) (x : Core) (s : State) : (setCore c x s).winMap = s.winMap := rfl
@[simp] theorem setCore_hdm (c : Nat) (x : Core) (s : State) : (setCore c x s).hdm = s.hdm := rfl
@[simp] theorem setCore_zeroPend (c : Nat) (x : Core) (s : State) : (setCore c x s).zeroPend = s.zeroPend := rfl
@[simp] theorem setCore_cmpHeld (c : Nat) (x : Core) (s : State) : (setCore c x s).cmpHeld = s.cmpHeld := rfl
@[simp] theorem setCore_migr (c : Nat) (x : Core) (s : State) : (setCore c x s).migr = s.migr := rfl
@[simp] theorem setCore_lee (c : Nat) (x : Core) (s : State) : (setCore c x s).lee = s.lee := rfl
@[simp] theorem setCore_shadows (c : Nat) (x : Core) (s : State) : (setCore c x s).shadows = s.shadows := rfl
@[simp] theorem setCore_stage2 (c : Nat) (x : Core) (s : State) : (setCore c x s).stage2 = s.stage2 := rfl
@[simp] theorem setCore_stage2Entries (c : Nat) (x : Core) (s : State) : (setCore c x s).stage2Entries = s.stage2Entries := rfl
@[simp] theorem setCore_chunks (c : Nat) (x : Core) (s : State) : (setCore c x s).chunks = s.chunks := rfl
@[simp] theorem setCore_keyUses (c : Nat) (x : Core) (s : State) : (setCore c x s).keyUses = s.keyUses := rfl
@[simp] theorem setCore_held (c : Nat) (x : Core) (s : State) : (setCore c x s).held = s.held := rfl
@[simp] theorem setCore_owned (c : Nat) (x : Core) (s : State) : (setCore c x s).owned = s.owned := rfl
@[simp] theorem setCore_reading (c : Nat) (x : Core) (s : State) : (setCore c x s).reading = s.reading := rfl
@[simp] theorem setCore_waiting (c : Nat) (x : Core) (s : State) : (setCore c x s).waiting = s.waiting := rfl
@[simp] theorem setCore_parts (c : Nat) (x : Core) (s : State) : (setCore c x s).parts = s.parts := rfl
@[simp] theorem setCore_queues (c : Nat) (x : Core) (s : State) : (setCore c x s).queues = s.queues := rfl
@[simp] theorem setCore_jobs (c : Nat) (x : Core) (s : State) : (setCore c x s).jobs = s.jobs := rfl
@[simp] theorem setCore_harts (c : Nat) (x : Core) (s : State) : (setCore c x s).harts = s.harts := rfl
@[simp] theorem setCore_mgroups (c : Nat) (x : Core) (s : State) : (setCore c x s).mgroups = s.mgroups := rfl
@[simp] theorem setCore_pwrcap (c : Nat) (x : Core) (s : State) : (setCore c x s).pwrcap = s.pwrcap := rfl
@[simp] theorem setCore_replies (c : Nat) (x : Core) (s : State) : (setCore c x s).replies = s.replies := rfl
@[simp] theorem setCore_signals (c : Nat) (x : Core) (s : State) : (setCore c x s).signals = s.signals := rfl
@[simp] theorem setCore_links (c : Nat) (x : Core) (s : State) : (setCore c x s).links = s.links := rfl
@[simp] theorem setCore_boot (c : Nat) (x : Core) (s : State) : (setCore c x s).boot = s.boot := rfl
@[simp] theorem setCore_switches (c : Nat) (x : Core) (s : State) : (setCore c x s).switches = s.switches := rfl
@[simp] theorem setCore_coreRecs (c : Nat) (x : Core) (s : State) : (setCore c x s).coreRecs = s.coreRecs := rfl

@[simp] theorem modCore_ticks (c : Nat) (f : Core → Core) (s : State) : (modCore c f s).ticks = s.ticks := rfl
@[simp] theorem modCore_fresh (c : Nat) (f : Core → Core) (s : State) : (modCore c f s).fresh = s.fresh := rfl
@[simp] theorem modCore_inbox (c : Nat) (f : Core → Core) (s : State) : (modCore c f s).inbox = s.inbox := rfl
@[simp] theorem modCore_regWrites (c : Nat) (f : Core → Core) (s : State) : (modCore c f s).regWrites = s.regWrites := rfl
@[simp] theorem modCore_turn (c : Nat) (f : Core → Core) (s : State) : (modCore c f s).turn = s.turn := rfl
@[simp] theorem modCore_plan (c : Nat) (f : Core → Core) (s : State) : (modCore c f s).plan = s.plan := rfl
@[simp] theorem modCore_late (c : Nat) (f : Core → Core) (s : State) : (modCore c f s).late = s.late := rfl
@[simp] theorem modCore_cur (c : Nat) (f : Core → Core) (s : State) : (modCore c f s).cur = s.cur := rfl
@[simp] theorem modCore_runAhead (c : Nat) (f : Core → Core) (s : State) : (modCore c f s).runAhead = s.runAhead := rfl
@[simp] theorem modCore_frames (c : Nat) (f : Core → Core) (s : State) : (modCore c f s).frames = s.frames := rfl
@[simp] theorem modCore_mem (c : Nat) (f : Core → Core) (s : State) : (modCore c f s).mem = s.mem := rfl
@[simp] theorem modCore_poison (c : Nat) (f : Core → Core) (s : State) : (modCore c f s).poison = s.poison := rfl
@[simp] theorem modCore_pkg (c : Nat) (f : Core → Core) (s : State) : (modCore c f s).pkg = s.pkg := rfl
@[simp] theorem modCore_accE (c : Nat) (f : Core → Core) (s : State) : (modCore c f s).accE = s.accE := rfl
@[simp] theorem modCore_accD (c : Nat) (f : Core → Core) (s : State) : (modCore c f s).accD = s.accD := rfl
@[simp] theorem modCore_rootCached (c : Nat) (f : Core → Core) (s : State) : (modCore c f s).rootCached = s.rootCached := rfl
@[simp] theorem modCore_actDone (c : Nat) (f : Core → Core) (s : State) : (modCore c f s).actDone = s.actDone := rfl
@[simp] theorem modCore_actMaster (c : Nat) (f : Core → Core) (s : State) : (modCore c f s).actMaster = s.actMaster := rfl
@[simp] theorem modCore_actKinds (c : Nat) (f : Core → Core) (s : State) : (modCore c f s).actKinds = s.actKinds := rfl
@[simp] theorem modCore_aperture (c : Nat) (f : Core → Core) (s : State) : (modCore c f s).aperture = s.aperture := rfl
@[simp] theorem modCore_faultLog (c : Nat) (f : Core → Core) (s : State) : (modCore c f s).faultLog = s.faultLog := rfl
@[simp] theorem modCore_clusterOwner (c : Nat) (f : Core → Core) (s : State) : (modCore c f s).clusterOwner = s.clusterOwner := rfl
@[simp] theorem modCore_winMap (c : Nat) (f : Core → Core) (s : State) : (modCore c f s).winMap = s.winMap := rfl
@[simp] theorem modCore_hdm (c : Nat) (f : Core → Core) (s : State) : (modCore c f s).hdm = s.hdm := rfl
@[simp] theorem modCore_zeroPend (c : Nat) (f : Core → Core) (s : State) : (modCore c f s).zeroPend = s.zeroPend := rfl
@[simp] theorem modCore_cmpHeld (c : Nat) (f : Core → Core) (s : State) : (modCore c f s).cmpHeld = s.cmpHeld := rfl
@[simp] theorem modCore_migr (c : Nat) (f : Core → Core) (s : State) : (modCore c f s).migr = s.migr := rfl
@[simp] theorem modCore_lee (c : Nat) (f : Core → Core) (s : State) : (modCore c f s).lee = s.lee := rfl
@[simp] theorem modCore_shadows (c : Nat) (f : Core → Core) (s : State) : (modCore c f s).shadows = s.shadows := rfl
@[simp] theorem modCore_stage2 (c : Nat) (f : Core → Core) (s : State) : (modCore c f s).stage2 = s.stage2 := rfl
@[simp] theorem modCore_stage2Entries (c : Nat) (f : Core → Core) (s : State) : (modCore c f s).stage2Entries = s.stage2Entries := rfl
@[simp] theorem modCore_chunks (c : Nat) (f : Core → Core) (s : State) : (modCore c f s).chunks = s.chunks := rfl
@[simp] theorem modCore_keyUses (c : Nat) (f : Core → Core) (s : State) : (modCore c f s).keyUses = s.keyUses := rfl
@[simp] theorem modCore_held (c : Nat) (f : Core → Core) (s : State) : (modCore c f s).held = s.held := rfl
@[simp] theorem modCore_owned (c : Nat) (f : Core → Core) (s : State) : (modCore c f s).owned = s.owned := rfl
@[simp] theorem modCore_reading (c : Nat) (f : Core → Core) (s : State) : (modCore c f s).reading = s.reading := rfl
@[simp] theorem modCore_waiting (c : Nat) (f : Core → Core) (s : State) : (modCore c f s).waiting = s.waiting := rfl
@[simp] theorem modCore_parts (c : Nat) (f : Core → Core) (s : State) : (modCore c f s).parts = s.parts := rfl
@[simp] theorem modCore_queues (c : Nat) (f : Core → Core) (s : State) : (modCore c f s).queues = s.queues := rfl
@[simp] theorem modCore_jobs (c : Nat) (f : Core → Core) (s : State) : (modCore c f s).jobs = s.jobs := rfl
@[simp] theorem modCore_harts (c : Nat) (f : Core → Core) (s : State) : (modCore c f s).harts = s.harts := rfl
@[simp] theorem modCore_mgroups (c : Nat) (f : Core → Core) (s : State) : (modCore c f s).mgroups = s.mgroups := rfl
@[simp] theorem modCore_pwrcap (c : Nat) (f : Core → Core) (s : State) : (modCore c f s).pwrcap = s.pwrcap := rfl
@[simp] theorem modCore_replies (c : Nat) (f : Core → Core) (s : State) : (modCore c f s).replies = s.replies := rfl
@[simp] theorem modCore_signals (c : Nat) (f : Core → Core) (s : State) : (modCore c f s).signals = s.signals := rfl
@[simp] theorem modCore_links (c : Nat) (f : Core → Core) (s : State) : (modCore c f s).links = s.links := rfl
@[simp] theorem modCore_boot (c : Nat) (f : Core → Core) (s : State) : (modCore c f s).boot = s.boot := rfl
@[simp] theorem modCore_switches (c : Nat) (f : Core → Core) (s : State) : (modCore c f s).switches = s.switches := rfl
@[simp] theorem modCore_coreRecs (c : Nat) (f : Core → Core) (s : State) : (modCore c f s).coreRecs = s.coreRecs := rfl

@[simp] theorem setPart_ticks (p : Nat) (x : Part) (s : State) : (setPart p x s).ticks = s.ticks := rfl
@[simp] theorem setPart_fresh (p : Nat) (x : Part) (s : State) : (setPart p x s).fresh = s.fresh := rfl
@[simp] theorem setPart_inbox (p : Nat) (x : Part) (s : State) : (setPart p x s).inbox = s.inbox := rfl
@[simp] theorem setPart_regWrites (p : Nat) (x : Part) (s : State) : (setPart p x s).regWrites = s.regWrites := rfl
@[simp] theorem setPart_turn (p : Nat) (x : Part) (s : State) : (setPart p x s).turn = s.turn := rfl
@[simp] theorem setPart_plan (p : Nat) (x : Part) (s : State) : (setPart p x s).plan = s.plan := rfl
@[simp] theorem setPart_late (p : Nat) (x : Part) (s : State) : (setPart p x s).late = s.late := rfl
@[simp] theorem setPart_cur (p : Nat) (x : Part) (s : State) : (setPart p x s).cur = s.cur := rfl
@[simp] theorem setPart_runAhead (p : Nat) (x : Part) (s : State) : (setPart p x s).runAhead = s.runAhead := rfl
@[simp] theorem setPart_frames (p : Nat) (x : Part) (s : State) : (setPart p x s).frames = s.frames := rfl
@[simp] theorem setPart_mem (p : Nat) (x : Part) (s : State) : (setPart p x s).mem = s.mem := rfl
@[simp] theorem setPart_poison (p : Nat) (x : Part) (s : State) : (setPart p x s).poison = s.poison := rfl
@[simp] theorem setPart_pkg (p : Nat) (x : Part) (s : State) : (setPart p x s).pkg = s.pkg := rfl
@[simp] theorem setPart_accE (p : Nat) (x : Part) (s : State) : (setPart p x s).accE = s.accE := rfl
@[simp] theorem setPart_accD (p : Nat) (x : Part) (s : State) : (setPart p x s).accD = s.accD := rfl
@[simp] theorem setPart_rootCached (p : Nat) (x : Part) (s : State) : (setPart p x s).rootCached = s.rootCached := rfl
@[simp] theorem setPart_actDone (p : Nat) (x : Part) (s : State) : (setPart p x s).actDone = s.actDone := rfl
@[simp] theorem setPart_actMaster (p : Nat) (x : Part) (s : State) : (setPart p x s).actMaster = s.actMaster := rfl
@[simp] theorem setPart_actKinds (p : Nat) (x : Part) (s : State) : (setPart p x s).actKinds = s.actKinds := rfl
@[simp] theorem setPart_aperture (p : Nat) (x : Part) (s : State) : (setPart p x s).aperture = s.aperture := rfl
@[simp] theorem setPart_faultLog (p : Nat) (x : Part) (s : State) : (setPart p x s).faultLog = s.faultLog := rfl
@[simp] theorem setPart_clusterOwner (p : Nat) (x : Part) (s : State) : (setPart p x s).clusterOwner = s.clusterOwner := rfl
@[simp] theorem setPart_winMap (p : Nat) (x : Part) (s : State) : (setPart p x s).winMap = s.winMap := rfl
@[simp] theorem setPart_hdm (p : Nat) (x : Part) (s : State) : (setPart p x s).hdm = s.hdm := rfl
@[simp] theorem setPart_zeroPend (p : Nat) (x : Part) (s : State) : (setPart p x s).zeroPend = s.zeroPend := rfl
@[simp] theorem setPart_cmpHeld (p : Nat) (x : Part) (s : State) : (setPart p x s).cmpHeld = s.cmpHeld := rfl
@[simp] theorem setPart_migr (p : Nat) (x : Part) (s : State) : (setPart p x s).migr = s.migr := rfl
@[simp] theorem setPart_lee (p : Nat) (x : Part) (s : State) : (setPart p x s).lee = s.lee := rfl
@[simp] theorem setPart_shadows (p : Nat) (x : Part) (s : State) : (setPart p x s).shadows = s.shadows := rfl
@[simp] theorem setPart_stage2 (p : Nat) (x : Part) (s : State) : (setPart p x s).stage2 = s.stage2 := rfl
@[simp] theorem setPart_stage2Entries (p : Nat) (x : Part) (s : State) : (setPart p x s).stage2Entries = s.stage2Entries := rfl
@[simp] theorem setPart_chunks (p : Nat) (x : Part) (s : State) : (setPart p x s).chunks = s.chunks := rfl
@[simp] theorem setPart_keyUses (p : Nat) (x : Part) (s : State) : (setPart p x s).keyUses = s.keyUses := rfl
@[simp] theorem setPart_held (p : Nat) (x : Part) (s : State) : (setPart p x s).held = s.held := rfl
@[simp] theorem setPart_owned (p : Nat) (x : Part) (s : State) : (setPart p x s).owned = s.owned := rfl
@[simp] theorem setPart_reading (p : Nat) (x : Part) (s : State) : (setPart p x s).reading = s.reading := rfl
@[simp] theorem setPart_waiting (p : Nat) (x : Part) (s : State) : (setPart p x s).waiting = s.waiting := rfl
@[simp] theorem setPart_queues (p : Nat) (x : Part) (s : State) : (setPart p x s).queues = s.queues := rfl
@[simp] theorem setPart_jobs (p : Nat) (x : Part) (s : State) : (setPart p x s).jobs = s.jobs := rfl
@[simp] theorem setPart_harts (p : Nat) (x : Part) (s : State) : (setPart p x s).harts = s.harts := rfl
@[simp] theorem setPart_cores (p : Nat) (x : Part) (s : State) : (setPart p x s).cores = s.cores := rfl
@[simp] theorem setPart_mgroups (p : Nat) (x : Part) (s : State) : (setPart p x s).mgroups = s.mgroups := rfl
@[simp] theorem setPart_pwrcap (p : Nat) (x : Part) (s : State) : (setPart p x s).pwrcap = s.pwrcap := rfl
@[simp] theorem setPart_replies (p : Nat) (x : Part) (s : State) : (setPart p x s).replies = s.replies := rfl
@[simp] theorem setPart_signals (p : Nat) (x : Part) (s : State) : (setPart p x s).signals = s.signals := rfl
@[simp] theorem setPart_links (p : Nat) (x : Part) (s : State) : (setPart p x s).links = s.links := rfl
@[simp] theorem setPart_boot (p : Nat) (x : Part) (s : State) : (setPart p x s).boot = s.boot := rfl
@[simp] theorem setPart_switches (p : Nat) (x : Part) (s : State) : (setPart p x s).switches = s.switches := rfl
@[simp] theorem setPart_coreRecs (p : Nat) (x : Part) (s : State) : (setPart p x s).coreRecs = s.coreRecs := rfl

@[simp] theorem modPart_ticks (p : Nat) (f : Part → Part) (s : State) : (modPart p f s).ticks = s.ticks := rfl
@[simp] theorem modPart_fresh (p : Nat) (f : Part → Part) (s : State) : (modPart p f s).fresh = s.fresh := rfl
@[simp] theorem modPart_inbox (p : Nat) (f : Part → Part) (s : State) : (modPart p f s).inbox = s.inbox := rfl
@[simp] theorem modPart_regWrites (p : Nat) (f : Part → Part) (s : State) : (modPart p f s).regWrites = s.regWrites := rfl
@[simp] theorem modPart_turn (p : Nat) (f : Part → Part) (s : State) : (modPart p f s).turn = s.turn := rfl
@[simp] theorem modPart_plan (p : Nat) (f : Part → Part) (s : State) : (modPart p f s).plan = s.plan := rfl
@[simp] theorem modPart_late (p : Nat) (f : Part → Part) (s : State) : (modPart p f s).late = s.late := rfl
@[simp] theorem modPart_cur (p : Nat) (f : Part → Part) (s : State) : (modPart p f s).cur = s.cur := rfl
@[simp] theorem modPart_runAhead (p : Nat) (f : Part → Part) (s : State) : (modPart p f s).runAhead = s.runAhead := rfl
@[simp] theorem modPart_frames (p : Nat) (f : Part → Part) (s : State) : (modPart p f s).frames = s.frames := rfl
@[simp] theorem modPart_mem (p : Nat) (f : Part → Part) (s : State) : (modPart p f s).mem = s.mem := rfl
@[simp] theorem modPart_poison (p : Nat) (f : Part → Part) (s : State) : (modPart p f s).poison = s.poison := rfl
@[simp] theorem modPart_pkg (p : Nat) (f : Part → Part) (s : State) : (modPart p f s).pkg = s.pkg := rfl
@[simp] theorem modPart_accE (p : Nat) (f : Part → Part) (s : State) : (modPart p f s).accE = s.accE := rfl
@[simp] theorem modPart_accD (p : Nat) (f : Part → Part) (s : State) : (modPart p f s).accD = s.accD := rfl
@[simp] theorem modPart_rootCached (p : Nat) (f : Part → Part) (s : State) : (modPart p f s).rootCached = s.rootCached := rfl
@[simp] theorem modPart_actDone (p : Nat) (f : Part → Part) (s : State) : (modPart p f s).actDone = s.actDone := rfl
@[simp] theorem modPart_actMaster (p : Nat) (f : Part → Part) (s : State) : (modPart p f s).actMaster = s.actMaster := rfl
@[simp] theorem modPart_actKinds (p : Nat) (f : Part → Part) (s : State) : (modPart p f s).actKinds = s.actKinds := rfl
@[simp] theorem modPart_aperture (p : Nat) (f : Part → Part) (s : State) : (modPart p f s).aperture = s.aperture := rfl
@[simp] theorem modPart_faultLog (p : Nat) (f : Part → Part) (s : State) : (modPart p f s).faultLog = s.faultLog := rfl
@[simp] theorem modPart_clusterOwner (p : Nat) (f : Part → Part) (s : State) : (modPart p f s).clusterOwner = s.clusterOwner := rfl
@[simp] theorem modPart_winMap (p : Nat) (f : Part → Part) (s : State) : (modPart p f s).winMap = s.winMap := rfl
@[simp] theorem modPart_hdm (p : Nat) (f : Part → Part) (s : State) : (modPart p f s).hdm = s.hdm := rfl
@[simp] theorem modPart_zeroPend (p : Nat) (f : Part → Part) (s : State) : (modPart p f s).zeroPend = s.zeroPend := rfl
@[simp] theorem modPart_cmpHeld (p : Nat) (f : Part → Part) (s : State) : (modPart p f s).cmpHeld = s.cmpHeld := rfl
@[simp] theorem modPart_migr (p : Nat) (f : Part → Part) (s : State) : (modPart p f s).migr = s.migr := rfl
@[simp] theorem modPart_lee (p : Nat) (f : Part → Part) (s : State) : (modPart p f s).lee = s.lee := rfl
@[simp] theorem modPart_shadows (p : Nat) (f : Part → Part) (s : State) : (modPart p f s).shadows = s.shadows := rfl
@[simp] theorem modPart_stage2 (p : Nat) (f : Part → Part) (s : State) : (modPart p f s).stage2 = s.stage2 := rfl
@[simp] theorem modPart_stage2Entries (p : Nat) (f : Part → Part) (s : State) : (modPart p f s).stage2Entries = s.stage2Entries := rfl
@[simp] theorem modPart_chunks (p : Nat) (f : Part → Part) (s : State) : (modPart p f s).chunks = s.chunks := rfl
@[simp] theorem modPart_keyUses (p : Nat) (f : Part → Part) (s : State) : (modPart p f s).keyUses = s.keyUses := rfl
@[simp] theorem modPart_held (p : Nat) (f : Part → Part) (s : State) : (modPart p f s).held = s.held := rfl
@[simp] theorem modPart_owned (p : Nat) (f : Part → Part) (s : State) : (modPart p f s).owned = s.owned := rfl
@[simp] theorem modPart_reading (p : Nat) (f : Part → Part) (s : State) : (modPart p f s).reading = s.reading := rfl
@[simp] theorem modPart_waiting (p : Nat) (f : Part → Part) (s : State) : (modPart p f s).waiting = s.waiting := rfl
@[simp] theorem modPart_queues (p : Nat) (f : Part → Part) (s : State) : (modPart p f s).queues = s.queues := rfl
@[simp] theorem modPart_jobs (p : Nat) (f : Part → Part) (s : State) : (modPart p f s).jobs = s.jobs := rfl
@[simp] theorem modPart_harts (p : Nat) (f : Part → Part) (s : State) : (modPart p f s).harts = s.harts := rfl
@[simp] theorem modPart_cores (p : Nat) (f : Part → Part) (s : State) : (modPart p f s).cores = s.cores := rfl
@[simp] theorem modPart_mgroups (p : Nat) (f : Part → Part) (s : State) : (modPart p f s).mgroups = s.mgroups := rfl
@[simp] theorem modPart_pwrcap (p : Nat) (f : Part → Part) (s : State) : (modPart p f s).pwrcap = s.pwrcap := rfl
@[simp] theorem modPart_replies (p : Nat) (f : Part → Part) (s : State) : (modPart p f s).replies = s.replies := rfl
@[simp] theorem modPart_signals (p : Nat) (f : Part → Part) (s : State) : (modPart p f s).signals = s.signals := rfl
@[simp] theorem modPart_links (p : Nat) (f : Part → Part) (s : State) : (modPart p f s).links = s.links := rfl
@[simp] theorem modPart_boot (p : Nat) (f : Part → Part) (s : State) : (modPart p f s).boot = s.boot := rfl
@[simp] theorem modPart_switches (p : Nat) (f : Part → Part) (s : State) : (modPart p f s).switches = s.switches := rfl
@[simp] theorem modPart_coreRecs (p : Nat) (f : Part → Part) (s : State) : (modPart p f s).coreRecs = s.coreRecs := rfl

@[simp] theorem modJob_ticks (j : Nat) (f : Job → Job) (s : State) : (modJob j f s).ticks = s.ticks := rfl
@[simp] theorem modJob_fresh (j : Nat) (f : Job → Job) (s : State) : (modJob j f s).fresh = s.fresh := rfl
@[simp] theorem modJob_inbox (j : Nat) (f : Job → Job) (s : State) : (modJob j f s).inbox = s.inbox := rfl
@[simp] theorem modJob_regWrites (j : Nat) (f : Job → Job) (s : State) : (modJob j f s).regWrites = s.regWrites := rfl
@[simp] theorem modJob_turn (j : Nat) (f : Job → Job) (s : State) : (modJob j f s).turn = s.turn := rfl
@[simp] theorem modJob_plan (j : Nat) (f : Job → Job) (s : State) : (modJob j f s).plan = s.plan := rfl
@[simp] theorem modJob_late (j : Nat) (f : Job → Job) (s : State) : (modJob j f s).late = s.late := rfl
@[simp] theorem modJob_cur (j : Nat) (f : Job → Job) (s : State) : (modJob j f s).cur = s.cur := rfl
@[simp] theorem modJob_runAhead (j : Nat) (f : Job → Job) (s : State) : (modJob j f s).runAhead = s.runAhead := rfl
@[simp] theorem modJob_frames (j : Nat) (f : Job → Job) (s : State) : (modJob j f s).frames = s.frames := rfl
@[simp] theorem modJob_mem (j : Nat) (f : Job → Job) (s : State) : (modJob j f s).mem = s.mem := rfl
@[simp] theorem modJob_poison (j : Nat) (f : Job → Job) (s : State) : (modJob j f s).poison = s.poison := rfl
@[simp] theorem modJob_pkg (j : Nat) (f : Job → Job) (s : State) : (modJob j f s).pkg = s.pkg := rfl
@[simp] theorem modJob_accE (j : Nat) (f : Job → Job) (s : State) : (modJob j f s).accE = s.accE := rfl
@[simp] theorem modJob_accD (j : Nat) (f : Job → Job) (s : State) : (modJob j f s).accD = s.accD := rfl
@[simp] theorem modJob_rootCached (j : Nat) (f : Job → Job) (s : State) : (modJob j f s).rootCached = s.rootCached := rfl
@[simp] theorem modJob_actDone (j : Nat) (f : Job → Job) (s : State) : (modJob j f s).actDone = s.actDone := rfl
@[simp] theorem modJob_actMaster (j : Nat) (f : Job → Job) (s : State) : (modJob j f s).actMaster = s.actMaster := rfl
@[simp] theorem modJob_actKinds (j : Nat) (f : Job → Job) (s : State) : (modJob j f s).actKinds = s.actKinds := rfl
@[simp] theorem modJob_aperture (j : Nat) (f : Job → Job) (s : State) : (modJob j f s).aperture = s.aperture := rfl
@[simp] theorem modJob_faultLog (j : Nat) (f : Job → Job) (s : State) : (modJob j f s).faultLog = s.faultLog := rfl
@[simp] theorem modJob_clusterOwner (j : Nat) (f : Job → Job) (s : State) : (modJob j f s).clusterOwner = s.clusterOwner := rfl
@[simp] theorem modJob_winMap (j : Nat) (f : Job → Job) (s : State) : (modJob j f s).winMap = s.winMap := rfl
@[simp] theorem modJob_hdm (j : Nat) (f : Job → Job) (s : State) : (modJob j f s).hdm = s.hdm := rfl
@[simp] theorem modJob_zeroPend (j : Nat) (f : Job → Job) (s : State) : (modJob j f s).zeroPend = s.zeroPend := rfl
@[simp] theorem modJob_cmpHeld (j : Nat) (f : Job → Job) (s : State) : (modJob j f s).cmpHeld = s.cmpHeld := rfl
@[simp] theorem modJob_migr (j : Nat) (f : Job → Job) (s : State) : (modJob j f s).migr = s.migr := rfl
@[simp] theorem modJob_lee (j : Nat) (f : Job → Job) (s : State) : (modJob j f s).lee = s.lee := rfl
@[simp] theorem modJob_shadows (j : Nat) (f : Job → Job) (s : State) : (modJob j f s).shadows = s.shadows := rfl
@[simp] theorem modJob_stage2 (j : Nat) (f : Job → Job) (s : State) : (modJob j f s).stage2 = s.stage2 := rfl
@[simp] theorem modJob_stage2Entries (j : Nat) (f : Job → Job) (s : State) : (modJob j f s).stage2Entries = s.stage2Entries := rfl
@[simp] theorem modJob_chunks (j : Nat) (f : Job → Job) (s : State) : (modJob j f s).chunks = s.chunks := rfl
@[simp] theorem modJob_keyUses (j : Nat) (f : Job → Job) (s : State) : (modJob j f s).keyUses = s.keyUses := rfl
@[simp] theorem modJob_held (j : Nat) (f : Job → Job) (s : State) : (modJob j f s).held = s.held := rfl
@[simp] theorem modJob_owned (j : Nat) (f : Job → Job) (s : State) : (modJob j f s).owned = s.owned := rfl
@[simp] theorem modJob_reading (j : Nat) (f : Job → Job) (s : State) : (modJob j f s).reading = s.reading := rfl
@[simp] theorem modJob_waiting (j : Nat) (f : Job → Job) (s : State) : (modJob j f s).waiting = s.waiting := rfl
@[simp] theorem modJob_parts (j : Nat) (f : Job → Job) (s : State) : (modJob j f s).parts = s.parts := rfl
@[simp] theorem modJob_queues (j : Nat) (f : Job → Job) (s : State) : (modJob j f s).queues = s.queues := rfl
@[simp] theorem modJob_harts (j : Nat) (f : Job → Job) (s : State) : (modJob j f s).harts = s.harts := rfl
@[simp] theorem modJob_cores (j : Nat) (f : Job → Job) (s : State) : (modJob j f s).cores = s.cores := rfl
@[simp] theorem modJob_mgroups (j : Nat) (f : Job → Job) (s : State) : (modJob j f s).mgroups = s.mgroups := rfl
@[simp] theorem modJob_pwrcap (j : Nat) (f : Job → Job) (s : State) : (modJob j f s).pwrcap = s.pwrcap := rfl
@[simp] theorem modJob_replies (j : Nat) (f : Job → Job) (s : State) : (modJob j f s).replies = s.replies := rfl
@[simp] theorem modJob_signals (j : Nat) (f : Job → Job) (s : State) : (modJob j f s).signals = s.signals := rfl
@[simp] theorem modJob_links (j : Nat) (f : Job → Job) (s : State) : (modJob j f s).links = s.links := rfl
@[simp] theorem modJob_boot (j : Nat) (f : Job → Job) (s : State) : (modJob j f s).boot = s.boot := rfl
@[simp] theorem modJob_switches (j : Nat) (f : Job → Job) (s : State) : (modJob j f s).switches = s.switches := rfl
@[simp] theorem modJob_coreRecs (j : Nat) (f : Job → Job) (s : State) : (modJob j f s).coreRecs = s.coreRecs := rfl

@[simp] theorem modQueue_ticks (p q : Nat) (f : Queue → Queue) (s : State) : (modQueue p q f s).ticks = s.ticks := rfl
@[simp] theorem modQueue_fresh (p q : Nat) (f : Queue → Queue) (s : State) : (modQueue p q f s).fresh = s.fresh := rfl
@[simp] theorem modQueue_inbox (p q : Nat) (f : Queue → Queue) (s : State) : (modQueue p q f s).inbox = s.inbox := rfl
@[simp] theorem modQueue_regWrites (p q : Nat) (f : Queue → Queue) (s : State) : (modQueue p q f s).regWrites = s.regWrites := rfl
@[simp] theorem modQueue_turn (p q : Nat) (f : Queue → Queue) (s : State) : (modQueue p q f s).turn = s.turn := rfl
@[simp] theorem modQueue_plan (p q : Nat) (f : Queue → Queue) (s : State) : (modQueue p q f s).plan = s.plan := rfl
@[simp] theorem modQueue_late (p q : Nat) (f : Queue → Queue) (s : State) : (modQueue p q f s).late = s.late := rfl
@[simp] theorem modQueue_cur (p q : Nat) (f : Queue → Queue) (s : State) : (modQueue p q f s).cur = s.cur := rfl
@[simp] theorem modQueue_runAhead (p q : Nat) (f : Queue → Queue) (s : State) : (modQueue p q f s).runAhead = s.runAhead := rfl
@[simp] theorem modQueue_frames (p q : Nat) (f : Queue → Queue) (s : State) : (modQueue p q f s).frames = s.frames := rfl
@[simp] theorem modQueue_mem (p q : Nat) (f : Queue → Queue) (s : State) : (modQueue p q f s).mem = s.mem := rfl
@[simp] theorem modQueue_poison (p q : Nat) (f : Queue → Queue) (s : State) : (modQueue p q f s).poison = s.poison := rfl
@[simp] theorem modQueue_pkg (p q : Nat) (f : Queue → Queue) (s : State) : (modQueue p q f s).pkg = s.pkg := rfl
@[simp] theorem modQueue_accE (p q : Nat) (f : Queue → Queue) (s : State) : (modQueue p q f s).accE = s.accE := rfl
@[simp] theorem modQueue_accD (p q : Nat) (f : Queue → Queue) (s : State) : (modQueue p q f s).accD = s.accD := rfl
@[simp] theorem modQueue_rootCached (p q : Nat) (f : Queue → Queue) (s : State) : (modQueue p q f s).rootCached = s.rootCached := rfl
@[simp] theorem modQueue_actDone (p q : Nat) (f : Queue → Queue) (s : State) : (modQueue p q f s).actDone = s.actDone := rfl
@[simp] theorem modQueue_actMaster (p q : Nat) (f : Queue → Queue) (s : State) : (modQueue p q f s).actMaster = s.actMaster := rfl
@[simp] theorem modQueue_actKinds (p q : Nat) (f : Queue → Queue) (s : State) : (modQueue p q f s).actKinds = s.actKinds := rfl
@[simp] theorem modQueue_aperture (p q : Nat) (f : Queue → Queue) (s : State) : (modQueue p q f s).aperture = s.aperture := rfl
@[simp] theorem modQueue_faultLog (p q : Nat) (f : Queue → Queue) (s : State) : (modQueue p q f s).faultLog = s.faultLog := rfl
@[simp] theorem modQueue_clusterOwner (p q : Nat) (f : Queue → Queue) (s : State) : (modQueue p q f s).clusterOwner = s.clusterOwner := rfl
@[simp] theorem modQueue_winMap (p q : Nat) (f : Queue → Queue) (s : State) : (modQueue p q f s).winMap = s.winMap := rfl
@[simp] theorem modQueue_hdm (p q : Nat) (f : Queue → Queue) (s : State) : (modQueue p q f s).hdm = s.hdm := rfl
@[simp] theorem modQueue_zeroPend (p q : Nat) (f : Queue → Queue) (s : State) : (modQueue p q f s).zeroPend = s.zeroPend := rfl
@[simp] theorem modQueue_cmpHeld (p q : Nat) (f : Queue → Queue) (s : State) : (modQueue p q f s).cmpHeld = s.cmpHeld := rfl
@[simp] theorem modQueue_migr (p q : Nat) (f : Queue → Queue) (s : State) : (modQueue p q f s).migr = s.migr := rfl
@[simp] theorem modQueue_lee (p q : Nat) (f : Queue → Queue) (s : State) : (modQueue p q f s).lee = s.lee := rfl
@[simp] theorem modQueue_shadows (p q : Nat) (f : Queue → Queue) (s : State) : (modQueue p q f s).shadows = s.shadows := rfl
@[simp] theorem modQueue_stage2 (p q : Nat) (f : Queue → Queue) (s : State) : (modQueue p q f s).stage2 = s.stage2 := rfl
@[simp] theorem modQueue_stage2Entries (p q : Nat) (f : Queue → Queue) (s : State) : (modQueue p q f s).stage2Entries = s.stage2Entries := rfl
@[simp] theorem modQueue_chunks (p q : Nat) (f : Queue → Queue) (s : State) : (modQueue p q f s).chunks = s.chunks := rfl
@[simp] theorem modQueue_keyUses (p q : Nat) (f : Queue → Queue) (s : State) : (modQueue p q f s).keyUses = s.keyUses := rfl
@[simp] theorem modQueue_held (p q : Nat) (f : Queue → Queue) (s : State) : (modQueue p q f s).held = s.held := rfl
@[simp] theorem modQueue_owned (p q : Nat) (f : Queue → Queue) (s : State) : (modQueue p q f s).owned = s.owned := rfl
@[simp] theorem modQueue_reading (p q : Nat) (f : Queue → Queue) (s : State) : (modQueue p q f s).reading = s.reading := rfl
@[simp] theorem modQueue_waiting (p q : Nat) (f : Queue → Queue) (s : State) : (modQueue p q f s).waiting = s.waiting := rfl
@[simp] theorem modQueue_parts (p q : Nat) (f : Queue → Queue) (s : State) : (modQueue p q f s).parts = s.parts := rfl
@[simp] theorem modQueue_jobs (p q : Nat) (f : Queue → Queue) (s : State) : (modQueue p q f s).jobs = s.jobs := rfl
@[simp] theorem modQueue_harts (p q : Nat) (f : Queue → Queue) (s : State) : (modQueue p q f s).harts = s.harts := rfl
@[simp] theorem modQueue_cores (p q : Nat) (f : Queue → Queue) (s : State) : (modQueue p q f s).cores = s.cores := rfl
@[simp] theorem modQueue_mgroups (p q : Nat) (f : Queue → Queue) (s : State) : (modQueue p q f s).mgroups = s.mgroups := rfl
@[simp] theorem modQueue_pwrcap (p q : Nat) (f : Queue → Queue) (s : State) : (modQueue p q f s).pwrcap = s.pwrcap := rfl
@[simp] theorem modQueue_replies (p q : Nat) (f : Queue → Queue) (s : State) : (modQueue p q f s).replies = s.replies := rfl
@[simp] theorem modQueue_signals (p q : Nat) (f : Queue → Queue) (s : State) : (modQueue p q f s).signals = s.signals := rfl
@[simp] theorem modQueue_links (p q : Nat) (f : Queue → Queue) (s : State) : (modQueue p q f s).links = s.links := rfl
@[simp] theorem modQueue_boot (p q : Nat) (f : Queue → Queue) (s : State) : (modQueue p q f s).boot = s.boot := rfl
@[simp] theorem modQueue_switches (p q : Nat) (f : Queue → Queue) (s : State) : (modQueue p q f s).switches = s.switches := rfl
@[simp] theorem modQueue_coreRecs (p q : Nat) (f : Queue → Queue) (s : State) : (modQueue p q f s).coreRecs = s.coreRecs := rfl

@[simp] theorem modLink_ticks (l : Nat) (f : Link → Link) (s : State) : (modLink l f s).ticks = s.ticks := rfl
@[simp] theorem modLink_fresh (l : Nat) (f : Link → Link) (s : State) : (modLink l f s).fresh = s.fresh := rfl
@[simp] theorem modLink_inbox (l : Nat) (f : Link → Link) (s : State) : (modLink l f s).inbox = s.inbox := rfl
@[simp] theorem modLink_regWrites (l : Nat) (f : Link → Link) (s : State) : (modLink l f s).regWrites = s.regWrites := rfl
@[simp] theorem modLink_turn (l : Nat) (f : Link → Link) (s : State) : (modLink l f s).turn = s.turn := rfl
@[simp] theorem modLink_plan (l : Nat) (f : Link → Link) (s : State) : (modLink l f s).plan = s.plan := rfl
@[simp] theorem modLink_late (l : Nat) (f : Link → Link) (s : State) : (modLink l f s).late = s.late := rfl
@[simp] theorem modLink_cur (l : Nat) (f : Link → Link) (s : State) : (modLink l f s).cur = s.cur := rfl
@[simp] theorem modLink_runAhead (l : Nat) (f : Link → Link) (s : State) : (modLink l f s).runAhead = s.runAhead := rfl
@[simp] theorem modLink_frames (l : Nat) (f : Link → Link) (s : State) : (modLink l f s).frames = s.frames := rfl
@[simp] theorem modLink_mem (l : Nat) (f : Link → Link) (s : State) : (modLink l f s).mem = s.mem := rfl
@[simp] theorem modLink_poison (l : Nat) (f : Link → Link) (s : State) : (modLink l f s).poison = s.poison := rfl
@[simp] theorem modLink_pkg (l : Nat) (f : Link → Link) (s : State) : (modLink l f s).pkg = s.pkg := rfl
@[simp] theorem modLink_accE (l : Nat) (f : Link → Link) (s : State) : (modLink l f s).accE = s.accE := rfl
@[simp] theorem modLink_accD (l : Nat) (f : Link → Link) (s : State) : (modLink l f s).accD = s.accD := rfl
@[simp] theorem modLink_rootCached (l : Nat) (f : Link → Link) (s : State) : (modLink l f s).rootCached = s.rootCached := rfl
@[simp] theorem modLink_actDone (l : Nat) (f : Link → Link) (s : State) : (modLink l f s).actDone = s.actDone := rfl
@[simp] theorem modLink_actMaster (l : Nat) (f : Link → Link) (s : State) : (modLink l f s).actMaster = s.actMaster := rfl
@[simp] theorem modLink_actKinds (l : Nat) (f : Link → Link) (s : State) : (modLink l f s).actKinds = s.actKinds := rfl
@[simp] theorem modLink_aperture (l : Nat) (f : Link → Link) (s : State) : (modLink l f s).aperture = s.aperture := rfl
@[simp] theorem modLink_faultLog (l : Nat) (f : Link → Link) (s : State) : (modLink l f s).faultLog = s.faultLog := rfl
@[simp] theorem modLink_clusterOwner (l : Nat) (f : Link → Link) (s : State) : (modLink l f s).clusterOwner = s.clusterOwner := rfl
@[simp] theorem modLink_winMap (l : Nat) (f : Link → Link) (s : State) : (modLink l f s).winMap = s.winMap := rfl
@[simp] theorem modLink_hdm (l : Nat) (f : Link → Link) (s : State) : (modLink l f s).hdm = s.hdm := rfl
@[simp] theorem modLink_zeroPend (l : Nat) (f : Link → Link) (s : State) : (modLink l f s).zeroPend = s.zeroPend := rfl
@[simp] theorem modLink_cmpHeld (l : Nat) (f : Link → Link) (s : State) : (modLink l f s).cmpHeld = s.cmpHeld := rfl
@[simp] theorem modLink_migr (l : Nat) (f : Link → Link) (s : State) : (modLink l f s).migr = s.migr := rfl
@[simp] theorem modLink_lee (l : Nat) (f : Link → Link) (s : State) : (modLink l f s).lee = s.lee := rfl
@[simp] theorem modLink_shadows (l : Nat) (f : Link → Link) (s : State) : (modLink l f s).shadows = s.shadows := rfl
@[simp] theorem modLink_stage2 (l : Nat) (f : Link → Link) (s : State) : (modLink l f s).stage2 = s.stage2 := rfl
@[simp] theorem modLink_stage2Entries (l : Nat) (f : Link → Link) (s : State) : (modLink l f s).stage2Entries = s.stage2Entries := rfl
@[simp] theorem modLink_chunks (l : Nat) (f : Link → Link) (s : State) : (modLink l f s).chunks = s.chunks := rfl
@[simp] theorem modLink_keyUses (l : Nat) (f : Link → Link) (s : State) : (modLink l f s).keyUses = s.keyUses := rfl
@[simp] theorem modLink_held (l : Nat) (f : Link → Link) (s : State) : (modLink l f s).held = s.held := rfl
@[simp] theorem modLink_owned (l : Nat) (f : Link → Link) (s : State) : (modLink l f s).owned = s.owned := rfl
@[simp] theorem modLink_reading (l : Nat) (f : Link → Link) (s : State) : (modLink l f s).reading = s.reading := rfl
@[simp] theorem modLink_waiting (l : Nat) (f : Link → Link) (s : State) : (modLink l f s).waiting = s.waiting := rfl
@[simp] theorem modLink_parts (l : Nat) (f : Link → Link) (s : State) : (modLink l f s).parts = s.parts := rfl
@[simp] theorem modLink_queues (l : Nat) (f : Link → Link) (s : State) : (modLink l f s).queues = s.queues := rfl
@[simp] theorem modLink_jobs (l : Nat) (f : Link → Link) (s : State) : (modLink l f s).jobs = s.jobs := rfl
@[simp] theorem modLink_harts (l : Nat) (f : Link → Link) (s : State) : (modLink l f s).harts = s.harts := rfl
@[simp] theorem modLink_cores (l : Nat) (f : Link → Link) (s : State) : (modLink l f s).cores = s.cores := rfl
@[simp] theorem modLink_mgroups (l : Nat) (f : Link → Link) (s : State) : (modLink l f s).mgroups = s.mgroups := rfl
@[simp] theorem modLink_pwrcap (l : Nat) (f : Link → Link) (s : State) : (modLink l f s).pwrcap = s.pwrcap := rfl
@[simp] theorem modLink_replies (l : Nat) (f : Link → Link) (s : State) : (modLink l f s).replies = s.replies := rfl
@[simp] theorem modLink_signals (l : Nat) (f : Link → Link) (s : State) : (modLink l f s).signals = s.signals := rfl
@[simp] theorem modLink_boot (l : Nat) (f : Link → Link) (s : State) : (modLink l f s).boot = s.boot := rfl
@[simp] theorem modLink_switches (l : Nat) (f : Link → Link) (s : State) : (modLink l f s).switches = s.switches := rfl
@[simp] theorem modLink_coreRecs (l : Nat) (f : Link → Link) (s : State) : (modLink l f s).coreRecs = s.coreRecs := rfl

@[simp] theorem setMem_ticks (a : Nat) (bs : List Byte) (s : State) : (setMem a bs s).ticks = s.ticks := rfl
@[simp] theorem setMem_fresh (a : Nat) (bs : List Byte) (s : State) : (setMem a bs s).fresh = s.fresh := rfl
@[simp] theorem setMem_inbox (a : Nat) (bs : List Byte) (s : State) : (setMem a bs s).inbox = s.inbox := rfl
@[simp] theorem setMem_regWrites (a : Nat) (bs : List Byte) (s : State) : (setMem a bs s).regWrites = s.regWrites := rfl
@[simp] theorem setMem_turn (a : Nat) (bs : List Byte) (s : State) : (setMem a bs s).turn = s.turn := rfl
@[simp] theorem setMem_plan (a : Nat) (bs : List Byte) (s : State) : (setMem a bs s).plan = s.plan := rfl
@[simp] theorem setMem_late (a : Nat) (bs : List Byte) (s : State) : (setMem a bs s).late = s.late := rfl
@[simp] theorem setMem_cur (a : Nat) (bs : List Byte) (s : State) : (setMem a bs s).cur = s.cur := rfl
@[simp] theorem setMem_runAhead (a : Nat) (bs : List Byte) (s : State) : (setMem a bs s).runAhead = s.runAhead := rfl
@[simp] theorem setMem_frames (a : Nat) (bs : List Byte) (s : State) : (setMem a bs s).frames = s.frames := rfl
@[simp] theorem setMem_pkg (a : Nat) (bs : List Byte) (s : State) : (setMem a bs s).pkg = s.pkg := rfl
@[simp] theorem setMem_accE (a : Nat) (bs : List Byte) (s : State) : (setMem a bs s).accE = s.accE := rfl
@[simp] theorem setMem_accD (a : Nat) (bs : List Byte) (s : State) : (setMem a bs s).accD = s.accD := rfl
@[simp] theorem setMem_rootCached (a : Nat) (bs : List Byte) (s : State) : (setMem a bs s).rootCached = s.rootCached := rfl
@[simp] theorem setMem_actDone (a : Nat) (bs : List Byte) (s : State) : (setMem a bs s).actDone = s.actDone := rfl
@[simp] theorem setMem_actMaster (a : Nat) (bs : List Byte) (s : State) : (setMem a bs s).actMaster = s.actMaster := rfl
@[simp] theorem setMem_actKinds (a : Nat) (bs : List Byte) (s : State) : (setMem a bs s).actKinds = s.actKinds := rfl
@[simp] theorem setMem_aperture (a : Nat) (bs : List Byte) (s : State) : (setMem a bs s).aperture = s.aperture := rfl
@[simp] theorem setMem_faultLog (a : Nat) (bs : List Byte) (s : State) : (setMem a bs s).faultLog = s.faultLog := rfl
@[simp] theorem setMem_clusterOwner (a : Nat) (bs : List Byte) (s : State) : (setMem a bs s).clusterOwner = s.clusterOwner := rfl
@[simp] theorem setMem_winMap (a : Nat) (bs : List Byte) (s : State) : (setMem a bs s).winMap = s.winMap := rfl
@[simp] theorem setMem_hdm (a : Nat) (bs : List Byte) (s : State) : (setMem a bs s).hdm = s.hdm := rfl
@[simp] theorem setMem_zeroPend (a : Nat) (bs : List Byte) (s : State) : (setMem a bs s).zeroPend = s.zeroPend := rfl
@[simp] theorem setMem_cmpHeld (a : Nat) (bs : List Byte) (s : State) : (setMem a bs s).cmpHeld = s.cmpHeld := rfl
@[simp] theorem setMem_migr (a : Nat) (bs : List Byte) (s : State) : (setMem a bs s).migr = s.migr := rfl
@[simp] theorem setMem_lee (a : Nat) (bs : List Byte) (s : State) : (setMem a bs s).lee = s.lee := rfl
@[simp] theorem setMem_shadows (a : Nat) (bs : List Byte) (s : State) : (setMem a bs s).shadows = s.shadows := rfl
@[simp] theorem setMem_stage2 (a : Nat) (bs : List Byte) (s : State) : (setMem a bs s).stage2 = s.stage2 := rfl
@[simp] theorem setMem_stage2Entries (a : Nat) (bs : List Byte) (s : State) : (setMem a bs s).stage2Entries = s.stage2Entries := rfl
@[simp] theorem setMem_chunks (a : Nat) (bs : List Byte) (s : State) : (setMem a bs s).chunks = s.chunks := rfl
@[simp] theorem setMem_keyUses (a : Nat) (bs : List Byte) (s : State) : (setMem a bs s).keyUses = s.keyUses := rfl
@[simp] theorem setMem_held (a : Nat) (bs : List Byte) (s : State) : (setMem a bs s).held = s.held := rfl
@[simp] theorem setMem_owned (a : Nat) (bs : List Byte) (s : State) : (setMem a bs s).owned = s.owned := rfl
@[simp] theorem setMem_reading (a : Nat) (bs : List Byte) (s : State) : (setMem a bs s).reading = s.reading := rfl
@[simp] theorem setMem_waiting (a : Nat) (bs : List Byte) (s : State) : (setMem a bs s).waiting = s.waiting := rfl
@[simp] theorem setMem_parts (a : Nat) (bs : List Byte) (s : State) : (setMem a bs s).parts = s.parts := rfl
@[simp] theorem setMem_queues (a : Nat) (bs : List Byte) (s : State) : (setMem a bs s).queues = s.queues := rfl
@[simp] theorem setMem_jobs (a : Nat) (bs : List Byte) (s : State) : (setMem a bs s).jobs = s.jobs := rfl
@[simp] theorem setMem_harts (a : Nat) (bs : List Byte) (s : State) : (setMem a bs s).harts = s.harts := rfl
@[simp] theorem setMem_cores (a : Nat) (bs : List Byte) (s : State) : (setMem a bs s).cores = s.cores := rfl
@[simp] theorem setMem_mgroups (a : Nat) (bs : List Byte) (s : State) : (setMem a bs s).mgroups = s.mgroups := rfl
@[simp] theorem setMem_pwrcap (a : Nat) (bs : List Byte) (s : State) : (setMem a bs s).pwrcap = s.pwrcap := rfl
@[simp] theorem setMem_replies (a : Nat) (bs : List Byte) (s : State) : (setMem a bs s).replies = s.replies := rfl
@[simp] theorem setMem_signals (a : Nat) (bs : List Byte) (s : State) : (setMem a bs s).signals = s.signals := rfl
@[simp] theorem setMem_links (a : Nat) (bs : List Byte) (s : State) : (setMem a bs s).links = s.links := rfl
@[simp] theorem setMem_boot (a : Nat) (bs : List Byte) (s : State) : (setMem a bs s).boot = s.boot := rfl
@[simp] theorem setMem_switches (a : Nat) (bs : List Byte) (s : State) : (setMem a bs s).switches = s.switches := rfl
@[simp] theorem setMem_coreRecs (a : Nat) (bs : List Byte) (s : State) : (setMem a bs s).coreRecs = s.coreRecs := rfl

@[simp] theorem zeroMem_ticks (a n : Nat) (s : State) : (zeroMem a n s).ticks = s.ticks := rfl
@[simp] theorem zeroMem_fresh (a n : Nat) (s : State) : (zeroMem a n s).fresh = s.fresh := rfl
@[simp] theorem zeroMem_inbox (a n : Nat) (s : State) : (zeroMem a n s).inbox = s.inbox := rfl
@[simp] theorem zeroMem_regWrites (a n : Nat) (s : State) : (zeroMem a n s).regWrites = s.regWrites := rfl
@[simp] theorem zeroMem_turn (a n : Nat) (s : State) : (zeroMem a n s).turn = s.turn := rfl
@[simp] theorem zeroMem_plan (a n : Nat) (s : State) : (zeroMem a n s).plan = s.plan := rfl
@[simp] theorem zeroMem_late (a n : Nat) (s : State) : (zeroMem a n s).late = s.late := rfl
@[simp] theorem zeroMem_cur (a n : Nat) (s : State) : (zeroMem a n s).cur = s.cur := rfl
@[simp] theorem zeroMem_runAhead (a n : Nat) (s : State) : (zeroMem a n s).runAhead = s.runAhead := rfl
@[simp] theorem zeroMem_frames (a n : Nat) (s : State) : (zeroMem a n s).frames = s.frames := rfl
@[simp] theorem zeroMem_pkg (a n : Nat) (s : State) : (zeroMem a n s).pkg = s.pkg := rfl
@[simp] theorem zeroMem_accE (a n : Nat) (s : State) : (zeroMem a n s).accE = s.accE := rfl
@[simp] theorem zeroMem_accD (a n : Nat) (s : State) : (zeroMem a n s).accD = s.accD := rfl
@[simp] theorem zeroMem_rootCached (a n : Nat) (s : State) : (zeroMem a n s).rootCached = s.rootCached := rfl
@[simp] theorem zeroMem_actDone (a n : Nat) (s : State) : (zeroMem a n s).actDone = s.actDone := rfl
@[simp] theorem zeroMem_actMaster (a n : Nat) (s : State) : (zeroMem a n s).actMaster = s.actMaster := rfl
@[simp] theorem zeroMem_actKinds (a n : Nat) (s : State) : (zeroMem a n s).actKinds = s.actKinds := rfl
@[simp] theorem zeroMem_aperture (a n : Nat) (s : State) : (zeroMem a n s).aperture = s.aperture := rfl
@[simp] theorem zeroMem_faultLog (a n : Nat) (s : State) : (zeroMem a n s).faultLog = s.faultLog := rfl
@[simp] theorem zeroMem_clusterOwner (a n : Nat) (s : State) : (zeroMem a n s).clusterOwner = s.clusterOwner := rfl
@[simp] theorem zeroMem_winMap (a n : Nat) (s : State) : (zeroMem a n s).winMap = s.winMap := rfl
@[simp] theorem zeroMem_hdm (a n : Nat) (s : State) : (zeroMem a n s).hdm = s.hdm := rfl
@[simp] theorem zeroMem_zeroPend (a n : Nat) (s : State) : (zeroMem a n s).zeroPend = s.zeroPend := rfl
@[simp] theorem zeroMem_cmpHeld (a n : Nat) (s : State) : (zeroMem a n s).cmpHeld = s.cmpHeld := rfl
@[simp] theorem zeroMem_migr (a n : Nat) (s : State) : (zeroMem a n s).migr = s.migr := rfl
@[simp] theorem zeroMem_lee (a n : Nat) (s : State) : (zeroMem a n s).lee = s.lee := rfl
@[simp] theorem zeroMem_shadows (a n : Nat) (s : State) : (zeroMem a n s).shadows = s.shadows := rfl
@[simp] theorem zeroMem_stage2 (a n : Nat) (s : State) : (zeroMem a n s).stage2 = s.stage2 := rfl
@[simp] theorem zeroMem_stage2Entries (a n : Nat) (s : State) : (zeroMem a n s).stage2Entries = s.stage2Entries := rfl
@[simp] theorem zeroMem_chunks (a n : Nat) (s : State) : (zeroMem a n s).chunks = s.chunks := rfl
@[simp] theorem zeroMem_keyUses (a n : Nat) (s : State) : (zeroMem a n s).keyUses = s.keyUses := rfl
@[simp] theorem zeroMem_held (a n : Nat) (s : State) : (zeroMem a n s).held = s.held := rfl
@[simp] theorem zeroMem_owned (a n : Nat) (s : State) : (zeroMem a n s).owned = s.owned := rfl
@[simp] theorem zeroMem_reading (a n : Nat) (s : State) : (zeroMem a n s).reading = s.reading := rfl
@[simp] theorem zeroMem_waiting (a n : Nat) (s : State) : (zeroMem a n s).waiting = s.waiting := rfl
@[simp] theorem zeroMem_parts (a n : Nat) (s : State) : (zeroMem a n s).parts = s.parts := rfl
@[simp] theorem zeroMem_queues (a n : Nat) (s : State) : (zeroMem a n s).queues = s.queues := rfl
@[simp] theorem zeroMem_jobs (a n : Nat) (s : State) : (zeroMem a n s).jobs = s.jobs := rfl
@[simp] theorem zeroMem_harts (a n : Nat) (s : State) : (zeroMem a n s).harts = s.harts := rfl
@[simp] theorem zeroMem_cores (a n : Nat) (s : State) : (zeroMem a n s).cores = s.cores := rfl
@[simp] theorem zeroMem_mgroups (a n : Nat) (s : State) : (zeroMem a n s).mgroups = s.mgroups := rfl
@[simp] theorem zeroMem_pwrcap (a n : Nat) (s : State) : (zeroMem a n s).pwrcap = s.pwrcap := rfl
@[simp] theorem zeroMem_replies (a n : Nat) (s : State) : (zeroMem a n s).replies = s.replies := rfl
@[simp] theorem zeroMem_signals (a n : Nat) (s : State) : (zeroMem a n s).signals = s.signals := rfl
@[simp] theorem zeroMem_links (a n : Nat) (s : State) : (zeroMem a n s).links = s.links := rfl
@[simp] theorem zeroMem_boot (a n : Nat) (s : State) : (zeroMem a n s).boot = s.boot := rfl
@[simp] theorem zeroMem_switches (a n : Nat) (s : State) : (zeroMem a n s).switches = s.switches := rfl
@[simp] theorem zeroMem_coreRecs (a n : Nat) (s : State) : (zeroMem a n s).coreRecs = s.coreRecs := rfl

@[simp] theorem bump_ticks (s : State) : (bump s).ticks = s.ticks := rfl
@[simp] theorem bump_inbox (s : State) : (bump s).inbox = s.inbox := rfl
@[simp] theorem bump_regWrites (s : State) : (bump s).regWrites = s.regWrites := rfl
@[simp] theorem bump_turn (s : State) : (bump s).turn = s.turn := rfl
@[simp] theorem bump_plan (s : State) : (bump s).plan = s.plan := rfl
@[simp] theorem bump_late (s : State) : (bump s).late = s.late := rfl
@[simp] theorem bump_cur (s : State) : (bump s).cur = s.cur := rfl
@[simp] theorem bump_runAhead (s : State) : (bump s).runAhead = s.runAhead := rfl
@[simp] theorem bump_frames (s : State) : (bump s).frames = s.frames := rfl
@[simp] theorem bump_mem (s : State) : (bump s).mem = s.mem := rfl
@[simp] theorem bump_poison (s : State) : (bump s).poison = s.poison := rfl
@[simp] theorem bump_pkg (s : State) : (bump s).pkg = s.pkg := rfl
@[simp] theorem bump_accE (s : State) : (bump s).accE = s.accE := rfl
@[simp] theorem bump_accD (s : State) : (bump s).accD = s.accD := rfl
@[simp] theorem bump_rootCached (s : State) : (bump s).rootCached = s.rootCached := rfl
@[simp] theorem bump_actDone (s : State) : (bump s).actDone = s.actDone := rfl
@[simp] theorem bump_actMaster (s : State) : (bump s).actMaster = s.actMaster := rfl
@[simp] theorem bump_actKinds (s : State) : (bump s).actKinds = s.actKinds := rfl
@[simp] theorem bump_aperture (s : State) : (bump s).aperture = s.aperture := rfl
@[simp] theorem bump_faultLog (s : State) : (bump s).faultLog = s.faultLog := rfl
@[simp] theorem bump_clusterOwner (s : State) : (bump s).clusterOwner = s.clusterOwner := rfl
@[simp] theorem bump_winMap (s : State) : (bump s).winMap = s.winMap := rfl
@[simp] theorem bump_hdm (s : State) : (bump s).hdm = s.hdm := rfl
@[simp] theorem bump_zeroPend (s : State) : (bump s).zeroPend = s.zeroPend := rfl
@[simp] theorem bump_cmpHeld (s : State) : (bump s).cmpHeld = s.cmpHeld := rfl
@[simp] theorem bump_migr (s : State) : (bump s).migr = s.migr := rfl
@[simp] theorem bump_lee (s : State) : (bump s).lee = s.lee := rfl
@[simp] theorem bump_shadows (s : State) : (bump s).shadows = s.shadows := rfl
@[simp] theorem bump_stage2 (s : State) : (bump s).stage2 = s.stage2 := rfl
@[simp] theorem bump_stage2Entries (s : State) : (bump s).stage2Entries = s.stage2Entries := rfl
@[simp] theorem bump_chunks (s : State) : (bump s).chunks = s.chunks := rfl
@[simp] theorem bump_keyUses (s : State) : (bump s).keyUses = s.keyUses := rfl
@[simp] theorem bump_held (s : State) : (bump s).held = s.held := rfl
@[simp] theorem bump_owned (s : State) : (bump s).owned = s.owned := rfl
@[simp] theorem bump_reading (s : State) : (bump s).reading = s.reading := rfl
@[simp] theorem bump_waiting (s : State) : (bump s).waiting = s.waiting := rfl
@[simp] theorem bump_parts (s : State) : (bump s).parts = s.parts := rfl
@[simp] theorem bump_queues (s : State) : (bump s).queues = s.queues := rfl
@[simp] theorem bump_jobs (s : State) : (bump s).jobs = s.jobs := rfl
@[simp] theorem bump_harts (s : State) : (bump s).harts = s.harts := rfl
@[simp] theorem bump_cores (s : State) : (bump s).cores = s.cores := rfl
@[simp] theorem bump_mgroups (s : State) : (bump s).mgroups = s.mgroups := rfl
@[simp] theorem bump_pwrcap (s : State) : (bump s).pwrcap = s.pwrcap := rfl
@[simp] theorem bump_replies (s : State) : (bump s).replies = s.replies := rfl
@[simp] theorem bump_signals (s : State) : (bump s).signals = s.signals := rfl
@[simp] theorem bump_links (s : State) : (bump s).links = s.links := rfl
@[simp] theorem bump_boot (s : State) : (bump s).boot = s.boot := rfl
@[simp] theorem bump_switches (s : State) : (bump s).switches = s.switches := rfl
@[simp] theorem bump_coreRecs (s : State) : (bump s).coreRecs = s.coreRecs := rfl

/-! ## Reading back -/

@[simp] theorem hartOf_setHart_same (h : Nat) (x : Hart) (s : State) : hartOf (setHart h x s) h = x :=
  cget_cset_same _ _ _ _

theorem hartOf_setHart_other {j h : Nat} (n : j ≠ h) (x : Hart) (s : State) : hartOf (setHart h x s) j = hartOf s j :=
  cget_cset_other _ n _ _

theorem hartOf_setHart (j h : Nat) (x : Hart) (s : State) : hartOf (setHart h x s) j = if j = h then x else hartOf s j :=
  cget_cset _ _ _ _ _

@[simp] theorem hartOf_modHart_same (h : Nat) (f : Hart → Hart) (s : State) : hartOf (modHart h f s) h = f (hartOf s h) :=
  cget_cset_same _ _ _ _

theorem hartOf_modHart_other {j h : Nat} (n : j ≠ h) (f : Hart → Hart) (s : State) :
    hartOf (modHart h f s) j = hartOf s j := cget_cset_other _ n _ _

/-- The current hart after an update of it. -/
@[simp] theorem me_modMe (f : Hart → Hart) (s : State) : me (modMe f s) = f (me s) := cget_cset_same _ _ _ _

/-- Every other hart is what it was. -/
theorem hartOf_modMe_other {j : Nat} (f : Hart → Hart) (s : State) (n : j ≠ s.cur) : hartOf (modMe f s) j = hartOf s j :=
  cget_cset_other _ n _ _

@[simp] theorem coreOf_setCore_same (c : Nat) (x : Core) (s : State) : coreOf (setCore c x s) c = x := cget_cset_same _ _ _ _
@[simp] theorem coreOf_modCore_same (c : Nat) (f : Core → Core) (s : State) : coreOf (modCore c f s) c = f (coreOf s c) :=
  cget_cset_same _ _ _ _
theorem coreOf_modCore_other {j c : Nat} (n : j ≠ c) (f : Core → Core) (s : State) :
    coreOf (modCore c f s) j = coreOf s j := cget_cset_other _ n _ _
@[simp] theorem partOf_modPart_same (p : Nat) (f : Part → Part) (s : State) : partOf (modPart p f s) p = f (partOf s p) :=
  cget_cset_same _ _ _ _
@[simp] theorem jobOf_modJob_same (j : Nat) (f : Job → Job) (s : State) : jobOf (modJob j f s) j = f (jobOf s j) :=
  cget_cset_same _ _ _ _
@[simp] theorem queueOf_modQueue_same (p q : Nat) (f : Queue → Queue) (s : State) :
    queueOf (modQueue p q f s) p q = f (queueOf s p q) := cget_cset_same _ _ _ _
@[simp] theorem linkOf_modLink_same (l : Nat) (f : Link → Link) (s : State) : linkOf (modLink l f s) l = f (linkOf s l) :=
  cget_cset_same _ _ _ _

@[simp] theorem hartOf_setMem (a : Nat) (bs : List Byte) (s : State) (h : Nat) : hartOf (setMem a bs s) h = hartOf s h := rfl
@[simp] theorem hartOf_zeroMem (a n : Nat) (s : State) (h : Nat) : hartOf (zeroMem a n s) h = hartOf s h := rfl
@[simp] theorem hartOf_modCore (c : Nat) (f : Core → Core) (s : State) (h : Nat) : hartOf (modCore c f s) h = hartOf s h := rfl
@[simp] theorem hartOf_modPart (p : Nat) (f : Part → Part) (s : State) (h : Nat) : hartOf (modPart p f s) h = hartOf s h := rfl
@[simp] theorem hartOf_modLink (l : Nat) (f : Link → Link) (s : State) (h : Nat) : hartOf (modLink l f s) h = hartOf s h := rfl
@[simp] theorem hartOf_bump (s : State) (h : Nat) : hartOf (bump s) h = hartOf s h := rfl

/-! ## Memory -/

/-- Every memory operation keeps the canonical form: a write. -/
theorem setMem_wf (a : Nat) (bs : List Byte) {s : State} (h : Memory.wf s.mem = true) : Memory.wf (setMem a bs s).mem = true :=
  csetRange_wf unlistedByte a bs h

/-- Every memory operation keeps the canonical form: zeroing. -/
theorem zeroMem_wf (a n : Nat) {s : State} (h : Memory.wf s.mem = true) : Memory.wf (zeroMem a n s).mem = true :=
  cut_wf unlistedByte a n h

/-- A byte after a write: the byte written inside the range, the old byte elsewhere. -/
theorem memByte_setMem (a k : Nat) (bs : List Byte) {s : State} (h : Memory.wf s.mem = true) :
    memByte (setMem a bs s) k = if a ≤ k ∧ k < a + bs.length then bs.getD (k - a) unlistedByte else memByte s k :=
  cget_csetRange unlistedByte a k bs h

theorem memByte_zeroMem (a n k : Nat) {s : State} (h : Memory.wf s.mem = true) :
    memByte (zeroMem a n s) k = if a ≤ k ∧ k < a + n then unlistedByte else memByte s k :=
  cget_cut unlistedByte a n k h

/-- Consecutive bytes are each byte's own reading. -/
theorem memBytes_eq (a n : Nat) {s : State} (h : Memory.wf s.mem = true) :
    memBytes s a n = (List.range n).map (fun i => memByte s (a + i)) :=
  cgetRange_eq unlistedByte a n h

/-! ## Two updates of one part -/

@[simp] theorem setHart_setHart (h : Nat) (x y : Hart) (s : State) : setHart h y (setHart h x s) = setHart h y s := by
  simp [setHart]

/-- Two updates of one hart are one. -/
theorem modHart_modHart (h : Nat) (f g : Hart → Hart) (s : State) :
    modHart h f (modHart h g s) = modHart h (fun x => f (g x)) s := by
  simp [modHart]

theorem modMe_modMe (f g : Hart → Hart) (s : State) : modMe f (modMe g s) = modMe (fun x => f (g x)) s :=
  modHart_modHart s.cur f g s

/-- An update that depends on the hart it finds is an update of the hart. -/
theorem modMe_congr (f g : Hart → Hart) (s : State) (h : f (me s) = g (me s)) : modMe f s = modMe g s := by
  show setHart s.cur (f (me s)) s = setHart s.cur (g (me s)) s
  rw [h]

end Sys2Proof.Machine
end

