-- ==== Sys2Proof/Laws/Access.lean ====
section
/-! SUPPORT. What an access may do to the state: one lemma for each operation of the access path, whatever it answers. An
access touches memory and what the memory system keeps beside it; harts, cores, queues, jobs and all else stay, and memory
keeps its canonical form. -/

namespace Sys2Proof.Machine

/-- From `s` to `t` only what the memory system keeps may have changed, and memory is still in canonical form. -/
def MemStep (s t : State) : Prop :=
  { t with fresh := s.fresh, regWrites := s.regWrites, mem := s.mem, poison := s.poison, faultLog := s.faultLog,
           zeroPend := s.zeroPend, cmpHeld := s.cmpHeld, migr := s.migr, lee := s.lee, shadows := s.shadows,
           parts := s.parts, links := s.links, held := s.held } = s ∧
  (Memory.wf s.mem = true → Memory.wf t.mem = true)

theorem MemStep.refl (s : State) : MemStep s s := ⟨rfl, id⟩

theorem MemStep.trans {s t u : State} (h : MemStep s t) (k : MemStep t u) : MemStep s u := by
  obtain ⟨h1, h2⟩ := h
  obtain ⟨k1, k2⟩ := k
  refine ⟨?_, fun w => k2 (h2 w)⟩
  rw [← h1]
  rw [← k1]

theorem MemStep.harts {s t : State} (h : MemStep s t) : t.harts = s.harts := by
  have e := congrArg State.harts h.1
  exact e
theorem MemStep.cur {s t : State} (h : MemStep s t) : t.cur = s.cur := by
  have e := congrArg State.cur h.1
  exact e
theorem MemStep.cores {s t : State} (h : MemStep s t) : t.cores = s.cores := by
  have e := congrArg State.cores h.1
  exact e
theorem MemStep.jobs {s t : State} (h : MemStep s t) : t.jobs = s.jobs := by
  have e := congrArg State.jobs h.1
  exact e
theorem MemStep.queues {s t : State} (h : MemStep s t) : t.queues = s.queues := by
  have e := congrArg State.queues h.1
  exact e
theorem MemStep.frames {s t : State} (h : MemStep s t) : t.frames = s.frames := by
  have e := congrArg State.frames h.1
  exact e
theorem MemStep.switches {s t : State} (h : MemStep s t) : t.switches = s.switches := by
  have e := congrArg State.switches h.1
  exact e
theorem MemStep.ticks {s t : State} (h : MemStep s t) : t.ticks = s.ticks := by
  have e := congrArg State.ticks h.1
  exact e
theorem MemStep.turn {s t : State} (h : MemStep s t) : t.turn = s.turn := by
  have e := congrArg State.turn h.1
  exact e
theorem MemStep.inbox {s t : State} (h : MemStep s t) : t.inbox = s.inbox := by
  have e := congrArg State.inbox h.1
  exact e
theorem MemStep.pkg {s t : State} (h : MemStep s t) : t.pkg = s.pkg := by
  have e := congrArg State.pkg h.1
  exact e
theorem MemStep.hartOf {s t : State} (h : MemStep s t) (j : Nat) : hartOf t j = hartOf s j := by
  unfold Machine.hartOf
  rw [h.harts]
theorem MemStep.me {s t : State} (h : MemStep s t) : me t = me s := by
  unfold Machine.me
  rw [h.hartOf, h.cur]
theorem MemStep.coreOf {s t : State} (h : MemStep s t) (c : Nat) : coreOf t c = coreOf s c := by
  unfold Machine.coreOf
  rw [h.cores]
theorem MemStep.wf {s t : State} (h : MemStep s t) (w : Memory.wf s.mem = true) : Memory.wf t.mem = true := h.2 w

/-! ## The steps an access is made of -/

theorem setMem_step (a : Nat) (bs : List Byte) (s : State) : MemStep s (setMem a bs s) := ⟨rfl, setMem_wf a bs⟩
theorem zeroMem_step (a n : Nat) (s : State) : MemStep s (zeroMem a n s) := ⟨rfl, zeroMem_wf a n⟩
theorem rawWrite_step (a n x : Nat) (s : State) : MemStep s (rawWrite a n x s) := setMem_step _ _ _
theorem bump_step (s : State) : MemStep s (bump s) := ⟨rfl, id⟩
theorem modPart_step (p : Nat) (f : Part → Part) (s : State) : MemStep s (modPart p f s) := ⟨rfl, id⟩
theorem modLink_step (l : Nat) (f : Link → Link) (s : State) : MemStep s (modLink l f s) := ⟨rfl, id⟩
theorem logDenial_step (s : State) (m p a : Nat) (k : AccKind) (r : Nat) : MemStep s (logDenial s m p a k r) := ⟨rfl, id⟩
theorem logAt_step (s : State) (m p : Nat) (l : Loc) (k : AccKind) (r : Nat) : MemStep s (logAt s m p l k r) := by
  unfold logAt
  split
  · exact logDenial_step s m p l.a k r
  · exact ⟨rfl, id⟩
theorem addMeter_step (p k n : Nat) (s : State) : MemStep s (addMeter p k n s) := modPart_step _ _ _
theorem useTag_step (l m : Nat) (s : State) : MemStep s (useTag l m s) := modLink_step _ _ _
theorem cacheReply_step (l m t c : Nat) (bs : List Byte) (s : State) : MemStep s (cacheReply l m t c bs s) := modLink_step _ _ _
theorem crossLink_step (l m x p n : Nat) (bs : List Byte) (s : State) : MemStep s (crossLink l m x p n bs s) :=
  (useTag_step l x s).trans ((cacheReply_step _ _ _ _ _ _).trans (addMeter_step _ _ _ _))
theorem holdRequest_step (k : Nat) (r : LinkReq) (s : State) : MemStep s (holdRequest k r s) := by
  unfold holdRequest
  simp only
  split
  · exact .refl s
  · refine MemStep.trans ?_ ((bump_step _).trans ((modLink_step _ _ _).trans (useTag_step _ _ _)))
    split
    · exact (cacheReply_step _ _ _ _ _ s).trans (setMem_step _ _ _)
    · exact .refl s
theorem leaveOutstanding_step (k : Nat) (w : Who) (va : Nat) (l : Loc) (kind : AccKind) (n : Nat) (bs : List Byte) (s : State) :
    MemStep s (leaveOutstanding k w va l kind n bs s) := holdRequest_step _ _ _

theorem settleZero_step (s : State) (a : Nat) : MemStep s (settleZero s a) := by
  unfold settleZero
  split
  · exact MemStep.trans (t := { s with zeroPend := cset false (a / 65536) false s.zeroPend }) ⟨rfl, id⟩ (zeroMem_step _ _ _)
  · exact .refl s

theorem mmioWrite_step (a : Nat) (bs : List Byte) (s : State) : MemStep s (mmioWrite a bs s) := by
  unfold mmioWrite
  split
  · exact .refl s
  · exact ⟨rfl, id⟩

/-! ## Records -/

theorem foldl_step {α : Type} (f : State → α → State) (h : ∀ s x, MemStep s (f s x)) (l : List α) (s : State) :
    MemStep s (l.foldl f s) := by
  induction l generalizing s with
  | nil => exact .refl s
  | cons x l ih => exact (h s x).trans (ih _)

theorem recWrite_step (d a n x : Nat) (s : State) : MemStep s (recWrite d a n x s) := by
  unfold recWrite
  simp only
  split
  · exact (settleZero_step s a).trans (rawWrite_step _ _ _ _)
  · exact logDenial_step _ _ _ _ _ _

theorem mergeShadow_step (s : State) (d p i : Nat) (sh : Shadow) : MemStep s (mergeShadow s d p i sh) := by
  unfold mergeShadow
  exact (recWrite_step _ _ _ _ _).trans ((recWrite_step _ _ _ _ _).trans ((recWrite_step _ _ _ _ _).trans
    ((recWrite_step _ _ _ _ _).trans ((recWrite_step _ _ _ _ _).trans (foldl_step _ (fun _ _ => recWrite_step _ _ _ _ _) _ _)))))

theorem setShadow_step (k : Nat) (sh : Shadow) (s : State) : MemStep s { s with shadows := cset Shadow.empty k sh s.shadows } :=
  ⟨rfl, id⟩

theorem ite_step (c : Prop) [Decidable c] {a t u : State} (h : MemStep a t) (g : MemStep a u) :
    MemStep a (if c then t else u) := by
  split
  · exact h
  · exact g

theorem trackFold_step (d p i off : Nat) (bs : List Byte) (s : State) : MemStep s (trackFold d p i off bs s) := by
  unfold trackFold
  simp only
  exact .trans (ite_step _ (.refl s) (setShadow_step _ _ _)) (ite_step _ (recWrite_step _ _ _ _ _) (.refl _))

theorem foldWrite_step (w : Who) (l : Loc) (bs : List Byte) (s : State) : MemStep s (foldWrite w l bs s) := by
  unfold foldWrite
  generalize trackedParts s w l bs.length = ps
  exact foldl_step _ (fun s p => trackFold_step _ _ _ _ _ _) ps s

theorem modMigr_step (p : Nat) (f : Migration → Migration) (s : State) : MemStep s (modMigr p f s) := ⟨rfl, id⟩
theorem letGo_step (h : Nat) (p : Nat → Bool) (s : State) : MemStep s (letGo h p s) := ⟨rfl, id⟩
theorem dropHeld_step (p : Hart → Bool) (q : Nat → Bool) (s : State) : MemStep s (dropHeld p q s) := ⟨rfl, id⟩
theorem setCmpHeld_step (k : Nat) (b : Bool) (s : State) : MemStep s { s with cmpHeld := cset false k b s.cmpHeld } := ⟨rfl, id⟩
theorem setLee_step (k : Nat) (bs : List Byte) (s : State) : MemStep s { s with lee := cset [] k bs s.lee } := ⟨rfl, id⟩

theorem markWritten_step (w : Who) (l : Loc) (s : State) : MemStep s (markWritten w l s) :=
  ite_step _ (modMigr_step _ _ s) (.refl s)

theorem noteWrite_step (w : Who) (l : Loc) (bs : List Byte) (s : State) : MemStep s (noteWrite w l bs s) := by
  unfold noteWrite
  exact .trans (markWritten_step w l s) (.trans (ite_step _ (setCmpHeld_step _ _ _) (.refl _))
    (.trans (ite_step _ (setLee_step _ _ _) (.refl _)) (foldWrite_step _ _ _ _)))

/-- What a write leaves besides its bytes leaves the bytes; a write to a record's own fields apart, memory is as it was. -/
theorem dropLine_step (w : Who) (l : Loc) (s : State) : MemStep s (dropLine w l s) := setLee_step _ _ _

theorem storeBytes_step (w : Who) (l : Loc) (bs : List Byte) (s : State) : MemStep s (storeBytes w l bs s) := by
  unfold storeBytes
  split
  · exact mmioWrite_step _ _ _
  · exact (noteWrite_step _ _ _ _).trans (setMem_step _ _ _)

/-! ## Accesses, whatever they answer -/

/-- The state an access answers with, for each of its three answers. -/
def MR.st {α : Type} : MR α → State
  | .ok _ s => s
  | .bad _ s => s
  | .wait s => s

/-- A sequence of two accesses is an access. -/
theorem mbind_step {α β : Type} {m : MR α} {f : α → State → MR β} {s : State} (hm : MemStep s m.st)
    (hf : ∀ a t, m = .ok a t → MemStep t (f a t).st) : MemStep s (mbind m f).st := by
  cases m with
  | ok a t => exact hm.trans (hf a t rfl)
  | bad e t => exact hm
  | wait t => exact hm

theorem st_ite_step {α : Type} (c : Prop) [Decidable c] {m k : MR α} {s : State} (h : MemStep s m.st) (g : MemStep s k.st) :
    MemStep s (if c then m else k).st := by
  split
  · exact h
  · exact g

theorem recDeny_step (d p i : Nat) (k : AccKind) (va r : Nat) (s : State) : MemStep s (recDeny d p i k va r s).st :=
  logDenial_step _ _ _ _ _ _

theorem recAllowed_step (d p i : Nat) (wr : Bool) (va : Nat) (s : State) : MemStep s (recAllowed d p i wr va s).st := by
  unfold recAllowed
  exact st_ite_step _ (recDeny_step _ _ _ _ _ _ _) (st_ite_step _ (recDeny_step _ _ _ _ _ _ _) (.refl s))

theorem foldShadow_step (va : Nat) (s : State) (d p i : Nat) : MemStep s (foldShadow va s d p i).st := by
  unfold foldShadow
  exact st_ite_step _ (.refl s) (mbind_step (recAllowed_step _ _ _ _ _ _) fun _ _ _ =>
    .trans (setShadow_step _ _ _) (mergeShadow_step _ _ _ _ _))

theorem roomForShadow_step (va : Nat) (s : State) (d p i : Nat) : MemStep s (roomForShadow va s d p i).st := by
  unfold roomForShadow
  refine st_ite_step _ (.refl s) ?_
  split
  · exact foldShadow_step _ _ _ _ _
  · exact .refl s

theorem trackAllowed_step (d p i off n va : Nat) (s : State) : MemStep s (trackAllowed d p i off n va s).st := by
  unfold trackAllowed
  exact mbind_step (recAllowed_step _ _ _ _ _ _) fun _ _ _ => st_ite_step _ (.refl _) (roomForShadow_step _ _ _ _ _)

theorem foldAllowed_step (w : Who) (va : Nat) (l : List (Nat × Nat × Nat × Nat × Nat)) (s : State) :
    MemStep s (foldAllowed w va l s).st := by
  induction l generalizing s with
  | nil => exact .refl s
  | cons p l ih => exact mbind_step (trackAllowed_step _ _ _ _ _ _ _) fun _ _ _ => ih _

theorem tableRead_step (w : Who) (va a : Nat) (s : State) : MemStep s (tableRead w va a s).st := by
  unfold tableRead
  simp only
  split
  · exact logDenial_step _ _ _ _ _ _
  · exact settleZero_step _ _

theorem walkLevels_step (w : Who) (va : Nat) (kind : AccKind) (n t : Nat) (s : State) : MemStep s (walkLevels w va kind n t s).st := by
  induction n generalizing t s with
  | zero => exact .refl s
  | succ n ih =>
    unfold walkLevels
    refine mbind_step (tableRead_step _ _ _ _) fun e u _ => ?_
    split
    · exact .refl u
    · split
      · exact .refl u
      · split
        · exact .refl u
        · exact ih _ _

theorem zeroPages_step (w : Who) (va f n : Nat) (s : State) : MemStep s (zeroPages w va f n s).st := by
  induction n generalizing s with
  | zero => exact .refl s
  | succ n ih =>
    unfold zeroPages
    refine mbind_step (ih s) fun _ u _ => st_ite_step _ (logDenial_step _ _ _ _ _ _) ?_
    · exact MemStep.trans (t := { u with zeroPend := cset false ((f + 65536 * n) / 65536) false u.zeroPend }) ⟨rfl, id⟩
        (zeroMem_step _ _ _)

theorem updateAD_step (w : Who) (va lvl ea e : Nat) (kind : AccKind) (s : State) : MemStep s (updateAD w va lvl ea e kind s).st := by
  unfold updateAD
  refine st_ite_step _ (.refl s) (mbind_step ?_ fun _ u _ => st_ite_step _ (logDenial_step _ _ _ _ _ _)
    (st_ite_step _ (.refl u) (rawWrite_step _ _ _ u)))
  exact st_ite_step _ (zeroPages_step _ _ _ _ _) (.refl s)

theorem translateFrom_step (w : Who) (va : Nat) (kind : AccKind) (n : Nat) (s : State) :
    MemStep s (translateFrom w va kind n s).st := by
  induction n generalizing s with
  | zero => exact .refl s
  | succ n ih =>
    unfold translateFrom
    refine mbind_step (walkLevels_step _ _ _ _ _ _) fun p u _ => ?_
    simp only
    split
    · exact .refl u
    · split
      · exact .refl u
      · split
        · exact .refl u
        · refine mbind_step (updateAD_step _ _ _ _ _ _ _) fun e v _ => ?_
          cases e with
          | some e => exact .refl v
          | none => exact ih v

/-- A translation walks, logs a denial, zeroes a page or sets A and D (R50). -/
theorem translate_step (w : Who) (va : Nat) (kind : AccKind) (s : State) : MemStep s (translate w va kind s).st :=
  st_ite_step _ (.refl s) (translateFrom_step _ _ _ _ _)

/-- An access translates so, or takes what its stream holds (R54). -/
theorem transFor_step (w : Who) (va : Nat) (kind : AccKind) (s : State) : MemStep s (transFor w va kind s).st := by
  unfold transFor
  simp only
  split
  · exact translate_step _ _ _ _
  · split
    · split <;> exact .refl s
    · exact mbind_step (translate_step _ _ _ _) fun _ _ _ => ⟨rfl, id⟩

/-- An access without a hold translates at every access. -/
theorem transFor_of_none {w : Who} (h : w.hold = 0) (va : Nat) (kind : AccKind) (s : State) :
    transFor w va kind s = translate w va kind s := if_pos (.inl h)

theorem crossNow_step (k m : Nat) (w : Who) (va : Nat) (l : Loc) (kind : AccKind) (n : Nat) (s : State) :
    MemStep s (crossNow k m w va l kind n s).st := by
  unfold crossNow
  split
  · exact (modLink_step _ _ s).trans (addMeter_step _ _ _ _)
  · exact crossLink_step _ _ _ _ _ _ s

theorem reach_step (w : Who) (va : Nat) (l : Loc) (kind : AccKind) (n : Nat) (bs : List Byte) (s : State) :
    MemStep s (reach w va l kind n bs s).st := by
  unfold reach
  simp only
  repeat' split
  all_goals first
    | exact .refl s | exact logAt_step _ _ _ _ _ _ | exact crossNow_step _ _ _ _ _ _ _ _
    | exact leaveOutstanding_step _ _ _ _ _ _ _ _
    | exact settleZero_step _ _

theorem leeReadBy_step (a : Nat) (w : Who) (va : Nat) (l : Loc) (n : Nat) (s : State) : MemStep s (leeReadBy a w va l n s).st := by
  unfold leeReadBy
  simp only
  split
  · refine st_ite_step _ (logAt_step _ _ _ _ _ _) ?_
    split
    · exact .refl s
    · refine st_ite_step _ (.refl s) ?_
      split
      · exact st_ite_step _ (mbind_step (crossNow_step _ _ _ _ _ _ _ _) fun _ _ _ => setLee_step _ _ _)
          (leaveOutstanding_step _ _ _ _ _ _ _ s)
      · exact setLee_step _ _ s
  · exact .refl s

theorem leeRead_step (w : Who) (va : Nat) (l : Loc) (n : Nat) (s : State) : MemStep s (leeRead w va l n s).st := by
  unfold leeRead
  split
  · exact .refl s
  · exact leeReadBy_step _ _ _ _ _ _

theorem readAt_step (w : Who) (va : Nat) (l : Loc) (kind : AccKind) (n : Nat) (s : State) : MemStep s (readAt w va l kind n s).st := by
  unfold readAt
  split
  · exact leeRead_step _ _ _ _ _
  · refine mbind_step (reach_step _ _ _ _ _ _ _) fun _ u _ => ?_
    repeat' split
    all_goals exact .refl u

theorem writeReach_step (w : Who) (va : Nat) (l : Loc) (bs : List Byte) (s : State) : MemStep s (writeReach w va l bs s).st :=
  mbind_step (reach_step _ _ _ _ _ _ _) fun _ _ _ => mbind_step (foldAllowed_step _ _ _ _) fun _ _ _ => .refl _

theorem writeAt_step (w : Who) (va : Nat) (l : Loc) (bs : List Byte) (s : State) : MemStep s (writeAt w va l bs s).st :=
  mbind_step (writeReach_step _ _ _ _ _) fun _ _ _ => ite_step _ (storeBytes_step _ _ _ _) (noteWrite_step _ _ _ _)

theorem atomicAt_step (w : Who) (va : Nat) (l : Loc) (n : Nat) (f : Nat → Option Nat) (s : State) :
    MemStep s (atomicAt w va l n f s).st := by
  unfold atomicAt
  refine mbind_step (reach_step _ _ _ _ _ _ _) fun _ _ _ => mbind_step (foldAllowed_step _ _ _ _) fun _ u _ => st_ite_step _ ?_ ?_
  · show MemStep u (match f _ with | some x => mmioWrite l.a (toBytes n x) u | none => u)
    split
    · exact mmioWrite_step _ _ _
    · exact .refl u
  · split
    · exact .refl u
    · show MemStep u (match f _ with | some x => storeBytes w l (toBytes n x) u | none => markWritten w l u)
      split
      · exact storeBytes_step _ _ _ _
      · exact markWritten_step _ _ _

/-- A read at a virtual address. -/
theorem vaRead_step (w : Who) (va n : Nat) (s : State) : MemStep s (vaRead w va n s).st :=
  mbind_step (transFor_step _ _ _ _) fun _ _ _ => readAt_step _ _ _ _ _ _

/-- A write at a virtual address. -/
theorem vaWrite_step (w : Who) (va : Nat) (bs : List Byte) (s : State) : MemStep s (vaWrite w va bs s).st :=
  mbind_step (transFor_step _ _ _ _) fun _ _ _ => writeAt_step _ _ _ _ _

/-- An atomic at a virtual address. -/
theorem vaAtomic_step (w : Who) (va n : Nat) (f : Nat → Option Nat) (s : State) : MemStep s (vaAtomic w va n f s).st :=
  mbind_step (transFor_step _ _ _ _) fun _ _ _ => atomicAt_step _ _ _ _ _ _

theorem vaReadRun_step (w : Who) (fuel va n : Nat) (s : State) : MemStep s (vaReadRun w fuel va n s).st := by
  induction fuel generalizing va n s with
  | zero => exact .refl s
  | succ k ih =>
    unfold vaReadRun
    split
    · exact .refl s
    · exact mbind_step (vaRead_step _ _ _ _) fun _ _ _ => mbind_step (ih _ _ _) fun _ _ _ => .refl _

theorem vaWriteRun_step (w : Who) (fuel va : Nat) (bs : List Byte) (s : State) : MemStep s (vaWriteRun w fuel va bs s).st := by
  induction fuel generalizing va bs s with
  | zero => exact .refl s
  | succ k ih =>
    unfold vaWriteRun
    split
    · exact .refl s
    · exact mbind_step (vaWrite_step _ _ _ _) fun _ _ _ => ih _ _ _

theorem vaReadN_step (w : Who) (va n : Nat) (s : State) : MemStep s (vaReadN w va n s).st := vaReadRun_step _ _ _ _ _
theorem vaWriteN_step (w : Who) (va : Nat) (bs : List Byte) (s : State) : MemStep s (vaWriteN w va bs s).st := vaWriteRun_step _ _ _ _ _
theorem vaReadNum_step (w : Who) (va n : Nat) (s : State) : MemStep s (vaReadNum w va n s).st :=
  mbind_step (vaRead_step _ _ _ _) fun _ _ _ => .refl _

/-- The same for an answer at hand. -/
theorem step_of_ok {α : Type} {m : MR α} {s t : State} {a : α} (h : MemStep s m.st) (e : m = .ok a t) : MemStep s t := by
  rw [e] at h
  exact h
theorem step_of_bad {α : Type} {m : MR α} {s t : State} {f : Flt} (h : MemStep s m.st) (e : m = .bad f t) : MemStep s t := by
  rw [e] at h
  exact h
theorem step_of_wait {α : Type} {m : MR α} {s t : State} (h : MemStep s m.st) (e : m = .wait t) : MemStep s t := by
  rw [e] at h
  exact h

end Sys2Proof.Machine
end

