-- ==== Sys2Proof/Laws/Bytes.lean ====
section
/-! SUPPORT. Numbers as little-endian bytes (R281, R331): their length, and that reading what was laid out gives it back. -/

namespace Sys2Proof.Machine

@[simp] theorem toBytes_length (n x : Nat) : (toBytes n x).length = n := by simp [toBytes]

theorem toBytes_succ (n x : Nat) : toBytes (n + 1) x = BitVec.ofNat 8 x :: toBytes n (x / 256) := by
  simp only [toBytes, List.range_succ_eq_map, List.map_cons, List.map_map]
  refine congrArg₂ _ (by simp) (List.map_congr_left fun i _ => ?_)
  have h : 2 ^ (8 * (i + 1)) = 256 * 2 ^ (8 * i) := by rw [Nat.mul_add, Nat.pow_add]; omega
  simp only [Function.comp_apply, Nat.succ_eq_add_one, h, Nat.div_div_eq_div_mul]

/-- The number laid out in `n` bytes reads back modulo their range. -/
@[simp] theorem ofBytes_toBytes (n x : Nat) : ofBytes (toBytes n x) = x % 2 ^ (8 * n) := by
  induction n generalizing x with
  | zero => simp [toBytes, ofBytes, Nat.mod_one]
  | succ n ih =>
    rw [toBytes_succ, ofBytes, ih]
    have h : 2 ^ (8 * (n + 1)) = 256 * 2 ^ (8 * n) := by rw [Nat.mul_add, Nat.pow_add]; omega
    rw [h, Nat.mod_mul, BitVec.toNat_ofNat]

/-- Bytes are below 256, so `n` of them stand for less than 256 to the power of `n`. -/
theorem ofBytes_lt (bs : List Byte) : ofBytes bs < 2 ^ (8 * bs.length) := by
  induction bs with
  | nil => simp [ofBytes]
  | cons b r ih =>
    have h : 2 ^ (8 * (b :: r).length) = 256 * 2 ^ (8 * r.length) := by
      rw [List.length_cons, Nat.mul_add, Nat.pow_add]; omega
    have hb := b.isLt
    rw [h, ofBytes]
    omega

/-- Bytes laid out again are themselves. -/
@[simp] theorem toBytes_ofBytes (bs : List Byte) : toBytes bs.length (ofBytes bs) = bs := by
  induction bs with
  | nil => rfl
  | cons b r ih =>
    have hb := b.isLt
    rw [List.length_cons, toBytes_succ, ofBytes]
    have e1 : (b.toNat + 256 * ofBytes r) / 256 = ofBytes r := by omega
    rw [e1, ih]
    congr 1
    apply BitVec.eq_of_toNat_eq
    rw [BitVec.toNat_ofNat]
    omega

end Sys2Proof.Machine
end

