-- ==== Sys2Proof/Laws/Scalar.lean ====
section
/-! SUPPORT. What the scalar unit's shared operations do: writing a register, raising flags and moving on; a trap taken by
the hart; waiting for streams with nothing in flight. -/

namespace Sys2Proof.Machine

/-! ## Registers of the current hart -/

theorem gGet_zero (s : State) : gGet 0 s = 0 := rfl

theorem setG_zero (v : Word) (s : State) : setG 0 v s = s := rfl

/-- g registers after a write of one of them (R198): g0 keeps reading zero, the others hold the value or what they held. -/
theorem gGet_setG (r d : Reg) (v : Word) (s : State) :
    gGet r (setG d v s) = if r = d ∧ r ≠ 0 then v else gGet r s := by
  unfold gGet setG
  by_cases hr : r = 0
  · simp [hr]
  · by_cases hd : d = 0
    · have : r ≠ d := fun e => hr (e.trans hd)
      simp [hd]
    · simp only [hr, hd, if_false, me_modMe]
      by_cases e : r = d
      · subst e
        have hr' : ¬ r = 0#5 := hr
        simp [hr']
      · have n : r.toNat ≠ d.toNat := fun h => e (BitVec.eq_of_toNat_eq h)
        simp [e, cget_cset_other _ n]

theorem gGet_addFl (r : Reg) (f : Fl) (s : State) : gGet r (addFl f s) = gGet r s := by simp [gGet, addFl]

theorem gGet_retire (r : Reg) (n : Word) (s : State) : gGet r (retire n s) = gGet r s := by simp [gGet, retire, goto]

theorem me_retire (n : Word) (s : State) :
    me (retire n s) = { me s with pc := (me s).pc + n, stalled := 0, stallS := none, invWait := none } := me_modMe _ _

/-- A result written, flags raised and the PC moved on: the one form in which a scalar instruction completes. -/
theorem retire_eq_afterScalar (d : Reg) (v : Word) (fl : BitVec 7) (n : Word) (s : State) :
    retire n (addFl fl (setG d v s)) = afterScalar n d v fl s := by
  unfold retire goto addFl afterScalar
  by_cases h : d = 0
  · simp only [setG, h, if_true, modMe_modMe]
    exact modMe_congr _ _ _ (by simp)
  · simp only [setG, h, if_false, modMe_modMe, me_modMe]
    exact modMe_congr _ _ _ rfl

theorem retire_setG_eq_afterScalar (d : Reg) (v : Word) (n : Word) (s : State) :
    retire n (setG d v s) = afterScalar n d v 0 s := by
  rw [← retire_eq_afterScalar]
  unfold retire goto addFl
  simp only [me_modMe, modMe_modMe]
  exact modMe_congr _ _ _ (by simp)

theorem retire_addFl_eq_afterScalar (fl : BitVec 7) (n : Word) (s : State) :
    retire n (addFl fl s) = afterScalar n 0 0 fl s := (retire_eq_afterScalar 0 0 fl n s)

/-- The scalar unit's two-operand form. -/
theorem alu_eq_afterScalar (w : Bool) (f : Nat → Nat → Nat → Nat × Fl) (d a b : Reg) (s : State) :
    let n := if w then 32 else 64
    let p := f n ((gGet a s).toNat % 2 ^ n) ((gGet b s).toNat % 2 ^ n)
    alu w f d a b s = .next (afterScalar 4 d (BitVec.ofInt 64 (signed n p.1)) p.2 s) := by
  simp only [alu, retire_eq_afterScalar]

/-- A code of `n` bits as a two's complement number is the bit vector's own integer. -/
theorem signed_toNat (n : Nat) (x : BitVec n) : signed n x.toNat = x.toInt := by
  rcases n with _ | n
  · rw [BitVec.eq_nil x]
    rfl
  · unfold signed
    simp only
    rw [BitVec.toInt_eq_toNat_cond, Nat.mod_eq_of_lt x.isLt, Nat.add_sub_cancel]
    have p : 2 ^ (n + 1) = 2 * 2 ^ n := by rw [Nat.pow_succ, Nat.mul_comm]
    split <;> split <;> first | rfl | omega

theorem pc_afterScalar (n : Word) (d : Reg) (v : Word) (fl : BitVec 7) (s : State) :
    (me (afterScalar n d v fl s)).pc = (me s).pc + n := by simp [afterScalar]

theorem hartOf_afterScalar_other {j : Nat} (n : Word) (d : Reg) (v : Word) (fl : BitVec 7) (s : State) (h : j ≠ s.cur) :
    hartOf (afterScalar n d v fl s) j = hartOf s j := hartOf_modMe_other _ _ h

theorem mem_afterScalar (n : Word) (d : Reg) (v : Word) (fl : BitVec 7) (s : State) : (afterScalar n d v fl s).mem = s.mem := rfl

/-! ## Scalar accesses -/

theorem scalarDo_ok {α : Type} (a : α) (t : State) (k : α → State → State) : scalarDo (.ok a t) k = k a t := rfl
theorem scalarDo_bad {α : Type} (f : Flt) (t : State) (k : α → State → State) : scalarDo (.bad f t) k = preciseTrap f t := rfl
theorem scalarDo_wait {α : Type} (t : State) (k : α → State → State) : scalarDo (.wait t) k = t := rfl

/-! ## Waiting for streams (R216) -/

/-- With nothing in flight no stream is busy. -/
theorem busy_of_quiet {s : State} (h : Quiet s) (mask : Nat) : busy mask s = false := by
  simp [busy, h.vq, h.mq, h.cmds, h.sbuf]

/-- No store waits: there is none to perform. -/
theorem drainStores_of_none {h : Nat} {s : State} (e : (hartOf s h).sbuf = []) : drainStores h s = s := by
  unfold drainStores
  rw [e]
  rfl

/-- A synchronising instruction of a quiet hart takes effect at once. -/
theorem sync_of_quiet {s : State} (h : Quiet s) (mask : Nat) (k : State → State) : sync mask k s = k s := by
  unfold sync
  rw [drainStores_of_none h.sbuf, ite_self]
  simp [h.pend, busy_of_quiet h]

theorem scalarLong_of_quiet {s : State} (h : Quiet s) (f : State → State) : scalarLong f s = f s := by
  unfold scalarLong
  rw [h.cap]
  simp

/-! ## Traps (R226 to R228) -/

/-- A precise trap with no imprecise trap pending is entered at once. -/
theorem preciseAt_of_no_pend {s : State} (h : (me s).pend = none) (f : Flt) (pc lpc : Word) :
    preciseAt f pc lpc s = enterTrap s.cur f false pc lpc 0 0 noStream s := by
  unfold preciseAt
  rw [h]

/-- A pending imprecise trap goes first (R228). -/
theorem preciseAt_of_pend {s : State} {p : PendTrap} (h : (me s).pend = some p) (f : Flt) (pc lpc : Word) :
    preciseAt f pc lpc s = deliver s.cur (me s).pc s := by
  unfold preciseAt
  rw [h]

/-- All that a hart that takes its traps itself can do with one, once the stores that may are performed: write the frame and
enter the handler; fail to write it, a double trap; or keep the entry until its accesses are complete or the frame's link is
up (R180, R221). -/
theorem enterTrap_cases (h : Nat) (f : Flt) (imp : Bool) (pc lpc : Word) (elem vstart : Nat) (fs : FaultStream) (s : State)
    (t : TakesTraps h f.cause (drainStores h s)) :
    let u := drainStores h s
    (∃ s2, writeFrame h (hartOf u h).t.frame (recordOf 0 h { unwindConvoy (hartOf u h) with pc := pc } (takeCmds h u).1) fs
        vstart (takeCmds h u).2 = .ok () s2 ∧
      enterTrap h f imp pc lpc elem vstart fs s =
        modHart h (fun x => toHandler f imp pc lpc elem vstart (takeCmds h u).1 (unwindConvoy x)) (endAccesses h s2)) ∨
    (∃ s2, enterTrap h f imp pc lpc elem vstart fs s = doubleTrap h s2) ∨
    (∃ b s2, enterTrap h f imp pc lpc elem vstart fs s = modHart h (fun x =>
      { x with entry := some { flt := f, imp := imp, pc := pc, lpc := lpc, elem := elem, vstart := vstart, fs := fs,
                               framed := b } }) s2) := by
  unfold enterTrap
  simp only [t.1, t.2, Bool.false_eq_true, if_false]
  split
  · exact .inr (.inr ⟨_, _, rfl⟩)
  · split
    · exact .inr (.inl ⟨_, rfl⟩)
    · exact .inr (.inr ⟨_, _, rfl⟩)
    · rename_i s2 e
      exact .inl ⟨s2, e, rfl⟩

end Sys2Proof.Machine
end

