-- ==== Sys2Proof/Laws/Issue.lean ====
section
/-! SUPPORT. What issuing a long instruction does, its sweep over the elements, and reads after writes of the vector
registers and the masks. -/

namespace Sys2Proof.Machine

/-! ## Issue (R211) -/

/-- The queue entry that the issue of a vector instruction makes. -/
def issued (k : Check) (i : Instr) (s : State) : QEntry := freshEntry i { captureCtx s with width := k.width }

/-- A quiet hart performs a vector instruction that passes the decoder's checks at once. -/
theorem issueV_of_quiet {s : State} {k : Check} (h : Quiet s) (p : Passes k s) (i : Instr) (run : Perform) :
    issueV k i run s = afterV (run (issued k i s) (retire 8 s)) [] := by
  have e : k.reason (me s) = none := p
  simp [issueV, e, issued, prompt, nextInConvoy, h.vq, h.mq, h.pend, h.cap, h.conv, h.late, h.lanes]

/-- The same of a matrix instruction. -/
theorem issueM_of_quiet {s : State} {k : Check} (h : Quiet s) (p : Passes k s) (i : Instr) (run : Perform) :
    issueM k i run s = afterM (run (freshEntry i (captureCtx s)) (retire 8 s)) [] := by
  have e : k.reason (me s) = none := p
  simp [issueM, e, prompt, h.vq, h.mq, h.pend, h.cap, h.reattach, h.late]

/-- A long instruction that fails the checks takes ILLEGAL with their reason (R203, R224, R302). -/
theorem issueV_of_reason {s : State} {k : Check} {r : Nat} (p : k.reason (me s) = some r) (i : Instr) (run : Perform) :
    issueV k i run s = illegalLong r s := by
  simp [issueV, p]

theorem issueM_of_reason {s : State} {k : Check} {r : Nat} (p : k.reason (me s) = some r) (i : Instr) (run : Perform) :
    issueM k i run s = illegalLong r s := by
  simp [issueM, p]

theorem afterV_done (s : State) : afterV (.done s) [] = modMe (fun x => { x with vq := [], stallV := none }) s := rfl
theorem afterM_done (s : State) : afterM (.done s) [] = modMe (fun x => { x with mq := [], stallM := none }) s := rfl

/-! ## The sweep (R303) -/

/-- A binding that is bounded neither by a row nor by a convoy is for every element. -/
theorem due_all {c : LCtx} (r : c.byRow = false) (u : c.upto = 0) (v : Nat) (l : List (Nat × Nat)) : due c v l = (l, []) := by
  unfold due
  rw [r, u]
  rfl

/-- What the issue captures is bounded by no row and no convoy. -/
theorem due_issued (k : Check) (i : Instr) (s : State) (v : Nat) (l : List (Nat × Nat)) :
    due (issued k i s).ctx v l = (l, []) := due_all rfl rfl v l

theorem elemRun_nil (e : QEntry) (body : Nat → Nat → State → MR Unit) (fs : State → Nat → Nat → Flt → FaultStream)
    (hang : State → Nat → Option PendTrap) (fin : State → LRes) (s : State) : elemRun e body fs hang fin [] s = fin s := rfl

/-- A sweep from its first element whose every element completes, each leaving the state `f` gives, ends with the states
run through in order. -/
theorem elemRun_of_ok (e : QEntry) (v : e.vstart = 0) (body : Nat → Nat → State → MR Unit)
    (fs : State → Nat → Nat → Flt → FaultStream) (hang : State → Nat → Option PendTrap) (fin : State → LRes)
    (f : Nat → Nat → State → State) (I : State → Prop) (l : List (Nat × Nat))
    (h : ∀ p ∈ l, ∀ s, I s → body p.1 p.2 s = .ok () (f p.1 p.2 s) ∧ I (f p.1 p.2 s)) (s : State) (i : I s) :
    elemRun e body fs hang fin l s = fin (l.foldl (fun s p => f p.1 p.2 s) s) ∧
      I (l.foldl (fun s p => f p.1 p.2 s) s) := by
  induction l generalizing s with
  | nil => exact ⟨rfl, i⟩
  | cons p l ih =>
    obtain ⟨b, j⟩ := h p (List.mem_cons_self) s i
    have := ih (fun q hq => h q (List.mem_cons_of_mem _ hq)) _ j
    simpa [elemRun, v, b] using this

/-- A whole sweep whose every element completes is done. -/
theorem elemLoop_of_ok (e : QEntry) (v : e.vstart = 0) (r : e.ctx.byRow = false) (u : e.ctx.upto = 0)
    (body : Nat → Nat → State → MR Unit) (fs : State → Nat → Nat → Flt → FaultStream)
    (hang : State → Nat → Option PendTrap) (f : Nat → Nat → State → State) (I : State → Prop) (l : List (Nat × Nat))
    (h : ∀ p ∈ l, ∀ s, I s → body p.1 p.2 s = .ok () (f p.1 p.2 s) ∧ I (f p.1 p.2 s)) (s : State) (i : I s) :
    elemLoop e body fs hang l s = .done (l.foldl (fun s p => f p.1 p.2 s) s) ∧ I (l.foldl (fun s p => f p.1 p.2 s) s) := by
  unfold elemLoop
  rw [due_all r u]
  exact elemRun_of_ok e v body fs hang _ f I l h s i

/-! ## Elements of a vector register (R317) -/

theorem rowBits_lt (r : BitVec 16384) (lo n : Nat) : rowBits r lo n < 2 ^ n := Nat.mod_lt _ (Nat.two_pow_pos n)

theorem vRow_touchV (v k n v' k' : Nat) (x : Hart) : vRow (touchV v k n x) v' k' = vRow x v' k' := rfl

/-- A row after a write of a row. -/
theorem vRow_putRow (v k v' k' : Nat) (r : BitVec 16384) (x : Hart) :
    vRow (putRow v k r x) v' k' = if 8 * v' + k' = 8 * v + k then r else vRow x v' k' := by
  unfold vRow putRow
  exact cget_cset _ _ _ _ _

/-- A number split at bits `lo` and `lo + n`. -/
theorem split_at_bits (y lo n : Nat) : y = 2 ^ (lo + n) * (y / 2 ^ (lo + n)) + (2 ^ lo * (y / 2 ^ lo % 2 ^ n) + y % 2 ^ lo) := by
  have h1 := Nat.div_add_mod y (2 ^ lo)
  have h2 := Nat.div_add_mod (y / 2 ^ lo) (2 ^ n)
  rw [Nat.div_div_eq_div_mul, ← Nat.pow_add] at h2
  calc y = 2 ^ lo * (y / 2 ^ lo) + y % 2 ^ lo := h1.symm
    _ = 2 ^ lo * (2 ^ n * (y / 2 ^ (lo + n)) + y / 2 ^ lo % 2 ^ n) + y % 2 ^ lo := by rw [h2]
    _ = _ := by rw [Nat.mul_add, ← Nat.mul_assoc, ← Nat.pow_add, Nat.add_assoc]

/-- The bits of a number put together from three fields. -/
theorem testBit_fields (hi f low lo n i : Nat) (hf : f < 2 ^ n) (hl : low < 2 ^ lo) :
    (2 ^ (lo + n) * hi + (2 ^ lo * f + low)).testBit i =
      if i < lo then low.testBit i else if i < lo + n then f.testBit (i - lo) else hi.testBit (i - (lo + n)) := by
  have b : 2 ^ lo * f + low < 2 ^ (lo + n) := by
    rw [Nat.pow_add]
    calc 2 ^ lo * f + low < 2 ^ lo * f + 2 ^ lo := by omega
      _ = 2 ^ lo * (f + 1) := by rw [Nat.mul_succ]
      _ ≤ 2 ^ lo * 2 ^ n := Nat.mul_le_mul_left _ hf
  rw [Nat.testBit_two_pow_mul_add _ b, Nat.testBit_two_pow_mul_add _ hl]
  split <;> split <;> first | rfl | omega

/-- The number a row holds after `n` bits from bit `lo` are replaced. -/
theorem toNat_putBits (r : BitVec 16384) (lo n x : Nat) (h : lo + n ≤ 16384) :
    (putBits r lo n x).toNat =
      2 ^ (lo + n) * (r.toNat / 2 ^ (lo + n)) + (2 ^ lo * (x % 2 ^ n) + r.toNat % 2 ^ lo) := by
  have e := split_at_bits r.toNat lo n
  have lt : 2 ^ (lo + n) * (r.toNat / 2 ^ (lo + n)) + (2 ^ lo * (x % 2 ^ n) + r.toNat % 2 ^ lo) < 2 ^ 16384 := by
    refine Nat.lt_pow_two_of_testBit _ fun i hi => ?_
    rw [testBit_fields _ _ _ _ _ _ (Nat.mod_lt _ (Nat.two_pow_pos n)) (Nat.mod_lt _ (Nat.two_pow_pos lo))]
    rw [if_neg (by omega), if_neg (by omega), Nat.testBit_div_two_pow]
    exact Nat.testBit_lt_two_pow (Nat.lt_of_lt_of_le r.isLt (Nat.pow_le_pow_right (by omega) (by omega)))
  unfold putBits
  rw [BitVec.toNat_ofNat, Nat.mod_eq_of_lt]
  all_goals
    rw [Nat.mul_comm (r.toNat / 2 ^ lo % 2 ^ n), Nat.mul_comm (x % 2 ^ n)]
    generalize 2 ^ lo * (r.toNat / 2 ^ lo % 2 ^ n) = f at *
    generalize 2 ^ lo * (x % 2 ^ n) = g at *
    omega

/-- A bit of a row after `n` bits from bit `lo` are replaced. -/
theorem testBit_putBits (r : BitVec 16384) (lo n x i : Nat) (h : lo + n ≤ 16384) :
    (putBits r lo n x).toNat.testBit i =
      if lo ≤ i ∧ i < lo + n then x.testBit (i - lo) else r.toNat.testBit i := by
  rw [toNat_putBits r lo n x h,
    testBit_fields _ _ _ _ _ _ (Nat.mod_lt _ (Nat.two_pow_pos n)) (Nat.mod_lt _ (Nat.two_pow_pos lo))]
  split
  · rw [if_neg (by omega), Nat.testBit_mod_two_pow]
    simp [*]
  · split
    · rw [if_pos (by omega), Nat.testBit_mod_two_pow]
      simp [show i - lo < n by omega]
    · rw [if_neg (by omega), Nat.testBit_div_two_pow]
      congr 1
      omega

/-- The field put in reads back. -/
theorem rowBits_putBits_same (r : BitVec 16384) (lo n x : Nat) (h : lo + n ≤ 16384) :
    rowBits (putBits r lo n x) lo n = x % 2 ^ n := by
  apply Nat.eq_of_testBit_eq
  intro i
  unfold rowBits
  rw [Nat.testBit_mod_two_pow, Nat.testBit_mod_two_pow, Nat.testBit_div_two_pow, testBit_putBits r lo n x _ h]
  by_cases c : i < n
  · rw [if_pos (by omega), Nat.add_sub_cancel]
  · simp [c]

/-- A field apart from it reads as before. -/
theorem rowBits_putBits_other (r : BitVec 16384) (lo n x lo' n' : Nat) (h : lo + n ≤ 16384)
    (d : lo' + n' ≤ lo ∨ lo + n ≤ lo') : rowBits (putBits r lo n x) lo' n' = rowBits r lo' n' := by
  apply Nat.eq_of_testBit_eq
  intro i
  unfold rowBits
  rw [Nat.testBit_mod_two_pow, Nat.testBit_mod_two_pow, Nat.testBit_div_two_pow, Nat.testBit_div_two_pow,
    testBit_putBits r lo n x _ h]
  by_cases c : i < n'
  · rw [if_neg (by omega)]
  · simp [c]

/-- An element written reads back, in the width written. -/
theorem vElem_setVElemH_same (v k e w y : Nat) (x : Hart) (h : (e + 1) * w ≤ 16384) :
    vElem (setVElemH v k e w y x) v k e w = y % 2 ^ w := by
  unfold vElem setVElemH
  rw [vRow_touchV, vRow_putRow, if_pos rfl]
  exact rowBits_putBits_same _ _ _ _ (by rw [Nat.add_mul, Nat.one_mul] at h; exact h)

/-- The other elements of the row, in that width, and every other row of the 32 registers read as before. -/
theorem vElem_setVElemH_other (v k e w y v' k' e' : Nat) (x : Hart) (h : (e + 1) * w ≤ 16384) (hk : k < 8) (hk' : k' < 8)
    (d : v' ≠ v ∨ k' ≠ k ∨ e' ≠ e) : vElem (setVElemH v k e w y x) v' k' e' w = vElem x v' k' e' w := by
  unfold vElem setVElemH
  rw [vRow_touchV, vRow_putRow]
  split
  · rename_i q
    have hv : v' = v := by omega
    have hkk : k' = k := by omega
    subst hv
    subst hkk
    have he : e' ≠ e := by omega
    rw [Nat.add_mul, Nat.one_mul] at h
    refine rowBits_putBits_other _ _ _ _ _ _ h ?_
    rcases Nat.lt_or_gt_of_ne he with l | g
    · left
      calc e' * w + w = (e' + 1) * w := by rw [Nat.add_mul, Nat.one_mul]
        _ ≤ e * w := Nat.mul_le_mul_right _ l
    · right
      calc e * w + w = (e + 1) * w := by rw [Nat.add_mul, Nat.one_mul]
        _ ≤ e' * w := Nat.mul_le_mul_right _ g
  · rfl

/-! ## Masks (R348) -/

theorem mRow_zero (x : Hart) (k : Nat) : mRow x 0 k = BitVec.allOnes 2048 := rfl

/-- A write of a bit of m0 is discarded. -/
theorem setMBitH_zero (k e : Nat) (b : Bool) (x : Hart) : setMBitH 0 k e b x = x := rfl

/-- A mask bit written leaves every other row of the masks as it was. -/
theorem mRow_setMBitH_other (m k e : Nat) (b : Bool) (x : Hart) (m' k' : Nat) (hk : k < 8) (hk' : k' < 8)
    (d : m' ≠ m ∨ k' ≠ k) : mRow (setMBitH m k e b x) m' k' = mRow x m' k' := by
  unfold setMBitH
  split
  · rfl
  · unfold mRow
    split
    · rfl
    · exact cget_cset_other _ (by omega) _ _

/-- The bits of a number with bit `e` taken out. -/
theorem testBit_sub_two_pow (r e i : Nat) (h : r.testBit e = true) :
    (r - 2 ^ e).testBit i = (r.testBit i && decide (i ≠ e)) := by
  have one : r / 2 ^ e % 2 ^ 1 = 1 := by
    rw [Nat.pow_one]
    simpa [Nat.testBit_eq_decide_div_mod_eq] using h
  have f := split_at_bits r e 1
  rw [one, Nat.mul_one] at f
  have g : r - 2 ^ e = 2 ^ (e + 1) * (r / 2 ^ (e + 1)) + (2 ^ e * 0 + r % 2 ^ e) := by omega
  rw [g, testBit_fields _ _ _ _ _ _ (by decide) (Nat.mod_lt _ (Nat.two_pow_pos e))]
  split
  · rw [Nat.testBit_mod_two_pow]
    rw [decide_eq_true (show i < e by omega), decide_eq_true (show i ≠ e by omega), Bool.true_and, Bool.and_true]
  · split
    · have : i = e := by omega
      simp [this]
    · have : i ≠ e := by omega
      rw [Nat.testBit_div_two_pow]
      simp [this, show i - (e + 1) + (e + 1) = i by omega]

/-- The bits of a mask row after a write of one of them. -/
theorem mBit_setMBitH (m k e : Nat) (b : Bool) (x : Hart) (hm : m ≠ 0) (i : Nat) (hi : i < 2048) :
    mBit (setMBitH m k e b x) m k i = if i = e then b else mBit x m k i := by
  unfold setMBitH
  rw [if_neg hm]
  unfold mBit mRow
  rw [if_neg hm, if_neg hm, cget_cset_same]
  generalize cget 0 (8 * m + k) x.r.m = r
  rw [BitVec.getLsbD_ofNat]
  simp only [hi, decide_true, Bool.true_and]
  rw [show r.getLsbD i = r.toNat.testBit i from rfl]
  cases b
  · simp only [Bool.false_eq_true, if_false]
    by_cases c : r.toNat.testBit e = true
    · rw [if_pos c, testBit_sub_two_pow _ _ _ c]
      by_cases ie : i = e <;> simp [ie]
    · rw [if_neg c]
      by_cases ie : i = e
      · subst ie
        simpa using c
      · simp [ie]
  · simp only [if_true, Nat.testBit_or, Nat.testBit_two_pow]
    by_cases ie : i = e
    · simp [ie]
    · have : e ≠ i := fun h => ie h.symm
      simp [ie, this]

end Sys2Proof.Machine
end

