-- ==== Sys2Proof/Laws/Sha.lean ====
section
/-! SUPPORT. A digest has 32 bytes. -/

namespace Sys2Proof.Machine

theorem shaRounds_lengths (l : List Nat) (f : Nat → BitVec 32) (x : ShaWork) (hp : x.p.length = 4) (hq : x.q.length = 4) :
    let y := l.foldl (fun x i => shaTurn (f i) x) x
    y.p.length = 4 ∧ y.q.length = 4 := by
  induction l generalizing x with
  | nil => exact ⟨hp, hq⟩
  | cons i l ih => exact ih _ (by simp [shaTurn, hp]) (by simp [shaTurn, hq])

theorem shaBlock_length (st : List (BitVec 32)) (bs : List Byte) (h : st.length = 8) : (shaBlock st bs).length = 8 := by
  have := shaRounds_lengths (List.range 64) (fun i => packedWord (roundRow (i / 16)) 16 (i % 16))
    { win := (List.range 16).map (blockWord bs), p := st.take 4, q := st.drop 4 } (by simp [h]) (by simp [h])
  simp [shaBlock, h, this.1, this.2]

theorem shaTake_length (n : Nat) (st : List (BitVec 32)) (bs : List Byte) (h : st.length = 8) : (shaTake n st bs).1.length = 8 := by
  induction n generalizing st bs with
  | zero => exact h
  | succ n ih =>
    unfold shaTake
    split
    · exact h
    · exact ih _ _ (shaBlock_length _ _ h)

@[simp] theorem sha256_length (bs : List Byte) : (sha256 bs).length = 32 := by
  simp [sha256, shaEnd, shaFeed, shaTake_length, shaInit]

end Sys2Proof.Machine
end

