-- ==== Sys2Proof/Tests/Slice0.lean ====
section
/-! SUPPORT. Tests of the model: decoding of words written out from the spec's encodings, terms and words that are refused,
single steps with results worked out by hand, and, for every obligation with hypotheses, states that meet them (hyp_<Name>). -/

set_option maxRecDepth 100000

namespace Sys2Proof.Tests

open Sys2Proof Sys2Proof.Machine

/-! ## Decoding

Each word is put together from the fields of R300 to R302 and R308 to R310 as the instruction's description places them. -/

def decodesAs (n : Nat) (l : List (Nat × Instr)) : Bool := l.all (fun p => decodeTableWord n p.1 == some p.2)

/-- R300, R308, R320, R321: class 00, operation in bits 7:2, gd 12:8, ga 17:13, gb 22:18, .u bit 23, .w bit 24. -/
theorem test_decode_integer : decodesAs 32 [
    (0x00148300, .add false 3 4 5),
    (0x01148304, .sub true 3 4 5),
    (0x00148308, .and false 3 4 5),
    (0x0114830C, .or true 3 4 5),
    (0x00148310, .xor false 3 4 5),
    (0x01148314, .shl true 3 4 5),
    (0x00148318, .shr false 3 4 5),
    (0x0114831C, .sar true 3 4 5),
    (0x00148320, .mul false 3 4 5),
    (0x00A0E624, .mulh true false 6 7 8),
    (0x0120E628, .div false true 6 7 8),
    (0x01A0E62C, .rem true true 6 7 8),
    (0x0020E630, .min false false 6 7 8),
    (0x00A0E634, .max true false 6 7 8),
    (0x0120E638, .slt false true 6 7 8),
    (0x0101493C, .clz true 9 10),
    (0x00014940, .ctz false 9 10),
    (0x01014944, .popc true 9 10),
    (0x00B58B48, .ext true false 11 12 13)] = true := by decide

/-- R300, R308, R323, R324: imm14 in bits 31:18, a shift count in 23:18, LIH imm19 in 31:13. -/
theorem test_decode_immediates : decodesAs 32 [
    (0xA96D284C, .addi 8 9 0x2A5B),
    (0xA96D2850, .andi 8 9 0x2A5B),
    (0xA96D2854, .ori 8 9 0x2A5B),
    (0xA96D2858, .xori 8 9 0x2A5B),
    (0xA96D2868, .slti 8 9 0x2A5B),
    (0x00B5285C, .shli 8 9 45),
    (0x00B52860, .shri 8 9 45),
    (0x00B52864, .sari 8 9 45),
    (0xB234476C, .lih 7 0x591A2)] = true := by decide

/-- R308, R325 to R330: type in bits 24:23, rounding 26:25, condition or source type from 27; queue in 10:8 or 15:13. -/
theorem test_decode_float_and_queues : decodesAs 32 [
    (0x030C4170, .fadd 2 1 1 2 3),
    (0x030C4174, .fsub 2 1 1 2 3),
    (0x030C4178, .fmul 2 1 1 2 3),
    (0x030C417C, .fdiv 2 1 1 2 3),
    (0x030C4184, .fma 2 1 1 2 3),
    (0x06804180, .fsqrt 1 3 1 2),
    (0x0098A488, .fmin 1 4 5 6),
    (0x0098A48C, .fmax 1 4 5 6),
    (0x0918A490, .fcmp 1 2 4 5 6),
    (0x0D80A494, .fcvt 3 1 2 4 5),
    (0x0001E298, .qput 2 15),
    (0x0000CE9C, .qget 14 6),
    (0x00008EA0, .qstat 14 4),
    (0x000000A4, .gbar)] = true := by decide

/-- R300, R309, R331 to R335: class 01; the immediate of a store is bits 31:23 over 12:8; AMO operation 25:23, .w 26, acq 27, rel 28, scope 31:29. -/
theorem test_decode_memory : decodesAs 32 [
    (0xFFC10901, .ldB 9 8 0x3FF0),
    (0xFFC50905, .ldH 9 8 0x3FF1),
    (0xFFC90909, .ldW 9 8 0x3FF2),
    (0xFFCD090D, .ldD 9 8 0x3FF3),
    (0xFFD10911, .ldBu 9 8 0x3FF4),
    (0xFFD50915, .ldHu 9 8 0x3FF5),
    (0xFFD90919, .ldWu 9 8 0x3FF6),
    (0x48B5D41D, .stB 14 13 0x1234),
    (0x48B5D521, .stH 14 13 0x1235),
    (0x48B5D625, .stW 14 13 0x1236),
    (0x48B5D729, .stD 14 13 0x1237),
    (0x8825072D, .amoSwap ⟨false, true, false, 4⟩ 7 8 9),
    (0x8CA5072D, .amoAdd ⟨true, true, false, 4⟩ 7 8 9),
    (0x8925072D, .amoAnd ⟨false, true, false, 4⟩ 7 8 9),
    (0x8DA5072D, .amoOr ⟨true, true, false, 4⟩ 7 8 9),
    (0x8A25072D, .amoXor ⟨false, true, false, 4⟩ 7 8 9),
    (0x8EA5072D, .amoMin ⟨true, true, false, 4⟩ 7 8 9),
    (0x8B25072D, .amoMax ⟨false, true, false, 4⟩ 7 8 9),
    (0xD0250731, .cas ⟨false, false, true, 6⟩ 7 8 9)] = true := by decide

/-- R300, R304, R309, R336 to R345: branches hold imm14 as stores do, jumps imm19 in 31:13, CSR numbers in 31:18; a convoy header is class 11 with 4:2 zero, CNT 7:5 and units from bit 8. -/
theorem test_decode_control : decodesAs 32 [
    (0xA81CC135, .beq 6 7 0x2A01),
    (0xA81CC239, .bne 6 7 0x2A02),
    (0xA81CC33D, .blt 6 7 0x2A03),
    (0xA81CC441, .bge 6 7 0x2A04),
    (0xA81CC545, .bltu 6 7 0x2A05),
    (0xA81CC649, .bgeu 6 7 0x2A06),
    (0x7C00A34D, .bany 5 0x1F03),
    (0x7C00A451, .ball 5 0x1F04),
    (0x7C00A555, .bnone 5 0x1F05),
    (0x80002059, .jmp 0x40001),
    (0x2468A15D, .call 1 0x12345),
    (0xFFF04161, .jr 1 2 0x3FFC),
    (0x004C0065, .fence 3 false true),
    (0x020C0069, .sbar 0x83),
    (0x01000A6D, .csrr 10 0x40),
    (0x01596071, .csrw 11 0x56),
    (0x01016A75, .csrs 10 11 0x40),
    (0x01556A79, .csrc 10 11 0x55),
    (0x8D14007D, .trap 0x2345),
    (0x00180081, .brk 6),
    (0x00000085, .eret),
    (0x00000089, .wfe),
    (0x0000008D, .halt),
    (0x00008F23, .convoyHeader 0x8F 1),
    (0x00000007, .nop32)] = true := by decide

/-- R302, R310, R351 to R354: vd 14:10, va 19:15, vb 24:20, mask 32:30, inv 33, ew 35:34, fmt 39:36, bs 43, row 44, func 47:45, imm16 63:48. -/
theorem test_decode_masks : decodesAs 64 [
    (0x0000000800031C02, .vsetl 2 7 6),
    (0x0000000000031C06, .vsetr 7 6),
    (0x0000000000031C0A, .lanes 7 6),
    (0xFFF0000000001C0E, .forkl 7 0xFFF0),
    (0x0000000000030012, .joinl 6),
    (0x0000000000000C16, .msetAll 3 none),
    (0x0006300000000C16, .msetNone 3 (some 6)),
    (0x0000400000048C16, .msetLt 3 9 none),
    (0x0002700400048C16, .msetNz 1 3 9 (some 2)),
    (0x0000A00000208C1A, .mlogic 5 3 1 2 none),
    (0x000000000001A81E, .mpopc 10 3),
    (0x000020000001941E, .mpopcQ 5 3),
    (0x000000000001A822, .mfirst 10 3),
    (0x0000200000019022, .mfirstQ 4 3),
    (0x80002016C0520826, .vcmp 1 2 4 (.v 5) .bf16 0 ⟨3, true⟩ none),
    (0x4000680C00520826, .vcmp 3 2 4 (.g 5) (.uint 3) 0 ⟨0, false⟩ none)] = true := by decide

/-- R302, R355, R356. -/
theorem test_decode_moves : decodesAs 64 [
    (0x000008080000CC2A, .vget false 2 19 1 0),
    (0x0000280C0070902A, .vgetQ false 3 4 1 7),
    (0x000008040073142E, .vput 1 5 6 7),
    (0x000000088003147E, .vmov 2 5 6 ⟨2, false⟩ none),
    (0x0000080800801482, .vsplat 2 5 8 ⟨0, false⟩ none),
    (0xFFFE200800001882, .vsplatImm 2 6 0xFFFE ⟨0, false⟩ false),
    (0x0000400800011882, .vsplatQ 2 6 2 ⟨0, false⟩ none),
    (0x0000080000839886, .viota 0 6 7 8 ⟨0, false⟩ none),
    (0x000000050031047A, .vsel 1 1 2 3 ⟨4, false⟩ none)] = true := by decide

/-- R302, R346, R357: imm16 bit 15 marks a floating-point type, whose code is in fmt, and bit 14 an unsigned one. -/
theorem test_decode_vector_arithmetic : decodesAs 64 [
    (0x8004172740310442, .vadd ⟨1, 2, .v 3, .f16, 3, true, ⟨5, true⟩, some 4⟩),
    (0x8004172740310446, .vsub ⟨1, 2, .v 3, .f16, 3, true, ⟨5, true⟩, some 4⟩),
    (0x800417274031044A, .vmul ⟨1, 2, .v 3, .f16, 3, true, ⟨5, true⟩, some 4⟩),
    (0x800417274031044E, .vfma ⟨1, 2, .v 3, .f16, 3, true, ⟨5, true⟩, some 4⟩),
    (0x8000090800310452, .vdiv ⟨1, 2, .g 3, .f32, 1, false, ⟨0, false⟩, none⟩),
    (0x4000000C00310456, .vmin ⟨1, 2, .v 3, .uint 3, 0, false, ⟨0, false⟩, none⟩),
    (0x4000000C0031045A, .vmax ⟨1, 2, .v 3, .uint 3, 0, false, ⟨0, false⟩, none⟩),
    (0x000004004001045E, .vabs ⟨1, 2, .sint 0, true, ⟨1, false⟩, none⟩),
    (0x0000040040010462, .vneg ⟨1, 2, .sint 0, true, ⟨1, false⟩, none⟩),
    (0x0000000400310466, .vand ⟨1, 2, .v 3, .sint 1, 0, false, ⟨0, false⟩, none⟩),
    (0x000000040031046A, .vor ⟨1, 2, .v 3, .sint 1, 0, false, ⟨0, false⟩, none⟩),
    (0x000000040031046E, .vxor ⟨1, 2, .v 3, .sint 1, 0, false, ⟨0, false⟩, none⟩),
    (0x0000000400310472, .vshl ⟨1, 2, .v 3, .sint 1, 0, false, ⟨0, false⟩, none⟩),
    (0x4000000C00310476, .vshr ⟨1, 2, .v 3, .uint 3, 0, false, ⟨0, false⟩, none⟩)] = true := by decide

/-- R302, R358 to R363. -/
theorem test_decode_functions_and_conversion : decodesAs 64 [
    (0x0000C60800010502, .vsfu 6 0 2 true 1 2 ⟨0, false⟩ none),
    (0x0001053000010506, .vcvt (.fmt 3 1) 1 true 1 2 ⟨0, false⟩ false),
    (0x0000200400010506, .vcvt (.fromInt false 1 0) 0 false 1 2 ⟨0, false⟩ false),
    (0x0000801800010506, .vcvt (.toInt true 2 1) 0 false 1 2 ⟨0, false⟩ false),
    (0x000001080001050A, .vhad 0 1 1 2 none),
    (0x000109300031050E, .vqnt ⟨1, 2, 3, 3, 1, 1, false, ⟨0, false⟩, false⟩),
    (0x000228A00031050E, .vqntSc ⟨1, 2, 3, 10, 2, 0, false, ⟨0, false⟩, false⟩),
    (0x0007281400310512, .vdqnt true ⟨1, 2, 3, 1, 7, 0, false, ⟨0, false⟩, false⟩),
    (0x092008E800310516, .vlut 2 9 0 1 2 3 ⟨0, false⟩)] = true := by decide

/-- R302, R364 to R369. -/
theorem test_decode_reductions : decodesAs 64 [
    (0x8000080800C22D42, .vred ⟨0, .f32, 0, false, 11, 4, 12, ⟨0, false⟩⟩),
    (0x0001680400C22D42, .vredRow ⟨3, .sint 1, 0, false, 11, 4, 12, ⟨0, false⟩⟩),
    (0x4002480C00C21542, .vredQ ⟨2, .uint 3, 0, false, 5, 4, 12, ⟨0, false⟩⟩),
    (0x8002091400C20D46, .vscan true ⟨0, .bf16, 1, false, 3, 4, 12, ⟨0, false⟩⟩),
    (0x000008080031054A, .vslideUp (.g 3) 2 1 2 ⟨0, false⟩),
    (0x123460080001054A, .vslideDn (.imm 0x1234) 2 1 2 ⟨0, false⟩),
    (0x000020040031054E, .vperm true 1 1 2 3 ⟨0, false⟩),
    (0x00000001C0010552, .vcomp 0 1 2 ⟨7, false⟩),
    (0x8000080800310556, .vtopkIdx ⟨.f32, 0, 1, 2, 3, ⟨0, false⟩⟩),
    (0x8000282400310556, .vtopkKey ⟨.f16, 0, 1, 2, 3, ⟨0, false⟩⟩),
    (0x0000480000311956, .vtopkMask ⟨.sint 0, 0, 6, 2, 3, ⟨0, false⟩⟩)] = true := by decide

/-- R302, R370 to R378. -/
theorem test_decode_vector_memory_and_loops : decodesAs 64 [
    (0xFFFC280800940582, .vld ⟨2, .strided 9, 1, 8, 0xFFFC, ⟨0, false⟩, false⟩),
    (0x0008480C00940586, .vst ⟨3, .rows 9, 1, 8, 8, ⟨0, false⟩, false⟩),
    (0x000400088064058A, .vldx ⟨2, 1, 8, 4, 6, ⟨2, false⟩, false⟩),
    (0x000000080064158E, .vstxOrd ⟨2, 5, 8, 0, 6, ⟨0, false⟩, false⟩),
    (0x000020040064158E, .vstxAny ⟨1, 5, 8, 0, 6, ⟨0, false⟩, false⟩),
    (0x81FF00080E640592, .vamo ⟨0, .f32, 0, 1, 8, 6, 7, 0x1FF, ⟨0, false⟩, false⟩),
    (0x0000000C1A070196, .vwait 0 3 14 13 .single ⟨0, false⟩),
    (0x000200000004059A, .vbind 1 8 2),
    (0x000000000000059E, .vunbind 1),
    (0x0020000000000202, .lcap 32),
    (0x0000080000941606, .lnest 5 (.all 9) 8),
    (0x0000600000041206, .lnest 4 (.stride 2) 8),
    (0x0000A00000041206, .lnest 4 .cnt 8),
    (0x000D00000000020A, .lrun true 5),
    (0x000000000000020E, .lwait)] = true := by decide

/-- R302, R382 to R388. -/
theorem test_decode_matrix : decodesAs 64 [
    (0x0000000000001E42, .mattach 7),
    (0x0000000000000246, .mdetach),
    (0x004B00000000024A, .mtile 3 1 2),
    (0x000520000000024A, .mtileOff 5),
    (0x000600000000024E, .mclr 6),
    (0x0000080000900252, .mpredRows 9),
    (0x0000280000900252, .mpredCols 9),
    (0x0000480000900252, .mpredK 9),
    (0x0000600000018252, .mpredRowm 3),
    (0x0000800000018252, .mpredColm 3),
    (0x0000A00000000252, .mpredAll),
    (0x001208103DDE0256, .mksum false 2 1 1 0 28 29 30),
    (0x000B000000001E62, .mgroup 7 0xB)] = true := by decide

/-- R302, R389, R390: the register of a write form and the address register are va. -/
theorem test_decode_tile_moves : decodesAs 64 [
    (0x00030A1440A0265A, .mlineRrow ⟨3, 1, 2, false, 9, 10, ⟨1, false⟩⟩),
    (0x00032A1440A0265A, .mlineRcol ⟨3, 1, 2, false, 9, 10, ⟨1, false⟩⟩),
    (0x0003481440A4825A, .mlineWrow ⟨3, 1, 0, false, 9, 10, ⟨1, false⟩⟩),
    (0x0003681440A4825A, .mlineWcol ⟨3, 1, 0, false, 9, 10, ⟨1, false⟩⟩),
    (0x0003880800A4825A, .mlineSt ⟨3, 0, 0, false, 9, 10⟩),
    (0x0003A82400A4825A, .mlineLd ⟨3, 2, 0, false, 9, 10⟩),
    (0x000808080000265E, .mdrain true ⟨0, 0, 0, false, 9, 0, ⟨0, false⟩⟩),
    (0x0007280800A4825E, .mdrainSt false ⟨7, 0, 0, false, 9, 10⟩)] = true := by decide

/-- R302, R391 to R398. -/
theorem test_decode_kv : decodesAs 64 [
    (0x0000080000041E82, .kvctxCfg 7 8 0),
    (0x0000280000041E82, .kvctxOpen 7 8 0),
    (0x0000480000041E82, .kvctxClose 7 8 0),
    (0x0000680000941E82, .kvctxCb 7 8 9),
    (0x0000880000041E82, .kvctxPin 7 8 0),
    (0x0000000806240286, .kvapp 0 8 2 3 ⟨0, false⟩),
    (0x000005148004068A, .kvld 1 1 true 1 8 ⟨2, false⟩ none),
    (0x000000180014928E, .kvscore 1 4 9 1 ⟨0, false⟩ none),
    (0x000000E804149292, .kvvqsLut 4 9 1 2 ⟨0, false⟩ none),
    (0x002020E800149292, .kvvqsQ 2 4 9 1 ⟨0, false⟩ none),
    (0x0000000800550296, .kvacc 10 5 ⟨0, false⟩ none),
    (0x0000080000941E9A, .kvcomp 7 8 9),
    (0x000008000094029E, .kvfree 8 9)] = true := by decide

/-- R302, R399 to R402. -/
theorem test_decode_statistics_and_recurrence : decodesAs 64 [
    (0x00000808009012C2, .srread 4 9),
    (0x00000800009402C6, .srreset 9 8),
    (0x0003080014941ECA, .srbind 7 3 8 9 10),
    (0x0000200840308B62, .lconv true 0 0 false 2 1 3 1),
    (0x0000021400000B66, .lcstateGet 1 2 2),
    (0x0000202400010366, .lcstatePut 2 2),
    (0x0000400000000366, .lcstateZero)] = true := by decide

/-- R302, R403 to R411. -/
theorem test_decode_copies_and_rings : decodesAs 64 [
    (0x00C50800016AD302, .cpy ⟨false, 3, 5, 20, 21, 22⟩),
    (0x003F2800016AD302, .cpyFill ⟨false, 0, 63, 20, 21, 22⟩),
    (0x00014800016AD302, .cpyHash ⟨false, 0, 1, 20, 21, 22⟩),
    (0x07820800016AD302, .cpyRing ⟨true, 6, 2, 20, 21, 22⟩),
    (0x00000000000C8306, .twait 0 25),
    (0x00002000000C8706, .twaitAny 1 25),
    (0x00000000000C9F0A, .tfirst 7 25),
    (0x00002000000C9F0A, .tfirstNw 7 25),
    (0x00000000000C9F0E, .tclr 7 25),
    (0x000F0000002402E2, .rpush 8 2 15),
    (0x0003000000040AE6, .rpull 2 8 3),
    (0x00000000000402EA, .reos 8),
    (0x0000000000041EEE, .rstat 7 8),
    (0x00002000000402EE, .rstatReset 8)] = true := by decide

/-- R65, R302, R413 to R421. -/
theorem test_decode_reversal_and_system : decodesAs 64 [
    (0x0000000000048342, .revch 9),
    (0x0000000000000346, .revret),
    (0x00C4000000002B4A, .revst 10 4 12),
    (0x000000000000034E, .revabt),
    (0x0000004100202382, .ldi 2 8 0x41),
    (0xFFFFFFF00004A386, .addil 8 9 0xFFFFFFF0),
    (0x000100000000078A, .callf 1 0x10000),
    (0x000000200011078A, .callfR 1 2 0x20),
    (0x00000000000403C2, .savev 8),
    (0x00000000000403C6, .restv 8),
    (0x00000000000003CA, .stepb),
    (0x0000080000941FCE, .markres 7 8 9),
    (0x0000080000941FD2, .tlbinv 7 8 9),
    (0x0000280000941FD2, .tlbinvMove 7 8 9),
    (0x0000480000941FD2, .tlbinvWait 7 8 9),
    (0x0000680000001FD2, .tlbinvAll 7)] = true := by decide

/-! ## Terms that are no instruction, and words that are refused

One term for each check of `Instr.wellFormed`, next to what the description says. -/

def all0 : MaskSel := ⟨0, false⟩
/-- R302: mask 0 with inv 1 is no encoding. -/
def bad0 : MaskSel := ⟨0, true⟩

/-- R309, R312, R313, R325, R329, R334, R337, R339: formats and scopes of the scalar classes, queue numbers, unlisted CSRs. -/
theorem test_illFormed_scalar : [Instr.fadd 3 0 1 2 3, .fsub 3 0 1 2 3, .fmul 3 0 1 2 3, .fdiv 3 0 1 2 3, .fsqrt 3 0 1 2, .fma 3 0 1 2 3,
    .fmin 3 1 2 3, .fmax 3 1 2 3, .fcmp 0 3 1 2 3, .fcvt 3 3 0 1 2, .qput 4 1, .qput 5 1, .qget 1 3, .amoSwap ⟨true, false, false, 7⟩ 1 2 3,
    .amoAdd ⟨false, false, false, 1⟩ 1 2 3, .amoAnd ⟨true, true, false, 7⟩ 1 2 3, .amoOr ⟨true, true, false, 7⟩ 1 2 3,
    .amoXor ⟨true, true, false, 7⟩ 1 2 3, .amoMin ⟨true, true, false, 7⟩ 1 2 3, .amoMax ⟨true, true, false, 7⟩ 1 2 3,
    .cas ⟨false, false, false, 2⟩ 1 2 3, .fence 7 true false, .fence 0 true true, .csrr 1 7, .csrw 1 0x59, .csrs 1 2 0x23, .csrc 1 2 0x3FFF].all
      (fun i => !i.wellFormed) = true := by decide

/-- R305: no unit, a gap, a unit twice, unit 7 not first, six instructions with unit 7 first, a count of 7. -/
theorem test_illFormed_headers : [Instr.convoyHeader 0 0, .convoyHeader 0x40 0, .convoyHeader 0x9 0, .convoyHeader 0x3A 0,
    .convoyHeader 0x2C8D1F 4, .convoyHeader 0x11 5].all (fun i => !i.wellFormed) = true := by decide

/-- R302, R346, R353 to R357: masks, rounding of integers, conditions, saturation. -/
theorem test_illFormed_elements : [Instr.mpopcQ 3 1, .mfirstQ 6 1, .vgetQ false 0 3 1 2, .vcmp 7 1 2 (.v 3) (.sint 2) 0 all0 none,
    .vcmp 6 1 2 (.v 3) (.sint 2) 0 all0 none, .vcmp 0 1 2 (.v 3) (.uint 2) 1 all0 none, .vcmp 0 1 2 (.v 3) .f32 0 bad0 none, .vmov 2 1 2 bad0 none,
    .vsplat 2 1 2 bad0 none, .vsplatImm 2 1 5 bad0 false, .vsplatQ 2 1 0 bad0 none, .viota 2 1 2 3 bad0 none, .vsel 2 1 2 3 bad0 none,
    .vadd ⟨1, 2, .v 3, .sint 2, 1, false, all0, none⟩, .vsub ⟨1, 2, .v 3, .f32, 0, false, bad0, none⟩, .vmul ⟨1, 2, .v 3, .uint 0, 3, false, all0, none⟩,
    .vfma ⟨1, 2, .v 3, .f32, 0, false, bad0, none⟩, .vdiv ⟨1, 2, .v 3, .f32, 0, true, all0, none⟩, .vmin ⟨1, 2, .v 3, .f32, 1, false, all0, none⟩,
    .vmax ⟨1, 2, .v 3, .f32, 0, true, all0, none⟩, .vabs ⟨1, 2, .f32, true, all0, none⟩, .vneg ⟨1, 2, .sint 2, false, bad0, none⟩,
    .vand ⟨1, 2, .v 3, .uint 2, 0, false, all0, none⟩, .vor ⟨1, 2, .v 3, .f32, 0, false, all0, none⟩, .vxor ⟨1, 2, .v 3, .sint 2, 0, true, all0, none⟩,
    .vshl ⟨1, 2, .v 3, .f16, 0, false, all0, none⟩, .vshr ⟨1, 2, .v 3, .bf16, 0, false, all0, none⟩].all (fun i => !i.wellFormed) = true := by decide

/-- R358 to R369: formats of functions, conversions and quantising, operations of reductions. -/
theorem test_illFormed_functions : [Instr.vsfu 0 3 0 false 1 2 all0 none, .vsfu 0 0 0 false 1 2 bad0 none, .vcvt (.fmt 9 0) 0 false 1 2 all0 false,
    .vcvt (.fmt 0 12) 0 false 1 2 all0 false, .vcvt (.fromInt false 2 13) 0 false 1 2 all0 false, .vcvt (.toInt false 2 9) 0 false 1 2 all0 false,
    .vcvt (.fmt 0 1) 0 false 1 2 bad0 false, .vhad 3 0 1 2 none, .vqnt ⟨1, 2, 3, 6, 0, 0, false, all0, false⟩, .vqnt ⟨1, 2, 3, 7, 3, 0, false, all0, false⟩,
    .vqntSc ⟨1, 2, 3, 7, 0, 0, true, all0, false⟩, .vdqnt false ⟨1, 2, 3, 3, 7, 0, false, all0, false⟩, .vdqnt true ⟨1, 2, 3, 0, 2, 0, false, all0, false⟩,
    .vlut 3 0 0 1 2 3 all0, .vred ⟨7, .sint 2, 0, false, 1, 2, 3, all0⟩, .vredRow ⟨3, .f32, 0, false, 1, 2, 3, all0⟩,
    .vredQ ⟨0, .f32, 0, false, 3, 2, 3, all0⟩, .vscan true ⟨5, .f16, 0, false, 1, 2, 3, all0⟩, .vslideUp (.g 1) 2 1 2 bad0, .vslideDn (.g 1) 2 1 2 bad0,
    .vperm true 2 1 2 3 bad0, .vcomp 2 1 2 bad0, .vtopkIdx ⟨.sint 2, 1, 1, 2, 3, all0⟩, .vtopkKey ⟨.f32, 0, 1, 2, 3, bad0⟩,
    .vtopkMask ⟨.f32, 0, 8, 2, 3, all0⟩].all (fun i => !i.wellFormed) = true := by decide

/-- R370 to R378, R384 to R402: memory, waits, nests, K-sums, KV and recurrence. -/
theorem test_illFormed_units : [Instr.vld ⟨2, .unit, 1, 2, 3, bad0, false⟩, .vst ⟨2, .unit, 1, 2, 3, bad0, false⟩, .vldx ⟨2, 1, 2, 0, 3, bad0, false⟩,
    .vstxOrd ⟨2, 1, 2, 0, 3, bad0, false⟩, .vstxAny ⟨2, 1, 2, 0, 3, bad0, false⟩, .vamo ⟨0, .sint 1, 0, 1, 2, 3, 4, 0, all0, false⟩,
    .vamo ⟨2, .f32, 0, 1, 2, 3, 4, 0, all0, false⟩, .vamo ⟨7, .sint 2, 0, 1, 2, 3, 4, 0, all0, false⟩, .vwait 6 3 1 2 .single all0,
    .vwait 0 3 1 2 .single ⟨1, false⟩, .lcap 0, .lcap 33, .lnest 6 .cnt 1, .lrun false 7, .mksum false 0 0 1 0 1 2 3, .mksum false 0 9 7 0 1 2 3,
    .mlineRrow ⟨0, 3, 0, false, 2, 3, all0⟩, .mlineRcol ⟨0, 1, 0, false, 2, 3, bad0⟩, .mlineWrow ⟨0, 3, 0, false, 2, 3, all0⟩, .mlineWcol ⟨0, 3, 0, false, 2, 3, all0⟩,
    .mlineSt ⟨0, 3, 0, false, 1, 2⟩, .mlineLd ⟨0, 3, 0, false, 1, 2⟩, .mdrain true ⟨0, 3, 0, false, 2, 3, all0⟩, .mdrainSt true ⟨0, 3, 0, false, 1, 2⟩].all
      (fun i => !i.wellFormed) = true := by decide

theorem test_illFormed_services : [Instr.kvctxCfg 7 8 9, .kvctxOpen 7 8 9, .kvctxClose 7 8 9, .kvctxPin 7 8 9, .kvapp 3 1 2 3 all0, .kvld 3 0 false 1 2 all0 none, .kvscore 0 1 2 3 bad0 none, .kvvqsLut 1 2 3 4 bad0 none,
    .kvvqsQ 3 1 2 3 all0 none, .kvacc 1 2 bad0 none, .lconv true 3 0 false 1 2 3 0, .lcstateGet 3 0 1, .lcstatePut 3 1, .cpy ⟨false, 7, 0, 1, 2, 3⟩,
    .cpyRing ⟨false, 7, 0, 1, 2, 3⟩, .cpyFill ⟨true, 0, 0, 1, 2, 3⟩, .cpyHash ⟨false, 7, 0, 1, 2, 3⟩, .revst 1 5 0, .revst 1 0 3, .revst 1 0 15,
    .ldi 3 1 0].all (fun i => !i.wellFormed) = true := by decide

/-- R299 to R302, R307, R337, R305: words that the decoder refuses, by name, each a good word but for one field. -/
theorem test_refused :
    decodeParcel 0x001483FC = .error .reservedMajor ∧ decodeParcel 0x00000027 = .error .reservedControl ∧ decodeParcel 0x0000000F = .error .reservedControl ∧
    decodeParcel 0x02148300 = .error .reservedField ∧ decodeParcel 0x001C0A6D = .error .unlistedCsr ∧
    decodeParcel 0x00000003 = .error .badConvoy ∧ decodeLong 0x0000000000000FFE = .error .reservedMajor ∧
    decodeLong 0x0000400800031C02 = .error .reservedField ∧ decodeBytes [0x4C, 0x08, 0x01] = .error .truncated ∧
    decodeBytes [0x02, 0x1C, 0x03, 0x00, 0x08, 0x00, 0x00] = .error .truncated := by decide

/-! ## States of the witnesses -/

/-- The tables that translate the low 4 GiB of a context to the first tier-2 pages, all rights, A and D set (R45 to R48):
the pointer 0x10000000091, and at 0x800 the leaf 0x1000000B01F. -/
def tables : List Host.Cell :=
  [(0x10000000000, 0x91), (0x10000000005, 1), (0x10000000800, 0x1F), (0x10000000801, 0xB0), (0x10000000805, 1)]

/-- An entry and a region that admit every request of partition 1 (R25, R26). -/
def anyEntry : BitVec 64 := BitVec.ofNat 64 (2 ^ 63 + 15 * 2 ^ 52 + 2 ^ 51 + 2 ^ 16)
def anyRegion : BitVec 128 := BitVec.ofNat 128 (2 ^ 63 + 15 * 2 ^ 52 + 127 * 2 ^ 56 + (2 ^ 28 - 1) * 2 ^ 80)

/-- A hart of partition 1 that runs at 0x2000 with two rows of four elements, g8 = 0x8000, g9 = 3, g10 = 8. -/
def hart : Hart :=
  { Hart.reset with run := .running, pc := 0x2000, part := 1, troot := 0x10000000000, vl := 4, rc := 2,
                    r := { Regs.reset with g := [(8, 0x8000), (9, 3), (10, 8)] },
                    t := { TrapCsrs.reset with vec := 0x400, frame := 0x40000 } }

/-- A channel's entries for harts, command cores, engines, the matrix unit and the fill agent of die 0. -/
def channel (n : Nat) : List (Nat × BitVec 64) :=
  [0, 0x2000, 0x4000, 0x6000, 0xC008].map (fun m => ((256 + n) * 65536 + m, anyEntry))

/-- A context of partition 1. -/
def part1 : Part := { Part.reset with live := true, contexts := [⟨0x10000000000, 0⟩] }

/-- Hart 0 as above; the masters may access tier 2 through its channels 0, 4 and 8, which hold pages 0, 4 and 8. -/
def base : State :=
  { State.reset with
    mem := tables
    accE := channel 0 ++ channel 4 ++ channel 8
    accD := [(256 * 256, anyRegion), (260 * 256, anyRegion), (264 * 256, anyRegion)]
    parts := [(1, part1)]
    harts := [(0, hart)] }

/-- The same with its hart changed. -/
def with' (f : Hart → Hart) : State := { base with harts := [(0, f hart)] }

/-! ## Outcomes of accesses -/

def okAnd {α : Type} (p : α → State → Bool) : MR α → Bool
  | .ok a s => p a s
  | _ => false

def isBad {α : Type} : MR α → Bool
  | .bad _ _ => true
  | _ => false

theorem of_okAnd {α : Type} {p : α → State → Bool} {m : MR α} (h : okAnd p m = true) : ∃ a s, m = .ok a s ∧ p a s = true := by
  cases m with
  | ok a s => exact ⟨a, s, rfl, h⟩
  | bad f s => simp [okAnd] at h
  | wait s => simp [okAnd] at h

theorem of_ok {α : Type} {m : MR α} (h : okAnd (fun _ _ => true) m = true) : ∃ a s, m = .ok a s :=
  (of_okAnd h).imp fun _ h => h.imp fun _ h => h.1

theorem of_bad {α : Type} {m : MR α} (h : isBad m = true) : ∃ f s, m = .bad f s := by
  cases m with
  | bad f s => exact ⟨f, s, rfl⟩
  | ok a s => simp [isBad] at h
  | wait s => simp [isBad] at h

def isWait {α : Type} : MR α → Bool
  | .wait _ => true
  | _ => false

theorem of_wait {α : Type} {m : MR α} (h : isWait m = true) : ∃ s, m = .wait s := by
  cases m with
  | wait s => exact ⟨s, rfl⟩
  | ok a s => simp [isWait] at h
  | bad f s => simp [isWait] at h

theorem of_done {m : MR Unit} (h : okAnd (fun _ _ => true) m = true) : ∃ s, m = .ok () s :=
  let ⟨_, s, h⟩ := of_ok h; ⟨s, h⟩

/-! ## Single steps, with results worked out by hand from the descriptions -/

/-- The hart of `base` with these g registers. -/
def regs (l : List (Nat × Word)) : State := with' fun x => { x with r := { x.r with g := l } }
/-- A g register after an instruction, and the flags. -/
def gives (o : Out) (r : Reg) (v : Word) (fl : BitVec 7) : Bool := match o with
  | .next t => gGet r t == v && (me t).fflags == fl
  | _ => false
/-- Elements of a row of a register after an instruction. -/
def rowIs (o : Out) (v : Reg) (k w : Nat) (l : List Nat) : Bool := match o with
  | .next t => (List.range l.length).map (fun e => vElem (me t) v.toNat k e w) == l
  | _ => false
def pcIs (o : Out) (pc : Word) : Bool := match o with
  | .next t => (me t).pc == pc
  | _ => false
/-- Vector registers 1 and 2 hold the elements in row 0, with four elements in one row. -/
def vecs (w : Nat) (a b : List Nat) : State :=
  let row (l : List Nat) : BitVec 16384 := BitVec.ofNat 16384 (l.foldr (fun x n => n * 2 ^ w + x) 0)
  with' fun x => { x with rc := 1, r := { x.r with v := [(8, row a), (16, row b)], g := [(8, 0), (9, 3)] } }

/-- R320, R321: 2^31 − 1 + 1 overflows in 32 bits; −7 ÷ 2 is −3 with rest −1; a shift count of 33 is 1 in 32 bits. -/
theorem test_integer :
    gives (execAdd true 3 8 9 (regs [(8, 0x7FFFFFFF), (9, 1)])) 3 0xFFFFFFFF80000000 64 = true ∧
    gives (execSub false 3 8 9 (regs [(9, 1)])) 3 0xFFFFFFFFFFFFFFFF 0 = true ∧
    gives (execDiv false false 3 8 9 (regs [(8, 0xFFFFFFFFFFFFFFF9), (9, 2)])) 3 0xFFFFFFFFFFFFFFFD 0 = true ∧
    gives (execRem false false 3 8 9 (regs [(8, 0xFFFFFFFFFFFFFFF9), (9, 2)])) 3 0xFFFFFFFFFFFFFFFF 0 = true ∧
    gives (execMulh true false 3 8 9 (regs [(8, 0x8000000000000000), (9, 2)])) 3 1 0 = true ∧
    gives (execSar false 3 8 9 (regs [(8, 0xFFFFFFFFFFFFFFF8), (9, 1)])) 3 0xFFFFFFFFFFFFFFFC 0 = true ∧
    gives (execSlt true false 3 8 9 (regs [(8, 0xFFFFFFFFFFFFFFFF), (9, 1)])) 3 0 0 = true ∧
    gives (execClz true 3 8 (regs [(8, 0xFFFFFFFF00000001)])) 3 31 0 = true ∧
    gives (execAddi 0 8 5 (regs [(8, 7)])) 0 0 0 = true := by decide

/-- R325, R326: 1.5 + 2.25 is 3.75; 1 ÷ 3 in FP32 is 0x3EAAAAAB, inexact; 1 ÷ 0 is infinite and raises DIVZERO; −1 has no root. -/
theorem test_float :
    gives (execFadd 0 0 3 8 9 (regs [(8, 0x3FC00000), (9, 0x40100000)])) 3 0x40700000 0 = true ∧
    gives (execFdiv 0 0 3 8 9 (regs [(8, 0x3F800000), (9, 0x40400000)])) 3 0x3EAAAAAB 16 = true ∧
    gives (execFdiv 0 0 3 8 9 (regs [(8, 0x3F800000)])) 3 0x7F800000 2 = true ∧
    gives (execFsqrt 0 0 3 8 (regs [(8, 0xBF800000)])) 3 0x7FC00000 1 = true := by decide

/-- R331 to R336: bytes are sign-extended or not; a store is little-endian; an atomic answers the old value. -/
theorem test_memory :
    let s := { regs [(8, 0x8000), (9, 0x1122334455667788)] with mem := tables ++ [(0x10000008000, 0x80)] }
    gives (execLdB 3 8 0 s) 3 0xFFFFFFFFFFFFFF80 0 = true ∧ gives (execLdBu 3 8 0 s) 3 0x80 0 = true ∧
    (match execStW 8 9 4 s with
     | .next t => memBytes t 0x10000008004 4 == [0x88, 0x77, 0x66, 0x55]
     | _ => false) = true ∧
    (match execAmoAdd ⟨false, false, false, 0⟩ 3 8 9 s with
     | .next t => gGet 3 t == 0x80 && memBytes t 0x10000008000 2 == [0x08, 0x78]
     | _ => false) = true := by decide

/-- R336, R338, R343: offsets count parcels of 4 bytes; CALL links behind itself; ERET at user privilege traps to the vector. -/
theorem test_control :
    pcIs (execBne 8 9 0x3FFF (regs [(8, 1)])) 0x1FFC = true ∧ pcIs (execBne 8 9 0x3FFF (regs [])) 0x2004 = true ∧
    pcIs (execBlt 8 9 2 (regs [(8, 0xFFFFFFFFFFFFFFFF)])) 0x2008 = true ∧ pcIs (execBltu 8 9 2 (regs [(8, 0xFFFFFFFFFFFFFFFF)])) 0x2004 = true ∧
    pcIs (execJmp 0x10 base) 0x2040 = true ∧ gives (execCall 1 0x10 base) 1 0x2004 0 = true ∧ pcIs (execEret base) 0x400 = true := by decide

/-- R356, R357: a sum that leaves 32 bits wraps, and is clamped when it saturates; an FP32 product; a register as second source. -/
theorem test_vector_arithmetic :
    rowIs (execVadd ⟨3, 1, .v 2, .sint 2, 0, false, all0, none⟩ (vecs 32 [1, 2, 3, 0x7FFFFFFF] [10, 20, 30, 1])) 3 0 32 [11, 22, 33, 0x80000000] = true ∧
    rowIs (execVadd ⟨3, 1, .v 2, .sint 2, 0, true, all0, none⟩ (vecs 32 [1, 2, 3, 0x7FFFFFFF] [10, 20, 30, 1])) 3 0 32 [11, 22, 33, 0x7FFFFFFF] = true ∧
    rowIs (execVsub ⟨3, 1, .v 2, .uint 0, 0, true, all0, none⟩ (vecs 8 [1, 2, 3, 9] [2, 1, 3, 10])) 3 0 8 [0, 1, 0, 0] = true ∧
    rowIs (execVmul ⟨3, 1, .v 2, .f32, 0, false, all0, none⟩ (vecs 32 [0x3FC00000, 0, 0, 0] [0x40100000, 0, 0, 0])) 3 0 32 [0x40580000, 0, 0, 0] = true ∧
    rowIs (execVand ⟨3, 1, .g 9, .sint 2, 0, false, all0, none⟩ (vecs 32 [7, 6, 5, 4] [])) 3 0 32 [3, 2, 1, 0] = true := by decide +kernel

/-- R355, R364, R365: a sum of four, an inclusive scan, a move, and counting up by 3. -/
theorem test_vector_reductions :
    gives (execVred ⟨0, .sint 2, 0, false, 3, 1, 0, all0⟩ (vecs 32 [1, 2, 3, 4] [])) 3 10 0 = true ∧
    rowIs (execVscan false ⟨0, .sint 2, 0, false, 3, 1, 0, all0⟩ (vecs 32 [1, 2, 3, 4] [])) 3 0 32 [1, 3, 6, 10] = true ∧
    rowIs (execVmov 2 3 1 all0 none (vecs 32 [1, 2, 3, 4] [])) 3 0 32 [1, 2, 3, 4] = true ∧
    rowIs (execViota 2 3 8 9 all0 none (vecs 32 [] [])) 3 0 32 [0, 3, 6, 9] = true := by decide +kernel

/-- Quiet as a test on the state. -/
def isQuiet (s : State) : Bool :=
  (me s).vq.isEmpty && (me s).mq.isEmpty && (me s).pend.isNone && (me s).capLeft == 0 && !(me s).reattach &&
  (cmdsOf s s.cur).isEmpty && (me s).sbuf.isEmpty && (me s).convLeft == 0 && !s.late && lanesFree s

theorem quiet_iff (s : State) : Quiet s ↔ isQuiet s = true := by
  constructor
  · rintro ⟨h1, h2, h3, h4, h5, h6, h7, h8, h9, h10⟩
    simp [isQuiet, h1, h2, h3, h4, h5, h6, h7, h8, h9, h10]
  · intro h
    simp only [isQuiet, Bool.and_eq_true, List.isEmpty_iff, Option.isNone_iff_eq_none, beq_iff_eq, Bool.not_eq_true'] at h
    obtain ⟨⟨⟨⟨⟨⟨⟨⟨⟨h1, h2⟩, h3⟩, h4⟩, h5⟩, h6⟩, h7⟩, h8⟩, h9⟩, h10⟩ := h
    exact ⟨h1, h2, h3, h4, h5, h6, h7, h8, h9, h10⟩

theorem quiet_base : Quiet base := by simp only [quiet_iff]; decide

/-- ScalarFloatingPoint: a type, and for FCVT to i64 a NaN, an infinity, −2^63, and −1.5, which lies between integers. -/
theorem hyp_ScalarFloatingPoint :
    (2 : BitVec 2) ≠ 3 ∧ (0 : BitVec 2) ≠ 3 ∧ (∃ sig, sval 0 0x7F800001 = .nan sig) ∧ (∃ neg, sval 0 0xFF800000 = .inf neg) ∧
    (∃ neg m e, sval 0 0xDF000000 = .fin neg m e ∧ nearestInt 0 neg m e = (-2 ^ 63, false)) ∧
    ∃ neg m e, sval 0 0xBFC00000 = .fin neg m e ∧ nearestInt 0 neg m e = (-2, true) ∧ nearestInt 1 neg m e = (-1, true) ∧
      nearestInt 2 neg m e = (-2, true) ∧ nearestInt 3 neg m e = (-1, true) :=
  ⟨by decide, by decide, ⟨true, by decide⟩, ⟨true, by decide⟩, ⟨true, 2 ^ 23, 40, by decide, by decide⟩,
    ⟨true, 3 * 2 ^ 22, -23, by decide, by decide, by decide, by decide, by decide⟩⟩

/-- RoundingIsExactOnCodes: the largest finite code, the least subnormal and an infinity of FP16. -/
theorem hyp_RoundingIsExactOnCodes : ∀ c ∈ [(0x7BFF : Nat), 0x8001, 0xFC00],
    c < 2 ^ (1 + fp16.ebits + fp16.fbits) ∧ (decodeF fp16 c).isNan = false := by decide

/-- QueuesAndBarrier: a queue with one place left and a full one, a queue with an entry and an empty one. -/
theorem hyp_QueueRegisters :
    (queueOfHart (with' fun x => { x with r := { x.r with q := [(0, List.replicate 15 7)] } }) 0).length < queueDepth 0 ∧
    queueDepth 0 ≤ (queueOfHart (with' fun x => { x with r := { x.r with q := [(0, List.replicate 16 7)] } }) 0).length ∧
    ((4 : Nat) ≤ 4 ∧ ((4 : Nat) < 6 → (me base).pend = none ∧ busy 2 base = false)) ∧
    (me base).pend = none ∧ queueOfHart (with' fun x => { x with r := { x.r with q := [(4, [7])] } }) 4 = 7 :: [] ∧
    queueOfHart base 7 = [] := by decide

/-- Two harts of one gang of job 3, the second waiting at its GBAR or not. -/
def gangState (waits : Bool) : State :=
  { base with harts := [(0, { hart with job := some 3 }), (1, { hart with job := some 3, arrived := waits })]
              jobs := [(3, { Job.none with harts := [0, 1], live := true })] }

theorem hyp_GangBarrier :
    (Quiet (gangState true) ∧ (me (gangState true)).arrived = false ∧ (0 : Nat) ∈ gangOf (gangState true) 0 ∧
      ∀ h ∈ gangOf (gangState true) 0, h ≠ 0 → gbarIn (gangState true) h = true) ∧
    (Quiet (gangState false) ∧ (me (gangState false)).arrived = false ∧
      ∃ h ∈ gangOf (gangState false) 0, h ≠ 0 ∧ gbarIn (gangState false) h = false) ∧
    ∀ h ∈ gangOf (gangState true) 1, h ≠ 0 → gbarIn (gangState true) h = true := by
  simp only [quiet_iff]; decide

/-- Accesses at 0x8FF8 of the context, the last double word below a line, and of plain memory. -/
theorem plain_base (n : Nat) (kind : AccKind) (hn : n ≤ 8) :
    ∃ l s1, translate (myWho base) 0x8FF8 kind base = .ok l s1 ∧ PlainPlace s1 (myWho base) 0x8FF8 n kind l := by
  have h : okAnd (fun l s1 => s1 == base && l == { pkg := 0, a := 0x10000008FF8, leaf := 0x1000000B01F, lvl := 2 })
      (translate (myWho base) 0x8FF8 kind base) = true := by
    cases kind <;> decide
  obtain ⟨l, s1, h1, h2⟩ := of_okAnd h
  simp only [Bool.and_eq_true, beq_iff_eq] at h2
  obtain ⟨rfl, rfl⟩ := h2
  refine ⟨_, _, h1, rfl, by simp only; omega, ?_, ?_, ?_, rfl, rfl, by decide, by decide⟩
  · cases kind <;> decide
  · rfl
  · cases kind <;> rfl

/-- A store of eight bytes at 0x8FF8 that waits to be performed, and the place that another gets in a late turn. -/
def lateStore : LateStore :=
  { va := 0x8FF8, pkg := 0, a := 0x10000008FF8, leaf := 0x1000000B01F, lvl := 2, handler := false, data := List.replicate 8 7 }
def storing : State := with' fun x => { x with sbuf := [lateStore] }

/-- LoadsAndStores: an access at once, one of the bytes of a waiting store, a store in a late turn, and the waiting store. -/
theorem hyp_LoadsAndStores :
    (∃ bs s1, vaRead (myWho base) 0x8FF8 8 base = .ok bs s1) ∧
    (∃ s1, vaWrite (myWho base) 0x8FF8 (toBytes 4 7) base = .ok () s1) ∧ MemInv base ∧ 0x8FF8 % 8 = 0 ∧ (me base).sbuf = [] ∧
    base.late = false ∧
    (∃ l s1, translate (myWho storing) 0x8FF8 .read storing = .ok l s1 ∧ PlainPlace s1 (myWho storing) 0x8FF8 8 .read l ∧
      ∃ r c, (me storing).sbuf = r ++ [c] ∧ c.loc.global = l.global ∧ c.data.length = 8) ∧
    (∃ l s1, translate (myWho { base with late := true }) 0x8FF8 .write { base with late := true } = .ok l s1 ∧
      PlainPlace s1 (myWho { base with late := true }) 0x8FF8 8 .write l) ∧
    (MemInv storing ∧ (hartOf storing 0).sbuf = [lateStore] ∧ lateStore.pkg = storing.pkg ∧
      lateStore.a + lateStore.data.length ≤ 0x40000000000 ∧ lateStore.loc.target ≤ 1 ∧ lateStore.leaf.testBit 8 = false ∧
      ownedByOther storing 0 lateStore.loc.global lateStore.data.length = false) := by
  refine ⟨of_ok (by decide), let ⟨_, h⟩ := of_ok (by decide); ⟨_, h.choose_spec⟩, by unfold MemInv; decide, rfl, rfl, rfl, ?_, ?_,
    by unfold MemInv; decide, rfl, rfl, by decide, by decide, by decide, by decide⟩
  · obtain ⟨l, s1, h1, h2⟩ := of_okAnd (p := fun l s1 => s1 == storing && l == lateStore.loc)
      (m := translate (myWho storing) 0x8FF8 .read storing) (by decide)
    simp only [Bool.and_eq_true, beq_iff_eq] at h2
    obtain ⟨rfl, rfl⟩ := h2
    exact ⟨_, _, h1, ⟨rfl, by decide, by decide, rfl, rfl, rfl, by decide, by decide, by decide⟩, [], lateStore, rfl, rfl, rfl⟩
  · obtain ⟨l, s1, h1, h2⟩ := of_okAnd (p := fun l s1 => s1 == { base with late := true } && l == lateStore.loc)
      (m := translate (myWho { base with late := true }) 0x8FF8 .write { base with late := true }) (by decide)
    simp only [Bool.and_eq_true, beq_iff_eq] at h2
    obtain ⟨rfl, rfl⟩ := h2
    exact ⟨_, _, h1, rfl, by decide, by decide, rfl, rfl, rfl, by decide, by decide, by decide⟩

theorem hyp_Atomics : (gGet 8 base).toNat % 8 = 0 ∧ MemInv base ∧ (me base).sbuf = [] ∧
    (∃ l s1, translate (myWho base) 0x8000 .atomic base = .ok l s1 ∧ PlainPlace s1 (myWho base) 0x8000 8 .atomic l) := by
  refine ⟨by decide, by unfold MemInv; decide, rfl, ?_⟩
  have h : okAnd (fun l s1 => s1 == base && l == { pkg := 0, a := 0x10000008000, leaf := 0x1000000B01F, lvl := 2 })
      (translate (myWho base) 0x8000 .atomic base) = true := by decide
  obtain ⟨l, s1, h1, h2⟩ := of_okAnd h
  simp only [Bool.and_eq_true, beq_iff_eq] at h2
  obtain ⟨rfl, rfl⟩ := h2
  exact ⟨_, _, h1, rfl, by decide, by decide, rfl, rfl, rfl, rfl, by decide, by decide⟩

theorem hyp_TranslationOfAddresses_range :
    2 ^ 48 ≤ (0x1000000000000 : Word).toNat ∧ 2 ^ 48 ≤ (0xFFFFFFFFFFFFFFFF : Word).toNat := by decide

/-- The tables with a leaf that gives no right to write. -/
def readOnly : State :=
  { base with mem := (0x10000000000, 0x91) :: (0x10000000005, 1) :: (0x10000000800, 0x1D) :: tables.drop 3 }

/-- A stream's first access of a page, and a later one at its end, which the leaf allows or denies. -/
theorem hyp_TranslationOfAddresses_page :
    (∃ l s1, transFor { myWho base with hold := 1 } 0x8000 .read base = .ok l s1 ∧ bitsOf l.leaf 4 3 ≠ 5 ∧
      leafDenies { myWho base with hold := 1 } .write l.leaf = none) ∧ 0xFFFF / 65536 = 0x8000 / 65536 ∧
    (let s := readOnly
     ∃ l s1, transFor { myWho s with hold := 1 } 0x8000 .read s = .ok l s1 ∧
       leafDenies { myWho s with hold := 1 } .write l.leaf = some 2) := by
  refine ⟨?_, rfl, ?_⟩
  · obtain ⟨l, s, h, hp⟩ := of_okAnd (p := fun l _ => decide (bitsOf l.leaf 4 3 ≠ 5) &&
      leafDenies { myWho base with hold := 1 } .write l.leaf == none) (m := transFor { myWho base with hold := 1 } 0x8000 .read base) (by decide)
    simp only [Bool.and_eq_true, decide_eq_true_eq, beq_iff_eq] at hp
    exact ⟨l, s, h, hp⟩
  · obtain ⟨l, s, h, hp⟩ := of_okAnd (p := fun l _ => leafDenies { myWho base with hold := 1 } .write l.leaf == some 2)
      (m := transFor { myWho readOnly with hold := 1 } 0x8000 .read readOnly) (by decide)
    exact ⟨l, s, h, beq_iff_eq.mp hp⟩

theorem hyp_MisalignedAccesses : let va (imm : BitVec 14) : Nat := (gGet 8 base + imm.signExtend 64).toNat
    va 0x3FFF % 2 ≠ 0 ∧ va 2 % 4 ≠ 0 ∧ va 4 % 8 ≠ 0 ∧ (gGet 9 base).toNat % 4 ≠ 0 := by decide

/-- BranchesAndJumps: a mask with the last bit of the tile set, an empty one, a full one; no element; both jump targets. -/
def maskState : State :=
  with' fun x => { x with r := { x.r with m := [(9, 8), (16, 15), (17, 15)] } }
theorem hyp_BranchesAndJumps : Quiet maskState ∧
    ((1 < (me maskState).rc ∧ 3 < (me maskState).vl) ∧ mBit (me maskState) 1 1 3 = true) ∧
    (¬ ∃ k e, (k < (me maskState).rc ∧ e < (me maskState).vl) ∧ mBit (me maskState) 3 k e = true) ∧
    (∀ k e, (k < (me maskState).rc ∧ e < (me maskState).vl) → mBit (me maskState) 2 k e = true) ∧
    ¬ (∀ k e, (k < (me maskState).rc ∧ e < (me maskState).vl) → mBit (me maskState) 1 k e = true) := by
  refine ⟨by simp only [quiet_iff]; decide, by decide, ?_, ?_, ?_⟩
  · rintro ⟨k, e, ⟨hk, he⟩, h⟩
    change k < 2 at hk
    change e < 4 at he
    have : ∀ k, k < 2 → ∀ e, e < 4 → mBit (me maskState) 3 k e = false := by decide
    rw [this k hk e he] at h
    cases h
  · rintro k e ⟨h, h'⟩
    change k < 2 at h
    change e < 4 at h'
    have : ∀ k, k < 2 → ∀ e, e < 4 → mBit (me maskState) 2 k e = true := by decide
    exact this k h e h'
  · intro h
    exact absurd (h 0 0 (by decide)) (by decide)

/-- OrderingAndWaiting: work of the matrix queue, of the engine, and of stream 1 of the vector queue. -/
def entry (i : Instr) : QEntry :=
  { instr := i, ctx := { g := [(8, 0x8000)], vl := 4, rc := 2, vgrant := 8, pc := 0x2000, handler := false, nest := [], move := 0,
                         inNest := false, seq := 0, byRow := false, conv := 0, upto := 0, width := 0 },
    vstart := 0, kept := [], got := [], body := [], fin := false }
def command : CopyCmd :=
  { hart := 0, part := 1, handler := false, src := 0x8000, dst := 0x9000, blk := 64, dims := 0, tag := 5, mode := 0, keep := false,
    ring := false, nest := [], pc := 0x2000, stream := 3, blocks := 0, bytes := 0, buf := [], hash := shaInit, tail := [], phase := 0,
    begun := false, taken := 0, stalled := 0 }
def copying (c : CopyCmd) : State :=
  { base with cores := [(0, { Core.reset with cmds := [c], tagCount := [(c.tag, 1)] })] }
theorem hyp_OrderingAndWaiting : Quiet base ∧ ¬ (true = true ∧ false = true) ∧
    (6 = (6 : BitVec 3) ∧ (partOf { base with parts := [(1, { Part.reset with tenant := true })] } 1).tenant = true) ∧
    (let s := with' fun x => { x with mq := [entry .mdetach] }
     (me s).pend = none ∧ (4 : BitVec 8).getLsbD 2 = true ∧ (me s).mq ≠ []) ∧
    (∃ c ∈ cmdsOf (copying command) 0, c.stream = 3 ∧ (8 : BitVec 8).getLsbD 3 = true) ∧
    (let s := with' fun x => { x with vq := [entry (.vld ⟨2, .unit, 1, 8, 0, ⟨0, false⟩, false⟩)] }
     ∃ e ∈ (me s).vq, streamOf e.instr = 1 ∧ (2 : BitVec 8).getLsbD 1 = true) ∧
    (let s := { storing with owned := [⟨0x10000008F, 0x100000090, copyAgent 0, 0, 0, false⟩] }
     (1 : BitVec 8).getLsbD 0 = true ∧ (me s).sbuf = lateStore :: [] ∧
       ownedByOther s s.cur lateStore.loc.global lateStore.data.length = true) := by
  refine ⟨quiet_base, by decide, by decide, by decide, by decide, by decide, by decide⟩

/-- ControlRegisters: the CSRs at the ends of the ranges of R232, at both privileges. -/
theorem hyp_ControlRegisters : Quiet base ∧ gGet 8 base ≠ 0 ∧ gGet 0 base = 0 ∧ (me base).handler = false ∧
    (csrListed 0x40 = true ∧ csrRight 0x40 false = 2) ∧ (csrListed 0 = true ∧ csrRight 0 false ≠ 0) ∧
    (csrListed 0x56 = true ∧ csrRight 0x56 true = 2) ∧ csrListed 7 = false ∧ csrListed 0x3FFF = false ∧
    (0x050 ≤ 0x057 ∧ 0x057 ≤ 0x057) ∧ (csrListed 0x58 = true ∧ (0x058 < 0x050 ∨ 0x058 ≤ 0x058)) := by
  refine ⟨quiet_base, ?_⟩; decide

/-- A pending STREAM trap of a vector instruction at element 6. -/
def pending : PendTrap := { flt := streamFlt 3, lpc := 0x1FF8, elem := 6, stream := 1, fs := noStream }
def pendState : State := with' fun x => { x with pend := some pending, vq := [entry (.vunbind 1)] }

theorem takes (f : Hart → Hart) (c : Nat) (h1 : (f hart).handler = false) (h2 : stopsFor (f hart) c = false) :
    TakesTraps 0 c (with' f) := ⟨h1, h2⟩

theorem writable {h : Nat} {pc : Word} {fs : FaultStream} {v : Nat} {s : State} (h1 : ((hartOf s h).sbuf.isEmpty && !unfinished s h) = true)
    (h2 : okAnd (fun _ _ => true) (writeFrame h (hartOf s h).t.frame (recordOf 0 h { unwindConvoy (hartOf s h) with pc := pc } (takeCmds h s).1) fs
      v (takeCmds h s).2) = true) : FrameWritable h pc fs v s := by
  simp only [Bool.and_eq_true, List.isEmpty_iff, Bool.not_eq_true'] at h1
  exact ⟨h1.1, h1.2, of_done h2⟩

theorem hyp_PreciseTrapEntry : (me base).pend = none ∧ TakesTraps 0 4 base ∧ FrameWritable 0 (me base).pc noStream 0 base :=
  ⟨rfl, ⟨rfl, rfl⟩, writable (by decide) (by decide)⟩

theorem hyp_ImpreciseTraps : (hartOf pendState 0).pend = some pending ∧ TakesTraps 0 pending.flt.cause pendState ∧
    FrameWritable 0 (hartOf pendState 0).pc pending.fs (stoppedVstart (hartOf pendState 0) pending) pendState :=
  ⟨rfl, ⟨rfl, by decide⟩, writable (by decide) (by decide)⟩

/-- DoubleTrap: at handler privilege, and at user privilege with a frame that nothing maps. -/
theorem hyp_DoubleTrap :
    let s := with' fun x => { x with job := some 3, handler := true }
    let u := with' fun x => { x with job := some 3, t := { x.t with frame := 0x100000000 } }
    ((me s).pend = none ∧ (me s).job = some 3 ∧ stopsFor (me s) 4 = false ∧ (me s).sbuf = [] ∧ awaitsLink s 0 = false ∧ (me s).handler = true) ∧
    (me u).job = some 3 ∧ (me u).sbuf = [] ∧ awaitsLink u 0 = false ∧ (me u).handler = false ∧ ∃ f s2, writeFrame 0 (me u).t.frame
      (recordOf 0 0 (unwindConvoy (me u)) (takeCmds 0 u).1) noStream 0 (takeCmds 0 u).2 = .bad f s2 :=
  ⟨by decide, by decide, by decide, by decide, by decide, of_bad (by decide)⟩

theorem hyp_CallsToTheHandler : Quiet base ∧ FrameWritable 0 ((me base).pc + 4) noStream 0 base ∧
    TakesTraps 0 0x0D base ∧ TakesTraps 0 0x0C base :=
  ⟨quiet_base, writable (by decide) (by decide), ⟨rfl, rfl⟩, ⟨rfl, rfl⟩⟩

/-! A frame of hart 0 at 0x40000 with its check word, whatever that is (R59; log 9). -/

def frameContent : Nat := 128 + 2 ^ 32 + 5 * 2 ^ 512
/-- Byte `i` of the check word. -/
def checkByte (i : Nat) : Byte := (toBytes 8 (Config.checkWord frameContent 1).toNat).getD i 0
def checkBytes : List Byte := (List.range 8).map checkByte

theorem checkBytes_num : ofBytes checkBytes = (Config.checkWord frameContent 1).toNat := by
  have h : checkBytes = toBytes 8 (Config.checkWord frameContent 1).toNat := by rfl
  rw [h, ofBytes_toBytes]
  exact Nat.mod_eq_of_lt (Config.checkWord frameContent 1).isLt

def framed (r : FrameRec) : State :=
  { base with mem := tables ++ [(0x10000040000, 128), (0x10000040004, 1), (0x10000040040, 5)] ++
                List.zip ((List.range 8).map (fun i => 0x10000040078 + i)) checkBytes
              frames := [(5, r)]
              harts := [(0, { hart with handler := true })] }
def plainFrame : FrameRec := { FrameRec.empty with regs := { Regs.reset with g := [(7, 9)] }, vl := 4 }

theorem frame_reads : readFrame 0 0x40000 (framed plainFrame) =
    if (true && Config.checkWord frameContent 1 == BitVec.ofNat 64 (ofBytes checkBytes)) then .ok (.good plainFrame) (framed plainFrame)
    else .ok .wrong (framed plainFrame) := by rfl

theorem frame_good : ∃ s1, readFrame 0 0x40000 (framed plainFrame) = .ok (.good plainFrame) s1 := by
  rw [frame_reads, checkBytes_num]
  exact ⟨framed plainFrame, by simp⟩

/-- ReturnFromTrap: at user privilege; at handler privilege after RESTV, and with a frame. -/
theorem hyp_ReturnFromTrap :
    (me base).handler = false ∧
    (let s := with' fun x => { x with handler := true, restored := true }
     (me s).handler = true ∧ Quiet s ∧ (me s).revabt = none ∧ (me s).restored = true) ∧
    (me (framed plainFrame)).handler = true ∧ Quiet (framed plainFrame) ∧ (me (framed plainFrame)).restored = false ∧
    (∃ s1, readFrame 0 (me (framed plainFrame)).t.frame (framed plainFrame) = .ok (.good plainFrame) s1) ∧ plainFrame.kind = 0 := by
  refine ⟨rfl, ⟨rfl, by simp only [quiet_iff]; decide, rfl, rfl⟩, rfl, by simp only [quiet_iff]; decide, rfl, frame_good, rfl⟩

/-- HeadersAndParking: a parked hart, a quiet one, an active chain, two vector instructions that fit a header, a stalled
QGET and a stalled vector queue. -/
def chain : Chain :=
  { frame := 0x8000, ret := 0x3000, n := 4, tier := 2, depth := 1, slots := 2, step := 0x3100, adj := 0x3200, slotBase := 0x20000,
    stateB := 64, inrout := true, aborted := false, verify := false, phase := 0, curidx := 0, retarget := 0, nextadj := 0,
    fsteps := 0, slotMap := 0x9000, map := [none, none], tasks := [], calling := none, lastSnap := none, digest := none, acting := false, stale := false }
def grFault : GRes → Bool
  | .fault _ _ _ => true
  | _ => false
theorem of_grFault {r : GRes} (h : grFault r = true) : ∃ e f u, r = .fault e f u := by
  cases r with
  | fault e f u => exact ⟨e, f, u, rfl⟩
  | done es s => simp [grFault] at h
  | stall es w s => simp [grFault] at h
def convoy : State :=
  { base with harts := [(0, { hart with pin := some (0, 0x1000000, 97) })]
              mem := tables ++ (centries unlistedByte 0x10000002004
                (toBytes 8 0x0000000800208442 ++ toBytes 8 0x0000000800208446)) }
theorem hyp_HeadersAndParking :
    (hartOf (with' fun x => { x with run := .parked }) 0).run = .parked ∧ (me base).r.chains = [] ∧ Quiet base ∧
    (me (with' fun x => { x with r := { x.r with chains := [chain] } })).r.chains ≠ [] ∧
    ((me convoy).capLeft = 0 ∧ ∃ fits s1, convoyFits 1 2 0 (wrapTo 64 ((me convoy).pc.toNat + 4)) convoy = .ok fits s1) ∧
    (let s := with' fun x => { x with stallS := some (mkFlt 0x14 0 4) }
     (hartOf s 0).pend = none ∧ (hartOf s 0).stallS = some (mkFlt 0x14 0 4) ∧ TakesTraps 0 0x14 s ∧
       FrameWritable 0 (hartOf s 0).pc noStream 0 s) ∧
    (let s := with' fun x => { x with stallV := some pending }
     (hartOf s 0).pend = none ∧ (hartOf s 0).stallS = none ∧ (hartOf s 0).stallV = some pending) ∧
    (let s := with' fun x => { x with stallM := some pending }
     (hartOf s 0).pend = none ∧ (hartOf s 0).stallS = none ∧ (hartOf s 0).stallV = none ∧ (hartOf s 0).stallM = some pending) := by
  refine ⟨rfl, rfl, quiet_base, by decide, ⟨rfl, of_ok (by decide)⟩, ⟨rfl, rfl, ⟨rfl, by decide⟩, writable (by decide) (by decide)⟩, ⟨rfl, rfl, rfl⟩,
    rfl, rfl, rfl, rfl⟩

/-- ConvoysStopTogether: a convoy of one load, of an address that nothing maps, at a common position. -/
def farLoad : QEntry :=
  { entry (.vld ⟨2, .unit, 1, 8, 0, ⟨0, false⟩, false⟩) with
    ctx := { (entry .lwait).ctx with g := [(8, 0x100000000)], conv := 1, upto := 0, width := 32 } }
theorem hyp_HeadersAndParking_convoy : (∀ x ∈ [farLoad], x.ctx.upto = 0) ∧
    ∃ e' f u, groupOnce perfQueued (nextBoundary farLoad.ctx (groupSpan (me base) [farLoad]) 0) [farLoad] [] base = .fault e' f u :=
  ⟨by decide, of_grFault (by decide)⟩

/-- LengthRowsAndLanes: a free hart of the gang to fork to, none, and forked harts halted and running. -/
def forkState (r : RunState) (forked : Bool) : State :=
  { base with harts := [(0, { hart with job := some 3, lset := 0x76 }),
                        (1, { hart with run := r, job := some 3, forkedBy := if forked then some 0 else none })]
              jobs := [(3, { Job.none with harts := [0, 1], live := true })] }
theorem hyp_LengthRowsAndLanes :
    (me base).capLeft = 0 ∧ Quiet base ∧ Quiet (forkState .free false) ∧ freeHart (forkState .free false) = some 1 ∧
    2 ≤ ((List.range 8).filter (fun i => (me (forkState .free false)).lset.getLsbD i)).length ∧ freeHart base = none ∧
    (let s := with' fun x => { x with r := { x.r with g := [(8, 1)] } }
     let s := { forkState .halted true with harts := [(0, (me s)), (1, hartOf (forkState .halted true) 1)] }
     Quiet s ∧ (gGet 8 s).toNat < 8 ∧ 8 * coreNo s.cur + (gGet 8 s).toNat ≠ s.cur ∧ (hartOf s 1).forkedBy = some s.cur ∧
       (hartOf s 1).run = .halted) ∧
    ((hartOf (forkState .running true) 1).forkedBy = some 0 ∧ (hartOf (forkState .running true) 1).run ≠ .halted) ∧
    8 ≤ (gGet 8 base).toNat := by
  simp only [quiet_iff]; decide

/-! ## Vector statements -/

/-- Eight rows of 256 elements, the most that fit 64 bits. -/
def full : State := with' fun x => { x with vl := 256, rc := 8 }

theorem ready_full (w : Nat) (row : Option (BitVec 3)) (hw : w ≤ 64) : VecReady w row full :=
  ⟨by simp only [quiet_iff]; decide, rfl, by unfold Lanes LaneOk; decide, by change 256 * w ≤ 8 * 2048; omega,
    fun r _ => r.isLt⟩

/-- Masks, VectorCompare, Moves, VectorArithmetic, VectorBitsAndSigns, FunctionsAndConversion and HadamardRotation: every
element width at the longest length, the last row selected. -/
theorem hyp_vector : (∀ w ∈ [8, 16, 32, 64], VecReady w none full ∧ VecReady w (some 7) full) ∧
    (queueOfHart full 4).length < 8 ∧ (queueOfHart full 5).length < 8 ∧ (0 : BitVec 2) ≠ 3 ∧ (2 : BitVec 2) ≠ 3 ∧
    (ElemTy.isFloat (.uint 3) = false) ∧ (CvtForm.srcOpd 0 false (.fmt 3 1)).bits ≠ CvtForm.dstBits (.fmt 3 1) ∧ (1 : Reg) ≠ 2 := by
  refine ⟨fun w hw => ⟨ready_full w _ ?_, ready_full w _ ?_⟩, by decide, by decide, by decide, by decide, by decide, by decide, by decide⟩ <;>
    (simp at hw; omega)

/-- Moves: an entry of q3. -/
theorem hyp_Moves : (let s := with' fun x => { x with r := { x.r with q := [(3, [7, 8])] } }
    Quiet s ∧ queueOfHart s 3 = 7 :: [8]) := by simp only [quiet_iff]; decide

/-- ExplicitScales: FP32 to INT8 and back, with a good and a bad scale. -/
theorem hyp_ExplicitScales :
    let o : QntOp := ⟨1, 2, 8, 7, 0, 0, false, ⟨0, false⟩, false⟩
    QuantReady o full ∧ (o.src = 0 ∨ o.src = 1 ∨ o.src = 2) ∧ badScale (decodeF fp32 0x3F000000) = false ∧
    badScale (decodeF fp32 0x80000000) = true ∧
    QuantReady ⟨1, 2, 8, 2, 7, 0, false, ⟨0, false⟩, true⟩ full :=
  ⟨⟨ready_full _ _ (by decide), by decide⟩, by decide, by decide, by decide, ready_full _ _ (by decide), by decide⟩

/-- RecordScales: records 0 to 7 at 0x10000080000, record 2 with TE; an element of 1000 or only zeros. -/
def records (te : Nat) (x : BitVec 16384) : State :=
  { base with accE := base.accE ++ [(264 * 65536 + 0xC014, anyEntry)]
              mem := tables ++ centries unlistedByte 0x10000080119 (toBytes 1 (16 * te))
              parts := [(1, { part1 with
                                              recbase := BitVec.ofNat 64 (1 + 0x10000080000 + 7 * 2 ^ 48) })]
              harts := [(0, { hart with r := { hart.r with g := [(8, 2)], v := if x = 0 then [] else [(16, x)] } })] }
def qnt : QntOp := ⟨1, 2, 8, 7, 0, 0, false, ⟨0, false⟩, false⟩
theorem hyp_RecordScales :
    let q (s : State) (k e : Nat) := quantize 7 0 (decodeF fp32 (recordScale (seenAbsmax s 0 1 2) 7)) (decodeFmt 0 (vElem (me s) 2 k e 32))
    let te := records 1 0x447A0000
    (VecReady 32 none te ∧ recPresent te 1 2 = true ∧ (0 < (me te).rc ∧ 0 < (me te).vl) ∧ active (me te) qnt.mask 0 0 = true ∧
      (q te 0 0).2.2 = true ∧ (recCtl te 1 2).testBit 12 = true) ∧
    ((q (records 0 0x447A0000) 0 0).2.2 = true ∧ (recCtl (records 0 0x447A0000) 1 2).testBit 12 = false) ∧
    (∀ k, k < 2 → ∀ e, e < 4 → (q (records 0 0) k e).2.2 = false) ∧
    (recCode te 0 1 2 .read = 0 ∧ recCode te 0 1 2 .write = 0 ∧ recCode { te with accE := base.accE } 0 1 2 .read ≠ 0 ∧
      recPresent { te with accE := base.accE } 1 2 = true) ∧
    recPresent base 1 2 = false ∧ recPresent te 1 8 = false ∧ recPresent te 1 7 = true ∧ seenAbsmax te 0 1 2 = 0 ∧
    ((7 : BitVec 4) ≠ 6 ∧ (7 : BitVec 4) ≠ 8 ∧ (7 : BitVec 4) ≠ 11) := by
  refine ⟨⟨⟨by simp only [quiet_iff]; decide, rfl, by unfold Lanes LaneOk; decide, by decide, by intro r h; cases h⟩, by decide, by decide, by decide, by decide,
    by decide⟩, by decide, by decide, by decide, by decide, by decide, by decide, by decide, by decide⟩

/-! Accesses one after another as one computation. -/

def readList (w : Who) (n : Nat) : List Nat → State → MR (List (List Byte))
  | [], s => .ok [] s
  | a :: as, s => mbind (vaRead w a n s) fun b s => mbind (readList w n as s) fun r s => .ok (b :: r) s

def writeList (w : Who) : List (Nat × List Byte) → State → MR Unit
  | [], s => .ok () s
  | p :: ps, s => mbind (vaWrite w p.1 p.2 s) fun _ s => writeList w ps s

def atomicList (w : Who) (n : Nat) : List (Nat × (Nat → Nat)) → State → MR (List Nat)
  | [], s => .ok [] s
  | p :: ps, s => mbind (vaAtomic w p.1 n (fun old => some (p.2 old)) s) fun x s => mbind (atomicList w n ps s) fun r s => .ok (x :: r) s

theorem mbind_ok {α β : Type} {m : MR α} {f : α → State → MR β} {b : β} {s1 : State} (h : mbind m f = .ok b s1) :
    ∃ a s, m = .ok a s ∧ f a s = .ok b s1 := by
  cases m with
  | ok a s => exact ⟨a, s, rfl, h⟩
  | bad f s => cases h
  | wait s => cases h

theorem readsAre {w : Who} {n : Nat} {as : List Nat} {s s1 : State} {bs : List (List Byte)}
    (h : readList w n as s = .ok bs s1) : ReadsAre w n as bs s s1 := by
  induction as generalizing s bs with
  | nil => cases h; rfl
  | cons a as ih =>
    obtain ⟨b, s2, h2, h⟩ := mbind_ok h
    obtain ⟨r, s3, h3, h⟩ := mbind_ok h
    cases h
    exact ⟨s2, h2, ih h3⟩

theorem writesAre {w : Who} {ps : List (Nat × List Byte)} {s s1 : State} (h : writeList w ps s = .ok () s1) :
    WritesAre w ps s s1 := by
  induction ps generalizing s with
  | nil => cases h; rfl
  | cons p ps ih =>
    obtain ⟨_, s2, h2, h⟩ := mbind_ok h
    exact ⟨s2, h2, ih h⟩

theorem atomicsAre {w : Who} {n : Nat} {ps : List (Nat × (Nat → Nat))} {s s1 : State} {xs : List Nat}
    (h : atomicList w n ps s = .ok xs s1) : AtomicsAre w n ps xs s s1 := by
  induction ps generalizing s xs with
  | nil => cases h; rfl
  | cons p ps ih =>
    obtain ⟨b, s2, h2, h⟩ := mbind_ok h
    obtain ⟨r, s3, h3, h⟩ := mbind_ok h
    cases h
    exact ⟨s2, h2, ih h3⟩

theorem reads_ok {w : Who} {n : Nat} {as : List Nat} {s : State} (h : okAnd (fun _ _ => true) (readList w n as s) = true) :
    ∃ bs s1, ReadsAre w n as bs s s1 :=
  let ⟨bs, s1, h⟩ := of_ok h; ⟨bs, s1, readsAre h⟩
theorem writes_ok {w : Who} {ps : List (Nat × List Byte)} {s : State} (h : okAnd (fun _ _ => true) (writeList w ps s) = true) :
    ∃ s1, WritesAre w ps s s1 :=
  let ⟨s1, h⟩ := of_done h; ⟨s1, writesAre h⟩

theorem memReady (f : Hart → Hart) (w : Nat) (h : Quiet (with' f) ∧ Unbound (with' f) ∧ Lanes (with' f) ∧
    (me (with' f)).vl * w ≤ (me (with' f)).vgrant * 2048 ∧ (me (with' f)).run = .running) : MemReady w none (with' f) :=
  ⟨⟨h.1, h.2.1, h.2.2.1, h.2.2.2.1, fun _ h => by cases h⟩, h.2.2.2.2⟩

theorem memReady_base (w : Nat) (hw : w ≤ 64) : MemReady w none base :=
  ⟨⟨quiet_base, rfl, by unfold Lanes LaneOk; decide, by change 4 * w ≤ 8 * 2048; omega, fun _ h => by cases h⟩, rfl⟩

/-- LookupTables: two tables from number 14 on, so that the second row is the last one known. -/
theorem hyp_LookupTables : let at' := (activeOf none ⟨0, false⟩ base).filter (fun p => decide (14 + p.1 ≤ 15 ∧ p.2 ≤ 255))
    (0 : BitVec 2) ≠ 3 ∧ MemReady (max 32 (f012Bits 0)) none base ∧ (1 : Reg) ≠ 2 ∧ (gGet 8 base).toNat % 64 = 0 ∧
    ∃ bs s1, ReadsAre (vWho (captureCtx base) base) 16 (at'.map (fun p : Nat × Nat => wrapTo 64 ((gGet 8 base).toNat + 16 * p.2))) bs base s1 :=
  ⟨by decide, memReady_base _ (by decide), by decide, by decide, reads_ok (by decide)⟩

/-- Reductions, SumReduction, Scans, Rearrangements and TopK: a queue with a place, registers that differ. -/
theorem hyp_reductions : (∀ w ∈ [8, 16, 32, 64], VecReady w none full) ∧
    ((4 : Reg).toNat % 8 = 4 ∧ (queueOfHart full 4).length < 8) ∧ (11 : Reg) ≠ 4 ∧
    ((⟨0, .sint 1, 0, false, 11, 4, 12, ⟨0, false⟩⟩ : RedOp).op = 0 ∧ (ElemTy.sint 1).isFloat = false) ∧
    ((⟨1, false⟩ : MaskSel).m = 0 ∨ (1 : BitVec 3).toNat ≠ 14 % 8) :=
  ⟨fun w hw => ready_full w _ (by simp at hw; omega), by decide, by decide, by decide, by decide⟩

/-- VectorLoadsAndStores: at a stride of 2 GiB the first two elements are mapped and the third is not. -/
def ldOp : VMemOp := ⟨2, .unit, 1, 8, 0, ⟨0, false⟩, false⟩
def farOp : VMemOp := ⟨2, .strided 11, 1, 8, 0, ⟨0, false⟩, false⟩
def edge : Hart → Hart := fun x => { x with rc := 1, r := { x.r with g := [(8, 0x8000), (11, 0x80000000)] } }
theorem hyp_VectorLoadsAndStores :
    let at' := activeOf none ldOp.mask base; let addr (p : Nat × Nat) : Nat := vmemAddr ldOp (captureCtx base) p.1 p.2
    let edge' := with' edge; let addr' (p : Nat × Nat) : Nat := vmemAddr farOp (captureCtx edge') p.1 p.2
    let who (s : State) : Who := { vWho (captureCtx s) s with hold := 1 }
    MemReady 32 none base ∧ (∀ p ∈ at', addr p % 4 = 0) ∧
    (∃ bs s1, ReadsAre (who base) 4 (at'.map addr) bs base s1) ∧
    (∃ s1, WritesAre (who base) (at'.map (fun p => (addr p, toBytes 4 (vElem (me base) 1 p.1 p.2 32)))) base s1) ∧
    MemReady 32 none edge' ∧ (∀ p ∈ activeOf none ldOp.mask edge', addr' p % 4 = 0) ∧ (activeOf none ldOp.mask edge')[2]? = some (0, 2) ∧
    (∃ bs s1, ReadsAre (who edge') 4 (((activeOf none ldOp.mask edge').take 2).map addr') bs edge' s1 ∧
      ∃ f s2, vaRead (who edge') (addr' (0, 2)) 4 s1 = .bad f s2) := by
  refine ⟨memReady_base _ (by decide), by decide, reads_ok (by decide), writes_ok (by decide),
    memReady _ _ (by simp only [quiet_iff, Unbound, Lanes, LaneOk]; decide), by decide, by decide, ?_⟩
  obtain ⟨bs, s1, h1, h2⟩ := of_okAnd (p := fun _ s => isBad (vaRead { vWho (captureCtx (with' edge)) (with' edge) with hold := 1 } 0x100008000 4 s))
    (m := readList { vWho (captureCtx (with' edge)) (with' edge) with hold := 1 } 4 [0x8000, 0x80008000] (with' edge)) (by decide)
  exact ⟨bs, s1, readsAre h1, of_bad h2⟩

theorem scatterOne {w : Who} {p : Nat × List Byte} {b : Bool} {s : State}
    (h : okAnd (fun _ _ => true) (if b then vaWrite w p.1 p.2 s else vaPassWrite w p.1 p.2 s) = true) : ∃ s2, ScattersAre w [p] [b] s s2 :=
  let ⟨s2, h⟩ := of_done h; ⟨s2, s2, h, rfl⟩

/-- GathersAndScatters: zero indices, so that every element names one address; and one element. -/
theorem hyp_GathersAndScatters :
    let at' := activeOf none ⟨0, false⟩ base
    let addr (s : State) (p : Nat × Nat) : Nat := wrapTo 64 ((gGet 8 s).toNat + (0 : BitVec 16).toInt +
      ((4 : Nat) : Int) * intOf false 32 (vElem (me s) 6 p.1 p.2 32))
    let one := with' fun x => { x with vl := 1, rc := 1 }
    let writes := (activeOf none ⟨0, false⟩ one).map (fun p => (addr one p, toBytes 4 (vElem (me one) 1 p.1 p.2 32)))
    MemReady (max 32 32) none base ∧ (∀ p ∈ at', addr base p % 4 = 0) ∧
    (∃ bs s1, ReadsAre (gatherWho (captureCtx base) base) 4 (at'.map (addr base)) bs base s1) ∧
    (∃ s1, WritesAre (gatherWho (captureCtx base) base) (at'.map (fun p => (addr base p, toBytes 4 (vElem (me base) 1 p.1 p.2 32)))) base s1) ∧
    MemReady (max 32 32) none one ∧ ∀ lands : List Bool, lands.length = writes.length → ∃ s2, ScattersAre (gatherWho (captureCtx one) one) writes lands one s2 := by
  refine ⟨memReady_base _ (by decide), by decide, reads_ok (by decide), writes_ok (by decide),
    memReady _ _ (by simp only [quiet_iff, Unbound, Lanes, LaneOk]; decide), fun lands h => ?_⟩
  have h' : lands.length = 1 := h
  obtain ⟨b, rfl⟩ := List.length_eq_one_iff.mp h'
  cases b
  · exact scatterOne (p := (0x8000, [0, 0, 0, 0])) (b := false) (by decide)
  · exact scatterOne (p := (0x8000, [0, 0, 0, 0])) (b := true) (by decide)

theorem hyp_VectorAtomics : let o : VAmoOp := ⟨0, .sint 2, 0, 1, 8, 6, 7, 0, ⟨0, false⟩, false⟩
    MemReady (max 32 32) none base ∧ o.vd ≠ o.vx ∧ o.vd ≠ o.vc ∧
    ∃ olds s1, AtomicsAre (gatherWho (captureCtx base) base) 4
      ((activeOf none o.mask base).map (fun p => (0x8000, fun old => (vamoOp o old (vElem (me base) 7 p.1 p.2 32)).1))) olds base s1 :=
  ⟨memReady_base _ (by decide), by decide, by decide, let ⟨a, s, h⟩ := of_ok (by decide); ⟨a, s, atomicsAre h⟩⟩

/-- WaitsAndBindings: a VWAIT whose condition zero memory meets (equal to g0) or not (equal to g9), the entry of the latter, and
records that VBIND accepts and refuses. -/
def bindState (strip : Byte) : State :=
  { base with mem := tables ++ (if strip = 0 then [] else [(0x1000000801C, strip)]) }
theorem hyp_WaitsAndBindings :
    let els := waitElems 3 8 .seq ⟨0, false⟩ (captureCtx base) (me base) []
    let e := entry (.vwait 0 3 8 9 .single ⟨0, false⟩)
    let s := with' fun x => { x with vq := [e] }
    (MemReady (waitCheck 3 .seq).width none base ∧ (∀ p ∈ els, p.2 % 8 = 0) ∧
      (∃ bs s1, ReadsAre (vWho (captureCtx base) base) 8 (els.map (fun p => p.2)) bs base s1 ∧
        (∀ b ∈ bs, waitCond 0 64 (ofBytes b) (gGet 0 base).toNat = true) ∧
        ∃ b ∈ bs, waitCond 0 64 (ofBytes b) (gGet 9 base).toNat = false)) ∧
    ((hartOf s 0).pend = none ∧ (hartOf s 0).vq = e :: [] ∧ e.instr = .vwait 0 3 8 9 .single ⟨0, false⟩ ∧ e.kept = [] ∧
      cg e.ctx 8 % 8 = 0 ∧ ∃ x s1, vaReadNum (vWho e.ctx { s with cur := 0 }) (cg e.ctx 8) 8 { s with cur := 0 } = .ok x s1) ∧
    (Quiet (bindState 1) ∧ (gGet 8 (bindState 1)).toNat % 32 = 0 ∧
      (∃ bs s1, vaRead (hartWho (bindState 1) 0 5 false) 0x8000 32 (bindState 1) = .ok bs s1) ∧
      bindBad { noBinding with ctl := 0x100000000 } = false ∧ bindBad noBinding = true) := by
  refine ⟨⟨memReady_base _ (by decide), by decide, ?_⟩, ⟨rfl, rfl, rfl, rfl, by decide, of_ok (by decide)⟩,
    by simp only [quiet_iff]; decide, by decide, of_ok (by decide), by decide, by decide⟩
  obtain ⟨bs, s1, h1, h2⟩ := of_okAnd (p := fun bs _ => bs.all (fun b => waitCond 0 64 (ofBytes b) 0 && !waitCond 0 64 (ofBytes b) 3) && !bs.isEmpty)
    (m := readList (vWho (captureCtx base) base) 8 ((waitElems 3 8 .seq ⟨0, false⟩ (captureCtx base) (me base) []).map (fun p => p.2)) base) (by decide)
  simp only [Bool.and_eq_true, List.all_eq_true, Bool.not_eq_true'] at h2
  refine ⟨bs, s1, readsAre h1, fun b hb => (h2.1 b hb).1, ?_⟩
  cases bs with
  | nil => simp at h2
  | cons b r => exact ⟨b, by simp, (h2.1 b (by simp)).2⟩

/-! ## Nests, the matrix unit -/

/-- NestsAndReplay: one free place in the queue, a capture with one instruction left, a captured body at counts 0, 1 and 2. -/
def replay (n : Nat) : State :=
  with' fun x => { x with body := [(.vmov 2 1 2 ⟨0, false⟩ none, (entry .lwait).ctx)],
                          r := { x.r with n := if n = 0 then [] else [(0, BitVec.ofNat 256 n)] } }
theorem hyp_NestsAndReplay :
    (let s := with' fun x => { x with vq := List.replicate 63 (entry (.vunbind 1)) }
     (me s).capLeft = 0 ∧ (me s).vq.length < 64) ∧
    (let s := with' fun x => { x with vq := List.replicate 64 (entry (.vunbind 1)) }
     (me s).capLeft = 0 ∧ 64 ≤ (me s).vq.length) ∧
    (let s := with' fun x => { x with capLeft := 1 }
     (me s).capLeft = 0 + 1 ∧ Passes (ew2Check ⟨1, 2, .v 3, .sint 2, 0, false, ⟨0, false⟩, none⟩) s) ∧
    (∀ n ∈ [0, 1, 2], VecReady (ewBits 2) none (replay n) ∧ (me (replay n)).body = [(.vmov 2 1 2 ⟨0, false⟩ none, (entry .lwait).ctx)] ∧
      (entry .lwait).ctx.vl = (me (replay n)).vl ∧ (entry .lwait).ctx.rc = (me (replay n)).rc ∧ (entry .lwait).ctx.conv = 0 ∧
      (entry .lwait).ctx.upto = 0 ∧
      nestCount (nestOf (me (replay n)) 0) = n) ∧ Quiet base := by
  refine ⟨by decide, by decide, ⟨rfl, by unfold Passes; decide⟩, fun n hn => ?_, quiet_base⟩
  have h : n = 0 ∨ n = 1 ∨ n = 2 := by simpa using hn
  rcases h with rfl | rfl | rfl <;>
    exact ⟨⟨by simp only [quiet_iff]; decide, rfl, by unfold Lanes LaneOk; decide, by decide, fun _ h => by cases h⟩, rfl, rfl, rfl, rfl, rfl, by decide⟩

/-- Harts 0 to 3 of cluster 0, those before `n` attached with `g` rows. -/
def attached (n g : Nat) : State :=
  { base with harts := (List.range 4).map (fun i => (i, { hart with mgrant := if i < n then g else 0 })) }
/-- Core 0 with a partition word of one accumulator unit, its hart attached, with a tile of 128 × 128 enabled or not. -/
def tiled (on : Bool) : State :=
  { base with cores := [(0, { Core.reset with pword := 0x4000 })]
              harts := [(0, { hart with mgrant := 8, tileen := if on then 1 else 0, job := some 3, rowpred := 1, colpred := 3,
                                        r := { hart.r with g := [(8, 0x8000), (9, 30), (10, 1)] } })]
              jobs := [(3, { Job.none with harts := [0], live := true, gangKind := 2 })] }
theorem hyp_MatrixControl :
    Quiet base ∧ 0 < (me (attached 1 8)).mgrant ∧ Quiet (attached 1 8) ∧
    ((me base).mgrant = 0 ∧ (attachedOf base (clusterNo base.cur)).length < 4 ∧ 1 ≤ mrows base) ∧
    (let s := { attached 4 8 with cur := 4, harts := (attached 4 8).harts ++ [(4, hart)] }
     Quiet s ∧ (me s).mgrant = 0 ∧ 4 ≤ (attachedOf s (clusterNo s.cur)).length) ∧
    ((attachedOf (attached 4 8) 0).filter (fun h => h != 0)).length < 4 ∧
    (let rows := [(0, 8), (1, 24)]
     (∀ h ∈ attachedOf (attached 2 16) 0, rows.find? (fun p => p.1 == h) = some (h, if h = 0 then 8 else 24) ∧
        (if h = 0 then 8 else 24) % 8 = 0 ∧ 8 ≤ (if h = 0 then 8 else 24) ∧ (if h = 0 then 8 else 24) ≤ 8 * mrows (attached 2 16)) ∧
     ((attachedOf (attached 2 16) 0).map (fun h => if h = 0 then 8 else 24)).sum = 32) ∧
    (Quiet (tiled false) ∧ tilesUsed (me (tiled false)) 0 + 32 * (3 + 1) * (32 * (3 + 1)) * 4 ≤ accShare (tiled false)) ∧
    accShare base < tilesUsed (me base) 0 + 32 * (0 + 1) * (32 * (0 + 1)) * 4 ∧
    tileOn (me (tiled true)) 0 = true ∧ tileOn (me base) 0 = false ∧
    (let able (s : State) (m : BitVec 4) := (me s).mgrant ≠ 0 ∧ (jobOf s 3).gangKind = 2 ∧ m.getLsbD (coreInCluster s.cur) = true
     let arrived (m : Nat) : State := { tiled true with mgroups := cset [] 0 [(0, m)] (tiled true).mgroups }
     ¬ able base 1 ∧ able (tiled true) 1 ∧ able (tiled true) 3 ∧ (∀ p ∈ cget [] 0 (tiled true).mgroups, p ≠ (0, 1)) ∧
     groupArrived (arrived 1) 0 1 = some [0] ∧ groupArrived (arrived 3) 0 3 = none) := by
  refine ⟨quiet_base, by decide, by simp only [quiet_iff]; decide, by decide, by simp only [quiet_iff]; decide, by decide, by decide, ⟨by simp only [quiet_iff]; decide, by decide⟩,
    by decide, by decide, by decide, by decide⟩

/-- The last rows of a tile, from 30 on. -/
def lineOp : LineOp := ⟨0, 1, 0, false, 9, 9, ⟨0, false⟩⟩
theorem runsWritten {w : Who} {ps : List (Nat × List Byte)} {s s1 : State}
    (h : ps.foldl (fun (m : MR Unit) p => mbind m fun _ s => vaWriteN w p.1 p.2 s) (.ok () s) = .ok () s1) : RunsWritten w ps s s1 := by
  induction ps generalizing s with
  | nil => cases h; rfl
  | cons p ps ih =>
    simp only [List.foldl_cons, mbind] at h
    cases h2 : vaWriteN w p.1 p.2 s with
    | ok u s2 => rw [h2] at h; exact ⟨s2, h2, ih h⟩
    | bad f s2 => rw [h2] at h; exfalso; clear ih; induction ps with
      | nil => cases h
      | cons q qs ih2 => exact ih2 h
    | wait s2 => rw [h2] at h; exfalso; clear ih; induction ps with
      | nil => cases h
      | cons q qs ih2 => exact ih2 h

def readRuns (w : Who) (n : Nat) : List Nat → State → MR (List (List Byte))
  | [], s => .ok [] s
  | a :: as, s => mbind (vaReadN w a n s) fun b s => mbind (readRuns w n as s) fun r s => .ok (b :: r) s
theorem runsRead {w : Who} {n : Nat} {as : List Nat} {s s1 : State} {bs : List (List Byte)}
    (h : readRuns w n as s = .ok bs s1) : RunsRead w n as bs s s1 := by
  induction as generalizing s bs with
  | nil => cases h; rfl
  | cons a as ih =>
    obtain ⟨b, s2, h2, h⟩ := mbind_ok h
    obtain ⟨r, s3, h3, h⟩ := mbind_ok h
    cases h
    exact ⟨s2, h2, ih h3⟩

theorem hyp_TileMoves : lineOp.fmt ≠ 3 ∧ VecReady 16 none (tiled true) ∧ tileOn (me (tiled true)) 0 = true ∧ (me (tiled true)).run = .running ∧
    (∀ k, k < 2 → ∀ e, e < 4 → 30 + k < tileRows (me (tiled true)) 0 ∧ e < tileCols (me (tiled true)) 0 ∧ e < tileRows (me (tiled true)) 0) ∧
    (let cells := tileCells (me (tiled true)) 0
     let addr (p : Nat × Nat × Nat) : Nat := wrapTo 64 (0x8000 + p.2.1 * 30 + p.2.2 * 4 : Nat)
     (∃ s1, RunsWritten { matrixWho (tiled true) with hold := 2 } (cells.map (fun p => (addr p, toBytes 4 0))) (tiled true) s1) ∧
     ∃ s1 bs, RunsRead { matrixWho (tiled true) with hold := 2 } 4 (cells.map addr) bs (tiled true) s1) :=
  ⟨by decide, ⟨by simp only [quiet_iff]; decide, rfl, by unfold Lanes LaneOk; decide, by decide, fun _ h => by cases h⟩, by decide, by decide, by decide,
    let ⟨s, h⟩ := of_done (by decide); ⟨s, runsWritten h⟩, let ⟨b, s, h⟩ := of_ok (by decide); ⟨s, b, runsRead h⟩⟩

def krIs {α : Type} (p : α → Bool) (s : State) : KR α → Bool
  | .ok a s1 => p a && s1 == s
  | _ => false
theorem of_krIs {α : Type} {p : α → Bool} {s : State} {m : KR α} (h : krIs p s m = true) : ∃ a, m = .ok a s ∧ p a = true := by
  cases m with
  | ok a s1 => simp only [krIs, Bool.and_eq_true, beq_iff_eq] at h; exact ⟨a, by rw [h.2], h.1⟩
  | bad f n s1 => simp [krIs] at h
  | wait s1 => simp [krIs] at h

/-- KSums: INT8 operands whose descriptors are zeros, K = 1 and one word that the predicates leave. -/
theorem hyp_KSums : Quiet (tiled true) ∧ (me base).mgrant = 0 ∧ ((me (tiled false)).mgrant ≠ 0 ∧ tileOn (me (tiled false)) 0 = false) ∧
    (let s := tiled true; let d : MDesc := ⟨0, 0, 0, 0⟩
     (7 : BitVec 4).toNat ≤ 13 ∧ (me s).run = .running ∧ (me s).mgrp % 16 = 0 ∧ (me s).mgrant ≠ 0 ∧ tileOn (me s) 0 = true ∧ tileRows (me s) 0 = 32 ∧
     tileCols (me s) 0 = 32 ∧ 0 < min ((gGet 10 s).toNat % 2 ^ 32) (me s).klim.toNat ∧ (gGet 10 s).toNat % 2 ^ 32 ≤ sliceLen 7 7 ∧
     pairKind 7 ≠ 2 ∧ d.rs = false ∧ readDesc (matrixWho s) (gGet 8 s).toNat s = .ok d s ∧ checkDesc d 7 1 s = .ok () s ∧
     ∃ A : Nat → List Nat, ∀ l, l < 32 → (me s).colpred.getLsbD l = true → readLine (matrixWho s) d 8 1 l 0 1 s = .ok (A l) s) := by
  refine ⟨by simp only [quiet_iff]; decide, by decide, by decide, by decide, by decide, by decide, by decide, by decide, by decide, by decide, by decide, by decide,
    by decide, by decide, ?_, ?_, ?_⟩
  · obtain ⟨a, h, h'⟩ := of_krIs (p := fun d => d == ⟨0, 0, 0, 0⟩) (s := tiled true)
      (m := readDesc (matrixWho (tiled true)) (gGet 8 (tiled true)).toNat (tiled true)) (by decide)
    rw [h, beq_iff_eq.mp h']
  · rfl
  · obtain ⟨a, h, -⟩ := of_krIs (p := fun _ => true) (s := tiled true)
      (m := readLine (matrixWho (tiled true)) ⟨0, 0, 0, 0⟩ 8 1 0 0 1 (tiled true)) (by decide)
    obtain ⟨b, h', -⟩ := of_krIs (p := fun _ => true) (s := tiled true)
      (m := readLine (matrixWho (tiled true)) ⟨0, 0, 0, 0⟩ 8 1 1 0 1 (tiled true)) (by decide)
    refine ⟨fun l => if l = 0 then a else b, fun l hl hc => ?_⟩
    have : ∀ l, l < 32 → (me (tiled true)).colpred.getLsbD l = true → l = 0 ∨ l = 1 := by decide
    rcases this l hl hc with rfl | rfl
    · exact h
    · exact h'

/-! ## Key-value states -/

/-- A pool of 40 chunks in tier 1 of die 0, which its KV controller may access, and a root for partition 1. -/
def pool : State :=
  { base with accE := (List.range 8).map (fun i => (i * 65536 + 0xC004, anyEntry)) ++ base.accE ++ [(0x700 * 65536, anyEntry)]
              accD := (List.range 8).map (fun i => (i * 256, anyRegion)) ++ base.accD ++ [(0x700 * 256, anyRegion)]
              stage2 := 0x100000, stage2Entries := 64
              chunks := (List.range 40).map (fun i => { block := i, tier := 0, addr := 0x1000000 + 0x20000 * i, bytes := 0x20000,
                                                        used := false, retired := false })
              harts := [(0, { hart with kvroot := 0x200000 })]
              parts := [(1, { Part.reset with kvQuota := 30 })] }

def cfgWord : Nat := 2 ^ 47
def kvKey : Nat := 5 * 2 ^ 40

/-- The pool with so many of its blocks in use, in the places they have after reset (R116), and more bytes of memory. -/
def holding (n : Nat) (m : List Host.Cell) : State :=
  { pool with
    chunks := (List.range 40).map (fun i => { block := i, tier := 0, addr := 0x1000000 + 0x20000 * i, bytes := 0x20000,
                                              used := decide (i < n), retired := false })
    parts := [(1, { Part.reset with kvQuota := 30, kvHeld := n })]
    mem := m ++ tables }

/-- A header with one layer and head (R112), and none open. -/
def header : List Host.Cell := [(0x200005, 0x80), (0x200007, 0x80)]
def configured : State := holding 0 header

/-- Sequence 5 open: the directories of R113 in blocks 0 and 1, its key in block 2, with no token. -/
def sequence : List Host.Cell :=
  header ++ [(0x200008, 1), (0x20000B, 1), (0x1000000, 1), (0x1000002, 2), (0x1000003, 1), (0x1020028, 1), (0x102002A, 4), (0x102002B, 1)]
def opened : State := holding 3 sequence

/-- One position stored: its key in block 5, its score in block 6, its recovery copy in block 7, each found through tables
of its own, and a codebook in block 12, all zero (R112 to R130). -/
def stored : State :=
  holding 13 ([(0x100052, 0x0A), (0x100053, 1), (0x100056, 0x80), (0x100057, 0x40), (0x100062, 0x0C), (0x100063, 1),
      (0x100066, 0xC0), (0x100067, 0x40), (0x100072, 0x0E), (0x100073, 1), (0x100076, 0xA0), (0x100077, 0x40)] ++ sequence ++
    [(0x1040000, 1), (0x1040002, 6), (0x1040003, 1), (0x1040010, 1), (0x1040012, 0x10), (0x1040013, 1),
     (0x1040018, 1), (0x104001A, 0x14), (0x104001B, 1), (0x1040028, 1), (0x104002A, 0x18), (0x104002B, 1), (0x1040038, 1),
     (0x1060000, 1), (0x1060002, 8), (0x1060003, 1), (0x1080000, 0x80), (0x1080001, 2), (0x1080007, 0x80),
     (0x1100000, 1), (0x1100002, 0x12), (0x1100003, 1), (0x1120001, 3), (0x1120007, 0x80),
     (0x1140000, 1), (0x1140002, 0x16), (0x1140003, 1), (0x1160000, 0x80), (0x1160001, 3), (0x1160007, 0x88)])

theorem kv_configured : okAnd (fun a s => a == 0 && Memory.wf s.mem) (whole (keyWho pool) (kvCfg (keyWho pool) cfgWord) pool) = true := by
  decide +kernel
theorem kv_opened : okAnd (fun _ _ => true) (whole (keyWho configured) (kvOpen (keyWho configured) kvKey) configured) = true := by
  decide +kernel
theorem kv_closed : okAnd (fun _ _ => true) (whole (keyWho configured) (kvClose (keyWho configured) kvKey) configured) = true := by
  decide +kernel
theorem kv_pinned : okAnd (fun _ _ => true) (whole (keyWho opened) (kvPin (keyWho opened) (kvKey + 1)) opened) = true := by
  decide +kernel
theorem kv_cb : okAnd (fun _ _ => true) (whole (keyWho opened) (kvCb (keyWho opened) kvKey 0x8000
    (vaReadN (hartWho opened opened.cur 4 (me opened).handler) 0x8000 4096)) opened) = true := by
  decide +kernel
theorem kv_freed : okAnd (fun _ _ => true) (whole (keyWho opened) (freeRange (keyWho opened) kvKey (min 1 posLimit)) opened) = true := by
  decide +kernel

/-- The moves, clearings and frees of a compaction as one computation. -/
def compSteps (w : Who) (a : Nat) (k : Key) : Nat → Comp → State → MR Comp
  | 0, _, s => .wait s
  | n + 1, c, s => mbind (compStep w a k c s) fun r s2 => match r with
    | none => .ok c s2
    | some c2 => compSteps w a k n c2 s2

/-- The head of a key, its NEXTPOS, the start and the steps of the compaction, one after another. -/
def compacted (s : State) (mask : List Byte) : MR Comp :=
  mbind (kvHead (keyWho s) kvKey true s) fun k s1 => mbind (nextPos (keyWho s) kvKey k s1) fun n s2 =>
    mbind (compStart (keyWho s) kvKey k n mask s2) fun c s4 => compSteps (keyWho s) kvKey k (compFuel 0) c s4
theorem kv_compacted : okAnd (fun c _ => c.lost == 0) (compacted opened []) = true := by decide +kernel
theorem kv_empty : okAnd (fun a _ => a == 0) (mbind (kvHead (keyWho opened) kvKey true opened) fun k s1 => nextPos (keyWho opened) kvKey k s1) = true := by
  decide +kernel

/-- KeyContexts: configuration, opening, closing, pinning, a codebook, a range that is empty and one that is not; blocks in the states of R119. -/
theorem hyp_KeyContexts :
    Quiet pool ∧ Unbound pool ∧ (me pool).run = .running ∧ Quiet opened ∧ Unbound opened ∧ (me opened).run = .running ∧
    (∃ s1, whole (keyWho pool) (kvCfg (keyWho pool) cfgWord) pool = .ok 0 s1 ∧ MemInv s1) ∧ kvRoot (keyWho pool) pool < 2 ^ 54 ∧
    kvRoot (keyWho pool) pool / 2 ^ 44 = pool.pkg ∧ kvRoot (keyWho pool) pool % 2 ^ 44 < 0x40000000000 ∧ pool.keyUses = [] ∧ opened.keyUses = [] ∧
    (∃ st s1, whole (keyWho configured) (kvOpen (keyWho configured) kvKey) configured = .ok st s1) ∧
    (∃ st s1, whole (keyWho configured) (kvClose (keyWho configured) kvKey) configured = .ok st s1) ∧
    (∃ st s1, whole (keyWho opened) (kvPin (keyWho opened) (kvKey + 1)) opened = .ok st s1) ∧
    (1 % 2 ^ 40 ≠ 0 ∧ 2 ^ 60 ≤ 2 ^ 60) ∧ (kaKind kvKey = 0 ∧ kaPos kvKey = 0 ∧ min 0 posLimit ≤ kaPos kvKey ∧ kaPos kvKey < min 1 posLimit) ∧
    (∃ s1, whole (keyWho opened) (freeRange (keyWho opened) kvKey (min 1 posLimit)) opened = .ok () s1) := by
  refine ⟨by simp only [quiet_iff]; decide, rfl, rfl, by simp only [quiet_iff]; decide, rfl, rfl, ?_, by decide, by decide, by decide, rfl, rfl, of_ok kv_opened, of_ok kv_closed, of_ok kv_pinned, by decide,
    by decide, of_done kv_freed⟩
  obtain ⟨a, s1, h1, h2⟩ := of_okAnd kv_configured
  simp only [Bool.and_eq_true, beq_iff_eq] at h2
  exact ⟨s1, by rw [h1, h2.1], h2.2⟩

theorem compSteps_are {w : Who} {a : Nat} {k : Key} {n : Nat} {c z : Comp} {s s1 : State} (h : compSteps w a k n c s = .ok z s1) :
    CompSteps w a k n c s z s1 := by
  induction n generalizing c s with
  | zero => cases h
  | succ n ih =>
    obtain ⟨r, s2, h2, h⟩ := mbind_ok h
    refine ⟨r, s2, h2, ?_⟩
    cases r with
    | none => cases h; exact ⟨rfl, rfl⟩
    | some c2 => exact ih h

/-- KVCOMP of a key with no position, whose mask has no byte. -/
theorem hyp_KeyContexts_comp : ∃ k n s1 s2 c0 c s4 s5, kvHead (keyWho opened) kvKey true opened = .ok k s1 ∧
    nextPos (keyWho opened) kvKey k s1 = .ok n s2 ∧ vaReadN (hartWho opened opened.cur 4 (me opened).handler) 0x8000 ((n + 7) / 8) s2 = .ok [] s2 ∧
    compStart (keyWho opened) kvKey k n [] s2 = .ok c0 s4 ∧ CompSteps (keyWho opened) kvKey k (compFuel n) c0 s4 c s5 ∧ c.lost = 0 := by
  obtain ⟨c, s5, h, hp⟩ := of_okAnd kv_compacted
  obtain ⟨k, s1, h1, h⟩ := mbind_ok h
  obtain ⟨n, s2, h2, h⟩ := mbind_ok h
  obtain ⟨c0, s4, h4, h5⟩ := mbind_ok h
  obtain ⟨n', s2', h', hn⟩ := of_okAnd kv_empty
  have e : n = 0 := by
    rw [h1] at h'
    change nextPos (keyWho opened) kvKey k s1 = _ at h'
    rw [h2] at h'
    cases h'
    exact beq_iff_eq.mp hn
  subst e
  exact ⟨k, 0, s1, s2, c0, c, s4, s5, h1, h2, rfl, h4, compSteps_are h5, beq_iff_eq.mp hp⟩

/-- BlockMoves: block 0 of a chunk in use in STATE 1, in STATE 0, and in STATE 2. -/
def blocks (m : List Host.Cell) : State := { opened with mem := m }
theorem hyp_BlockMoves : Memory.wf (blocks [(0x100000, 1), (0x100007, 0x40)]).mem = true ∧
    s2State (stage2Get (blocks [(0x100000, 1), (0x100007, 0x40)]) 0) = 1 ∧ 0 < opened.stage2Entries ∧
    (opened.chunks.find? (fun x => x.used && x.block == 0)).isSome = true ∧
    Memory.wf (blocks []).mem = true ∧ s2State (stage2Get (blocks []) 0) = 0 ∧
    Memory.wf (blocks [(0x100007, 0x80)]).mem = true ∧ s2State (stage2Get (blocks [(0x100007, 0x80)]) 0) = 2 := by
  decide +kernel

theorem ok_eq {α : Type} [BEq α] [LawfulBEq α] {x : α} {s : State} {m : MR α} (h : okAnd (fun a s1 => a == x && s1 == s) m = true) :
    m = .ok x s := by
  obtain ⟨a, s1, h1, h2⟩ := of_okAnd h
  simp only [Bool.and_eq_true, beq_iff_eq] at h2
  rw [h1, h2.1, h2.2]

/-- The hart of a key's instruction, one row of `n` elements, with its queue empty. -/
def keyed (n : Nat) (key : Nat) (s : State) : State :=
  { s with harts := [(0, { hart with kvroot := 0x200000, vl := n, rc := 1, r := { hart.r with g := [(8, BitVec.ofNat 64 key)] } })] }

/-- KeysInTurn: an instruction of hart 1 that reads the key of hart 0. -/
theorem hyp_KeyContexts_turn : let s := { keyed 1 kvKey opened with keyUses := [⟨1, false, 0x200000, bitsOf kvKey 26 34, false, 0, true⟩] }
    Quiet s ∧ (∀ u ∈ s.keyUses, u.hart ≠ s.cur) ∧ ∃ v ∈ s.keyUses, v.root = (me s).kvroot.toNat ∧ v.all = false ∧
      v.key = bitsOf (gGet 8 s).toNat 26 34 ∧ kaKind (gGet 8 s).toNat = 0 ∧ kaPos (gGet 8 s).toNat = 0 := by
  refine ⟨by simp only [quiet_iff]; decide, by decide, by decide⟩

theorem zero_vector : (rotate128 ((List.range 128).map (fun j =>
    if active (me (keyed 128 kvKey opened)) ⟨0, false⟩ 0 (0 + j) then
      (roundV fp32 0 false (decodeF (f012 0) (vElem (me (keyed 128 kvKey opened)) 0 0 (0 + j) (f012Bits 0)))).1
    else 0))).1 = List.replicate 128 0 := by
  have h : ((List.range 128).map (fun j =>
    if active (me (keyed 128 kvKey opened)) ⟨0, false⟩ 0 (0 + j) then
      (roundV fp32 0 false (decodeF (f012 0) (vElem (me (keyed 128 kvKey opened)) 0 0 (0 + j) (f012Bits 0)))).1
    else 0)) = List.replicate 128 0 := by decide +kernel
  have h2 : (rotate128 (List.replicate 128 0)).1 = List.replicate 128 0 := by decide +kernel
  rw [h, h2]

/-- KVAPP: one token. -/
theorem hyp_KeyElements_app : let s := keyed 128 kvKey opened
    VecReady (f012Bits 0) none s ∧ (me s).run = .running ∧ kaKind (gGet 8 s).toNat = 0 ∧ kaPos (gGet 8 s).toNat = 0 ∧ (me s).vl % 128 = 0 ∧
    ∃ s1, Appended (keyWho s) (gGet 8 s).toNat (((tokensOf (captureCtx s)).filter (fun p =>
        (List.range 128).any (fun j => active (me s) ⟨0, false⟩ p.1 (p.2 + j)))).map (fun p =>
        ((rotate128 ((List.range 128).map (fun j =>
          if active (me s) ⟨0, false⟩ p.1 (p.2 + j) then
            (roundV fp32 0 false (decodeF (f012 0) (vElem (me s) 0 p.1 (p.2 + j) (f012Bits 0)))).1
          else 0))).1, (rotate128 ((List.range 128).map (fun j =>
          if active (me s) ⟨0, false⟩ p.1 (p.2 + j) then
            (roundV fp32 0 false (decodeF (f012 0) (vElem (me s) 0 p.1 (p.2 + j) (f012Bits 0)))).1
          else 0))).1))) s s1 := by
  refine ⟨⟨by simp only [quiet_iff]; decide, rfl, by unfold Lanes LaneOk; decide, by decide, by intro r h; cases h⟩, rfl, by decide, by decide, by decide, ?_⟩
  have ht : (tokensOf (captureCtx (keyed 128 kvKey opened))).filter (fun p =>
        (List.range 128).any (fun j => active (me (keyed 128 kvKey opened)) ⟨0, false⟩ p.1 (p.2 + j))) = [(0, 0)] := by decide +kernel
  rw [ht]
  simp only [List.map_cons, List.map_nil, zero_vector, Appended]
  have h : okAnd (fun _ _ => true) (appendToken (keyWho (keyed 128 kvKey opened)) (gGet 8 (keyed 128 kvKey opened)).toNat
    (List.replicate 128 0) (List.replicate 128 0) (keyed 128 kvKey opened)) = true := by decide +kernel
  obtain ⟨s1, h⟩ := of_done h
  exact ⟨s1, s1, h, rfl⟩

/-- A token of zeros, as KV4H stores it. -/
def zeroToken : Kv4 := ⟨0, List.replicate 128 0⟩
def tokenS : State := keyed 128 kvKey stored
def queryS : State := keyed 1 kvKey stored
def scoreS : State := keyed 1 (kvKey + 2 * 2 ^ 60) stored

/-- Whether the walk to an instruction's first position finds it below NEXTPOS 1 and leaves the state, and `q` holds of the key. -/
def walkedAnd (s : State) (q : Key → Bool) : Bool :=
  okAnd (fun r s1 => r.2 == [2] && s1 == s && q r.1) (kvAt (keyWho s) (gGet 8 s).toNat 0 false [0] s)

theorem walked_key {s : State} {q : Key → Bool} (h : walkedAnd s q = true) :
    ∃ k, kvAt (keyWho s) (gGet 8 s).toNat 0 false [0] s = .ok (k, [1 + 1]) s ∧ q k = true := by
  obtain ⟨⟨a, b⟩, s1, h1, h2⟩ := of_okAnd h
  simp only [Bool.and_eq_true, beq_iff_eq] at h2
  exact ⟨a, by rw [h1, h2.1.1, h2.1.2], h2.2⟩

def tokenRead (s : State) (k : Key) : MR Kv4 :=
  let a := (gGet 8 s).toNat
  readKv4 (keyWho s) (kaAt a (kaPos a + 0)) k 0 ((kaPos a + 0) / hdrP k.hdr) ((kaPos a + 0) % hdrP k.hdr) s

theorem token_read (s : State) (h : walkedAnd s (fun k => okAnd (fun x s1 => x == zeroToken && s1 == s) (tokenRead s k)) = true) :
    ∃ k, kvAt (keyWho s) (gGet 8 s).toNat 0 false [0] s = .ok (k, [1 + 1]) s ∧ tokenRead s k = .ok zeroToken s :=
  let ⟨k, h, h1⟩ := walked_key h; ⟨k, h, ok_eq h1⟩

theorem book_read (s : State) (h : walkedAnd s (fun k => okAnd (fun x s1 => x == some (List.replicate 4096 0) && s1 == s)
      (kvCodebook (keyWho s) (kaAt (gGet 8 s).toNat (kaPos (gGet 8 s).toNat + 0)) k 0 s)) = true) :
    ∃ k, kvAt (keyWho s) (gGet 8 s).toNat 0 false [0] s = .ok (k, [1 + 1]) s ∧
      kvCodebook (keyWho s) (kaAt (gGet 8 s).toNat (kaPos (gGet 8 s).toNat + 0)) k 0 s = .ok (some (List.replicate 4096 0)) s :=
  let ⟨k, h, h1⟩ := walked_key h; ⟨k, h, ok_eq h1⟩

def scoreRead (s : State) (k : Key) : MR (List Byte) :=
  let a := (gGet 8 s).toNat
  mbind (kvPage (keyWho s) (kaAt a (kaPos a + 0)) k 2 ((kaPos a + 0) / hdrP k.hdr) false s) fun pg s1 => match pg with
    | .inl pg => if s1 = s then blockBytes (keyWho s) (kaAt a (kaPos a + 0)) (pg.addr + 4 * ((kaPos a + 0) % hdrP k.hdr)) 4 8 s else .wait s
    | .inr _ => .wait s

/-- Scores added at positions from the key on, as one computation. -/
def scores (w : Who) (a : Nat) : List (Nat × Nat) → List Nat → State → MR Unit
  | [], _, s => .ok () s
  | (i, y) :: r, kept, s =>
    mbind (kvAt w a i true kept s) fun x s =>
      mbind (kvPage w (kaAt a (kaPos a + i)) x.1 2 ((kaPos a + i) / hdrP x.1.hdr) true s) fun pg s =>
        match pg with
        | .inl pg => mbind (accScore w (kaAt a (kaPos a + i)) (hdrP x.1.hdr) ((kaPos a + i) % hdrP x.1.hdr) y pg s) fun _ s => scores w a r x.2 s
        | .inr _ => .wait s

theorem scoresAdded {w : Who} {a : Nat} {l : List (Nat × Nat)} {kept : List Nat} {s s1 : State} (h : scores w a l kept s = .ok () s1) :
    ScoresAdded w a l kept s s1 := by
  induction l generalizing kept s with
  | nil => cases h; rfl
  | cons p l ih =>
    obtain ⟨⟨key, kept'⟩, s2, h1, h⟩ := mbind_ok h
    obtain ⟨pg, s3, h2, h⟩ := mbind_ok h
    cases pg with
    | inr x => cases h
    | inl pg =>
      obtain ⟨_, s4, h3, h⟩ := mbind_ok h
      exact ⟨key, kept', pg, s2, s3, s4, h1, h2, h3, ih h⟩

theorem reads_elements :
    walkedAnd tokenS (fun k => okAnd (fun x s1 => x == zeroToken && s1 == tokenS) (tokenRead tokenS k)) = true ∧
    walkedAnd queryS (fun k => okAnd (fun x s1 => x == zeroToken && s1 == queryS) (tokenRead queryS k)) = true ∧
    walkedAnd scoreS (fun k => okAnd (fun x s1 => x == [0, 0, 0, 0] && s1 == scoreS) (scoreRead scoreS k)) = true ∧
    okAnd (fun x s1 => x.2.1 == [2] && x.2.2 == List.replicate 16 0 && s1 == queryS) (vqToken (keyWho queryS) kvKey 0 [0] queryS) = true ∧
    okAnd (fun _ _ => true) (scores (keyWho scoreS) (gGet 8 scoreS).toNat ((activeOf none ⟨0, false⟩ scoreS).map (fun p =>
      (p.2, vElem (me scoreS) 0 p.1 p.2 32))) [0] scoreS) = true := by
  decide +kernel

theorem reads_book : walkedAnd queryS (fun k => okAnd (fun x s1 => x == some (List.replicate 4096 0) && s1 == queryS)
      (kvCodebook (keyWho queryS) (kaAt (gGet 8 queryS).toNat (kaPos (gGet 8 queryS).toNat + 0)) k 0 queryS)) = true := by
  decide +kernel

/-- KVLD of a token and of a score, KVSCORE, KVVQS with tables and with a query, and KVACC. -/
theorem hyp_KeyElements : (tokenS.keyUses = [] ∧ queryS.keyUses = [] ∧ scoreS.keyUses = [] ∧ (keyed 128 kvKey opened).keyUses = []) ∧
    (VecReady 32 none tokenS ∧ kaKind (gGet 8 tokenS).toNat = 0 ∧ (me tokenS).vl % 128 = 0 ∧
      ∀ k i, InSweep none tokenS k i → ∃ key, kvAt (keyWho tokenS) (gGet 8 tokenS).toNat ((k * (me tokenS).vl + i) / 128) false [0] tokenS =
        .ok (key, [1 + 1]) tokenS ∧ tokenRead tokenS key = .ok zeroToken tokenS) ∧
    (VecReady 32 none queryS ∧ kaKind (gGet 8 queryS).toNat = 0 ∧ (0 : Reg) ≠ 1 ∧
      (∀ k i, InSweep none queryS k i → ∃ key, kvAt (keyWho queryS) (gGet 8 queryS).toNat i false [0] queryS = .ok (key, [1 + 1]) queryS ∧
        tokenRead queryS key = .ok zeroToken queryS) ∧
      (∀ k i, InSweep none queryS k i → ∃ key, vqToken (keyWho queryS) kvKey i [0] queryS = .ok (key, [1 + 1], List.replicate 16 0) queryS) ∧
      (∀ k i, InSweep none queryS k i → ∃ key, kvAt (keyWho queryS) (gGet 8 queryS).toNat i false [0] queryS = .ok (key, [1 + 1]) queryS ∧
        kvCodebook (keyWho queryS) (kaAt (gGet 8 queryS).toNat (kaPos (gGet 8 queryS).toNat + i)) key 0 queryS =
          .ok (some (List.replicate 4096 0)) queryS)) ∧
    (VecReady 32 none scoreS ∧ kaKind (gGet 8 scoreS).toNat = 2 ∧
      (∀ k i, InSweep none scoreS k i → ∃ key pg, kvAt (keyWho scoreS) (gGet 8 scoreS).toNat i false [0] scoreS = .ok (key, [1 + 1]) scoreS ∧
        kvPage (keyWho scoreS) (kaAt (gGet 8 scoreS).toNat (kaPos (gGet 8 scoreS).toNat + i)) key 2
          ((kaPos (gGet 8 scoreS).toNat + i) / hdrP key.hdr) false scoreS = .ok (.inl pg) scoreS ∧
        blockBytes (keyWho scoreS) (kaAt (gGet 8 scoreS).toNat (kaPos (gGet 8 scoreS).toNat + i))
          (pg.addr + 4 * ((kaPos (gGet 8 scoreS).toNat + i) % hdrP key.hdr)) 4 8 scoreS = .ok [0, 0, 0, 0] scoreS) ∧
      ∃ s1, ScoresAdded (keyWho scoreS) (gGet 8 scoreS).toNat ((activeOf none ⟨0, false⟩ scoreS).map (fun p =>
        (p.2, vElem (me scoreS) 0 p.1 p.2 32))) [0] scoreS s1) := by
  obtain ⟨h1, h2, h3, h4, h5⟩ := reads_elements
  refine ⟨⟨rfl, rfl, rfl, rfl⟩, ⟨⟨by simp only [quiet_iff]; decide, rfl, by unfold Lanes LaneOk; decide, by decide, by intro r h; cases h⟩, by decide, by decide, ?_⟩,
    ⟨⟨by simp only [quiet_iff]; decide, rfl, by unfold Lanes LaneOk; decide, by decide, by intro r h; cases h⟩, by decide, by decide, ?_, ?_, ?_⟩,
    ⟨⟨by simp only [quiet_iff]; decide, rfl, by unfold Lanes LaneOk; decide, by decide, by intro r h; cases h⟩, by decide, ?_, ?_⟩⟩
  · intro k i ⟨a, b, _⟩
    have e : (k * (me tokenS).vl + i) / 128 = 0 := by
      change k < 1 at a
      change i < 128 at b
      change (k * 128 + i) / 128 = 0
      omega
    rw [e]
    exact token_read _ h1
  · intro k i ⟨_, b, _⟩
    have e : i = 0 := Nat.lt_one_iff.mp b
    rw [e]
    exact token_read _ h2
  · intro k i ⟨_, b, _⟩
    have e : i = 0 := Nat.lt_one_iff.mp b
    rw [e]
    obtain ⟨⟨key, kept, x⟩, s1, h, hp⟩ := of_okAnd h4
    simp only [Bool.and_eq_true, beq_iff_eq] at hp
    rw [hp.1.1, hp.1.2, hp.2] at h
    exact ⟨key, h⟩
  · intro k i ⟨_, b, _⟩
    have e : i = 0 := Nat.lt_one_iff.mp b
    rw [e]
    exact book_read _ reads_book
  · intro k i ⟨_, b, _⟩
    have e : i = 0 := Nat.lt_one_iff.mp b
    rw [e]
    obtain ⟨key, h, hq⟩ := walked_key h3
    obtain ⟨x, s1, hq, hp⟩ := of_okAnd hq
    obtain ⟨pg, s2, hg, hq⟩ := mbind_ok hq
    simp only [Bool.and_eq_true, beq_iff_eq] at hp
    cases pg with
    | inr x => cases hq
    | inl pg =>
      simp only at hq
      split at hq
      · rename_i e2
        rw [e2] at hg
        rw [hp.1, hp.2] at hq
        exact ⟨key, pg, h, hg, hq⟩
      · cases hq
  · obtain ⟨s1, h⟩ := of_done h5
    exact ⟨s1, scoresAdded h⟩

/-! ## Records, the long recurrence and the chain sequencer -/

/-- The same with an anemometer that may read and not write, or neither. -/
def recordsFor (e : BitVec 64) : State := { records 1 0x447A0000 with accE := base.accE ++ [(264 * 65536 + 0xC014, e)] }
def readEntry : BitVec 64 := BitVec.ofNat 64 (2 ^ 63 + 2 ^ 55 + 2 ^ 51 + 2 ^ 16)

/-- RecordsAndRecurrence: present and absent records, which the anemometer may access or not, good and bad control words, a
bound slot that another overlaps. -/
theorem hyp_RecordsAndRecurrence : let s := records 1 0x447A0000
    (let may (s : State) (k : AccKind) : Bool := recCode s (dieNo s.cur) 1 2 k == 0
     (gGet 8 s).toNat = 2 ∧ may s .read = true ∧ may s .write = true ∧ may (recordsFor 0) .read = false ∧
     may (recordsFor readEntry) .read = true ∧ may (recordsFor readEntry) .write = false ∧ Quiet (recordsFor readEntry) ∧
     Unbound (recordsFor readEntry) ∧ recPresent (recordsFor readEntry) 1 2 = true ∧ recPresent (recordsFor 0) 1 2 = true ∧
     cget false (recAddr s 1 2 / 65536) s.zeroPend = false) ∧
    Quiet s ∧ Unbound s ∧ recPresent s 1 (gGet 8 s).toNat = true ∧ Memory.wf s.mem = true ∧ ((2 : Nat) < 2 ^ 13 ∧ recFmtOk (bitsOf 2 8 4) = true) ∧
    2 ^ 13 ≤ (gGet 8 base).toNat ∧ recFmtOk (bitsOf 0x900 8 4) = false ∧ recPresent s 1 8 = false ∧
    ((gGet 0 s).toNat % 64 = 0 ∧ (gGet 8 base).toNat % 64 = 0) ∧
    (VecReady (f012Bits 0) none full ∧ (1 : Reg) ≠ 2 ∧ (0 : BitVec 2) ≠ 3) ∧ (Quiet full ∧ Unbound full ∧ Lanes full) := by
  refine ⟨by simp only [quiet_iff, Unbound]; decide, by simp only [quiet_iff]; decide, rfl, by decide, by decide, by decide, by decide, by decide, by decide, by decide,
    ⟨ready_full _ _ (by decide), by decide, by decide⟩, by simp only [quiet_iff]; decide, rfl, by unfold Lanes LaneOk; decide⟩

/-- The frame of a chain of four steps with two slots in tier 2 at 0x8000 (R238). -/
def chainState : State :=
  { base with mem := tables ++ [(0x10000008000, 4), (0x10000008004, 2), (0x10000008007, 2), (0x10000008009, 0x31), (0x10000008011, 0x32),
                                (0x1000000801A, 2), (0x10000008020, 64), (0x10000008039, 0x90)] }
def frameBytes : List Byte := held' (vaReadN (myWho chainState) 0x8000 64 chainState)
where held' : MR (List Byte) → List Byte
  | .ok b _ => b
  | _ => []
/-- REVCH's reads and writes as one computation. -/
def chainStarts : MR Unit :=
  mbind (slotsHold (chainOf 0x8000 frameBytes 0x2008 1) chainState) fun ok s =>
    if ok && eddyTagsIdle s 0 then
      mbind (vaProbe (myWho chainState) 0x9000 8 s) fun _ s => mbind (vaProbe (myWho chainState) 0x8000 64 s) fun _ s =>
        mbind (vaWriteN (myWho chainState) 0x9000 (List.replicate 8 0xFF) s) fun _ s => putFrame (chainOf 0x8000 frameBytes 0x2008 1) s
    else .wait s
def inChain (f : Chain → Chain) : State := with' fun x => { x with r := { x.r with chains := [f chain] } }

theorem hyp_ChainReversal :
    (let s := chainState
     (me s).capLeft = 0 ∧ (me (with' fun x => { x with handler := true })).handler = true ∧ (me s).r.chains = [] ∧ Quiet s ∧
     (me s).handler = false ∧ (gGet 8 s).toNat % 64 = 0 ∧ (me s).r.chains.length < 4) ∧
    (∃ s1, vaReadN (myWho chainState) 0x8000 64 chainState = .ok frameBytes s1) ∧
    chainSub (chainOf 0x8000 frameBytes 0x2008 1) (ofBytes ((frameBytes.drop 0x24).take 4)) 3 = 0 ∧
    (∃ s2 p1 p2 s3 s4, slotsHold (chainOf 0x8000 frameBytes 0x2008 1) chainState = .ok true s2 ∧ eddyTagsIdle s2 0 = true ∧
      vaProbe (myWho chainState) 0x9000 8 s2 = .ok () p1 ∧ vaProbe (myWho chainState) 0x8000 64 p1 = .ok () p2 ∧
      vaWriteN (myWho chainState) 0x9000 (List.replicate 8 0xFF) p2 = .ok () s3 ∧ putFrame (chainOf 0x8000 frameBytes 0x2008 1) s3 = .ok () s4) := by
  refine ⟨⟨by decide, by decide, by decide, by simp only [quiet_iff]; decide, by decide, by decide, by decide⟩, ?_, by decide +kernel, ?_⟩
  · obtain ⟨a, s1, h, hp⟩ := of_okAnd (p := fun a _ => a == frameBytes) (m := vaReadN (myWho chainState) 0x8000 64 chainState) (by decide +kernel)
    exact ⟨s1, by rw [h, beq_iff_eq.mp hp]⟩
  · obtain ⟨s4, h⟩ := of_done (m := chainStarts) (by decide +kernel)
    obtain ⟨ok, s2, h2, h⟩ := mbind_ok h
    cases ok with
    | false => cases h
    | true =>
      cases hi : eddyTagsIdle s2 0 with
      | false => simp [hi] at h
      | true =>
        simp only [hi, Bool.and_self, if_true] at h
        obtain ⟨_, p1, g1, h⟩ := mbind_ok h
        obtain ⟨_, p2, g2, h⟩ := mbind_ok h
        obtain ⟨_, s3, h3, h4⟩ := mbind_ok h
        exact ⟨s2, p1, p2, s3, s4, h2, hi, g1, g2, h3, h4⟩

/-- The sequencer's first action: of a chain alone, or inside one whose frame is still to be written. -/
def outerChain : Chain := { chain with frame := 0xA000, stale := true }
def nested (c : Chain) : State := with' fun x => { x with r := { x.r with chains := [c, outerChain] } }
def staleThen (_c d : Chain) (s : State) : MR Unit := mbind (putStale (((me s).r.chains.drop 1).reverse) s) fun _ s0 => putFrame d s0
theorem stale_then {c d : Chain} (h : okAnd (fun _ _ => true) (staleThen c d (nested c)) = true) :
    ∃ s0 s1, putStale [outerChain].reverse (nested c) = .ok () s0 ∧ putFrame d s0 = .ok () s1 := by
  obtain ⟨s1, h⟩ := of_done h
  obtain ⟨_, s0, h0, h1⟩ := mbind_ok h
  exact ⟨s0, s1, h0, h1⟩

/-- The sequencer's next action: a step, an adjoint, the end; the return from a step and from an adjoint; the end by REVABT. -/
theorem hyp_ChainReversal_calls :
    (let c := { chain with acting := true, tasks := [.sweep 0] }
     let s := nested c
     (me s).pend = none ∧ (me s).handler = false ∧ 0 < c.n ∧ copyBusy c s (stateAt c true 0) (some (workAt c 1)) = false ∧
     ∃ s0 s1, putStale [outerChain].reverse s = .ok () s0 ∧ putFrame { c with phase := 0, curidx := 0, inrout := true } s0 = .ok () s1) ∧
    (let c := { chain with acting := true, tasks := [.adj 3] }
     let s := nested c
     copyBusy c s (stateAt c false 3) none = false ∧
     ∃ s0 s1, putStale [outerChain].reverse s = .ok () s0 ∧
       putFrame { c with phase := 2, retarget := noRetarget, curidx := 3, inrout := true } s0 = .ok () s1) ∧
    (let c := { chain with acting := true, tasks := [.done] }
     let s := inChain fun _ => c
     snapCount s = 0 ∧ ∃ s1, putFrame { c with phase := 3, retarget := noRetarget } s = .ok () s1) ∧
    (let c := { chain with calling := some (0, 3) }
     Quiet (inChain fun _ => c) ∧ c.acting = false ∧ c.inrout = true) ∧
    (let c := { chain with calling := some (1, 3) }
     ∃ s1, putFrame { c with inrout := false, calling := none, nextadj := BitVec.ofInt 32 ((3 : Int) - 1), acting := true } (inChain fun _ => c) = .ok () s1) ∧
    (∃ s1, putFrame { chain with phase := 3, aborted := true, inrout := false } (inChain fun c => c) = .ok () s1) := by
  refine ⟨⟨by decide, by decide, by decide, by decide, stale_then (by decide +kernel)⟩, ⟨by decide, stale_then (by decide +kernel)⟩, ⟨by decide, of_done (by decide +kernel)⟩,
    ⟨by simp only [quiet_iff]; decide, by decide, by decide⟩, of_done (by decide +kernel), of_done (by decide +kernel)⟩

/-! ## Copies, tags and rings -/

/-- A core with one unit of stream register file and, at 0x8000 of it, a ring of two slots of 64 bytes at 0x9000 that holds `n`. -/
def ringed (n : Nat) : State :=
  { base with mem := tables ++ (centries unlistedByte 0x80000008000 (toBytes 8 0x0001000200009000 ++ toBytes 4 0 ++ toBytes 4 n))
              cores := [(0, { Core.reset with pword := 0x40000 })] }

/-- A command of each kind, of 8 bytes. -/
def cpy : CpyOp := ⟨false, 0, 5, 8, 8, 9⟩
def moving (mode : Nat) : CopyCmd := { command with mode := mode, blk := 8, dst := 0xA000, stream := 3 }
def readWho (c : CopyCmd) (s : State) : Who := { copyWho 0 c s with hold := copySlot c 0 }
def writeWho (c : CopyCmd) (s : State) : Who := { copyWho 0 c s with hold := copySlot c 1 }
def copied (c : CopyCmd) (s : State) : MR Unit :=
  mbind (vaReadN (readWho c s) c.src.toNat c.blk s) fun bs s1 => vaWriteN (writeWho c s) c.dst.toNat bs s1
def hashed (c : CopyCmd) (s : State) : MR Unit :=
  mbind (vaReadN (readWho c s) c.src.toNat c.blk s) fun bs s1 =>
    if bs.length = c.blk then vaWrite (copyWho 0 c s) c.dst.toNat (sha256 bs) s1 else .wait s1

theorem hyp_CopiesAndTags :
    ((me base).capLeft = 0 ∧ (me base).pend = none ∧ cpyReason 0 false cpy base = none ∧ cpyReason 1 false cpy base = none ∧
      cpyReason 2 false cpy base = none ∧ cpyReason 0 true cpy (ringed 0) = none ∧ cpyReason 0 true cpy base = some 0 ∧
      cpyReason 0 false ⟨false, 0, 5, 8, 8, 0⟩ base = some 0 ∧ queuedCmds base < 16 ∧ tagCountOf (coreOf base 0) 5 < 255 ∧
      (∀ x ∈ (coreOf base 0).cmds, x.phase = 0 → x.begun = true) ∧ ((coreOf base 0).cmds.filter (fun x => x.phase == 0)).length < 16) ∧
    255 ≤ tagCountOf (coreOf { base with cores := [(0, { Core.reset with tagCount := [(5, 255)] })] } 0) 5 ∧
    16 ≤ queuedCmds { base with cores := [(0, { Core.reset with cmds := List.replicate 16 command })] } ∧
    (∀ m ∈ [0, 1, 2], let c := moving m; (coreOf (copying c) 0).cmds = [c] ∧ c.phase = 0 ∧ c.dims = 0 ∧ c.nest = [] ∧ c.ring = false ∧ c.keep = false ∧
      c.blocks = 0 ∧ c.bytes = 0 ∧ c.buf = [] ∧ c.hash = shaInit ∧ c.tail = []) ∧
    (∃ bs s1 s2, vaReadN (readWho (moving 0) (copying (moving 0))) 0x8000 8 (copying (moving 0)) = .ok bs s1 ∧
      vaWriteN (writeWho (moving 0) (copying (moving 0))) 0xA000 bs s1 = .ok () s2) ∧
    (∃ s2, vaWriteN (writeWho (moving 1) (copying (moving 1))) 0xA000
      ((List.range 8).map (fun b => (toBytes 8 0x8000).getD (b % 8) 0)) (copying (moving 1)) = .ok () s2) ∧
    (∃ bs s1 s2, bs.length = 8 ∧ (moving 2).stream ≠ 7 ∧ vaReadN (readWho (moving 2) (copying (moving 2))) 0x8000 8 (copying (moving 2)) = .ok bs s1 ∧
      vaWrite (copyWho 0 (moving 2) (copying (moving 2))) 0xA000 (sha256 bs) s1 = .ok () s2) ∧
    ((coreOf (copying { command with phase := 1 }) 0).cmds = [{ command with phase := 1 }] ∧ command.stream ≠ 7) ∧
    ((gGet 8 base).toNat < 2 ^ 56 ∧ (coreOf base 0).revActive = false) ∧
    (let s := { (with' fun x => { x with r := { x.r with g := [(8, 1 <<< 56)] } }) with cores := [(0, { Core.reset with revActive := true })] }
     2 ^ 56 ≤ (gGet 8 s).toNat ∧ (coreOf s (coreNo s.cur)).revActive = true) := by
  refine ⟨by decide, by decide, by decide, by decide, ?_, of_done (by decide +kernel), ?_, by decide, by decide, by decide⟩
  · obtain ⟨s2, h⟩ := of_done (m := copied (moving 0) (copying (moving 0))) (by decide +kernel)
    obtain ⟨bs, s1, h1, h2⟩ := mbind_ok h
    exact ⟨bs, s1, s2, h1, h2⟩
  · obtain ⟨s2, h⟩ := of_done (m := hashed (moving 2) (copying (moving 2))) (by decide +kernel)
    obtain ⟨bs, s1, h1, h2⟩ := mbind_ok h
    by_cases hl : bs.length = (moving 2).blk
    · rw [if_pos hl] at h2
      exact ⟨bs, s1, s2, hl, by decide, h1, h2⟩
    · rw [if_neg hl] at h2
      cases h2

def rrAnd (p : List Byte → State → Bool) : RingRes → Bool
  | .ok b s => p b s
  | _ => false
theorem of_rrAnd {p : List Byte → State → Bool} {m : RingRes} (h : rrAnd p m = true) : ∃ b s, m = .ok b s ∧ p b s = true := by
  cases m with
  | ok b s => exact ⟨b, s, rfl, h⟩
  | _ => simp [rrAnd] at h

/-- Rings: a push to a ring with a place left, a pull of its last slot, slots longer than the register's rows, an empty ring. -/
theorem hyp_Rings :
    (VecReady 0 none (ringed 1) ∧ ringCheck (ringed 1) 0 (gGet 8 (ringed 1)).toNat = 0 ∧
      (0 + 1) * (ringHdr (ringed 1) 0 0x8000).size ≤ 2048 * (me (ringed 1)).rc ∧ Memory.wf (ringed 1).mem = true) ∧
    (∃ s1, Pushed 0 0x8000 (fun i => regBytes (me (ringed 1)) 3 (i * 64) 64) (0 + 1) 0 (ringed 1) s1) ∧
    (∃ b s1, b.length = 64 ∧ Pulled 0 0x8000 [b] (ringed 1) s1) ∧
    (let s := { ringed 0 with mem := tables ++ (centries unlistedByte 0x80000008000 (toBytes 8 0x0080000200009000)) }
     ringCheck s 0 0x8000 = 0 ∧ 2048 * (me s).rc < (0 + 1) * (ringHdr s 0 0x8000).size) ∧
    (let r := ringHdr (ringed 0) 0 0x8000
     Memory.wf (ringed 0).mem = true ∧ r.fill = 0 ∧ (List.replicate 64 (7 : Byte)).length = r.size ∧ 0x8000 + 64 ≤ slotOff r r.tail ∧
     ∃ x s1, ringPush 0 0x8000 (List.replicate 64 7) (ringed 0) = .ok x s1) := by
  refine ⟨⟨⟨by simp only [quiet_iff]; decide, rfl, by unfold Lanes LaneOk; decide, by decide, fun _ h => by cases h⟩, by decide +kernel, by decide +kernel, by decide +kernel⟩,
    ?_, ?_, by decide +kernel, by decide +kernel, by decide +kernel, by decide +kernel, by decide +kernel, ?_⟩
  · obtain ⟨x, s1, h, -⟩ := of_rrAnd (p := fun _ _ => true) (m := ringPush 0 0x8000 (regBytes (me (ringed 1)) 3 (0 * 64) 64) (ringed 1)) (by decide +kernel)
    exact ⟨s1, x, s1, h, rfl⟩
  · obtain ⟨b, s1, h, hl⟩ := of_rrAnd (p := fun b _ => b.length == 64) (m := ringPull 0 0x8000 (ringed 1)) (by decide +kernel)
    exact ⟨b, s1, beq_iff_eq.mp hl, s1, h, rfl⟩
  · obtain ⟨x, s1, h, -⟩ := of_rrAnd (p := fun _ _ => true) (m := ringPush 0 0x8000 (List.replicate 64 7) (ringed 0)) (by decide +kernel)
    exact ⟨x, s1, h⟩

/-! ## System instructions -/

def sh0 : Shadow := { Shadow.empty with absmax := 5, count := 1, used := 1 }

/-- StepbInvalidatesLeeLines: a line of the partition at a global address with bit 62 set, and one of another partition. -/
theorem hyp_StepbInvalidatesLeeLines : let s := { base with lee := [(leeKey 0 1 (2 ^ 62), [7]), (leeKey 0 2 0, [7])] }
    FoldsAllowed s ∧ Quiet s ∧ (2 : Nat) ^ 62 < 2 ^ 64 ∧ cget [] (leeKey 0 1 (2 ^ 62)) s.lee = [7] ∧ ((2 : Nat) < 128 ∧ (2 : Nat) ≠ (me s).part.toNat) := by
  refine ⟨fun r _ h => absurd rfl h, by simp only [quiet_iff]; decide, by decide, by decide, by decide, by decide⟩

/-- A shadow of record 2 of the partition, with an anemometer whose entry is `e`. -/
def shadowed (e : BitVec 64) : State :=
  { base with shadows := [(shadowKey 0 1 2, sh0)], accE := (0xC014, e) :: base.accE, accD := (0, anyRegion) :: base.accD }
theorem folds_shadowed : FoldsAllowed (shadowed anyEntry) := by
  intro r _ h
  by_cases e : r = 2
  · subst e
    decide
  · refine absurd ?_ h
    have hk : shadowKey (dieNo (shadowed anyEntry).cur) (me (shadowed anyEntry)).part.toNat r ≠ shadowKey 0 1 2 := by
      change 0 * 2 ^ 32 + 1 * 65536 + r ≠ 0 * 2 ^ 32 + 1 * 65536 + 2
      omega
    show cget Shadow.empty _ [(shadowKey 0 1 2, sh0)] = Shadow.empty
    exact if_neg (Ne.symm hk)

/-- A request of partition 1 by master 0; the same by another master. -/
def request (a : Nat) (kind : AccKind) (data : List Byte) : Request := ⟨0, 1, BitVec.ofNat 64 a, kind, 8, data⟩
def requestBy (m a : Nat) (kind : AccKind) (data : List Byte) : Request := ⟨BitVec.ofNat 16 m, 1, BitVec.ofNat 64 a, kind, 8, data⟩
/-- A request of hart 0 that awaits a link. -/
def pendingOf (cls stream a : Nat) : LinkReq := ⟨0, 3, request a .read [], cls, some 0, stream, 0, 0, false, false, none⟩
/-- A link that is down with such a request, translated under a root. -/
def waitingLink (root : Nat) : Link :=
  { Link.reset with trained := false, outstanding := [{ pendingOf 0 0 0 with root := root }] }

/-- A hart whose pin covers the low 64 KiB, at handler privilege, with another hart of its context that pins the same page or none. -/
def pinned (mine other : Bool) : State :=
  { base with held := [⟨0, 1, 0, 0x1000000B01F, 2⟩, ⟨1, 1, 7, 0x1000000B01F, 2⟩]
              harts := [(0, { hart with handler := true, pin := if mine then some (0, 0x1000000, 97) else none }),
                        (1, { hart with pin := if other then some (0, 0x1000000, 97) else none, invWait := some (0, 65536) })] }
def marked (n : Nat) : State :=
  { (with' fun x => { x with job := some 3 }) with jobs := [(3, { Job.none with harts := [0], live := true, marks := List.replicate n (0, 0, 0, 0) })] }
/-- `framed` with the frame's address in g8, at user privilege. -/
def framedUser (r : FrameRec) : State :=
  { framed r with harts := [(0, { hart with r := { hart.r with g := [(8, 0x40000)] } })] }
def savedWork : FrameRec := { FrameRec.empty with kind := 1, vq := [entry (.vunbind 1)] }
def savedIdle : FrameRec := { FrameRec.empty with kind := 1 }
theorem framedUser_good : readFrame 0 0x40000 (framedUser savedWork) = .ok (.good savedWork) (framedUser savedWork) ∧
    readFrame 0 0x40000 (framedUser savedIdle) = .ok (.good savedIdle) (framedUser savedIdle) := by
  have h : readFrame 0 0x40000 (framedUser savedWork) =
      if (true && Config.checkWord frameContent 1 == BitVec.ofNat 64 (ofBytes checkBytes)) then .ok (.good savedWork) (framedUser savedWork)
      else .ok .wrong (framedUser savedWork) := by rfl
  have h' : readFrame 0 0x40000 (framedUser savedIdle) =
      if (true && Config.checkWord frameContent 1 == BitVec.ofNat 64 (ofBytes checkBytes)) then .ok (.good savedIdle) (framedUser savedIdle)
      else .ok .wrong (framedUser savedIdle) := by rfl
  rw [h, h', checkBytes_num]
  exact ⟨by simp, by simp⟩

theorem hyp_SystemInstructions :
    (me base).capLeft = 0 ∧ Quiet base ∧ (gGet 9 base).toNat % 64 ≠ 0 ∧ (gGet 8 base).toNat % 64 = 0 ∧
    (∃ s1, writeFrame 0 0x8000 { FrameRec.empty with kind := 1, regs := { (me base).r with g := [] } } noStream 0 base = .ok () s1) ∧
    (∃ s1, readFrame 0 0x8000 base = .ok .wrong s1) ∧
    (let s := framedUser savedWork
     Quiet s ∧ gGet 8 s = 0x40000 ∧ readFrame 0 0x40000 s = .ok (.good savedWork) s ∧ savedWork.vq ≠ [] ∧ (me s).handler = false) ∧
    (let s := framedUser savedIdle
     readFrame 0 0x40000 s = .ok (.good savedIdle) s ∧ (savedIdle.vq = [] ∧ savedIdle.mq = [] ∧ savedIdle.cmds = []) ∧ savedIdle.regs.chains = []) ∧
    (recCode (shadowed 0) 0 1 2 .read ≠ 0 ∧ recCode (shadowed readEntry) 0 1 2 .read = 0 ∧ recCode (shadowed readEntry) 0 1 2 .write ≠ 0) ∧
    FoldsAllowed (shadowed anyEntry) ∧
    (let s := shadowed anyEntry
     Quiet s ∧ s.shadows = [(shadowKey (dieNo s.cur) (me s).part.toNat 2, sh0)] ∧ cget false (recAddr s 1 2 / 65536) s.zeroPend = false ∧ Memory.wf s.mem = true ∧ (2 : Nat) < 65536 ∧ sh0 ≠ Shadow.empty ∧ sh0.absmax < 2 ^ 32 ∧ (∀ p ∈ sh0.bins, p.1 < 32) ∧
     base.shadows = []) ∧
    ((gGet 0 base).toNat = 0 ∧ 0 < (gGet 9 base).toNat ∧ (gGet 9 base).toNat ≤ 2 ^ 34 ∧ (me base).job = none ∧
     ∃ s1, translateAll (myWho base) (rangePages 0x8000 3) base = .ok () s1) ∧
    ((me (marked 63)).job = some 3 ∧ (jobOf (marked 63) 3).marks.length < 64 ∧ 64 ≤ (jobOf (marked 64) 3).marks.length ∧ Quiet (marked 63) ∧
      (∃ s1, translateAll (myWho (marked 63)) (rangePages 0x8000 3) (marked 63) = .ok () s1)) := by
  refine ⟨rfl, quiet_base, by decide, by decide, of_done (by decide), ?_, ⟨by simp only [quiet_iff]; decide, by decide, framedUser_good.1, by decide, rfl⟩,
    ⟨framedUser_good.2, by decide, rfl⟩, by decide, folds_shadowed, ⟨by simp only [quiet_iff]; decide, by decide, by decide, by decide, by decide, by decide, by decide, by decide, rfl⟩,
    ⟨by decide, by decide, by decide, rfl, of_done (by decide)⟩, by decide, by decide, by decide, by simp only [quiet_iff]; decide, of_done (by decide)⟩
  obtain ⟨a, s1, h, hp⟩ := of_okAnd (p := fun a _ => match a with
    | .wrong => true
    | _ => false) (m := readFrame 0 0x8000 base) (by decide)
  cases a with
  | wrong => exact ⟨s1, h⟩
  | good r => cases hp

/-- TLBINV: a range of no page, one that ends beyond the address space, one of pages that no hart pins, that another pins, that its hart pins. -/
theorem hyp_TranslationInvalidation :
    (me base).handler = false ∧ (∀ p ∈ [(false, false), (false, true), (true, true)], let s := pinned p.1 p.2
      (me s).capLeft = 0 ∧ (me s).handler = true ∧ isQuiet s = true ∧
      translatedWaits s (me s) 0 (3 * 65536) = false ∧ (pinners s (me s) 0 (3 * 65536) = []) = (p = (false, false)) ∧ (0 ∈ pinners s (me s) 0 (3 * 65536)) = (p = (true, true))) ∧
    (let s := pinned true true
     gGet 0 s = 0 ∧ gGet 9 s = 3 ∧ (gGet 8 s).toNat < 2 ^ 48 ∧ (gGet 8 s).toNat / 65536 * 65536 + 3 * 65536 ≤ 2 ^ 48 ∧
     (hartOf s 0).invWait = none ∧ (hartOf s 1).invWait = some (0, 65536) ∧
     (pinners s (hartOf s 1) 0 65536).filter (fun k => k != 1) = [0] ∧ cannotStop (settleHart s 0) 0 = false ∧
     (let u := { s with links := [(9, waitingLink 0)] }
      translatedWaits u (me u) 0 (3 * 65536) = false ∧ cannotStop (settleHart u 0) 0 = true) ∧
     (let u := { s with links := [(9, waitingLink 0x10000000000)] }
      translatedWaits u (me u) 0 (3 * 65536) = true ∧ translatedWaits u (me u) 0 (2 ^ 48) = true)) ∧
    ((2 : Nat) ^ 48 < 0xFFFFFFFF0000 + 3 * 65536 ∧ (2 : Nat) ^ 48 ≤ 2 ^ 63) := by
  refine ⟨rfl, ?_, by decide, by decide⟩
  intro p hp
  have h : p = (false, false) ∨ p = (false, true) ∨ p = (true, true) := by simpa using hp
  rcases h with rfl | rfl | rfl <;> simp only [eq_iff_iff] <;> decide

/-! ## Requests, access tables, links -/

/-- R173: an access of a hart waits for a line that an engine owns; of two engines the later one waits (log 25). -/
theorem test_owned_line_waits :
    let s := { base with owned := [⟨0x100000080, 0x100000081, copyAgent 0, 0, 5, false⟩] }
    let w := { myWho base with agent := copyAgent 1 }
    lineHeld s (myWho base) false 0x10000008000 8 = true ∧ lineHeld s { w with taken := 6 } false 0x10000008000 8 = true ∧
    lineHeld s { w with taken := 4 } true 0x10000008000 8 = false ∧ lineHeld s (myWho base) true 0x10000008100 8 = false := by
  decide

def openS : State :=
  { base with accE := (0x4000000, anyEntry) :: (0x400C008, anyEntry) :: base.accE
              accD := (0x30000, anyRegion) :: (0x40000, anyRegion) :: base.accD
              aperture := [(1, 0, 4096, 0x10000000000)] }
/-- Lines of the page at 0x10000008000 that the copy engine of core 0 owns for hart 0. -/
def ownedS : State := { openS with owned := [⟨0x100000080, 0x100000081, copyAgent 0, 0, 0, false⟩] }
/-- A fill's line that its link has answered. -/
def filledS : State :=
  { openS with links := [(0, { Link.reset with resend := [{ pendingOf 0 1 0 with
      source := fillMaster 0, req := ⟨0xC008, 1, 0x40000000000, .read, 256, List.replicate 256 7⟩ }] })] }

/-- A link with an outstanding request of a hart's stream, and one with a request of no hart. -/
def waitingFor (link : Nat) (trained : Bool) (q : LinkReq) : State :=
  { openS with links := [(link, { Link.reset with trained := trained, outstanding := [q], replies := [⟨7, 2, 0, [1]⟩] })] }
def pendingFrom (kind : AccKind) (cls : Nat) (applied : Bool) : LinkReq :=
  ⟨0x6000, 3, requestBy 0x6000 0x10000008000 kind (List.replicate 8 5), cls, none, 0, 0, 0, false, applied, none⟩
def waiting (link : Nat) (trained : Bool) (cls stream : Nat) (a : Nat) : State := waitingFor link trained (pendingOf cls stream a)

theorem hyp_RequestsTablesAndLinks :
    (¬ (0 < 257 ∧ 257 ≤ 256)) ∧ (0x1000000FFF8 % 65536 + 8 ≤ 65536) ∧
    checkLocal base 7 1 0x10000008000 .read ≠ 0 ∧ checkLocal base 0x8001 1 0x10000008000 .read ≠ 0 ∧ 0x8001 / 8192 = 4 ∧
    checkLocal openS 0 1 0x10000008000 .read = 0 ∧ cget false (0x10000008000 / 65536) openS.zeroPend = false ∧
    (checkLocal openS 0x6004 127 0xF0000000000 .write = 0 ∧ isMmio 0xF0000000000 = true ∧ 0xF0000000000 % 8 = 0 ∧
      cget false (0xF0000000000 / 65536) openS.zeroPend = false) ∧
    (checkLocal openS 0 1 0x1000000FFF8 .write = 0 ∧ isMmio 0x1000000FFF8 = false ∧ Memory.wf openS.mem = true) ∧
    (checkLocal openS 0 1 0x40000000010 .write = 0 ∧ isMmio 0x40000000010 = false ∧ cget false (0x40000000010 / 65536) openS.zeroPend = false ∧
      (linkOf openS 0).trained = true ∧ (linkOf (waiting 0 false 0 1 0) 0).trained = false ∧
      ((linkOf (waiting 0 false 0 1 0) 0).outstanding.filter (fun q => q.source == 0)).length < 64) ∧
    (openS.boot.imageOnly = false ∧ (linkOf openS 0).trained = true ∧ (1 : BitVec 7).toNat ≤ 64 ∧ apertureAt openS 1 4095 = some 0x10000000FFF ∧
      apertureAt openS 1 4096 = none ∧ 64 < (65 : BitVec 7).toNat ∧ requestFits (request 0x1000000FFFC .read []) = false) ∧
    ((linkOf openS (2 + (Config.stationOf 5).toNat)).trained = true ∧ requestFits (request 0x10000008000 .read []) = true ∧
      (0 : BitVec 16).toNat / 8192 ≠ 3 ∧ targetCode base (request (2 ^ 44) .read []) ≠ 0 ∧
      targetCode openS (request 0x40000000010 .read []) = 0 ∧
      linkFor openS { pkg := openS.pkg, a := 0x40000000010, leaf := 0, lvl := 4 } = some (0, 5)) ∧
    (checkLocal ownedS 0 1 0x10000008000 .read = 0 ∧ ownedByOther ownedS 0 (glob ownedS 0x10000008000) 8 = true ∧
      ownedByOther openS 0 (glob openS 0x10000008000) 8 = false ∧ (∀ o ∈ ownedS.owned, o.owner < 2 ^ 32)) ∧
    (let s := filledS
     (∃ q, (∃ p ∈ s.links, q ∈ p.2.resend) ∧ q.source = fillMaster (0 : BitVec 2).toNat ∧ q.req.part = 1 ∧
       q.req.addr.toNat = (0x40000000010 : BitVec 64).toNat / 256 * 256 ∧ q.cls = 0) ∧
     cget [] (leeKey 0 1 0x40000000010) s.lee = []) ∧
    (base.actDone = true ∧ (0x4000000000000002 : BitVec 64).extractLsb' 0 8 ≠ (0 : BitVec 8) ∧ ¬ (∃ k x, (k, x) ∈ base.links ∧ x.outstanding ≠ [])) ∧
    ((∃ k x, (k, x) ∈ (waiting 0 true 0 1 0).links ∧ ∃ r ∈ x.outstanding, ∀ m, (waiting 0 true 0 1 0).actMaster = some m → r.source = m) ∧
     (linkOf openS 9).trained = true) := by
  refine ⟨by decide, by decide, by decide, by decide, by decide, by decide, by decide, by decide, by decide, by decide, by decide, ⟨rfl, by decide⟩,
    by decide, ?_, ?_, ?_⟩
  · exact ⟨⟨_, ⟨_, List.mem_singleton.mpr rfl, List.mem_singleton.mpr rfl⟩, by decide, by decide, by decide, by decide⟩, by decide⟩
  · exact ⟨by decide, by decide, fun ⟨_, _, h, _⟩ => by cases h⟩
  · exact ⟨⟨0, _, List.mem_singleton.mpr rfl, _, List.mem_singleton.mpr rfl, fun _ h => by cases h⟩, by decide⟩

/-- LinkEvents: a replay that is found and one that is not; a link down whose outstanding request is a hart's load; a load and a store
of another master, performed before the link went down or not; an atomic of a scalar access, of a vector stream and of no hart. -/
theorem hyp_LinkEvents :
    (let s := waiting 9 false 0 0 0
     (linkOf s 9).replies.find? (fun r => r.source == (7 : BitVec 16).toNat && r.seq == (2 : BitVec 16).toNat) = some ⟨7, 2, 0, [1]⟩ ∧
     (linkOf s 9).replies.find? (fun r => r.source == (7 : BitVec 16).toNat && r.seq == (3 : BitVec 16).toNat) = none ∧
     (linkOf s 9).trained = false ∧ s.boot.minimal = false ∧ (∀ r ∈ (linkOf s 9).outstanding, r.hart.isSome = true ∧
       (r.cls = 0 ∨ (r.cls = 1 ∧ false = false)) ∧ (r.cls = 0 → firstPoison s r.req.addr.toNat r.req.len = none))) ∧
    (let s := { waiting 9 false 0 0 0x10000008000 with poison := [0x10000008000] }
     (linkOf s 9).outstanding = [pendingOf 0 0 0x10000008000] ∧ (pendingOf 0 0 0x10000008000).hart.isSome = true ∧
     firstPoison s 0x10000008000 8 ≠ none) ∧
    (∀ applied ∈ [true, false], let q := { pendingOf 1 0 0x10000008000 with applied := applied }
     (linkOf (waitingFor 9 false q) 9).outstanding = [q] ∧ q.hart.isSome = true ∧ q.cls = 1 ∧ Memory.wf (waitingFor 9 false q).mem = true) ∧
    (let s := { waiting 0 false 0 0 0 with boot := { base.boot with minimal := true } }
     s.boot.minimal = true ∧ (9 : Nat) ≠ 0 ∧ (linkOf s 0).trained = false) ∧
    (∀ q ∈ [pendingFrom .read 0 false, pendingFrom .write 1 false, pendingFrom .write 1 true],
     let s := waitingFor 9 false q
     (linkOf s 9).outstanding = [q] ∧ q.hart = none ∧ (q.cls = 0 ∨ (q.cls = 1 ∧ false = false)) ∧ q.req.master.toNat = q.source ∧
     isMmio (q.req.addr.toNat % 2 ^ 44) = false ∧ cget false (q.req.addr.toNat % 2 ^ 44 / 65536) s.zeroPend = false ∧ Memory.wf s.mem = true) ∧
    (let q := pendingFrom .read 2 false
     (linkOf (waitingFor 9 false q) 9).outstanding = [q] ∧ q.cls = 2 ∧ q.hart = none) ∧
    (let s := waiting 9 false 2 0 0
     (linkOf s 9).outstanding = [pendingOf 2 0 0] ∧ (hartOf s 0).run ≠ .off ∧ (hartOf s 0).pend = none ∧ (hartOf s 0).entry = none ∧
     TakesTraps 0 0x0B s ∧
     FrameWritable 0 (hartOf s 0).pc noStream 0 (modLink 9 (fun x => { x with outstanding := [], resend := [] }) s) ∧
     FrameWritable 0 (hartOf s 0).pc noStream 0 (modLink 9 (fun x =>
       { x with trained := true, outstanding := [], resend := [], replies := if false then [] else (linkOf s 9).replies }) s)) ∧
    (let s := { waiting 9 false 2 1 0 with harts := [(0, { hart with vq := [entry (.vld ⟨2, .unit, 1, 8, 0, ⟨0, false⟩, false⟩)] })] }
     (linkOf s 9).outstanding = [pendingOf 2 1 0] ∧ (hartOf s 0).pend = none ∧ (hartOf s 0).entry = none ∧ (hartOf s 0).vq ≠ []) := by
  refine ⟨by decide, by decide, by decide, by decide, by decide, by decide, ⟨by decide, by decide, by decide, by decide, by unfold TakesTraps; decide,
    writable (by decide) (by decide), writable (by decide) (by decide)⟩, by decide⟩

/-- PreciseTrapEntry: a hart whose scalar access has no answer from its link. -/
theorem hyp_PreciseTrapEntry_awaits : let s := waiting 9 false 0 0 0
    (me s).pend = none ∧ TakesTraps s.cur 4 s ∧ (me s).entry = none ∧ (me s).sbuf = [] ∧ awaitsLink s s.cur = true := by unfold TakesTraps; decide

/-! ## Switches, grants, the debug port -/

/-- One hart of job 3, running; the same job parked with a switch record and its place open. -/
def gangJob (parked : Bool) : Job :=
  { Job.none with harts := [0], cores := [0], percore := 1, live := true, part := 1, queue := 2, parked := parked, slots := [0] }
def ganged : State :=
  { base with jobs := [(3, gangJob false)], harts := [(0, { hart with job := some 3 })], clusterOwner := [(0, 1)] }
def parkedGang : State :=
  { base with jobs := [(3, gangJob true)], clusterOwner := [(0, 1)], harts := []
              switches := [(switchKey 3 0, { SwitchRec.empty with hart := { hart with job := some 3 } })] }

/-- The gang with an access of its hart that has no answer. -/
def gangAwaits : State := { ganged with links := [(9, { Link.reset with trained := false, outstanding := [pendingOf 0 0 0] })] }
/-- A stopped hart with a debug frame, whose gang has passed its GBAR or not. -/
def stopFrame : FrameRec := { plainFrame with kind := 3, pc := 0x44 }
def stopFramed (passed : Bool) : State :=
  { framed stopFrame with
    harts := [(0, { hart with run := .stopped, dbg := { Debug.reset with dframe := 0x40000, passed := passed } })] }

theorem hyp_SwitchesGrantsAndDebug :
    ((jobOf base 3).live = false ∧ (jobOf ganged 3).live = true ∧ (jobOf ganged 3).parked = false ∧ (jobOf ganged 3).harts = [0] ∧
      (let u := (jobOf ganged 3).harts.foldl settleHart ganged
       ∀ h ∈ (jobOf ganged 3).harts, cannotStop u h = false) ∧
      (let u := (jobOf gangAwaits 3).harts.foldl settleHart gangAwaits
       (jobOf gangAwaits 3).live = true ∧ (jobOf gangAwaits 3).parked = false ∧ ∃ h ∈ (jobOf gangAwaits 3).harts, cannotStop u h = true)) ∧
    (mayResume ganged 3 [0] = false ∧ mayResume parkedGang 3 [0] = true ∧ (jobOf parkedGang 3).harts.length = 1 ∧
      placeHarts parkedGang (jobOf parkedGang 3) [0] = [0]) ∧
    ((0x48 : BitVec 64).toNat < 128 ∧ 1 ≤ (0x48 : BitVec 64).toNat % 16 ∧ (0x48 : BitVec 64).toNat % 16 ≤ 8 ∧
      1 ≤ (0x48 : BitVec 64).toNat / 16 % 8 ∧ (0x48 : BitVec 64).toNat / 16 % 8 ≤ 4 ∧ ¬ (0x09 : BitVec 64).toNat % 16 ≤ 8) ∧
    (([(0, hart), (1, hart)] : List (Nat × Hart)).map (fun p => p.1)).Nodup ∧
    ((∀ i, i < 8 → (hartOf base (8 * 0 + i)).vq = [] ∧ (hartOf base (8 * 0 + i)).mq = []) ∧ attachedOf base 0 = []) ∧
    (∀ p ∈ [(0, 0), (3, 0), (0, 1)], let e := { entry (.vmov 2 1 2 ⟨0, false⟩ none) with
        ctx := { (entry .lwait).ctx with conv := p.2, width := 32 * p.2 } }
     let s := with' fun x => { x with vq := [e], rowDebt := p.1 }
     let x := hartOf s 0
     (∀ k, k < 8 → k ≠ 0 → (hartOf s (8 * 0 + k)).vq = [] ∧ (hartOf s (8 * 0 + k)).mq = []) ∧
     x.vq = e :: [] ∧ x.mq = [] ∧ x.pend = none ∧ x.entry = none ∧ x.dbg.due = none ∧ x.run = .running ∧ attachedOf s (0 / 4) = [] ∧
       x.rowDebt = p.1 ∧ drainsNext x = false ∧
     (let u := countLanes [0] [(0, x)] 0 s; let y := hartOf u 0
      let v := asHart 0 (fun w =>
        let w' := if e.ctx.conv = 0 then afterV (rowsOver (perfQueued e.instr { e with ctx := { e.ctx with byRow := true } } w)) []
          else stepConvoy perfQueued true w
        countStallM y (countStallV y (if sameV y (me w') then w' else modMe (fun z => { z with rowDebt := rowsOwed e z }) w'))) u
      (∀ k, k < 8 → 0 < k → (hartOf v (8 * 0 + k)).vq = [] ∧ (hartOf v (8 * 0 + k)).mq = []) ∧ attachedOf v (0 / 4) = [])) ∧
    ((hartOf base 0).run = .running ∧ (hartOf base 0).dbg.due = none ∧ (hartOf base 0).sbuf = [] ∧ awaitsLink base 0 = false ∧
      (hartOf gangAwaits 0).run = .running ∧ (hartOf gangAwaits 0).dbg.due = none ∧ unfinished (drainStores 0 gangAwaits) 0 = true ∧
      (hartOf (with' fun x => { x with dbg := { x.dbg with due := some 0 } }) 0).dbg.due.isSome = true ∧ base.boot.imageOnly = false ∧
      ({ base with boot := { base.boot with imageOnly := true } } : State).boot.imageOnly = true ∧
      (hartOf (with' fun x => { x with run := .stopped }) 0).run = .stopped ∧ (hartOf base 1).run = .off ∧
      (0x800 + 8 * 255 < 4096 ∧ (0x800 + 8 * 255) % 8 = 0) ∧ (3 < 4 ∧ 65535 < 65536)) := by
  refine ⟨by decide, by decide, by decide, by decide, by decide, by decide, by decide⟩

/-- RESUME: a debug frame that can be read, before and after the gang has passed. -/
theorem hyp_SwitchesGrantsAndDebug_resume : ∀ passed : Bool, (hartOf (stopFramed passed) 0).run = .stopped ∧
    (hartOf (stopFramed passed) 0).dbg.passed = passed ∧ stopFrame.kind = 3 ∧
    ∃ u, readFrame 0 (hartOf (stopFramed passed) 0).dbg.dframe (stopFramed passed) = .ok (.good stopFrame) u := by
  intro passed
  have h : readFrame 0 0x40000 (stopFramed passed) =
      if (true && Config.checkWord frameContent 1 == BitVec.ofNat 64 (ofBytes checkBytes)) then .ok (.good stopFrame) (stopFramed passed)
      else .ok .wrong (stopFramed passed) := by cases passed <;> rfl
  refine ⟨rfl, rfl, rfl, stopFramed passed, ?_⟩
  show readFrame 0 0x40000 (stopFramed passed) = _
  rw [h, checkBytes_num]
  simp

/-! ## Packets, queues, jobs, partitions -/

/-- Queue 2 of partition 1 with a packet in progress, and a ring of 16 packets. -/
def packet (l : List (Nat × Nat)) : List Byte :=
  (List.range 64).map (fun i => BitVec.ofNat 8 ((l.find? (fun p => p.1 == i)).map (fun p => p.2) |>.getD 0))
def queueK : Queue := { Queue.reset with part := 1, state := 1, tickets := 1, qcb := 0x8000 }
def queued (f : Queue → Queue) : State :=
  { base with harts := [], queues := [(256 + 2, f queueK)], clusterOwner := [(0, 1)]
              mem := tables ++ [(0x10000008001, 0x90), (0x10000008008, 16)] }
def going (p : List Byte) : State := queued fun k => { k with active := true, begun := true, pkt := p }
/-- A LAUNCH of one hart on one core under the word 0x1C08. -/
def launchPacket : List Byte :=
  packet [(0, 1), (9, 0x20), (0x30, 8), (0x31, 0x1C), (0x34, 1), (0x37, 0x10), (0x38, 1), (0x39, 1)]

/-- The same with the control block in the host window, whose link is down. -/
def downTables : List Host.Cell :=
  [(0x10000000000, 0x91), (0x10000000005, 1), (0x10000000800, 0x2F), (0x10000000801, 0xB0), (0x10000000805, 4)]
def downRing : State :=
  { queued id with
    mem := downTables, accE := (0x4006000, anyEntry) :: base.accE, accD := (0x40000, anyRegion) :: base.accD
    links := [(0, { Link.reset with trained := false })] }

/-- Doorbells: values kept already, a ring over a link that is down, and one that is read. -/
theorem hyp_Packets_doorbell :
    ((queueOf (queued fun k => { k with bells := [1] }) 1 2).state ≠ 0 ∧ (queueOf (queued fun k => { k with bells := [1] }) 1 2).bells ≠ []) ∧
    ((queueOf downRing 1 2).state ≠ 0 ∧ ∃ u, ringOf 1 2 downRing = .wait u) ∧
    ((queueOf (queued id) 1 2).bells = [] ∧ ¬ ∃ u, ringOf 1 2 (queued id) = .wait u) ∧
    (queueOf base 1 2).state = 0 ∧ base.boot.imageOnly = false := by
  refine ⟨by decide, ⟨by decide, of_wait (by decide +kernel)⟩, ⟨by decide, ?_⟩, by decide, rfl⟩
  rintro ⟨u, hu⟩
  have h : okAnd (fun _ _ => true) (ringOf 1 2 (queued id)) = true := by decide +kernel
  rw [hu] at h
  cases h

theorem hyp_Packets_launch :
    (let s := queued id
     let k := queueOf s 1 2
     k.state ≠ 0 ∧ k.readIdx ≤ 16 ∧ k.writeIdx ≤ 16 ∧ okAnd (fun r _ => r.map (fun r => r.2) == some 16) (ringOf 1 2 s) = true ∧ 16 ≤ k.readIdx + 16) ∧
    (let s := going launchPacket
     let k := queueOf s 1 2
     (k.active = true ∧ k.state = 1 ∧ pktType k.pkt = 1) ∧ launchBad k.pkt = false ∧ (launchOf k.pkt).wordOk = true ∧
     placementOk s 1 (launchOf k.pkt) [0] = true ∧ placementOk s 1 (launchOf k.pkt) [4] = false ∧ (∀ j ∈ liveJobs s 1 2, j.2.sliceDue = false)) ∧
    launchBad (packet [(0, 1)]) = true ∧ (launchOf (packet [(0, 1), (0x34, 1), (0x37, 0x10), (0x38, 1), (0x39, 1)])).wordOk = false := by
  decide +kernel

/-- COPY of 8 bytes from 0x8000 to 0xA000, SIGNAL and WAIT at 0x8000, WRITE_SIGNAL, MEASURE, RECEIPT. -/
def copyPacket : List Byte := packet [(0, 2), (9, 0x80), (17, 0xA0), (24, 8)]
def signalPacket : List Byte := packet [(0, 3), (9, 0x80), (16, 7), (24, 1)]
def waitPacket (v : Nat) : List Byte := packet [(0, 4), (9, 0x80), (16, v)]
def writePacket : List Byte := packet [(0, 5), (9, 0x80), (49, 0xA0)]
def measurePacket : List Byte := packet [(0, 7), (9, 0x80), (16, 8), (24, 1)]
def receiptPacket : List Byte := packet [(0, 8), (9, 0x80)]
def copyMoves (s : State) : MR Unit :=
  mbind (vaReadN (packetWho s 1 2) 0x8000 8 s) fun bs s1 => vaWriteN (packetWho s 1 2) 0xA000 bs s1

theorem hyp_Packets :
    (let s := going copyPacket
     (queueOf s 1 2).pkt = copyPacket ∧ pktType copyPacket = 2 ∧ (queueOf s 1 2).step < mibSteps (pktWord copyPacket 24) ∧
     mibSteps (pktWord copyPacket 24) ≤ (queueOf s 1 2).step + 1 ∧
     ∃ bs s1 s2, vaReadN (packetWho s 1 2) 0x8000 8 s = .ok bs s1 ∧ vaWriteN (packetWho s 1 2) 0xA000 bs s1 = .ok () s2) ∧
    (pktType signalPacket = 3 ∧ pktWord signalPacket 24 ≤ 1 ∧ pktWord signalPacket 8 % 8 = 0 ∧
     (∃ old s1, signalOp 1 2 0x8000 (fun x => if 1 = 0 then 7 else x + 7) (going signalPacket) = .ok old s1)) ∧
    (pktType (waitPacket 7) = 4 ∧ (∃ v s1, vaReadNum (packetWho (going (waitPacket 7)) 1 2) 0x8000 8 (going (waitPacket 7)) = .ok v s1 ∧ 7 ≤ v) ∧
     (∃ v s1, vaReadNum (packetWho (going (waitPacket 7)) 1 2) 0xA000 8 (going (waitPacket 7)) = .ok v s1 ∧ v < 7)) ∧
    ((queueOf (queued fun k => { k with state := 4, pkt := waitPacket 7 }) 1 2).state = 4) ∧
    (pktType writePacket = 5 ∧ pktWord writePacket 48 % 8 = 0 ∧ (queueOf (going writePacket) 1 2).step = 0 ∧
     (∃ s1, vaWriteN (packetWho (going writePacket) 1 2) 0x8000 ((writePacket.drop 16).take 32) (going writePacket) = .ok () s1) ∧
     (∃ old s1, signalOp 1 2 0xA000 (fun x => x + 1) (going writePacket) = .ok old s1)) ∧
    pktType (packet [(0, 6)]) = 6 ∧
    (pktType measurePacket = 7 ∧ pktWord measurePacket 24 = 1 ∧ pktWord measurePacket 16 ≤ 2 ^ 20 ∧
     ∃ bs s1, vaReadN (packetWho (going measurePacket) 1 2) 0x8000 8 (going measurePacket) = .ok bs s1 ∧ bs.length = 8) := by
  refine ⟨⟨by decide, by decide, by decide, by decide, ?_⟩, ⟨by decide, by decide, by decide, of_ok (by decide +kernel)⟩, ⟨by decide, ?_, ?_⟩, by decide,
    ⟨by decide, by decide, by decide, of_done (by decide +kernel), of_ok (by decide +kernel)⟩, by decide, by decide, by decide, by decide, ?_⟩
  · obtain ⟨s2, h⟩ := of_done (m := copyMoves (going copyPacket)) (by decide +kernel)
    obtain ⟨bs, s1, h1, h2⟩ := mbind_ok h
    exact ⟨bs, s1, s2, h1, h2⟩
  · obtain ⟨v, s1, h, hp⟩ := of_okAnd (p := fun v _ => decide (7 ≤ v))
      (m := vaReadNum (packetWho (going (waitPacket 7)) 1 2) 0x8000 8 (going (waitPacket 7))) (by decide +kernel)
    exact ⟨v, s1, h, of_decide_eq_true hp⟩
  · obtain ⟨v, s1, h, hp⟩ := of_okAnd (p := fun v _ => decide (v < 7))
      (m := vaReadNum (packetWho (going (waitPacket 7)) 1 2) 0xA000 8 (going (waitPacket 7))) (by decide +kernel)
    exact ⟨v, s1, h, of_decide_eq_true hp⟩
  · obtain ⟨b, s1, h, hp⟩ := of_okAnd (p := fun b _ => b.length == 8)
      (m := vaReadN (packetWho (going measurePacket) 1 2) 0x8000 8 (going measurePacket)) (by decide +kernel)
    exact ⟨b, s1, h, beq_iff_eq.mp hp⟩

/-- The state at which a receipt is written, and a list that is read one byte after another. -/
def counted (s : State) : State := bump (addMeter 1 9 1 (modQueue 1 2 (fun x => { x with seq := ((queueOf s 1 2).seq + 1) % 2 ^ 64 }) s))
theorem as_range (bs : List Byte) : bs = (List.range bs.length).map (fun i => bs.getD i 0) := by
  apply List.ext_getElem <;> simp +contextual

theorem keyId_length (k : BitVec 256) : (keyIdOf k).length = 8 := by
  unfold keyIdOf
  split <;> simp

theorem receipt_length (s u : State) (p q : Nat) : (signed' s (receiptHead u p q)).length = 144 := by
  simp [signed', receiptHead, receiptKeyId, keyId_length, digestBytes]

/-- A RECEIPT whose destination lies in the host window, with the Tammas link down. -/
def downReceipt : State :=
  { going receiptPacket with
    mem := downTables, accE := (0x4006000, anyEntry) :: base.accE, accD := (0x40000, anyRegion) :: base.accD
    links := [(0, { Link.reset with trained := false })] }

/-- RECEIPT: its record can be written, whatever its signature is; and its destination over a link that is down. -/
theorem hyp_Packets_receipt : (let u := counted (going receiptPacket)
      ∃ s1, vaWriteN (packetWho u 1 2) 0x8000 (signed' u (receiptHead u 1 2)) u = .ok () s1) ∧
    (let u := counted downReceipt
      ∃ s1, vaWriteN (packetWho u 1 2) 0x8000 (signed' u (receiptHead u 1 2)) u = .wait s1) := by
  constructor
  · show ∃ s1, vaWriteN _ _ (signed' (counted (going receiptPacket)) (receiptHead (counted (going receiptPacket)) 1 2)) _ = _
    rw [as_range (signed' _ _), receipt_length]
    exact of_done (by decide +kernel)
  · show ∃ s1, vaWriteN _ _ (signed' (counted downReceipt) (receiptHead (counted downReceipt) 1 2)) _ = _
    rw [as_range (signed' _ _), receipt_length]
    exact of_wait (by decide +kernel)

/-- A queue with one packet to read, a BARRIER or none; a second queue with a smaller PASS. -/
def ready (bar : Bool) : State :=
  let s := queued fun k => { k with writeIdx := 1, pass := 5 }
  if bar then { s with mem := s.mem ++ [(0x10000009000, 6)] } else s
def sliced (active due : Bool) : State :=
  { ganged with jobs := [(3, { gangJob false with sliceDue := due })]
                queues := [(256 + 2, { queueK with active := active, pass := 5 }), (256 + 3, { queueK with writeIdx := 1, pass := 3 })] }
/-- A job whose hart has halted, with a buffer marked at `a`. -/
def halted (marks : List (Nat × Nat × Word × Word)) : State :=
  { ganged with harts := [(0, { hart with job := some 3, run := .halted })]
                jobs := [(3, { gangJob false with marks := marks })]
                queues := [(256 + 2, queueK)] }
def hashed' (s : State) : State :=
  hashMarks 3 { hashWho s 1 2 with troot := contextRoot s 1 (jobOf s 3).ctx } (sortMarks (jobOf s 3).marks) s
theorem hyp_Scheduling :
    pickQueue base 1 [] = none ∧ (∃ b, pickQueue (ready true) 1 [] = some (2, .packet b)) ∧ (∃ st, pickQueue (ready false) 1 [] = some (2, .fail st)) ∧
    pickQueue (queued fun k => { k with begun := true, pkt := packet [(0, 6)], writeIdx := 1 }) 1 [] = some (2, .again) ∧
    (∃ cs, pickQueue { parkedGang with queues := [(256 + 2, queueK)] } 1 [0] = some (2, .job 3 cs)) ∧
    ((jobOf base 3).live = false ∧ (jobOf ganged 3).live = true ∧ (jobOf ganged 3).parked = false ∧ (jobOf ganged 3).queue < 256) ∧
    (∃ x ∈ queuesOf (sliced true false) 1, x.1 ≠ 2 ∧ isReady (sliced true false) 1 x.1 = true ∧
      x.2.pass < 5 + strideOf (sliced true false) 1 2 * (jobClusters (gangJob false)).length) ∧
    ((queueOf (sliced true false) 1 2).active = true ∧ (queueOf (sliced false false) 1 2).active = false ∧
      (∀ h ∈ (jobOf (sliced false false) 3).harts, cannotStop ((jobOf (sliced false false) 3).harts.foldl settleHart
        (chargeUnits 1 2 (jobClusters (gangJob false)).length (sliced false false))) h = false) ∧
      (let s := { sliced false false with links := gangAwaits.links }
       ∃ h ∈ (jobOf s 3).harts, cannotStop ((jobOf s 3).harts.foldl settleHart (chargeUnits 1 2 (jobClusters (gangJob false)).length s)) h = true)) ∧
    ((∃ h ∈ (jobOf ganged 3).harts, (hartOf ganged h).run ≠ .halted ∧ (hartOf ganged h).run ≠ .free) ∧
     (∀ h ∈ (jobOf (halted []) 3).harts, (hartOf (halted []) h).run = .halted ∨ (hartOf (halted []) h).run = .free) ∧
     (jobOf (hashed' (halted [])) 3).marks = [] ∧ (jobOf (hashed' (halted [(0, 0, 0x8000, 8)])) 3).marks = []) ∧
    (∃ x ∈ liveJobs (sliced true true) 1 2, x.2.sliceDue = true) ∧ (∀ x ∈ liveJobs (sliced true false) 1 2, x.2.sliceDue = false) := by
  refine ⟨by decide, ?_, ?_, by decide, ?_, by decide, by decide, by decide, by decide +kernel, by decide, by decide⟩
  · exact ⟨packet [(0, 6)], by decide +kernel⟩
  · exact ⟨3, by decide +kernel⟩
  · exact ⟨[0], by decide +kernel⟩

/-- JobCompletion: a marked buffer over a link that is down. -/
theorem hyp_Scheduling_marks : (jobOf (hashed' { halted [(0, 0, 0x8000, 8)] with
    mem := downReceipt.mem, links := downReceipt.links, accE := (0x400C010, anyEntry) :: (0x100C010, anyEntry) :: downReceipt.accE, accD := downReceipt.accD }) 3).marks ≠ [] := by decide +kernel

/-- A partition of one cluster and one queue that root firmware accepts on a free device. -/
def spec1 : PartSpec :=
  { part := 1, clusters := [0], entries := [], regions := [], tenant := false, sliceUs := 250, contexts := [(0x10000000000, 0)], recbase := 0,
    kvQuota := 0, uperiod := 100, t1 := (0, 0), t2 := (0x10000000000, 65536), host := (0, 0), cxl := (0, 0), queues := [⟨2, 0x8000, 1, [], 0⟩],
    chunks := [], image := [], maps := [] }
/-- The partition's harts that a teardown stops, and what their settling leaves. -/
def stopping (s : State) : List Nat := (partJobs s 1).flatMap (fun i => if (jobOf s i).parked then [] else (jobOf s i).harts)
def settled (s : State) : State := (stopping s).foldl settleHart
  { s with queues := s.queues.map (fun x => if x.1 / 256 = 1 then (x.1, { x.2 with state := 5, active := false }) else x) }
/-- What the end of its jobs leaves. -/
def ended (s : State) : State := (partJobs s 1).foldl (fun s j => finishJob j 5 (stopJob j s)) (settled s)
/-- A gang whose partition owns a KV block on the move. -/
def movingGang : State :=
  { ganged with stage2 := 0x100000, stage2Entries := 64, mem := [(0x100000, 1), (0x100006, 0x80), (0x100007, 0x80)] ++ tables
                chunks := [{ block := 0, tier := 0, addr := 0x1000000, bytes := 0x20000, used := true, retired := false }] }
def partIs (f : Part → Part) : State := { base with parts := [(1, f part1)] }
theorem hyp_PartitionEvents :
    createOk spec1 State.reset = true ∧ createOk spec1 base = false ∧ (spec1.queues.map (fun k => k.q)).Nodup ∧
    (partOf base 1).live = true ∧ (partOf base 2).live = false ∧ (partOf base 2).finalDue = false ∧ (partOf base 2).ubuf = [] ∧
    (let s := partIs fun x => { x with live := false, ubuf := [[1]] }
     (partOf s 1).live = false ∧ (partOf s 1).finalDue = false ∧ (partOf s 1).ubuf ≠ []) ∧
    (stopping ganged = [0] ∧ (∀ h ∈ stopping ganged, cannotStop (settled ganged) h = false) ∧ (∀ i ∈ partJobs ganged 1, (jobOf ganged i).marks = [])) ∧
    (¬ ((ended ganged).signals.any (fun e => e.part == 1) = true ∨ kvMoving (ended ganged) 1 = true)) ∧
    ((partOf movingGang 1).live = true ∧ (∀ h ∈ stopping movingGang, cannotStop (settled movingGang) h = false) ∧
      (∀ i ∈ partJobs movingGang 1, (jobOf movingGang i).marks = []) ∧ kvMoving (ended movingGang) 1 = true) ∧
    (∃ h ∈ stopping gangAwaits, cannotStop (settled gangAwaits) h = true) ∧
    (1 : Nat) ≤ 64 ∧ (partOf base 1).ubuf.length < 64 ∧ (partOf (partIs fun x => { x with live := false, finalDue := true }) 1).finalDue = true ∧
    (queueOf (queued fun k => { k with state := 5 }) 1 2).state = 5 ∧ (partOf (queued id) 1).closing = false ∧ (queueOf base 1 2).state ≠ 5 ∧
    (partOf (partIs fun x => { x with closing := true }) 1).closing = true := by
  decide

/-- A migration whose pass 0 has copied, of a partition whose one job is parked. -/
def migrating (cur : Cells Bool) : State :=
  { parkedGang with migr := [(1, { Migration.none with on := true, dest := 5, begun := true, pass := 2, cur := cur })] }
theorem hyp_MigrationEvents :
    (partOf base 1).live = true ∧ (partOf base 1).closing = false ∧ (migrOf base 1).on = false ∧ (5 : Nat) ≠ base.pkg ∧ (partOf base 2).live = false ∧
    (let s := migrating [(0x1000000, true)]
     (migrOf s 1).on = true ∧ (migrOf s 1).begun = true ∧ Memory.wf s.mem = true ∧ (migrOf s 1).dest ≠ s.pkg ∧
     (∀ e ∈ (migrOf s 1).cur, e.1 < 2 ^ 28 ∧ isPinned (pinnedPages s 1) e.1 = false) ∧ (migrOf s 1).dest = (5 : BitVec 10).toNat ∧ (unsettled s 1).length < (migrOf s 1).threshold ∧
     (∀ i ∈ partJobs s 1, (jobOf s i).parked = true) ∧ kvMoving s 1 = false) ∧
    (let s := { migrating [] with stage2 := 0x100000, stage2Entries := 64, mem := [(0x100000, 1), (0x100006, 0x80), (0x100007, 0x80)] ++ tables
                                  chunks := [{ block := 0, tier := 0, addr := 0x1000000, bytes := 0x20000, used := true, retired := false }] }
     kvMoving s 1 = true) ∧
    (migrOf base 1).threshold ≤ 1024 ∧
    (let ds : List HdmSpec := [⟨0x60000000000, 0x20000000000, 8, 4096⟩]
     base.boot.imageOnly = false ∧ ds.length ≤ 8 ∧ (∀ d ∈ ds, 0x60000000000 ≤ d.base.toNat ∧ d.base.toNat + d.bytes ≤ 0x80000000000 ∧
       (d.ways = 1 ∨ d.ways = 2 ∨ d.ways = 4 ∨ d.ways = 8) ∧ (d.gran = 256 ∨ d.gran = 4096))) := by
  decide

/-- An image of one zero byte, with a key and a signature that verifies: r = s = the digest e, and the key is that point of
abscissa e less the base point. -/
def image0 : SignedImage :=
  { bytes := [0], r := 0x6e340b9cffb37a989ca544e6bb780a2c78901d3fb33738768511a30617afa01d
    s := 0x6e340b9cffb37a989ca544e6bb780a2c78901d3fb33738768511a30617afa01d
    keyX := 0x82ac2eec7a72ac40bc4bbd8b885530620755e3ac4e15d121c491ab4e9257f108
    keyY := 0x2158d1a997b199ebfdcb727bb977b8be8f9f27f7e5c7c60c61fbbea43f0e7de9 }
def fused : BootSt := { State.reset.boot with fuse := 0xf28a54739081beb64b537552fd8e49e3859f8ba77a876e8ba4a35d8891833cda }

theorem test_firmware_image : imageOk fused.fuse image0 = true := by decide +kernel
theorem test_firmware_other_key : imageOk 0 image0 = false := by decide +kernel

/-- BootEvents: a device before its first start, with a good image; one that is ready; one that waits for an image. -/
theorem hyp_BootEvents : (State.reset.boot.ready = false ∧ State.reset.boot.failed = false) ∧ ({ fused with ready := true } : BootSt).ready = true ∧
    (let s := { State.reset with boot := { fused with imageOnly := true } }
     (s.boot.imageOnly && (linkOf s 0).trained) = true) := by decide

/-! ## Steps and invariants -/

/-- Hart 0 at its turn at `pc`, with ADDI g8, g8, 256 at 0x2000 and VSETL g2, 7, 6's word at 0x2004, in the page that its fetch pin names. -/
def stepper (pc : Word) : State :=
  { convoy with turn := .hart 0, harts := [(0, { hart with pc := pc, pin := some (0, 0x1000000, 97) })]
                mem := tables ++ (centries unlistedByte 0x10000002000 (toBytes 4 0x0401084C ++ toBytes 8 0x0000000800031C02)) }

theorem stepper_place (pc : Word) (h : pc = 0x2000 ∨ pc = 0x2004 ∨ pc = 0x2008) :
    (me (stepper 0x2004)).pin = some (0, 0x1000000, 97) ∧ 64 ≤ (97 : Nat) ∧
    ∃ l, pinLoc (stepper 0x2004) (0, 0x1000000, 97) pc.toNat = some l ∧
      PlainPlace (stepper 0x2004) (myWho (stepper 0x2004)) pc.toNat 4 .fetch l := by
  refine ⟨rfl, by decide, ⟨0, 0x10000000000 + pc.toNat, 16, 4⟩, ?_, rfl, ?_, ?_, ?_, ?_, ?_, ?_, ?_, ?_⟩ <;> rcases h with rfl | rfl | rfl <;> decide

theorem fetched {pc : Nat} {u : State} {c : Code} {i : Instr}
    (h : okAnd (fun d v => d == c && (me v).capLeft == 0 && !gWaits (me v) i) (fetchCode pc u) = true) :
    ∃ v, fetchCode pc u = .ok c v ∧ (me v).capLeft = 0 ∧ gWaits (me v) i = false := by
  obtain ⟨d, v, h1, h2⟩ := of_okAnd h
  simp only [Bool.and_eq_true, beq_iff_eq, Bool.not_eq_true'] at h2
  exact ⟨v, by rw [h1, h2.1.1], h2.1.2, h2.2⟩

/-- StepRunsDecoded: a parcel and a long instruction, each fetched, decoded and executed; an event given from outside. -/
theorem hyp_StepRunsDecoded :
    (∀ p ∈ [((0x2000 : Word), Code.parcel 0x0401084C, Instr.addi 8 8 256), (0x2004, .long 0x0000000800031C02, .vsetl 2 7 6)],
      let s := stepper p.1; let u := settleStores { s with cur := 0 }
      s.inbox = [] ∧ s.regWrites = [] ∧ s.turn = .hart 0 ∧ (me u).run = .running ∧ (me u).pend = none ∧ (me u).entry = none ∧
      (me u).dbg.due = none ∧ (me u).dbg.stepping = 0 ∧ heldByWait (me u) = false ∧ breakAt (me u).dbg (me u).pc = none ∧
      (me u).pc.toNat % 4 = 0 ∧ decodeCode p.2.1 = .ok p.2.2 ∧
      ∃ v, fetchCode (me u).pc.toNat u = .ok p.2.1 v ∧ (me v).capLeft = 0 ∧ gWaits (me v) p.2.2 = false) ∧
    (∀ v, ∃ t, execAddi 8 8 256 (leaveConvoy (.parcel 0x0401084C) v) = .next t) ∧
    (∀ v, ∃ t, execVsetl 2 7 6 (leaveConvoy (.long 0x0000000800031C02) v) = .next t) ∧
    (∃ t, execDirectoryRecall 0 { base with inbox := [] } = .next t) := by
  refine ⟨?_, fun _ => ⟨_, rfl⟩, fun _ => ⟨_, rfl⟩, ⟨_, rfl⟩⟩
  intro p hp
  have h : p = (0x2000, Code.parcel 0x0401084C, Instr.addi 8 8 256) ∨ p = (0x2004, .long 0x0000000800031C02, .vsetl 2 7 6) := by simpa using hp
  rcases h with rfl | rfl
  · exact ⟨rfl, rfl, rfl, rfl, rfl, rfl, rfl, rfl, by decide, by decide, by decide, by decide, fetched (by decide +kernel)⟩
  · exact ⟨rfl, rfl, rfl, rfl, rfl, rfl, rfl, rfl, by decide, by decide, by decide, by decide, fetched (by decide +kernel)⟩

/-- EncodingRoundTrips: a parcel and a long instruction. -/
theorem hyp_EncodingRoundTrips : (Instr.addi 8 8 256).wellFormed = true ∧ encode (.addi 8 8 256) = some (.parcel 0x0401084C) ∧
    (Instr.vsetl 2 7 6).wellFormed = true ∧ encode (.vsetl 2 7 6) = some (.long 0x0000000800031C02) ∧
    decodeCode (.parcel 0x0401084C) = .ok (.addi 8 8 256) := by decide

/-- StepKeepsInvariants: the state after reset, and a hart that runs. -/
theorem hyp_StepKeepsInvariants : Memory.wf State.reset.mem = true ∧ LaneInv State.reset ∧ Memory.wf base.mem = true ∧ LaneInv base := by
  unfold LaneInv LaneOk; decide

end Sys2Proof.Tests
end

/-! Family 01, address spaces: the translation that an access makes (R8, R49, R54), and the state after reset. -/

namespace Sys2Proof.Machine

/-! ## Sequences of accesses -/

@[simp] theorem mbind_bad {α β : Type} (e : Flt) (s : State) (f : α → State → MR β) : mbind (.bad e s) f = .bad e s := rfl

theorem mbind_eq_ok_iff {α β : Type} {m : MR α} {f : α → State → MR β} {b : β} {t : State} :
    mbind m f = .ok b t ↔ ∃ a u, m = .ok a u ∧ f a u = .ok b t := by
  cases m <;> simp [mbind]

/-! ## Addresses out of range -/

theorem pageFlt_toNat (w : Who) (va : Word) (kind : AccKind) (reason lvl : Nat) :
    ∃ stat, pageFlt w va.toNat kind reason lvl = { cause := 4, addr := va, stat := stat } :=
  ⟨_, by simp only [pageFlt, mkFlt, BitVec.ofNat_toNat, BitVec.setWidth_eq]; rfl⟩

theorem translate_of_range {va : Nat} (h : 2 ^ 48 ≤ va) (w : Who) (kind : AccKind) (s : State) :
    translate w va kind s = .bad (pageFlt w va kind 5 1) s := if_pos h

theorem transFor_of_range {va : Nat} (h : 2 ^ 48 ≤ va) (w : Who) (kind : AccKind) (s : State) :
    transFor w va kind s = .bad (pageFlt w va kind 5 1) s :=
  (if_pos (.inr h)).trans (translate_of_range h w kind s)

theorem lt_of_transFor_ok {w : Who} {va : Nat} {kind : AccKind} {s s1 : State} {l : Loc}
    (h : transFor w va kind s = .ok l s1) : va < 2 ^ 48 := by
  by_contra hr
  rw [transFor_of_range (Nat.le_of_not_lt hr)] at h
  cases h

theorem addressesAreTranslatedTo48Bits : AddressesAreTranslatedTo48Bits := by
  intro s w va n bs f hr
  have fault (kind : AccKind) : ∃ stat, pageFlt w va.toNat kind 5 1 = { cause := 4, addr := va, stat := stat } :=
    pageFlt_toNat w va kind 5 1
  refine ⟨?_, ?_, ?_, ?_⟩
  · obtain ⟨stat, h⟩ := fault .read
    exact ⟨stat, by rw [vaRead, transFor_of_range hr, mbind_bad, h]⟩
  · obtain ⟨stat, h⟩ := fault .write
    exact ⟨stat, by rw [vaWrite, transFor_of_range hr, mbind_bad, h]⟩
  · obtain ⟨stat, h⟩ := fault .atomic
    exact ⟨stat, by rw [vaAtomic, transFor_of_range hr, mbind_bad, h]⟩
  · obtain ⟨stat, h⟩ := fault .fetch
    exact ⟨stat, by rw [translate_of_range hr, h]⟩

/-! ## The place of an address under a leaf -/

/-- Where an address goes under a leaf of a level: its frame, and the address's offset in the leaf's page (R50). -/
def leafPlace (s : State) (w : Who) (va leaf lvl : Nat) : Loc :=
  locOf s w leaf lvl (leafFrame leaf * 65536 + va % pageSize lvl)

@[simp] theorem locOf_leaf (s : State) (w : Who) (leaf lvl a : Nat) : (locOf s w leaf lvl a).leaf = leaf := by
  simp only [locOf]
  split
  · rfl
  · split <;> rfl

@[simp] theorem locOf_lvl (s : State) (w : Who) (leaf lvl a : Nat) : (locOf s w leaf lvl a).lvl = lvl := by
  simp only [locOf]
  split
  · rfl
  · split <;> rfl

/-- R10, R47: a frame of target 4 is a global address, which names its package. -/
theorem locOf_of_global {leaf : Nat} (h : bitsOf leaf 4 3 = 4) (s : State) (w : Who) (lvl a : Nat) :
    locOf s w leaf lvl a = ⟨a / 2 ^ 44, a % 2 ^ 44, leaf, lvl⟩ := if_pos h

/-- R47: a frame of any other target but the windows (R82) is an address of this package. -/
theorem locOf_of_local {leaf : Nat} (h4 : bitsOf leaf 4 3 ≠ 4) (h5 : bitsOf leaf 4 3 ≠ 5) (s : State) (w : Who)
    (lvl a : Nat) : locOf s w leaf lvl a = ⟨s.pkg, a, leaf, lvl⟩ := (if_neg h4).trans (if_neg h5)

@[simp] theorem leafPlace_leaf (s : State) (w : Who) (va leaf lvl : Nat) : (leafPlace s w va leaf lvl).leaf = leaf :=
  locOf_leaf _ _ _ _ _

@[simp] theorem leafPlace_lvl (s : State) (w : Who) (va leaf lvl : Nat) : (leafPlace s w va leaf lvl).lvl = lvl :=
  locOf_lvl _ _ _ _ _

/-- Every page size is a whole number of pages of 64 KiB, so the address keeps its offset in its page of 64 KiB. -/
theorem mod_pageSize (va lvl : Nat) :
    va % pageSize lvl = 65536 * (va / 65536 % (pageSize lvl / 65536)) + va % 65536 := by
  unfold pageSize
  split
  · omega
  · split <;> omega

/-- Under one leaf that is no window (R82), addresses of one page of 64 KiB go to one package, each at its own offset. -/
theorem leafPlace_same_page (s : State) (w : Who) {va va' : Nat} (leaf lvl : Nat) (hp : va' / 65536 = va / 65536)
    (ht : bitsOf leaf 4 3 ≠ 5) :
    (leafPlace s w va' leaf lvl).pkg = (leafPlace s w va leaf lvl).pkg ∧
      (leafPlace s w va' leaf lvl).a + va % 65536 = (leafPlace s w va leaf lvl).a + va' % 65536 := by
  unfold leafPlace
  rw [mod_pageSize va, mod_pageSize va', hp]
  generalize va / 65536 % (pageSize lvl / 65536) = page
  by_cases h4 : bitsOf leaf 4 3 = 4
  · simp only [locOf_of_global h4]
    omega
  · simp only [locOf_of_local h4 ht, true_and]
    omega

/-! ## What a stream holds -/

/-- A walk that succeeds answers the place of the address under the leaf it found, with A and D as it left them. -/
theorem translateFrom_ok {w : Who} {va : Nat} {kind : AccKind} {fuel : Nat} {s t : State} {l : Loc}
    (h : translateFrom w va kind fuel s = .ok l t) : l = leafPlace t w va l.leaf l.lvl := by
  induction fuel generalizing s with
  | zero => cases h
  | succ fuel ih =>
    unfold translateFrom at h
    obtain ⟨p, u, -, h⟩ := mbind_eq_ok_iff.mp h
    simp only at h
    split at h
    · cases h
    · split at h
      · cases h
      · split at h
        · cases h
        · obtain ⟨e, v, -, h⟩ := mbind_eq_ok_iff.mp h
          cases e with
          | none => exact ih h
          | some e =>
            cases h
            rw [locOf_leaf, locOf_lvl]
            rfl

theorem translate_ok {w : Who} {va : Nat} {kind : AccKind} {s t : State} {l : Loc}
    (h : translate w va kind s = .ok l t) : l = leafPlace t w va l.leaf l.lvl := by
  unfold translate at h
  split at h
  · cases h
  · exact translateFrom_ok h

/-- The translation that a party's stream holds for a page of 64 KiB (R54). -/
def heldFor (s : State) (w : Who) (page : Nat) : Option Held :=
  s.held.find? fun h => (h.hart == w.hart && h.slot == w.hold) && h.page == page

/-- An access in a page that the stream holds reads no table and changes nothing. -/
theorem transFor_of_held {s : State} {w : Who} {va : Nat} {h : Held} (hw : w.hold ≠ 0) (hr : va < 2 ^ 48)
    (hh : heldFor s w (va / 65536) = some h) (kind : AccKind) :
    transFor w va kind s =
      match leafDenies w kind h.leaf with
      | some r => .bad (pageFlt w va kind r h.lvl) s
      | none => .ok (leafPlace s w va h.leaf h.lvl) s := by
  unfold heldFor at hh
  unfold transFor
  rw [if_neg (by omega)]
  simp only [hh]
  rfl

/-- An access in a page that the stream does not hold walks, and the stream then holds what it found. -/
theorem transFor_of_not_held {s : State} {w : Who} {va : Nat} (hw : w.hold ≠ 0) (hr : va < 2 ^ 48)
    (hh : heldFor s w (va / 65536) = none) (kind : AccKind) :
    transFor w va kind s = mbind (translate w va kind s) fun l s =>
      .ok l { s with held := ⟨w.hart, w.hold, va / 65536, l.leaf, l.lvl⟩ ::
                             s.held.filter fun h => !(h.hart == w.hart && h.slot == w.hold) } := by
  unfold heldFor at hh
  unfold transFor
  rw [if_neg (by omega)]
  simp only [hh]

/-- After a translation that succeeded, the stream holds its leaf for the page, and the place is that of the leaf. -/
theorem heldFor_of_transFor_ok {s s1 : State} {w : Who} {va : Nat} {kind : AccKind} {l : Loc} (hw : w.hold ≠ 0)
    (h : transFor w va kind s = .ok l s1) :
    (∃ e, heldFor s1 w (va / 65536) = some e ∧ e.leaf = l.leaf ∧ e.lvl = l.lvl) ∧
      l = leafPlace s1 w va l.leaf l.lvl := by
  have hr := lt_of_transFor_ok h
  cases hh : heldFor s w (va / 65536) with
  | some e =>
    rw [transFor_of_held hw hr hh] at h
    split at h
    · cases h
    · cases h
      simp [hh]
  | none =>
    rw [transFor_of_not_held hw hr hh] at h
    obtain ⟨l', u, hu, h⟩ := mbind_eq_ok_iff.mp h
    cases h
    have hl := translate_ok hu
    exact ⟨⟨⟨w.hart, w.hold, va / 65536, l.leaf, l.lvl⟩, by simp [heldFor], rfl, rfl⟩, hl⟩

theorem oneTranslationForAPage : OneTranslationForAPage := by
  intro s s1 w va va' kind kind' l hw h hp
  have hr := lt_of_transFor_ok h
  obtain ⟨⟨e, he, hleaf, hlvl⟩, hl⟩ := heldFor_of_transFor_ok hw h
  have later := transFor_of_held (va := va') hw (by omega) (hp ▸ he) kind'
  rw [hleaf, hlvl] at later
  refine ⟨fun allowed => ?_, fun r denied => ?_⟩
  · rw [allowed] at later
    refine ⟨_, later, leafPlace_leaf .., leafPlace_lvl .., fun ht => ?_⟩
    have same := leafPlace_same_page s1 w l.leaf l.lvl hp ht
    rwa [← hl] at same
  · rw [denied] at later
    exact ⟨_, later⟩

/-- Settles O9: an address beyond 48 bits faults before any walk; a translation that succeeded leaves its leaf with the
stream, so a later access in the page takes it from there. -/
theorem translationOfAddresses : Obligations.TranslationOfAddresses :=
  ⟨addressesAreTranslatedTo48Bits, oneTranslationForAPage⟩

/-! ## The state after reset -/

@[simp] theorem coreOf_reset (c : Nat) : coreOf State.reset c = Core.reset := cget_nil _ c
@[simp] theorem hartOf_reset (h : Nat) : hartOf State.reset h = Hart.reset := cget_nil _ h
@[simp] theorem memByte_reset (a : Nat) : memByte State.reset a = 0 := cget_nil _ a
@[simp] theorem tagCountOf_reset (t : Nat) : tagCountOf Core.reset t = 0 := cget_nil _ t

theorem memInv_reset : MemInv State.reset := rfl

/-- No hart runs, no switch record and no frame is saved: no lane grant stands. -/
theorem laneInv_reset : LaneInv State.reset :=
  ⟨List.forall_mem_nil _, List.forall_mem_nil _, List.forall_mem_nil _⟩

/-- Settles O59: the root tables of reset are empty, so each core, hart and byte reads as its own reset value. -/
theorem resetState : Obligations.ResetState := by
  refine ⟨by decide, by decide, rfl, fun c => ?_, fun h => ?_, memByte_reset, memInv_reset, laneInv_reset⟩
  · rw [coreOf_reset]
    exact ⟨rfl, rfl, tagCountOf_reset⟩
  · rw [hartOf_reset]
    exact ⟨rfl, rfl, rfl⟩

end Sys2Proof.Machine

/-! Family 02, translation: vector loads and stores (R54, R57, R303, R350). An access sees nothing of a hart's vector registers
(`vaRead_setHart`, `vaWrite_setHart`), so those of a sweep are the same before and after its loads. -/

namespace Sys2Proof.Machine

/-! ## Accesses and the registers of harts -/

/-- An access's answer with its state changed. -/
def MR.onState {α : Type} (g : State → State) : MR α → MR α
  | .ok a s => .ok a (g s)
  | .bad f s => .bad f (g s)
  | .wait s => .wait (g s)

theorem mbind_onState {α β : Type} {g : State → State} {m m' : MR α} {f f' : α → State → MR β}
    (hm : m' = m.onState g) (hf : ∀ a t, m = .ok a t → f' a (g t) = (f a t).onState g) :
    mbind m' f' = (mbind m f).onState g := by
  subst hm
  cases m with
  | ok a t => exact hf a t rfl
  | bad e t => rfl
  | wait t => rfl

theorem ite_onState {α : Type} {g : State → State} {c : Prop} [Decidable c] {a b a' b' : MR α}
    (ha : a' = a.onState g) (hb : b' = b.onState g) :
    (if c then a' else b') = (if c then a else b).onState g := by
  rw [ha, hb, apply_ite (MR.onState g)]

theorem ite_map {g : State → State} {c : Prop} [Decidable c] {a b a' b' : State} (ha : a' = g a) (hb : b' = g b) :
    (if c then a' else b') = g (if c then a else b) := by
  rw [ha, hb, apply_ite g]

/-- A field of a record as a function of what it held (R153). -/
def recUpdate (die a n : Nat) (f : Nat → Nat) (s : State) : State := recWrite die a n (f (rawRead s a n)) s

theorem mergeShadow_eq (s : State) (die part i : Nat) (sh : Shadow) :
    let a := recAddr s part i
    mergeShadow s die part i sh = sh.bins.foldl
      (fun s p => recUpdate die (a + 0x20 + 3 * p.1) 3 (fun v => min (v + p.2) (2 ^ 24 - 1)) s)
      (recUpdate die (a + 0x14) 4 (fun v => min (v + sh.infs) (2 ^ 32 - 1))
        (recUpdate die (a + 0x10) 4 (fun v => min (v + sh.nans) (2 ^ 32 - 1))
          (recUpdate die (a + 8) 8 (fun v => (v + sh.count) % 2 ^ 64)
            (recUpdate die (a + 4) 4 (fun v => (v + 1) % 2 ^ 32) (recUpdate die a 4 (fun v => max v sh.absmax) s))))) := rfl

/-- A die keeps a shadow of a record (R152). -/
def keepShadow (k : Nat) (sh : Shadow) (s : State) : State := { s with shadows := cset Shadow.empty k sh s.shadows }

/-- PART of a record is set: part of an element was written (R150). -/
def markCut (die part i : Nat) (s : State) : State :=
  recWrite die (recAddr s part i + 0x18) 4 (recCtl s part i ||| 2 ^ 14) s

theorem trackFold_eq (die part i off : Nat) (bs : List Byte) (s : State) :
    let fmt := recFmt s part i
    let sp := trackSpan (bitsFmt fmt) off bs.length
    let k := shadowKey die part i
    let sh := foldElems fmt (recBaseExp s part i) (ofBytes bs) (bitsFmt fmt) sp.2.1 (8 * sp.1) s (cget Shadow.empty k s.shadows)
    let t := if sp.2.1 = 0 then s else keepShadow k sh s
    trackFold die part i off bs s = if sp.2.2 then markCut die part i t else t := rfl

section
variable (h : Nat) (x : Hart) (s : State)

/-! ### Updates of other parts commute with an update of a hart -/

@[simp] theorem modPart_setHart (p : Nat) (f : Part → Part) : modPart p f (setHart h x s) = setHart h x (modPart p f s) := rfl
@[simp] theorem modLink_setHart (l : Nat) (f : Link → Link) : modLink l f (setHart h x s) = setHart h x (modLink l f s) := rfl
@[simp] theorem setMem_setHart (a : Nat) (bs : List Byte) : setMem a bs (setHart h x s) = setHart h x (setMem a bs s) := rfl
@[simp] theorem bump_setHart : bump (setHart h x s) = setHart h x (bump s) := rfl
theorem ite_setHart (c : Prop) [Decidable c] (t : State) :
    (if c then setHart h x s else setHart h x t) = setHart h x (if c then s else t) := (apply_ite (setHart h x) c s t).symm
@[simp] theorem partOf_setHart (p : Nat) : partOf (setHart h x s) p = partOf s p := rfl
@[simp] theorem linkOf_setHart (l : Nat) : linkOf (setHart h x s) l = linkOf s l := rfl
@[simp] theorem rawRead_setHart (a n : Nat) : rawRead (setHart h x s) a n = rawRead s a n := rfl

/-! ### Checks and tables -/

@[simp] theorem accRegion_setHart (t : Nat × Nat) (k : Nat) : accRegion (setHart h x s) t k = accRegion s t k := rfl
@[simp] theorem regionSearch_setHart (t : Nat × Nat) (rights part page : Nat) (kind : AccKind) (n k : Nat) :
    regionSearch (setHart h x s) t rights part page kind n k = regionSearch s t rights part page kind n k := by
  induction n generalizing k with
  | zero => rfl
  | succ n ih =>
    simp only [regionSearch, accRegion_setHart, ih]
    rfl
@[simp] theorem checkAt_setHart (t : Nat × Nat) (bar : Bool) (m p a : Nat) (kind : AccKind) :
    checkAt (setHart h x s) t bar m p a kind = checkAt s t bar m p a kind := by
  simp only [checkAt, regionSearch_setHart]
  rfl
@[simp] theorem targetOf_setHart (a : Nat) : targetOf (setHart h x s) a = targetOf s a := rfl
@[simp] theorem checkLocal_setHart (m p a : Nat) (kind : AccKind) :
    checkLocal (setHart h x s) m p a kind = checkLocal s m p a kind := by
  simp only [checkLocal, checkAt_setHart, targetOf_setHart]
@[simp] theorem admitCode_setHart (m p : Nat) (l : Loc) (kind : AccKind) :
    admitCode (setHart h x s) m p l kind = admitCode s m p l kind := by
  simp only [admitCode, checkAt_setHart, checkLocal_setHart]
  rfl
@[simp] theorem logDenial_setHart (m p a : Nat) (kind : AccKind) (r : Nat) :
    logDenial (setHart h x s) m p a kind r = setHart h x (logDenial s m p a kind r) := rfl
@[simp] theorem logAt_setHart (m p : Nat) (l : Loc) (kind : AccKind) (r : Nat) :
    logAt (setHart h x s) m p l kind r = setHart h x (logAt s m p l kind r) := ite_map rfl rfl
@[simp] theorem settleZero_setHart (a : Nat) : settleZero (setHart h x s) a = setHart h x (settleZero s a) := ite_map rfl rfl

/-! ### Translation -/

theorem tableRead_setHart (w : Who) (va a : Nat) :
    tableRead w va a (setHart h x s) = (tableRead w va a s).onState (setHart h x) := by
  simp only [tableRead, checkLocal_setHart, logDenial_setHart, settleZero_setHart]
  exact ite_onState rfl rfl

theorem walkLevels_setHart (w : Who) (va : Nat) (kind : AccKind) (n t : Nat) :
    walkLevels w va kind n t (setHart h x s) = (walkLevels w va kind n t s).onState (setHart h x) := by
  induction n generalizing t s with
  | zero => rfl
  | succ n ih =>
    exact mbind_onState (tableRead_setHart h x s w va _) fun e u _ =>
      ite_onState rfl (ite_onState rfl (ite_onState rfl (ih _ _)))

theorem zeroPages_setHart (w : Who) (va f n : Nat) :
    zeroPages w va f n (setHart h x s) = (zeroPages w va f n s).onState (setHart h x) := by
  induction n generalizing s with
  | zero => rfl
  | succ n ih =>
    refine mbind_onState (ih s) fun _ u _ => ?_
    simp only [checkLocal_setHart]
    exact ite_onState rfl rfl

theorem updateAD_setHart (w : Who) (va lvl ea e : Nat) (kind : AccKind) :
    updateAD w va lvl ea e kind (setHart h x s) = (updateAD w va lvl ea e kind s).onState (setHart h x) := by
  refine ite_onState rfl (mbind_onState (ite_onState (zeroPages_setHart ..) rfl) fun _ u _ => ?_)
  simp only [checkLocal_setHart, rawRead_setHart]
  exact ite_onState rfl (ite_onState rfl rfl)

theorem translateFrom_setHart (w : Who) (va : Nat) (kind : AccKind) (n : Nat) :
    translateFrom w va kind n (setHart h x s) = (translateFrom w va kind n s).onState (setHart h x) := by
  induction n generalizing s with
  | zero => rfl
  | succ n ih =>
    refine mbind_onState (walkLevels_setHart ..) fun p u _ => ite_onState rfl (ite_onState rfl ?_)
    split
    · rfl
    · refine mbind_onState (updateAD_setHart ..) fun e v _ => ?_
      cases e with
      | some e => rfl
      | none => exact ih v

theorem transFor_setHart (w : Who) (va : Nat) (kind : AccKind) :
    transFor w va kind (setHart h x s) = (transFor w va kind s).onState (setHart h x) := by
  have walk : translate w va kind (setHart h x s) = (translate w va kind s).onState (setHart h x) :=
    ite_onState rfl (translateFrom_setHart ..)
  unfold transFor
  refine ite_onState walk ?_
  simp only [setHart_held]
  split
  · split <;> rfl
  · exact mbind_onState walk fun _ _ _ => rfl

/-! ### Links and registers of the MMIO region -/

theorem meterClusters_setHart (j : Nat) : meterClusters j (setHart h x s) = setHart h x (meterClusters j s) := rfl
theorem settleMeters_setHart (p : Nat) : settleMeters p (setHart h x s) = setHart h x (settleMeters p s) := by
  have run (l : List (Nat × Job)) : l.foldl (fun s p => meterClusters p.1 s) (setHart h x s) =
      setHart h x (l.foldl (fun s p => meterClusters p.1 s) s) := List.foldl_hom _ fun u q => meterClusters_setHart h x u q.1
  simp only [settleMeters, setHart_jobs, run, addMeter, modPart_setHart, partOf_setHart, setHart_ticks]
theorem viewRead_setHart (fn off : Nat) : viewRead (setHart h x s) fn off = viewRead s fn off := by
  simp only [viewRead, settleMeters_setHart, partOf_setHart, freeReg, setHart_boot, setHart_fresh]
theorem issuedBefore_setHart (w : Who) (va : Nat) (l : Loc) (kind : AccKind) :
    issuedBefore (setHart h x s) w va l kind = issuedBefore s w va l kind := rfl
theorem crossNow_setHart (k m : Nat) (w : Who) (va : Nat) (l : Loc) (kind : AccKind) (n : Nat) :
    crossNow k m w va l kind n (setHart h x s) = (crossNow k m w va l kind n s).onState (setHart h x) := by
  unfold crossNow
  simp only [linkOf_setHart]
  split <;> rfl
theorem holdRequest_setHart (k : Nat) (r : LinkReq) :
    holdRequest k r (setHart h x s) = setHart h x (holdRequest k r s) := by
  refine ite_map rfl ?_
  rw [setHart_fresh]
  simp only [useTag, cacheReply, modLink_setHart, setMem_setHart, ite_setHart, bump_setHart]
theorem leaveOutstanding_setHart (k : Nat) (w : Who) (va : Nat) (l : Loc) (kind : AccKind) (n : Nat) (bs : List Byte) :
    leaveOutstanding k w va l kind n bs (setHart h x s) = setHart h x (leaveOutstanding k w va l kind n bs s) :=
  holdRequest_setHart ..

/-! ### Statistics records -/

theorem recAddr_setHart (p i : Nat) : recAddr (setHart h x s) p i = recAddr s p i := rfl
theorem recWrite_setHart (d a n v : Nat) : recWrite d a n v (setHart h x s) = setHart h x (recWrite d a n v s) := by
  simp only [recWrite, checkLocal_setHart, settleZero_setHart]
  exact ite_map rfl rfl
theorem recUpdate_setHart (d a n : Nat) (f : Nat → Nat) :
    recUpdate d a n f (setHart h x s) = setHart h x (recUpdate d a n f s) := recWrite_setHart ..
theorem mergeShadow_setHart (d p i : Nat) (sh : Shadow) :
    mergeShadow (setHart h x s) d p i sh = setHart h x (mergeShadow s d p i sh) := by
  simp only [mergeShadow_eq, recAddr_setHart, recUpdate_setHart]
  exact List.foldl_hom _ fun u q => recUpdate_setHart h x u ..
theorem recAllowed_setHart (d p i : Nat) (wr : Bool) (va : Nat) :
    recAllowed d p i wr va (setHart h x s) = (recAllowed d p i wr va s).onState (setHart h x) := by
  simp only [recAllowed, recCode, checkLocal_setHart, recAddr_setHart]
  exact ite_onState rfl (ite_onState rfl rfl)
theorem foldShadow_setHart (va d p i : Nat) :
    foldShadow va (setHart h x s) d p i = (foldShadow va s d p i).onState (setHart h x) := by
  refine ite_onState rfl (mbind_onState (recAllowed_setHart ..) fun _ u _ => ?_)
  exact congrArg (MR.ok ()) (mergeShadow_setHart h x (keepShadow (shadowKey d p i) Shadow.empty u) d p i
    (cget Shadow.empty (shadowKey d p i) s.shadows))
theorem roomForShadow_setHart (va d p i : Nat) :
    roomForShadow va (setHart h x s) d p i = (roomForShadow va s d p i).onState (setHart h x) := by
  refine ite_onState rfl ?_
  simp only [setHart_shadows]
  split
  · exact foldShadow_setHart ..
  · rfl
theorem trackAllowed_setHart (d p i off n va : Nat) :
    trackAllowed d p i off n va (setHart h x s) = (trackAllowed d p i off n va s).onState (setHart h x) :=
  mbind_onState (recAllowed_setHart ..) fun _ u _ => ite_onState rfl (roomForShadow_setHart h x u va d p i)
theorem foldAllowed_setHart (w : Who) (va : Nat) (l : List (Nat × Nat × Nat × Nat × Nat)) :
    foldAllowed w va l (setHart h x s) = (foldAllowed w va l s).onState (setHart h x) := by
  induction l generalizing s with
  | nil => rfl
  | cons p l ih => exact mbind_onState (trackAllowed_setHart ..) fun _ u _ => ih u
theorem foldValue_setHart (sh : Shadow) (be : Int) (v : Val) : foldValue (setHart h x s) sh be v = foldValue s sh be v := rfl
theorem foldElems_setHart (fmt : Nat) (be : Int) (y w n lo : Nat) (sh : Shadow) :
    foldElems fmt be y w n lo (setHart h x s) sh = foldElems fmt be y w n lo s sh := by
  induction n generalizing lo sh with
  | zero => rfl
  | succ n ih => simp only [foldElems, foldValue_setHart, ih]
theorem keepShadow_setHart (k : Nat) (sh : Shadow) : keepShadow k sh (setHart h x s) = setHart h x (keepShadow k sh s) := rfl
theorem markCut_setHart (d p i : Nat) : markCut d p i (setHart h x s) = setHart h x (markCut d p i s) := recWrite_setHart ..
theorem recCtl_setHart (p i : Nat) : recCtl (setHart h x s) p i = recCtl s p i := rfl
theorem trackFold_setHart (d p i off : Nat) (bs : List Byte) :
    trackFold d p i off bs (setHart h x s) = setHart h x (trackFold d p i off bs s) := by
  simp only [trackFold_eq, foldElems_setHart, recFmt, recBaseExp, recCtl_setHart, setHart_shadows, keepShadow_setHart,
    ite_setHart, markCut_setHart]
  rfl
theorem foldWrite_setHart (w : Who) (l : Loc) (bs : List Byte) :
    foldWrite w l bs (setHart h x s) = setHart h x (foldWrite w l bs s) :=
  List.foldl_hom _ fun u _ => trackFold_setHart h x u ..

/-! ### Writes -/

theorem noteWrite_setHart (w : Who) (l : Loc) (bs : List Byte) :
    noteWrite w l bs (setHart h x s) = setHart h x (noteWrite w l bs s) := by
  have mark : markWritten w l (setHart h x s) = setHart h x (markWritten w l s) := ite_map rfl rfl
  have held (u : State) : (if l.target = 1 then
        { setHart h x u with cmpHeld := cset false (l.a / 65536) (l.leaf.testBit 10) u.cmpHeld } else setHart h x u) =
      setHart h x (if l.target = 1 then { u with cmpHeld := cset false (l.a / 65536) (l.leaf.testBit 10) u.cmpHeld } else u) :=
    ite_map rfl rfl
  have line (u : State) : dropLine w l (setHart h x u) = setHart h x (dropLine w l u) := rfl
  simp only [noteWrite, mark, setHart_cmpHeld, held, line, ite_setHart, foldWrite_setHart]
theorem storeBytes_setHart (w : Who) (l : Loc) (bs : List Byte) :
    storeBytes w l bs (setHart h x s) = setHart h x (storeBytes w l bs s) := by
  refine ite_map (ite_map rfl rfl) ?_
  rw [noteWrite_setHart, setMem_setHart]

/-! ### Accesses -/

/-- Hart `x` in the place of `y` looks the same to every access: on its debug page, and, where it is stopped, in the windows
of its registers (R234, R236). -/
def LooksLike (x y : Hart) : Prop := x.dbg = y.dbg ∧ (x.run = y.run ∧ (y.run = .stopped → x = y))

variable {h x s} (k : LooksLike x (hartOf s h))
include k

theorem watchHit_setHart (w : Who) (va n : Nat) (kind : AccKind) :
    watchHit (setHart h x s) w va n kind = watchHit s w va n kind := by
  have e : (hartOf (setHart h x s) w.hart).dbg = (hartOf s w.hart).dbg := by
    rw [hartOf_setHart]
    split
    · subst_vars; exact k.1
    · rfl
  simp only [watchHit, e]

theorem mmioRead_setHart (a : Nat) : mmioRead (setHart h x s) a = mmioRead s a := by
  have page (j off : Nat) : debugRead (setHart h x s) j off = debugRead s j off := by
    obtain ⟨hd, hr, hs⟩ := k
    by_cases e : j = h
    · subst e
      by_cases st : (hartOf s j).run = .stopped
      · obtain rfl := hs st
        have same (n : Nat) : csrVal (setHart j (hartOf s j) s) j n true = csrVal s j n true := by
          simp only [csrVal, hartOf_setHart_same]
          rfl
        simp only [debugRead, hartOf_setHart_same, same]
        rfl
      · simp only [debugRead, hartOf_setHart_same, hd, hr, st, decide_false, Bool.not_false, if_true, Bool.false_eq_true,
          if_false]
        rfl
    · have same (n : Nat) : csrVal (setHart h x s) j n true = csrVal s j n true := by
        simp only [csrVal, hartOf_setHart_other e]
        rfl
      simp only [debugRead, hartOf_setHart_other e, same]
      rfl
  simp only [mmioRead, page, viewRead_setHart]
  rfl

theorem reach_setHart (w : Who) (va : Nat) (l : Loc) (kind : AccKind) (n : Nat) (bs : List Byte) :
    reach w va l kind n bs (setHart h x s) = (reach w va l kind n bs s).onState (setHart h x) := by
  simp only [reach, issuedBefore_setHart, admitCode_setHart, logAt_setHart, watchHit_setHart k]
  refine ite_onState rfl ?_
  split
  · rfl
  · refine ite_onState rfl ?_
    have link : linkFor (setHart h x s) l = linkFor s l := rfl
    simp only [link]
    split
    · exact ite_onState (crossNow_setHart ..) (congrArg MR.wait (leaveOutstanding_setHart ..))
    · exact congrArg (MR.ok none) (ite_map (settleZero_setHart ..) rfl)

theorem leeRead_setHart (w : Who) (va : Nat) (l : Loc) (n : Nat) :
    leeRead w va l n (setHart h x s) = (leeRead w va l n s).onState (setHart h x) := by
  unfold leeRead leeReadBy
  simp only [watchHit_setHart k, issuedBefore_setHart, admitCode_setHart, logAt_setHart, setHart_lee]
  split
  · rfl
  · split
    · refine ite_onState rfl ?_
      have poison (a m : Nat) : firstPoison (setHart h x s) a m = firstPoison s a m := rfl
      have link : linkFor (setHart h x s) l = linkFor s l := rfl
      simp only [poison, link]
      split
      · rfl
      · refine ite_onState rfl ?_
        split
        · exact ite_onState (mbind_onState (crossNow_setHart ..) fun _ _ _ => rfl)
            (congrArg MR.wait (leaveOutstanding_setHart ..))
        · rfl
    · rfl

theorem readAt_setHart (w : Who) (va : Nat) (l : Loc) (kind : AccKind) (n : Nat) :
    readAt w va l kind n (setHart h x s) = (readAt w va l kind n s).onState (setHart h x) := by
  refine ite_onState (leeRead_setHart k w va l n) (mbind_onState (reach_setHart k w va l kind n []) fun got u e => ?_)
  have ku : LooksLike x (hartOf u h) := (step_of_ok (reach_step w va l kind n [] s) e).hartOf h ▸ k
  refine ite_onState ?_ ?_
  · simp only [mmioBytes, mmioRead_setHart ku]
    rfl
  · cases got with
    | some bs => rfl
    | none =>
      have poison : firstPoison (setHart h x u) l.global n = firstPoison u l.global n := rfl
      simp only [poison]
      split <;> rfl

theorem vaRead_setHart (w : Who) (va n : Nat) :
    vaRead w va n (setHart h x s) = (vaRead w va n s).onState (setHart h x) :=
  mbind_onState (transFor_setHart h x s w va .read) fun l u e =>
    readAt_setHart (s := u) ((step_of_ok (transFor_step w va .read s) e).hartOf h ▸ k) w va l .read n

theorem writeAt_setHart (w : Who) (va : Nat) (l : Loc) (bs : List Byte) :
    writeAt w va l bs (setHart h x s) = (writeAt w va l bs s).onState (setHart h x) :=
  mbind_onState (mbind_onState (reach_setHart k w va l .write bs.length bs) fun _ u _ =>
    mbind_onState (foldAllowed_setHart h x u w va _) fun _ _ _ => rfl)
    fun _ u _ => congrArg (MR.ok ()) (ite_map (storeBytes_setHart h x u w l bs) (noteWrite_setHart h x u w l bs))

theorem vaWrite_setHart (w : Who) (va : Nat) (bs : List Byte) :
    vaWrite w va bs (setHart h x s) = (vaWrite w va bs s).onState (setHart h x) :=
  mbind_onState (transFor_setHart h x s w va .write) fun l u e =>
    writeAt_setHart (s := u) ((step_of_ok (transFor_step w va .write s) e).hartOf h ▸ k) w va l bs

end

/-! ## The places of a sweep -/

theorem tileOf_eq_product (c : LCtx) (rows : List Nat) : tileOf c rows = rows.product (List.range c.vl) := rfl

theorem tileOf_nodup (c : LCtx) (row : Option (BitVec 3)) : (tileOf c (rowsOf c row)).Nodup := by
  rw [tileOf_eq_product]
  refine List.Nodup.product ?_ List.nodup_range
  cases row with
  | none => exact List.nodup_range
  | some r => exact List.nodup_singleton _

/-- The places of a list that a mask makes active. -/
def activeIn (s : State) (mask : MaskSel) (l : List (Nat × Nat)) : List (Nat × Nat) :=
  l.filter fun p => active (me s) mask p.1 p.2

theorem activeIn_cons (s : State) (mask : MaskSel) (p : Nat × Nat) (l : List (Nat × Nat)) :
    activeIn s mask (p :: l) = if active (me s) mask p.1 p.2 then p :: activeIn s mask l else activeIn s mask l :=
  List.filter_cons

/-- An active place has the places before it and the places behind it. -/
theorem activeIn_split {s : State} {mask : MaskSel} {l : List (Nat × Nat)} {n : Nat} {p : Nat × Nat}
    (h : (activeIn s mask l)[n]? = some p) :
    ∃ l₁ l₂, l = l₁ ++ p :: l₂ ∧ activeIn s mask l₁ = (activeIn s mask l).take n ∧ active (me s) mask p.1 p.2 = true := by
  obtain ⟨lt, hp⟩ := List.getElem?_eq_some_iff.mp h
  have cut : activeIn s mask l = (activeIn s mask l).take n ++ p :: (activeIn s mask l).drop (n + 1) := by
    rw [← hp, ← List.drop_eq_getElem_cons, List.take_append_drop]
  obtain ⟨l₁, l', rfl, h₁, h'⟩ := List.filter_eq_append_iff.mp cut
  obtain ⟨l₂, l₃, rfl, none, ac, -⟩ := List.filter_eq_cons_iff.mp h'
  refine ⟨l₁ ++ l₂, l₃, by simp, ?_, ac⟩
  rw [activeIn, List.filter_append, h₁, List.filter_eq_nil_iff.mpr none, List.append_nil]

theorem activeOf_nodup (row : Option (BitVec 3)) (mask : MaskSel) (s : State) : (activeOf row mask s).Nodup :=
  (tileOf_nodup _ _).filter _

theorem inSweep_of_mem_activeOf {row : Option (BitVec 3)} {mask : MaskSel} {s : State} {w : Nat} {p : Nat × Nat}
    (f : Fits w row s) (h : p ∈ activeOf row mask s) : InSweep row s p.1 p.2 := by
  obtain ⟨ht, -⟩ := List.mem_filter.mp h
  obtain ⟨hk, he⟩ := List.mem_product.mp (tileOf_eq_product .. ▸ ht)
  cases row with
  | none => exact ⟨List.mem_range.mp hk, List.mem_range.mp he, nofun⟩
  | some r =>
    have hk : p.1 = r.toNat := List.mem_singleton.mp hk
    exact ⟨hk ▸ f.2 r rfl, List.mem_range.mp he, fun _ e => by cases e; exact hk⟩

/-- An element of the sweep lies in one of the eight rows, and whole in its row. -/
theorem inSweep_bounds {row : Option (BitVec 3)} {s : State} {w k e : Nat} (l : Lanes s) (f : Fits w row s)
    (h : InSweep row s k e) : k < 8 ∧ (e + 1) * w ≤ 16384 := by
  obtain ⟨hg, -, hrc⟩ := l
  obtain ⟨hk, he, -⟩ := h
  refine ⟨by omega, ?_⟩
  calc (e + 1) * w ≤ (me s).vl * w := Nat.mul_le_mul_right _ he
    _ ≤ (me s).vgrant * 2048 := f.1
    _ ≤ 8 * 2048 := Nat.mul_le_mul_right _ hg

/-! ## A hart whose vector storage changes -/

/-- Hart `y` is hart `x` but for what its vector registers hold. -/
def VecOnly (x y : Hart) : Prop := y = { x with r := { x.r with v := y.r.v, ext := y.r.ext } }

theorem VecOnly.refl (x : Hart) : VecOnly x x := rfl

theorem VecOnly.setVElemH {x y : Hart} (h : VecOnly x y) (v k e w z : Nat) : VecOnly x (setVElemH v k e w z y) := by
  unfold VecOnly at h
  rw [h]
  rfl

theorem VecOnly.masks {x y : Hart} (h : VecOnly x y) : y.r.m = x.r.m := by rw [h]

theorem active_congr {x y : Hart} (h : y.r.m = x.r.m) (m : MaskSel) (k e : Nat) : active y m k e = active x m k e := by
  simp only [active, mBit, mRow, h]

/-- The elements at the places take the numbers that the bytes stand for, one after another. -/
def loadInto (v w : Nat) : List (Nat × Nat) → List (List Byte) → Hart → Hart
  | p :: ps, b :: bs, x => loadInto v w ps bs (setVElemH v p.1 p.2 w (ofBytes b) x)
  | _, _, x => x

theorem VecOnly.loadInto {x : Hart} (v w : Nat) (ps : List (Nat × Nat)) (bs : List (List Byte)) {y : Hart} (h : VecOnly x y) :
    VecOnly x (loadInto v w ps bs y) := by
  induction ps generalizing bs y with
  | nil => cases bs <;> exact h
  | cons p ps ih =>
    cases bs with
    | nil => exact h
    | cons b bs => exact ih bs (h.setVElemH ..)

theorem vRow_setVElemH_other {v v' k k' : Nat} (e w z : Nat) (x : Hart) (hv : v' ≠ v) (hk : k < 8) (hk' : k' < 8) :
    vRow (setVElemH v k e w z x) v' k' = vRow x v' k' := by
  unfold setVElemH
  rw [vRow_touchV, vRow_putRow, if_neg (by omega)]

/-- Loads into a register leave the rows of every other register. -/
theorem vRow_loadInto_other {v v' k' : Nat} (w : Nat) (ps : List (Nat × Nat)) (bs : List (List Byte)) (x : Hart)
    (hp : ∀ p ∈ ps, p.1 < 8) (hv : v' ≠ v) (hk' : k' < 8) : vRow (loadInto v w ps bs x) v' k' = vRow x v' k' := by
  induction ps generalizing bs x with
  | nil => cases bs <;> rfl
  | cons p ps ih =>
    cases bs with
    | nil => rfl
    | cons b bs =>
      obtain ⟨h0, hps⟩ := List.forall_mem_cons.mp hp
      exact (ih bs _ hps).trans (vRow_setVElemH_other _ _ _ _ hv h0 hk')

section
variable {v w : Nat} {ps : List (Nat × Nat)} (hp : ∀ p ∈ ps, p.1 < 8 ∧ (p.2 + 1) * w ≤ 16384)
include hp

/-- Elements at other places keep what they held. -/
theorem vElem_loadInto_other {k e : Nat} (hk : k < 8) (hn : (k, e) ∉ ps) (bs : List (List Byte)) (x : Hart) :
    vElem (loadInto v w ps bs x) v k e w = vElem x v k e w := by
  induction ps generalizing bs x with
  | nil => cases bs <;> rfl
  | cons p ps ih =>
    cases bs with
    | nil => rfl
    | cons b bs =>
      obtain ⟨⟨h0, h1⟩, hps⟩ := List.forall_mem_cons.mp hp
      obtain ⟨ne, hn⟩ := not_or.mp (List.mem_cons.not.mp hn)
      have apart : k ≠ p.1 ∨ e ≠ p.2 := by
        by_contra c
        rw [not_or, not_not, not_not] at c
        exact ne (Prod.ext c.1 c.2)
      exact (ih hps hn bs _).trans (vElem_setVElemH_other _ _ _ _ _ _ _ _ _ h1 h0 hk (.inr apart))

/-- The element at a place holds the number of its bytes. -/
theorem vElem_loadInto_same (nd : ps.Nodup) {bs : List (List Byte)} {n : Nat} {p : Nat × Nat} {b : List Byte} (x : Hart)
    (h : ps[n]? = some p) (hb : bs[n]? = some b) : vElem (loadInto v w ps bs x) v p.1 p.2 w = ofBytes b % 2 ^ w := by
  induction ps generalizing bs x n with
  | nil => cases h
  | cons q ps ih =>
    cases bs with
    | nil => cases hb
    | cons c bs =>
      obtain ⟨⟨h0, h1⟩, hps⟩ := List.forall_mem_cons.mp hp
      obtain ⟨hq, nd⟩ := List.nodup_cons.mp nd
      cases n with
      | zero =>
        cases h
        cases hb
        exact (vElem_loadInto_other hps h0 hq bs _).trans (vElem_setVElemH_same _ _ _ _ _ _ h1)
      | succ n => exact ih hps nd _ h hb
end

/-! ## Elements of a memory instruction -/

theorem vmemCheck_passes {o : VMemOp} {s : State} (h : VecReady (ewBits o.ew) (memRow o.off.toNat o.row) s) (dst : List Reg) :
    Passes (vmemCheck o dst) s := by
  obtain ⟨q, ub, -, fit, row⟩ := h
  have free (d : Reg) : boundAhead (me s) d.toNat = false := by
    unfold boundAhead
    rw [q.vq, ub]
    rfl
  have clear : (dst.any fun d => [].contains d || boundAhead (me s) d.toNat) = false := by simp [free]
  have room : ¬ (me s).vgrant * 256 * 8 < (me s).vl * ewBits o.ew := by omega
  unfold Passes Check.reason
  simp only [vmemCheck, Check.none, clear, room, Bool.or_self, Bool.false_eq_true, if_false]
  cases sel : memRow o.off.toNat o.row with
  | none => rfl
  | some r => exact if_neg (Nat.not_le.mpr (row r sel))

section
variable {e : QEntry} {srcs : List Reg} {all : List (Nat × Nat)} {read : Nat → Nat → State → MR (List (Nat × Fl))}
  {act : Nat → Nat → List (Nat × Fl) → List Nat → State → MR (List Nat)} {fs : Nat → Nat → FaultStream}
  {fin : List Nat → State → LRes} {k i : Nat} {rest : List (Nat × Nat)} {kept kept' : List Nat} {s t u : State}
  {xs : List (Nat × Fl)} (hv : e.vstart = 0) (hg : e.got = [])
include hv hg

/-- An element whose sources are read and whose access succeeds is passed. -/
theorem memRun_cons_ok (hr : read k i s = .ok xs t) (ha : act k i xs kept t = .ok kept' u) :
    memRun e srcs all read act fs fin ((k, i) :: rest) kept s = memRun e srcs all read act fs fin rest kept' u := by
  simp only [memRun, hv, hg, Nat.not_lt_zero, if_false, readOnce, List.isEmpty_nil, Bool.not_true, Bool.false_eq_true, and_false,
    hr, ha]

/-- An element whose access faults stops the instruction there. -/
theorem memRun_cons_bad {f : Flt} (hr : read k i s = .ok xs t) (ha : act k i xs kept t = .bad f u) :
    memRun e srcs all read act fs fin ((k, i) :: rest) kept s =
      stopAt { e with kept := kept, got := [] } (sweepIx e.ctx k i) f (fs k i) u := by
  simp only [memRun, hv, hg, Nat.not_lt_zero, if_false, readOnce, List.isEmpty_nil, Bool.not_true, Bool.false_eq_true, and_false,
    hr, ha]
end

/-! ## In the midst of a vector instruction -/

/-- A vector instruction of `s` is being performed: memory has come to `u`, and the hart to `y`, which moved on at the push and
has changed only in its vector registers since. The state is `setHart s.cur y u`. -/
structure During (s u : State) (y : Hart) : Prop where
  mem : MemStep s u
  hart : VecOnly (me (retire 8 s)) y

theorem During.start (s : State) : During s s (me (retire 8 s)) := ⟨.refl s, rfl⟩

theorem retire_eq_setHart (n : Word) (s : State) : retire n s = setHart s.cur (me (retire n s)) s := by
  rw [me_retire]
  rfl

theorem me_setHart_of_cur {c : Nat} {s : State} (h : s.cur = c) (x : Hart) : me (setHart c x s) = x := by
  unfold me
  rw [setHart_cur, h, hartOf_setHart_same]

/-- The party of a memory instruction's accesses at its elements; stream V holds the translation of their page (R54). -/
def elemWho (s : State) : Who := { vWho (captureCtx s) s with hold := 1 }

section
variable {s u : State} {y : Hart} (d : During s u y)
include d

theorem During.me : me (setHart s.cur y u) = y := me_setHart_of_cur d.mem.cur y

theorem During.modMe (f : Hart → Hart) : modMe f (setHart s.cur y u) = setHart s.cur (f y) u := by
  have m := d.me
  unfold Machine.me at m
  unfold Machine.modMe modHart
  rw [m, setHart_cur, d.mem.cur, setHart_setHart]

theorem During.setVElem (v k e w z : Nat) :
    setVElem v k e w z (setHart s.cur y u) = setHart s.cur (setVElemH v k e w z y) u := d.modMe _

theorem During.active (mask : MaskSel) (k e : Nat) :
    active (Machine.me (setHart s.cur y u)) mask k e = Machine.active (Machine.me s) mask k e := by
  rw [d.me]
  refine active_congr ?_ mask k e
  rw [d.hart.masks, me_retire]

theorem During.looksLike (run : (Machine.me s).run = .running) : LooksLike y (hartOf u s.cur) := by
  rw [d.mem.hartOf, d.hart, me_retire]
  exact ⟨rfl, rfl, fun stopped => by cases run.symm.trans stopped⟩

/-- The party of its accesses is the one that stood at the push. -/
theorem During.who (ck : Check) (i : Instr) :
    { vWho (issued ck i s).ctx (setHart s.cur y u) with hold := 1 } = elemWho s := by
  have m := d.me
  unfold Machine.me at m
  unfold vWho hartWho
  rw [m, setHart_cur, d.mem.cur, d.hart, me_retire]
  rfl
end

theorem readsAre_cons {w : Who} {n a : Nat} {as : List Nat} {bs : List (List Byte)} {s s1 : State}
    (h : ReadsAre w n (a :: as) bs s s1) :
    ∃ b bs' s2, bs = b :: bs' ∧ vaRead w a n s = .ok b s2 ∧ ReadsAre w n as bs' s2 s1 := by
  cases bs with
  | nil => exact h.elim
  | cons b bs => exact ⟨b, bs, h.choose, rfl, h.choose_spec⟩

theorem readsAre_nil {w : Who} {n : Nat} {bs : List (List Byte)} {s s1 : State} (h : ReadsAre w n [] bs s s1) :
    bs = [] ∧ s1 = s := by
  cases bs with
  | nil => exact ⟨rfl, h⟩
  | cons b bs => exact h.elim

/-! ## The end of a vector instruction -/

section
variable {s u : State} {y : Hart} (d : During s u y)
include d

theorem During.binds (ub : Unbound s) : y.r.binds = [] := by
  rw [d.hart, me_retire]
  exact ub

theorem During.consume (ub : Unbound s) (srcs : List Reg) : consume srcs (setHart s.cur y u) = setHart s.cur y u := by
  have none := d.binds ub
  refine (d.modMe _).trans ?_
  simp only [none, List.map_nil]
  rw [← none]

/-- What a vector instruction leaves that ends in the state `setHart s.cur y u`: memory of `u`, and of the hart's registers
only those changed whose rows `y` holds changed. -/
theorem During.regFrame (q : Quiet s) {vs : List Nat}
    (hv : ∀ v k, k < 8 → v ∉ vs → vRow y v k = vRow (Machine.me s) v k) {t : State} (cur : t.cur = s.cur)
    (cores : t.cores = u.cores) (others : ∀ h, h ≠ s.cur → hartOf t h = hartOf u h)
    (hart : Machine.me t = { y with vq := [], stallV := none }) : RegFrame [] [] [] vs s t := by
  have core (c : Nat) : coreOf t c = coreOf s c := by
    rw [← d.mem.coreOf]
    unfold coreOf
    rw [cores]
  have hy := d.hart
  rw [me_retire] at hy
  refine ⟨fun r _ => ?_, fun n _ _ => ?_, fun m k _ _ => ?_, fun v k hk hn => ?_, ?_, ?_, ?_, ?_, ?_, ?_, ?_, ?_, ?_, fun h hn => ?_⟩
  · unfold gGet
    rw [hart, hy]
  · unfold queueOfHart
    rw [core, cur, hart, hy]
  · unfold mRow
    rw [hart, hy]
  · rw [← hv v k hk hn, hart]
    rfl
  all_goals try rw [hart, hy]
  · exact q.mq
  · exact q.pend
  · exact (others h hn).trans (d.mem.hartOf h)
end

/-! ## VLD -/

/-- What VLD does at an element. -/
def loadElem (o : VMemOp) (c : LCtx) (k i : Nat) (kept : List Nat) (s : State) : MR (List Nat) :=
  if active (me s) o.mask k i then
    mbind (aligned (vmemAddr o c k i) o.ew.toNat false false s) fun _ s =>
      mbind (vaReadNum { vWho c s with hold := 1 } (vmemAddr o c k i) (ewBytes o.ew) s) fun x s =>
        .ok kept (setVElem o.v.toNat k i (ewBits o.ew) x s)
  else .ok kept s

theorem aligned_of_mod {a log : Nat} (h : a % 2 ^ log = 0) (wr atom : Bool) (s : State) : aligned a log wr atom s = .ok () s :=
  if_neg (not_not.mpr h)

section
variable {s u : State} {y : Hart} (d : During s u y) {o : VMemOp} {k i : Nat} (ck : Check) (kept : List Nat)
include d

theorem During.loadElem_of_inactive (h : Machine.active (Machine.me s) o.mask k i = false) :
    loadElem o (issued ck (.vld o) s).ctx k i kept (setHart s.cur y u) = .ok kept (setHart s.cur y u) := by
  rw [loadElem, d.active, h]
  rfl

theorem During.loadElem_of_active (run : (Machine.me s).run = .running) (h : Machine.active (Machine.me s) o.mask k i = true)
    (al : vmemAddr o (captureCtx s) k i % ewBytes o.ew = 0) :
    loadElem o (issued ck (.vld o) s).ctx k i kept (setHart s.cur y u) =
      mbind ((vaRead (elemWho s) (vmemAddr o (captureCtx s) k i) (ewBytes o.ew) u).onState (setHart s.cur y)) fun bs t =>
        .ok kept (Machine.setVElem o.v.toNat k i (ewBits o.ew) (ofBytes bs) t) := by
  have addr : vmemAddr o (issued ck (.vld o) s).ctx k i = vmemAddr o (captureCtx s) k i := rfl
  rw [loadElem, d.active, h, addr, aligned_of_mod al, if_pos rfl, mbind, d.who, vaReadNum, vaRead_setHart (d.looksLike run)]
  cases vaRead (elemWho s) (vmemAddr o (captureCtx s) k i) (ewBytes o.ew) u <;> rfl
end

section
variable {s : State} {o : VMemOp} (run : (me s).run = .running) (ck : Check) (all : List (Nat × Nat))
  (fin : List Nat → State → LRes) (kept : List Nat)

/-- The sweep of a VLD that was pushed in `s`. -/
def vldRun (s : State) (o : VMemOp) (ck : Check) (all : List (Nat × Nat)) (fin : List Nat → State → LRes) :
    List (Nat × Nat) → List Nat → State → LRes :=
  memRun (issued ck (.vld o) s) [] all (fun _ _ s => .ok [] s) (fun k i _ => loadElem o (issued ck (.vld o) s).ctx k i)
    (vmemStream o (issued ck (.vld o) s).ctx) fin

include run

/-- Elements whose reads succeed are loaded one after another. -/
theorem vldRun_of_reads (l rest : List (Nat × Nat)) {bs : List (List Byte)} {u u1 : State} {y : Hart} (d : During s u y)
    (al : ∀ p ∈ activeIn s o.mask l, vmemAddr o (captureCtx s) p.1 p.2 % ewBytes o.ew = 0)
    (h : ReadsAre (elemWho s) (ewBytes o.ew) ((activeIn s o.mask l).map fun p => vmemAddr o (captureCtx s) p.1 p.2) bs u u1) :
    let z := loadInto o.v.toNat (ewBits o.ew) (activeIn s o.mask l) bs y
    vldRun s o ck all fin (l ++ rest) kept (setHart s.cur y u) = vldRun s o ck all fin rest kept (setHart s.cur z u1) ∧
      During s u1 z := by
  induction l generalizing bs u y with
  | nil =>
    obtain ⟨rfl, rfl⟩ := readsAre_nil h
    exact ⟨rfl, d⟩
  | cons p l ih =>
    rw [activeIn_cons] at h al ⊢
    cases ac : active (me s) o.mask p.1 p.2 with
    | true =>
      rw [ac, if_pos rfl] at h al
      obtain ⟨b, bs, u2, rfl, hb, h⟩ := readsAre_cons h
      obtain ⟨al0, al⟩ := List.forall_mem_cons.mp al
      have d2 : During s u2 y := ⟨d.mem.trans (step_of_ok (vaRead_step ..) hb), d.hart⟩
      have read : loadElem o (issued ck (.vld o) s).ctx p.1 p.2 kept (setHart s.cur y u) =
          .ok kept (setHart s.cur (setVElemH o.v.toNat p.1 p.2 (ewBits o.ew) (ofBytes b) y) u2) := by
        rw [d.loadElem_of_active ck kept run ac al0, hb, MR.onState, mbind, d2.setVElem]
      obtain ⟨e, done⟩ := ih ⟨d2.mem, d2.hart.setVElemH ..⟩ al h
      exact ⟨(memRun_cons_ok rfl rfl rfl read).trans e, done⟩
    | false =>
      rw [ac, if_neg Bool.false_ne_true] at h al
      obtain ⟨e, done⟩ := ih d al h
      exact ⟨(memRun_cons_ok rfl rfl rfl (d.loadElem_of_inactive ck kept ac)).trans e, done⟩
end

/-! ## The end of a memory instruction -/

theorem memSame_of_mem {s t : State} (h : t.mem = s.mem) : MemSame s t := fun a => by rw [memByte, memByte, h]

/-- The hart after a long instruction that accessed memory and completed: its queue is empty, and the access holds no
translation any more (R54). -/
def finished (s : State) : State := modMe (fun x => { x with vq := [], stallV := none }) (letGo s.cur (fun n => n == 1) s)

theorem afterV_entered_done (s : State) : afterV (entered 1 (.done s)) [] = finished s := rfl

/-- The sweep of a memory instruction. -/
def sweepOf (o : VMemOp) (s : State) : List (Nat × Nat) :=
  tileOf (captureCtx s) (rowsOf (captureCtx s) (memRow o.off.toNat o.row))

theorem me_finished (s : State) : me (finished s) = { me s with vq := [], stallV := none } := by
  rw [finished, me_modMe, (letGo_step _ _ _).me]

theorem hartOf_finished_other {h : Nat} {s : State} (hn : h ≠ s.cur) : hartOf (finished s) h = hartOf s h :=
  (hartOf_modMe_other _ (letGo s.cur (fun n => n == 1) s) hn).trans ((letGo_step _ _ s).hartOf h)

@[simp] theorem finished_cur (s : State) : (finished s).cur = s.cur := rfl
@[simp] theorem finished_cores (s : State) : (finished s).cores = s.cores := rfl
@[simp] theorem finished_mem (s : State) : (finished s).mem = s.mem := rfl
theorem memSame_finished (h : Nat) (y : Hart) (u : State) : MemSame u (finished (setHart h y u)) :=
  memSame_of_mem (by simp only [finished_mem, setHart_mem])

/-- The places of a memory instruction's accesses, in the order of R303. -/
def placesOf (o : VMemOp) (s : State) : List (Nat × Nat) := activeOf (memRow o.off.toNat o.row) o.mask s

theorem activeIn_sweepOf (o : VMemOp) (s : State) : activeIn s o.mask (sweepOf o s) = placesOf o s := rfl

section
variable {s u : State} {y : Hart} (d : During s u y)
include d

theorem During.me_finished : Machine.me (finished (setHart s.cur y u)) = { y with vq := [], stallV := none } := by
  rw [Machine.me_finished, d.me]

theorem During.finished_regFrame (q : Quiet s) {vs : List Nat}
    (hv : ∀ v k, k < 8 → v ∉ vs → vRow y v k = vRow (Machine.me s) v k) :
    RegFrame [] [] [] vs s (finished (setHart s.cur y u)) := by
  have cur : (setHart s.cur y u).cur = s.cur := d.mem.cur
  refine d.regFrame q hv ((finished_cur _).trans cur) (finished_cores _) (fun h hn => ?_) d.me_finished
  rw [hartOf_finished_other (cur ▸ hn), hartOf_setHart_other hn]

theorem During.finished_fflags : (Machine.me (finished (setHart s.cur y u))).fflags = (Machine.me s).fflags := by
  rw [d.me_finished, d.hart, me_retire]
end

/-! ### What VLD leaves -/

section
variable {s : State} {o : VMemOp} (r : MemReady (ewBits o.ew) (memRow o.off.toNat o.row) s) {at' : List (Nat × Nat)}
  (sub : at' ⊆ placesOf o s) (bs : List (List Byte))
include r sub

theorem activeOf_bounds (p : Nat × Nat) (h : p ∈ at') : p.1 < 8 ∧ (p.2 + 1) * ewBits o.ew ≤ 16384 := by
  obtain ⟨⟨-, -, lanes, fits⟩, -⟩ := r
  exact inSweep_bounds lanes fits (inSweep_of_mem_activeOf fits (sub h))

/-- The hart after the loads, as the statements say it. -/
theorem loaded_of_loadInto (nd : at'.Nodup) {t : State}
    (ht : ∀ k e, vElem (me t) o.v.toNat k e (ewBits o.ew) =
      vElem (loadInto o.v.toNat (ewBits o.ew) at' bs (me (retire 8 s))) o.v.toNat k e (ewBits o.ew)) :
    Loaded o.v (ewBits o.ew) (memRow o.off.toNat o.row) at' bs s t := by
  have bounds := activeOf_bounds r sub
  obtain ⟨⟨-, -, lanes, fits⟩, -⟩ := r
  refine ⟨fun n p b hp hb => ?_, fun k e hs hn => ?_⟩
  · rw [ht]
    exact vElem_loadInto_same bounds nd _ hp hb
  · rw [ht, vElem_loadInto_other bounds (inSweep_bounds lanes fits hs).1 hn, me_retire]
    rfl

theorem tailSame_of_loadInto {t : State}
    (ht : ∀ k e, vElem (me t) o.v.toNat k e (ewBits o.ew) =
      vElem (loadInto o.v.toNat (ewBits o.ew) at' bs (me (retire 8 s))) o.v.toNat k e (ewBits o.ew)) :
    TailSame o.v (ewBits o.ew) (memRow o.off.toNat o.row) s t := by
  have bounds := activeOf_bounds r sub
  obtain ⟨⟨-, -, -, fits⟩, -⟩ := r
  intro k e hk _ hs
  rw [ht, vElem_loadInto_other bounds hk (fun h => hs (inSweep_of_mem_activeOf fits (sub h))), me_retire]
  rfl
end

theorem afterV_vldRun_nil (s : State) (o : VMemOp) (ck : Check) (all : List (Nat × Nat)) (kept : List Nat) (t : State) :
    afterV (entered 1 (vldRun s o ck all (fun _ t => .done (consume [] t)) [] kept t)) [] = finished (consume [] t) := rfl

/-- A quiet hart performs a VLD at once. -/
theorem exec_vld {s : State} {o : VMemOp} (r : MemReady (ewBits o.ew) (memRow o.off.toNat o.row) s) :
    exec (.vld o) s = .next (afterV (entered 1 (vldRun s o (vmemCheck o [o.v]) (sweepOf o s) (fun _ t => .done (consume [] t))
      (sweepOf o s) [] (setHart s.cur (me (retire 8 s)) s))) []) := by
  obtain ⟨ready, -⟩ := r
  rw [← retire_eq_setHart]
  exact congrArg Host.Outcome.next (issueV_of_quiet ready.1 (vmemCheck_passes ready [o.v]) (.vld o) (perfVld o))

section
variable {s s1 : State} {o : VMemOp} {bs : List (List Byte)} (r : MemReady (ewBits o.ew) (memRow o.off.toNat o.row) s)
  (al : ∀ p ∈ placesOf o s, vmemAddr o (captureCtx s) p.1 p.2 % ewBytes o.ew = 0)
include r al

/-- A VLD whose reads succeed is complete, with its elements loaded one after another. -/
theorem exec_vld_of_reads
    (h : ReadsAre (elemWho s) (ewBytes o.ew)
      ((placesOf o s).map fun p => vmemAddr o (captureCtx s) p.1 p.2) bs s s1) :
    let y := loadInto o.v.toNat (ewBits o.ew) (placesOf o s) bs (me (retire 8 s))
    exec (.vld o) s = .next (finished (setHart s.cur y s1)) ∧ During s s1 y := by
  obtain ⟨ready, run⟩ := id r
  obtain ⟨q, ub, -, -⟩ := ready
  obtain ⟨e, d⟩ := vldRun_of_reads run (vmemCheck o [o.v]) (sweepOf o s) (fun _ t => .done (consume [] t)) [] (sweepOf o s) []
    (.start s) al h
  refine ⟨?_, d⟩
  rw [List.append_nil] at e
  rw [exec_vld r, e, afterV_vldRun_nil, d.consume ub, activeIn_sweepOf]

theorem vld_completes
    (h : ReadsAre (elemWho s) (ewBytes o.ew)
      ((placesOf o s).map fun p => vmemAddr o (captureCtx s) p.1 p.2) bs s s1) :
    ∃ t, exec (.vld o) s = .next t ∧
      Loaded o.v (ewBits o.ew) (memRow o.off.toNat o.row) (placesOf o s) bs s t ∧
      TailSame o.v (ewBits o.ew) (memRow o.off.toNat o.row) s t ∧ (me t).fflags = (me s).fflags ∧
      RegFrame [] [] [] [o.v.toNat] s t ∧ MemSame s1 t := by
  obtain ⟨e, d⟩ := exec_vld_of_reads r al h
  have sub := List.Subset.refl (placesOf o s)
  have bounds := activeOf_bounds r sub
  have elems (k i : Nat) := congrArg (vElem · o.v.toNat k i (ewBits o.ew)) d.me_finished
  refine ⟨_, e, loaded_of_loadInto r sub bs (activeOf_nodup ..) elems, tailSame_of_loadInto r sub bs elems, d.finished_fflags,
    d.finished_regFrame r.1.1 fun v k hk hn => ?_, memSame_finished _ _ _⟩
  rw [vRow_loadInto_other _ _ _ _ (fun p hp => (bounds p hp).1) (List.ne_of_not_mem_cons hn) hk, me_retire]
  rfl
end

/-! ### A fault of VLD at an element -/

/-- A trap recorded while none is pending, of a hart that runs (R57). -/
theorem setPend_of_running {h : Nat} {s : State} (hp : (hartOf s h).pend = none) (hr : (hartOf s h).run = .running)
    (p : PendTrap) : setPend h p s = modHart h (fun x => { x with pend := some p, pendAge := 0 }) s := by
  unfold setPend
  rw [hp]
  exact if_neg (by rw [hartOf_modHart_same, hr]; exact nofun)

theorem modHart_setHart_same (h : Nat) (f : Hart → Hart) (x : Hart) (s : State) :
    modHart h f (setHart h x s) = setHart h (f x) s := by
  rw [modHart, hartOf_setHart_same, setHart_setHart]

/-- A long instruction that stops at an element stays in its queue, and its trap is pending. -/
theorem During.afterV_stopAt {s u : State} {y : Hart} (d : During s u y) (q : Quiet s) (run : (Machine.me s).run = .running)
    (e : QEntry) (ix : Nat) (f : Flt) (fs : FaultStream) :
    let p : PendTrap := { flt := f, lpc := e.ctx.pc, elem := ix, stream := fs.fstream, fs := streamFor f fs }
    afterV (entered 1 (stopAt e ix f fs (setHart s.cur y u))) [] =
      setHart s.cur { y with vq := [{ e with vstart := ix }], stallV := none, pend := some p, pendAge := 0 } u := by
  intro p
  have hy : y.pend = none ∧ y.run = .running := by
    rw [d.hart, me_retire]
    exact ⟨q.pend, run⟩
  have c : (setHart s.cur y u).cur = s.cur := d.mem.cur
  show setPend (setHart s.cur y u).cur p (Machine.modMe _ (setHart s.cur y u)) = _
  rw [c, d.modMe, setPend_of_running, modHart_setHart_same]
  · rw [hartOf_setHart_same]
    exact hy.1
  · rw [hartOf_setHart_same]
    exact hy.2

section
variable {s s1 s2 : State} {o : VMemOp} {bs : List (List Byte)} (r : MemReady (ewBits o.ew) (memRow o.off.toNat o.row) s)
  (al : ∀ p ∈ placesOf o s, vmemAddr o (captureCtx s) p.1 p.2 % ewBytes o.ew = 0)
include r al

/-- VLD stops at the element whose read faults. -/
theorem vld_faults {n : Nat} {p : Nat × Nat} {f : Flt} (hp : (placesOf o s)[n]? = some p)
    (h : ReadsAre (elemWho s) (ewBytes o.ew) (((placesOf o s).take n).map fun p => vmemAddr o (captureCtx s) p.1 p.2) bs s s1)
    (bad : vaRead (elemWho s) (vmemAddr o (captureCtx s) p.1 p.2) (ewBytes o.ew) s1 = .bad f s2) :
    ∃ t q, exec (.vld o) s = .next t ∧ Loaded o.v (ewBits o.ew) (memRow o.off.toNat o.row) ((placesOf o s).take n) bs s t ∧
      (me t).pend = some q ∧ q.flt = f ∧ q.lpc = (me s).pc ∧ q.elem = p.1 * (me s).vl + p.2 ∧ (me t).pc = (me s).pc + 8 ∧
      MemSame s2 t := by
  obtain ⟨ready, run⟩ := id r
  obtain ⟨l₁, l₂, hl, h₁, ac⟩ := activeIn_split (l := sweepOf o s) hp
  rw [activeIn_sweepOf] at h₁
  have sub := List.take_subset n (placesOf o s)
  obtain ⟨e, d⟩ := vldRun_of_reads run (vmemCheck o [o.v]) (sweepOf o s) (fun _ t => .done (consume [] t)) [] l₁ (p :: l₂)
    (.start s) (fun p hp => al p (sub (h₁ ▸ hp))) (h₁ ▸ h)
  rw [h₁] at e d
  have d2 : During s s2 (loadInto o.v.toNat (ewBits o.ew) ((placesOf o s).take n) bs (me (retire 8 s))) :=
    ⟨d.mem.trans (step_of_bad (vaRead_step ..) bad), d.hart⟩
  have stop := d.loadElem_of_active (vmemCheck o [o.v]) [] run ac (al p (List.mem_of_getElem? hp))
  rw [bad, MR.onState, mbind_bad] at stop
  rw [← hl] at e
  have done := exec_vld r
  rw [e, vldRun, memRun_cons_bad rfl rfl rfl stop, d2.afterV_stopAt ready.1 run] at done
  have hart (z : Hart) : me (setHart s.cur z s2) = z := me_setHart_of_cur d2.mem.cur z
  refine ⟨_, _, done, loaded_of_loadInto r sub bs ((activeOf_nodup ..).sublist (List.take_sublist ..)) (fun k e => ?_),
    congrArg Hart.pend (hart _), rfl, rfl, rfl, ?_, memSame_of_mem (setHart_mem ..)⟩
  · rw [hart]
    rfl
  · rw [hart, d2.hart, me_retire]
end

/-! ## VST -/

/-- What VST does at an element, `xs` the element read. -/
def storeElem (o : VMemOp) (c : LCtx) (k i : Nat) (xs : List (Nat × Fl)) (kept : List Nat) (s : State) :
    MR (List Nat) :=
  if active (me s) o.mask k i then
    mbind (aligned (vmemAddr o c k i) o.ew.toNat true false s) fun _ s =>
      mbind (vaWrite { vWho c s with hold := 1 } (vmemAddr o c k i) (toBytes (ewBytes o.ew) (xs.getD 0 (0, 0)).1) s) fun _ s =>
        .ok kept s
  else .ok kept s

/-- The sweep of a VST that was pushed in `s`. -/
def vstRun (s : State) (o : VMemOp) (ck : Check) (all : List (Nat × Nat)) (fin : List Nat → State → LRes) :
    List (Nat × Nat) → List Nat → State → LRes :=
  memRun (issued ck (.vst o) s) [o.v] all
    (fun k i t => readSrcs (issued ck (.vst o) s).ctx k i [(o.v, .raw (ewBits o.ew))] t)
    (storeElem o (issued ck (.vst o) s).ctx) (vmemStream o (issued ck (.vst o) s).ctx) fin

theorem perfVst_eq (o : VMemOp) (e : QEntry) (s : State) :
    perfVst o e s = entered 1 (memLoop e [o.v] (fun k i s => readSrcs e.ctx k i [(o.v, .raw (ewBits o.ew))] s)
      (storeElem o e.ctx) (vmemStream o e.ctx) (tileOf e.ctx (rowsOf e.ctx (memRow o.off.toNat o.row))) [] s) := rfl

/-- An element of a register that is not bound is read from the register. -/
theorem readSrcs_of_unbound {s : State} (ub : Unbound s) (c : LCtx) (k i : Nat) (v : Reg) (x : Opd) :
    readSrcs c k i [(v, x)] s = .ok [(vElem (me s) v.toNat k i x.bits, 0)] s := by
  have ub : (me s).r.binds = [] := ub
  simp only [readSrcs, srcElem, bindingOf, ub, List.find?_nil, mbind]

section
variable {s u : State} (m : MemStep s u) {o : VMemOp} {k i : Nat} (ck : Check) (kept : List Nat)
include m

theorem storeElem_of_inactive (h : active (me s) o.mask k i = false) (xs : List (Nat × Fl)) :
    storeElem o (issued ck (.vst o) s).ctx k i xs kept (setHart s.cur (me (retire 8 s)) u) =
      .ok kept (setHart s.cur (me (retire 8 s)) u) := by
  have d : During s u (me (retire 8 s)) := ⟨m, rfl⟩
  rw [storeElem, d.active, h]
  rfl

theorem storeElem_of_active (run : (me s).run = .running) (h : active (me s) o.mask k i = true)
    (al : vmemAddr o (captureCtx s) k i % ewBytes o.ew = 0) {x : Nat} {fl : Fl} {t : State}
    (wr : vaWrite (elemWho s) (vmemAddr o (captureCtx s) k i) (toBytes (ewBytes o.ew) x) u = .ok () t) :
    storeElem o (issued ck (.vst o) s).ctx k i [(x, fl)] kept (setHart s.cur (me (retire 8 s)) u) =
      .ok kept (setHart s.cur (me (retire 8 s)) t) := by
  have d : During s u (me (retire 8 s)) := ⟨m, rfl⟩
  have addr : vmemAddr o (issued ck (.vst o) s).ctx k i = vmemAddr o (captureCtx s) k i := rfl
  rw [storeElem, d.active, h, addr, aligned_of_mod al, if_pos rfl, mbind, d.who, List.getD_cons_zero,
    vaWrite_setHart (d.looksLike run), wr]
  rfl
end

theorem perfVst_issued (s : State) (o : VMemOp) (ck : Check) (t : State) :
    perfVst o (issued ck (.vst o) s) t =
      entered 1 (vstRun s o ck (sweepOf o s) (fun _ t => .done (consume [o.v] t)) (sweepOf o s) [] t) := by
  rw [perfVst_eq, memLoop]
  simp only [due_issued]
  rfl

theorem vstRun_cons_ok {s : State} {o : VMemOp} {ck : Check} {all : List (Nat × Nat)} {fin : List Nat → State → LRes}
    {p : Nat × Nat} {rest : List (Nat × Nat)} {kept : List Nat} {t u : State} {xs : List (Nat × Fl)}
    (hr : readSrcs (issued ck (.vst o) s).ctx p.1 p.2 [(o.v, .raw (ewBits o.ew))] t = .ok xs t)
    (ha : storeElem o (issued ck (.vst o) s).ctx p.1 p.2 xs kept t = .ok kept u) :
    vstRun s o ck all fin (p :: rest) kept t = vstRun s o ck all fin rest kept u := by
  unfold vstRun
  exact memRun_cons_ok rfl rfl hr ha

/-- Elements whose writes succeed are stored one after another. -/
theorem vstRun_of_writes {s : State} {o : VMemOp} (run : (me s).run = .running) (ub : Unbound s) (ck : Check)
    (all : List (Nat × Nat)) (fin : List Nat → State → LRes) (kept : List Nat) (l : List (Nat × Nat)) {u u1 : State}
    (m : MemStep s u) (al : ∀ p ∈ activeIn s o.mask l, vmemAddr o (captureCtx s) p.1 p.2 % ewBytes o.ew = 0)
    (h : WritesAre (elemWho s) ((activeIn s o.mask l).map fun p =>
      (vmemAddr o (captureCtx s) p.1 p.2, toBytes (ewBytes o.ew) (vElem (me s) o.v.toNat p.1 p.2 (ewBits o.ew)))) u u1) :
    vstRun s o ck all fin l kept (setHart s.cur (me (retire 8 s)) u) = fin kept (setHart s.cur (me (retire 8 s)) u1) ∧
      MemStep s u1 := by
  induction l generalizing u with
  | nil =>
    cases h
    exact ⟨rfl, m⟩
  | cons p l ih =>
    have d : During s u (me (retire 8 s)) := ⟨m, rfl⟩
    have unbound : Unbound (setHart s.cur (me (retire 8 s)) u) := by
      unfold Unbound
      rw [d.me, d.binds ub]
    have read := readSrcs_of_unbound unbound (issued ck (.vst o) s).ctx p.1 p.2 o.v (.raw (ewBits o.ew))
    have held : vElem (me (retire 8 s)) o.v.toNat p.1 p.2 (ewBits o.ew) = vElem (me s) o.v.toNat p.1 p.2 (ewBits o.ew) := by
      rw [me_retire]
      rfl
    rw [d.me, Opd.bits, held] at read
    rw [activeIn_cons] at h al
    cases ac : active (me s) o.mask p.1 p.2 with
    | true =>
      rw [ac, if_pos rfl] at h al
      obtain ⟨u2, wr, h⟩ := h
      obtain ⟨al0, al⟩ := List.forall_mem_cons.mp al
      obtain ⟨e, done⟩ := ih (m.trans (step_of_ok (vaWrite_step ..) wr)) al h
      exact ⟨(vstRun_cons_ok read (storeElem_of_active m ck kept run ac al0 wr)).trans e, done⟩
    | false =>
      rw [ac, if_neg Bool.false_ne_true] at h al
      obtain ⟨e, done⟩ := ih m al h
      exact ⟨(vstRun_cons_ok read (storeElem_of_inactive m ck kept ac _)).trans e, done⟩

/-- A quiet hart performs a VST at once. -/
theorem exec_vst {s : State} {o : VMemOp} (r : MemReady (ewBits o.ew) (memRow o.off.toNat o.row) s) :
    exec (.vst o) s = .next (afterV (entered 1 (vstRun s o (vmemCheck o []) (sweepOf o s) (fun _ t => .done (consume [o.v] t))
      (sweepOf o s) [] (setHart s.cur (me (retire 8 s)) s))) []) := by
  obtain ⟨ready, -⟩ := r
  rw [← retire_eq_setHart, ← perfVst_issued]
  exact congrArg Host.Outcome.next (issueV_of_quiet ready.1 (vmemCheck_passes ready []) (.vst o) (perfVst o))

theorem vst_completes {s s1 : State} {o : VMemOp} (r : MemReady (ewBits o.ew) (memRow o.off.toNat o.row) s)
    (al : ∀ p ∈ placesOf o s, vmemAddr o (captureCtx s) p.1 p.2 % ewBytes o.ew = 0)
    (h : WritesAre (elemWho s) ((placesOf o s).map fun p =>
      (vmemAddr o (captureCtx s) p.1 p.2, toBytes (ewBytes o.ew) (vElem (me s) o.v.toNat p.1 p.2 (ewBits o.ew)))) s s1) :
    ∃ t, exec (.vst o) s = .next t ∧ (me t).fflags = (me s).fflags ∧ RegFrame [] [] [] [] s t ∧ MemSame s1 t := by
  obtain ⟨⟨q, ub, -, -⟩, run⟩ := id r
  obtain ⟨e, m⟩ := vstRun_of_writes run ub (vmemCheck o []) (sweepOf o s) (fun _ t => .done (consume [o.v] t)) [] (sweepOf o s)
    (.refl s) al h
  have d : During s s1 (me (retire 8 s)) := ⟨m, rfl⟩
  have done := exec_vst r
  rw [e, d.consume ub, afterV_entered_done] at done
  refine ⟨_, done, d.finished_fflags, d.finished_regFrame q fun v k _ _ => ?_, memSame_finished _ _ _⟩
  rw [me_retire]
  rfl

/-- Settles O36: an access sees nothing of the hart's vector registers, so the accesses that the statement makes from the state
before the instruction are those that the sweep makes, element by element, in between its loads. -/
theorem vectorLoadsAndStores : Obligations.VectorLoadsAndStores := by
  intro s s1 o bs w row at' addr who r al
  exact ⟨fun h => vld_completes r al h, fun h => vst_completes r al h, fun n p f s2 hp h bad => vld_faults r al hp h bad⟩

end Sys2Proof.Machine

/-! Family 02, translation: the delivery of imprecise traps (R57, R226 to R228). -/

namespace Sys2Proof.Machine

/-! ## Frames -/

theorem probeRun_step (w : Who) (fuel va n : Nat) (s : State) : MemStep s (probeRun w fuel va n s).st := by
  induction fuel generalizing va n s with
  | zero => exact .refl s
  | succ fuel ih =>
    unfold probeRun
    split
    · exact .refl s
    · refine mbind_step (translate_step ..) fun l t _ => ?_
      dsimp only
      split
      · exact logAt_step ..
      · split
        · exact .refl t
        · exact ih ..

/-- A frame that is written changes no register of a hart. -/
theorem writeFrame_hartOf {h : Nat} {a : Word} {r : FrameRec} {fs : FaultStream} {v : Nat} {s t : State}
    (e : writeFrame h a r fs v s = .ok () t) (j : Nat) : hartOf t j = hartOf s j := by
  obtain ⟨_, u, probed, e⟩ := mbind_eq_ok_iff.mp e
  obtain ⟨_, u', written, e⟩ := mbind_eq_ok_iff.mp e
  cases e
  have m := ((step_of_ok (probeRun_step ..) probed).trans (bump_step u)).trans (step_of_ok (vaWriteN_step ..) written)
  exact m.hartOf j

/-! ## The entry of a trap -/

/-- The unwinding of a convoy is about its queue, its registers and its accumulators only (R217). -/
theorem unwindConvoy_keeps (x : Hart) : (unwindConvoy x).t = x.t ∧ (unwindConvoy x).vl = x.vl ∧
    (unwindConvoy x).rc = x.rc ∧ (unwindConvoy x).fflags = x.fflags := by
  unfold unwindConvoy
  split <;> exact ⟨rfl, rfl, rfl, rfl⟩

section
variable {s : State} {h : Nat} {f : Flt} {imp : Bool} {pc lpc : Word} {elem vstart : Nat} {fs : FaultStream}
  (k : TakesTraps h f.cause s) (w : FrameWritable h pc fs vstart s)
include k w

/-- A hart that takes its traps itself and can write their frame is in its handler. -/
theorem hartOf_enterTrap_of_writable : hartOf (enterTrap h f imp pc lpc elem vstart fs s) h =
    toHandler f imp pc lpc elem vstart (takeCmds h s).1 (unwindConvoy (hartOf s h)) := by
  obtain ⟨user, nostop⟩ := k
  obtain ⟨empty, done, s2, e⟩ := w
  have kept : hartOf (endAccesses h s2) h = hartOf s h := writeFrame_hartOf e h
  unfold enterTrap
  simp only [drainStores_of_none empty, user, nostop, done, e, Bool.and_false, Bool.false_eq_true, if_false]
  rw [hartOf_modHart_same, kept]

theorem trapTaken_of_writable :
    TrapTaken h f.cause imp pc lpc f.addr f.stat elem s (enterTrap h f imp pc lpc elem vstart fs s) := by
  obtain ⟨ht, hvl, hrc, hfl⟩ := unwindConvoy_keeps (hartOf s h)
  have vec := congrArg TrapCsrs.vec ht
  have frame := congrArg TrapCsrs.frame ht
  unfold TrapTaken
  rw [hartOf_enterTrap_of_writable k w]
  exact ⟨rfl, rfl, rfl, rfl, rfl, rfl, rfl, vec, rfl, rfl, rfl, rfl, rfl, vec, frame, hvl, hrc, hfl⟩
end

/-! ## Imprecise traps -/

theorem deliver_of_pend {s : State} {h : Nat} {p : PendTrap} (e : (hartOf s h).pend = some p) (pc : Word) :
    deliver h pc s = enterTrap h p.flt true pc p.lpc p.elem (stoppedVstart (hartOf s h) p) p.fs s := by
  unfold deliver
  rw [e]

/-- A pending trap of a hart that takes its traps itself is taken with TRAPPC the hart's own PC. -/
theorem trapTaken_of_deliver {s : State} {h : Nat} {p : PendTrap} (e : (hartOf s h).pend = some p)
    (k : TakesTraps h p.flt.cause s) (w : FrameWritable h (hartOf s h).pc p.fs (stoppedVstart (hartOf s h) p) s) :
    TrapTaken h p.flt.cause true (hartOf s h).pc p.lpc p.flt.addr p.flt.stat p.elem s (deliver h (hartOf s h).pc s) := by
  rw [deliver_of_pend e]
  exact trapTaken_of_writable k w

/-- Settles O15: both ways to a pending trap are its delivery at the hart's PC. -/
theorem impreciseTraps : Obligations.ImpreciseTraps := by
  refine ⟨fun s h p e k w => ⟨_, rfl, trapTaken_of_deliver e k w⟩, fun s f p e k w => ?_⟩
  have first : preciseTrap f s = deliver s.cur (me s).pc s := preciseAt_of_pend e f (me s).pc 0
  rw [first]
  exact trapTaken_of_deliver e k w

end Sys2Proof.Machine

/-! Family 02, translation: the bytes that a fetch takes from its line (R49, R299; log 88). -/

namespace Sys2Proof.Machine

/-- The word 2, that of a long instruction, at 0x10000002000 and 7 behind it; an entry out of order stands between them, so a read
of the whole line ends before the second word, and a read of the second word alone finds it. -/
def disorderedMem : Cells Byte := [(0x10000002000, 2), (0, 1), (0x10000002004, 7)]

/-- Hart 0 at a page of tier 2 that its fetch pin names, in the state after reset but for that page's grant and memory. -/
def disordered : State :=
  { State.reset with
    mem := disorderedMem
    accE := [(0x1000000, BitVec.ofNat 64 (2 ^ 63 + 15 * 2 ^ 52 + 2 ^ 51 + 2 ^ 16))]
    accD := [(0x10000, BitVec.ofNat 128 (2 ^ 63 + 15 * 2 ^ 52 + 127 * 2 ^ 56 + (2 ^ 28 - 1) * 2 ^ 80))]
    harts := [(0, { Hart.reset with pin := some (0, 0x1000000, 97) })] }

/-- The place of a word of the page. -/
def disorderedLoc (pc : Nat) : Loc := ⟨0, 0x10000000000 + pc, 16, 4⟩

theorem disordered_place (pc : Nat) (h : pc = 0x2000 ∨ pc = 0x2004) :
    pinLoc disordered (0, 0x1000000, 97) pc = some (disorderedLoc pc) ∧
      PlainPlace disordered (myWho disordered) pc 4 .fetch (disorderedLoc pc) := by
  unfold PlainPlace
  rcases h with rfl | rfl <;> decide

/-- The second word of the line that the first fetch takes is 0, and so is the high half of the long instruction. -/
theorem fetchCode_disordered : (fetchCode 0x2000 disordered).onState (fun _ => disordered) = .ok (.long 2) disordered := rfl

/-- Refutes O56: its last clause speaks of every memory, also of one whose entries are not in order. There the line that the fetch
unit takes with the first word holds 0 behind it, while the second word, read for itself, is 7. -/
theorem not_stepRunsDecoded : ¬ Obligations.StepRunsDecoded := by
  rintro ⟨-, -, fetch⟩
  obtain ⟨first, plain⟩ := disordered_place 0x2000 (.inl rfl)
  obtain ⟨second, plain2⟩ := disordered_place 0x2004 (.inr rfl)
  obtain ⟨-, long⟩ := fetch disordered 0x2000 _ _ rfl first (.inr (by decide)) rfl plain
  obtain ⟨t, wrong, -⟩ := long (by decide) _ second (by decide) plain2
  have got := fetchCode_disordered
  rw [wrong] at got
  injection got with got
  revert got
  decide

end Sys2Proof.Machine

/-! Family 03, memory tiers: STEPB folds the shadows of the partition and drops its lines of the lee cache (R91, R153, R420). -/

namespace Sys2Proof.Machine

/-! ## What a check at a local target reads -/

section
variable {s t : State} (h : MemStep s t)
include h

theorem MemStep.accD : t.accD = s.accD := by rw [← h.1]

theorem MemStep.regionSearch (g : Nat × Nat) (rights part page : Nat) (kind : AccKind) (n k : Nat) :
    regionSearch t g rights part page kind n k = Machine.regionSearch s g rights part page kind n k := by
  induction n generalizing k with
  | zero => rfl
  | succ n ih =>
    simp only [Machine.regionSearch, accRegion, h.accD, ih]
    rfl

/-- Accesses change none of the tables that checks are made by. -/
theorem MemStep.checkLocal (master part a : Nat) (kind : AccKind) :
    checkLocal t master part a kind = Machine.checkLocal s master part a kind := by
  have target : targetOf t a = targetOf s a := by rw [← h.1]; rfl
  have check (g : Nat × Nat) (bar : Bool) :
      checkAt t g bar master part (a / 65536) kind = checkAt s g bar master part (a / 65536) kind := by
    have entry : accEntry t g master = accEntry s g master := by rw [← h.1]; rfl
    have cached : t.rootCached = s.rootCached := by rw [← h.1]
    simp only [checkAt, h.regionSearch, entry, cached]
  simp only [Machine.checkLocal, target, check]
end

/-! ## Writes of records -/

/-- From `s` to `t` statistics records may have been written: memory and the log of denials, but no place of a record, no shadow
and no line of a lee cache. -/
structure RecordsWritten (s t : State) : Prop where
  mem : MemStep s t
  recbase : ∀ p, (partOf t p).recbase = (partOf s p).recbase
  shadows : t.shadows = s.shadows
  lee : t.lee = s.lee

theorem RecordsWritten.refl (s : State) : RecordsWritten s s := ⟨.refl s, fun _ => rfl, rfl, rfl⟩

theorem RecordsWritten.trans {s t u : State} (h : RecordsWritten s t) (k : RecordsWritten t u) : RecordsWritten s u :=
  ⟨h.mem.trans k.mem, fun p => (k.recbase p).trans (h.recbase p), k.shadows.trans h.shadows, k.lee.trans h.lee⟩

/-- The anemometer's checks of a record answer as before. -/
theorem RecordsWritten.recCode {s t : State} (h : RecordsWritten s t) (die part i : Nat) (kind : AccKind) :
    recCode t die part i kind = Machine.recCode s die part i kind := by
  simp only [Machine.recCode, recAddr, recBase, h.recbase, h.mem.checkLocal]

theorem recordsWritten_logDenial (s : State) (m p a : Nat) (k : AccKind) (r : Nat) :
    RecordsWritten s (logDenial s m p a k r) := by
  refine ⟨logDenial_step .., fun q => ?_, rfl, rfl⟩
  show (cget Part.reset q (cset Part.reset p _ s.parts)).recbase = _
  rw [cget_cset]
  split
  · subst_vars; rfl
  · rfl

theorem recordsWritten_settleZero (s : State) (a : Nat) : RecordsWritten s (settleZero s a) := by
  have step := settleZero_step s a
  unfold settleZero at step ⊢
  split
  next pending =>
    rw [if_pos pending] at step
    exact ⟨step, fun _ => rfl, rfl, rfl⟩
  next => exact .refl s

theorem recordsWritten_recWrite (die a n x : Nat) (s : State) : RecordsWritten s (recWrite die a n x s) := by
  unfold recWrite
  dsimp only
  split
  · exact (recordsWritten_settleZero s a).trans ⟨rawWrite_step .., fun _ => rfl, rfl, rfl⟩
  · exact recordsWritten_logDenial ..

theorem recordsWritten_mergeShadow (s : State) (die part i : Nat) (sh : Shadow) :
    RecordsWritten s (mergeShadow s die part i sh) := by
  have bins (a : Nat) (l : Cells Nat) (u : State) :
      RecordsWritten u (l.foldl (fun s p => recUpdate die (a + 0x20 + 3 * p.1) 3 (fun v => min (v + p.2) (2 ^ 24 - 1)) s) u) := by
    induction l generalizing u with
    | nil => exact .refl u
    | cons p l ih => exact (recordsWritten_recWrite ..).trans (ih _)
  rw [mergeShadow_eq]
  refine .trans ?_ (bins ..)
  iterate 4 refine .trans ?_ (recordsWritten_recWrite ..)
  exact recordsWritten_recWrite ..

/-! ## Folds -/

/-- A die's anemometer may fold every shadow that the die holds of a partition (R30, R34). -/
def MayFold (die part : Nat) (s : State) : Prop :=
  ∀ r, r < 65536 → cget Shadow.empty (shadowKey die part r) s.shadows ≠ Shadow.empty →
    recCode s die part r .read = 0 ∧ recCode s die part r .write = 0

theorem recCode_keepShadow (k : Nat) (sh : Shadow) (s : State) (die part i : Nat) (kind : AccKind) :
    recCode (keepShadow k sh s) die part i kind = recCode s die part i kind :=
  (setShadow_step k sh s).checkLocal ..

/-- A shadow that may be folded is merged into its record; the others may be folded as before. -/
theorem MayFold.foldShadow {die part i : Nat} {s : State} (h : MayFold die part s) (hi : i < 65536) (va : Nat) :
    ∃ t, foldShadow va s die part i = .ok () t ∧ MayFold die part t ∧ MemStep s t ∧ t.lee = s.lee := by
  by_cases none : cget Shadow.empty (shadowKey die part i) s.shadows = Shadow.empty
  · exact ⟨s, if_pos none, h, .refl s, rfl⟩
  · obtain ⟨read, write⟩ := h i hi none
    have w := recordsWritten_mergeShadow (keepShadow (shadowKey die part i) Shadow.empty s) die part i
      (cget Shadow.empty (shadowKey die part i) s.shadows)
    refine ⟨_, ?_, fun r hr held => ?_, (setShadow_step ..).trans w.mem, w.lee⟩
    · have allowed : recAllowed die part i true va s = .ok () s := by simp [recAllowed, read, write]
      unfold Machine.foldShadow
      dsimp only
      rw [if_neg none, allowed]
      rfl
    · rw [w.recCode, w.recCode, recCode_keepShadow, recCode_keepShadow]
      rw [w.shadows, keepShadow, cget_cset] at held
      split at held
      · exact absurd rfl held
      · exact h r hr held

theorem MayFold.foldEach {die part : Nat} (l : List Nat) {s : State} (h : MayFold die part s) (hl : ∀ i ∈ l, i < 65536) :
    ∃ t, foldEach die part l s = .ok () t ∧ MemStep s t ∧ t.lee = s.lee := by
  induction l generalizing s with
  | nil => exact ⟨s, rfl, .refl s, rfl⟩
  | cons i l ih =>
    obtain ⟨hi, hl⟩ := List.forall_mem_cons.mp hl
    obtain ⟨u, fold, hu, m, lee⟩ := h.foldShadow hi i
    obtain ⟨t, rest, m', lee'⟩ := ih hu hl
    refine ⟨t, ?_, m.trans m', lee'.trans lee⟩
    rw [Machine.foldEach, fold]
    exact rest

theorem MayFold.foldShadows {die part : Nat} {s : State} (h : MayFold die part s) :
    ∃ t, foldShadows die part s = .ok () t ∧ MemStep s t ∧ t.lee = s.lee := by
  refine h.foldEach _ fun i hi => ?_
  obtain ⟨p, -, rfl⟩ := List.mem_map.mp hi
  exact Nat.mod_lt _ (by decide)

/-! ## Lines of the lee cache -/

theorem cget_ckeep {β : Type} (d : β) (p : Nat → Bool) (k : Nat) (m : Cells β) :
    cget d k (ckeep p m) = if p k then cget d k m else d := by
  induction m with
  | nil => simp [ckeep]
  | cons q m ih =>
    obtain ⟨i, x⟩ := q
    unfold ckeep at ih ⊢
    by_cases hi : i = k
    · subst hi
      cases hp : p i <;> simp [cget, hp, ih]
    · cases hp : p i <;> simp [cget, hp, hi, ih]

/-- The key of a line names its die and its partition. -/
theorem leeKey_div {g : Nat} (die part : Nat) (hg : g < 2 ^ 64) : leeKey die part g / 2 ^ 56 = die * 256 + part := by
  unfold leeKey
  omega

theorem cget_dropLee {d p g : Nat} (die part : Nat) (s : State) (hg : g < 2 ^ 64) :
    cget [] (leeKey d p g) (dropLee die part s).lee =
      if d * 256 + p = die * 256 + part then [] else cget [] (leeKey d p g) s.lee := by
  unfold dropLee
  dsimp only
  rw [cget_ckeep, leeKey_div d p hg]
  by_cases e : d * 256 + p = die * 256 + part <;> simp [e]

/-! ## STEPB -/

theorem exec_stepb {s t : State} (q : Quiet s) (h : foldShadows (dieNo s.cur) (me s).part.toNat s = .ok () t) :
    exec .stepb s = .next (retire 8 (dropLee (dieNo s.cur) (me s).part.toNat t)) := by
  show execStepb s = _
  rw [execStepb, scalarLong_of_quiet q, sync_of_quiet q]
  dsimp only
  rw [h, scalarDo_ok]

/-- Settles O50: the folds are allowed one after another and touch no line of a lee cache; what is dropped afterwards are the
lines whose keys name the die and the partition. -/
theorem stepbInvalidatesLeeLines : Obligations.StepbInvalidatesLeeLines := by
  intro s q allowed die part
  have may : MayFold die part s := allowed
  obtain ⟨u, fold, m, lee⟩ := may.foldShadows
  have moved : me (dropLee die part u) = me s := m.me
  refine ⟨_, exec_stepb q fold, ?_, fun g hg => ?_, fun d p g hp hg other => ?_⟩
  · rw [me_retire, moved]
  · exact (cget_dropLee die part u hg).trans (if_pos rfl)
  · have hpart : part < 128 := (me s).part.isLt
    have apart : ¬ d * 256 + p = die * 256 + part := by omega
    rw [← lee]
    exact (cget_dropLee die part u hg).trans (if_neg apart)

end Sys2Proof.Machine

/-! Family 03, memory tiers: long instructions that a quiet hart performs at once: the decoder's checks, and what is left at
their end (R203, R211). -/

namespace Sys2Proof.Machine

/-! ## Checks of the decoder -/

/-- A register is not bound where the decoder stands when nothing is queued and nothing is bound. -/
theorem boundAhead_of_unbound {s : State} (q : Quiet s) (ub : Unbound s) (v : Nat) : boundAhead (me s) v = false := by
  unfold boundAhead
  rw [q.vq, ub]
  rfl

/-- A check of widths and destinations alone passes where the elements fit the grant and no destination is bound. -/
theorem passes_of_fits {s : State} {w : Nat} {dst : List Reg} (fit : (me s).vl * w ≤ (me s).vgrant * 2048)
    (free : ∀ d ∈ dst, boundAhead (me s) d.toNat = false) : Passes { Check.none with width := w, dst := dst } s := by
  have clear : (dst.any fun d => [].contains d || boundAhead (me s) d.toNat) = false := by simpa using free
  have room : ¬ (me s).vgrant * 256 * 8 < (me s).vl * w := by omega
  unfold Passes Check.reason
  simp only [Check.none, clear, room, Bool.or_self, Bool.false_eq_true, if_false]

theorem passes_none (s : State) : Passes Check.none s := passes_of_fits (by omega) (by simp)

/-- g(n) as the issue captures it. -/
theorem cg_issued (k : Check) (i : Instr) (r : Reg) (s : State) : cg (issued k i s).ctx r = (gGet r s).toNat := by
  unfold cg gGet
  split <;> rfl

/-! ## The end of a long instruction -/

section
variable {s u : State} {y : Hart} (d : During s u y)
include d

theorem During.afterV_done :
    afterV (.done (setHart s.cur y u)) [] = setHart s.cur { y with vq := [], stallV := none } u := by
  rw [Machine.afterV_done, d.modMe]

theorem During.done_regFrame (q : Quiet s) {vs : List Nat}
    (hv : ∀ v k, k < 8 → v ∉ vs → vRow y v k = vRow (Machine.me s) v k) :
    RegFrame [] [] [] vs s (setHart s.cur { y with vq := [], stallV := none } u) :=
  d.regFrame q hv d.mem.cur rfl (fun _ hn => hartOf_setHart_other hn ..) (me_setHart_of_cur d.mem.cur _)
end

/-- A trap recorded while none is pending is pending. -/
theorem pend_setPend {h : Nat} {s : State} (hp : (hartOf s h).pend = none) (p : PendTrap) :
    (hartOf (setPend h p s) h).pend = some p := by
  unfold setPend
  rw [hp]
  unfold wake
  dsimp only
  split <;> simp only [hartOf_modHart_same]

@[simp] theorem setPend_mem (h : Nat) (p : PendTrap) (s : State) : (setPend h p s).mem = s.mem := by
  unfold setPend wake
  dsimp only
  cases (hartOf s h).pend with
  | none => dsimp only; split <;> rfl
  | some q => dsimp only; split <;> split <;> rfl

@[simp] theorem setPend_cur (h : Nat) (p : PendTrap) (s : State) : (setPend h p s).cur = s.cur := by
  unfold setPend wake
  dsimp only
  cases (hartOf s h).pend with
  | none => dsimp only; split <;> rfl
  | some q => dsimp only; split <;> split <;> rfl

/-- A quiet hart's long instruction that stops has its trap pending. -/
theorem pend_afterV_stopAt {s : State} (q : Quiet s) (e : QEntry) (ix : Nat) (f : Flt) (fs : FaultStream) :
    ∃ p, (me (afterV (stopAt e ix f fs (retire 8 s)) [])).pend = some p ∧ p.flt = f := by
  refine ⟨{ flt := f, lpc := e.ctx.pc, elem := ix, stream := fs.fstream, fs := streamFor f fs }, ?_, rfl⟩
  unfold me stopAt afterV
  dsimp only
  rw [setPend_cur]
  refine pend_setPend ?_ _
  show (me (modMe _ (retire 8 s))).pend = none
  rw [me_modMe, me_retire]
  exact q.pend

/-- The state in which a long instruction with a result for a g register ends. -/
def withResult (d : Reg) (v : Word) (s : State) : State :=
  modMe (fun x => { x with vq := [], stallV := none }) (setG d v (retire 8 s))

/-- The hart in that state. -/
def resultHart (d : Reg) (v : Word) (x : Hart) : Hart :=
  { x with pc := x.pc + 8, stalled := 0, stallS := none, invWait := none, vq := [], stallV := none,
           r := { x.r with g := if d = 0 then x.r.g else cset 0 d.toNat v x.r.g } }

theorem withResult_eq (d : Reg) (v : Word) (s : State) : withResult d v s = modMe (resultHart d v) s := by
  unfold withResult setG retire goto
  split
  next h =>
    rw [modMe_modMe]
    exact modMe_congr _ _ _ (by simp only [resultHart, if_pos h])
  next h =>
    rw [modMe_modMe, modMe_modMe]
    exact modMe_congr _ _ _ (by simp only [resultHart, if_neg h])

theorem gGet_withResult (r d : Reg) (v : Word) (s : State) :
    gGet r (withResult d v s) = if r = d ∧ r ≠ 0 then v else gGet r s := by
  have same (t : State) : gGet r (modMe (fun x => { x with vq := [], stallV := none }) t) = gGet r t := by
    unfold gGet
    rw [me_modMe]
  rw [withResult, same, gGet_setG, gGet_retire]

theorem vecFrame_withResult {s : State} (q : Quiet s) (d : Reg) (v : Word) : VecFrame [d] [] [] [] s (withResult d v s) := by
  have regs : RegsSameBut [d] s (withResult d v s) := fun r hr => by
    rw [gGet_withResult, if_neg fun h => hr (List.mem_singleton.mpr h.1)]
  have hart : me (withResult d v s) = resultHart d v (me s) := by rw [withResult_eq, me_modMe]
  have others : OtherHarts s (withResult d v s) := fun h hn => by rw [withResult_eq, hartOf_modMe_other _ _ hn]
  have rest : (withResult d v s).cur = s.cur ∧ (withResult d v s).cores = s.cores ∧ (withResult d v s).mem = s.mem := by
    rw [withResult_eq]
    exact ⟨rfl, rfl, rfl⟩
  obtain ⟨cur, cores, mem⟩ := rest
  refine ⟨⟨regs, fun n _ _ => ?_, fun m k _ _ => ?_, fun v k _ _ => ?_, ?_, ?_, ?_, ?_, ?_, ?_, ?_, ?_, ?_, others⟩,
    memSame_of_mem mem⟩
  · simp only [queueOfHart, coreOf, cur, cores, hart, resultHart]
  · simp only [mRow, hart, resultHart]
  · simp only [vRow, hart, resultHart]
  all_goals rw [hart, resultHart]
  · exact q.mq
  · exact q.pend

/-! ## Rows of a register -/

/-- All eight rows of a register take new values. -/
def putRows (v : Nat) (f : Nat → BitVec 16384) (x : Hart) : Hart :=
  (List.range 8).foldl (fun x k => putRow v k (f k) x) x

theorem vRow_foldl_putRow (v : Nat) (f : Nat → BitVec 16384) (l : List Nat) (v' k' : Nat) (x : Hart) :
    vRow (l.foldl (fun x k => putRow v k (f k) x) x) v' k' =
      if ∃ k ∈ l, 8 * v' + k' = 8 * v + k then f (8 * v' + k' - 8 * v) else vRow x v' k' := by
  induction l generalizing x with
  | nil => simp
  | cons k l ih =>
    rw [List.foldl_cons, ih, vRow_putRow]
    by_cases tail : ∃ j ∈ l, 8 * v' + k' = 8 * v + j
    · obtain ⟨j, hj, e⟩ := tail
      rw [if_pos ⟨j, hj, e⟩, if_pos ⟨j, List.mem_cons_of_mem _ hj, e⟩]
    · rw [if_neg tail]
      by_cases head : 8 * v' + k' = 8 * v + k
      · rw [if_pos head, if_pos ⟨k, List.mem_cons_self, head⟩, head, Nat.add_sub_cancel_left]
      · have none : ¬ ∃ j ∈ k :: l, 8 * v' + k' = 8 * v + j := by
          rintro ⟨j, hj, e⟩
          rcases List.mem_cons.mp hj with rfl | hj
          · exact head e
          · exact tail ⟨j, hj, e⟩
        rw [if_neg head, if_neg none]

theorem vRow_putRows_same {k : Nat} (v : Nat) (f : Nat → BitVec 16384) (x : Hart) (hk : k < 8) :
    vRow (putRows v f x) v k = f k := by
  rw [putRows, vRow_foldl_putRow, if_pos ⟨k, List.mem_range.mpr hk, rfl⟩, Nat.add_sub_cancel_left]

theorem vRow_putRows_other {v v' k : Nat} (f : Nat → BitVec 16384) (x : Hart) (hv : v' ≠ v) (hk : k < 8) :
    vRow (putRows v f x) v' k = vRow x v' k := by
  rw [putRows, vRow_foldl_putRow, if_neg]
  rintro ⟨j, hj, e⟩
  have := List.mem_range.mp hj
  omega

/-- Of the hart, only what its vector registers hold changes. -/
theorem VecOnly.putRows {x y : Hart} (h : VecOnly x y) (v : Nat) (f : Nat → BitVec 16384) : VecOnly x (putRows v f y) := by
  have run (l : List Nat) : VecOnly x (l.foldl (fun x k => putRow v k (f k) x) y) := by
    induction l generalizing y with
    | nil => exact h
    | cons k l ih =>
      refine ih ?_
      unfold VecOnly at h ⊢
      rw [h]
      rfl
  exact run _

end Sys2Proof.Machine

/-! Family 03, memory tiers: the stream register file and the headers of its rings (R84, R109 to R111, R408, R410). -/

namespace Sys2Proof.Machine

/-! ## Numbers of the stream register file -/

theorem ofBytes_append (a b : List Byte) : ofBytes (a ++ b) = ofBytes a + 2 ^ (8 * a.length) * ofBytes b := by
  induction a with
  | nil => simp [ofBytes]
  | cons x a ih =>
    have h : 2 ^ (8 * (x :: a).length) = 256 * 2 ^ (8 * a.length) := by
      rw [List.length_cons, Nat.mul_add, Nat.pow_add, Nat.mul_comm]
    rw [List.cons_append, ofBytes, ofBytes, ih, h, Nat.mul_add, Nat.mul_assoc, Nat.add_assoc]

/-- The number of `n` bytes at an offset of a core's stream register file. -/
def srfNum (s : State) (core off n : Nat) : Nat := ofBytes (srfRead s core off n)

theorem glob_srfAddr_add (s : State) (core off m : Nat) : glob s (srfAddr core (off + m)) = glob s (srfAddr core off) + m := by
  unfold glob srfAddr
  omega

section
variable {s : State} (w : MemInv s) (core : Nat)
include w

theorem memInv_srfWrite (off : Nat) (bs : List Byte) : MemInv (srfWrite core off bs s) := setMem_wf _ _ w

theorem srfRead_eq (off n : Nat) :
    srfRead s core off n = (List.range n).map fun i => memByte s (glob s (srfAddr core off) + i) := memBytes_eq _ _ w

theorem srfRead_length (off n : Nat) : (srfRead s core off n).length = n := by simp [srfRead_eq w]

theorem srfRead_add (off m n : Nat) : srfRead s core off (m + n) = srfRead s core off m ++ srfRead s core (off + m) n := by
  simp only [srfRead_eq w, List.range_add, List.map_append, List.map_map, glob_srfAddr_add, Nat.add_assoc]
  rfl

theorem srfNum_add (off m n : Nat) : srfNum s core off (m + n) = srfNum s core off m + 2 ^ (8 * m) * srfNum s core (off + m) n := by
  rw [srfNum, srfRead_add w, ofBytes_append, srfRead_length w]
  rfl

theorem srfNum_lt (off n : Nat) : srfNum s core off n < 2 ^ (8 * n) := by
  have h := ofBytes_lt (srfRead s core off n)
  rwa [srfRead_length w] at h

/-- Bytes written read back. -/
theorem srfRead_srfWrite_same (off : Nat) (bs : List Byte) : srfRead (srfWrite core off bs s) core off bs.length = bs := by
  rw [srfRead_eq (memInv_srfWrite w core off bs)]
  refine List.ext_getElem (by simp) fun i hi hb => ?_
  have inside : glob s (srfAddr core off) ≤ glob s (srfAddr core off) + i ∧
      glob s (srfAddr core off) + i < glob s (srfAddr core off) + bs.length := by omega
  rw [List.getElem_map, List.getElem_range]
  refine (memByte_setMem _ _ bs w).trans ((if_pos inside).trans ?_)
  rw [show glob (srfWrite core off bs s) (srfAddr core off) = glob s (srfAddr core off) from rfl, Nat.add_sub_cancel_left,
    List.getD_eq_getElem _ _ hb]

/-- Bytes apart from those written read as before. -/
theorem srfRead_srfWrite_other {a off n : Nat} {bs : List Byte} (apart : a + bs.length ≤ off ∨ off + n ≤ a) :
    srfRead (srfWrite core a bs s) core off n = srfRead s core off n := by
  rw [srfRead_eq (memInv_srfWrite w core a bs), srfRead_eq w]
  refine List.map_congr_left fun i hi => ?_
  have hi := List.mem_range.mp hi
  refine (memByte_setMem _ _ bs w).trans (if_neg ?_)
  show ¬ (glob s (srfAddr core a) ≤ glob s (srfAddr core off) + i ∧
    glob s (srfAddr core off) + i < glob s (srfAddr core a) + bs.length)
  unfold glob srfAddr
  omega

theorem srfNum_srfWrite_other {a off n : Nat} {bs : List Byte} (apart : a + bs.length ≤ off ∨ off + n ≤ a) :
    srfNum (srfWrite core a bs s) core off n = srfNum s core off n := by
  rw [srfNum, srfRead_srfWrite_other w core apart]
  rfl

theorem srfNum_srfWrite_same (off n x : Nat) : srfNum (srfWrite core off (toBytes n x) s) core off n = x % 2 ^ (8 * n) := by
  have h := srfRead_srfWrite_same w core off (toBytes n x)
  rw [toBytes_length] at h
  rw [srfNum, h, ofBytes_toBytes]
end

/-! ## The fields of a header -/

/-- A header's fields are numbers of the stream register file of their own; the word of EOS and what is reserved behind it come
last (R109). -/
theorem ringHdr_eq {s : State} (w : MemInv s) (core off : Nat) :
    ringHdr s core off =
      { base := srfNum s core off 4, slots := srfNum s core (off + 4) 2, slotb := srfNum s core (off + 6) 2,
        head := srfNum s core (off + 8) 4, tail := srfNum s core (off + 12) 4,
        eos := (srfNum s core (off + 16) 4).testBit 0,
        reserved := decide (srfNum s core (off + 16) 4 / 2 ≠ 0 ∨ srfNum s core (off + 20) 44 ≠ 0) } := by
  have split : ofBytes (srfRead s core off 64) = srfNum s core off 4 + 2 ^ 32 * (srfNum s core (off + 4) 2 +
      2 ^ 16 * (srfNum s core (off + 6) 2 + 2 ^ 16 * (srfNum s core (off + 8) 4 + 2 ^ 32 * (srfNum s core (off + 12) 4 +
      2 ^ 32 * (srfNum s core (off + 16) 4 + 2 ^ 32 * srfNum s core (off + 20) 44))))) := by
    show srfNum s core off (4 + (2 + (2 + (4 + (4 + (4 + 44)))))) = _
    simp only [srfNum_add w]
  have base := srfNum_lt w core off 4
  have slots := srfNum_lt w core (off + 4) 2
  have slotb := srfNum_lt w core (off + 6) 2
  have head := srfNum_lt w core (off + 8) 4
  have tail := srfNum_lt w core (off + 12) 4
  have eos := srfNum_lt w core (off + 16) 4
  unfold ringHdr
  dsimp only
  rw [split]
  generalize srfNum s core off 4 = a at *
  generalize srfNum s core (off + 4) 2 = b at *
  generalize srfNum s core (off + 6) 2 = c at *
  generalize srfNum s core (off + 8) 4 = d at *
  generalize srfNum s core (off + 12) 4 = e at *
  generalize srfNum s core (off + 16) 4 = f at *
  generalize srfNum s core (off + 20) 44 = g at *
  simp only [bitsOf, Nat.testBit_eq_decide_div_mod_eq, RingHdr.mk.injEq, decide_eq_decide]
  refine ⟨?_, ?_, ?_, ?_, ?_, ?_, ?_⟩ <;> omega

/-! ## Checks of a ring access -/

/-- A header that names a ring (R109). -/
structure RingHdr.Valid (r : RingHdr) : Prop where
  base : r.base % 64 = 0
  slotb : 1 ≤ r.slotb ∧ r.slotb ≤ 1024
  slots : r.slots ∈ powersOfTwo
  reserved : r.reserved = false
  fill : r.fill ≤ r.slots

theorem RingHdr.Valid.slots_pos {r : RingHdr} (h : r.Valid) : 1 ≤ r.slots := by
  have all : ∀ n ∈ powersOfTwo, 1 ≤ n := by decide
  exact all _ h.slots

theorem ringCheck_eq_zero_iff {s : State} {core off : Nat} :
    ringCheck s core off = 0 ↔
      off < srfLimit s core ∧ off % 64 = 0 ∧ srfPoison s core off 64 = false ∧ (ringHdr s core off).Valid := by
  have valid (r : RingHdr) : ¬ (r.base % 64 ≠ 0 ∨ r.slotb = 0 ∨ 1024 < r.slotb ∨ (!powersOfTwo.contains r.slots) = true ∨
      r.reserved = true ∨ r.slots < r.fill) ↔ r.Valid := by
    constructor
    · intro h
      simp only [not_or, not_not, Bool.not_eq_true, Bool.not_eq_false', List.contains_iff_mem] at h
      obtain ⟨base, slotb, most, slots, reserved, fill⟩ := h
      exact ⟨base, ⟨by omega, by omega⟩, slots, reserved, by omega⟩
    · rintro ⟨base, ⟨least, most⟩, slots, reserved, fill⟩
      simp only [not_or, not_not, Bool.not_eq_true, Bool.not_eq_false', List.contains_iff_mem]
      exact ⟨base, by omega, by omega, slots, reserved, by omega⟩
  rw [← valid]
  unfold ringCheck
  by_cases limit : srfLimit s core ≤ off
  · simp [limit]
  by_cases align : off % 64 = 0
  · by_cases bad : srfPoison s core off 64 = true
    · simp [limit, align, bad, ringPoison]
    · simp only [Bool.not_eq_true] at bad
      simp [limit, align, bad, Nat.lt_of_not_le limit]
  · simp [limit, align]

/-- The state after a push (R410). -/
def ringPushed (core off : Nat) (bs : List Byte) (s : State) : State :=
  let r := ringHdr s core off
  srfWrite core (off + 12) (toBytes 4 ((r.tail + 1) % 2 ^ 32)) (srfWrite core (slotOff r r.tail) bs s)

theorem ringPush_eq_ok_iff {s t : State} {core off : Nat} {bs x : List Byte} :
    ringPush core off bs s = .ok x t ↔ let r := ringHdr s core off
      ringCheck s core off = 0 ∧ slotOff r r.tail + r.size ≤ srfLimit s core ∧ r.eos = false ∧ r.fill ≠ r.slots ∧ x = [] ∧
        t = ringPushed core off bs s := by
  unfold ringPush
  dsimp only
  constructor
  · intro h
    split_ifs at h with check limit eos full
    cases h
    exact ⟨not_not.mp check, Nat.le_of_not_lt limit, Bool.eq_false_of_not_eq_true eos, full, rfl, rfl⟩
  · rintro ⟨check, limit, eos, room, rfl, rfl⟩
    rw [if_neg (not_not.mpr check), if_neg (Nat.not_lt.mpr limit), eos, if_neg Bool.false_ne_true, if_neg room]
    rfl

/-- The state after a pull (R410). -/
def ringPulled (core off : Nat) (s : State) : State :=
  srfWrite core (off + 8) (toBytes 4 (((ringHdr s core off).head + 1) % 2 ^ 32)) s

theorem ringPull_eq_ok_iff {s t : State} {core off : Nat} {bs : List Byte} :
    ringPull core off s = .ok bs t ↔ let r := ringHdr s core off
      ringCheck s core off = 0 ∧ slotOff r r.head + r.size ≤ srfLimit s core ∧ r.fill ≠ 0 ∧
        srfPoison s core (slotOff r r.head) r.size = false ∧ bs = srfRead s core (slotOff r r.head) r.size ∧
        t = ringPulled core off s := by
  unfold ringPull
  dsimp only
  constructor
  · intro h
    split_ifs at h with check limit empty eos poison
    cases h
    exact ⟨not_not.mp check, Nat.le_of_not_lt limit, empty, Bool.eq_false_of_not_eq_true poison, rfl, rfl⟩
  · rintro ⟨check, limit, some, clean, rfl, rfl⟩
    rw [if_neg (not_not.mpr check), if_neg (Nat.not_lt.mpr limit), if_neg some, clean, if_neg Bool.false_ne_true]
    rfl

end Sys2Proof.Machine

/-! Family 03, memory tiers: a register's storage as one number, and bytes put into it (R59, R409). -/

namespace Sys2Proof.Machine

/-- Bytes of a number depend only on what they hold of it. -/
theorem toBytes_mod (n x : Nat) : toBytes n (x % 2 ^ (8 * n)) = toBytes n x := by
  have h := toBytes_ofBytes (toBytes n x)
  rwa [toBytes_length, ofBytes_toBytes] at h

/-- The digits of a number put together again. -/
theorem foldl_digits (b x n : Nat) : (List.range n).foldl (fun a k => a + x / b ^ k % b * b ^ k) 0 = x % b ^ n := by
  induction n with
  | zero => simp [Nat.mod_one]
  | succ n ih => rw [List.range_succ, List.foldl_append, ih, List.foldl_cons, List.foldl_nil, Nat.mod_pow_succ, Nat.mul_comm]

/-- A number with `w` bits from bit `a` replaced, up to the last of them. -/
theorem replace_bits_mod (x a w y : Nat) (hy : y < 2 ^ w) :
    (x - bitsOf x a w * 2 ^ a + y * 2 ^ a) % 2 ^ (a + w) = x % 2 ^ a + 2 ^ a * y := by
  have split := split_at_bits x a w
  have low : x % 2 ^ a < 2 ^ a := Nat.mod_lt _ (Nat.two_pow_pos a)
  have bound : 2 ^ a * y + x % 2 ^ a < 2 ^ (a + w) := by
    calc 2 ^ a * y + x % 2 ^ a < 2 ^ a * (y + 1) := by rw [Nat.mul_succ]; omega
      _ ≤ 2 ^ a * 2 ^ w := Nat.mul_le_mul_left _ hy
      _ = 2 ^ (a + w) := (Nat.pow_add ..).symm
  have replaced : x - bitsOf x a w * 2 ^ a + y * 2 ^ a = 2 ^ (a + w) * (x / 2 ^ (a + w)) + (2 ^ a * y + x % 2 ^ a) := by
    rw [bitsOf, Nat.mul_comm (x / 2 ^ a % 2 ^ w), Nat.mul_comm y]
    generalize 2 ^ a * (x / 2 ^ a % 2 ^ w) = f at *
    omega
  rw [replaced, Nat.mul_add_mod, Nat.mod_eq_of_lt bound, Nat.add_comm]

/-! ## The storage of a register -/

/-- Rows that take the digits of a number hold the number, as far as they go. -/
theorem regNum_putRows (v n : Nat) (x : Hart) :
    regNum (putRows v (fun k => BitVec.ofNat 16384 (n / 2 ^ (16384 * k))) x) v = n % 2 ^ (16384 * 8) := by
  have digit (a k : Nat) (hk : k ∈ List.range 8) :
      a + (vRow (putRows v (fun k => BitVec.ofNat 16384 (n / 2 ^ (16384 * k))) x) v k).toNat * 2 ^ (16384 * k) =
        a + n / (2 ^ 16384) ^ k % 2 ^ 16384 * (2 ^ 16384) ^ k := by
    rw [vRow_putRows_same v _ x (List.mem_range.mp hk), BitVec.toNat_ofNat, Nat.pow_mul]
  unfold regNum
  rw [List.foldl_ext _ _ 0 digit, foldl_digits, Nat.pow_mul]

theorem putRegBytes_eq (v off : Nat) (bs : List Byte) (x : Hart) :
    putRegBytes v off bs x = touchV v 0 (off + bs.length) (putRows v (fun k => BitVec.ofNat 16384
      ((regNum x v - bitsOf (regNum x v) (8 * off) (8 * bs.length) * 2 ^ (8 * off) + ofBytes bs * 2 ^ (8 * off)) /
        2 ^ (16384 * k))) x) := rfl

theorem regNum_touchV (v n v' : Nat) (x : Hart) : regNum (touchV v 0 n x) v' = regNum x v' := rfl

/-- Up to the last byte put in, the storage holds what it held before the first one, and then the bytes. -/
theorem regNum_putRegBytes_mod {off : Nat} {bs : List Byte} (room : off + bs.length ≤ 16384) (v : Nat) (x : Hart) :
    regNum (putRegBytes v off bs x) v % 2 ^ (8 * (off + bs.length)) = regNum x v % 2 ^ (8 * off) + 2 ^ (8 * off) * ofBytes bs := by
  have whole : 2 ^ (8 * (off + bs.length)) ∣ 2 ^ (16384 * 8) := Nat.pow_dvd_pow 2 (by omega)
  rw [putRegBytes_eq, regNum_touchV, regNum_putRows, Nat.mod_mod_of_dvd _ whole, Nat.mul_add]
  exact replace_bits_mod _ _ _ _ (ofBytes_lt bs)

theorem vRow_putRegBytes_other {v v' k : Nat} (off : Nat) (bs : List Byte) (x : Hart) (hv : v' ≠ v) (hk : k < 8) :
    vRow (putRegBytes v off bs x) v' k = vRow x v' k := by
  rw [putRegBytes_eq, vRow_touchV, vRow_putRows_other _ x hv hk]

theorem VecOnly.touchV {x y : Hart} (h : VecOnly x y) (v k n : Nat) : VecOnly x (touchV v k n y) := by
  unfold VecOnly at h
  rw [h]
  rfl

theorem VecOnly.putRegBytes {x y : Hart} (h : VecOnly x y) (v off : Nat) (bs : List Byte) :
    VecOnly x (putRegBytes v off bs y) := (h.putRows v _).touchV ..

/-! ## Slots put into a register one after another -/

/-- Slots of `size` bytes are put into a register, the first of them as slot `i`. -/
def landSlots (v size : Nat) (bs : List (List Byte)) (i : Nat) (x : Hart) : Hart :=
  (bs.zipIdx i).foldl (fun x p => putRegBytes v (p.2 * size) p.1 x) x

theorem landSlots_nil (v size i : Nat) (x : Hart) : landSlots v size [] i x = x := List.foldl_nil

theorem landSlots_cons (v size : Nat) (b : List Byte) (bs : List (List Byte)) (i : Nat) (x : Hart) :
    landSlots v size (b :: bs) i x = landSlots v size bs (i + 1) (putRegBytes v (i * size) b x) := by
  rw [landSlots, List.zipIdx_cons, List.foldl_cons, landSlots]

theorem VecOnly.landSlots {x y : Hart} (v size : Nat) (bs : List (List Byte)) (i : Nat) (h : VecOnly x y) :
    VecOnly x (landSlots v size bs i y) := by
  induction bs generalizing i y with
  | nil => rwa [landSlots_nil]
  | cons b bs ih =>
    rw [landSlots_cons]
    exact ih _ (h.putRegBytes ..)

theorem vRow_landSlots_other {v v' k : Nat} (size : Nat) (bs : List (List Byte)) (i : Nat) (x : Hart) (hv : v' ≠ v) (hk : k < 8) :
    vRow (landSlots v size bs i x) v' k = vRow x v' k := by
  induction bs generalizing i x with
  | nil => rw [landSlots_nil]
  | cons b bs ih => rw [landSlots_cons, ih, vRow_putRegBytes_other _ _ _ hv hk]

theorem regNum_landSlots_mod (v : Nat) {size : Nat} {bs : List (List Byte)} (len : ∀ b ∈ bs, b.length = size) {i : Nat}
    (room : (i + bs.length) * size ≤ 16384) (x : Hart) :
    regNum (landSlots v size bs i x) v % 2 ^ (8 * ((i + bs.length) * size)) =
      regNum x v % 2 ^ (8 * (i * size)) + 2 ^ (8 * (i * size)) * ofBytes bs.flatten := by
  induction bs generalizing i x with
  | nil => rw [landSlots_nil, List.length_nil, Nat.add_zero, List.flatten_nil, ofBytes, Nat.mul_zero, Nat.add_zero]
  | cons b bs ih =>
    obtain ⟨hb, len⟩ := List.forall_mem_cons.mp len
    have next : i + (b :: bs).length = i + 1 + bs.length := by rw [List.length_cons]; omega
    have slot : (i + 1) * size = i * size + b.length := by rw [hb, Nat.succ_mul]
    have inside : i * size + b.length ≤ 16384 := by
      rw [← slot]
      refine Nat.le_trans (Nat.mul_le_mul_right _ ?_) room
      omega
    have first := regNum_putRegBytes_mod inside v x
    rw [next] at room ⊢
    rw [landSlots_cons, ih len room, slot, first, List.flatten_cons, ofBytes_append, Nat.mul_add 8, Nat.pow_add, Nat.mul_add,
      Nat.mul_assoc, Nat.add_assoc]

/-- The storage then begins with the bytes of the slots. -/
theorem regBytes_landSlots (v : Nat) {size : Nat} {bs : List (List Byte)} (len : ∀ b ∈ bs, b.length = size)
    (room : bs.length * size ≤ 16384) (x : Hart) :
    regBytes (landSlots v size bs 0 x) v 0 bs.flatten.length = bs.flatten := by
  have total : bs.flatten.length = bs.length * size := by
    rw [List.length_flatten, List.map_congr_left len, List.map_const', List.sum_replicate, smul_eq_mul]
  have held := regNum_landSlots_mod v len (i := 0) (by rwa [Nat.zero_add]) x
  rw [Nat.zero_add, ← total, Nat.zero_mul, Nat.mul_zero, Nat.pow_zero, Nat.mod_one, Nat.zero_add, Nat.one_mul] at held
  rw [regBytes, Nat.mul_zero, Nat.pow_zero, Nat.div_one, ← toBytes_mod, held, toBytes_ofBytes]

end Sys2Proof.Machine

/-! Family 03, memory tiers: pushes and pulls of rings, REOS and RSTAT (R109 to R111, R408 to R412). -/

namespace Sys2Proof.Machine

theorem ringPushed_step (core off : Nat) (bs : List Byte) (s : State) : MemStep s (ringPushed core off bs s) :=
  (setMem_step ..).trans (setMem_step ..)

theorem ringPulled_step (core off : Nat) (s : State) : MemStep s (ringPulled core off s) := setMem_step ..

/-! ## Headers after writes -/

section
variable {s : State} (w : MemInv s) (core off : Nat)
include w

theorem ringHdr_srfWrite_other {a : Nat} {bs : List Byte} (apart : a + bs.length ≤ off ∨ off + 64 ≤ a) :
    ringHdr (srfWrite core a bs s) core off = ringHdr s core off := by
  unfold ringHdr
  rw [srfRead_srfWrite_other w core apart]

theorem ringHdr_setTail {x : Nat} (hx : x < 2 ^ 32) :
    ringHdr (srfWrite core (off + 12) (toBytes 4 x) s) core off = { ringHdr s core off with tail := x } := by
  have other (a n : Nat) (h : off + 16 ≤ a ∨ a + n ≤ off + 12) :
      srfNum (srfWrite core (off + 12) (toBytes 4 x) s) core a n = srfNum s core a n :=
    srfNum_srfWrite_other w core (by rw [toBytes_length]; omega)
  rw [ringHdr_eq (memInv_srfWrite w ..), ringHdr_eq w]
  simp (disch := omega) only [other, srfNum_srfWrite_same w, Nat.mod_eq_of_lt hx]

theorem ringHdr_setHead {x : Nat} (hx : x < 2 ^ 32) :
    ringHdr (srfWrite core (off + 8) (toBytes 4 x) s) core off = { ringHdr s core off with head := x } := by
  have other (a n : Nat) (h : off + 12 ≤ a ∨ a + n ≤ off + 8) :
      srfNum (srfWrite core (off + 8) (toBytes 4 x) s) core a n = srfNum s core a n :=
    srfNum_srfWrite_other w core (by rw [toBytes_length]; omega)
  rw [ringHdr_eq (memInv_srfWrite w ..), ringHdr_eq w]
  simp (disch := omega) only [other, srfNum_srfWrite_same w, Nat.mod_eq_of_lt hx]

/-- What a header reserves is 0: its word of EOS holds EOS alone, and nothing stands behind it. -/
theorem reserved_eq_false (h : (ringHdr s core off).reserved = false) : srfNum s core (off + 20) 44 = 0 := by
  rw [ringHdr_eq w] at h
  simp only [decide_eq_false_iff_not, not_or, not_not] at h
  exact h.2

theorem ringHdr_setEos (h : (ringHdr s core off).reserved = false) :
    ringHdr (srfWrite core (off + 16) (toBytes 4 1) s) core off = { ringHdr s core off with eos := true } := by
  have behind := reserved_eq_false w core off h
  have other (a n : Nat) (h : off + 20 ≤ a ∨ a + n ≤ off + 16) :
      srfNum (srfWrite core (off + 16) (toBytes 4 1) s) core a n = srfNum s core a n :=
    srfNum_srfWrite_other w core (by rw [toBytes_length]; omega)
  rw [ringHdr_eq w] at h ⊢
  rw [ringHdr_eq (memInv_srfWrite w ..)]
  simp (disch := omega) only [other, srfNum_srfWrite_same w, behind] at h ⊢
  rw [h]
  rfl

theorem ringHdr_ringPulled :
    ringHdr (ringPulled core off s) core off =
      { ringHdr s core off with head := ((ringHdr s core off).head + 1) % 2 ^ 32 } :=
  ringHdr_setHead w core off (Nat.mod_lt _ (by decide))

theorem ringHdr_ringPushed {bs : List Byte}
    (apart : slotOff (ringHdr s core off) (ringHdr s core off).tail + bs.length ≤ off ∨
      off + 64 ≤ slotOff (ringHdr s core off) (ringHdr s core off).tail) :
    ringHdr (ringPushed core off bs s) core off =
      { ringHdr s core off with tail := ((ringHdr s core off).tail + 1) % 2 ^ 32 } := by
  rw [ringPushed, ringHdr_setTail (memInv_srfWrite w ..) _ _ (Nat.mod_lt _ (by decide)), ringHdr_srfWrite_other w _ _ apart]

theorem ringHdr_reset (h : (ringHdr s core off).reserved = false) :
    ringHdr (srfWrite core (off + 8) (toBytes 12 0) s) core off =
      { ringHdr s core off with head := 0, tail := 0, eos := false } := by
  have behind := reserved_eq_false w core off h
  have other (a n : Nat) (h : off + 20 ≤ a ∨ a + n ≤ off + 8) :
      srfNum (srfWrite core (off + 8) (toBytes 12 0) s) core a n = srfNum s core a n :=
    srfNum_srfWrite_other w core (by rw [toBytes_length]; omega)
  have w' := memInv_srfWrite w core (off + 8) (toBytes 12 0)
  have zero := srfNum_srfWrite_same w core (off + 8) 12 0
  rw [show (12 : Nat) = 4 + (4 + 4) from rfl, srfNum_add w', srfNum_add w'] at zero
  simp only [Nat.add_assoc, Nat.reduceAdd] at zero
  obtain ⟨head, tail, eos⟩ : srfNum (srfWrite core (off + 8) (toBytes 12 0) s) core (off + 8) 4 = 0 ∧
      srfNum (srfWrite core (off + 8) (toBytes 12 0) s) core (off + 12) 4 = 0 ∧
      srfNum (srfWrite core (off + 8) (toBytes 12 0) s) core (off + 16) 4 = 0 := by
    refine ⟨?_, ?_, ?_⟩ <;> omega
  rw [ringHdr_eq w] at h ⊢
  rw [ringHdr_eq w']
  simp (disch := omega) only [other, head, tail, eos, behind] at h ⊢
  rw [h]
  rfl
end

/-! ## A pull after a push -/

theorem ringHdr_head_lt (s : State) (core off : Nat) : (ringHdr s core off).head < 2 ^ 32 := Nat.mod_lt _ (by decide)
theorem ringHdr_tail_lt (s : State) (core off : Nat) : (ringHdr s core off).tail < 2 ^ 32 := Nat.mod_lt _ (by decide)

/-- Bytes that can be read stay so when others are written. -/
theorem srfPoison_srfWrite {s : State} {core off n : Nat} (h : srfPoison s core off n = false) (a : Nat) (bs : List Byte) :
    srfPoison (srfWrite core a bs s) core off n = false := by
  simp only [srfPoison, firstPoison, Option.isSome_eq_false_iff, Option.isNone_iff_eq_none, List.find?_eq_none] at h ⊢
  exact fun p hp => h p (List.mem_of_mem_filter hp)

/-- Bytes written can be read. -/
theorem srfPoison_srfWrite_same (s : State) (core a : Nat) (bs : List Byte) :
    srfPoison (srfWrite core a bs s) core a bs.length = false := by
  simp only [srfPoison, firstPoison, Option.isSome_eq_false_iff, Option.isNone_iff_eq_none, List.find?_eq_none]
  intro p hp
  have apart := (List.mem_filter.mp hp).2
  simp only [decide_eq_true_eq] at apart ⊢
  intro inside
  have same : glob (srfWrite core a bs s) (srfAddr core a) = glob s (srfAddr core a) := rfl
  omega

/-- A slot pushed to an empty ring, outside its header, is what the next pull gives; the ring is then empty again. -/
theorem ringPull_of_ringPush {s s1 : State} {core off : Nat} {bs x : List Byte} (w : MemInv s)
    (empty : (ringHdr s core off).fill = 0) (len : bs.length = (ringHdr s core off).size)
    (apart : slotOff (ringHdr s core off) (ringHdr s core off).tail + (ringHdr s core off).size ≤ off ∨
      off + 64 ≤ slotOff (ringHdr s core off) (ringHdr s core off).tail)
    (push : ringPush core off bs s = .ok x s1) :
    ∃ s2, ringPull core off s1 = .ok bs s2 ∧ (ringHdr s2 core off).fill = 0 := by
  obtain ⟨check, limit, -, -, -, rfl⟩ := ringPush_eq_ok_iff.mp push
  obtain ⟨inside, align, clean, valid⟩ := ringCheck_eq_zero_iff.mp check
  have slots := valid.slots_pos
  have head := ringHdr_head_lt s core off
  have tail := ringHdr_tail_lt s core off
  have hdr := ringHdr_ringPushed w core off (len ▸ apart)
  have w' : MemInv (ringPushed core off bs s) := (ringPushed_step ..).wf w
  have slot : srfRead (ringPushed core off bs s) core (slotOff (ringHdr s core off) (ringHdr s core off).tail)
      (ringHdr s core off).size = bs := by
    rw [ringPushed, srfRead_srfWrite_other (memInv_srfWrite w ..) core (by rw [toBytes_length]; omega), ← len,
      srfRead_srfWrite_same w]
  have readable : srfPoison (ringPushed core off bs s) core (slotOff (ringHdr s core off) (ringHdr s core off).tail)
      (ringHdr s core off).size = false := by
    rw [← len]
    exact srfPoison_srfWrite (srfPoison_srfWrite_same ..) ..
  generalize ringHdr s core off = r at hdr slot readable valid limit empty slots head tail
  have same : r.head = r.tail := by
    unfold RingHdr.fill at empty
    omega
  have one : ((r.tail + 1) % 2 ^ 32 + 2 ^ 32 - r.head) % 2 ^ 32 = 1 := by omega
  refine ⟨ringPulled core off (ringPushed core off bs s), ringPull_eq_ok_iff.mpr ?_, ?_⟩
  · rw [hdr]
    refine ⟨ringCheck_eq_zero_iff.mpr ⟨inside, align, srfPoison_srfWrite (srfPoison_srfWrite clean ..) .., ?_⟩, ?_, ?_, ?_, ?_, rfl⟩
    · rw [hdr]
      exact ⟨valid.base, valid.slotb, valid.slots, valid.reserved, one.trans_le slots⟩
    · exact same ▸ limit
    · exact one.trans_ne (by decide)
    · exact same ▸ readable
    · exact same ▸ slot.symm
  · rw [ringHdr_ringPulled w', hdr]
    unfold RingHdr.fill
    dsimp only
    omega

/-! ## Accesses of rings and the registers of harts -/

theorem ringHdr_setHart (h : Nat) (y : Hart) (s : State) (core off : Nat) :
    ringHdr (setHart h y s) core off = ringHdr s core off := rfl
theorem ringCheck_setHart (h : Nat) (y : Hart) (s : State) (core off : Nat) :
    ringCheck (setHart h y s) core off = ringCheck s core off := rfl
theorem srfRead_setHart (h : Nat) (y : Hart) (s : State) (core off n : Nat) :
    srfRead (setHart h y s) core off n = srfRead s core off n := rfl
theorem srfWrite_setHart (h : Nat) (y : Hart) (s : State) (core off : Nat) (bs : List Byte) :
    srfWrite core off bs (setHart h y s) = setHart h y (srfWrite core off bs s) := rfl

theorem ringPush_setHart {s t : State} {core off : Nat} {bs x : List Byte} (e : ringPush core off bs s = .ok x t) (h : Nat)
    (y : Hart) : ringPush core off bs (setHart h y s) = .ok x (setHart h y t) := by
  obtain ⟨check, limit, eos, room, rfl, rfl⟩ := ringPush_eq_ok_iff.mp e
  rw [ringPush_eq_ok_iff, ringHdr_setHart, ringCheck_setHart]
  exact ⟨check, limit, eos, room, rfl, by simp only [ringPushed, ringHdr_setHart, srfWrite_setHart]⟩

theorem ringPull_setHart {s t : State} {core off : Nat} {bs : List Byte} (e : ringPull core off s = .ok bs t) (h : Nat)
    (y : Hart) : ringPull core off (setHart h y s) = .ok bs (setHart h y t) := by
  obtain ⟨check, limit, some, clean, rfl, rfl⟩ := ringPull_eq_ok_iff.mp e
  rw [ringPull_eq_ok_iff, ringHdr_setHart, ringCheck_setHart]
  exact ⟨check, limit, some, clean, (srfRead_setHart ..).symm, by simp only [ringPulled, ringHdr_setHart, srfWrite_setHart]⟩

theorem slotLoop_succ_ok {e : QEntry} {off reason eosReason n i : Nat} {move : Nat → State → RingRes}
    {land : Nat → List Byte → State → State} {s t : State} {bs : List Byte} (h : move i s = .ok bs t) :
    slotLoop e off reason eosReason move land (n + 1) i s = slotLoop e off reason eosReason move land n (i + 1) (land i bs t) := by
  rw [slotLoop, h]

/-! ## RPUSH and RPULL -/

/-- The bytes of slot `i` of a register. -/
def slotBytesOf (v size : Nat) (x : Hart) (i : Nat) : List Byte := regBytes x v (i * size) size

section
variable {s u u1 : State} {y : Hart} (d : During s u y) (e : QEntry) {off reason eosReason : Nat} (size : Nat) (v : Nat)
include d

/-- Pushes that succeed are made one after another. -/
theorem During.slotLoop_push {data : Nat → List Byte} (hd : ∀ i, slotBytesOf v size y i = data i) {n i : Nat}
    (h : Pushed (coreNo s.cur) off data n i u u1) :
    slotLoop e off reason eosReason (fun i t => ringPush (coreNo t.cur) off (slotBytesOf v size (Machine.me t) i) t)
      (fun _ _ t => t) n i (setHart s.cur y u) = .done (setHart s.cur y u1) ∧ During s u1 y := by
  induction n generalizing i u with
  | zero =>
    cases h
    exact ⟨rfl, d⟩
  | succ n ih =>
    obtain ⟨x, u2, push, h⟩ := h
    have step : MemStep u u2 := by
      obtain ⟨-, -, -, -, -, rfl⟩ := ringPush_eq_ok_iff.mp push
      exact ringPushed_step ..
    have cur : (setHart s.cur y u).cur = s.cur := d.mem.cur
    obtain ⟨rest, done⟩ := ih ⟨d.mem.trans step, d.hart⟩ h
    refine ⟨(slotLoop_succ_ok (bs := x) ?_).trans rest, done⟩
    rw [cur, d.me, hd]
    exact ringPush_setHart push ..

/-- Pulls that succeed are made one after another, and their slots put into the register. -/
theorem During.slotLoop_pull {bs : List (List Byte)} {i : Nat} (h : Pulled (coreNo s.cur) off bs u u1) :
    slotLoop e off reason eosReason (fun _ t => ringPull (coreNo t.cur) off t)
      (fun i b t => Machine.modMe (putRegBytes v (i * size) b) t) bs.length i (setHart s.cur y u) =
        .done (setHart s.cur (landSlots v size bs i y) u1) ∧ During s u1 (landSlots v size bs i y) := by
  induction bs generalizing i u y with
  | nil =>
    cases h
    rw [landSlots_nil]
    exact ⟨rfl, d⟩
  | cons b bs ih =>
    obtain ⟨u2, pull, h⟩ := h
    have step : MemStep u u2 := by
      obtain ⟨-, -, -, -, -, rfl⟩ := ringPull_eq_ok_iff.mp pull
      exact ringPulled_step ..
    have cur : (setHart s.cur y u).cur = s.cur := d.mem.cur
    have d2 : During s u2 y := ⟨d.mem.trans step, d.hart⟩
    obtain ⟨rest, done⟩ := ih (i := i + 1) ⟨d2.mem, d2.hart.putRegBytes v (i * size) b⟩ h
    rw [landSlots_cons]
    refine ⟨(slotLoop_succ_ok (bs := b) (t := setHart s.cur y u2) ?_).trans ?_, done⟩
    · rw [cur]
      exact ringPull_setHart pull ..
    · rw [d2.modMe]
      exact rest
end

end Sys2Proof.Machine

/-! Family 03, memory tiers: the ring instructions at their push (R408 to R412). -/

namespace Sys2Proof.Machine

theorem me_retire_r (n : Word) (s : State) : (me (retire n s)).r = (me s).r := by rw [me_retire]

theorem slotBytesOf_congr {x y : Hart} (h : x.r = y.r) (v size i : Nat) : slotBytesOf v size x i = slotBytesOf v size y i := by
  unfold slotBytesOf regBytes regNum vRow
  rw [h]

theorem retire_cur (n : Word) (s : State) : (retire n s).cur = s.cur := rfl
theorem ringCheck_retire (n : Word) (s : State) (core off : Nat) : ringCheck (retire n s) core off = ringCheck s core off := rfl
theorem ringHdr_retire (n : Word) (s : State) (core off : Nat) : ringHdr (retire n s) core off = ringHdr s core off := rfl

/-- What a push or a pull checks first, at its push (R408, R409). -/
theorem ringStart_issued (k : Check) (i : Instr) (off n : Nat) (s : State) :
    ringStart (issued k i s) off n (retire 8 s) =
      if ringCheck s (coreNo s.cur) off ≠ 0 then some (ringCheck s (coreNo s.cur) off)
      else if 2048 * (me s).rc < n * (ringHdr s (coreNo s.cur) off).size then some 6 else none := rfl

theorem exec_rpush {s : State} (q : Quiet s) (ga v : Reg) (c : BitVec 4) :
    exec (.rpush ga v c) s = .next (afterV (perfRpush ga v c (issued Check.none (.rpush ga v c) s) (retire 8 s)) []) :=
  congrArg Host.Outcome.next (issueV_of_quiet q (passes_none s) _ _)

theorem exec_reos {s : State} (q : Quiet s) (ga : Reg) :
    exec (.reos ga) s = .next (afterV (perfReos ga (issued Check.none (.reos ga) s) (retire 8 s)) []) :=
  congrArg Host.Outcome.next (issueV_of_quiet q (passes_none s) _ _)

theorem exec_rstat {s : State} (q : Quiet s) (d ga : Reg) :
    exec (.rstat d ga) s = .next (afterV (perfRstat d ga (issued Check.none (.rstat d ga) s) (retire 8 s)) []) :=
  congrArg Host.Outcome.next (issueV_of_quiet q (passes_none s) _ _)

theorem exec_rstatReset {s : State} (q : Quiet s) (ga : Reg) :
    exec (.rstatReset ga) s = .next (afterV (perfRstatReset ga (issued Check.none (.rstatReset ga) s) (retire 8 s)) []) :=
  congrArg Host.Outcome.next (issueV_of_quiet q (passes_none s) _ _)

/-- The check of RPULL. -/
def rpullCheck (v : Reg) : Check := { Check.none with dst := [v] }

theorem exec_rpull {s : State} (r : VecReady 0 none s) (ga v : Reg) (c : BitVec 4) :
    exec (.rpull v ga c) s = .next (afterV (perfRpull v ga c (issued (rpullCheck v) (.rpull v ga c) s) (retire 8 s)) []) := by
  obtain ⟨q, ub, -, -⟩ := r
  have p : Passes (rpullCheck v) s := passes_of_fits (Nat.zero_le _) fun d _ => boundAhead_of_unbound q ub _
  exact congrArg Host.Outcome.next (issueV_of_quiet q p _ _)

section
variable {s s1 : State} (r : VecReady 0 none s) {ga v : Reg} {c : BitVec 4}
  (check : ringCheck s (coreNo s.cur) (gGet ga s).toNat = 0)
include r check

theorem rpush_completes
    (room : (c.toNat + 1) * (ringHdr s (coreNo s.cur) (gGet ga s).toNat).size ≤ 2048 * (me s).rc)
    (h : Pushed (coreNo s.cur) (gGet ga s).toNat (slotBytesOf v.toNat (ringHdr s (coreNo s.cur) (gGet ga s).toNat).size (me s))
      (c.toNat + 1) 0 s s1) :
    ∃ t, exec (.rpush ga v c) s = .next t ∧ RegFrame [] [] [] [] s t ∧ MemSame s1 t := by
  obtain ⟨q, -, -, -⟩ := r
  have start := During.start s
  have held (i : Nat) := slotBytesOf_congr (me_retire_r 8 s) v.toNat (ringHdr s (coreNo s.cur) (gGet ga s).toNat).size i
  obtain ⟨run, d⟩ := start.slotLoop_push (issued Check.none (.rpush ga v c) s) (reason := 4) (eosReason := 1) _ _ held h
  have perf : perfRpush ga v c (issued Check.none (.rpush ga v c) s) (retire 8 s) = .done (setHart s.cur (me (retire 8 s)) s1) := by
    rw [← run, ← retire_eq_setHart, perfRpush, cg_issued]
    dsimp only
    rw [ringStart_issued, if_neg (not_not.mpr check), if_neg (Nat.not_lt.mpr room)]
    rfl
  refine ⟨_, ?_, d.done_regFrame q fun w k _ _ => by unfold vRow; rw [me_retire_r], memSame_of_mem (setHart_mem ..)⟩
  rw [exec_rpush q, perf, d.afterV_done]

theorem rpush_too_long
    (long : 2048 * (me s).rc < (c.toNat + 1) * (ringHdr s (coreNo s.cur) (gGet ga s).toNat).size) :
    ∃ t p, exec (.rpush ga v c) s = .next t ∧ (me t).pend = some p ∧ p.flt = mkFlt 0x10 0 6 ∧ MemSame s t := by
  obtain ⟨q, -, -, -⟩ := r
  have perf : perfRpush ga v c (issued Check.none (.rpush ga v c) s) (retire 8 s) =
      stopAt (issued Check.none (.rpush ga v c) s) 0 (streamFlt 6) gNoStream (retire 8 s) := by
    rw [perfRpush, cg_issued]
    dsimp only
    rw [ringStart_issued, if_neg (not_not.mpr check), if_pos long]
    rfl
  obtain ⟨p, pend, flt⟩ := pend_afterV_stopAt q (issued Check.none (.rpush ga v c) s) 0 (streamFlt 6) gNoStream
  refine ⟨_, p, ?_, pend, flt, memSame_of_mem (setPend_mem ..)⟩
  rw [exec_rpush q, perf]

theorem rpull_completes {bs : List (List Byte)}
    (room : (c.toNat + 1) * (ringHdr s (coreNo s.cur) (gGet ga s).toNat).size ≤ 2048 * (me s).rc)
    (count : bs.length = c.toNat + 1) (len : ∀ b ∈ bs, b.length = (ringHdr s (coreNo s.cur) (gGet ga s).toNat).size)
    (h : Pulled (coreNo s.cur) (gGet ga s).toNat bs s s1) :
    ∃ t, exec (.rpull v ga c) s = .next t ∧ regBytes (me t) v.toNat 0 bs.flatten.length = bs.flatten ∧
      RegFrame [] [] [] [v.toNat] s t ∧ MemSame s1 t := by
  obtain ⟨q, -, ⟨-, -, rows⟩, -⟩ := id r
  have start := During.start s
  obtain ⟨run, d⟩ := start.slotLoop_pull (issued (rpullCheck v) (.rpull v ga c) s) (reason := 3) (eosReason := 2)
    (ringHdr s (coreNo s.cur) (gGet ga s).toNat).size v.toNat (i := 0) h
  have perf : perfRpull v ga c (issued (rpullCheck v) (.rpull v ga c) s) (retire 8 s) = .done (setHart s.cur
      (landSlots v.toNat (ringHdr s (coreNo s.cur) (gGet ga s).toNat).size bs 0 (me (retire 8 s))) s1) := by
    rw [← run, ← retire_eq_setHart, perfRpull, cg_issued]
    dsimp only
    rw [ringStart_issued, if_neg (not_not.mpr check), if_neg (Nat.not_lt.mpr room), count]
    rfl
  refine ⟨_, ?_, ?_, d.done_regFrame q fun w k hk hw => ?_, memSame_of_mem (setHart_mem ..)⟩
  · rw [exec_rpull r, perf, d.afterV_done]
  · rw [me_setHart_of_cur d.mem.cur]
    rw [← count] at room
    exact regBytes_landSlots v.toNat len (by omega) _
  · rw [vRow_landSlots_other _ _ _ _ (List.ne_of_not_mem_cons hw) hk]
    unfold vRow
    rw [me_retire_r]

theorem rstat_completes (d : Reg) :
    ∃ t, exec (.rstat d ga) s = .next t ∧
      gGet d t = (if d = 0 then 0 else BitVec.ofNat 64 (ringStatus (ringHdr s (coreNo s.cur) (gGet ga s).toNat))) ∧
      VecFrame [d] [] [] [] s t := by
  obtain ⟨q, -, -, -⟩ := r
  refine ⟨withResult d (BitVec.ofNat 64 (ringStatus (ringHdr s (coreNo s.cur) (gGet ga s).toNat))) s, ?_, ?_,
    vecFrame_withResult q d _⟩
  · rw [exec_rstat q, perfRstat, cg_issued, retire_cur, ringCheck_retire, ringHdr_retire, if_neg (not_not.mpr check)]
    rfl
  · rw [gGet_withResult]
    by_cases h : d = 0
    · rw [if_pos h, if_neg fun c => c.2 h, h, gGet_zero]
    · rw [if_neg h, if_pos ⟨rfl, h⟩]

end

/-- The state in which an instruction ends that writes bytes of its core's stream register file. -/
def srfWritten (a : Nat) (bs : List Byte) (s : State) : State :=
  setHart s.cur { me (retire 8 s) with vq := [], stallV := none } (srfWrite (coreNo s.cur) a bs s)

theorem afterV_srfWrite (a : Nat) (bs : List Byte) (s : State) :
    afterV (.done (srfWrite (coreNo s.cur) a bs (retire 8 s))) [] = srfWritten a bs s := by
  have d : During s (srfWrite (coreNo s.cur) a bs s) (me (retire 8 s)) := ⟨setMem_step .., rfl⟩
  have moved : srfWrite (coreNo s.cur) a bs (retire 8 s) =
      setHart s.cur (me (retire 8 s)) (srfWrite (coreNo s.cur) a bs s) := by
    conv_lhs => rw [retire_eq_setHart]
    exact srfWrite_setHart ..
  rw [moved, d.afterV_done, srfWritten]

theorem ringHdr_srfWritten (a : Nat) (bs : List Byte) (s : State) (core off : Nat) :
    ringHdr (srfWritten a bs s) core off = ringHdr (srfWrite (coreNo s.cur) a bs s) core off := rfl

theorem regFrame_srfWritten {s : State} (q : Quiet s) (a : Nat) (bs : List Byte) : RegFrame [] [] [] [] s (srfWritten a bs s) := by
  have d : During s (srfWrite (coreNo s.cur) a bs s) (me (retire 8 s)) := ⟨setMem_step .., rfl⟩
  exact d.done_regFrame q fun w k _ _ => by unfold vRow; rw [me_retire_r]

section
variable {s : State} (r : VecReady 0 none s) {ga : Reg} (check : ringCheck s (coreNo s.cur) (gGet ga s).toNat = 0) (w : MemInv s)
include r check w

theorem reos_completes :
    ∃ t, exec (.reos ga) s = .next t ∧
      ringHdr t (coreNo s.cur) (gGet ga s).toNat = { ringHdr s (coreNo s.cur) (gGet ga s).toNat with eos := true } ∧
      RegFrame [] [] [] [] s t := by
  obtain ⟨q, -, -, -⟩ := r
  obtain ⟨-, -, -, valid⟩ := ringCheck_eq_zero_iff.mp check
  refine ⟨srfWritten ((gGet ga s).toNat + 16) (toBytes 4 1) s, ?_, ?_, regFrame_srfWritten q ..⟩
  · rw [exec_reos q, perfReos, cg_issued, ← afterV_srfWrite, retire_cur, ringCheck_retire, if_neg (not_not.mpr check)]
  · rw [ringHdr_srfWritten, ringHdr_setEos w _ _ valid.reserved]

theorem rstatReset_completes :
    ∃ t, exec (.rstatReset ga) s = .next t ∧
      ringHdr t (coreNo s.cur) (gGet ga s).toNat =
        { ringHdr s (coreNo s.cur) (gGet ga s).toNat with head := 0, tail := 0, eos := false } ∧
      RegFrame [] [] [] [] s t := by
  obtain ⟨q, -, -, -⟩ := r
  obtain ⟨-, -, -, valid⟩ := ringCheck_eq_zero_iff.mp check
  refine ⟨srfWritten ((gGet ga s).toNat + 8) (toBytes 12 0) s, ?_, ?_, regFrame_srfWritten q ..⟩
  · rw [exec_rstatReset q, perfRstatReset, cg_issued, ← afterV_srfWrite, retire_cur, ringCheck_retire, if_neg (not_not.mpr check)]
  · rw [ringHdr_srfWritten, ringHdr_reset w _ _ valid.reserved]
end

/-- Settles O49: an access of a ring sees nothing of the hart's registers, so the pushes and pulls that the statement makes are
those of the instruction; a header's fields are separate numbers of the stream register file. -/
theorem rings : Obligations.Rings := by
  constructor
  · intro s d ga v c r core off check hdr
    exact ⟨fun room => ⟨fun s1 h => rpush_completes r check room h,
      fun bs s1 count len h => rpull_completes r check room count len h⟩, fun long => rpush_too_long r check long,
      rstat_completes r check d, fun w => ⟨reos_completes r check w, rstatReset_completes r check w⟩⟩
  · intro s s1 core off bs x w hdr empty len apart push
    exact ringPull_of_ringPush w empty len apart push

end Sys2Proof.Machine

/-! Family 03, memory tiers: VWAIT and its polls (R181, R373). -/

namespace Sys2Proof.Machine

/-! ## What a VWAIT reads -/

/-- The elements that a VWAIT reads depend on its masks, not on the rest of the hart. -/
theorem waitElems_congr {x y : Hart} (h : y.r.m = x.r.m) (ew : BitVec 2) (ga : Reg) (form : WaitForm) (mask : MaskSel) (c : LCtx)
    (idx : List (Nat × Fl)) : waitElems ew ga form mask c y idx = waitElems ew ga form mask c x idx := by
  simp only [waitElems, active_congr h]

/-- They are read in the order of the sweep, each once. -/
theorem waitElems_nodup (ew : BitVec 2) (ga : Reg) (form : WaitForm) (mask : MaskSel) (c : LCtx) (x : Hart)
    (idx : List (Nat × Fl)) : ((waitElems ew ga form mask c x idx).map Prod.fst).Nodup := by
  have sweep : (((tileOf c (List.range c.rc)).filter fun p => active x mask p.1 p.2).map
      fun p => sweepIx c p.1 p.2).Nodup := by
    refine ((tileOf_nodup c none).filter _).map_on fun p hp q hq e => ?_
    obtain ⟨-, hp⟩ := List.mem_product.mp (tileOf_eq_product c _ ▸ (List.mem_filter.mp hp).1)
    obtain ⟨-, hq⟩ := List.mem_product.mp (tileOf_eq_product c _ ▸ (List.mem_filter.mp hq).1)
    have hp := List.mem_range.mp hp
    have hq := List.mem_range.mp hq
    unfold sweepIx at e
    have col : p.2 = q.2 := by
      have := congrArg (· % c.vl) e
      simpa [Nat.mul_add_mod_of_lt, Nat.mod_eq_of_lt hp, Nat.mod_eq_of_lt hq] using this
    have row : p.1 = q.1 := by
      rw [col] at e
      exact Nat.eq_of_mul_eq_mul_right (by omega) (Nat.add_right_cancel e)
    exact Prod.ext row col
  cases form with
  | single => exact List.nodup_singleton _
  | seq => simpa only [waitElems, List.map_map, Function.comp_def] using sweep
  | idx vx => simpa only [waitElems, List.map_map, Function.comp_def] using sweep

/-! ## A pass over the elements -/

/-- What a pass remembers of the elements that do not meet the condition: the first of them. -/
def firstOf (first : Option (Nat × Nat)) (p : Nat × Nat) : Option (Nat × Nat) :=
  match first with
  | none => some p
  | some q => some q

section
variable {e : QEntry} {cond : Nat} {ew : BitVec 2} {want : Nat} {fs : Nat → FaultStream} {ix a x : Nat} {r : List (Nat × Nat)}
  {kept : List Nat} {first : Option (Nat × Nat)} {s t : State} (new : ix + 1 ∉ kept) (al : a % ewBytes ew = 0)
  (rd : vaReadNum (vWho e.ctx s) a (ewBytes ew) s = .ok x t)
include new al rd

/-- An element that is read: one that meets the condition is kept, and the first that does not is remembered. -/
theorem waitPass_cons_ok :
    waitPass e cond ew want fs ((ix, a) :: r) kept first s =
      if waitCond cond (ewBits ew) x want then waitPass e cond ew want fs r ((ix + 1) :: kept) first t
      else waitPass e cond ew want fs r kept (firstOf first (ix, a)) t := by
  have fresh : kept.contains (ix + 1) = false := by simpa using new
  have read : mbind (aligned a ew.toNat false false s) (fun _ s => vaReadNum (vWho e.ctx s) a (ewBytes ew) s) = .ok x t := by
    rw [aligned_of_mod al]
    exact rd
  rw [waitPass.eq_def]
  simp only [fresh, Bool.false_eq_true, if_false, read]
  rfl
end

section
variable {s u u1 : State} {y : Hart} (d : During s u y) (run : (Machine.me s).run = .running) (ck : Check) (i : Instr)
include d run

/-- A number read in the midst of a vector instruction. -/
theorem During.vaReadNum {a n : Nat} {b : List Byte} (h : vaRead (vWho (captureCtx s) s) a n u = .ok b u1) :
    vaReadNum (vWho (issued ck i s).ctx (setHart s.cur y u)) a n (setHart s.cur y u) = .ok (ofBytes b) (setHart s.cur y u1) := by
  have who : vWho (issued ck i s).ctx (setHart s.cur y u) = vWho (captureCtx s) s :=
    congrArg (fun w : Who => { w with hold := 0 }) (d.who ck i)
  rw [who, Machine.vaReadNum, vaRead_setHart (d.looksLike run), h]
  rfl

/-- A pass whose reads succeed: it remembers no element if and only if each meets the condition. -/
theorem During.waitPass_of_reads (cond : Nat) (ew : BitVec 2) (want : Nat) (fs : Nat → FaultStream) (l : List (Nat × Nat))
    {kept : List Nat} (first : Option (Nat × Nat)) {bs : List (List Byte)} (al : ∀ p ∈ l, p.2 % ewBytes ew = 0)
    (new : ∀ p ∈ l, p.1 + 1 ∉ kept) (nd : (l.map Prod.fst).Nodup)
    (h : ReadsAre (vWho (captureCtx s) s) (ewBytes ew) (l.map fun p => p.2) bs u u1) :
    ∃ kept' first', waitPass (issued ck i s) cond ew want fs l kept first (setHart s.cur y u) =
        waitPass (issued ck i s) cond ew want fs [] kept' first' (setHart s.cur y u1) ∧
      (first' = none ↔ first = none ∧ ∀ b ∈ bs, waitCond cond (ewBits ew) (ofBytes b) want = true) ∧ During s u1 y := by
  induction l generalizing kept first bs u with
  | nil =>
    obtain ⟨rfl, rfl⟩ := readsAre_nil h
    exact ⟨kept, first, rfl, by simp, d⟩
  | cons p l ih =>
    obtain ⟨b, bs, u2, rfl, hb, h⟩ := readsAre_cons h
    obtain ⟨al0, al⟩ := List.forall_mem_cons.mp al
    obtain ⟨new0, new⟩ := List.forall_mem_cons.mp new
    obtain ⟨only, nd⟩ := List.nodup_cons.mp nd
    have d2 : During s u2 y := ⟨d.mem.trans (step_of_ok (vaRead_step ..) hb), d.hart⟩
    have pass := waitPass_cons_ok (cond := cond) (want := want) (fs := fs) (r := l) (first := first) new0 al0
      (d.vaReadNum run ck i hb)
    cases met : waitCond cond (ewBits ew) (ofBytes b) want with
    | true =>
      have new' : ∀ q ∈ l, q.1 + 1 ∉ (p.1 + 1) :: kept := fun q hq hk => by
        rcases List.mem_cons.mp hk with e | hk
        · exact only (Nat.add_right_cancel e ▸ List.mem_map_of_mem hq)
        · exact new q hq hk
      obtain ⟨kept', first', rest, iff, done⟩ := ih d2 first al new' nd h
      refine ⟨kept', first', ?_, ?_, done⟩
      · rw [← rest, pass, met, if_pos rfl]
      · rw [iff, List.forall_mem_cons]
        simp only [met, true_and]
    | false =>
      obtain ⟨kept', first', rest, iff, done⟩ := ih d2 (firstOf first p) al new nd h
      have some : firstOf first p ≠ none := by cases first <;> simp [firstOf]
      refine ⟨kept', first', ?_, ?_, done⟩
      · rw [← rest, pass, met, if_neg Bool.false_ne_true]
      · rw [iff, List.forall_mem_cons]
        simp only [met, some, false_and, Bool.false_eq_true, and_false]
end

end Sys2Proof.Machine

/-! Family 03, memory tiers: VWAIT at its push, and a poll of one that waits for a single value (R181, R373). -/

namespace Sys2Proof.Machine

/-! ## The indices of a VWAIT -/

/-- Elements of a register that is not bound are read one after another from the register. -/
theorem gatherElems_of_unbound {s : State} (ub : Unbound s) (e : QEntry) (v : Reg) (o : Opd) (all : List (Nat × Nat))
    (fin : List (Nat × Fl) → State → LRes) (l : List (Nat × Nat)) (acc : List (Nat × Fl)) :
    gatherElems e v o all fin l acc s = fin (acc.reverse ++ l.map fun p => (vElem (me s) v.toNat p.1 p.2 o.bits, 0)) s := by
  have ub : (me s).r.binds = [] := ub
  induction l generalizing acc with
  | nil => rw [gatherElems, List.map_nil, List.append_nil]
  | cons p l ih =>
    have read : srcElem e.ctx v o p.1 p.2 s = .ok (vElem (me s) v.toNat p.1 p.2 o.bits, 0) s := by
      simp only [srcElem, bindingOf, ub, List.find?_nil]
    rw [gatherElems, read]
    dsimp only
    rw [ih, List.reverse_cons, List.append_assoc, List.map_cons]
    rfl

/-- The index reads of a VWAIT of the third form: the whole tile of its index register. -/
def waitIndices (form : WaitForm) (s : State) : List (Nat × Fl) :=
  match form with
  | .idx vx => (tileOf (captureCtx s) (List.range (me s).rc)).map fun p => (vElem (me s) vx.toNat p.1 p.2 32, 0)
  | _ => []

theorem consume_retire {s : State} (ub : Unbound s) (srcs : List Reg) : consume srcs (retire 8 s) = retire 8 s := by
  have h := (During.start s).consume ub srcs
  rwa [← retire_eq_setHart] at h

/-- A VWAIT at its push reads its indices and then makes its first pass over all its elements. -/
theorem perfVwait_issued {s : State} (ub : Unbound s) (cond : BitVec 3) (ew : BitVec 2) (ga gc : Reg) (form : WaitForm)
    (mask : MaskSel) (ck : Check) (i : Instr) :
    perfVwait cond ew ga gc form mask (issued ck i s) (retire 8 s) =
      waitRun (issued ck i s) cond ew ga gc form mask (waitIndices form s) [] (retire 8 s) := by
  cases form with
  | single => rfl
  | seq => rfl
  | idx vx =>
    have ub' : Unbound (retire 8 s) := by
      unfold Unbound
      rw [me_retire_r]
      exact ub
    have held (p : Nat × Nat) : vElem (me (retire 8 s)) vx.toNat p.1 p.2 32 = vElem (me s) vx.toNat p.1 p.2 32 := by
      unfold vElem vRow
      rw [me_retire_r]
    have tile : (tileOf (issued ck i s).ctx (List.range (issued ck i s).ctx.rc)) =
        tileOf (captureCtx s) (List.range (me s).rc) := rfl
    have kept : (issued ck i s).kept = [] := rfl
    have size : tileSize (issued ck i s).ctx = (tileOf (captureCtx s) (List.range (me s).rc)).length := by
      have count := List.length_product (List.range (me s).rc) (List.range (me s).vl)
      rw [List.length_range, List.length_range] at count
      exact count.symm
    unfold perfVwait
    dsimp only
    rw [gatherElems_of_unbound ub', consume_retire ub, tile, kept, size]
    simp only [unpackReads, List.reverse_nil, List.nil_append, List.length_nil, List.drop_zero, List.take_nil, List.drop_nil,
      Opd.bits, held, waitIndices]
    split
    · rfl
    · next none =>
      have empty : tileOf (captureCtx s) (List.range (me s).rc) = [] := List.length_eq_zero_iff.mp (by omega)
      rw [empty, List.map_nil]

/-! ## VWAIT at its push -/

theorem passes_waitCheck {s : State} {ew : BitVec 2} {form : WaitForm} (f : Fits (waitCheck ew form).width none s) :
    Passes (waitCheck ew form) s := by
  cases form <;> exact passes_of_fits (dst := []) f.1 nofun

theorem exec_vwait {s : State} {ew : BitVec 2} {form : WaitForm} (r : VecReady (waitCheck ew form).width none s) (cond : BitVec 3)
    (ga gc : Reg) (mask : MaskSel) :
    exec (.vwait cond ew ga gc form mask) s = .next (afterV (waitRun
      (issued (waitCheck ew form) (.vwait cond ew ga gc form mask) s) cond ew ga gc form mask (waitIndices form s) []
      (retire 8 s)) []) := by
  obtain ⟨q, ub, -, fits⟩ := r
  rw [← perfVwait_issued ub]
  exact congrArg Host.Outcome.next (issueV_of_quiet q (passes_waitCheck fits) _ _)

/-- The elements of a VWAIT that is pushed now. -/
def waitsFor (ew : BitVec 2) (ga : Reg) (form : WaitForm) (mask : MaskSel) (s : State) : List (Nat × Nat) :=
  waitElems ew ga form mask (captureCtx s) (me s) (waitIndices form s)

/-- What the pass of a VWAIT leaves: a hart that has moved on, with the VWAIT at the head of its queue unless every element
meets the condition. -/
theorem vwait_ends {s s1 : State} {cond : BitVec 3} {ew : BitVec 2} {ga gc : Reg} {form : WaitForm} {mask : MaskSel}
    {bs : List (List Byte)} (r : MemReady (waitCheck ew form).width none s)
    (al : ∀ p ∈ waitsFor ew ga form mask s, p.2 % ewBytes ew = 0)
    (h : ReadsAre (vWho (captureCtx s) s) (ewBytes ew) ((waitsFor ew ga form mask s).map fun p => p.2) bs s s1) :
    ∃ q why, exec (.vwait cond ew ga gc form mask) s =
        .next (setHart s.cur { me (retire 8 s) with vq := q, stallV := why } s1) ∧ MemStep s s1 ∧
      ((∀ b ∈ bs, waitCond cond.toNat (ewBits ew) (ofBytes b) ((gGet gc s).toNat % 2 ^ ewBits ew) = true) ∧ q = [] ∨
       ¬ (∀ b ∈ bs, waitCond cond.toNat (ewBits ew) (ofBytes b) ((gGet gc s).toNat % 2 ^ ewBits ew) = true) ∧
        ∃ e, q = [e] ∧ e.instr = .vwait cond ew ga gc form mask) := by
  obtain ⟨ready, run⟩ := r
  have elems : waitElems ew ga form mask (issued (waitCheck ew form) (.vwait cond ew ga gc form mask) s).ctx (me (retire 8 s))
      (waitIndices form s) = waitsFor ew ga form mask s := by
    rw [waitElems_congr (congrArg Regs.m (me_retire_r 8 s))]
    cases form <;> rfl
  obtain ⟨kept, first, pass, iff, d⟩ := (During.start s).waitPass_of_reads run (waitCheck ew form)
    (.vwait cond ew ga gc form mask) cond.toNat ew ((gGet gc s).toNat % 2 ^ ewBits ew) (waitStream ew form
      (issued (waitCheck ew form) (.vwait cond ew ga gc form mask) s).ctx) _ (kept := []) none al (by simp)
    (waitElems_nodup ..) h
  have done := exec_vwait ready cond ga gc mask
  rw [waitRun, elems, cg_issued, retire_eq_setHart] at done
  rw [pass] at done
  cases first with
  | none =>
    refine ⟨[], none, ?_, d.mem, .inl ⟨(iff.mp rfl).2, rfl⟩⟩
    rw [done, ← d.afterV_done]
    rfl
  | some p =>
    have unmet := mt (fun met => iff.mpr ⟨rfl, met⟩) (Option.some_ne_none p)
    rw [waitPass, behind, afterV, d.modMe] at done
    exact ⟨_, _, done, d.mem, .inr ⟨unmet, _, rfl, rfl⟩⟩

theorem vectorWait_at_push {s s1 : State} {cond : BitVec 3} {ew : BitVec 2} {ga gc : Reg} {form : WaitForm} {mask : MaskSel}
    {bs : List (List Byte)} (r : MemReady (waitCheck ew form).width none s)
    (al : ∀ p ∈ waitsFor ew ga form mask s, p.2 % ewBytes ew = 0)
    (h : ReadsAre (vWho (captureCtx s) s) (ewBytes ew) ((waitsFor ew ga form mask s).map fun p => p.2) bs s s1) :
    let met (b : List Byte) : Bool := waitCond cond.toNat (ewBits ew) (ofBytes b) ((gGet gc s).toNat % 2 ^ ewBits ew)
    let i : Instr := .vwait cond ew ga gc form mask
    ((∀ b ∈ bs, met b = true) → ∃ t, exec i s = .next t ∧ (me t).r = (me s).r ∧ (me t).pc = (me s).pc + 8 ∧
      (me t).vq = [] ∧ (me t).pend = none ∧ MemSame s1 t) ∧
    ((∃ b ∈ bs, met b = false) → ∃ t e, exec i s = .next t ∧ (me t).r = (me s).r ∧ (me t).pc = (me s).pc + 8 ∧
      (me t).vq = [e] ∧ e.instr = i ∧ (me t).pend = none ∧ MemSame s1 t) := by
  intro met i
  obtain ⟨q, why, done, m, left⟩ := vwait_ends (cond := cond) (gc := gc) r al h
  obtain ⟨⟨quiet, -⟩, -⟩ := r
  have hart := me_setHart_of_cur m.cur { me (retire 8 s) with vq := q, stallV := why }
  rw [me_retire] at hart
  have same : MemSame s1 (setHart s.cur { me (retire 8 s) with vq := q, stallV := why } s1) := memSame_of_mem (setHart_mem ..)
  rcases left with ⟨all, rfl⟩ | ⟨unmet, e, rfl, instr⟩
  · refine ⟨fun _ => ⟨_, done, ?_, ?_, ?_, ?_, same⟩, fun ⟨b, hb, no⟩ => absurd (no.symm.trans (all b hb)) Bool.false_ne_true⟩
    all_goals rw [me_retire, hart]
    exact quiet.pend
  · refine ⟨fun all => absurd all unmet, fun _ => ⟨_, e, done, ?_, ?_, ?_, instr, ?_, same⟩⟩
    all_goals rw [me_retire, hart]
    exact quiet.pend

/-! ## A poll -/

/-- A poll of a VWAIT for a single value completes it once the value meets the condition. -/
theorem vectorWait_poll {s s1 : State} {h x : Nat} {e : QEntry} {rest : List QEntry} {cond : BitVec 3} {ew : BitVec 2}
    {ga gc : Reg} {mask : MaskSel} (pend : (hartOf s h).pend = none) (vq : (hartOf s h).vq = e :: rest)
    (instr : e.instr = .vwait cond ew ga gc .single mask) (kept : e.kept = []) (al : cg e.ctx ga % ewBytes ew = 0)
    (rd : vaReadNum (vWho e.ctx { s with cur := h }) (cg e.ctx ga) (ewBytes ew) { s with cur := h } = .ok x s1) :
    ∃ t, exec (.vwaitPoll h) s = .next t ∧ t.cur = s.cur ∧ (hartOf t h).r = (hartOf s h).r ∧
      (hartOf t h).vq = if waitCond cond.toNat (ewBits ew) x (cg e.ctx gc % 2 ^ ewBits ew) then rest else e :: rest := by
  have hart : hartOf s1 h = hartOf s h := (step_of_ok (vaReadNum_step ..) rd).hartOf h
  have cur : s1.cur = h := (step_of_ok (vaReadNum_step ..) rd).cur
  have new : 0 + 1 ∉ e.kept := by
    rw [kept]
    exact List.not_mem_nil
  have pass := waitPass_cons_ok (cond := cond.toNat) (want := cg e.ctx gc % 2 ^ ewBits ew) (fs := waitStream ew .single e.ctx)
    (r := []) (first := none) new al rd
  have polled : exec (.vwaitPoll h) s =
      .next { afterV (perfVwait cond ew ga gc .single mask e { s with cur := h }) rest with cur := s.cur } := by
    have first : (me { s with cur := h }).pend = none ∧ (me { s with cur := h }).vq = e :: rest := ⟨pend, vq⟩
    show execVwaitPoll h s = _
    unfold execVwaitPoll asHart
    simp only [first, instr]
  have perf : perfVwait cond ew ga gc .single mask e { s with cur := h } =
      behind [] (waitPass e cond.toNat ew (cg e.ctx gc % 2 ^ ewBits ew) (waitStream ew .single e.ctx) [(0, cg e.ctx ga)] e.kept none
        { s with cur := h }) := rfl
  refine ⟨_, polled, rfl, ?_⟩
  have left (f : Hart → Hart) : hartOf { modMe f s1 with cur := s.cur } h = f (hartOf s h) := by
    rw [← hart, ← cur]
    exact me_modMe f s1
  rw [perf, pass]
  cases met : waitCond cond.toNat (ewBits ew) x (cg e.ctx gc % 2 ^ ewBits ew) with
  | true =>
    rw [if_pos rfl, if_pos rfl, waitPass, behind, afterV, left]
    exact ⟨rfl, rfl⟩
  | false =>
    rw [if_neg Bool.false_ne_true, if_neg Bool.false_ne_true, firstOf, waitPass, behind, afterV, left]
    exact ⟨rfl, rfl⟩

end Sys2Proof.Machine

/-! Family 03, memory tiers: VBIND and VUNBIND (R105, R106, R108, R374). -/

namespace Sys2Proof.Machine

/-! ## Bindings -/

theorem isBound_eq_false_iff {x : Hart} {v : Nat} : isBound x v = false ↔ ∀ p ∈ x.r.binds, p.2.reg ≠ v := by
  simp [isBound, bindingOf]

theorem bindingOf_congr {x y : Hart} (h : x.r = y.r) (v : Nat) : bindingOf x v = bindingOf y v := by rw [bindingOf, h, bindingOf]
theorem isBound_congr {x y : Hart} (h : x.r = y.r) (v : Nat) : isBound x v = isBound y v := by
  rw [isBound, bindingOf_congr h, isBound]
theorem vRow_congr {x y : Hart} (h : x.r = y.r) (v k : Nat) : vRow x v k = vRow y v k := by rw [vRow, h, vRow]

/-- A binding put into a slot, for a register that no other slot binds, is the register's binding. -/
theorem find?_cinsert_reg {b : Binding} {v : Nat} (hb : b.reg = v) (k : Nat) {m : Cells Binding} (h : ∀ p ∈ m, p.2.reg ≠ v) :
    (cinsert k b m).find? (fun p => p.2.reg == v) = some (k, b) := by
  induction m with
  | nil => simp [cinsert, hb]
  | cons p m ih =>
    obtain ⟨hp, hm⟩ := List.forall_mem_cons.mp h
    rw [cinsert]
    split
    · simp [hb]
    · rw [List.find?_cons_of_neg (by simpa using hp), ih hm]

theorem mem_cinsert_of_mem {β : Type} {k : Nat} {x : β} {m : Cells β} {p : Nat × β} (h : p ∈ m) : p ∈ cinsert k x m := by
  induction m with
  | nil => cases h
  | cons q m ih =>
    rw [cinsert]
    split
    · exact List.mem_cons_of_mem _ h
    · rcases List.mem_cons.mp h with rfl | h
      · exact List.mem_cons_self
      · exact List.mem_cons_of_mem _ (ih h)

theorem mem_cdel_of_ne {β : Type} {k : Nat} {m : Cells β} {p : Nat × β} (h : p ∈ m) (hp : p.1 ≠ k) : p ∈ cdel k m := by
  induction m with
  | nil => cases h
  | cons q m ih =>
    obtain ⟨i, x⟩ := q
    rw [cdel]
    rcases List.mem_cons.mp h with rfl | h
    · rw [if_neg hp]
      exact List.mem_cons_self
    · split
      · exact ih h
      · exact List.mem_cons_of_mem _ (ih h)

/-! ## What the end of a binding changes -/

/-- From `s` to `t` only bindings of the current hart, what its vector registers hold, the translations that streams hold, and the
source of free values may have changed. -/
structure Rebound (s t : State) : Prop where
  cur : t.cur = s.cur
  mem : t.mem = s.mem
  hart : me t = { me s with r := { (me s).r with v := (me t).r.v, ext := (me t).r.ext, binds := (me t).r.binds } }

theorem Rebound.refl (s : State) : Rebound s s := ⟨rfl, rfl, rfl⟩

theorem Rebound.trans {s t u : State} (h : Rebound s t) (k : Rebound t u) : Rebound s u := by
  refine ⟨k.cur.trans h.cur, k.mem.trans h.mem, ?_⟩
  rw [k.hart, h.hart]

/-- The hart after the end of a register's binding, with free values in the register's rows. -/
def unboundHart (v n : Nat) (x : Hart) : Hart :=
  freeRows v n { x with r := { x.r with binds := x.r.binds.filter (fun p => p.2.reg != v) } }

theorem unboundHart_eq (v n : Nat) (x : Hart) :
    unboundHart v n x = { x with r := { x.r with
      v := (unboundHart v n x).r.v, ext := (unboundHart v n x).r.ext, binds := x.r.binds.filter (fun p => p.2.reg != v) } } :=
  (VecOnly.refl { x with r := { x.r with binds := x.r.binds.filter (fun p => p.2.reg != v) } }).putRows v
    (fun k => Config.freeRow (n + k))

theorem vRow_unboundHart_other {v v' k : Nat} (n : Nat) (x : Hart) (hv : v' ≠ v) (hk : k < 8) :
    vRow (unboundHart v n x) v' k = vRow x v' k := by
  show vRow (putRows v (fun k => Config.freeRow (n + k)) _) v' k = _
  rw [vRow_putRows_other _ _ hv hk]
  rfl

theorem letGo_fresh_step (h : Nat) (p : Nat → Bool) (n : Nat) (s : State) : MemStep s { letGo h p s with fresh := n } := ⟨rfl, id⟩

theorem endBinding_of_bound {s : State} {v : Nat} (h : isBound (me s) v = true) :
    endBinding v s = { letGo s.cur (fun k => k / 4 == 2 + ((bindingOf (me s) v).map (fun p => p.1)).getD 0)
      (modMe (unboundHart v s.fresh) s) with fresh := s.fresh + 8 } := if_pos h

theorem me_endBinding_of_bound {s : State} {v : Nat} (h : isBound (me s) v = true) :
    me (endBinding v s) = unboundHart v s.fresh (me s) := by
  rw [endBinding_of_bound h, (letGo_fresh_step ..).me, me_modMe]

theorem endBinding_of_unbound {s : State} {v : Nat} (h : isBound (me s) v = false) : endBinding v s = s := by
  unfold endBinding
  rw [h, if_neg Bool.false_ne_true]

theorem rebound_endBinding (v : Nat) (s : State) : Rebound s (endBinding v s) := by
  cases h : isBound (me s) v with
  | false =>
    rw [endBinding_of_unbound h]
    exact .refl s
  | true =>
    have parts : (endBinding v s).cur = s.cur ∧ (endBinding v s).mem = s.mem := by
      rw [endBinding_of_bound h]
      simp only [letGo, modMe_cur, modMe_mem, and_self]
    refine ⟨parts.1, parts.2, ?_⟩
    rw [me_endBinding_of_bound h, unboundHart_eq]

/-- No binding of the register is left, and every other one is. -/
theorem binds_endBinding (v : Nat) (s : State) :
    (me (endBinding v s)).r.binds = (me s).r.binds.filter (fun p => p.2.reg != v) := by
  cases h : isBound (me s) v with
  | false =>
    rw [endBinding_of_unbound h, List.filter_eq_self.mpr]
    exact fun p hp => bne_iff_ne.mpr (isBound_eq_false_iff.mp h p hp)
  | true => rw [me_endBinding_of_bound h, unboundHart_eq]

theorem mem_binds_endBinding {v : Nat} {s : State} {p : Nat × Binding} :
    p ∈ (me (endBinding v s)).r.binds ↔ p ∈ (me s).r.binds ∧ p.2.reg ≠ v := by
  rw [binds_endBinding, List.mem_filter, bne_iff_ne]

theorem isBound_endBinding (v : Nat) (s : State) : isBound (me (endBinding v s)) v = false :=
  isBound_eq_false_iff.mpr fun _ hp => (mem_binds_endBinding.mp hp).2

/-- The rows of every other register, and those of a register that was not bound, stay. -/
theorem vRow_endBinding {v v' k : Nat} {s : State} (h : isBound (me s) v = true → v' ≠ v) (hk : k < 8) :
    vRow (me (endBinding v s)) v' k = vRow (me s) v' k := by
  cases hb : isBound (me s) v with
  | false => rw [endBinding_of_unbound hb]
  | true =>
    rw [me_endBinding_of_bound hb, vRow_unboundHart_other _ _ (h hb) hk]

/-! ## The slot of a VBIND -/

/-- Freeing a slot ends the binding of the register that it binds, or changes nothing. -/
theorem freeSlot_cases (slot : Nat) (s : State) :
    freeSlot slot s = s ∨ ∃ q ∈ (me s).r.binds, q.1 = slot ∧ freeSlot slot s = endBinding q.2.reg s := by
  unfold freeSlot
  split
  · next q found =>
    exact .inr ⟨q, List.mem_of_find?_eq_some found, by simpa using List.find?_some found, rfl⟩
  · exact .inl rfl

section
variable (slot : Nat) {s : State}

theorem rebound_freeSlot (s : State) : Rebound s (freeSlot slot s) := by
  rcases freeSlot_cases slot s with h | ⟨q, -, -, h⟩ <;> rw [h]
  · exact .refl s
  · exact rebound_endBinding ..

theorem mem_binds_of_freeSlot {p : Nat × Binding} (hp : p ∈ (me (freeSlot slot s)).r.binds) : p ∈ (me s).r.binds := by
  rcases freeSlot_cases slot s with h | ⟨q, -, -, h⟩ <;> rw [h] at hp
  · exact hp
  · exact (mem_binds_endBinding.mp hp).1

/-- A binding stays whose register the slot does not bind. -/
theorem mem_binds_freeSlot {p : Nat × Binding} (hp : p ∈ (me s).r.binds)
    (apart : ∀ q ∈ (me s).r.binds, q.1 = slot → q.2.reg ≠ p.2.reg) : p ∈ (me (freeSlot slot s)).r.binds := by
  rcases freeSlot_cases slot s with h | ⟨q, hq, named, h⟩ <;> rw [h]
  · exact hp
  · exact mem_binds_endBinding.mpr ⟨hp, (apart q hq named).symm⟩

theorem isBound_freeSlot {v : Nat} (h : isBound (me s) v = false) : isBound (me (freeSlot slot s)) v = false :=
  isBound_eq_false_iff.mpr fun _ hp => isBound_eq_false_iff.mp h _ (mem_binds_of_freeSlot slot hp)

theorem vRow_freeSlot {v k : Nat} (h : isBound (me s) v = false) (hk : k < 8) :
    vRow (me (freeSlot slot s)) v k = vRow (me s) v k := by
  rcases freeSlot_cases slot s with e | ⟨q, hq, -, e⟩ <;> rw [e]
  exact vRow_endBinding (fun _ => (isBound_eq_false_iff.mp h q hq).symm) hk
end

/-- The state with a register bound through a slot: what the slot and the register were bound to has ended. -/
def bindTo (slot : Nat) (b : Binding) (s : State) : State :=
  modMe (fun x => { x with r := { x.r with binds := cset noBinding slot b x.r.binds } }) (endBinding b.reg (freeSlot slot s))

theorem bindBad_noBinding : bindBad noBinding = true := by decide

section
variable {slot : Nat} {b : Binding} (good : bindBad b = false) {s : State}
include good

theorem binds_bindTo : (me (bindTo slot b s)).r.binds =
    cinsert slot b (cdel slot (me (endBinding b.reg (freeSlot slot s))).r.binds) := by
  have real : b ≠ noBinding := by
    rintro rfl
    exact absurd (bindBad_noBinding.symm.trans good) (by decide)
  rw [bindTo, me_modMe, cset, if_neg real]

theorem bindingOf_bindTo {v : Nat} (hv : b.reg = v) : bindingOf (me (bindTo slot b s)) v = some (slot, b) := by
  subst hv
  rw [bindingOf, binds_bindTo good]
  exact find?_cinsert_reg rfl slot fun p hp => (mem_binds_endBinding.mp (mem_cdel hp)).2

theorem mem_binds_bindTo {p : Nat × Binding} (hp : p ∈ (me s).r.binds) (hs : p.1 ≠ slot) (hr : p.2.reg ≠ b.reg)
    (apart : ∀ q ∈ (me s).r.binds, q.1 = slot → q.2.reg ≠ p.2.reg) : p ∈ (me (bindTo slot b s)).r.binds := by
  rw [binds_bindTo good]
  exact mem_cinsert_of_mem (mem_cdel_of_ne (mem_binds_endBinding.mpr ⟨mem_binds_freeSlot slot hp apart, hr⟩) hs)
end

theorem rebound_bindTo (slot : Nat) (b : Binding) (s : State) : Rebound s (bindTo slot b s) := by
  refine ((rebound_freeSlot slot s).trans (rebound_endBinding b.reg _)).trans ⟨modMe_cur .., modMe_mem .., ?_⟩
  rw [bindTo, me_modMe]

theorem vRow_bindTo {v k : Nat} {s : State} (slot : Nat) (b : Binding) (h : isBound (me s) v = false) (hk : k < 8) :
    vRow (me (bindTo slot b s)) v k = vRow (me s) v k := by
  have free := isBound_freeSlot slot h
  have ended : vRow (me (endBinding b.reg (freeSlot slot s))) v k = vRow (me (freeSlot slot s)) v k := by
    refine vRow_endBinding (fun bound e => ?_) hk
    rw [e, bound] at free
    cases free
  rw [← vRow_freeSlot slot h hk, ← ended, bindTo, me_modMe]
  rfl

/-! ## VUNBIND -/

/-- A hart whose bindings an instruction has changed, with the instruction complete. -/
def rebindDone (s : State) : State := modMe (fun x => { x with vq := [], stallV := none }) s

theorem r_rebindDone (s : State) : (me (rebindDone s)).r = (me s).r := by rw [rebindDone, me_modMe]

theorem Rebound.pc_done {s t : State} (h : Rebound s t) : (me (rebindDone t)).pc = (me s).pc := by
  rw [rebindDone, me_modMe, h.hart]

theorem Rebound.regsSame_done {s t : State} (h : Rebound s t) (r : Reg) : gGet r (rebindDone t) = gGet r s := by
  unfold gGet
  rw [r_rebindDone, h.hart]

theorem Rebound.memSame_done {s t u : State} (h : Rebound s t) (m : s.mem = u.mem) : MemSame u (rebindDone t) := by
  have kept : (rebindDone t).mem = t.mem := modMe_mem ..
  exact memSame_of_mem (kept.trans (h.mem.trans m))

theorem exec_vunbind {s : State} (q : Quiet s) (vd : Reg) :
    exec (.vunbind vd) s = .next (rebindDone (endBinding vd.toNat (retire 8 s))) :=
  congrArg Host.Outcome.next (issueV_of_quiet q (passes_none s) _ _)

theorem vunbind_completes {s : State} (q : Quiet s) (vd : Reg) :
    ∃ t, exec (.vunbind vd) s = .next t ∧ isBound (me t) vd.toNat = false ∧
      (∀ p, p.2.reg ≠ vd.toNat → (p ∈ (me t).r.binds ↔ p ∈ (me s).r.binds)) ∧
      (∀ v k, k < 8 → v ≠ vd.toNat → vRow (me t) v k = vRow (me s) v k) ∧
      (me t).pc = (me s).pc + 8 ∧ RegsSameBut [] s t ∧ MemSame s t := by
  have same := rebound_endBinding vd.toNat (retire 8 s)
  refine ⟨_, exec_vunbind q vd, ?_, fun p hp => ?_, fun v k hk hv => ?_, ?_, fun r _ => ?_, same.memSame_done rfl⟩
  · rw [isBound_congr (r_rebindDone _), isBound_endBinding]
  · rw [r_rebindDone, mem_binds_endBinding, me_retire_r]
    exact and_iff_left hp
  · rw [vRow_congr (r_rebindDone _), vRow_endBinding (fun _ => hv) hk, vRow_congr (me_retire_r 8 s)]
  · rw [same.pc_done, me_retire]
  · rw [same.regsSame_done, gGet_retire]

/-! ## VBIND -/

/-- A vector instruction that stops has its trap pending, and its hart's registers are as they were then. -/
theorem During.stopped {s u : State} {y : Hart} (d : During s u y) (q : Quiet s) (run : (Machine.me s).run = .running)
    (e : QEntry) (ix : Nat) (f : Flt) (fs : FaultStream) :
    ∃ p, (Machine.me (afterV (stopAt e ix f fs (setHart s.cur y u)) [])).pend = some p ∧ p.flt = f ∧
      (Machine.me (afterV (stopAt e ix f fs (setHart s.cur y u)) [])).r = y.r := by
  have stop : afterV (stopAt e ix f fs (setHart s.cur y u)) [] = _ := d.afterV_stopAt q run e ix f fs
  rw [stop, me_setHart_of_cur d.mem.cur]
  exact ⟨_, rfl, rfl, rfl⟩

/-- The binding that a record of 32 bytes gives a register (R105). -/
def recordBinding (v : Nat) (bs : List Byte) : Binding :=
  let word (i : Nat) : Word := BitVec.ofNat 64 (ofBytes ((bs.drop (8 * i)).take 8))
  { reg := v, src := word 0, scale := word 1, zp := word 2, ctl := word 3, reads := 0, pulled := 0, buf := [] }

theorem exec_vbind {s : State} (q : Quiet s) (vd ga : Reg) (slot : BitVec 2) :
    exec (.vbind vd ga slot) s =
      .next (afterV (perfVbind vd ga slot (issued Check.none (.vbind vd ga slot) s) (retire 8 s)) []) :=
  congrArg Host.Outcome.next (issueV_of_quiet q (passes_none s) _ _)

section
variable {s s1 : State} {ga : Reg} {bs : List Byte} (q : Quiet s) (run : (me s).run = .running)
  (al : (gGet ga s).toNat % 32 = 0) (rd : vaRead (hartWho s s.cur 5 (me s).handler) (gGet ga s).toNat 32 s = .ok bs s1)
  (vd : Reg) (slot : BitVec 2)
include run al rd

/-- A VBIND that reads its record refuses it or binds its register. -/
theorem perfVbind_of_read :
    perfVbind vd ga slot (issued Check.none (.vbind vd ga slot) s) (retire 8 s) =
      if bindBad (recordBinding vd.toNat bs) then
        stopAt (issued Check.none (.vbind vd ga slot) s) 0 (streamFlt 3) { noStream with fstream := 5 }
          (setHart s.cur (me (retire 8 s)) s1)
      else .done (bindTo slot.toNat (recordBinding vd.toNat bs) (setHart s.cur (me (retire 8 s)) s1)) := by
  have who : hartWho (retire 8 s) (retire 8 s).cur 5 (issued Check.none (.vbind vd ga slot) s).ctx.handler =
      hartWho s s.cur 5 (me s).handler := by
    show hartWho (retire 8 s) (retire 8 s).cur 5 (me s).handler = _
    unfold hartWho
    rw [show hartOf (retire 8 s) (retire 8 s).cur = _ from me_retire 8 s]
    rfl
  have read : vaRead (hartWho s s.cur 5 (me s).handler) (gGet ga s).toNat 32 (retire 8 s) =
      .ok bs (setHart s.cur (me (retire 8 s)) s1) := by
    conv_lhs => rw [retire_eq_setHart]
    rw [vaRead_setHart ((During.start s).looksLike run), rd]
    rfl
  rw [perfVbind, cg_issued, who]
  dsimp only
  rw [if_neg (not_not.mpr al), read]
  rfl

include q

theorem vbind_binds (good : bindBad (recordBinding vd.toNat bs) = false) :
    ∃ t, exec (.vbind vd ga slot) s = .next t ∧
      bindingOf (me t) vd.toNat = some (slot.toNat, recordBinding vd.toNat bs) ∧
      (∀ p ∈ (me s).r.binds, p.1 ≠ slot.toNat → p.2.reg ≠ vd.toNat →
        (∀ q ∈ (me s).r.binds, q.1 = slot.toNat → q.2.reg ≠ p.2.reg) → p ∈ (me t).r.binds) ∧
      (∀ v k, k < 8 → (isBound (me s) v = false) → vRow (me t) v k = vRow (me s) v k) ∧
      (me t).pc = (me s).pc + 8 ∧ RegsSameBut [] s t ∧ MemSame s1 t := by
  have d : During s s1 (me (retire 8 s)) := ⟨step_of_ok (vaRead_step ..) rd, rfl⟩
  have same := rebound_bindTo slot.toNat (recordBinding vd.toNat bs) (setHart s.cur (me (retire 8 s)) s1)
  have regs : (me (setHart s.cur (me (retire 8 s)) s1)).r = (me s).r := by rw [d.me, me_retire_r]
  refine ⟨rebindDone (bindTo slot.toNat (recordBinding vd.toNat bs) (setHart s.cur (me (retire 8 s)) s1)), ?_, ?_,
    fun p hp hs hr apart => ?_, fun v k hk hv => ?_, ?_, fun r _ => ?_, same.memSame_done rfl⟩
  · rw [exec_vbind q, perfVbind_of_read run al rd, good]
    rfl
  · rw [bindingOf_congr (r_rebindDone _), bindingOf_bindTo good (v := vd.toNat) rfl]
  · rw [r_rebindDone]
    rw [← regs] at hp apart
    exact mem_binds_bindTo good hp hs hr apart
  · rw [vRow_congr (r_rebindDone _), vRow_bindTo slot.toNat _ ((isBound_congr regs v).trans hv) hk, vRow_congr regs]
  · rw [same.pc_done, d.me, me_retire]
  · rw [same.regsSame_done, gGet, gGet, regs]

theorem vbind_refuses (bad : bindBad (recordBinding vd.toNat bs) = true) :
    ∃ t p, exec (.vbind vd ga slot) s = .next t ∧ (me t).pend = some p ∧ p.flt = streamFlt 3 ∧ (me t).r = (me s).r := by
  have d : During s s1 (me (retire 8 s)) := ⟨step_of_ok (vaRead_step ..) rd, rfl⟩
  obtain ⟨p, pend, flt, regs⟩ := d.stopped q run (issued Check.none (.vbind vd ga slot) s) 0 (streamFlt 3)
    { noStream with fstream := 5 }
  refine ⟨_, p, ?_, pend, flt, regs.trans (me_retire_r 8 s)⟩
  rw [exec_vbind q, perfVbind_of_read run al rd, if_pos bad]
end

/-- Settles O39: an access sees nothing of the hart's registers, so the reads that the statement makes are those of the
instruction. A pass of a VWAIT keeps every element that meets the condition, and none is left if and only if each does; the end of
a binding touches the rows of its own register alone. -/
theorem waitsAndBindings : Obligations.WaitsAndBindings := by
  refine ⟨⟨?_, ?_⟩, ?_⟩
  · intro s s1 cond ew ga gc form mask bs i idx els met r al h
    exact vectorWait_at_push r al h
  · intro s s1 h x e rest cond ew ga gc mask pend vq instr kept al rd
    exact vectorWait_poll pend vq instr kept al rd
  · intro s vd ga slot q run a
    refine ⟨fun bs s1 al rd => ?_, vunbind_completes q vd⟩
    intro word b
    have record : b = recordBinding vd.toNat bs := rfl
    clear_value b
    subst record
    exact ⟨vbind_binds q run al rd vd slot, vbind_refuses q run al rd vd slot⟩

end Sys2Proof.Machine

/-! Family 05, statistics records: the codes of a format, and the numbers they are (R277 to R284). -/

namespace Sys2Proof.Machine

/-! ## A rounded code fits its format -/

theorem lt_two_pow_bitLen (m : Nat) : m < 2 ^ bitLen m := by
  unfold bitLen
  split
  · next h => simp [h]
  · exact Nat.lt_log2_self

/-- A number of `bitLen m` bits counted in a unit that leaves `n` of them rounds to at most the next power of two. -/
theorem roundAt_le (rm : Nat) (neg : Bool) {m n : Nat} {e q : Int} (h : e + bitLen m - n ≤ q) :
    (roundAt rm neg m e q).1 ≤ 2 ^ n := by
  have hm := lt_two_pow_bitLen m
  unfold roundAt
  split
  · next hq =>
    calc m * 2 ^ (e - q).toNat ≤ 2 ^ bitLen m * 2 ^ (e - q).toNat := Nat.mul_le_mul_right _ hm.le
      _ = 2 ^ (bitLen m + (e - q).toNat) := (Nat.pow_add ..).symm
      _ ≤ 2 ^ n := Nat.pow_le_pow_right (by decide) (by omega)
  · next hq =>
    have kept : m / 2 ^ (q - e).toNat < 2 ^ n := by
      refine Nat.div_lt_of_lt_mul (Nat.lt_of_lt_of_le hm ?_)
      rw [← Nat.pow_add]
      exact Nat.pow_le_pow_right (by decide) (by omega)
    dsimp only
    split
    · exact kept
    · exact kept.le

theorem signBit_le (f : FFmt) (neg : Bool) : signBit f neg ≤ 2 ^ (f.ebits + f.fbits) := by
  unfold signBit
  split
  · exact Nat.le_refl _
  · exact Nat.zero_le _

/-- A magnitude below the sign bit, with a sign. -/
theorem signBit_add_lt {f : FFmt} {c : Nat} (neg : Bool) (h : c < 2 ^ (f.ebits + f.fbits)) :
    signBit f neg + c < 2 ^ (1 + f.ebits + f.fbits) := by
  have := signBit_le f neg
  rw [Nat.add_assoc, Nat.pow_add]
  omega

/-- The code of the largest exponent is below the sign bit. -/
theorem topExponent_add_lt (f : FFmt) {c : Nat} (h : c < 2 ^ f.fbits) :
    (2 ^ f.ebits - 1) * 2 ^ f.fbits + c < 2 ^ (f.ebits + f.fbits) := by
  have := Nat.two_pow_pos f.ebits
  calc (2 ^ f.ebits - 1) * 2 ^ f.fbits + c < (2 ^ f.ebits - 1) * 2 ^ f.fbits + 2 ^ f.fbits := by omega
    _ = (2 ^ f.ebits - 1 + 1) * 2 ^ f.fbits := (Nat.succ_mul ..).symm
    _ = 2 ^ (f.ebits + f.fbits) := by rw [Nat.sub_add_cancel this, Nat.pow_add]

theorem infCode_lt (f : FFmt) (neg : Bool) : infCode f neg < 2 ^ (1 + f.ebits + f.fbits) :=
  signBit_add_lt neg (topExponent_add_lt f (Nat.two_pow_pos _))

theorem maxCode_lt (f : FFmt) (neg : Bool) : maxCode f neg < 2 ^ (1 + f.ebits + f.fbits) := by
  have top := topExponent_add_lt f (Nat.two_pow_pos f.fbits)
  refine signBit_add_lt neg ?_
  split <;> omega

/-- A format with a fraction has its canonical NaN among its codes. -/
theorem canonical_lt {f : FFmt} (hf : 0 < f.fbits) : canonical f < 2 ^ (1 + f.ebits + f.fbits) := by
  have wider : 2 ^ (f.ebits + f.fbits) ≤ 2 ^ (1 + f.ebits + f.fbits) := Nat.pow_le_pow_right (by decide) (by omega)
  unfold canonical
  split
  · exact Nat.lt_of_lt_of_le
      (topExponent_add_lt f (Nat.pow_lt_pow_right (by decide) (Nat.sub_lt hf Nat.one_pos))) wider
  · exact Nat.lt_of_lt_of_le (Nat.sub_lt (Nat.two_pow_pos _) Nat.one_pos) wider

theorem fst_ite_lt {α : Type} {c : Prop} [Decidable c] {a b : Nat × α} {n : Nat} (ha : a.1 < n) (hb : b.1 < n) :
    (if c then a else b).1 < n := by
  split
  · exact ha
  · exact hb

theorem overflowTo_lt {f : FFmt} (hf : 0 < f.fbits) (rm : Nat) (sat neg : Bool) :
    (overflowTo f rm sat neg).1 < 2 ^ (1 + f.ebits + f.fbits) :=
  fst_ite_lt (maxCode_lt f neg) (fst_ite_lt (maxCode_lt f neg) (fst_ite_lt (infCode_lt f neg) (canonical_lt hf)))

/-- The code of a significand and its unit, no larger than those of the largest finite magnitude. -/
theorem finiteCode_lt {f : FFmt} {r : Nat} {q : Int} (hr : r < 2 ^ (f.fbits + 1)) (hq : q ≤ maxUnit f) :
    (if r < 2 ^ f.fbits then r else (q - minUnit f + 1).toNat * 2 ^ f.fbits + (r - 2 ^ f.fbits)) <
      2 ^ (f.ebits + f.fbits) := by
  rw [Nat.pow_succ] at hr
  have pos := Nat.two_pow_pos f.ebits
  split
  · next small =>
    exact Nat.lt_of_lt_of_le small (Nat.pow_le_pow_right (by decide) (Nat.le_add_left ..))
  · have expo : (q - minUnit f + 1).toNat ≤ 2 ^ f.ebits - 1 := by
      unfold maxUnit at hq
      unfold minUnit
      generalize 2 ^ f.ebits = E at *
      split at hq <;> omega
    refine Nat.lt_of_le_of_lt (Nat.add_le_add_right (Nat.mul_le_mul_right _ expo) _) (topExponent_add_lt f ?_)
    omega

/-- A rounded value is a code of its format (R283, R284). -/
theorem roundV_lt {f : FFmt} (hf : 0 < f.fbits) (rm : Nat) (sat : Bool) (v : Val) :
    (roundV f rm sat v).1 < 2 ^ (1 + f.ebits + f.fbits) := by
  cases v with
  | nan s => exact canonical_lt hf
  | inf neg => exact fst_ite_lt (infCode_lt f neg) (fst_ite_lt (maxCode_lt f neg) (canonical_lt hf))
  | fin neg m e =>
    unfold roundV
    dsimp only
    split
    · exact signBit_add_lt (c := 0) neg (Nat.two_pow_pos _)
    · have le := roundAt_le rm neg (m := m) (n := f.fbits + 1) (e := e)
        (q := max (e + (bitLen m : Int) - 1 - f.fbits) (minUnit f)) (by push_cast; omega)
      generalize roundAt rm neg m e _ = p at le ⊢
      have room : (if p.1 = 2 ^ (f.fbits + 1) then (2 ^ f.fbits, max (e + (bitLen m : Int) - 1 - f.fbits) (minUnit f) + 1)
          else (p.1, max (e + (bitLen m : Int) - 1 - f.fbits) (minUnit f))).1 < 2 ^ (f.fbits + 1) := by
        split
        · exact Nat.pow_lt_pow_right (by decide) (Nat.lt_succ_self _)
        · next ne => exact Nat.lt_of_le_of_ne le ne
      generalize (if p.1 = 2 ^ (f.fbits + 1) then (_ : Nat × Int) else _) = u at room ⊢
      split
      · exact overflowTo_lt hf rm sat neg
      · next fits => exact signBit_add_lt neg (finiteCode_lt room (by omega))

/-! ## Format codes (R277) -/

theorem bitsFmt_of_fmtOf {c : Nat} {f : FFmt} (h : fmtOf c = some f) :
    bitsFmt c = 1 + f.ebits + f.fbits ∧ 0 < f.fbits := by
  unfold fmtOf at h
  split at h <;> cases h <;> exact ⟨rfl, by decide⟩

theorem wrapTo_lt (n : Nat) (z : Int) : wrapTo n z < 2 ^ n := by
  have pos : (0 : Int) < ((2 ^ n : Nat) : Int) := by exact_mod_cast Nat.two_pow_pos n
  have := Int.emod_lt_of_pos z pos
  have := Int.emod_nonneg z (Int.ne_of_gt pos)
  unfold wrapTo
  omega

theorem encodeFmt_lt (c rm : Nat) (sat : Bool) (v : Val) : (encodeFmt c rm sat v).1 < 2 ^ bitsFmt c := by
  unfold encodeFmt
  split
  · next f h =>
    obtain ⟨bits, frac⟩ := bitsFmt_of_fmtOf h
    rw [bits]
    exact roundV_lt frac rm sat v
  · exact wrapTo_lt ..

theorem satCode_lt (c : Nat) (neg : Bool) : satCode c neg < 2 ^ bitsFmt c := by
  unfold satCode
  split
  · next f h =>
    rw [(bitsFmt_of_fmtOf h).1]
    exact maxCode_lt f neg
  · exact wrapTo_lt ..

theorem nanCode_lt (c : Nat) : nanCode c < 2 ^ bitsFmt c := by
  unfold nanCode
  split
  · next f h =>
    obtain ⟨bits, frac⟩ := bitsFmt_of_fmtOf h
    rw [bits]
    exact canonical_lt frac
  · exact Nat.two_pow_pos _

/-- A quantised element is a code of the target format (R361). -/
theorem quantize_lt (c rm : Nat) (scale x : Val) : (quantize c rm scale x).1 < 2 ^ bitsFmt c := by
  unfold quantize
  split
  · exact nanCode_lt c
  · exact satCode_lt ..
  · split
    · exact satCode_lt ..
    · exact encodeFmt_lt ..

/-- The formats of codes 0, 1 and 2, which two bits name. -/
theorem fmtOf_f012 {c : BitVec 4} (h : c = 0 ∨ c = 1 ∨ c = 2) : fmtOf c.toNat = some (f012 (c.truncate 2)) := by
  rcases h with rfl | rfl | rfl <;> rfl

theorem decodeFmt_of_fmtOf {c : Nat} {f : FFmt} (h : fmtOf c = some f) (x : Nat) : decodeFmt c x = decodeF f x := by
  unfold decodeFmt
  rw [h]

/-- A product rounded to a format is a code of it (R362). -/
theorem rounded_lt {c : Nat} {f : FFmt} (h : fmtOf c = some f) (rm : Nat) (sat : Bool) (p : Val × Fl) :
    (rounded f rm sat p).1 < 2 ^ bitsFmt c := by
  obtain ⟨bits, frac⟩ := bitsFmt_of_fmtOf h
  rw [bits]
  exact roundV_lt frac rm sat p.1

end Sys2Proof.Machine

/-! Family 05, statistics records: element-wise instructions over the registers of a hart with nothing bound: what a sweep
has written when it has come to a place, and what it leaves at its end (R303, R317). -/

namespace Sys2Proof.Machine

/-! ## The places of a sweep, in their order -/

/-- The places of an instruction's sweep (R303). -/
def sweepPlaces (row : Option (BitVec 3)) (s : State) : List (Nat × Nat) :=
  tileOf (captureCtx s) (rowsOf (captureCtx s) row)

theorem mem_sweepPlaces_iff {row : Option (BitVec 3)} {s : State} {w : Nat} (f : Fits w row s) {p : Nat × Nat} :
    p ∈ sweepPlaces row s ↔ InSweep row s p.1 p.2 := by
  have places : p ∈ sweepPlaces row s ↔ p.1 ∈ rowsOf (captureCtx s) row ∧ p.2 ∈ List.range (me s).vl := by
    rw [sweepPlaces, tileOf_eq_product]
    exact List.mem_product
  rw [places, List.mem_range]
  cases row with
  | none => exact ⟨fun ⟨hk, he⟩ => ⟨List.mem_range.mp hk, he, nofun⟩, fun ⟨hk, he, _⟩ => ⟨List.mem_range.mpr hk, he⟩⟩
  | some r =>
    constructor
    · rintro ⟨hk, he⟩
      have hk : p.1 = r.toNat := List.mem_singleton.mp hk
      exact ⟨hk ▸ f.2 r rfl, he, fun _ e => by cases e; exact hk⟩
    · rintro ⟨-, he, hk⟩
      exact ⟨List.mem_singleton.mpr (hk r rfl), he⟩

theorem nodup_sweepPlaces (row : Option (BitVec 3)) (s : State) : (sweepPlaces row s).Nodup := tileOf_nodup _ _

/-- The sweep visits its places in the order of their sweep indices (R200). -/
theorem sweepPlaces_sorted (row : Option (BitVec 3)) (s : State) :
    (sweepPlaces row s).Pairwise fun p q => sweepIx (captureCtx s) p.1 p.2 < sweepIx (captureCtx s) q.1 q.2 := by
  have rows : (rowsOf (captureCtx s) row).Pairwise (· < ·) := by
    cases row with
    | none => exact List.pairwise_lt_range
    | some r => exact List.pairwise_singleton ..
  refine List.pairwise_flatMap.mpr ⟨fun k _ => List.pairwise_map.mpr ?_, rows.imp fun {j k} below => ?_⟩
  · exact List.pairwise_lt_range.imp fun lt => Nat.add_lt_add_left lt _
  · intro p hp q hq
    obtain ⟨a, ha, rfl⟩ := List.mem_map.mp hp
    obtain ⟨b, -, rfl⟩ := List.mem_map.mp hq
    have next := Nat.mul_le_mul_right (captureCtx s).vl (Nat.succ_le_of_lt below)
    have := List.mem_range.mp ha
    rw [Nat.succ_mul] at next
    show j * (captureCtx s).vl + a < k * (captureCtx s).vl + b
    omega

theorem Fits.mono {w w' : Nat} {row : Option (BitVec 3)} {s : State} (h : Fits w row s) (le : w' ≤ w) : Fits w' row s :=
  ⟨(Nat.mul_le_mul_left _ le).trans h.1, h.2⟩

theorem VecReady.mono {w w' : Nat} {row : Option (BitVec 3)} {s : State} (h : VecReady w row s) (le : w' ≤ w) :
    VecReady w' row s := by
  obtain ⟨q, ub, lanes, fits⟩ := h
  exact ⟨q, ub, lanes, fits.mono le⟩

/-- Every place of the sweep lies in one of the eight rows, its element whole in the row. -/
theorem VecReady.bounds {w : Nat} {row : Option (BitVec 3)} {s : State} (r : VecReady w row s) {p : Nat × Nat}
    (h : p ∈ sweepPlaces row s) : p.1 < 8 ∧ (p.2 + 1) * w ≤ 16384 := by
  obtain ⟨-, -, lanes, fits⟩ := r
  exact inSweep_bounds lanes fits ((mem_sweepPlaces_iff fits).mp h)

/-! ## Elements written one after another -/

/-- The elements at the places take their values, one after another. -/
def putElems (v w : Nat) (val : Nat → Nat → Nat × Fl) (ps : List (Nat × Nat)) (x : Hart) : Hart :=
  ps.foldl (fun x p => setVElemH v p.1 p.2 w (val p.1 p.2).1 x) x

/-- The flags of the elements at the places join those that stood. -/
def joinFlags (val : Nat → Nat → Nat × Fl) (ps : List (Nat × Nat)) (fl : Fl) : Fl :=
  ps.foldl (fun fl p => fl ||| (val p.1 p.2).2) fl

theorem getLsbD_joinFlags (val : Nat → Nat → Nat × Fl) (ps : List (Nat × Nat)) (fl : Fl) (i : Nat) :
    (joinFlags val ps fl).getLsbD i = true ↔
      fl.getLsbD i = true ∨ ∃ p ∈ ps, (val p.1 p.2).2.getLsbD i = true := by
  induction ps generalizing fl with
  | nil => simp [joinFlags]
  | cons p ps ih =>
    rw [joinFlags, List.foldl_cons]
    refine (ih _).trans ?_
    rw [BitVec.getLsbD_or, Bool.or_eq_true, List.exists_mem_cons_iff, or_assoc]

section
variable {v w : Nat} (val : Nat → Nat → Nat × Fl) {ps : List (Nat × Nat)}

theorem VecOnly.putElems {x y : Hart} (h : VecOnly x y) (ps : List (Nat × Nat)) : VecOnly x (putElems v w val ps y) := by
  induction ps generalizing y with
  | nil => exact h
  | cons p ps ih => exact ih (h.setVElemH ..)

theorem vRow_putElems_other {v' k' : Nat} (hp : ∀ p ∈ ps, p.1 < 8) (hv : v' ≠ v) (hk' : k' < 8) (x : Hart) :
    vRow (putElems v w val ps x) v' k' = vRow x v' k' := by
  induction ps generalizing x with
  | nil => rfl
  | cons p ps ih =>
    obtain ⟨h0, hps⟩ := List.forall_mem_cons.mp hp
    exact (ih hps _).trans (vRow_setVElemH_other _ _ _ _ hv h0 hk')

/-- The element at a place holds its value, any other what it held. -/
theorem vElem_putElems (hp : ∀ p ∈ ps, p.1 < 8 ∧ (p.2 + 1) * w ≤ 16384) {k e : Nat} (hk : k < 8) (x : Hart) :
    vElem (putElems v w val ps x) v k e w = if (k, e) ∈ ps then (val k e).1 % 2 ^ w else vElem x v k e w := by
  induction ps generalizing x with
  | nil => rfl
  | cons p ps ih =>
    obtain ⟨⟨h0, h1⟩, hps⟩ := List.forall_mem_cons.mp hp
    refine (ih hps _).trans ?_
    by_cases later : (k, e) ∈ ps
    · rw [if_pos later, if_pos (List.mem_cons_of_mem _ later)]
    · rw [if_neg later]
      by_cases here : (k, e) = p
      · subst here
        rw [if_pos List.mem_cons_self, vElem_setVElemH_same _ _ _ _ _ _ h1]
      · rw [if_neg (List.mem_cons.not.mpr (not_or.mpr ⟨here, later⟩))]
        refine vElem_setVElemH_other _ _ _ _ _ _ _ _ _ h1 h0 hk (.inr ?_)
        by_contra same
        rw [not_or, not_not, not_not] at same
        exact here (Prod.ext same.1 same.2)

/-- Where no place names it, an element of another register, or of the same width, is as it was. -/
theorem vElem_putElems_other (hp : ∀ p ∈ ps, p.1 < 8 ∧ (p.2 + 1) * w ≤ 16384) {v' k e w' : Nat} (hk : k < 8)
    (hn : (k, e) ∉ ps) (width : v' = v → w' = w) (x : Hart) :
    vElem (putElems v w val ps x) v' k e w' = vElem x v' k e w' := by
  by_cases hv : v' = v
  · rw [width hv, hv, vElem_putElems val hp hk, if_neg hn]
  · unfold vElem
    rw [vRow_putElems_other val (fun p h => (hp p h).1) hv hk]
end

/-! ## A sweep over the registers -/

/-- An element-wise instruction: where its results go, and the result and the flags of each element. -/
structure ElemOp where
  vd : Reg
  w : Nat
  row : Option (BitVec 3)
  mask : MaskSel
  val : Nat → Nat → Nat × Fl

namespace ElemOp

/-- The hart when the sweep has performed the places `done`. -/
def hart (p : ElemOp) (s : State) (done : List (Nat × Nat)) : Hart :=
  { putElems p.vd.toNat p.w p.val (activeIn s p.mask done) (me (retire 8 s)) with
    fflags := joinFlags p.val (activeIn s p.mask done) (me s).fflags }

/-- The state then, where all but the hart has come to `u`. -/
def swept (p : ElemOp) (s u : State) (done : List (Nat × Nat)) : State := setHart s.cur (p.hart s done) u

/-- The state in which the instruction completes, with everything in place. -/
def complete (p : ElemOp) (s u : State) : State :=
  setHart s.cur { p.hart s (sweepPlaces p.row s) with vq := [], stallV := none } u

variable (p : ElemOp) (s : State)

theorem hart_nil : p.hart s [] = me (retire 8 s) := by
  have flags : (me s).fflags = (me (retire 8 s)).fflags := by rw [me_retire]
  unfold hart
  rw [flags]
  rfl

theorem swept_nil (u : State) : p.swept s u [] = setHart s.cur (me (retire 8 s)) u := by rw [swept, hart_nil]

/-- But for its flags the hart has changed in its vector registers only. -/
theorem hart_vecOnly (done : List (Nat × Nat)) :
    VecOnly (me (retire 8 s)) { p.hart s done with fflags := (me s).fflags } := by
  have h := (VecOnly.refl (me (retire 8 s))).putElems (v := p.vd.toNat) (w := p.w) p.val (activeIn s p.mask done)
  have flags : (me s).fflags = (me (retire 8 s)).fflags := by rw [me_retire]
  unfold VecOnly at h ⊢
  unfold hart
  rw [flags]
  dsimp only
  rw [h]

theorem hart_binds (done : List (Nat × Nat)) : (p.hart s done).r.binds = (me s).r.binds := by
  have h := congrArg (fun x => x.r.binds) (p.hart_vecOnly s done)
  exact h.trans (by rw [me_retire])

theorem hart_masks (done : List (Nat × Nat)) : (p.hart s done).r.m = (me s).r.m := by
  have h := (p.hart_vecOnly s done).masks
  exact h.trans (by rw [me_retire])

theorem hart_pend (done : List (Nat × Nat)) : (p.hart s done).pend = (me s).pend := by
  have h := congrArg Hart.pend (p.hart_vecOnly s done)
  exact h.trans (by rw [me_retire])

theorem hart_snoc_of_active {k e : Nat} (ac : active (me s) p.mask k e = true) (done : List (Nat × Nat)) :
    p.hart s (done ++ [(k, e)]) =
      { setVElemH p.vd.toNat k e p.w (p.val k e).1 (p.hart s done) with fflags := (p.hart s done).fflags ||| (p.val k e).2 } := by
  have places : activeIn s p.mask (done ++ [(k, e)]) = activeIn s p.mask done ++ [(k, e)] := by
    simp [activeIn, List.filter_append, ac]
  simp only [hart, places, putElems, joinFlags, List.foldl_append, List.foldl_cons, List.foldl_nil]
  rfl

theorem hart_snoc_of_inactive {k e : Nat} (ac : active (me s) p.mask k e = false) (done : List (Nat × Nat)) :
    p.hart s (done ++ [(k, e)]) = p.hart s done := by
  have places : activeIn s p.mask (done ++ [(k, e)]) = activeIn s p.mask done := by
    simp [activeIn, List.filter_append, ac]
  rw [hart, places, hart]

variable {s}

/-! ### In the midst of the sweep -/

theorem swept_snoc_of_inactive {u : State} (done : List (Nat × Nat)) {k e : Nat} (ac : active (me s) p.mask k e = false) :
    p.swept s u (done ++ [(k, e)]) = p.swept s u done := by rw [swept, p.hart_snoc_of_inactive s ac, swept]

section
variable {u : State} (c : u.cur = s.cur) (done : List (Nat × Nat))
include c

theorem me_swept : me (p.swept s u done) = p.hart s done := me_setHart_of_cur c _

theorem active_swept (mask : MaskSel) (k e : Nat) : active (me (p.swept s u done)) mask k e = active (me s) mask k e := by
  rw [p.me_swept c]
  exact active_congr (p.hart_masks s done) mask k e

theorem modMe_swept (f : Hart → Hart) : modMe f (p.swept s u done) = setHart s.cur (f (p.hart s done)) u := by
  unfold modMe modHart
  have m := p.me_swept c done
  unfold me at m
  rw [m, swept, setHart_cur, c, setHart_setHart]

/-- An active element that is written, with its flags. -/
theorem put_swept {k e : Nat} (ac : active (me s) p.mask k e = true) :
    addFl (p.val k e).2 (setVElem p.vd.toNat k e p.w (p.val k e).1 (p.swept s u done)) = p.swept s u (done ++ [(k, e)]) := by
  rw [addFl, setVElem, modMe_modMe, p.modMe_swept c, swept, p.hart_snoc_of_active s ac]
  rfl

theorem putIf_swept (k e : Nat) :
    putIf (active (me s) p.mask k e) p.vd k e p.w (p.val k e) (p.swept s u done) = p.swept s u (done ++ [(k, e)]) := by
  unfold putIf
  cases ac : active (me s) p.mask k e with
  | true => exact p.put_swept c done ac
  | false => exact (p.swept_snoc_of_inactive done ac).symm

theorem consume_swept (ub : Unbound s) (srcs : List Reg) : consume srcs (p.swept s u done) = p.swept s u done := by
  have none := (p.hart_binds s done).trans ub
  rw [consume, p.modMe_swept c, none, List.map_nil, ← none, swept]

/-- A sweep that is through: the instruction is complete. -/
theorem afterV_done_swept : afterV (.done (p.swept s u (sweepPlaces p.row s))) [] = p.complete s u := by
  rw [afterV_done, p.modMe_swept c, complete]

/-- A source that is not the destination, or is read in its width, still holds what it held at the places to come. -/
theorem srcElem_swept (r : VecReady p.w p.row s) {place : Nat × Nat} {rest : List (Nat × Nat)}
    (split : sweepPlaces p.row s = done ++ place :: rest) {v : Reg} {o : Opd} (width : v = p.vd → o.bits = p.w) (x : LCtx) :
    srcElem x v o place.1 place.2 (p.swept s u done) =
      .ok (vElem (me s) v.toNat place.1 place.2 o.bits, 0) (p.swept s u done) := by
  obtain ⟨-, ub, -, -⟩ := id r
  have free : bindingOf (p.hart s done) v.toNat = none := by
    rw [bindingOf, (p.hart_binds s done).trans ub, List.find?_nil]
  have nd := nodup_sweepPlaces p.row s
  rw [split] at nd
  have fresh : place ∉ done := fun h => (List.nodup_append.mp nd).2.2 place h place List.mem_cons_self rfl
  have inside (q : Nat × Nat) (h : q ∈ activeIn s p.mask done) : q.1 < 8 ∧ (q.2 + 1) * p.w ≤ 16384 :=
    r.bounds (split ▸ List.mem_append_left _ (List.mem_of_mem_filter h))
  have here := (r.bounds (p := place) (split ▸ List.mem_append_right _ List.mem_cons_self)).1
  have held : vElem (p.hart s done) v.toNat place.1 place.2 o.bits = vElem (me s) v.toNat place.1 place.2 o.bits := by
    refine (vElem_putElems_other p.val inside here (fun h => fresh (List.mem_of_mem_filter h))
      (fun h => width (BitVec.eq_of_toNat_eq h)) _).trans ?_
    rw [me_retire]
    rfl
  unfold srcElem
  rw [p.me_swept c, free, held]
end

/-! ### What the sweep leaves -/

theorem vElem_of_hart {t : State} (ht : (me t).r = (p.hart s (sweepPlaces p.row s)).r) (k e : Nat) :
    vElem (me t) p.vd.toNat k e p.w = vElem (p.hart s (sweepPlaces p.row s)) p.vd.toNat k e p.w := by
  rw [vElem, vRow_congr ht, vElem]

section
variable (r : VecReady p.w p.row s)
include r

theorem mem_places_iff {k e : Nat} :
    (k, e) ∈ activeIn s p.mask (sweepPlaces p.row s) ↔ InSweep p.row s k e ∧ active (me s) p.mask k e = true := by
  obtain ⟨-, -, -, fits⟩ := r
  rw [activeIn, List.mem_filter, mem_sweepPlaces_iff fits]

/-- Every element of the destination, when the sweep is through. -/
theorem vElem_hart {k e : Nat} (hk : k < 8) :
    vElem (p.hart s (sweepPlaces p.row s)) p.vd.toNat k e p.w =
      if (k, e) ∈ activeIn s p.mask (sweepPlaces p.row s) then (p.val k e).1 % 2 ^ p.w
      else vElem (me s) p.vd.toNat k e p.w := by
  have start : vElem (me (retire 8 s)) p.vd.toNat k e p.w = vElem (me s) p.vd.toNat k e p.w := by
    rw [me_retire]
    rfl
  rw [← start]
  exact vElem_putElems p.val (fun q h => r.bounds (List.mem_of_mem_filter h)) hk _

theorem elemsAre_of_hart (fits : ∀ k e, (p.val k e).1 < 2 ^ p.w) {t : State}
    (ht : (me t).r = (p.hart s (sweepPlaces p.row s)).r) :
    ElemsAre p.vd p.w p.row p.mask (fun k e => (p.val k e).1) s t := by
  intro k e hs
  rw [p.vElem_of_hart ht, p.vElem_hart r (inSweep_bounds r.2.2.1 r.2.2.2 hs).1, Nat.mod_eq_of_lt (fits k e)]
  simp only [p.mem_places_iff r, hs, true_and]

theorem tailSame_of_hart {t : State} (ht : (me t).r = (p.hart s (sweepPlaces p.row s)).r) : TailSame p.vd p.w p.row s t := by
  intro k e hk _ hs
  rw [p.vElem_of_hart ht, p.vElem_hart r hk, if_neg]
  exact fun h => hs ((p.mem_places_iff r).mp h).1

theorem flagsAre_of_hart {t : State} (ht : (me t).fflags = (p.hart s (sweepPlaces p.row s)).fflags) :
    FlagsAre p.row p.mask (fun k e => (p.val k e).2) s t := by
  intro i
  rw [ht, hart, getLsbD_joinFlags]
  refine or_congr_right ⟨?_, ?_⟩
  · rintro ⟨q, hq, bit⟩
    obtain ⟨place, ac⟩ := (p.mem_places_iff r).mp hq
    exact ⟨q.1, q.2, place, ac, bit⟩
  · rintro ⟨k, e, hs, ac, bit⟩
    exact ⟨(k, e), (p.mem_places_iff r).mpr ⟨hs, ac⟩, bit⟩
end

end ElemOp

/-- The sticky flags are in no frame. -/
theorem RegFrame.withFlags {gs : List Reg} {qs ms vs : List Nat} {s u : State} {y : Hart} (c : u.cur = s.cur)
    (h : RegFrame gs qs ms vs s (setHart s.cur y u)) (fl : Fl) :
    RegFrame gs qs ms vs s (setHart s.cur { y with fflags := fl } u) := by
  have hart (z : Hart) : me (setHart s.cur z u) = z := me_setHart_of_cur c z
  unfold RegFrame RegsSameBut gGet queueOfHart OtherHarts at h ⊢
  rw [hart] at h ⊢
  obtain ⟨regs, queues, masks, rows, vl, rc, traps, priv, acc, pc, vq, mq, pend, others⟩ := h
  refine ⟨regs, queues, masks, rows, vl, rc, traps, priv, acc, pc, vq, mq, pend, fun h hn => ?_⟩
  rw [← others h hn, hartOf_setHart_other hn, hartOf_setHart_other hn]

namespace ElemOp
variable (p : ElemOp) {s u : State} (r : VecReady p.w p.row s) (m : MemStep s u)
include r m

theorem complete_regFrame : RegFrame [] [] [] [p.vd.toNat] s (p.complete s u) := by
  have d : During s u { p.hart s (sweepPlaces p.row s) with fflags := (me s).fflags } := ⟨m, p.hart_vecOnly s _⟩
  refine (d.done_regFrame r.1 fun v k hk hn => ?_).withFlags m.cur _
  have inside (q : Nat × Nat) (h : q ∈ activeIn s p.mask (sweepPlaces p.row s)) := (r.bounds (List.mem_of_mem_filter h)).1
  refine (vRow_putElems_other p.val inside (List.ne_of_not_mem_cons hn) hk _).trans ?_
  rw [me_retire]
  rfl

/-- A complete sweep that left memory as it was is all that an element-wise instruction is. -/
theorem elementWise_of_complete (fits : ∀ k e, (p.val k e).1 < 2 ^ p.w) (mem : MemSame s u) {i : Instr}
    (run : exec i s = .next (p.complete s u)) : ElementWise i p.vd p.w p.row p.mask p.val s := by
  have hart : me (p.complete s u) = _ := me_setHart_of_cur m.cur _
  have regs := congrArg Hart.r hart
  have flags := congrArg Hart.fflags hart
  exact ⟨_, run, p.elemsAre_of_hart r fits regs, p.flagsAre_of_hart r flags, p.tailSame_of_hart r regs,
    p.complete_regFrame r m, mem⟩
end ElemOp

/-! ## The loop over the registers -/

section
variable {p : ElemOp} {s u : State} {e : QEntry} {body : Nat → Nat → State → MR Unit}
  (step : ∀ done place rest, sweepPlaces p.row s = done ++ place :: rest →
    body place.1 place.2 (p.swept s u done) = .ok () (p.swept s u (done ++ [place])))
include step

/-- A sweep whose every element completes is through. -/
theorem elemRun_swept (first : e.vstart = 0) (fs : State → Nat → Nat → Flt → FaultStream)
    (hang : State → Nat → Option PendTrap) (fin : State → LRes) {done rest : List (Nat × Nat)} (split : sweepPlaces p.row s = done ++ rest) :
    elemRun e body fs hang fin rest (p.swept s u done) = fin (p.swept s u (sweepPlaces p.row s)) := by
  induction rest generalizing done with
  | nil => rw [elemRun_nil, split, List.append_nil]
  | cons place rest ih =>
    have now := step done place rest split
    rw [elemRun, first, if_neg (Nat.not_lt_zero _), now]
    exact ih (by rw [split, List.append_assoc, List.singleton_append])

theorem sweepRegs_swept {k : Check} {i : Instr} (ctx : e.ctx = (issued k i s).ctx) (first : e.vstart = 0) (c : u.cur = s.cur)
    (ub : Unbound s) (srcs : List Reg) :
    sweepRegs e p.row srcs body (p.swept s u []) = .done (p.swept s u (sweepPlaces p.row s)) := by
  have places : tileOf e.ctx (rowsOf e.ctx p.row) = sweepPlaces p.row s := by rw [ctx]; rfl
  rw [sweepRegs, elemLoop, ctx, due_issued, ← ctx, places, elemRun_swept step first _ _ _ rfl]
  exact congrArg LRes.done (p.consume_swept c _ ub srcs)
end

/-! ## The checks of an instruction whose source may be of another width (R203, R224) -/

theorem widthCheck_passes {src dst : Nat} {vd va : Reg} {row : Option (BitVec 3)} {s : State}
    (r : VecReady (max src dst) row s) (apart : src ≠ dst → vd ≠ va) : Passes (widthCheck src dst vd va row) s := by
  obtain ⟨q, ub, -, fit, rows⟩ := r
  have clear : (if src = dst then [] else [va]).contains vd = false := by
    split
    · rfl
    · next ne => simpa using apart ne
  have free := boundAhead_of_unbound q ub vd.toNat
  have room : ¬ (me s).vgrant * 256 * 8 < (me s).vl * max src dst := by omega
  unfold Passes Check.reason
  simp only [widthCheck, Check.none, List.any_cons, List.any_nil, clear, free, room, Bool.or_self, Bool.false_eq_true, if_false]
  cases row with
  | none => rfl
  | some n => exact if_neg (Nat.not_le.mpr (rows n rfl))

end Sys2Proof.Machine

/-! Family 05, statistics records: VQNT and VDQNT with a record (R154 to R157, R361, R362). -/

namespace Sys2Proof.Machine

/-! ## An imprecise trap at the end of a performance -/

/-- A trap recorded while none is pending is pending, and a hart that was parked runs (R57, R344). -/
theorem setPend_of_none {h : Nat} {s : State} (none : (hartOf s h).pend = none) (p : PendTrap) :
    ∃ run, setPend h p s = modHart h (fun x => { x with run := run, pend := some p, pendAge := 0 }) s := by
  unfold setPend wake
  rw [none]
  dsimp only
  split
  · exact ⟨.running, modHart_modHart ..⟩
  · refine ⟨(hartOf s h).run, ?_⟩
    unfold modHart
    rfl

theorem afterV_done_keeps (s : State) :
    (me (afterV (.done s) [])).pend = (me s).pend ∧ (me (afterV (.done s) [])).r = (me s).r := by
  rw [afterV_done, me_modMe]
  exact ⟨rfl, rfl⟩

/-- A vector instruction that raises a trap has it pending, and has changed no register and no memory since. -/
theorem afterV_fault {s : State} (none : (me s).pend = none) (e : QEntry) (p : PendTrap) :
    let t := afterV (.fault e p s) []
    (me t).pend = some p ∧ (me t).r = (me s).r ∧ t.mem = s.mem := by
  have kept : (hartOf (modMe (fun x => { x with vq := [e], stallV := .none }) s) s.cur).pend = .none := by
    rw [modMe, hartOf_modHart_same]
    exact none
  obtain ⟨run, stop⟩ := setPend_of_none kept p
  have whole : afterV (.fault e p s) [] =
      modMe (fun x => { x with vq := [e], stallV := .none, run := run, pend := some p, pendAge := 0 }) s :=
    stop.trans (modHart_modHart ..)
  intro t
  have ht : t = _ := whole
  rw [ht, me_modMe]
  exact ⟨rfl, rfl, modMe_mem ..⟩

/-! ## The anemometer at a record (R30, R34) -/

section
variable {s : State} {die part i : Nat}

theorem recAllowed_of_read (read : recCode s die part i .read = 0) (va : Nat) :
    recAllowed die part i false va s = .ok () s := by
  unfold recAllowed
  rw [read]
  rfl

theorem recAllowed_of_write (read : recCode s die part i .read = 0) (write : recCode s die part i .write = 0) (va : Nat) :
    recAllowed die part i true va s = .ok () s := by
  unfold recAllowed
  rw [read, write]
  rfl

theorem recAllowed_of_denied (denied : recCode s die part i .read ≠ 0) (wr : Bool) (va : Nat) :
    recAllowed die part i wr va s = .bad (accessFlt va (recCode s die part i .read))
      (logDenial s (anemMaster die) 127 (recAddr s part i) .read (recCode s die part i .read)) := if_pos denied

/-- The state with OVS set in a record (R156). -/
def withOvs (part i : Nat) (s : State) : State := rawWrite (recAddr s part i + 0x18) 4 (recCtl s part i ||| 2 ^ 13) s

theorem setOvs_setHart (read : recCode s die part i .read = 0) (write : recCode s die part i .write = 0) (h : Nat) (x : Hart) :
    setOvs die part i (setHart h x s) = .ok () (setHart h x (withOvs part i s)) := by
  rw [setOvs, recAllowed_setHart, recAllowed_of_write read write]
  rfl
end

section
variable {s : State} {r : Nat}

/-- A long instruction goes on with a record that its die's anemometer may read. -/
theorem withRecord_of_read (read : recCode s (dieNo s.cur) (me s).part.toNat r .read = 0) (e : QEntry)
    (k : State → LRes) :
    withRecord e r k (retire 8 s) = k (retire 8 s) := by
  have allowed : recAllowed (dieNo s.cur) (me s).part.toNat r false r (retire 8 s) = .ok () (retire 8 s) := by
    rw [retire_eq_setHart, recAllowed_setHart, recAllowed_of_read read]
    rfl
  unfold withRecord
  rw [retire_cur, me_retire]
  dsimp only
  rw [allowed]

theorem withRecord_of_denied (denied : recCode s (dieNo s.cur) (me s).part.toNat r .read ≠ 0) (e : QEntry)
    (k : State → LRes) :
    ∃ u, withRecord e r k (retire 8 s) =
        stopAt e 0 (accessFlt r (recCode s (dieNo s.cur) (me s).part.toNat r .read)) { noStream with fstream := 1 } u ∧
      me u = me (retire 8 s) ∧ u.mem = s.mem := by
  refine ⟨logDenial (retire 8 s) (anemMaster (dieNo s.cur)) 127 (recAddr s (me s).part.toNat r) .read
    (recCode s (dieNo s.cur) (me s).part.toNat r .read), ?_, rfl, rfl⟩
  have refused : recAllowed (dieNo s.cur) (me s).part.toNat r false r (retire 8 s) =
      .bad (accessFlt r (recCode s (dieNo s.cur) (me s).part.toNat r .read))
        (logDenial (retire 8 s) (anemMaster (dieNo s.cur)) 127 (recAddr s (me s).part.toNat r) .read
          (recCode s (dieNo s.cur) (me s).part.toNat r .read)) := by
    rw [retire_eq_setHart, recAllowed_setHart, recAllowed_of_denied denied]
    rfl
  unfold withRecord
  rw [retire_cur, me_retire]
  dsimp only
  rw [refused]
end

/-! ## A loop that carries numbers -/

section
variable {e : QEntry} {srcs : List Reg} {all : List (Nat × Nat)} {body : Nat → Nat → List Nat → State → MR (List Nat)}
  {fin : List Nat → State → LRes} (first : e.vstart = 0)
include first

theorem keepRun_cons_ok {place : Nat × Nat} {rest : List (Nat × Nat)} {kept kept' : List Nat} {s t : State}
    (h : body place.1 place.2 kept s = .ok kept' t) :
    keepRun e srcs all body fin (place :: rest) kept s = keepRun e srcs all body fin rest kept' t := by
  rw [keepRun, first, if_neg (Nat.not_lt_zero _), h]

/-- A stretch of the sweep in which nothing that is carried changes. -/
theorem keepRun_stretch {p : ElemOp} {s u : State} {kept : List Nat} {l rest done : List (Nat × Nat)}
    (split : sweepPlaces p.row s = done ++ (l ++ rest))
    (step : ∀ done place rest, sweepPlaces p.row s = done ++ place :: rest → place ∈ l →
      body place.1 place.2 kept (p.swept s u done) = .ok kept (p.swept s u (done ++ [place]))) :
    keepRun e srcs all body fin (l ++ rest) kept (p.swept s u done) =
      keepRun e srcs all body fin rest kept (p.swept s u (done ++ l)) := by
  induction l generalizing done with
  | nil => rw [List.nil_append, List.append_nil]
  | cons place l ih =>
    have now := step done place (l ++ rest) split List.mem_cons_self
    have later := ih (done := done ++ [place]) (by rw [split, List.append_assoc]; rfl)
      fun done q rest h hq => step done q rest h (List.mem_cons_of_mem _ hq)
    rw [List.append_assoc, List.singleton_append] at later
    exact (keepRun_cons_ok first now).trans later
end

/-! ## VQNT -/

theorem or_noFlags (fl : Fl) : fl ||| 0 = fl := BitVec.or_zero

/-- What VQNT does at an element of the record `r`. -/
def vqntElem (o : QntOp) (c : LCtx) (part r k i : Nat) (kept : List Nat) (s : State) : MR (List Nat) :=
  mbind (srcElem c o.va (.flt o.src.toNat o.rnd.toNat o.sat) k i s) fun a s =>
    if active (me s) o.mask k i then
      let q := quantize o.dst.toNat o.rnd.toNat (decodeF fp32 (kept.getD 0 0)) (decodeF (f012 (o.src.truncate 2)) a.1)
      let s := addFl (q.2.1 ||| a.2) (setVElem o.vd.toNat k i (bitsFmt o.dst.toNat) q.1 s)
      if q.2.2 && kept.getD 2 0 == 0 then
        mbind (setOvs (dieNo s.cur) part r s) fun _ s => .ok [kept.getD 0 0, kept.getD 1 0, sweepIx c k i + 1] s
      else .ok kept s
    else .ok kept s

/-- The RESCALE of a VQNT whose first overflow has the sweep index `ix` (R157). -/
def rescaleTrap (c : LCtx) (r ix : Nat) : PendTrap :=
  { flt := rescaleFlt r, lpc := c.pc, elem := ix, stream := 1, fs := { noStream with fstream := 1 } }

/-- How VQNT ends: with RESCALE where an element has overflowed and TE was set (R157). -/
def vqntEnd (o : QntOp) (e : QEntry) (r : Nat) (kept : List Nat) (s : State) : LRes :=
  if kept.getD 2 0 ≠ 0 ∧ kept.getD 1 0 = 1 then
    .fault { e with vstart := tileSize e.ctx, kept := [kept.getD 0 0, 0, 0] } (rescaleTrap e.ctx r (kept.getD 2 0 - 1)) s
  else .done (consume [o.va] s)

/-- The scale of R155 for the record that VQNT names. -/
def vqntScale (o : QntOp) (s : State) : Nat :=
  recordScale (seenAbsmax s (dieNo s.cur) (me s).part.toNat (gGet o.gb s).toNat) o.dst.toNat

/-- What VQNT makes of an element: its code, its flags, and whether it overflows. -/
def vqntVal (o : QntOp) (s : State) (k e : Nat) : Nat × Fl × Bool :=
  quantize o.dst.toNat o.rnd.toNat (decodeF fp32 (vqntScale o s))
    (decodeFmt o.src.toNat (vElem (me s) o.va.toNat k e (bitsFmt o.src.toNat)))

/-- VQNT as an element-wise instruction. -/
def vqntOp (o : QntOp) (s : State) : ElemOp :=
  ⟨o.vd, bitsFmt o.dst.toNat, qntRow o, o.mask, fun k e => ((vqntVal o s k e).1, (vqntVal o s k e).2.1)⟩

/-- An active element that overflows (R156). -/
def overflows (o : QntOp) (s : State) (place : Nat × Nat) : Bool :=
  active (me s) o.mask place.1 place.2 && (vqntVal o s place.1 place.2).2.2

/-- The queue entry of a VQNT or a VDQNT at its push. -/
def qntEntry (o : QntOp) (i : Instr) (s : State) : QEntry := issued (qntCheck o) i s

theorem vecReady_of_quantReady {o : QntOp} {s : State} (h : QuantReady o s) : VecReady (bitsFmt o.dst.toNat) (qntRow o) s :=
  h.1.mono (Nat.le_max_right ..)

theorem passes_of_quantReady {o : QntOp} {s : State} (h : QuantReady o s) : Passes (qntCheck o) s := widthCheck_passes h.1 h.2

/-- The source is another register, or as wide as the destination. -/
theorem bits_eq_of_quantReady {o : QntOp} {s : State} (h : QuantReady o s) (same : o.va = o.vd) :
    bitsFmt o.src.toNat = bitsFmt o.dst.toNat := by
  by_contra ne
  exact h.2 ne same.symm

theorem exec_vqnt {s : State} {o : QntOp} (h : QuantReady o s) :
    exec (.vqnt o) s = .next (afterV (perfVqnt o (qntEntry o (.vqnt o) s) (retire 8 s)) []) :=
  congrArg Host.Outcome.next (issueV_of_quiet h.1.1 (passes_of_quantReady h) (.vqnt o) (perfVqnt o))

theorem exec_vdqnt {s : State} {o : QntOp} (h : QuantReady o s) (sc : Bool) :
    exec (.vdqnt sc o) s = .next (afterV (perfVdqnt sc o (qntEntry o (.vdqnt sc o) s) (retire 8 s)) []) :=
  congrArg Host.Outcome.next (issueV_of_quiet h.1.1 (passes_of_quantReady h) (.vdqnt sc o) (perfVdqnt sc o))

/-- The record that the instruction names is present, and the anemometer of its die may read it (R30, R361). -/
structure RecordReadable (o : QntOp) (s : State) : Prop where
  present : recPresent s (me s).part.toNat (gGet o.gb s).toNat = true
  read : recCode s (dieNo s.cur) (me s).part.toNat (gGet o.gb s).toNat .read = 0

/-- TE of the record that VQNT names (R157). -/
def vqntTe (o : QntOp) (s : State) : Nat := bitsOf (recCtl s (me s).part.toNat (gGet o.gb s).toNat) 12 1

/-- The entry of a VQNT that has read its record (R154). -/
def vqntEntry (o : QntOp) (s : State) : QEntry := { qntEntry o (.vqnt o) s with kept := [vqntScale o s, vqntTe o s, 0] }

/-- The sweep of a VQNT that was pushed in `s`. -/
def vqntRun (o : QntOp) (s : State) : List (Nat × Nat) → List Nat → State → LRes :=
  keepRun (vqntEntry o s) [o.va] (sweepPlaces (qntRow o) s)
    (vqntElem o (vqntEntry o s).ctx (me s).part.toNat (gGet o.gb s).toNat)
    (fun kept => vqntEnd o { vqntEntry o s with kept := kept } (gGet o.gb s).toNat kept)

/-- VQNT with a record that it may read sweeps with the scale, TE and no overflow yet. -/
theorem perfVqnt_of_read {s : State} {o : QntOp} (rec : RecordReadable o s) :
    perfVqnt o (qntEntry o (.vqnt o) s) (retire 8 s) =
      vqntRun o s (sweepPlaces (qntRow o) s) [vqntScale o s, vqntTe o s, 0] ((vqntOp o s).swept s s []) := by
  have there : recPresent (retire 8 s) (me s).part.toNat (gGet o.gb s).toNat = true := rec.present
  have record : cg (qntEntry o (.vqnt o) s).ctx o.gb = (gGet o.gb s).toNat := cg_issued ..
  have part : (me (retire 8 s)).part = (me s).part := by rw [me_retire]
  rw [ElemOp.swept_nil, ← retire_eq_setHart, perfVqnt, record, part]
  dsimp only
  rw [there, withRecord_of_read rec.read]
  rfl

section
variable {o : QntOp} {s u : State} (ready : QuantReady o s) (src : o.src = 0 ∨ o.src = 1 ∨ o.src = 2) (c : u.cur = s.cur)
  {done rest : List (Nat × Nat)} {place : Nat × Nat} (split : sweepPlaces (qntRow o) s = done ++ place :: rest)
  (x : LCtx) (part r te n : Nat)
include ready src c split

/-- VQNT at a place from the state before the instruction. -/
theorem vqntElem_swept :
    vqntElem o x part r place.1 place.2 [vqntScale o s, te, n] ((vqntOp o s).swept s u done) =
      if overflows o s place && n == 0 then
        mbind (setOvs (dieNo s.cur) part r ((vqntOp o s).swept s u (done ++ [place]))) fun _ s' =>
          .ok [vqntScale o s, te, sweepIx x place.1 place.2 + 1] s'
      else .ok [vqntScale o s, te, n] ((vqntOp o s).swept s u (done ++ [place])) := by
  have elem := (vqntOp o s).srcElem_swept c done (vecReady_of_quantReady ready) split (v := o.va)
    (o := .flt o.src.toNat o.rnd.toNat o.sat) (bits_eq_of_quantReady ready) x
  have value : quantize o.dst.toNat o.rnd.toNat (decodeF fp32 (vqntScale o s)) (decodeF (f012 (o.src.truncate 2))
      (vElem (me s) o.va.toNat place.1 place.2 (bitsFmt o.src.toNat))) = vqntVal o s place.1 place.2 := by
    rw [vqntVal, decodeFmt_of_fmtOf (fmtOf_f012 src)]
  rw [vqntElem, elem, mbind, (vqntOp o s).active_swept c]
  cases ac : active (me s) o.mask place.1 place.2 with
  | false =>
    have none : overflows o s place = false := by rw [overflows, ac, Bool.false_and]
    rw [(vqntOp o s).swept_snoc_of_inactive done ac, none]
    rfl
  | true =>
    have flag : overflows o s place = (vqntVal o s place.1 place.2).2.2 := by rw [overflows, ac, Bool.true_and]
    have put : addFl (vqntVal o s place.1 place.2).2.1 (setVElem o.vd.toNat place.1 place.2 (bitsFmt o.dst.toNat)
        (vqntVal o s place.1 place.2).1 ((vqntOp o s).swept s u done)) = (vqntOp o s).swept s u (done ++ [place]) :=
      (vqntOp o s).put_swept c done ac
    have cur : ((vqntOp o s).swept s u (done ++ [place])).cur = s.cur := c
    simp only [List.getD_cons_zero, List.getD_cons_succ, Opd.bits, if_true, value, flag, or_noFlags, put, cur]

/-- An element that does not overflow, or is not the first to, leaves what VQNT carries. -/
theorem vqntElem_passed (passed : overflows o s place = false ∨ n ≠ 0) :
    vqntElem o x part r place.1 place.2 [vqntScale o s, te, n] ((vqntOp o s).swept s u done) =
      .ok [vqntScale o s, te, n] ((vqntOp o s).swept s u (done ++ [place])) := by
  rw [vqntElem_swept ready src c split, if_neg]
  rcases passed with h | h <;> simp [h]
end

/-- The first of the places that overflow. -/
theorem exists_first_overflow {o : QntOp} {s : State} {l : List (Nat × Nat)} (h : ∃ place ∈ l, overflows o s place = true) :
    ∃ before place behind, l = before ++ place :: behind ∧ overflows o s place = true ∧
      ∀ q ∈ before, overflows o s q = false := by
  obtain ⟨place, found⟩ := Option.isSome_iff_exists.mp (List.find?_isSome.mpr h)
  obtain ⟨spills, before, behind, split, none⟩ := List.find?_eq_some_iff_append.mp found
  exact ⟨before, place, behind, split, spills, fun q hq => by simpa using none q hq⟩

/-- The first element that overflows is noted, and sets OVS in the record. -/
theorem vqntElem_first {o : QntOp} {s : State} (ready : QuantReady o s) (src : o.src = 0 ∨ o.src = 1 ∨ o.src = 2)
    {done rest : List (Nat × Nat)} {place : Nat × Nat} (split : sweepPlaces (qntRow o) s = done ++ place :: rest) {part r : Nat}
    (read : recCode s (dieNo s.cur) part r .read = 0) (write : recCode s (dieNo s.cur) part r .write = 0)
    (h : overflows o s place = true) (x : LCtx) (te : Nat) :
    vqntElem o x part r place.1 place.2 [vqntScale o s, te, 0] ((vqntOp o s).swept s s done) =
      .ok [vqntScale o s, te, sweepIx x place.1 place.2 + 1] ((vqntOp o s).swept s (withOvs part r s) (done ++ [place])) := by
  have ovs := setOvs_setHart read write s.cur ((vqntOp o s).hart s (done ++ [place]))
  rw [vqntElem_swept ready src rfl split, h, ElemOp.swept, ovs]
  rfl

/-- Elements that VQNT passes one after another. -/
theorem vqntRun_stretch {o : QntOp} {s u : State} (ready : QuantReady o s) (src : o.src = 0 ∨ o.src = 1 ∨ o.src = 2)
    (c : u.cur = s.cur) {done l rest : List (Nat × Nat)} (split : sweepPlaces (qntRow o) s = done ++ (l ++ rest)) {te n : Nat}
    (passed : (∀ place ∈ l, overflows o s place = false) ∨ n ≠ 0) :
    vqntRun o s (l ++ rest) [vqntScale o s, te, n] ((vqntOp o s).swept s u done) =
      vqntRun o s rest [vqntScale o s, te, n] ((vqntOp o s).swept s u (done ++ l)) := by
  refine keepRun_stretch (p := vqntOp o s) rfl split fun done place rest h hl => ?_
  exact vqntElem_passed ready src c h _ _ _ _ _ (passed.imp_left fun none => none place hl)

theorem quantized_lt (o : QntOp) (s : State) (k e : Nat) : ((vqntOp o s).val k e).1 < 2 ^ (vqntOp o s).w := quantize_lt ..

theorem mem_overflows_iff {o : QntOp} {s : State} (ready : QuantReady o s) {k e : Nat} :
    (k, e) ∈ sweepPlaces (qntRow o) s ∧ overflows o s (k, e) = true ↔
      InSweep (qntRow o) s k e ∧ active (me s) o.mask k e = true ∧ (vqntVal o s k e).2.2 = true := by
  obtain ⟨⟨-, -, -, fits⟩, -⟩ := ready
  rw [mem_sweepPlaces_iff fits, overflows, Bool.and_eq_true]

theorem vqntTe_eq (o : QntOp) (s : State) :
    vqntTe o s = if (recCtl s (me s).part.toNat (gGet o.gb s).toNat).testBit 12 then 1 else 0 := by
  rw [vqntTe, bitsOf, Nat.pow_one, Nat.testBit_eq_decide_div_mod_eq]
  rcases Nat.mod_two_eq_zero_or_one (recCtl s (me s).part.toNat (gGet o.gb s).toNat / 2 ^ 12) with te | te <;> rw [te] <;> rfl

/-- The state with OVS set in the record that VQNT names. -/
def vqntOvs (o : QntOp) (s : State) : State := withOvs (me s).part.toNat (gGet o.gb s).toNat s

theorem vqntOvs_cur (o : QntOp) (s : State) : (vqntOvs o s).cur = s.cur := rfl

section
variable {o : QntOp} {s : State} (ready : QuantReady o s) (src : o.src = 0 ∨ o.src = 1 ∨ o.src = 2)
  (rec : RecordReadable o s)
include ready src rec

/-- Without an overflow VQNT is element-wise. -/
theorem vqnt_elementWise (none : ∀ place ∈ sweepPlaces (qntRow o) s, overflows o s place = false) :
    ElementWise (.vqnt o) o.vd (bitsFmt o.dst.toNat) (qntRow o) o.mask (vqntOp o s).val s := by
  have dst : VecReady (vqntOp o s).w (vqntOp o s).row s := vecReady_of_quantReady ready
  have sweep := vqntRun_stretch ready src rfl (u := s) (done := []) (l := sweepPlaces (qntRow o) s) (rest := [])
    (te := vqntTe o s) (n := 0) (by rw [List.append_nil, List.nil_append]) (.inl none)
  rw [List.append_nil, List.nil_append] at sweep
  have ends : vqntRun o s [] [vqntScale o s, vqntTe o s, 0] ((vqntOp o s).swept s s (sweepPlaces (qntRow o) s)) =
      .done ((vqntOp o s).swept s s (sweepPlaces (qntRow o) s)) :=
    congrArg LRes.done ((vqntOp o s).consume_swept rfl _ dst.2.1 [o.va])
  refine (vqntOp o s).elementWise_of_complete dst (.refl s) (quantized_lt o s) (fun _ => rfl) ?_
  rw [exec_vqnt ready, perfVqnt_of_read rec, sweep, ends]
  exact congrArg _ ((vqntOp o s).afterV_done_swept rfl)

/-- With an overflow VQNT ends after its whole sweep, with OVS set in the record and its first overflow noted. -/
theorem exec_vqnt_of_overflow
    (write : recCode s (dieNo s.cur) (me s).part.toNat (gGet o.gb s).toNat .write = 0)
    {before behind : List (Nat × Nat)} {place : Nat × Nat} (split : sweepPlaces (qntRow o) s = before ++ place :: behind)
    (first : overflows o s place = true) (none : ∀ q ∈ before, overflows o s q = false) :
    let kept := [vqntScale o s, vqntTe o s, sweepIx (captureCtx s) place.1 place.2 + 1]
    exec (.vqnt o) s = .next (afterV (vqntEnd o { vqntEntry o s with kept := kept } (gGet o.gb s).toNat kept
      ((vqntOp o s).swept s (vqntOvs o s) (sweepPlaces (qntRow o) s))) []) := by
  intro kept
  have whole : sweepPlaces (qntRow o) s = (before ++ [place]) ++ (behind ++ []) := by simp [split]
  have start := vqntRun_stretch ready src rfl (u := s) (done := []) (l := before) (rest := place :: behind)
    (te := vqntTe o s) (n := 0) split (.inl none)
  have now := vqntElem_first ready src split rec.read write first (vqntEntry o s).ctx (vqntTe o s)
  have turn : vqntRun o s (place :: behind) [vqntScale o s, vqntTe o s, 0] ((vqntOp o s).swept s s before) =
      vqntRun o s behind kept ((vqntOp o s).swept s (vqntOvs o s) (before ++ [place])) :=
    keepRun_cons_ok rfl now
  have rest := vqntRun_stretch ready src (vqntOvs_cur o s) whole (te := vqntTe o s)
    (n := sweepIx (captureCtx s) place.1 place.2 + 1) (.inr (Nat.succ_ne_zero _))
  rw [List.append_nil] at rest whole
  rw [← whole] at rest
  rw [exec_vqnt ready, perfVqnt_of_read rec]
  nth_rw 1 [split]
  rw [start, List.nil_append, turn, rest]
  rfl

/-- With an overflow the elements are those of VQNT, and RESCALE is pending at the first that overflowed exactly when TE is set
(R157). -/
theorem vqnt_of_overflow
    (write : recCode s (dieNo s.cur) (me s).part.toNat (gGet o.gb s).toNat .write = 0)
    {before behind : List (Nat × Nat)} {place : Nat × Nat} (split : sweepPlaces (qntRow o) s = before ++ place :: behind)
    (first : overflows o s place = true) (none : ∀ q ∈ before, overflows o s q = false) :
    ∃ t, exec (.vqnt o) s = .next t ∧
      ElemsAre o.vd (bitsFmt o.dst.toNat) (qntRow o) o.mask (fun k e => (vqntVal o s k e).1) s t ∧
      (me t).pend = if (recCtl s (me s).part.toNat (gGet o.gb s).toNat).testBit 12 then
          some (rescaleTrap (captureCtx s) (gGet o.gb s).toNat (sweepIx (captureCtx s) place.1 place.2)) else .none := by
  have dst : VecReady (vqntOp o s).w (vqntOp o s).row s := vecReady_of_quantReady ready
  have run := exec_vqnt_of_overflow ready src rec write split first none
  dsimp only at run
  have cur := (vqntOvs_cur o s)
  have hart := (vqntOp o s).me_swept cur (sweepPlaces (qntRow o) s)
  have through := (vqntOp o s).consume_swept cur (sweepPlaces (qntRow o) s) dst.2.1 [o.va]
  generalize (vqntOp o s).swept s (vqntOvs o s) (sweepPlaces (qntRow o) s) = z
    at run hart through
  have quiet : (me z).pend = .none := by
    rw [hart, (vqntOp o s).hart_pend]
    exact dst.1.pend
  have elems {t : State} (regs : (me t).r = (me z).r) := (vqntOp o s).elemsAre_of_hart dst (quantized_lt o s)
    (regs.trans (congrArg Hart.r hart))
  have te := vqntTe_eq o s
  cases set : (recCtl s (me s).part.toNat (gGet o.gb s).toNat).testBit 12 with
  | false =>
    rw [set] at te
    rw [vqntEnd, if_neg (by simp [te]), through] at run
    obtain ⟨pend, regs⟩ := afterV_done_keeps z
    exact ⟨_, run, elems regs, pend.trans quiet⟩
  | true =>
    rw [set] at te
    rw [vqntEnd, if_pos (by simp [te])] at run
    obtain ⟨pend, regs, -⟩ := afterV_fault quiet
      { vqntEntry o s with vstart := tileSize (vqntEntry o s).ctx, kept := [vqntScale o s, 0, 0] }
      (rescaleTrap (captureCtx s) (gGet o.gb s).toNat (sweepIx (captureCtx s) place.1 place.2))
    exact ⟨_, run, elems regs, pend⟩
end

/-- No place that overflows lies before the first. -/
theorem first_overflow_le {o : QntOp} {s : State} {before behind : List (Nat × Nat)} {place q : Nat × Nat}
    (split : sweepPlaces (qntRow o) s = before ++ place :: behind) (none : ∀ q ∈ before, overflows o s q = false)
    (hq : q ∈ sweepPlaces (qntRow o) s) (spills : overflows o s q = true) :
    sweepIx (captureCtx s) place.1 place.2 ≤ sweepIx (captureCtx s) q.1 q.2 := by
  have sorted := sweepPlaces_sorted (qntRow o) s
  rw [split] at sorted hq
  have ordered := (List.pairwise_append.mp sorted).2.1
  rcases List.mem_append.mp hq with early | late
  · exact absurd ((none q early).symm.trans spills) (by decide)
  · rcases List.mem_cons.mp late with rfl | later
    · exact Nat.le_refl _
    · exact Nat.le_of_lt (List.rel_of_pairwise_cons ordered later)

/-! ## VDQNT -/

/-- What VDQNT makes of an element with the record's scale (R362). -/
def vdqntVal (o : QntOp) (s : State) (k e : Nat) : Nat × Fl :=
  dequantize o (decodeF fp32 (recordScale (seenAbsmax s (dieNo s.cur) (me s).part.toNat (gGet o.gb s).toNat) o.src.toNat))
    (vElem (me s) o.va.toNat k e (bitsFmt o.src.toNat))

/-- VDQNT as an element-wise instruction. -/
def vdqntOp (o : QntOp) (s : State) : ElemOp := ⟨o.vd, bitsFmt o.dst.toNat, qntRow o, o.mask, vdqntVal o s⟩

/-- What VDQNT does at an element with a scale. -/
def vdqntElem (o : QntOp) (c : LCtx) (scale k i : Nat) (s : State) : MR Unit :=
  mbind (srcElem c o.va (.flt o.src.toNat o.rnd.toNat o.sat) k i s) fun a s =>
    let q := dequantize o (decodeF fp32 scale) a.1
    .ok () (putIf (active (me s) o.mask k i) o.vd k i (bitsFmt o.dst.toNat) (q.1, q.2 ||| a.2) s)

/-- The record's scale where R155 gives its source a qmax, or ABSMAX is 0. -/
theorem dqntScale_eq {s : State} {part r src : Nat}
    (h : seenAbsmax s (dieNo s.cur) part r = 0 ∨ (src ≠ 6 ∧ src ≠ 8 ∧ src ≠ 11)) :
    dqntScale s part r src = recordScale (seenAbsmax s (dieNo s.cur) part r) src := by
  refine if_neg ?_
  omega

/-- The entry of a VDQNT that has read its record (R154). -/
def vdqntEntry (o : QntOp) (s : State) : QEntry :=
  { qntEntry o (.vdqnt false o) s with kept := [dqntScale s (me s).part.toNat (gGet o.gb s).toNat o.src.toNat] }

/-- VDQNT with a record that it may read sweeps with the scale. -/
theorem perfVdqnt_of_read {s : State} {o : QntOp} (rec : RecordReadable o s) :
    perfVdqnt false o (qntEntry o (.vdqnt false o) s) (retire 8 s) =
      sweepRegs (vdqntEntry o s) (qntRow o) [o.va]
        (vdqntElem o (vdqntEntry o s).ctx (dqntScale s (me s).part.toNat (gGet o.gb s).toNat o.src.toNat))
        ((vdqntOp o s).swept s (bump s) []) := by
  have there : recPresent (retire 8 s) (me s).part.toNat (gGet o.gb s).toNat = true := rec.present
  have record : cg (qntEntry o (.vdqnt false o) s).ctx o.gb = (gGet o.gb s).toNat := cg_issued ..
  have part : (me (retire 8 s)).part = (me s).part := by rw [me_retire]
  rw [ElemOp.swept_nil, ← bump_setHart, ← retire_eq_setHart, perfVdqnt, record, part]
  dsimp only
  rw [there, withRecord_of_read rec.read]
  rfl

section
variable {o : QntOp} {s : State} (ready : QuantReady o s)
  (known : seenAbsmax s (dieNo s.cur) (me s).part.toNat (gGet o.gb s).toNat = 0 ∨
    (o.src.toNat ≠ 6 ∧ o.src.toNat ≠ 8 ∧ o.src.toNat ≠ 11))
include ready known

/-- VDQNT at a place from the state before the instruction. -/
theorem vdqntElem_swept (x : LCtx) {done rest : List (Nat × Nat)} {place : Nat × Nat}
    (split : sweepPlaces (qntRow o) s = done ++ place :: rest) :
    vdqntElem o x (dqntScale s (me s).part.toNat (gGet o.gb s).toNat o.src.toNat) place.1 place.2
      ((vdqntOp o s).swept s (bump s) done) = .ok () ((vdqntOp o s).swept s (bump s) (done ++ [place])) := by
  have cur : (bump s).cur = s.cur := rfl
  have elem := (vdqntOp o s).srcElem_swept cur done (vecReady_of_quantReady ready) split (v := o.va)
    (o := .flt o.src.toNat o.rnd.toNat o.sat) (bits_eq_of_quantReady ready) x
  have put := (vdqntOp o s).putIf_swept cur done place.1 place.2
  rw [vdqntElem, elem, mbind, (vdqntOp o s).active_swept cur, dqntScale_eq known]
  dsimp only
  rw [or_noFlags]
  exact congrArg _ put

theorem vdqnt_elementWise (dst : o.dst = 0 ∨ o.dst = 1 ∨ o.dst = 2)
    (rec : RecordReadable o s) :
    ElementWise (.vdqnt false o) o.vd (bitsFmt o.dst.toNat) (qntRow o) o.mask (vdqntVal o s) s := by
  have fit : VecReady (vdqntOp o s).w (vdqntOp o s).row s := vecReady_of_quantReady ready
  have cur : (bump s).cur = s.cur := rfl
  have codes (k e : Nat) : ((vdqntOp o s).val k e).1 < 2 ^ (vdqntOp o s).w := rounded_lt (fmtOf_f012 dst) ..
  have sweep := sweepRegs_swept (p := vdqntOp o s) (e := vdqntEntry o s) (k := qntCheck o) (i := .vdqnt false o)
    (fun _ _ _ split => vdqntElem_swept ready known (vdqntEntry o s).ctx split) rfl rfl cur fit.2.1 [o.va]
  refine (vdqntOp o s).elementWise_of_complete fit (bump_step s) codes (fun _ => rfl) ?_
  rw [exec_vdqnt ready, perfVdqnt_of_read rec]
  refine congrArg _ ((congrArg (afterV · []) sweep).trans ?_)
  exact (vdqntOp o s).afterV_done_swept cur
end

/-! ## Records that may not be used (R361) -/

/-- An instruction that takes a trap at element 0 with nothing written. -/
def StopsAtZero (i : Instr) (f : Flt) (s : State) : Prop :=
  ∃ t p, exec i s = .next t ∧ (me t).pend = some p ∧ p.flt = f ∧ p.elem = 0 ∧ (me t).r = (me s).r ∧ MemSame s t

/-- An instruction that stops at element 0 before it has written anything. -/
theorem stopsAtZero_of_stopAt {s u : State} {i : Instr} {e : QEntry} {f : Flt} {fs : FaultStream} (q : Quiet s)
    (run : exec i s = .next (afterV (stopAt e 0 f fs u) [])) (hart : me u = me (retire 8 s)) (mem : u.mem = s.mem) :
    StopsAtZero i f s := by
  have none : (me u).pend = .none := by
    rw [hart, me_retire]
    exact q.pend
  obtain ⟨pend, regs, kept⟩ := afterV_fault none { e with vstart := 0 }
    { flt := f, lpc := e.ctx.pc, elem := 0, stream := fs.fstream, fs := streamFor f fs }
  refine ⟨_, _, run, pend, rfl, rfl, regs.trans ?_, memSame_of_mem (kept.trans mem)⟩
  rw [hart, me_retire]

/-- Both record-scaled instructions begin alike: a record that is not present stops them, else their anemometer reads it. -/
theorem exec_recordScaled {o : QntOp} {s : State} (ready : QuantReady o s) {i : Instr}
    (hi : i ∈ [Instr.vqnt o, .vdqnt false o]) :
    ∃ go, exec i s = .next (afterV
      (if !recPresent s (me s).part.toNat (gGet o.gb s).toNat then
        noRecord (qntEntry o i s) (gGet o.gb s).toNat (retire 8 s)
      else withRecord (qntEntry o i s) (gGet o.gb s).toNat go (retire 8 s)) []) := by
  have record : cg (qntEntry o i s).ctx o.gb = (gGet o.gb s).toNat := cg_issued ..
  have part : (me (retire 8 s)).part = (me s).part := by rw [me_retire]
  have there : recPresent (retire 8 s) = recPresent s := rfl
  rcases List.mem_pair.mp hi with rfl | rfl
  · rw [exec_vqnt ready, perfVqnt, record, part, there]
    exact ⟨_, rfl⟩
  · rw [exec_vdqnt ready, perfVdqnt, record, part, there]
    exact ⟨_, rfl⟩

section
variable {o : QntOp} {s : State} (ready : QuantReady o s) {i : Instr} (hi : i ∈ [Instr.vqnt o, .vdqnt false o])
include ready hi

theorem stops_of_noRecord (absent : recPresent s (me s).part.toNat (gGet o.gb s).toNat = false) :
    StopsAtZero i (mkFlt 5 (gGet o.gb s).toNat 4) s := by
  obtain ⟨go, run⟩ := exec_recordScaled ready hi
  rw [absent] at run
  exact stopsAtZero_of_stopAt ready.1.1 run rfl rfl

theorem stops_of_denied (present : recPresent s (me s).part.toNat (gGet o.gb s).toNat = true)
    (denied : recCode s (dieNo s.cur) (me s).part.toNat (gGet o.gb s).toNat .read ≠ 0) :
    StopsAtZero i (mkFlt 5 (gGet o.gb s).toNat (recCode s (dieNo s.cur) (me s).part.toNat (gGet o.gb s).toNat .read)) s := by
  obtain ⟨go, run⟩ := exec_recordScaled ready hi
  obtain ⟨u, stop, hart, mem⟩ := withRecord_of_denied denied (qntEntry o i s) go
  rw [present, Bool.not_true, if_neg Bool.false_ne_true, stop] at run
  exact stopsAtZero_of_stopAt ready.1.1 run hart mem
end

/-- Settles O29: a sweep writes each place from what its source held before the instruction, for no place is visited twice; the
first place that overflows is that of the lowest sweep index, for the sweep goes in their order; and the OVS that it sets lies in
memory, which no later element reads. -/
theorem recordScales : Obligations.RecordScales := by
  intro s o ready part r absmax x q ovf may
  refine ⟨fun present read src => ⟨fun none => ?_, fun write some => ?_⟩, fun present read dst known => ?_,
    fun i hi => ⟨stops_of_noRecord ready hi, stops_of_denied ready hi⟩⟩
  · refine vqnt_elementWise ready src ⟨present, read⟩ fun place hp => ?_
    by_contra spills
    exact none ⟨place.1, place.2, (mem_overflows_iff ready).mp ⟨hp, Bool.eq_true_of_not_eq_false spills⟩⟩
  · obtain ⟨k, e, h⟩ := some
    obtain ⟨place, spills⟩ := (mem_overflows_iff ready).mpr h
    obtain ⟨before, first, behind, split, firstSpills, none⟩ := exists_first_overflow ⟨_, place, spills⟩
    obtain ⟨t, run, elems, pend⟩ := vqnt_of_overflow ready src ⟨present, read⟩ write split firstSpills none
    refine ⟨t, run, elems, fun te => ?_, fun te => ?_⟩
    · rw [pend, te]
      rfl
    · rw [if_pos te] at pend
      have inside : first ∈ sweepPlaces (qntRow o) s := split ▸ List.mem_append_right _ List.mem_cons_self
      have found := (mem_overflows_iff ready).mp ⟨inside, firstSpills⟩
      refine ⟨_, pend, rfl, rfl, ⟨first.1, first.2, found, rfl⟩, fun k e h => ?_⟩
      obtain ⟨place, spills⟩ := (mem_overflows_iff ready).mpr h
      exact first_overflow_le split none place spills
  · refine vdqnt_elementWise ready (known.imp_right ?_) dst ⟨present, read⟩
    rintro ⟨h6, h8, h11⟩
    exact ⟨fun h => h6 (BitVec.eq_of_toNat_eq h), fun h => h8 (BitVec.eq_of_toNat_eq h), fun h => h11 (BitVec.eq_of_toNat_eq h)⟩

end Sys2Proof.Machine

/-! Family 06, consistency model: FENCE and SBAR (R168, R171, R173, R216, R339, R340). -/

namespace Sys2Proof.Machine

/-! ## FENCE and SBAR -/

theorem retire_eq_afterScalar_zero (n : Word) (s : State) : retire n s = afterScalar n 0 0 0 s :=
  retire_setG_eq_afterScalar 0 0 n s

/-- The fetch unit of the current hart holds no line (R299). -/
def dropFetched (s : State) : State := modMe (fun x => { x with ibuf := [] }) s

/-- A FENCE of a quiet hart: the fetch unit's line is dropped, the scope is counted where it counts, the PC moves on. -/
theorem exec_fence_of_quiet {s : State} (q : Quiet s) (scope : BitVec 3) (acq rel : Bool) :
    exec (.fence scope acq rel) s =
      .next (retire 4 (clampScope (if acq && rel then 0 else scope.toNat) (dropFetched s))) :=
  congrArg Host.Outcome.next (sync_of_quiet q allStreams _)

/-- What a FENCE leaves of its hart, `n` what SCOPECL holds afterwards. -/
def fencedHart (n : Word) (x : Hart) : Hart :=
  { x with ibuf := [], scopecl := n, pc := x.pc + 4, stalled := 0, stallS := none, invWait := none }

/-- The count of a FENCE in SCOPECL (R171). -/
def scopeCount (scope : Nat) (s : State) : Word :=
  if scope = 6 ∧ (partOf s (me s).part.toNat).tenant = true then (me s).scopecl + 1 else (me s).scopecl

theorem fenced_eq (scope : Nat) (s : State) :
    retire 4 (clampScope scope (dropFetched s)) = modMe (fencedHart (scopeCount scope s)) s := by
  have hart : me (dropFetched s) = { me s with ibuf := [] } := me_modMe _ s
  have part : partOf (dropFetched s) = partOf s := rfl
  unfold clampScope scopeCount retire goto
  rw [hart, part]
  unfold dropFetched
  split
  · rw [modMe_modMe, modMe_modMe]
    exact modMe_congr _ _ _ (by simp only [me_modMe]; rfl)
  · rw [modMe_modMe]
    exact modMe_congr _ _ _ (by simp only [me_modMe]; rfl)

theorem orderingInstructions : OrderingInstructions := by
  intro s scope acq rel mask q one
  have named : (if acq && rel then 0 else scope.toNat) = scope.toNat := by
    rw [if_neg]
    simpa using one
  have six : scope.toNat = 6 ↔ scope = 6 := ⟨fun h => BitVec.eq_of_toNat_eq h, fun h => h ▸ rfl⟩
  have done := exec_fence_of_quiet q scope acq rel
  rw [named, fenced_eq] at done
  refine ⟨⟨_, done, ?_, ?_, ?_, memSame_of_mem (modMe_mem ..), fun h hn => hartOf_modMe_other _ _ hn, ?_⟩, ?_⟩
  · rw [me_modMe, fencedHart]
  · rw [me_modMe, fencedHart]
  · rw [me_modMe, fencedHart]
  · rw [me_modMe, fencedHart, scopeCount]
    simp only [six]
  · rw [← retire_eq_afterScalar_zero]
    exact congrArg Host.Outcome.next (sync_of_quiet q mask.toNat (retire 4))

/-- A hart's oldest waiting store goes to a line that an engine owns (R173). -/
def StoreIsHeld (s : State) : Prop :=
  ∃ c r, (me s).sbuf = c :: r ∧ ownedByOther s s.cur c.loc.global c.data.length = true

/-- A waiting store that an engine's line holds up holds up those behind it as well. -/
theorem drainStores_of_held {s : State} (h : StoreIsHeld s) : drainStores s.cur s = s := by
  obtain ⟨c, r, waiting, owned⟩ := h
  have waiting : (hartOf s s.cur).sbuf = c :: r := waiting
  rw [drainStores, waiting]
  exact if_pos owned

/-- A synchronising instruction waits where the stores it waits for cannot be performed and a stream that it names is busy. -/
theorem sync_of_busy {mask : Nat} {s : State} (pend : (me s).pend = none)
    (still : mask.testBit 0 = true → drainStores s.cur s = s) (h : busy mask s = true) (k : State → State) :
    sync mask k s = s := by
  have stores : (if mask.testBit 0 then drainStores s.cur s else s) = s := by
    split
    · exact still ‹_›
    · rfl
  unfold sync
  rw [stores]
  dsimp only
  rw [pend, h]
  rfl

theorem busy_iff (mask : Nat) (s : State) :
    busy mask s = true ↔ (mask.testBit 0 = true ∧ (me s).sbuf ≠ []) ∨
      (∃ e ∈ (me s).vq, mask.testBit (streamOf e.instr) = true ∨ mask.testBit 5 = true) ∨
      (∃ e ∈ (me s).mq, mask.testBit 2 = true ∨ mask.testBit 5 = true ∧ readsV e.instr = true) ∨
      ∃ c ∈ cmdsOf s s.cur, mask.testBit c.stream = true := by
  simp only [busy, Bool.or_eq_true, Bool.and_eq_true, List.any_eq_true, Bool.not_eq_true', List.isEmpty_eq_false_iff, or_assoc]

theorem sbarWaits : SbarWaits := by
  intro s mask pend held still work
  have stays : mask.toNat.testBit 0 = true → drainStores s.cur s = s := by
    intro named
    rcases still with unnamed | empty | held
    · cases unnamed.symm.trans named
    · exact drainStores_of_none empty
    · exact drainStores_of_held held
  refine congrArg Host.Outcome.next (sync_of_busy pend stays ((busy_iff _ s).mpr ?_) (retire 4))
  rcases work with ⟨named, c, r, waiting, -⟩ | ⟨named, queued⟩ | ⟨c, there, stream, named⟩ | ⟨e, there, stream, named⟩
  · exact .inl ⟨named, waiting ▸ List.cons_ne_nil c r⟩
  · obtain ⟨e, there⟩ := List.exists_mem_of_ne_nil _ queued
    exact .inr (.inr (.inl ⟨e, there, .inl named⟩))
  · exact .inr (.inr (.inr ⟨c, there, stream ▸ named⟩))
  · exact .inr (.inl ⟨e, there, .inl (stream ▸ named)⟩)

/-- Settles O12: no stream of a quiet hart is busy, so what a synchronising instruction does it does at once; and where work of a
stream that SBAR names is left, no store is performed that would change the state before SBAR waits. -/
theorem orderingAndWaiting : Obligations.OrderingAndWaiting := ⟨orderingInstructions, sbarWaits⟩

end Sys2Proof.Machine

/-! Family 06, consistency model: what the accesses of gathers, scatters and atomics see of the state: nothing of their hart's
registers, and, where they succeed, nothing of the counter from which free values are drawn (log 2). -/

namespace Sys2Proof.Machine

/-! ## Accesses and the registers of harts -/

theorem vaPassWrite_step (w : Who) (va : Nat) (bs : List Byte) (s : State) : MemStep s (vaPassWrite w va bs s).st :=
  mbind_step (transFor_step _ _ _ _) fun _ _ _ => mbind_step (writeReach_step _ _ _ _ _) fun _ _ _ =>
    ite_step _ (.refl _) (noteWrite_step _ _ _ _)

section
variable {h : Nat} {x : Hart} {s : State} (k : LooksLike x (hartOf s h))
include k

theorem vaReadNum_setHart (w : Who) (va n : Nat) :
    vaReadNum w va n (setHart h x s) = (vaReadNum w va n s).onState (setHart h x) :=
  mbind_onState (vaRead_setHart k w va n) fun _ _ _ => rfl

theorem writeReach_setHart (w : Who) (va : Nat) (l : Loc) (bs : List Byte) :
    writeReach w va l bs (setHart h x s) = (writeReach w va l bs s).onState (setHart h x) :=
  mbind_onState (reach_setHart k w va l .write bs.length bs) fun _ _ _ =>
    mbind_onState (foldAllowed_setHart h x _ w va _) fun _ _ _ => rfl

theorem vaPassWrite_setHart (w : Who) (va : Nat) (bs : List Byte) :
    vaPassWrite w va bs (setHart h x s) = (vaPassWrite w va bs s).onState (setHart h x) :=
  mbind_onState (transFor_setHart h x s w va .write) fun l _ e =>
    mbind_onState (writeReach_setHart ((step_of_ok (transFor_step w va .write s) e).hartOf h ▸ k) w va l bs) fun _ u _ =>
      congrArg (MR.ok ()) (ite_map rfl (noteWrite_setHart h x u w l bs))

theorem atomicAt_setHart (w : Who) (va : Nat) (l : Loc) (n : Nat) (f : Nat → Option Nat) :
    atomicAt w va l n f (setHart h x s) = (atomicAt w va l n f s).onState (setHart h x) := by
  refine mbind_onState (reach_setHart k w va l .atomic n _) fun _ u e => ?_
  refine mbind_onState (foldAllowed_setHart h x u w va _) fun _ v e' => ?_
  have steps := (step_of_ok (reach_step ..) e).trans (step_of_ok (foldAllowed_step ..) e')
  have kv : LooksLike x (hartOf v h) := steps.hartOf h ▸ k
  refine ite_onState ?_ ?_
  · have old : mmioBytes (setHart h x v) l.a n = mmioBytes v l.a n := by rw [mmioBytes, mmioRead_setHart kv, mmioBytes]
    dsimp only
    rw [old]
    cases f (ofBytes (mmioBytes v l.a n)) with
    | none => rfl
    | some y => exact congrArg (MR.ok _) (ite_map rfl rfl)
  · have poison : firstPoison (setHart h x v) l.global n = firstPoison v l.global n := rfl
    rw [poison]
    cases firstPoison v l.global n with
    | some p => rfl
    | none =>
      have old : memBytes (setHart h x v) l.global n = memBytes v l.global n := rfl
      dsimp only
      rw [old]
      cases f (ofBytes (memBytes v l.global n)) with
      | none => exact congrArg (MR.ok _) (ite_map rfl rfl)
      | some y => exact congrArg (MR.ok _) (storeBytes_setHart h x v w l (toBytes n y))

theorem vaAtomic_setHart (w : Who) (va n : Nat) (f : Nat → Option Nat) :
    vaAtomic w va n f (setHart h x s) = (vaAtomic w va n f s).onState (setHart h x) :=
  mbind_onState (transFor_setHart h x s w va .atomic) fun l _ e =>
    atomicAt_setHart ((step_of_ok (transFor_step w va .atomic s) e).hartOf h ▸ k) w va l n f
end

/-! ## Writes and the counter of free values -/

/-- The state with the counter of free values at `n` (log 2). -/
def countAt (n : Nat) (s : State) : State := { s with fresh := n }

section
variable (n : Nat) (s : State)

theorem countAt_step : MemStep s (countAt n s) := ⟨rfl, id⟩

theorem regionSearch_countAt (t : Nat × Nat) (rights part page : Nat) (kind : AccKind) (m k : Nat) :
    regionSearch (countAt n s) t rights part page kind m k = regionSearch s t rights part page kind m k := by
  induction m generalizing k with
  | zero => rfl
  | succ m ih =>
    simp only [regionSearch, ih]
    rfl

theorem checkAt_countAt (t : Nat × Nat) (bar : Bool) (m p a : Nat) (kind : AccKind) :
    checkAt (countAt n s) t bar m p a kind = checkAt s t bar m p a kind := by
  simp only [checkAt, regionSearch_countAt]
  rfl

theorem checkLocal_countAt (m p a : Nat) (kind : AccKind) : checkLocal (countAt n s) m p a kind = checkLocal s m p a kind := by
  simp only [checkLocal, checkAt_countAt]
  rfl

theorem settleZero_countAt (a : Nat) : settleZero (countAt n s) a = countAt n (settleZero s a) := ite_map rfl rfl

theorem tableRead_countAt (w : Who) (va a : Nat) : tableRead w va a (countAt n s) = (tableRead w va a s).onState (countAt n) := by
  simp only [tableRead, checkLocal_countAt, settleZero_countAt]
  exact ite_onState rfl rfl

theorem walkLevels_countAt (w : Who) (va : Nat) (kind : AccKind) (m t : Nat) :
    walkLevels w va kind m t (countAt n s) = (walkLevels w va kind m t s).onState (countAt n) := by
  induction m generalizing t s with
  | zero => rfl
  | succ m ih =>
    exact mbind_onState (tableRead_countAt n s w va _) fun e u _ =>
      ite_onState rfl (ite_onState rfl (ite_onState rfl (ih _ _)))

theorem zeroPages_countAt (w : Who) (va f m : Nat) :
    zeroPages w va f m (countAt n s) = (zeroPages w va f m s).onState (countAt n) := by
  induction m generalizing s with
  | zero => rfl
  | succ m ih =>
    refine mbind_onState (ih s) fun _ u _ => ?_
    simp only [checkLocal_countAt]
    exact ite_onState rfl rfl

theorem updateAD_countAt (w : Who) (va lvl ea e : Nat) (kind : AccKind) :
    updateAD w va lvl ea e kind (countAt n s) = (updateAD w va lvl ea e kind s).onState (countAt n) := by
  refine ite_onState rfl (mbind_onState (ite_onState (zeroPages_countAt ..) rfl) fun _ u _ => ?_)
  simp only [checkLocal_countAt]
  exact ite_onState rfl (ite_onState rfl rfl)

theorem translateFrom_countAt (w : Who) (va : Nat) (kind : AccKind) (m : Nat) :
    translateFrom w va kind m (countAt n s) = (translateFrom w va kind m s).onState (countAt n) := by
  induction m generalizing s with
  | zero => rfl
  | succ m ih =>
    refine mbind_onState (walkLevels_countAt ..) fun p u _ => ite_onState rfl (ite_onState rfl ?_)
    split
    · rfl
    · refine mbind_onState (updateAD_countAt ..) fun e v _ => ?_
      cases e with
      | some e => rfl
      | none => exact ih v

theorem transFor_countAt (w : Who) (va : Nat) (kind : AccKind) :
    transFor w va kind (countAt n s) = (transFor w va kind s).onState (countAt n) := by
  have walk : translate w va kind (countAt n s) = (translate w va kind s).onState (countAt n) :=
    ite_onState rfl (translateFrom_countAt ..)
  have held : (countAt n s).held = s.held := rfl
  unfold transFor
  refine ite_onState walk ?_
  rw [held]
  dsimp only
  split
  · split <;> rfl
  · exact mbind_onState walk fun _ _ _ => rfl

theorem recUpdate_countAt (d a m : Nat) (f : Nat → Nat) : recUpdate d a m f (countAt n s) = countAt n (recUpdate d a m f s) := by
  have old : rawRead (countAt n s) a m = rawRead s a m := rfl
  simp only [recUpdate, recWrite, old, checkLocal_countAt, settleZero_countAt]
  exact ite_map rfl rfl

theorem mergeShadow_countAt (d p i : Nat) (sh : Shadow) :
    mergeShadow (countAt n s) d p i sh = countAt n (mergeShadow s d p i sh) := by
  have at' : recAddr (countAt n s) p i = recAddr s p i := rfl
  simp only [mergeShadow_eq, at', recUpdate_countAt]
  exact List.foldl_hom _ fun u q => recUpdate_countAt n u ..

theorem recAllowed_countAt (d p i : Nat) (wr : Bool) (va : Nat) :
    recAllowed d p i wr va (countAt n s) = (recAllowed d p i wr va s).onState (countAt n) := by
  have at' : recAddr (countAt n s) p i = recAddr s p i := rfl
  simp only [recAllowed, recCode, checkLocal_countAt, at']
  exact ite_onState rfl (ite_onState rfl rfl)

theorem foldShadow_countAt (va d p i : Nat) :
    foldShadow va (countAt n s) d p i = (foldShadow va s d p i).onState (countAt n) := by
  refine ite_onState rfl (mbind_onState (recAllowed_countAt ..) fun _ u _ => ?_)
  exact congrArg (MR.ok ()) (mergeShadow_countAt n (keepShadow (shadowKey d p i) Shadow.empty u) d p i
    (cget Shadow.empty (shadowKey d p i) s.shadows))

theorem roomForShadow_countAt (va d p i : Nat) :
    roomForShadow va (countAt n s) d p i = (roomForShadow va s d p i).onState (countAt n) := by
  refine ite_onState rfl ?_
  have shadows : (countAt n s).shadows = s.shadows := rfl
  rw [shadows]
  split
  · exact foldShadow_countAt ..
  · rfl

theorem foldAllowed_countAt (w : Who) (va : Nat) (l : List (Nat × Nat × Nat × Nat × Nat)) :
    foldAllowed w va l (countAt n s) = (foldAllowed w va l s).onState (countAt n) := by
  induction l generalizing s with
  | nil => rfl
  | cons p l ih =>
    exact mbind_onState (mbind_onState (recAllowed_countAt ..) fun _ _ _ => ite_onState rfl (roomForShadow_countAt ..))
      fun _ u _ => ih u

theorem foldElems_countAt (fmt : Nat) (be : Int) (y w m lo : Nat) (sh : Shadow) :
    foldElems fmt be y w m lo (countAt n s) sh = foldElems fmt be y w m lo s sh := by
  induction m generalizing lo sh with
  | zero => rfl
  | succ m ih =>
    simp only [foldElems, ih]
    rfl

theorem trackFold_countAt (d p i off : Nat) (bs : List Byte) :
    trackFold d p i off bs (countAt n s) = countAt n (trackFold d p i off bs s) := by
  have fmt : recFmt (countAt n s) p i = recFmt s p i := rfl
  have base : recBaseExp (countAt n s) p i = recBaseExp s p i := rfl
  have shadows : (countAt n s).shadows = s.shadows := rfl
  have keep (k : Nat) (sh : Shadow) : keepShadow k sh (countAt n s) = countAt n (keepShadow k sh s) := rfl
  have cut (u : State) : markCut d p i (countAt n u) = countAt n (markCut d p i u) :=
    recUpdate_countAt n u d (recAddr u p i + 0x18) 4 fun _ => recCtl u p i ||| 2 ^ 14
  simp only [trackFold_eq, fmt, base, shadows, foldElems_countAt, keep, ← apply_ite (countAt n), cut]

theorem noteWrite_countAt (w : Who) (l : Loc) (bs : List Byte) :
    noteWrite w l bs (countAt n s) = countAt n (noteWrite w l bs s) := by
  have mark : markWritten w l (countAt n s) = countAt n (markWritten w l s) := ite_map rfl rfl
  have held (u : State) : (if l.target = 1 then
        { countAt n u with cmpHeld := cset false (l.a / 65536) (l.leaf.testBit 10) (countAt n u).cmpHeld } else countAt n u) =
      countAt n (if l.target = 1 then { u with cmpHeld := cset false (l.a / 65536) (l.leaf.testBit 10) u.cmpHeld } else u) :=
    ite_map rfl rfl
  have line (u : State) : dropLine w l (countAt n u) = countAt n (dropLine w l u) := rfl
  have folds (u : State) : foldWrite w l bs (countAt n u) = countAt n (foldWrite w l bs u) :=
    List.foldl_hom _ fun v _ => trackFold_countAt n v ..
  simp only [noteWrite, mark, held, line, ← apply_ite (countAt n), folds]

theorem storeBytes_countAt (w : Who) (l : Loc) (bs : List Byte) :
    storeBytes w l bs (countAt n s) = countAt n (storeBytes w l bs s) := by
  refine ite_map (ite_map rfl rfl) ?_
  rw [noteWrite_countAt]
  rfl

theorem admitCode_countAt (m p : Nat) (l : Loc) (kind : AccKind) :
    admitCode (countAt n s) m p l kind = admitCode s m p l kind := by
  simp only [admitCode, checkAt_countAt, checkLocal_countAt]
  rfl
end

/-! ### Accesses that succeed -/

/-- An access that succeeds does so as well where the state differs, as `g` says, and leaves the same difference. -/
def MR.OkHom {α : Type} (g : State → State) (m m' : MR α) : Prop := ∀ a t, m = .ok a t → m' = .ok a (g t)

namespace MR.OkHom
variable {α β : Type} {g : State → State} {m m' : MR α}

theorem of_onState (h : m' = m.onState g) : OkHom g m m' := fun a t ok => by
  rw [h, ok]
  rfl

theorem bad {f : Flt} {s : State} {m' : MR α} : OkHom g (.bad f s) m' := nofun
theorem wait {s : State} {m' : MR α} : OkHom g (.wait s) m' := nofun

theorem ite {c : Prop} [Decidable c] {k k' : MR α} (hm : OkHom g m m') (hk : OkHom g k k') :
    OkHom g (if c then m else k) (if c then m' else k') := by
  split
  · exact hm
  · exact hk

theorem mbind {f f' : α → State → MR β} (hm : OkHom g m m') (hf : ∀ a t, OkHom g (f a t) (f' a (g t))) :
    OkHom g (Machine.mbind m f) (Machine.mbind m' f') := by
  intro b t ok
  obtain ⟨a, u, now, later⟩ := mbind_eq_ok_iff.mp ok
  exact mbind_eq_ok_iff.mpr ⟨a, g u, hm a u now, hf a u b t later⟩
end MR.OkHom

section
variable (n : Nat) (w : Who) (va : Nat)

/-- The counter decides what becomes of an access only where that waits for a link (R180). -/
theorem reach_countAt (l : Loc) (kind : AccKind) (m : Nat) (bs : List Byte) (s : State) :
    MR.OkHom (countAt n) (reach w va l kind m bs s) (reach w va l kind m bs (countAt n s)) := by
  have checked : admitCode (countAt n s) w.master w.part l kind = admitCode s w.master w.part l kind := admitCode_countAt ..
  have issued : issuedBefore (countAt n s) w va l kind = issuedBefore s w va l kind := rfl
  have watch : watchHit (countAt n s) w va m kind = watchHit s w va m kind := rfl
  have link : linkFor (countAt n s) l = linkFor s l := rfl
  simp only [reach, issued, checked, watch, link]
  refine .ite .bad ?_
  split
  · exact .bad
  · refine .ite .wait ?_
    split
    · next k j _ =>
      have cross : crossNow k j w va l kind m (countAt n s) = (crossNow k j w va l kind m s).onState (countAt n) := by
        have state : linkOf (countAt n s) k = linkOf s k := rfl
        unfold crossNow
        rw [state]
        cases (linkOf s k).resend.find? (isRequest w va l kind) <;> rfl
      exact .ite (.of_onState cross) .wait
    · exact .of_onState (congrArg (MR.ok none) (ite_map (settleZero_countAt ..) rfl))

theorem writeReach_countAt (l : Loc) (bs : List Byte) (s : State) :
    MR.OkHom (countAt n) (writeReach w va l bs s) (writeReach w va l bs (countAt n s)) :=
  .mbind (reach_countAt n w va l .write bs.length bs s) fun _ u =>
    .of_onState (mbind_onState (foldAllowed_countAt n u ..) fun _ _ _ => rfl)

theorem vaWrite_countAt (bs : List Byte) (s : State) :
    MR.OkHom (countAt n) (vaWrite w va bs s) (vaWrite w va bs (countAt n s)) :=
  .mbind (.of_onState (transFor_countAt ..)) fun l _ => .mbind (writeReach_countAt n w va l bs _) fun _ u =>
    .of_onState (congrArg (MR.ok ()) (ite_map (storeBytes_countAt n u w l bs) (noteWrite_countAt n u w l bs)))

theorem vaPassWrite_countAt (bs : List Byte) (s : State) :
    MR.OkHom (countAt n) (vaPassWrite w va bs s) (vaPassWrite w va bs (countAt n s)) :=
  .mbind (.of_onState (transFor_countAt ..)) fun l _ => .mbind (writeReach_countAt n w va l bs _) fun _ u =>
    .of_onState (congrArg (MR.ok ()) (ite_map rfl (noteWrite_countAt n u w l bs)))
end

end Sys2Proof.Machine

/-! Family 06, consistency model: sweeps whose elements are accesses, their addresses indexed by a vector register (R303, R371). -/

namespace Sys2Proof.Machine

/-! ## Sequences of accesses at places -/

/-- What a list holds for a place of another: the value that stands where the place stands. -/
def valueAt {α : Type} (l : List (Nat × Nat)) (xs : List α) (d : α) (p : Nat × Nat) : α := xs.getD (l.idxOf p) d

theorem valueAt_of_getElem? {α : Type} {l : List (Nat × Nat)} (nd : l.Nodup) {xs : List α} {j : Nat} {p : Nat × Nat} {x : α}
    (hp : l[j]? = some p) (hx : xs[j]? = some x) (d : α) : valueAt l xs d p = x := by
  obtain ⟨lt, rfl⟩ := List.getElem?_eq_some_iff.mp hp
  rw [valueAt, nd.idxOf_getElem j lt, List.getD_eq_getElem?_getD, hx]
  rfl

theorem eq_map_valueAt {α : Type} {l : List (Nat × Nat)} (nd : l.Nodup) {xs : List α} (len : xs.length = l.length) (d : α) :
    xs = l.map (valueAt l xs d) := by
  refine List.ext_getElem (by simpa using len) fun j hx hl => ?_
  rw [List.getElem_map]
  exact (valueAt_of_getElem? nd (List.getElem?_eq_getElem (len ▸ hx)) (List.getElem?_eq_getElem hx) d).symm

/-- Accesses at the places, one after another from `s`, all succeed, with these values, and leave `s1`. -/
def AccessesGive (acc : Nat × Nat → State → MR Nat) (val : Nat × Nat → Nat) : List (Nat × Nat) → State → State → Prop
  | [], s, s1 => s1 = s
  | p :: ps, s, s1 => ∃ s2, acc p s = .ok (val p) s2 ∧ AccessesGive acc val ps s2 s1

section
variable {w : Who} {n : Nat} {addr : Nat × Nat → Nat}

theorem length_of_readsAre {as : List Nat} {bs : List (List Byte)} {s s1 : State} (h : ReadsAre w n as bs s s1) :
    bs.length = as.length := by
  induction as generalizing bs s with
  | nil =>
    obtain ⟨rfl, -⟩ := readsAre_nil h
    rfl
  | cons a as ih =>
    obtain ⟨b, bs', s2, rfl, -, h⟩ := readsAre_cons h
    rw [List.length_cons, ih h, List.length_cons]

theorem accessesGive_of_reads {bytes : Nat × Nat → List Byte} {l : List (Nat × Nat)} {s s1 : State}
    (h : ReadsAre w n (l.map addr) (l.map bytes) s s1) :
    AccessesGive (fun p => vaReadNum w (addr p) n) (fun p => ofBytes (bytes p)) l s s1 := by
  induction l generalizing s with
  | nil => exact h
  | cons p l ih =>
    obtain ⟨s2, read, h⟩ := h
    exact ⟨s2, congrArg (mbind · _) read, ih h⟩

theorem length_of_atomicsAre {ps : List (Nat × (Nat → Nat))} {xs : List Nat} {s s1 : State} (h : AtomicsAre w n ps xs s s1) :
    xs.length = ps.length := by
  induction ps generalizing xs s with
  | nil =>
    cases xs with
    | nil => rfl
    | cons x xs => exact h.elim
  | cons p ps ih =>
    cases xs with
    | nil => exact h.elim
    | cons x xs =>
      obtain ⟨s2, -, h⟩ := h
      rw [List.length_cons, ih h, List.length_cons]

theorem accessesGive_of_atomics {f : Nat × Nat → Nat → Nat} {old : Nat × Nat → Nat} {l : List (Nat × Nat)} {s s1 : State}
    (h : AtomicsAre w n (l.map fun p => (addr p, f p)) (l.map old) s s1) :
    AccessesGive (fun p => vaAtomic w (addr p) n fun x => some (f p x)) old l s s1 := by
  induction l generalizing s with
  | nil => exact h
  | cons p l ih =>
    obtain ⟨s2, now, h⟩ := h
    exact ⟨s2, now, ih h⟩
end

/-! ## Indexed addresses -/

theorem signed_eq_intOf {n x : Nat} (h : x < 2 ^ n) : signed n x = intOf false n x := by
  simp only [signed, intOf, Nat.mod_eq_of_lt h, Bool.false_eq_true, if_false]
  push_cast
  rfl

/-- The address of an element: base, offset, and its signed 32-bit index scaled (R371). -/
def indexedAddr (ga vx : Reg) (off : Int) (n : Nat) (s : State) (p : Nat × Nat) : Nat :=
  wrapTo 64 ((gGet ga s).toNat + off + (n : Int) * intOf false 32 (vElem (me s) vx.toNat p.1 p.2 32))

theorem idxAddr_issued (ck : Check) (i : Instr) (ga vx : Reg) (off : Int) (n : Nat) (s : State) (p : Nat × Nat) :
    idxAddr (issued ck i s).ctx ga off n (vElem (me s) vx.toNat p.1 p.2 32) = indexedAddr ga vx off n s p := by
  have still : (issued ck i s).ctx.move = 0 := rfl
  have index : vElem (me s) vx.toNat p.1 p.2 32 < 2 ^ 32 := rowBits_lt ..
  rw [idxAddr, still, cg_issued, Int.add_zero, signed_eq_intOf index, indexedAddr]

/-! ## The party of an indexed access -/

theorem MemStep.owned {s t : State} (h : MemStep s t) : t.owned = s.owned := by
  have e := congrArg State.owned h.1
  exact e

/-- The gather path asks in the same way at every element of an instruction as at its push. -/
theorem gatherWho_setHart {s u : State} (m : MemStep s u) {y : Hart} (part : y.part = (me s).part) (root : y.troot = (me s).troot)
    (ck : Check) (i : Instr) : gatherWho (issued ck i s).ctx (setHart s.cur y u) = gatherWho (captureCtx s) s := by
  have hart : hartOf (setHart s.cur y u) s.cur = y := hartOf_setHart_same ..
  have cur : (setHart s.cur y u).cur = s.cur := m.cur
  have mine : hartOf s s.cur = me s := rfl
  have ticks : (setHart s.cur y u).ticks = s.ticks := m.ticks
  have owned : (setHart s.cur y u).owned = s.owned := m.owned
  simp only [gatherWho, vWho, hartWho, takenBy, cur, hart, mine, part, root, ticks, owned]
  rfl

theorem looksLike_of_running {s u : State} (m : MemStep s u) (run : (me s).run = .running) {y : Hart} (dbg : y.dbg = (me s).dbg)
    (hr : y.run = (me s).run) : LooksLike y (hartOf u s.cur) := by
  have mine : hartOf u s.cur = me s := m.hartOf s.cur
  rw [mine]
  exact ⟨dbg, hr, fun stopped => by cases run.symm.trans stopped⟩

/-! ## A sweep of accesses -/

theorem memLoop_issued (ck : Check) (i : Instr) (s : State) (srcs : List Reg)
    (read : Nat → Nat → State → MR (List (Nat × Fl))) (act : Nat → Nat → List (Nat × Fl) → List Nat → State → MR (List Nat))
    (fs : Nat → Nat → FaultStream) (l : List (Nat × Nat)) (kept : List Nat) (t : State) :
    memLoop (issued ck i s) srcs read act fs l kept t =
      memRun (issued ck i s) srcs l read act fs (fun _ t => .done (consume srcs t)) l kept t := by
  rw [memLoop]
  simp only [due_issued]
  rfl

namespace ElemOp
variable (p : ElemOp) {s u : State}

theorem hart_part (done : List (Nat × Nat)) : (p.hart s done).part = (me s).part := by
  have h := congrArg Hart.part (p.hart_vecOnly s done)
  exact h.trans (by rw [me_retire])

theorem hart_troot (done : List (Nat × Nat)) : (p.hart s done).troot = (me s).troot := by
  have h := congrArg Hart.troot (p.hart_vecOnly s done)
  exact h.trans (by rw [me_retire])

theorem hart_looksLike (m : MemStep s u) (run : (me s).run = .running) (done : List (Nat × Nat)) :
    LooksLike (p.hart s done) (hartOf u s.cur) := by
  refine looksLike_of_running m run ?_ ?_
  · exact (congrArg Hart.dbg (p.hart_vecOnly s done)).trans (by rw [me_retire])
  · exact (congrArg Hart.run (p.hart_vecOnly s done)).trans (by rw [me_retire])

theorem gatherWho_swept (m : MemStep s u) (done : List (Nat × Nat)) (ck : Check) (i : Instr) :
    gatherWho (issued ck i s).ctx (p.swept s u done) = gatherWho (captureCtx s) s :=
  gatherWho_setHart m (p.hart_part done) (p.hart_troot done) ck i

/-- Sources that are not the destination, or are read in its width, still hold what they held at the places to come. -/
theorem readSrcs_swept (c : u.cur = s.cur) (r : VecReady p.w p.row s) {done rest : List (Nat × Nat)} {place : Nat × Nat}
    (split : sweepPlaces p.row s = done ++ place :: rest) {l : List (Reg × Opd)} (width : ∀ q ∈ l, q.1 = p.vd → q.2.bits = p.w)
    (x : LCtx) :
    readSrcs x place.1 place.2 l (p.swept s u done) =
      .ok (l.map fun q => (vElem (me s) q.1.toNat place.1 place.2 q.2.bits, 0)) (p.swept s u done) := by
  induction l with
  | nil => rfl
  | cons q l ih =>
    obtain ⟨first, others⟩ := List.forall_mem_cons.mp width
    rw [readSrcs, p.srcElem_swept c done r split first, mbind, ih others]
    rfl

/-- An active element that is written, where it raises no flags. -/
theorem setVElem_swept (c : u.cur = s.cur) (done : List (Nat × Nat)) {k e : Nat} (ac : active (me s) p.mask k e = true)
    (quiet : (p.val k e).2 = 0) :
    setVElem p.vd.toNat k e p.w (p.val k e).1 (p.swept s u done) = p.swept s u (done ++ [(k, e)]) := by
  rw [setVElem, p.modMe_swept c, swept, p.hart_snoc_of_active s ac, quiet, or_noFlags]
  rfl
end ElemOp

section
variable {p : ElemOp} {s s1 : State} {e : QEntry} {srcs : List Reg} {all : List (Nat × Nat)}
  {read : Nat → Nat → State → MR (List (Nat × Fl))} {act : Nat → Nat → List (Nat × Fl) → List Nat → State → MR (List Nat)}
  {fs : Nat → Nat → FaultStream} {fin : List Nat → State → LRes} {kept : List Nat}
  {acc : Nat × Nat → State → MR Nat} {xs : Nat × Nat → List (Nat × Fl)}
  (first : e.vstart = 0) (new : e.got = [])
  (reads : ∀ done place rest u, sweepPlaces p.row s = done ++ place :: rest → MemStep s u →
    read place.1 place.2 (p.swept s u done) = .ok (xs place) (p.swept s u done))
  (idle : ∀ place t, active (me t) p.mask place.1 place.2 = false → act place.1 place.2 (xs place) kept t = .ok kept t)
  (keeps : ∀ place u, MemStep u (acc place u).st)
  (step : ∀ done place u u', MemStep s u → place ∈ sweepPlaces p.row s → active (me s) p.mask place.1 place.2 = true →
    acc place u = .ok (p.val place.1 place.2).1 u' →
    act place.1 place.2 (xs place) kept (p.swept s u done) = .ok kept (p.swept s u' (done ++ [place])))
include first new reads idle keeps step

/-- A sweep whose accesses all succeed is through. -/
theorem memRun_swept {done rest : List (Nat × Nat)} (split : sweepPlaces p.row s = done ++ rest) {u : State} (m : MemStep s u)
    (h : AccessesGive acc (fun q => (p.val q.1 q.2).1) (activeIn s p.mask rest) u s1) :
    memRun e srcs all read act fs fin rest kept (p.swept s u done) = fin kept (p.swept s s1 (sweepPlaces p.row s)) ∧
      MemStep s s1 := by
  induction rest generalizing done u with
  | nil =>
    cases h
    rw [split, List.append_nil]
    exact ⟨rfl, m⟩
  | cons place rest ih =>
    have now := reads done place rest u split m
    have split' : sweepPlaces p.row s = (done ++ [place]) ++ rest := by rw [split, List.append_assoc, List.singleton_append]
    rw [activeIn_cons] at h
    cases ac : active (me s) p.mask place.1 place.2 with
    | true =>
      rw [ac, if_pos rfl] at h
      obtain ⟨u', ok, h⟩ := h
      obtain ⟨run, m'⟩ := ih split' (m.trans (step_of_ok (keeps place u) ok)) h
      have inside : place ∈ sweepPlaces p.row s := split ▸ List.mem_append_right _ List.mem_cons_self
      exact ⟨(memRun_cons_ok first new now (step done place u u' m inside ac ok)).trans run, m'⟩
    | false =>
      rw [ac, if_neg Bool.false_ne_true] at h
      obtain ⟨run, m'⟩ := ih split' m h
      rw [p.swept_snoc_of_inactive done ac] at run
      exact ⟨(memRun_cons_ok first new now (idle place _ ((p.active_swept m.cur done p.mask _ _).trans ac))).trans run, m'⟩
end

section
variable {p : ElemOp} {s s1 : State} (ck : Check) (i : Instr) (srcs : List Reg)
  {read : Nat → Nat → State → MR (List (Nat × Fl))} {act : Nat → Nat → List (Nat × Fl) → List Nat → State → MR (List Nat)}
  (fs : Nat → Nat → FaultStream) {kept : List Nat} {acc : Nat × Nat → State → MR Nat} {xs : Nat × Nat → List (Nat × Fl)}
  (ub : Unbound s)
  (reads : ∀ done place rest u, sweepPlaces p.row s = done ++ place :: rest → MemStep s u →
    read place.1 place.2 (p.swept s u done) = .ok (xs place) (p.swept s u done))
  (idle : ∀ place t, active (me t) p.mask place.1 place.2 = false → act place.1 place.2 (xs place) kept t = .ok kept t)
  (keeps : ∀ place u, MemStep u (acc place u).st)
  (step : ∀ done place u u', MemStep s u → place ∈ sweepPlaces p.row s → active (me s) p.mask place.1 place.2 = true →
    acc place u = .ok (p.val place.1 place.2).1 u' →
    act place.1 place.2 (xs place) kept (p.swept s u done) = .ok kept (p.swept s u' (done ++ [place])))
include ub reads idle keeps step

/-- A memory instruction is complete when its accesses have all succeeded. -/
theorem memLoop_swept (h : AccessesGive acc (fun q => (p.val q.1 q.2).1) (activeOf p.row p.mask s) s s1) :
    memLoop (issued ck i s) srcs read act fs (sweepPlaces p.row s) kept (setHart s.cur (me (retire 8 s)) s) =
      .done (p.swept s s1 (sweepPlaces p.row s)) ∧ MemStep s s1 := by
  obtain ⟨through, m⟩ := memRun_swept (e := issued ck i s) (srcs := srcs) (all := sweepPlaces p.row s) (fs := fs)
    (fin := fun _ t => .done (consume srcs t)) rfl rfl reads idle keeps step (List.nil_append _).symm (.refl s) h
  rw [← p.swept_nil, memLoop_issued, through, p.consume_swept m.cur _ ub]
  exact ⟨rfl, m⟩
end

/-! ### What the sweep leaves -/

namespace ElemOp
variable (p : ElemOp) {s u : State}

theorem regs_complete (m : MemStep s u) : (me (p.complete s u)).r = (p.hart s (sweepPlaces p.row s)).r := by
  rw [complete, me_setHart_of_cur m.cur]

theorem fflags_complete (m : MemStep s u) : (me (p.complete s u)).fflags = (p.hart s (sweepPlaces p.row s)).fflags := by
  rw [complete, me_setHart_of_cur m.cur]

section
variable (r : VecReady p.w p.row s) (m : MemStep s u)
include r m

theorem vElem_complete_of_mem {q : Nat × Nat} (h : q ∈ activeIn s p.mask (sweepPlaces p.row s)) :
    vElem (me (p.complete s u)) p.vd.toNat q.1 q.2 p.w = (p.val q.1 q.2).1 % 2 ^ p.w := by
  obtain ⟨row, -⟩ := r.bounds (List.mem_of_mem_filter h)
  rw [p.vElem_of_hart (p.regs_complete m), p.vElem_hart r row, if_pos h]

theorem vElem_complete_of_not_mem {k e : Nat} (hs : InSweep p.row s k e) (h : (k, e) ∉ activeIn s p.mask (sweepPlaces p.row s)) :
    vElem (me (p.complete s u)) p.vd.toNat k e p.w = vElem (me s) p.vd.toNat k e p.w := by
  obtain ⟨-, -, lanes, fits⟩ := id r
  rw [p.vElem_of_hart (p.regs_complete m), p.vElem_hart r (inSweep_bounds lanes fits hs).1, if_neg h]

theorem tailSame_complete : TailSame p.vd p.w p.row s (p.complete s u) :=
  p.tailSame_of_hart r (p.regs_complete m)

theorem flagsAre_complete : FlagsAre p.row p.mask (fun k e => (p.val k e).2) s (p.complete s u) :=
  p.flagsAre_of_hart r (p.fflags_complete m)
end
end ElemOp

end Sys2Proof.Machine

/-! Family 06, consistency model: gathers and vector atomics (R175 to R177, R371, R372). -/

namespace Sys2Proof.Machine

/-! ## Checks of the decoder -/

/-- The checks of an instruction with a row selector and sources that its destinations may not overlap. -/
theorem passes_of_ready {w : Nat} {row : Option (BitVec 3)} {s : State} (r : VecReady w row s) (dst srcs : List Reg)
    (apart : ∀ d ∈ dst, d ∉ srcs) : Passes { Check.none with width := w, row := row, dst := dst, noOverlap := srcs } s := by
  obtain ⟨q, ub, -, fit, rows⟩ := r
  have clear : (dst.any fun d => srcs.contains d || boundAhead (me s) d.toNat) = false := by
    simpa [boundAhead_of_unbound q ub] using apart
  have room : ¬ (me s).vgrant * 256 * 8 < (me s).vl * w := by omega
  unfold Passes Check.reason
  simp only [Check.none, clear, room, Bool.or_self, Bool.false_eq_true, if_false]
  cases row with
  | none => rfl
  | some n => exact if_neg (Nat.not_le.mpr (rows n rfl))

/-! ## Lines that an engine owned -/

/-- The state with other entries for the lines that engines own. -/
def withOwned (l : List Owned) (s : State) : State := { s with owned := l }

/-- The gather path owns no line for a complete instruction (R172); nothing else of the state is touched. -/
theorem afterV_withLines {r : LRes} {t : State} (h : r = .done t) (w : Who) (n : Nat) (left : QEntry → State → List Nat) :
    ∃ l, afterV (withLines w n left r) [] = withOwned l (afterV (.done t) []) := by
  subst h
  unfold withLines
  dsimp only
  split
  · exact ⟨t.owned, rfl⟩
  · exact ⟨_, rfl⟩

theorem me_withOwned (l : List Owned) (t : State) : me (withOwned l t) = me t := rfl
theorem mem_withOwned (l : List Owned) (t : State) : (withOwned l t).mem = t.mem := rfl

theorem RegFrame.withOwned {gs : List Reg} {qs ms vs : List Nat} {s t : State} (h : RegFrame gs qs ms vs s t) (l : List Owned) :
    RegFrame gs qs ms vs s (withOwned l t) := h

/-! ## VLDX -/

/-- What VLDX does at an element, `xs` the index read. -/
def gatherElem (o : VIdxOp) (c : LCtx) (k i : Nat) (xs : List (Nat × Fl)) (kept : List Nat) (s : State) : MR (List Nat) :=
  if active (me s) o.mask k i then
    let a := idxAddr c o.ga o.off.toInt (ewBytes o.ew) (xs.getD 0 (0, 0)).1
    mbind (aligned a o.ew.toNat false false s) fun _ s =>
      mbind (vaReadNum (gatherWho c s) a (ewBytes o.ew) s) fun x s =>
        .ok kept (setVElem o.v.toNat k i (ewBits o.ew) x s)
  else .ok kept s

theorem perfVldx_eq (o : VIdxOp) (e : QEntry) (s : State) :
    perfVldx o e s = memLoop e [o.vx] (fun k i s => readSrcs e.ctx k i [(o.vx, .int false 0 32)] s) (gatherElem o e.ctx)
      (idxStream e.ctx o.ew) (tileOf e.ctx (rowsOf e.ctx (memRow o.off.toNat o.row))) [] s := rfl

/-- The address of an element of a gather or a scatter. -/
def idxElemAddr (o : VIdxOp) (s : State) : Nat × Nat → Nat := indexedAddr o.ga o.vx o.off.toInt (ewBytes o.ew) s

/-- The places of its accesses, in the order of R303. -/
def idxPlaces (o : VIdxOp) (s : State) : List (Nat × Nat) := activeOf (memRow o.off.toNat o.row) o.mask s

/-- VLDX as an element-wise instruction, `bs` the bytes that its reads return. -/
def gatherOp (o : VIdxOp) (s : State) (bs : List (List Byte)) : ElemOp :=
  { vd := o.v, w := ewBits o.ew, row := memRow o.off.toNat o.row, mask := o.mask,
    val := fun k e => (ofBytes (valueAt (idxPlaces o s) bs [] (k, e)), 0) }

section
variable {o : VIdxOp} {s : State}

/-- VLDX at an active element whose read succeeds. -/
theorem gatherElem_swept (run : (me s).run = .running) (ck : Check) {bs : List (List Byte)} (done : List (Nat × Nat))
    {place : Nat × Nat} {u u' : State} (m : MemStep s u) (ac : active (me s) o.mask place.1 place.2 = true)
    (al : idxElemAddr o s place % ewBytes o.ew = 0)
    (ok : vaReadNum (gatherWho (captureCtx s) s) (idxElemAddr o s place) (ewBytes o.ew) u =
      .ok (ofBytes (valueAt (idxPlaces o s) bs [] place)) u') (kept : List Nat) :
    gatherElem o (issued ck (.vldx o) s).ctx place.1 place.2 [(vElem (me s) o.vx.toNat place.1 place.2 32, 0)] kept
        ((gatherOp o s bs).swept s u done) =
      .ok kept ((gatherOp o s bs).swept s u' (done ++ [place])) := by
  have m' : MemStep s u' := m.trans (step_of_ok (vaReadNum_step ..) ok)
  have read : vaReadNum (gatherWho (captureCtx s) s) (idxElemAddr o s place) (ewBytes o.ew) ((gatherOp o s bs).swept s u done) =
      .ok (ofBytes (valueAt (idxPlaces o s) bs [] place)) ((gatherOp o s bs).swept s u' done) := by
    rw [ElemOp.swept, vaReadNum_setHart ((gatherOp o s bs).hart_looksLike m run done), ok]
    rfl
  have put : setVElem o.v.toNat place.1 place.2 (ewBits o.ew) (ofBytes (valueAt (idxPlaces o s) bs [] place))
      ((gatherOp o s bs).swept s u' done) = (gatherOp o s bs).swept s u' (done ++ [place]) :=
    (gatherOp o s bs).setVElem_swept m'.cur done ac rfl
  have addr : idxAddr (issued ck (.vldx o) s).ctx o.ga o.off.toInt (ewBytes o.ew)
      (vElem (me s) o.vx.toNat place.1 place.2 32) = idxElemAddr o s place := idxAddr_issued ..
  rw [gatherElem, (gatherOp o s bs).active_swept m.cur, ac, if_pos rfl, List.getD_cons_zero, addr]
  dsimp only
  rw [aligned_of_mod al, mbind, (gatherOp o s bs).gatherWho_swept m, read, mbind, put]

/-- A quiet hart's VLDX whose reads succeed is complete. -/
theorem exec_vldx (r : MemReady (max 32 (ewBits o.ew)) (memRow o.off.toNat o.row) s)
    (al : ∀ p ∈ idxPlaces o s, idxElemAddr o s p % ewBytes o.ew = 0) (apart : o.ew ≠ 2 → o.v ≠ o.vx) {bs : List (List Byte)} {s1 : State}
    (h : ReadsAre (gatherWho (captureCtx s) s) (ewBytes o.ew) ((idxPlaces o s).map (idxElemAddr o s)) bs s s1) :
    exec (.vldx o) s = .next ((gatherOp o s bs).complete s s1) ∧ MemStep s s1 := by
  obtain ⟨ready, run⟩ := r
  have narrow : VecReady (ewBits o.ew) (memRow o.off.toNat o.row) s := ready.mono (Nat.le_max_right ..)
  have len : bs.length = (idxPlaces o s).length := by rw [length_of_readsAre h, List.length_map]
  rw [eq_map_valueAt (activeOf_nodup ..) len []] at h
  have width : ∀ q ∈ [(o.vx, Opd.int false 0 32)], q.1 = o.v → q.2.bits = ewBits o.ew := by
    rintro q hq same
    obtain rfl := List.mem_singleton.mp hq
    have wide : o.ew = 2 := not_not.mp fun ne => apart ne same.symm
    rw [wide]
    rfl
  have passes : Passes (vidxCheck o [o.v]) s := by
    refine passes_of_ready ready [o.v] (if o.ew = 2 then [] else [o.vx]) fun d hd => ?_
    obtain rfl := List.mem_singleton.mp hd
    split
    · exact List.not_mem_nil
    · next ne => exact List.mem_singleton.not.mpr (apart ne)
  obtain ⟨through, m⟩ := memLoop_swept (p := gatherOp o s bs) (vidxCheck o [o.v]) (.vldx o) [o.vx]
    (read := fun k i t => readSrcs (issued (vidxCheck o [o.v]) (.vldx o) s).ctx k i [(o.vx, .int false 0 32)] t)
    (act := gatherElem o (issued (vidxCheck o [o.v]) (.vldx o) s).ctx)
    (idxStream (issued (vidxCheck o [o.v]) (.vldx o) s).ctx o.ew) ready.2.1
    (fun done place rest u split m => (gatherOp o s bs).readSrcs_swept m.cur narrow split width _)
    (fun place t idle => if_neg (Bool.eq_false_iff.mp idle)) (fun place u => vaReadNum_step ..)
    (fun done place u u' m inside ac ok =>
      gatherElem_swept run _ done m ac (al place (List.mem_filter.mpr ⟨inside, ac⟩)) ok [])
    (accessesGive_of_reads h)
  have done : issueV (vidxCheck o [o.v]) (.vldx o) (perfVldx o) s = (gatherOp o s bs).complete s s1 := by
    rw [issueV_of_quiet ready.1 passes, perfVldx_eq, retire_eq_setHart]
    exact (congrArg (afterV · []) through).trans ((gatherOp o s bs).afterV_done_swept m.cur)
  exact ⟨congrArg Host.Outcome.next done, m⟩
end

/-! ### What VLDX leaves -/

/-- Elements that raise no flags leave those that stood. -/
theorem joinFlags_of_none {val : Nat → Nat → Nat × Fl} (h : ∀ k e, (val k e).2 = 0) (ps : List (Nat × Nat)) (fl : Fl) :
    joinFlags val ps fl = fl := by
  induction ps with
  | nil => rfl
  | cons p ps ih => rw [joinFlags, List.foldl_cons, h, or_noFlags, ← joinFlags, ih]

theorem vldx_completes {o : VIdxOp} {s s1 : State} {bs : List (List Byte)}
    (r : MemReady (max 32 (ewBits o.ew)) (memRow o.off.toNat o.row) s)
    (al : ∀ p ∈ idxPlaces o s, idxElemAddr o s p % ewBytes o.ew = 0) (apart : o.ew ≠ 2 → o.v ≠ o.vx)
    (h : ReadsAre (gatherWho (captureCtx s) s) (ewBytes o.ew) ((idxPlaces o s).map (idxElemAddr o s)) bs s s1) :
    ∃ t, exec (.vldx o) s = .next t ∧ Loaded o.v (ewBits o.ew) (memRow o.off.toNat o.row) (idxPlaces o s) bs s t ∧
      TailSame o.v (ewBits o.ew) (memRow o.off.toNat o.row) s t ∧ (me t).fflags = (me s).fflags ∧
      RegFrame [] [] [] [o.v.toNat] s t ∧ MemSame s1 t := by
  obtain ⟨run, m⟩ := exec_vldx r al apart h
  have ready : VecReady (ewBits o.ew) (memRow o.off.toNat o.row) s := r.1.mono (Nat.le_max_right ..)
  refine ⟨_, run, ⟨fun n p b hp hb => ?_, fun k e hs hn => ?_⟩, (gatherOp o s bs).tailSame_complete ready m, ?_,
    (gatherOp o s bs).complete_regFrame ready m, memSame_of_mem rfl⟩
  · refine ((gatherOp o s bs).vElem_complete_of_mem ready m (List.mem_of_getElem? hp)).trans ?_
    exact congrArg (ofBytes · % 2 ^ ewBits o.ew) (valueAt_of_getElem? (activeOf_nodup ..) hp hb [])
  · exact (gatherOp o s bs).vElem_complete_of_not_mem ready m hs hn
  · rw [(gatherOp o s bs).fflags_complete m, ElemOp.hart]
    exact joinFlags_of_none (fun _ _ => rfl) ..

/-! ## VAMO -/

def vamoCheck (o : VAmoOp) : Check :=
  { Check.none with width := max 32 (tyBits o.ty), row := memRow o.off.toNat o.row, dst := [o.vd], noOverlap := [o.vx, o.vc] }

/-- The address of an element of an atomic. -/
def vamoAddr (o : VAmoOp) (s : State) : Nat × Nat → Nat := indexedAddr o.ga o.vx o.off.toInt (ewBytes o.ty.ew) s

/-- The places of its accesses, in the order of R303. -/
def vamoPlaces (o : VAmoOp) (s : State) : List (Nat × Nat) := activeOf (memRow o.off.toNat o.row) o.mask s

/-- The new value and the flags of an element whose old value is known (R175). -/
def vamoNew (o : VAmoOp) (s : State) (p : Nat × Nat) (old : Nat) : Nat × Fl :=
  vamoOp o old (vElem (me s) o.vc.toNat p.1 p.2 (tyBits o.ty))

/-- What VAMO does at an element, `xs` the index and the operand read. -/
def amoElem (o : VAmoOp) (c : LCtx) (k i : Nat) (xs : List (Nat × Fl)) (kept : List Nat) (s : State) : MR (List Nat) :=
  if active (me s) o.mask k i then
    let a := idxAddr c o.ga o.off.toInt (ewBytes o.ty.ew) (xs.getD 0 (0, 0)).1
    let y := xs.getD 1 (0, 0)
    mbind (aligned a o.ty.ew.toNat true true s) fun _ s =>
      mbind (vaAtomic (gatherWho c s) a (ewBytes o.ty.ew) (fun old => some (vamoOp o old y.1).1) s) fun old s =>
        .ok kept (addFl ((vamoOp o old y.1).2 ||| y.2) (setVElem o.vd.toNat k i (tyBits o.ty) old s))
  else .ok kept s

/-- The sources that VAMO reads at an element. -/
def amoSrcs (o : VAmoOp) : List (Reg × Opd) := [(o.vx, .int false 0 32), (o.vc, tyOpd o.ty o.rnd false)]

theorem perfVamo_eq (o : VAmoOp) (e : QEntry) (s : State) :
    perfVamo o e s = withLines (gatherWho e.ctx s) (ewBytes o.ty.ew)
      (idxLeft o.vx o.ga o.off.toInt (ewBytes o.ty.ew) o.mask (tileOf e.ctx (rowsOf e.ctx (memRow o.off.toNat o.row))))
      (memLoop e [o.vx, o.vc] (fun k i s => readSrcs e.ctx k i (amoSrcs o) s) (amoElem o e.ctx) (idxStream e.ctx o.ty.ew)
        (tileOf e.ctx (rowsOf e.ctx (memRow o.off.toNat o.row))) [] s) := rfl

theorem bits_tyOpd (t : ElemTy) (rnd : BitVec 2) (sat : Bool) : (tyOpd t rnd sat).bits = tyBits t := by
  cases t <;> rfl

/-- VAMO as an element-wise instruction, `olds` the values that its atomics find. -/
def amoOp (o : VAmoOp) (s : State) (olds : List Nat) : ElemOp :=
  { vd := o.vd, w := tyBits o.ty, row := memRow o.off.toNat o.row, mask := o.mask,
    val := fun k e =>
      let old := valueAt (vamoPlaces o s) olds 0 (k, e)
      (old, (vamoNew o s (k, e) old).2) }

section
variable {o : VAmoOp} {s : State}

/-- VAMO at an active element whose atomic succeeds. -/
theorem amoElem_swept (run : (me s).run = .running) (ck : Check) {olds : List Nat} (done : List (Nat × Nat)) {place : Nat × Nat}
    {u u' : State} (m : MemStep s u) (ac : active (me s) o.mask place.1 place.2 = true)
    (al : vamoAddr o s place % ewBytes o.ty.ew = 0)
    (ok : vaAtomic (gatherWho (captureCtx s) s) (vamoAddr o s place) (ewBytes o.ty.ew)
      (fun old => some (vamoNew o s place old).1) u = .ok (valueAt (vamoPlaces o s) olds 0 place) u') (kept : List Nat) :
    amoElem o (issued ck (.vamo o) s).ctx place.1 place.2
        [(vElem (me s) o.vx.toNat place.1 place.2 32, 0), (vElem (me s) o.vc.toNat place.1 place.2 (tyBits o.ty), 0)] kept
        ((amoOp o s olds).swept s u done) =
      .ok kept ((amoOp o s olds).swept s u' (done ++ [place])) := by
  have m' : MemStep s u' := m.trans (step_of_ok (vaAtomic_step ..) ok)
  have atom : vaAtomic (gatherWho (captureCtx s) s) (vamoAddr o s place) (ewBytes o.ty.ew)
      (fun old => some (vamoNew o s place old).1) ((amoOp o s olds).swept s u done) =
      .ok (valueAt (vamoPlaces o s) olds 0 place) ((amoOp o s olds).swept s u' done) := by
    rw [ElemOp.swept, vaAtomic_setHart ((amoOp o s olds).hart_looksLike m run done), ok]
    rfl
  have put : addFl (vamoNew o s place (valueAt (vamoPlaces o s) olds 0 place)).2
      (setVElem o.vd.toNat place.1 place.2 (tyBits o.ty) (valueAt (vamoPlaces o s) olds 0 place)
        ((amoOp o s olds).swept s u' done)) = (amoOp o s olds).swept s u' (done ++ [place]) :=
    (amoOp o s olds).put_swept m'.cur done ac
  have addr : idxAddr (issued ck (.vamo o) s).ctx o.ga o.off.toInt (ewBytes o.ty.ew)
      (vElem (me s) o.vx.toNat place.1 place.2 32) = vamoAddr o s place := idxAddr_issued ..
  rw [amoElem, (amoOp o s olds).active_swept m.cur, ac, if_pos rfl, List.getD_cons_zero, List.getD_cons_succ,
    List.getD_cons_zero, addr]
  dsimp only
  rw [aligned_of_mod al, mbind, (amoOp o s olds).gatherWho_swept m]
  simp only [or_noFlags]
  exact (congrArg (mbind · _) atom).trans (congrArg (MR.ok kept) put)

/-- A quiet hart's VAMO whose atomics succeed is complete. -/
theorem exec_vamo (r : MemReady (max 32 (tyBits o.ty)) (memRow o.off.toNat o.row) s)
    (al : ∀ p ∈ vamoPlaces o s, vamoAddr o s p % ewBytes o.ty.ew = 0) (index : o.vd ≠ o.vx) (operand : o.vd ≠ o.vc)
    {olds : List Nat} {s1 : State}
    (h : AtomicsAre (gatherWho (captureCtx s) s) (ewBytes o.ty.ew)
      ((vamoPlaces o s).map fun p => (vamoAddr o s p, fun old => (vamoNew o s p old).1)) olds s s1) :
    (∃ l, exec (.vamo o) s = .next (withOwned l ((amoOp o s olds).complete s s1))) ∧ MemStep s s1 := by
  obtain ⟨ready, run⟩ := r
  have narrow : VecReady (tyBits o.ty) (memRow o.off.toNat o.row) s := ready.mono (Nat.le_max_right ..)
  have len : olds.length = (vamoPlaces o s).length := by rw [length_of_atomicsAre h, List.length_map]
  rw [eq_map_valueAt (activeOf_nodup ..) len 0] at h
  have width : ∀ q ∈ amoSrcs o, q.1 = o.vd → q.2.bits = tyBits o.ty := by
    rintro q hq same
    rcases List.mem_pair.mp hq with rfl | rfl
    · exact absurd same.symm index
    · exact bits_tyOpd ..
  have passes : Passes (vamoCheck o) s := by
    refine passes_of_ready ready [o.vd] [o.vx, o.vc] fun d hd => ?_
    obtain rfl := List.mem_singleton.mp hd
    simpa using ⟨index, operand⟩
  obtain ⟨through, m⟩ := memLoop_swept (p := amoOp o s olds) (vamoCheck o) (.vamo o) [o.vx, o.vc]
    (read := fun k i t => readSrcs (issued (vamoCheck o) (.vamo o) s).ctx k i (amoSrcs o) t)
    (act := amoElem o (issued (vamoCheck o) (.vamo o) s).ctx)
    (idxStream (issued (vamoCheck o) (.vamo o) s).ctx o.ty.ew) ready.2.1
    (xs := fun place => (amoSrcs o).map fun q => (vElem (me s) q.1.toNat place.1 place.2 q.2.bits, 0))
    (fun done place rest u split m => (amoOp o s olds).readSrcs_swept m.cur narrow split width _)
    (fun place t idle => if_neg (Bool.eq_false_iff.mp idle)) (fun place u => vaAtomic_step ..)
    (fun done place u u' m inside ac ok => by
      rw [amoSrcs, List.map_cons, List.map_cons, List.map_nil, bits_tyOpd]
      exact amoElem_swept run _ done m ac (al place (List.mem_filter.mpr ⟨inside, ac⟩)) ok [])
    (accessesGive_of_atomics h)
  have complete : ∃ l, issueV (vamoCheck o) (.vamo o) (perfVamo o) s = withOwned l ((amoOp o s olds).complete s s1) := by
    rw [issueV_of_quiet ready.1 passes, perfVamo_eq, retire_eq_setHart, ← (amoOp o s olds).afterV_done_swept m.cur]
    exact afterV_withLines through ..
  obtain ⟨l, complete⟩ := complete
  exact ⟨⟨l, congrArg Host.Outcome.next complete⟩, m⟩
end

theorem vamo_completes {o : VAmoOp} {s s1 : State} {olds : List Nat}
    (r : MemReady (max 32 (tyBits o.ty)) (memRow o.off.toNat o.row) s)
    (al : ∀ p ∈ vamoPlaces o s, vamoAddr o s p % ewBytes o.ty.ew = 0) (index : o.vd ≠ o.vx) (operand : o.vd ≠ o.vc)
    (h : AtomicsAre (gatherWho (captureCtx s) s) (ewBytes o.ty.ew)
      ((vamoPlaces o s).map fun p => (vamoAddr o s p, fun old => (vamoNew o s p old).1)) olds s s1) :
    ∃ t, exec (.vamo o) s = .next t ∧
      (∀ (j : Nat) (p : Nat × Nat) (old : Nat), (vamoPlaces o s)[j]? = some p → olds[j]? = some old →
        vElem (me t) o.vd.toNat p.1 p.2 (tyBits o.ty) = old % 2 ^ tyBits o.ty) ∧
      (∀ k e, InSweep (memRow o.off.toNat o.row) s k e → (k, e) ∉ vamoPlaces o s →
        vElem (me t) o.vd.toNat k e (tyBits o.ty) = vElem (me s) o.vd.toNat k e (tyBits o.ty)) ∧
      (∀ i, (me t).fflags.getLsbD i = true ↔ (me s).fflags.getLsbD i = true ∨
        ∃ (j : Nat) (p : Nat × Nat) (old : Nat), (vamoPlaces o s)[j]? = some p ∧ olds[j]? = some old ∧
          (vamoNew o s p old).2.getLsbD i = true) ∧
      TailSame o.vd (tyBits o.ty) (memRow o.off.toNat o.row) s t ∧ RegFrame [] [] [] [o.vd.toNat] s t ∧ MemSame s1 t := by
  obtain ⟨⟨l, run⟩, m⟩ := exec_vamo r al index operand h
  have ready : VecReady (tyBits o.ty) (memRow o.off.toNat o.row) s := r.1.mono (Nat.le_max_right ..)
  have len : olds.length = (vamoPlaces o s).length := by rw [length_of_atomicsAre h, List.length_map]
  have found {j : Nat} {q : Nat × Nat} {old : Nat} (hq : (vamoPlaces o s)[j]? = some q) (ho : olds[j]? = some old) :
      valueAt (vamoPlaces o s) olds 0 q = old := valueAt_of_getElem? (activeOf_nodup ..) hq ho 0
  refine ⟨_, run, fun j q old hq ho => ?_, fun k e hs hn => ?_, fun i => ?_, ?_,
    ((amoOp o s olds).complete_regFrame ready m).withOwned l, ?_⟩
  · rw [me_withOwned]
    refine ((amoOp o s olds).vElem_complete_of_mem ready m (List.mem_of_getElem? hq)).trans ?_
    exact congrArg (· % 2 ^ tyBits o.ty) (found hq ho)
  · rw [me_withOwned]
    exact (amoOp o s olds).vElem_complete_of_not_mem ready m hs hn
  · rw [me_withOwned]
    refine ((amoOp o s olds).flagsAre_complete ready m i).trans (or_congr_right ⟨?_, ?_⟩)
    · rintro ⟨k, e, hs, ac, bit⟩
      obtain ⟨j, lt, hj⟩ := List.mem_iff_getElem.mp (((amoOp o s olds).mem_places_iff ready).mpr ⟨hs, ac⟩)
      have hq : (vamoPlaces o s)[j]? = some (k, e) := List.getElem?_eq_some_iff.mpr ⟨lt, hj⟩
      have inside : j < olds.length := len ▸ lt
      have ho : olds[j]? = some olds[j] := List.getElem?_eq_getElem inside
      refine ⟨j, (k, e), olds[j], hq, ho, ?_⟩
      rw [← found hq ho]
      exact bit
    · rintro ⟨j, q, old, hq, ho, bit⟩
      obtain ⟨hs, ac⟩ := ((amoOp o s olds).mem_places_iff ready).mp (List.mem_of_getElem? hq)
      refine ⟨q.1, q.2, hs, ac, ?_⟩
      rw [← found hq ho] at bit
      exact bit
  · have tail := (amoOp o s olds).tailSame_complete ready m
    unfold TailSame at tail ⊢
    rw [me_withOwned]
    exact tail
  · exact memSame_of_mem (mem_withOwned ..)

/-- Settles O38: the atomics see nothing of the registers that the sweep writes, so those that the statement makes are those of
the sweep; each place is visited once, and takes the value that its own atomic found. -/
theorem vectorAtomics : Obligations.VectorAtomics :=
  fun _ _ _ _ r al index operand h => vamo_completes r al index operand h

end Sys2Proof.Machine

/-! Family 06, consistency model: scatters (R182, R183, R371). -/

namespace Sys2Proof.Machine

/-! ## Which writes of a scatter land -/

/-- Which writes of a scatter to these addresses land, `kept` the addresses written before and `n` the counter of free values:
the first to an address does, and a later one where `wins` draws so. -/
def landsOf (wins : Nat → Bool) : List Nat → Nat → List Nat → List Bool
  | _, _, [] => []
  | kept, n, a :: as => (!(kept.contains a && !wins n)) :: landsOf wins (if kept.contains a then kept else a :: kept) (n + 1) as

theorem length_landsOf (wins : Nat → Bool) (kept : List Nat) (n : Nat) (as : List Nat) :
    (landsOf wins kept n as).length = as.length := by
  induction as generalizing kept n with
  | nil => rfl
  | cons a as ih => rw [landsOf, List.length_cons, ih, List.length_cons]

/-- The first write to an address lands. -/
theorem landsOf_first (wins : Nat → Bool) {kept as : List Nat} {n j a : Nat} (h : as[j]? = some a) (new : a ∉ kept)
    (first : ∀ (i b : Nat), i < j → as[i]? = some b → b ≠ a) : (landsOf wins kept n as)[j]? = some true := by
  induction as generalizing kept n j with
  | nil => cases h
  | cons b as ih =>
    cases j with
    | zero =>
      cases h
      have unseen : kept.contains a = false := by simpa using new
      rw [landsOf, List.getElem?_cons_zero, unseen]
      rfl
    | succ j =>
      have other : b ≠ a := first 0 b (Nat.succ_pos j) rfl
      refine ih h ?_ fun i c lt hc => first (i + 1) c (Nat.succ_lt_succ lt) hc
      split
      · exact new
      · exact List.mem_cons.not.mpr (not_or.mpr ⟨other.symm, new⟩)

/-- Where every write wins, a scatter's writes are writes. -/
theorem scattersAre_of_writes {w : Who} {ps : List (Nat × List Byte)} {s s1 : State} (h : WritesAre w ps s s1) (kept : List Nat)
    (n : Nat) : ScattersAre w ps (landsOf (fun _ => true) kept n (ps.map Prod.fst)) s s1 := by
  induction ps generalizing s kept n with
  | nil => exact h
  | cons p ps ih =>
    obtain ⟨s2, now, h⟩ := h
    have lands : (!(kept.contains p.1 && !true)) = true := by simp
    refine ⟨s2, ?_, ih h _ _⟩
    rw [if_pos lands]
    exact now

/-! ## VSTX -/

/-- What VSTX does at an element, `xs` the index and the element read. -/
def scatterElem (o : VIdxOp) (wins : Nat → Bool) (c : LCtx) (k i : Nat) (xs : List (Nat × Fl)) (kept : List Nat) (s : State) :
    MR (List Nat) :=
  if active (me s) o.mask k i then
    let a := idxAddr c o.ga o.off.toInt (ewBytes o.ew) (xs.getD 0 (0, 0)).1
    mbind (aligned a o.ew.toNat true false s) fun _ s =>
      let put := if kept.contains a && !wins s.fresh then vaPassWrite else vaWrite
      mbind (put (gatherWho c s) a (toBytes (ewBytes o.ew) (xs.getD 1 (0, 0)).1) s) fun _ s =>
        .ok (if kept.contains a then kept else a :: kept) (bump s)
  else .ok kept s

/-- The sources that VSTX reads at an element. -/
def scatterSrcs (o : VIdxOp) : List (Reg × Opd) := [(o.vx, .int false 0 32), (o.v, .raw (ewBits o.ew))]

/-- The sweep of a VSTX. -/
def scatterLoop (o : VIdxOp) (wins : Nat → Bool) (e : QEntry) (s : State) : LRes :=
  memLoop e [o.vx, o.v] (fun k i s => readSrcs e.ctx k i (scatterSrcs o) s) (scatterElem o wins e.ctx) (idxStream e.ctx o.ew)
    (tileOf e.ctx (rowsOf e.ctx (memRow o.off.toNat o.row))) e.kept s

theorem scatter_eq (o : VIdxOp) (wins : Nat → Bool) (e : QEntry) (s : State) :
    scatter o (fun s => wins s.fresh) e s = withLines (gatherWho e.ctx s) (ewBytes o.ew)
      (idxLeft o.vx o.ga o.off.toInt (ewBytes o.ew) o.mask (tileOf e.ctx (rowsOf e.ctx (memRow o.off.toNat o.row))))
      (scatterLoop o wins e s) := rfl

/-- The write of an element of a scatter. -/
def scatterWrite (o : VIdxOp) (s : State) (p : Nat × Nat) : Nat × List Byte :=
  (idxElemAddr o s p, toBytes (ewBytes o.ew) (vElem (me s) o.v.toNat p.1 p.2 (ewBits o.ew)))

/-- Elements of registers that are not bound are read from the registers. -/
theorem readSrcs_of_none_bound {s : State} (ub : Unbound s) (c : LCtx) (k i : Nat) (l : List (Reg × Opd)) :
    readSrcs c k i l s = .ok (l.map fun q => (vElem (me s) q.1.toNat k i q.2.bits, 0)) s := by
  induction l with
  | nil => rfl
  | cons q l ih =>
    have ub : (me s).r.binds = [] := ub
    simp only [readSrcs, srcElem, bindingOf, ub, List.find?_nil, mbind, ih, List.map_cons]

section
variable {o : VIdxOp} {s u : State} (m : MemStep s u) {place : Nat × Nat} (wins : Nat → Bool) (ck : Check) (i : Instr) (kept : List Nat)
  (n : Nat) (xs : List (Nat × Fl))
include m

/-- The state in the midst of a scatter: memory has come to `u`, the counter of free values to `n`. -/
theorem during_scatter : During s (countAt n u) (me (retire 8 s)) := ⟨m.trans (countAt_step n u), rfl⟩

theorem scatterElem_of_inactive (h : active (me s) o.mask place.1 place.2 = false) :
    scatterElem o wins (issued ck i s).ctx place.1 place.2 xs kept (setHart s.cur (me (retire 8 s)) (countAt n u)) =
      .ok kept (setHart s.cur (me (retire 8 s)) (countAt n u)) := by
  refine if_neg ?_
  rw [(during_scatter m n).active, h]
  exact Bool.false_ne_true

/-- A scatter at an active element whose write succeeds, whether it lands or not. -/
theorem scatterElem_of_active (run : (me s).run = .running) (h : active (me s) o.mask place.1 place.2 = true)
    (al : idxElemAddr o s place % ewBytes o.ew = 0) {u' : State}
    (ok : (if !(kept.contains (idxElemAddr o s place) && !wins n) then
        vaWrite (gatherWho (captureCtx s) s) (scatterWrite o s place).1 (scatterWrite o s place).2 u
      else vaPassWrite (gatherWho (captureCtx s) s) (scatterWrite o s place).1 (scatterWrite o s place).2 u) = .ok () u') :
    scatterElem o wins (issued ck i s).ctx place.1 place.2
        ((scatterSrcs o).map fun q => (vElem (me s) q.1.toNat place.1 place.2 q.2.bits, 0)) kept
        (setHart s.cur (me (retire 8 s)) (countAt n u)) =
      .ok (if kept.contains (idxElemAddr o s place) then kept else idxElemAddr o s place :: kept)
        (setHart s.cur (me (retire 8 s)) (countAt (n + 1) u')) := by
  have d := during_scatter m n
  have hart : (me (retire 8 s)).part = (me s).part ∧ (me (retire 8 s)).troot = (me s).troot := by
    rw [me_retire]
    exact ⟨rfl, rfl⟩
  have who := gatherWho_setHart d.mem hart.1 hart.2 ck i
  have addr : idxAddr (issued ck i s).ctx o.ga o.off.toInt (ewBytes o.ew) (vElem (me s) o.vx.toNat place.1 place.2 32) =
      idxElemAddr o s place := idxAddr_issued ..
  have fresh : (setHart s.cur (me (retire 8 s)) (countAt n u)).fresh = n := rfl
  have put : (if kept.contains (idxElemAddr o s place) && !wins n then vaPassWrite else vaWrite)
      (gatherWho (captureCtx s) s) (scatterWrite o s place).1 (scatterWrite o s place).2
      (setHart s.cur (me (retire 8 s)) (countAt n u)) = .ok () (setHart s.cur (me (retire 8 s)) (countAt n u')) := by
    cases lost : kept.contains (idxElemAddr o s place) && !wins n with
    | true =>
      rw [lost, Bool.not_true, if_neg Bool.false_ne_true] at ok
      rw [if_pos rfl, vaPassWrite_setHart (d.looksLike run), vaPassWrite_countAt n _ _ _ _ _ _ ok]
      rfl
    | false =>
      rw [lost, Bool.not_false, if_pos rfl] at ok
      rw [if_neg Bool.false_ne_true, vaWrite_setHart (d.looksLike run), vaWrite_countAt n _ _ _ _ _ _ ok]
      rfl
  rw [scatterElem, d.active, h, if_pos rfl]
  simp only [scatterSrcs, List.map_cons, List.map_nil, List.getD_cons_zero, List.getD_cons_succ, Opd.bits, addr]
  rw [aligned_of_mod al, mbind]
  simp only [who, fresh]
  exact congrArg (mbind · _) put
end

/-- A scatter whose writes succeed, those that land and those that are overwritten at once, is through. -/
theorem scatterRun_of_writes {o : VIdxOp} {s : State} (run : (me s).run = .running) (ub : Unbound s) (wins : Nat → Bool) (ck : Check)
    (i : Instr) (srcs : List Reg) (all : List (Nat × Nat)) (fs : Nat → Nat → FaultStream) (l : List (Nat × Nat)) {kept : List Nat}
    {n : Nat} {u u1 : State} (m : MemStep s u) (al : ∀ p ∈ activeIn s o.mask l, idxElemAddr o s p % ewBytes o.ew = 0)
    (h : ScattersAre (gatherWho (captureCtx s) s) ((activeIn s o.mask l).map (scatterWrite o s))
      (landsOf wins kept n ((activeIn s o.mask l).map (idxElemAddr o s))) u u1) :
    ∃ n', memRun (issued ck i s) srcs all (fun k e t => readSrcs (issued ck i s).ctx k e (scatterSrcs o) t)
        (scatterElem o wins (issued ck i s).ctx) fs (fun _ t => .done (consume srcs t)) l kept
        (setHart s.cur (me (retire 8 s)) (countAt n u)) =
      .done (setHart s.cur (me (retire 8 s)) (countAt n' u1)) ∧ MemStep s u1 := by
  induction l generalizing u kept n with
  | nil =>
    cases h
    exact ⟨n, congrArg LRes.done ((during_scatter m n).consume ub srcs), m⟩
  | cons p l ih =>
    have d := during_scatter m n
    have unbound : Unbound (setHart s.cur (me (retire 8 s)) (countAt n u)) := by
      unfold Unbound
      rw [d.me, d.binds ub]
    have read := readSrcs_of_none_bound unbound (issued ck i s).ctx p.1 p.2 (scatterSrcs o)
    have held (v w : Nat) : vElem (me (retire 8 s)) v p.1 p.2 w = vElem (me s) v p.1 p.2 w := by
      rw [me_retire]
      rfl
    simp only [d.me, held] at read
    rw [activeIn_cons] at h al
    cases ac : active (me s) o.mask p.1 p.2 with
    | true =>
      rw [ac, if_pos rfl] at h al
      obtain ⟨u2, ok, h⟩ := h
      obtain ⟨al0, al⟩ := List.forall_mem_cons.mp al
      have m2 : MemStep s u2 := by
        split at ok
        · exact m.trans (step_of_ok (vaWrite_step ..) ok)
        · exact m.trans (step_of_ok (vaPassWrite_step ..) ok)
      obtain ⟨n', e, done⟩ := ih m2 al h
      exact ⟨n', (memRun_cons_ok rfl rfl read (scatterElem_of_active m wins ck i kept n run ac al0 ok)).trans e, done⟩
    | false =>
      rw [ac, if_neg Bool.false_ne_true] at h al
      obtain ⟨n', e, done⟩ := ih m al h
      exact ⟨n', (memRun_cons_ok rfl rfl read (scatterElem_of_inactive m wins ck i kept n _ ac)).trans e, done⟩

/-- What a scatter leaves whose writes succeed. -/
theorem scatter_completes {o : VIdxOp} {s s1 : State} (r : MemReady (max 32 (ewBits o.ew)) (memRow o.off.toNat o.row) s)
    (al : ∀ p ∈ idxPlaces o s, idxElemAddr o s p % ewBytes o.ew = 0) (wins : Nat → Bool) {i : Instr}
    (issue : exec i s = .next (issueV (vidxCheck o []) i (scatter o fun s => wins s.fresh) s))
    (h : ScattersAre (gatherWho (captureCtx s) s) ((idxPlaces o s).map (scatterWrite o s))
      (landsOf wins [] s.fresh ((idxPlaces o s).map (idxElemAddr o s))) s s1) :
    ∃ t, exec i s = .next t ∧ (me t).fflags = (me s).fflags ∧ RegFrame [] [] [] [] s t ∧ MemSame s1 t := by
  obtain ⟨ready, run⟩ := r
  have passes : Passes (vidxCheck o []) s := passes_of_ready ready [] _ (List.forall_mem_nil _)
  obtain ⟨n, through, m⟩ := scatterRun_of_writes run ready.2.1 wins (vidxCheck o []) i [o.vx, o.v]
    (sweepPlaces (memRow o.off.toNat o.row) s) (idxStream (issued (vidxCheck o []) i s).ctx o.ew)
    (sweepPlaces (memRow o.off.toNat o.row) s) (.refl s) al h
  have d := during_scatter m n
  have loop : scatterLoop o wins (issued (vidxCheck o []) i s) (retire 8 s) =
      .done (setHart s.cur (me (retire 8 s)) (countAt n s1)) :=
    (congrArg (scatterLoop o wins _) (retire_eq_setHart 8 s)).trans ((memLoop_issued ..).trans through)
  have complete : ∃ l, issueV (vidxCheck o []) i (scatter o fun s => wins s.fresh) s =
      withOwned l (setHart s.cur { me (retire 8 s) with vq := [], stallV := none } (countAt n s1)) := by
    rw [← d.afterV_done, issueV_of_quiet ready.1 passes, scatter_eq]
    exact afterV_withLines loop ..
  obtain ⟨l, complete⟩ := complete
  refine ⟨_, issue.trans (congrArg Host.Outcome.next complete), ?_, (d.done_regFrame ready.1 fun v k _ _ => ?_).withOwned l, ?_⟩
  · rw [me_withOwned, me_setHart_of_cur d.mem.cur, me_retire]
  · rw [me_retire]
    rfl
  · exact memSame_of_mem (mem_withOwned ..)

/-- Settles O37: the accesses see nothing of the registers that a gather writes, nor of the counter that a scatter advances, so
those that the statement makes are those of the sweep; and a scatter remembers the addresses that it has written, so only a
later write to an address may fail to land. -/
theorem gathersAndScatters : Obligations.GathersAndScatters := by
  intro s s1 o bs w n row at' addr who writes r al
  have addrs : writes.map Prod.fst = at'.map addr := List.map_map
  refine ⟨fun apart h => vldx_completes r al apart h, fun h => ?_, fun all => ?_⟩
  · have scatters := scattersAre_of_writes h [] s.fresh
    rw [addrs] at scatters
    exact scatter_completes r al (fun _ => true) rfl scatters
  · have len : (landsOf (fun n => Config.pickAny n % 2 == 1) [] s.fresh (at'.map addr)).length = writes.length := by
      rw [length_landsOf, List.length_map, List.length_map]
    obtain ⟨s2, scatters⟩ := all _ len
    obtain ⟨t, run, left⟩ := scatter_completes r al (fun n => Config.pickAny n % 2 == 1) (i := .vstxAny o) rfl scatters
    refine ⟨t, s2, _, run, scatters, fun j q hq first => ?_, left⟩
    refine landsOf_first _ (a := q.1) ?_ List.not_mem_nil fun i b lt hb => ?_
    · rw [← addrs, List.getElem?_map, hq]
      rfl
    · rw [← addrs, List.getElem?_map] at hb
      obtain ⟨p, hp, rfl⟩ := Option.map_eq_some_iff.mp hb
      exact first i p lt hp

end Sys2Proof.Machine

/-! Family 07, ordering by goal: queue registers and the barrier of a gang (R195, R208, R214, R216, R329, R330). -/

namespace Sys2Proof.Machine

/-! ## Queue registers -/

theorem pc_retire (n : Word) (s : State) : (me (retire n s)).pc = (me s).pc + n := by rw [me_retire]

/-- An update of the hart that leaves its own queue registers leaves all that it sees. -/
theorem queueOfHart_modMe {f : Hart → Hart} {s : State} (h : (f (me s)).r.q = (me s).r.q) (n : Nat) :
    queueOfHart (modMe f s) n = queueOfHart s n := by
  have core (c : Nat) : coreOf (modMe f s) c = coreOf s c := rfl
  unfold queueOfHart
  rw [me_modMe, h, core, modMe_cur]

theorem queueOfHart_retire (w : Word) (s : State) (n : Nat) : queueOfHart (retire w s) n = queueOfHart s n :=
  queueOfHart_modMe rfl n

theorem queueOfHart_setG (d : Reg) (v : Word) (s : State) (n : Nat) : queueOfHart (setG d v s) n = queueOfHart s n := by
  unfold setG
  split
  · rfl
  · exact queueOfHart_modMe rfl n

theorem queueOfHart_stallOn (f : Flt) (s : State) (n : Nat) : queueOfHart (stallOn f s) n = queueOfHart s n :=
  queueOfHart_modMe rfl n

theorem pc_stallOn (f : Flt) (s : State) : (me (stallOn f s)).pc = (me s).pc := by rw [stallOn, me_modMe]

theorem pc_setG (d : Reg) (v : Word) (s : State) : (me (setG d v s)).pc = (me s).pc := by
  unfold setG
  split
  · rfl
  · rw [me_modMe]

theorem queueOfHart_setQueue_same (n : Nat) (q : List Word) (s : State) : queueOfHart (setQueue n q s) n = q := by
  unfold queueOfHart setQueue
  split
  · rw [modCore_cur, coreOf_modCore_same]
  · split
    · rw [modCore_cur, coreOf_modCore_same]
    · rw [me_modMe]
      exact cget_cset_same ..

/-- Of the hart, a queue register written changes no other part than its queue registers. -/
theorem me_setQueue (n : Nat) (q : List Word) (s : State) :
    ∃ own, me (setQueue n q s) = { me s with r := { (me s).r with q := own } } := by
  unfold setQueue
  split
  · exact ⟨_, rfl⟩
  · split
    · exact ⟨_, rfl⟩
    · exact ⟨_, me_modMe ..⟩

theorem pc_setQueue (n : Nat) (q : List Word) (s : State) : (me (setQueue n q s)).pc = (me s).pc := by
  obtain ⟨own, h⟩ := me_setQueue n q s
  rw [h]

theorem gGet_setQueue (n : Nat) (q : List Word) (s : State) (r : Reg) : gGet r (setQueue n q s) = gGet r s := by
  obtain ⟨own, h⟩ := me_setQueue n q s
  unfold gGet
  rw [h]

/-! ## Waking the harts that wait for a queue register (R344) -/

/-- From `s` to `t` at most some harts begin to run. -/
def Woken (s t : State) : Prop :=
  t.cur = s.cur ∧ t.cores = s.cores ∧ ∀ h, ∃ run, hartOf t h = { hartOf s h with run := run }

theorem Woken.refl (s : State) : Woken s s := ⟨rfl, rfl, fun _ => ⟨_, rfl⟩⟩

theorem Woken.trans {s t u : State} (h : Woken s t) (k : Woken t u) : Woken s u := by
  obtain ⟨cur, cores, harts⟩ := h
  obtain ⟨cur', cores', harts'⟩ := k
  refine ⟨cur'.trans cur, cores'.trans cores, fun j => ?_⟩
  obtain ⟨r, e⟩ := harts j
  obtain ⟨r', e'⟩ := harts' j
  exact ⟨r', by rw [e', e]⟩

theorem wake_woken (h : Nat) (s : State) : Woken s (wake h s) := by
  unfold wake
  split
  · refine ⟨rfl, rfl, fun j => ?_⟩
    by_cases e : j = h
    · subst e
      exact ⟨_, hartOf_modHart_same ..⟩
    · exact ⟨_, hartOf_modHart_other e ..⟩
  · exact .refl s

theorem wakeCore_woken (core : Nat) (s : State) : Woken s (wakeCore core s) :=
  List.foldlRecOn (motive := Woken s) _ _ (.refl s) fun _ h _ _ => h.trans (wake_woken _ _)

theorem Woken.me {s t : State} (h : Woken s t) : ∃ run, me t = { me s with run := run } := by
  obtain ⟨cur, -, harts⟩ := h
  unfold Machine.me
  rw [cur]
  exact harts s.cur

theorem Woken.pc {s t : State} (h : Woken s t) : (Machine.me t).pc = (Machine.me s).pc := by
  obtain ⟨run, e⟩ := h.me
  rw [e]

theorem Woken.gGet {s t : State} (h : Woken s t) (r : Reg) : gGet r t = gGet r s := by
  obtain ⟨run, e⟩ := h.me
  unfold Machine.gGet
  rw [e]

theorem Woken.queueOfHart {s t : State} (h : Woken s t) (n : Nat) : queueOfHart t n = queueOfHart s n := by
  obtain ⟨run, e⟩ := h.me
  obtain ⟨cur, cores, -⟩ := h
  unfold Machine.queueOfHart coreOf
  rw [e, cur, cores]

/-- An entry appended wakes the harts that wait for the queue register, and does no more. -/
theorem appendQueue_woken (n : Nat) (v : Word) (s : State) :
    Woken (setQueue n (queueOfHart s n ++ [v]) s) (appendQueue n v s) := by
  unfold appendQueue
  dsimp only
  split
  · exact .refl _
  · split
    · exact wake_woken _ _
    · exact wakeCore_woken _ _

/-! ## QPUT, QGET and QSTAT -/

theorem qput_of_room {s : State} {q : Idx3} (a : Reg) (room : (queueOfHart s q.toNat).length < queueDepth q.toNat) :
    ∃ t, exec (.qput q a) s = .next t ∧ queueOfHart t q.toNat = queueOfHart s q.toNat ++ [gGet a s] ∧
      (me t).pc = (me s).pc + 4 ∧ RegsSameBut [] s t := by
  have w := appendQueue_woken q.toNat (gGet a s) s
  refine ⟨retire 4 (appendQueue q.toNat (gGet a s) s), if_neg (Nat.not_le_of_lt room), ?_, ?_, fun r _ => ?_⟩
  · rw [queueOfHart_retire, w.queueOfHart, queueOfHart_setQueue_same]
  · rw [pc_retire, w.pc, pc_setQueue]
  · rw [gGet_retire, w.gGet, gGet_setQueue]

theorem exec_qput_of_full {s : State} {q : Idx3} (a : Reg) (full : queueDepth q.toNat ≤ (queueOfHart s q.toNat).length) :
    exec (.qput q a) s = .next (stallOn (qHang 2 q.toNat 0) s) := if_pos full

/-- What QGET does when it waits for no stream. -/
def takeEntry (d : Reg) (n : Nat) (s : State) : State :=
  match queueOfHart s n with
  | [] => stallOn (qHang 1 n 0) s
  | v :: r => retire 4 (setG d v (setQueue n r s))

theorem takeEntry_of_nil {s : State} {n : Nat} (h : queueOfHart s n = []) (d : Reg) :
    takeEntry d n s = stallOn (qHang 1 n 0) s := by
  rw [takeEntry, h]

theorem takeEntry_of_cons {s : State} {n : Nat} {v : Word} {r : List Word} (h : queueOfHart s n = v :: r) (d : Reg) :
    takeEntry d n s = retire 4 (setG d v (setQueue n r s)) := by
  rw [takeEntry, h]

/-- QGET of q4 or q5 waits for stream V, bit 1 of the mask of SBAR (R158). -/
theorem exec_qget (d : Reg) (q : Idx3) (s : State) :
    exec (.qget d q) s =
      .next (if q.toNat < 6 then sync 0x02 (takeEntry d q.toNat) s else takeEntry d q.toNat s) := rfl

/-- A synchronising instruction that does not name stream S takes effect where no stream that it names is busy. -/
theorem sync_of_idle {mask : Nat} {s : State} (unnamed : mask.testBit 0 = false) (pend : (me s).pend = none)
    (idle : busy mask s = false) (k : State → State) : sync mask k s = k s := by
  unfold sync
  rw [unnamed]
  simp only [Bool.false_eq_true, if_false, pend, idle]

theorem exec_qget_of_idle {s : State} {q : Idx3} (idle : q.toNat < 6 → (me s).pend = none ∧ busy 2 s = false) (d : Reg) :
    exec (.qget d q) s = .next (takeEntry d q.toNat s) := by
  rw [exec_qget]
  split
  case isTrue stream =>
    obtain ⟨pend, free⟩ := idle stream
    rw [sync_of_idle (by decide) pend free]
  case isFalse => rfl

theorem exec_qget_of_busy {s : State} {q : Idx3} (stream : q = 4 ∨ q = 5) (pend : (me s).pend = none)
    (working : busy 2 s = true) (d : Reg) : exec (.qget d q) s = .next s := by
  have written : q.toNat < 6 := by rcases stream with rfl | rfl <;> decide
  rw [exec_qget, if_pos written, sync_of_busy pend (fun named => absurd named (by decide)) working]

theorem takeEntry_completes {s : State} {n : Nat} {v : Word} {r : List Word} (h : queueOfHart s n = v :: r) (d : Reg) :
    queueOfHart (takeEntry d n s) n = r ∧ gGet d (takeEntry d n s) = (if d = 0 then 0 else v) ∧
      (me (takeEntry d n s)).pc = (me s).pc + 4 ∧ RegsSameBut [d] s (takeEntry d n s) := by
  rw [takeEntry_of_cons h]
  refine ⟨?_, ?_, ?_, fun k other => ?_⟩
  · rw [queueOfHart_retire, queueOfHart_setG, queueOfHart_setQueue_same]
  · rw [gGet_retire, gGet_setG]
    by_cases zero : d = 0
    · rw [zero, if_neg (fun h => h.2 rfl), if_pos rfl]
      rfl
    · rw [if_pos ⟨rfl, zero⟩, if_neg zero]
  · rw [pc_retire, pc_setG, pc_setQueue]
  · have ne : k ≠ d := fun e => other (List.mem_singleton.mpr e)
    rw [gGet_retire, gGet_setG, if_neg (fun h => ne h.1), gGet_setQueue]

theorem queueRegisters : QueueRegisters := by
  intro s q d a n
  refine ⟨fun _ _ room => qput_of_room a room, fun _ _ full => ?_, fun _ idle v r entries => ?_, fun _ idle empty => ?_,
    fun stream pend working => exec_qget_of_busy stream pend working d, ?_⟩
  · exact ⟨_, exec_qput_of_full a full, queueOfHart_stallOn .., pc_stallOn ..⟩
  · exact ⟨_, exec_qget_of_idle idle d, takeEntry_completes entries d⟩
  · refine ⟨_, exec_qget_of_idle idle d, ?_⟩
    rw [takeEntry_of_nil empty]
    exact ⟨(queueOfHart_stallOn ..).trans empty, pc_stallOn ..⟩
  · exact congrArg Host.Outcome.next (retire_setG_eq_afterScalar ..)

/-! ## A gang's harts pass the barrier -/

theorem releaseGang_singleton_of_not_arrived {h : Nat} {s : State} (e : (hartOf s h).arrived = false) :
    releaseGang [h] s = s := if_neg (by rw [e]; exact Bool.false_ne_true)

/-- A hart that waits passes: its wait is over and it goes on after its GBAR. -/
theorem releaseGang_singleton_of_arrived {h : Nat} {s : State} (e : (hartOf s h).arrived = true) :
    (hartOf (releaseGang [h] s) h).arrived = false ∧
      (hartOf (releaseGang [h] s) h).pc = (hartOf s h).pc + 4 := by
  rw [releaseGang, List.foldl_cons, List.foldl_nil, if_pos e, hartOf_modHart_same]
  exact ⟨rfl, rfl⟩

theorem hartOf_releaseGang_singleton_other {j h : Nat} (n : j ≠ h) (s : State) :
    hartOf (releaseGang [h] s) j = hartOf s j := by
  rw [releaseGang, List.foldl_cons, List.foldl_nil]
  split
  · exact hartOf_modHart_other n ..
  · rfl

/-- A hart that does not wait is left as it is. -/
theorem hartOf_releaseGang_of_not_arrived {j : Nat} (l : List Nat) {s : State} (e : (hartOf s j).arrived = false) :
    hartOf (releaseGang l s) j = hartOf s j := by
  induction l generalizing s with
  | nil => rfl
  | cons h l ih =>
    have one : hartOf (releaseGang [h] s) j = hartOf s j := by
      by_cases same : j = h
      · rw [releaseGang_singleton_of_not_arrived (same ▸ e)]
      · exact hartOf_releaseGang_singleton_other same s
    exact (ih (one ▸ e)).trans one

theorem releaseGang_of_arrived {j : Nat} {l : List Nat} {s : State} (mem : j ∈ l) (e : (hartOf s j).arrived = true) :
    (hartOf (releaseGang l s) j).arrived = false ∧ (hartOf (releaseGang l s) j).pc = (hartOf s j).pc + 4 := by
  induction l generalizing s with
  | nil => cases mem
  | cons h l ih =>
    have rest : releaseGang (h :: l) s = releaseGang l (releaseGang [h] s) := rfl
    rw [rest]
    by_cases same : j = h
    · subst same
      have one := releaseGang_singleton_of_arrived e
      rwa [hartOf_releaseGang_of_not_arrived l one.1]
    · have one := hartOf_releaseGang_singleton_other same s
      have later := ih (List.mem_of_ne_of_mem same mem) (one ▸ e)
      rwa [one] at later

theorem releaseGang_cur (l : List Nat) (s : State) : (releaseGang l s).cur = s.cur :=
  List.foldlRecOn (motive := fun t : State => t.cur = s.cur) l _ rfl fun t h k _ => by
    split
    · exact h
    · exact h

theorem me_releaseGang (l : List Nat) (s : State) : me (releaseGang l s) = hartOf (releaseGang l s) s.cur := by
  rw [me, releaseGang_cur]

/-- No hart of the gang waits any more, and those that waited have gone on. -/
theorem releaseGang_of_mem {j : Nat} {l : List Nat} (mem : j ∈ l) (s : State) :
    (hartOf (releaseGang l s) j).arrived = false ∧
      (hartOf (releaseGang l s) j).pc = (if (hartOf s j).arrived then (hartOf s j).pc + 4 else (hartOf s j).pc) := by
  cases e : (hartOf s j).arrived with
  | false =>
    rw [hartOf_releaseGang_of_not_arrived l e]
    exact ⟨e, rfl⟩
  | true => exact releaseGang_of_arrived mem e

theorem tryGang_of_all {s : State} {g : Nat} (all : ∀ h ∈ gangOf s g, gbarIn s h = true) :
    tryGang g s = releaseGang (gangOf s g) s := if_pos (List.all_eq_true.mpr all)

theorem tryGang_of_missing {s : State} {g h : Nat} (mem : h ∈ gangOf s g) (missing : gbarIn s h = false) :
    tryGang g s = s :=
  if_neg fun all => Bool.false_ne_true (missing.symm.trans (List.all_eq_true.mp all h mem))

/-! ## GBAR -/

/-- The current hart waits at its GBAR. -/
def atGbar (s : State) : State := modMe (fun x => { x with arrived := true }) s

theorem me_atGbar (s : State) : me (atGbar s) = { me s with arrived := true } := me_modMe ..

theorem hartOf_atGbar_cur (s : State) : hartOf (atGbar s) s.cur = { me s with arrived := true } := me_atGbar s

theorem hartOf_atGbar_other {h : Nat} {s : State} (n : h ≠ s.cur) : hartOf (atGbar s) h = hartOf s h :=
  hartOf_modMe_other _ _ n

/-- A hart's arrival changes nothing of which gang a hart belongs to. -/
theorem gangOf_atGbar (s : State) (h : Nat) : gangOf (atGbar s) h = gangOf s h := by
  have job (k : Nat) : (hartOf (atGbar s) k).job = (hartOf s k).job ∧ (hartOf (atGbar s) k).gang = (hartOf s k).gang := by
    by_cases e : k = s.cur
    · subst e
      rw [hartOf_atGbar_cur]
      exact ⟨rfl, rfl⟩
    · rw [hartOf_atGbar_other e]
      exact ⟨rfl, rfl⟩
  have jobs (j : Nat) : jobOf (atGbar s) j = jobOf s j := rfl
  unfold gangOf
  simp only [job, jobs]

theorem gbarIn_atGbar_cur (s : State) : gbarIn (atGbar s) s.cur = true := by
  unfold gbarIn
  rw [hartOf_atGbar_cur]
  rfl

theorem gbarIn_atGbar_other {h : Nat} {s : State} (n : h ≠ s.cur) : gbarIn (atGbar s) h = gbarIn s h := by
  unfold gbarIn
  rw [hartOf_atGbar_other n]

/-- A GBAR of a quiet hart that reaches it: no stream is busy, so the hart arrives at once. -/
theorem exec_gbar_of_quiet {s : State} (q : Quiet s) (before : (me s).arrived = false) :
    exec .gbar s = .next (tryGang s.cur (atGbar s)) :=
  (if_neg (by rw [before]; exact Bool.false_ne_true)).trans (congrArg Host.Outcome.next (sync_of_quiet q allStreams _))

/-- The last hart of the gang to arrive passes at once, and with it those that waited. -/
theorem gbar_of_last {s : State} (q : Quiet s) (before : (me s).arrived = false)
    (others : ∀ h ∈ gangOf s s.cur, h ≠ s.cur → gbarIn s h = true) :
    exec .gbar s = .next (releaseGang (gangOf s s.cur) (atGbar s)) := by
  have all : ∀ h ∈ gangOf (atGbar s) s.cur, gbarIn (atGbar s) h = true := by
    intro h hm
    rw [gangOf_atGbar] at hm
    by_cases e : h = s.cur
    · rw [e, gbarIn_atGbar_cur]
    · rw [gbarIn_atGbar_other e, others h hm e]
  rw [exec_gbar_of_quiet q before, tryGang_of_all all, gangOf_atGbar]

theorem gbar_of_missing {s : State} (q : Quiet s) (before : (me s).arrived = false) {h : Nat} (mem : h ∈ gangOf s s.cur)
    (n : h ≠ s.cur) (missing : gbarIn s h = false) : exec .gbar s = .next (atGbar s) := by
  rw [exec_gbar_of_quiet q before,
    tryGang_of_missing ((gangOf_atGbar s s.cur).symm ▸ mem) ((gbarIn_atGbar_other n).trans missing)]

theorem gangBarrier : GangBarrier := by
  refine ⟨fun s q before mem others => ?_, fun s q before ⟨h, mem, n, missing⟩ => ?_, fun s gang all => ?_⟩
  · have here := hartOf_atGbar_cur s
    obtain ⟨passes, on⟩ := releaseGang_of_arrived mem (s := atGbar s) (congrArg Hart.arrived here)
    have own : me (releaseGang (gangOf s s.cur) (atGbar s)) = hartOf (releaseGang (gangOf s s.cur) (atGbar s)) s.cur :=
      me_releaseGang ..
    refine ⟨_, gbar_of_last q before others, ?_, ?_, fun h hm n => ?_⟩
    · rw [own, on, here]
    · rw [own, passes]
    · obtain ⟨ended, goesOn⟩ := releaseGang_of_mem hm (atGbar s)
      rw [hartOf_atGbar_other n] at goesOn
      exact ⟨ended, fun waits => goesOn.trans (if_pos waits)⟩
  · refine ⟨_, gbar_of_missing q before mem n missing, ?_, ?_⟩
    · rw [me_atGbar]
    · rw [me_atGbar]
  · exact ⟨_, congrArg Host.Outcome.next (tryGang_of_all all), fun h hm => releaseGang_of_mem hm s⟩

/-- Settles O6: an entry appended or taken leaves the rest of the hart, and waking touches no queue; and a gang's harts pass
the barrier one after another, each of them that waits once, for one that has passed does not wait any more. -/
theorem queuesAndBarrier : Obligations.QueuesAndBarrier := ⟨queueRegisters, gangBarrier⟩

end Sys2Proof.Machine

/-! Family 08, execution model: what every step keeps (O60). `Legal` joins the two invariants of the statement, and the
development has one lemma for each function of the model that changes a state: from a legal state it leaves a legal one. A
lemma's proof has the shape of its function: a call is the callee's lemma, a branch is `ite`,
  a `match` is a `split`. The only
functions that write VGRANT or RC are VSETL, VSETR, the changes of a lane set, a launch,
  and those that restore a hart from a
frame or a switch record; memory is written by `setMem`, `zeroMem` and the accesses whose laws stand in `Laws.Access`. -/

namespace Sys2Proof.Machine

/-! ## The invariants as one predicate -/

/-- A hart's lane grant is legal (R201, R202). -/
def HartOk (x : Hart) : Prop := LaneOk x.vgrant x.rc

/-- The lane grant that a frame holds is legal. -/
def FrameOk (r : FrameRec) : Prop := LaneOk r.vgrant r.rc

/-- The two invariants together: memory in its canonical form, and every lane grant legal. -/
def Legal (s : State) : Prop := MemInv s ∧ LaneInv s

theorem legal_iff {s : State} : Legal s ↔ Memory.wf s.mem = true ∧ (∀ p ∈ s.harts, HartOk p.2) ∧
    (∀ p ∈ s.switches, HartOk p.2.hart) ∧ ∀ p ∈ s.frames, FrameOk p.2 := Iff.rfl

/-! ## Sparse maps whose entries all have a property -/

theorem cget_all {β : Type} {P : β → Prop} {d : β} {m : Cells β} (hd : P d) (h : ∀ p ∈ m, P p.2) (k : Nat) : P (cget d k m) := by
  induction m with
  | nil => exact hd
  | cons p r ih =>
    obtain ⟨i, x⟩ := p
    unfold cget
    split
    · exact h (i, x) (by simp)
    · exact ih fun q hq => h q (List.mem_cons_of_mem _ hq)

theorem cset_all {β : Type} [DecidableEq β] {P : β → Prop} {d x : β} {m : Cells β} (hx : P x) (h : ∀ p ∈ m, P p.2) (k : Nat) :
    ∀ p ∈ cset d k x m, P p.2 := by
  intro p hp
  unfold cset at hp
  split at hp
  · exact h p (mem_cdel hp)
  · rcases mem_cinsert hp with rfl | hp
    · exact hx
    · exact h p (mem_cdel hp)

/-! ## Harts and frames of a legal state -/

theorem hartOk_reset : HartOk Hart.reset := by unfold HartOk LaneOk; decide
theorem frameOk_empty : FrameOk FrameRec.empty := by unfold FrameOk LaneOk; decide

theorem HartOk.hartOf {s : State} (hs : Legal s) {k : Nat} : HartOk (Machine.hartOf s k) :=
  cget_all hartOk_reset (legal_iff.mp hs).2.1 k
theorem HartOk.me {s : State} (hs : Legal s) : HartOk (Machine.me s) := .hartOf hs
theorem FrameOk.frameRec {s : State} (hs : Legal s) {k : Nat} : FrameOk (Machine.frameRec s k) :=
  cget_all frameOk_empty (legal_iff.mp hs).2.2.2 k
theorem FrameOk.recordOf {kind k : Nat} {x : Hart} {l : List CopyCmd} (hx : HartOk x) : FrameOk (Machine.recordOf kind k x l) :=
  hx
theorem HartOk.ite {c : Prop} [Decidable c] {x y : Hart} (hx : HartOk x) (hy : HartOk y) : HartOk (if c then x else y) := by
  split <;> assumption

/-! ## What each kind of result holds: its state -/

def LRes.st : LRes → State
  | .done s => s
  | .block _ _ s => s
  | .fault _ _ s => s

def GRes.st : GRes → State
  | .done _ s => s
  | .stall _ _ s => s
  | .fault _ _ s => s

def CRes.st : CRes → State
  | .done s => s
  | .block _ _ s => s
  | .fault _ _ s => s

def KR.st {α : Type} : KR α → State
  | .ok _ s => s
  | .bad _ _ s => s
  | .wait s => s

def CmdRes.st : CmdRes → State
  | .go _ s => s
  | .bad _ _ _ _ s => s
  | .err _ s => s
  | .stall _ _ s => s

def Pre.st : Pre → State
  | .ok _ s => s
  | .bad _ _ s => s
  | .wait _ s => s

def PlaceReads.st : PlaceReads → State
  | .ok _ s => s
  | .bad _ _ s => s
  | .wait _ s => s

/-- A push or a pull that does not succeed leaves the state `s` before it. -/
def RingRes.st (s : State) : RingRes → State
  | .ok _ t => t
  | .stall => s
  | .eos => s
  | .bad _ => s

def Gate.st : Gate → State
  | .moved s => s
  | .run _ s => s

namespace Legal

section
variable {α β : Type} {s t : State}

theorem memStep (hs : Legal s) (k : MemStep s t) : Legal t := by
  obtain ⟨hm, hh, hw, hf⟩ := legal_iff.mp hs
  refine legal_iff.mpr ⟨k.wf hm, ?_, ?_, ?_⟩
  · rwa [k.harts]
  · rwa [k.switches]
  · rwa [k.frames]

/-! ### Branches and the answers of accesses -/

theorem ite {c : Prop} [Decidable c] (hs : Legal s) (ht : Legal t) : Legal (if c then s else t) := by
  split <;> assumption
theorem iteOf {f : α → State} {c : Prop} [Decidable c] {x y : α} (hx : Legal (f x)) (hy : Legal (f y)) :
    Legal (f (if c then x else y)) := by
  split <;> assumption
theorem iteOut {c : Prop} [Decidable c] {x y : Out} (hx : Legal (outState x s)) (hy : Legal (outState y s)) :
    Legal (outState (if c then x else y) s) := by
  split <;> assumption

theorem out (ht : Legal t) : Legal (outState (.next t) s) := ht
theorem outFrom {o : Out} (hs : Legal s) (h : Legal (outState o t)) : Legal (outState o s) := by
  cases o with
  | next u => exact h
  | fault | refused => exact hs
theorem ofOk {a : α} (ht : Legal t) : Legal (MR.ok a t).st := ht
theorem ofDone (ht : Legal t) : Legal (LRes.done t).st := ht
theorem ofBlock {x : QEntry} {w : Option PendTrap} (ht : Legal t) : Legal (LRes.block x w t).st := ht
theorem ofMoved (ht : Legal t) : Legal (Gate.moved t).st := ht
/-- A state that differs in no field of the two invariants. -/
theorem keep (hs : Legal s) (h : (t.mem, t.harts, t.switches, t.frames) = (s.mem, s.harts, s.switches, s.frames)) : Legal t := by
  simp only [Prod.mk.injEq] at h
  obtain ⟨hm, hh, hw, hf⟩ := h
  exact legal_iff.mpr (hm ▸ hh ▸ hw ▸ hf ▸ legal_iff.mp hs)
theorem ok {m : MR α} {a : α} (e : m = .ok a t) (h : Legal m.st) : Legal t := by rw [e] at h; exact h
theorem bad {m : MR α} {f : Flt} (e : m = .bad f t) (h : Legal m.st) : Legal t := by rw [e] at h; exact h
theorem wait {m : MR α} (e : m = .wait t) (h : Legal m.st) : Legal t := by rw [e] at h; exact h
theorem kok {m : KR α} {a : α} (e : m = .ok a t) (h : Legal m.st) : Legal t := by rw [e] at h; exact h
theorem kbad {m : KR α} {f : Flt} {n : Nat} (e : m = .bad f n t) (h : Legal m.st) : Legal t := by rw [e] at h; exact h
theorem kwait {m : KR α} (e : m = .wait t) (h : Legal m.st) : Legal t := by rw [e] at h; exact h
theorem done {r : LRes} (e : r = .done t) (h : Legal r.st) : Legal t := by rw [e] at h; exact h
theorem block {r : LRes} {x : QEntry} {w : Option PendTrap} (e : r = .block x w t) (h : Legal r.st) : Legal t := by
  rw [e] at h; exact h
theorem fault {r : LRes} {x : QEntry} {p : PendTrap} (e : r = .fault x p t) (h : Legal r.st) : Legal t := by
  rw [e] at h; exact h
theorem gdone {r : GRes} {x : List QEntry} (e : r = .done x t) (h : Legal r.st) : Legal t := by rw [e] at h; exact h
theorem gstall {r : GRes} {x : List QEntry} {w : Option PendTrap} (e : r = .stall x w t) (h : Legal r.st) : Legal t := by
  rw [e] at h; exact h
theorem cdone {r : CRes} (e : r = .done t) (h : Legal r.st) : Legal t := by rw [e] at h; exact h
theorem cblock {r : CRes} {x : List QEntry} {w : Option PendTrap} (e : r = .block x w t) (h : Legal r.st) : Legal t := by
  rw [e] at h; exact h
theorem cfault {r : CRes} {x : List QEntry} {p : PendTrap} (e : r = .fault x p t) (h : Legal r.st) : Legal t := by
  rw [e] at h; exact h
theorem cmdGo {r : CmdRes} {c : CopyCmd} (e : r = .go c t) (h : Legal r.st) : Legal t := by rw [e] at h; exact h
theorem cmdBad {r : CmdRes} {c : CopyCmd} {f : Flt} {n k : Nat} (e : r = .bad c f n k t) (h : Legal r.st) : Legal t := by
  rw [e] at h; exact h
theorem cmdErr {r : CmdRes} {c : CopyCmd} (e : r = .err c t) (h : Legal r.st) : Legal t := by rw [e] at h; exact h
theorem cmdStall {r : CmdRes} {c : CopyCmd} {b : Bool} (e : r = .stall c b t) (h : Legal r.st) : Legal t := by
  rw [e] at h; exact h
theorem preOk {r : Pre} {l : List Nat} (e : r = .ok l t) (h : Legal r.st) : Legal t := by rw [e] at h; exact h
theorem preBad {r : Pre} {f : Flt} {l : List Nat} (e : r = .bad f l t) (h : Legal r.st) : Legal t :=
  by rw [e] at h; exact h
theorem preWait {r : Pre} {l : List Nat} (e : r = .wait l t) (h : Legal r.st) : Legal t := by rw [e] at h; exact h
theorem placesOk {r : PlaceReads} {l : List (Nat × Fl)} (e : r = .ok l t) (h : Legal r.st) : Legal t := by
  rw [e] at h; exact h
theorem placesBad {r : PlaceReads} {f : Flt} {l : List (Nat × Fl)} (e : r = .bad f l t) (h : Legal r.st) : Legal t := by
  rw [e] at h; exact h
theorem placesWait {r : PlaceReads} {l : List (Nat × Fl)} (e : r = .wait l t) (h : Legal r.st) : Legal t := by
  rw [e] at h; exact h
theorem ringOk {r : RingRes} {bs : List Byte} (e : r = .ok bs t) (h : Legal (r.st s)) : Legal t := by rw [e] at h; exact h
theorem moved {g : Gate} (e : g = .moved t) (h : Legal g.st) : Legal t := by rw [e] at h; exact h
theorem run {g : Gate} {i : Instr} (e : g = .run i t) (h : Legal g.st) : Legal t := by rw [e] at h; exact h
theorem next {o : Out} (e : o = .next t) (h : Legal (outState o s)) : Legal t := by rw [e] at h; exact h
theorem pair {p : α × State} {a : α} (e : p = (a, t)) (h : Legal p.2) : Legal t := by rw [e] at h; exact h
theorem pairMR {p : α × MR β} {a : α} {m : MR β} (e : p = (a, m)) (h : Legal p.2.st) : Legal m.st :=
  by rw [e] at h; exact h

theorem mbind {m : MR α} {f : α → State → MR β} (hm : Legal m.st) (hf : ∀ a t, Legal t → Legal (f a t).st) :
    Legal (mbind m f).st := by
  cases m with
  | ok a t => exact hf a t hm
  | bad e t => exact hm
  | wait t => exact hm
theorem kbind {m : KR α} {f : α → State → KR β} (hm : Legal m.st) (hf : ∀ a t, Legal t → Legal (f a t).st) :
    Legal (kbind m f).st := by
  cases m with
  | ok a t => exact hf a t hm
  | bad e n t => exact hm
  | wait t => exact hm

theorem foldl {f : State → α → State} {l : List α} (hs : Legal s) (hf : ∀ t x, Legal t → Legal (f t x)) : Legal (l.foldl f s) := by
  induction l generalizing s with
  | nil => exact hs
  | cons x l ih => exact ih (hf s x hs)

/-! ### Updates -/

theorem setHart {k : Nat} {x : Hart} (hs : Legal s) (hx : HartOk x) : Legal (setHart k x s) := by
  obtain ⟨hm, hh, hw, hf⟩ := legal_iff.mp hs
  exact legal_iff.mpr ⟨hm, cset_all hx hh k, hw, hf⟩
theorem modHart {k : Nat} {f : Hart → Hart} (hs : Legal s) (hf : ∀ x, HartOk x → HartOk (f x)) :
    Legal (modHart k f s) := setHart hs (hf _ (.hartOf hs))
theorem modMe {f : Hart → Hart} (hs : Legal s) (hf : ∀ x, HartOk x → HartOk (f x)) :
    Legal (modMe f s) := modHart hs hf
theorem setMem {a : Nat} {bs : List Byte} (hs : Legal s) : Legal (setMem a bs s) := hs.memStep (setMem_step _ _ _)
theorem zeroMem {a n : Nat} (hs : Legal s) : Legal (zeroMem a n s) := hs.memStep (zeroMem_step _ _ _)
theorem setFrame {k : Nat} {r : FrameRec} (hs : Legal s) (hr : FrameOk r) :
    Legal { s with frames := cset FrameRec.empty k r s.frames } := by
  obtain ⟨hm, hh, hw, hf⟩ := legal_iff.mp hs
  exact legal_iff.mpr ⟨hm, hh, hw, cset_all hr hf k⟩
theorem setSwitch {k : Nat} {r : SwitchRec} (hs : Legal s) (hr : HartOk r.hart) :
    Legal { s with switches := cset SwitchRec.empty k r s.switches } := by
  obtain ⟨hm, hh, hw, hf⟩ := legal_iff.mp hs
  exact legal_iff.mpr ⟨hm, hh, cset_all (P := fun r : SwitchRec => HartOk r.hart) hr hw k, hf⟩
/-! A field that is in neither invariant may take any value. -/

theorem coreRecs {m} (hs : Legal s) : Legal { s with coreRecs := m } := hs
theorem mgroups {m} (hs : Legal s) : Legal { s with mgroups := m } := hs
theorem accE {m} (hs : Legal s) : Legal { s with accE := m } := hs
theorem accD {m} (hs : Legal s) : Legal { s with accD := m } := hs
theorem replies {l} (hs : Legal s) : Legal { s with replies := l } := hs
theorem waiting {l} (hs : Legal s) : Legal { s with waiting := l } := hs

theorem keepSwitches {p : Nat → Bool} (hs : Legal s) : Legal { s with switches := ckeep p s.switches } := by
  obtain ⟨hm, hh, hw, hf⟩ := legal_iff.mp hs
  exact legal_iff.mpr ⟨hm, hh, fun q hq => hw q (List.mem_of_mem_filter hq), hf⟩

end

end Legal

/-! ### The accessors and the memory -/

theorem Legal.setCore {c x s} (hs : Legal s) : Legal (setCore c x s) := hs

theorem Legal.modCore {c} {f : Core → Core} {s} (hs : Legal s) : Legal (modCore c f s) := .setCore hs

theorem Legal.setPart {p x s} (hs : Legal s) : Legal (setPart p x s) := hs

theorem Legal.modPart {p} {f : Part → Part} {s} (hs : Legal s) : Legal (modPart p f s) := hs.memStep (modPart_step _ _ _)

theorem Legal.modLink {l} {f : Link → Link} {s} (hs : Legal s) : Legal (modLink l f s) := hs.memStep (modLink_step _ _ _)

theorem Legal.modJob {j} {f : Job → Job} {s} (hs : Legal s) : Legal (modJob j f s) := hs

theorem Legal.modMigr {p} {f : Migration → Migration} {s} (hs : Legal s) : Legal (modMigr p f s) :=
  hs.memStep (modMigr_step _ _ _)

theorem Legal.modQueue {p q} {f : Queue → Queue} {s} (hs : Legal s) : Legal (modQueue p q f s) := hs

theorem Legal.bump {s} (hs : Legal s) : Legal (bump s) := hs.memStep (bump_step _)

theorem Legal.logRecord {target part master addr kind reason s} (hs : Legal s) :
    Legal (logRecord target part master addr kind reason s) :=
  .modPart hs

theorem Legal.logDenial {s master part a kind reason} (hs : Legal s) : Legal (logDenial s master part a kind reason) :=
  hs.memStep (logDenial_step _ _ _ _ _ _)

theorem Legal.rawWrite {a n x s} (hs : Legal s) : Legal (rawWrite a n x s) := hs.memStep (rawWrite_step _ _ _ _)

theorem Legal.settleZero {s a} (hs : Legal s) : Legal (settleZero s a) := hs.memStep (settleZero_step _ _)

theorem Legal.rootPut {a bs s} (hs : Legal s) : Legal (rootPut a bs s) := .setMem (.foldl hs fun _ _ ht => .settleZero ht)

theorem Legal.translate {w va kind s} (hs : Legal s) :
  Legal (translate w va kind s).st := hs.memStep (translate_step _ _ _ _)

theorem Legal.transFor {w va kind s} (hs : Legal s) : Legal (transFor w va kind s).st :=
  hs.memStep (transFor_step _ _ _ _)

theorem Legal.letGo {h} {p : Nat → Bool} {s} (hs : Legal s) : Legal (letGo h p s) := hs.memStep (letGo_step _ _ _)

theorem Legal.dropHeld {p : Hart → Bool} {page : Nat → Bool} {s} (hs : Legal s) : Legal (dropHeld p page s) :=
  hs.memStep (dropHeld_step _ _ _)

theorem Legal.logAt {s master part l kind reason} (hs : Legal s) : Legal (logAt s master part l kind reason) :=
  hs.memStep (logAt_step _ _ _ _ _ _)

theorem Legal.recWrite {die a n x s} (hs : Legal s) : Legal (recWrite die a n x s) := hs.memStep (recWrite_step _ _ _ _ _)

theorem Legal.recAllowed {die part i wr va s} (hs : Legal s) : Legal (recAllowed die part i wr va s).st :=
  hs.memStep (recAllowed_step _ _ _ _ _ _)

theorem Legal.foldShadow {va s die part i} (hs : Legal s) : Legal (foldShadow va s die part i).st :=
  hs.memStep (foldShadow_step _ _ _ _ _)

theorem Legal.addMeter {part k n s} (hs : Legal s) : Legal (addMeter part k n s) := hs.memStep (addMeter_step _ _ _ _)

theorem Legal.meterClusters {job s} (hs : Legal s) : Legal (meterClusters job s) := .addMeter (.modJob hs)

theorem Legal.settleMeters {part s} (hs : Legal s) : Legal (settleMeters part s) :=
  .modPart (.addMeter (.addMeter (.addMeter (.foldl hs fun _ _ ht => .meterClusters ht))))

theorem Legal.cacheReply {link master tag code reply s} (hs : Legal s) :
    Legal (cacheReply link master tag code reply s) :=
  hs.memStep (cacheReply_step _ _ _ _ _ _)

theorem Legal.useTag {link master s} (hs : Legal s) : Legal (useTag link master s) := hs.memStep (useTag_step _ _ _)

theorem Legal.crossLink {link meter master part n reply s} (hs : Legal s) :
    Legal (crossLink link meter master part n reply s) :=
  hs.memStep (crossLink_step _ _ _ _ _ _ _)

theorem Legal.holdRequest {link r s} (hs : Legal s) : Legal (holdRequest link r s) := hs.memStep (holdRequest_step _ _ _)

theorem Legal.leaveOutstanding {link w va l kind n bs s} (hs : Legal s) :
    Legal (leaveOutstanding link w va l kind n bs s) :=
  hs.memStep (leaveOutstanding_step _ _ _ _ _ _ _ _)

theorem Legal.dropAnswers {h} {p : LinkReq → Bool} {s} (hs : Legal s) : Legal (dropAnswers h p s) := hs

theorem Legal.setOwned {agent h l s} (hs : Legal s) : Legal (setOwned agent h l s) := hs

theorem Legal.leaveKey {u s} (hs : Legal s) : Legal (leaveKey u s) := hs

theorem Legal.endAccesses {h s} (hs : Legal s) : Legal (endAccesses h s) := hs

theorem Legal.endWork {h s} (hs : Legal s) : Legal (endWork h s) := hs

/-! ### CSR values and accesses -/

theorem HartOk.csrPut {n v x} (hx : HartOk x) : HartOk (csrPut n v x) := by
  unfold Machine.csrPut
  split <;> exact hx

theorem Legal.mmioWrite {a bs s} (hs : Legal s) : Legal (mmioWrite a bs s) := hs.memStep (mmioWrite_step _ _ _)

theorem Legal.crossNow {link meter w va l kind n s} (hs : Legal s) : Legal (crossNow link meter w va l kind n s).st :=
  hs.memStep (crossNow_step _ _ _ _ _ _ _ _)

theorem Legal.leeReadBy {agent w va l n s} (hs : Legal s) : Legal (leeReadBy agent w va l n s).st :=
  hs.memStep (leeReadBy_step _ _ _ _ _ _)

theorem Legal.dropLine {w l s} (hs : Legal s) : Legal (dropLine w l s) := hs.memStep (dropLine_step _ _ _)

theorem Legal.readAt {w va l kind n s} (hs : Legal s) : Legal (readAt w va l kind n s).st :=
  hs.memStep (readAt_step _ _ _ _ _ _)

theorem Legal.foldWrite {w l bs s} (hs : Legal s) : Legal (foldWrite w l bs s) := hs.memStep (foldWrite_step _ _ _ _)

theorem Legal.storeBytes {w l bs s} (hs : Legal s) : Legal (storeBytes w l bs s) := hs.memStep (storeBytes_step _ _ _ _)

theorem Legal.writeReach {w va l bs s} (hs : Legal s) : Legal (writeReach w va l bs s).st :=
  hs.memStep (writeReach_step _ _ _ _ _)

theorem Legal.writeAt {w va l bs s} (hs : Legal s) : Legal (writeAt w va l bs s).st := hs.memStep (writeAt_step _ _ _ _ _)

theorem Legal.vaRead {w va n s} (hs : Legal s) : Legal (vaRead w va n s).st := hs.memStep (vaRead_step _ _ _ _)

theorem Legal.vaWrite {w va bs s} (hs : Legal s) : Legal (vaWrite w va bs s).st := hs.memStep (vaWrite_step _ _ _ _)

theorem Legal.vaPassWrite {w va bs s} (hs : Legal s) : Legal (vaPassWrite w va bs s).st :=
  hs.memStep (vaPassWrite_step _ _ _ _)

theorem Legal.vaAtomic {w va n} {f : Nat → Option Nat} {s} (hs : Legal s) : Legal (vaAtomic w va n f s).st :=
  hs.memStep (vaAtomic_step _ _ _ _ _)

theorem Legal.vaReadN {w va n s} (hs : Legal s) : Legal (vaReadN w va n s).st := hs.memStep (vaReadN_step _ _ _ _)

theorem Legal.vaWriteN {w va bs s} (hs : Legal s) : Legal (vaWriteN w va bs s).st := hs.memStep (vaWriteN_step _ _ _ _)

theorem Legal.readPart {w} :
    ∀ {x1 x2 x3 s}, Legal s → Legal ((readPart w x1 x2 x3 s).2.st)
  | 0, _, _, _, hs => hs
  | _ + 1, _, _, _, hs => by
    unfold Machine.readPart
    split
    · exact hs
    · dsimp only
      split
      next e => exact .readPart (.ok e (.vaRead hs))
      next e => exact .bad e (.vaRead hs)
      next e => exact .wait e (.vaRead hs)

theorem Legal.vaProbe {w va n s} (hs : Legal s) : Legal (vaProbe w va n s).st := hs.memStep (probeRun_step _ _ _ _ _)

theorem Legal.writePart {w} :
    ∀ {x1 x2 x3 s}, Legal s → Legal ((writePart w x1 x2 x3 s).2.st)
  | 0, _, _, _, hs => hs
  | _ + 1, _, _, _, hs => by
    unfold Machine.writePart
    split
    · exact hs
    · dsimp only
      split
      next e => exact .writePart (.ok e (.vaWrite hs))
      next e => exact .bad e (.vaWrite hs)
      next e => exact .wait e (.vaWrite hs)

theorem Legal.vaReadNum {w va n s} (hs : Legal s) : Legal (vaReadNum w va n s).st := hs.memStep (vaReadNum_step _ _ _ _)

/-! ### Shared operations, frames and traps -/

theorem Legal.setG {r v s} (hs : Legal s) : Legal (setG r v s) := .ite hs (.modMe hs fun _ => id)

theorem Legal.setGNat {r v s} (hs : Legal s) : Legal (setGNat r v s) := .setG hs

theorem Legal.addFl {f s} (hs : Legal s) : Legal (addFl f s) := .modMe hs fun _ => id

theorem Legal.goto {pc s} (hs : Legal s) : Legal (goto pc s) := .modMe hs fun _ => id

theorem Legal.retire {n s} (hs : Legal s) : Legal (retire n s) := .goto hs

theorem Legal.stallOn {f s} (hs : Legal s) : Legal (stallOn f s) := .modMe hs fun _ => id

theorem Legal.incTag {core t s} (hs : Legal s) : Legal (incTag core t s) := .modCore hs

theorem Legal.decTag {core t s} (hs : Legal s) : Legal (decTag core t s) := .modCore hs

theorem Legal.discardCmd {core c s} (hs : Legal s) : Legal (discardCmd core c s) := .ite hs (.decTag (.modCore hs))

theorem Legal.discardCmds {core l s} (hs : Legal s) :
  Legal (discardCmds core l s) := .foldl hs fun _ _ ht => .discardCmd ht

theorem Legal.takeCmds {h s} (hs : Legal s) : Legal (takeCmds h s).2 := .setCore hs

theorem Legal.performStore {h c s} (hs : Legal s) : Legal (performStore h c s) := .storeBytes (.modHart hs fun _ => id)

theorem Legal.drainList {h} :
    ∀ {x1 s}, Legal s → Legal (drainList h x1 s)
  | [], _, hs => hs
  | _ :: _, _, hs => .ite hs (.drainList (.performStore hs))

theorem Legal.drainStores {h s} (hs : Legal s) : Legal (drainStores h s) := .drainList hs

theorem Legal.killHart {h s} (hs : Legal s) : Legal (killHart h s) :=
  .modHart (.endWork (.discardCmds (.modCore (.foldl hs fun _ _ ht => .performStore ht)))) fun _ => id

theorem Legal.doubleTrap {h s} (hs : Legal s) : Legal (doubleTrap h s) := by
  unfold Machine.doubleTrap
  split
  · exact .killHart hs
  · exact .foldl (.killHart (.modJob hs)) fun _ _ ht => .killHart ht

theorem Legal.writeFrame {h addr rec' fs vstart s} (hs : Legal s) (hr : FrameOk rec') :
    Legal (writeFrame h addr rec' fs vstart s).st :=
  .mbind (.vaProbe hs) fun _ _ ht => .mbind (.vaWriteN (.bump ht)) fun _ _ hu => .setFrame hu hr

theorem HartOk.unwindConvoy {x} (hx : HartOk x) : HartOk (unwindConvoy x) := by
  unfold Machine.unwindConvoy
  split <;> exact hx

theorem Legal.takeAllCmds {h s} (hs : Legal s) : Legal (takeAllCmds h s).2 := .setCore hs

theorem Legal.debugStop {h why pc s} (hs : Legal s) : Legal (debugStop h why pc s) := by
  unfold Machine.debugStop
  refine .ite (.modHart (.drainStores hs) fun _ => id) (.modHart ?_ fun _ => id)
  have ht : Legal (Machine.takeAllCmds h (Machine.endAccesses h (Machine.modHart h Machine.unwindConvoy
      (Machine.drainStores h s)))).2 := .takeAllCmds
        (.endAccesses (.modHart (.drainStores hs) fun _ hx => .unwindConvoy hx))
  split
  next e => exact .ok e (.writeFrame ht (.recordOf (.hartOf ht)))
  next e => exact .bad e (.writeFrame ht (.recordOf (.hartOf ht)))
  next e => exact .wait e (.writeFrame ht (.recordOf (.hartOf ht)))

theorem HartOk.toHandler {f imp pc lpc elem vstart cmds x} (hx : HartOk x) :
    HartOk (toHandler f imp pc lpc elem vstart cmds x) :=
  hx

theorem Legal.enterTrap {h f imp pc lpc elem vstart fs s} (hs : Legal s) :
    Legal (enterTrap h f imp pc lpc elem vstart fs s) := by
  unfold Machine.enterTrap
  dsimp only
  refine .ite (.modHart (.drainStores hs) fun _ => id) ?_
  refine .ite (.debugStop (.modHart (.drainStores hs) fun _ => id)) ?_
  refine .ite (.doubleTrap (.drainStores hs)) ?_
  split
  next e =>
    exact .doubleTrap (.modCore (.bad e
      (.writeFrame (.setCore (.drainStores hs)) (.recordOf (.unwindConvoy (.hartOf (.drainStores hs)))))))
  next e =>
    exact .modHart (.modCore (.wait e (.writeFrame (.setCore (.drainStores hs))
      (.recordOf (.unwindConvoy (.hartOf (.drainStores hs))))))) fun _ => id
  next e =>
    exact .modHart (.endAccesses (.ok e
      (.writeFrame (.setCore (.drainStores hs)) (.recordOf (.unwindConvoy (.hartOf (.drainStores hs))))))) fun _ hx =>
      .toHandler (.unwindConvoy hx)

theorem Legal.deliver {h pc s} (hs : Legal s) : Legal (deliver h pc s) := by
  unfold Machine.deliver
  split
  · exact .enterTrap hs
  · exact hs

theorem Legal.preciseAt {f pc lpc s} (hs : Legal s) : Legal (preciseAt f pc lpc s) := by
  unfold Machine.preciseAt
  split
  · exact .deliver hs
  · exact .enterTrap hs

theorem Legal.preciseTrap {f s} (hs : Legal s) : Legal (preciseTrap f s) := .preciseAt hs

theorem Legal.illegal {reason s} (hs : Legal s) : Legal (illegal reason s) := .preciseTrap hs

theorem Legal.illegalLong {reason s} (hs : Legal s) : Legal (illegalLong reason s) := .preciseAt hs

theorem Legal.privTrap {s} (hs : Legal s) : Legal (privTrap s) := .preciseTrap hs

theorem Legal.scalarDo {α : Type} {m : MR α} {k : α → State → State} (hs : Legal m.st)
    (hk : ∀ a t, Legal t → Legal (k a t)) : Legal (scalarDo m k) := by
  unfold Machine.scalarDo
  split
  · exact hk _ _ hs
  · exact .preciseTrap hs
  · exact hs

theorem Legal.sync {mask} {k : State → State} {s} (hs : Legal s) (hk : ∀ t, Legal t → Legal (k t)) :
    Legal (sync mask k s) := by
  unfold Machine.sync
  dsimp only
  split
  · exact .ite (.deliver (.ite (.drainStores hs) hs))
      (.ite (.ite (.drainStores hs) hs) (hk _ (.ite (.drainStores hs) hs)))
  · exact .ite (.ite (.drainStores hs) hs) (hk _ (.ite (.drainStores hs) hs))

theorem Legal.readFrame {h a s} (hs : Legal s) : Legal (Machine.readFrame h a s).st :=
  .mbind (.vaReadN hs) fun _ _ ht => .iteOf ht
    (.iteOf ht (.mbind (.vaReadN ht) fun _ _ hu => .mbind (.vaReadN hu) fun _ _ hv =>
    .iteOf hv hv))

/-- A frame that is read back whole is one of those that the state keeps (log 9). -/
theorem FrameOk.readFrame {h : Nat} {a : Word} {s t : State} {r : FrameRec} (hs : Legal s)
    (e : Machine.readFrame h a s = .ok (.good r) t) : FrameOk r := by
  unfold Machine.readFrame at e
  obtain ⟨head, u, e1, e⟩ := mbind_eq_ok_iff.mp e
  dsimp only at e
  split at e
  · simp at e
  split at e
  · simp at e
  obtain ⟨hb, v, e2, e⟩ := mbind_eq_ok_iff.mp e
  obtain ⟨cb, w, e3, e⟩ := mbind_eq_ok_iff.mp e
  split at e
  · have er : Machine.frameRec w _ = r := FrameCheck.good.inj (MR.ok.inj e).1
    exact er ▸ .frameRec (.ok e3 (.vaReadN (.ok e2 (.vaReadN (.ok e1 (.vaReadN hs))))))
  · simp at e

/-- A scalar instruction that reads a frame and goes on with what it holds. -/
theorem Legal.withFrame {h : Nat} {a : Word} {s : State} {k : FrameCheck → State → State} (hs : Legal s)
    (hg : ∀ r t, FrameOk r → Legal t → Legal (k (.good r) t)) (hw : ∀ t, Legal t → Legal (k .wrong t)) :
    Legal (Machine.scalarDo (Machine.readFrame h a s) k) := by
  have hr : Legal (Machine.readFrame h a s).st := .readFrame hs
  unfold Machine.scalarDo
  split
  next c t e =>
    cases c with
    | good r => exact hg r t (.readFrame hs e) (.ok e hr)
    | wrong => exact hw t (.ok e hr)
  next e => exact .preciseTrap (.bad e hr)
  next e => exact .wait e hr

theorem Legal.restoreRegs {h rec' keepChains s} (hs : Legal s) (hr : FrameOk rec') :
    Legal (restoreRegs h rec' keepChains s) :=
  .modHart hs fun _ hx => .ite hx hr

theorem HartOk.resumeCap {x} (hx : HartOk x) : HartOk (resumeCap x) := by
  unfold Machine.resumeCap
  split <;> exact hx

theorem Legal.settleRev {core s} (hs : Legal s) : Legal (settleRev core s) := .modCore hs

theorem Legal.adoptKeys {h k s} (hs : Legal s) : Legal (adoptKeys h k s) := .ite hs hs

theorem Legal.issueStopped {h vq mq cmds s} (hs : Legal s) : Legal (issueStopped h vq mq cmds s) :=
  .modHart (.modCore (.foldl hs fun _ _ ht => .ite (.incTag ht) ht)) fun _ => id

theorem Legal.finishEret {s} (hs : Legal s) : Legal (finishEret s) := by
  unfold Machine.finishEret
  dsimp only
  split
  · exact .goto (.setG (.setG (.setG (.setG (.modMe (.endWork (.discardCmds hs)) fun _ => id)))))
  · exact .goto (.modMe (.issueStopped (.letGo hs)) fun _ hx => .resumeCap hx)

theorem Legal.returnFromTrap {s} (hs : Legal s) : Legal (returnFromTrap s) :=
  .ite (.finishEret hs) <| .withFrame hs
    (fun _ _ hr ht => .finishEret (.settleRev (.modMe (.adoptKeys (.restoreRegs ht hr)) fun _ => id))) fun _ ht =>
      .illegal ht

theorem Legal.wake {h s} (hs : Legal s) : Legal (wake h s) := .ite (.modHart hs fun _ => id) hs

theorem Legal.wakeCore {core s} (hs : Legal s) : Legal (wakeCore core s) := .foldl hs fun _ _ ht => .wake ht

theorem Legal.setQueue {n q s} (hs : Legal s) : Legal (setQueue n q s) :=
  .ite (.modCore hs) (.ite (.modCore hs) (.modMe hs fun _ => id))

theorem Legal.appendQueue {n v s} (hs : Legal s) : Legal (appendQueue n v s) :=
  .ite (.setQueue hs) (.ite (.wake (.setQueue hs)) (.wakeCore (.setQueue hs)))

theorem popcount_le (n x : Nat) : popcount n x ≤ n := by
  induction n with
  | zero => exact Nat.le_refl 0
  | succ n ih =>
    unfold popcount at ih ⊢
    rw [List.range_succ, List.foldl_concat]
    have : b2n (x.testBit n) ≤ 1 := by unfold b2n; split <;> omega
    omega

/-- No lane set is granted more than eight groups (R201). -/
theorem grantOf_le (s : State) (l : BitVec 8) : grantOf s l ≤ 8 :=
  Nat.le_trans (Nat.min_le_left _ _) (popcount_le 8 _)

/-! ### Operands and the issue of queued instructions -/

theorem HartOk.touchV {v k n x} (hx : HartOk x) : HartOk (touchV v k n x) := hx

theorem HartOk.putRow {v k r x} (hx : HartOk x) : HartOk (putRow v k r x) := hx

theorem Legal.setVElem {v k e w y s} (hs : Legal s) : Legal (setVElem v k e w y s) := .modMe hs fun _ => id

theorem HartOk.setMBitH {m k e b x} (hx : HartOk x) : HartOk (setMBitH m k e b x) := .ite hx hx

theorem Legal.setMBit {m k e b s} (hs : Legal s) : Legal (setMBit m k e b s) := .modMe hs fun _ hx => .setMBitH hx

theorem Legal.stopAt {e elem f fs s} (hs : Legal s) : Legal (stopAt e elem f fs s).st := hs

theorem Legal.entered {slot : Nat} {r : LRes} (hr : Legal r.st) : Legal (entered slot r).st := by
  cases r with
  | done s => exact Legal.letGo (h := s.cur) (p := fun n => n == slot) hr
  | block _ _ _ | fault _ _ _ => exact hr

theorem Legal.setPend {h p s} (hs : Legal s) : Legal (setPend h p s) := by
  unfold Machine.setPend
  dsimp only
  refine .wake ?_
  split
  · exact .ite (.modHart hs fun _ => id) hs
  · exact .modHart hs fun _ => id

theorem Legal.abandonCapture {reasonLong s} (hs : Legal s) : Legal (abandonCapture reasonLong s) :=
  .ite (.illegalLong (.ite hs (.modMe hs fun _ => id))) (.illegal (.ite hs (.modMe hs fun _ => id)))

theorem Legal.nextInConvoy {s} (hs : Legal s) : Legal (nextInConvoy s) := .ite (.modMe hs fun _ => id) hs

theorem Legal.capture {k i s} (hs : Legal s) : Legal (capture k i s) :=
  .ite (.abandonCapture hs) (.retire (.nextInConvoy (.modMe hs fun _ => id)))

theorem Legal.afterV {r rest} (hs : Legal r.st) : Legal (afterV r rest) := by
  unfold Machine.afterV
  split
  · exact .modMe hs fun _ => id
  · exact .modMe hs fun _ => id
  · exact .setPend (.modMe hs fun _ => id)

theorem Legal.afterM {r rest} (hs : Legal r.st) : Legal (afterM r rest) := by
  unfold Machine.afterM
  split
  · exact .modMe hs fun _ => id
  · exact .modMe hs fun _ => id
  · exact .setPend (.modMe hs fun _ => id)

theorem Legal.issueV {k i} {run : Perform} {s} (hs : Legal s) (hrun : ∀ e t, Legal t → Legal (run e t).st) :
    Legal (issueV k i run s) := by
  unfold Machine.issueV
  dsimp only
  split
  · exact .illegalLong hs
  · exact .ite (.capture hs) (.ite hs (.ite (.afterV (hrun _ _ (.retire (.nextInConvoy hs))))
      (.modMe (.retire (.nextInConvoy hs)) fun _ => id)))

theorem Legal.issueMark {i} {f : State → State} {s} (hs : Legal s) (hf : ∀ t, Legal t → Legal (f t)) :
    Legal (issueMark i f s) :=
  .ite (.abandonCapture hs) (.ite hs (.ite (.retire (hf _ hs)) (.modMe (.retire (hf _ hs)) fun _ => id)))

theorem Legal.issueM {k i} {run : Perform} {s} (hs : Legal s) (hrun : ∀ e t, Legal t → Legal (run e t).st) :
    Legal (issueM k i run s) := by
  unfold Machine.issueM
  dsimp only
  split
  · exact .illegalLong hs
  · exact .ite (.abandonCapture hs) (.ite hs (.ite (.afterM (hrun _ _ (.retire hs))) (.modMe (.retire hs) fun _ => id)))

theorem Legal.scalarLong {f : State → State} {s} (hs : Legal s) (hf : ∀ t, Legal t → Legal (f t)) :
    Legal (scalarLong f s) :=
  .ite (.abandonCapture hs) (hf _ hs)

/-! ### Scalar memory -/

theorem Legal.scalarWrite {w va bs s} (hs : Legal s) : Legal (scalarWrite w va bs s).st :=
  .mbind (.transFor hs) fun _ _ ht => .iteOf (.mbind (.writeReach ht) fun _ _ hu => .ofOk (.modHart hu fun _ => id))
    (.iteOf (.writeAt (.drainStores ht)) (.drainStores ht))

theorem Legal.loadOp {n sx d a imm s} (hs : Legal s) : Legal (outState (loadOp n sx d a imm s) s) :=
  .iteOut (.out (.preciseTrap hs)) (.out
    (.scalarDo (.mbind (.transFor hs) fun _ _ ht => .mbind (.readAt ht) fun _ _ hu => hu) fun _ _ ht =>
    .retire (.setG ht)))

theorem Legal.storeOp {n a b imm s} (hs : Legal s) : Legal (outState (storeOp n a b imm s) s) :=
  .iteOut (.out (.preciseTrap hs)) (.out (.scalarDo (.scalarWrite hs) fun _ _ ht => .retire ht))

theorem Legal.clampScope {scope s} (hs : Legal s) : Legal (clampScope scope s) := .ite (.modMe hs fun _ => id) hs

theorem Legal.atomicOp {o d a} {f : Nat → Option Nat} {s} (hs : Legal s) : Legal (outState (atomicOp o d a f s) s) :=
  .iteOut (.out (.preciseTrap hs)) (.out
    (.scalarDo (.iteOf (.vaAtomic (.drainStores hs)) (.drainStores hs)) fun _ _ ht =>
    .retire (.clampScope (.setG ht))))

/-! ### Queue registers, control and CSRs -/

theorem Legal.execQget {d q s} (hs : Legal s) : Legal (outState (execQget d q s) s) := by
  unfold Machine.execQget
  dsimp only
  refine .out ?_
  refine .ite ?_ ?_
  · refine .sync hs fun _ ht => ?_
    split
    · exact .stallOn ht
    · exact .retire (.setG (.setQueue ht))
  · split
    · exact .stallOn hs
    · exact .retire (.setG (.setQueue hs))

theorem Legal.tryGang {h s} (hs : Legal s) :
  Legal (tryGang h s) := .ite (.foldl hs fun _ _ ht => .ite (.modHart ht fun _ => id) ht) hs

theorem Legal.branchOp {c imm s} (hs : Legal s) : Legal (outState (branchOp c imm s) s) :=
  .out (.ite (.goto hs) (.retire hs))

theorem Legal.jumpTo {t n d s} (hs : Legal s) : Legal (jumpTo t n d s) := .ite (.preciseTrap hs) (.goto (.setG hs))

theorem Legal.csrAccess {n writes reads} {k : State → State} {s} (hs : Legal s) (hk : ∀ t, Legal t → Legal (k t)) :
    Legal (csrAccess n writes reads k s) :=
  .ite (.illegal hs) (.ite (.privTrap hs) (.ite (.illegal hs) (.ite (.sync hs hk) (hk _ hs))))

theorem Legal.execQueuehang {h s} (hs : Legal s) : Legal (outState (execQueuehang h s) s) := by
  unfold Machine.execQueuehang
  dsimp only
  split
  · exact .out (.ite (.deliver hs) (.enterTrap hs))
  · split
    · exact .out (.setPend hs)
    · exact .out (.setPend hs)
    · exact .out hs

/-! ### Fetching -/

theorem Legal.fetchLoc {va s} (hs : Legal s) : Legal (fetchLoc va s).st := by
  unfold Machine.fetchLoc
  dsimp only
  split
  · split
    · exact .iteOf hs hs
    · exact .mbind (.translate hs) fun _ _ ht => .modMe ht fun _ => id
  · exact .mbind (.translate hs) fun _ _ ht => .modMe ht fun _ => id

theorem Legal.fromLine {l bs s} (hs : Legal s) : Legal (fromLine l bs s).st := by
  unfold Machine.fromLine
  dsimp only
  refine .iteOf hs ?_
  split
  · exact .modMe hs fun _ => id
  · exact hs

theorem Legal.fetchParcel {va s} (hs : Legal s) : Legal (fetchParcel va s).st :=
  .mbind (.fetchLoc hs) fun _ _ ht => .mbind (.readAt ht) fun _ _ hu => .fromLine hu

theorem Legal.fetchCode {va s} (hs : Legal s) : Legal (fetchCode va s).st :=
  .mbind (.fetchParcel hs) fun _ _ ht => .iteOf (.mbind (.fetchParcel ht) fun _ _ hu => hu) ht

/-! ### Rings -/

theorem Legal.srfWrite {core off bs s} (hs : Legal s) : Legal (srfWrite core off bs s) := .setMem hs

theorem Legal.ringPush {core off bs s} (hs : Legal s) : Legal ((ringPush core off bs s).st s) :=
  .iteOf hs (.iteOf hs (.iteOf hs (.iteOf hs (.srfWrite (.srfWrite hs)))))

theorem Legal.ringPull {core off s} (hs : Legal s) : Legal ((ringPull core off s).st s) :=
  .iteOf hs (.iteOf hs (.iteOf (.iteOf hs hs) (.iteOf hs (.srfWrite hs))))

/-! ### Sources and the element loop -/

theorem Legal.streamElem {w core srf base bits x s} (hs : Legal s) : Legal (streamElem w core srf base bits x s).st :=
  .iteOf (.iteOf hs (.iteOf hs hs)) (.mbind (.vaRead hs) fun _ _ ht => ht)

theorem Legal.setBinding {slot b s} (hs : Legal s) : Legal (setBinding slot b s) := .modMe hs fun _ => id

theorem Legal.ringByte {core slot need} :
    ∀ {b x4 s}, Legal s → Legal (ringByte core slot b need x4 s).st
  | _, 0, _, hs => hs
  | _, _ + 1, _, hs => by
    unfold Machine.ringByte
    refine .iteOf hs ?_
    split
    next e => exact .ringByte (.setBinding (.ringOk e (.ringPull hs)))
    · exact hs
    · exact .iteOf hs hs
    · exact hs

theorem Legal.ringElem {core slot b x s} (hs : Legal s) : Legal (ringElem core slot b x s).st := by
  unfold Machine.ringElem
  dsimp only
  refine .iteOf (.bump hs) ?_
  refine .mbind (.ringByte hs) fun _ _ ht => ?_
  split
  · exact ht
  · split
    · exact ht
    · exact .bump ht

theorem Legal.boundElem {c slot b o k e s} (hs : Legal s) : Legal (boundElem c slot b o k e s).st := by
  unfold Machine.boundElem
  refine .iteOf hs ?_
  dsimp only
  refine .mbind (.iteOf (.ringElem hs) (.mbind (.streamElem hs) fun _ _ ht => ht)) fun _ _ ht => ?_
  split
  · exact ht
  · exact .iteOf (.bump ht) (.mbind (.streamElem ht) fun _ _ hu =>
      .iteOf (.bump hu) (.mbind (.streamElem hu) fun _ _ hv => .bump hv))

theorem Legal.srcElem {c v o k e s} (hs : Legal s) : Legal (srcElem c v o k e s).st := by
  unfold Machine.srcElem
  split
  · exact .boundElem hs
  · exact hs

theorem Legal.consume {srcs s} (hs : Legal s) : Legal (consume srcs s) := .modMe hs fun _ => id

theorem Legal.endBind {e later} {fin : State → LRes} {s} (hs : Legal s) (hfin : ∀ t, Legal t → Legal (fin t).st) :
    Legal (endBind e later fin s).st := by
  unfold Machine.endBind
  split
  · exact hfin _ hs
  · exact hs

theorem Legal.elemRun {e} {body : Nat → Nat → State → MR Unit} {fs : State → Nat → Nat → Flt → FaultStream}
  {hang : State → Nat → Option PendTrap} {fin : State → LRes} (hbody : ∀ a a1 t, Legal t → Legal (body a a1 t).st)
  (hfin : ∀ t, Legal t → Legal (fin t).st) :
    ∀ {x5 s}, Legal s → Legal (elemRun e body fs hang fin x5 s).st
  | [], _, hs => hfin _ hs
  | (_, _) :: _, _, hs => by
    unfold Machine.elemRun
    refine .iteOf (.elemRun hbody hfin hs) ?_
    split
    next e => exact .elemRun hbody hfin (.ok e (hbody _ _ _ hs))
    next e => exact .stopAt (.bad e (hbody _ _ _ hs))
    next e => exact .wait e (hbody _ _ _ hs)

theorem Legal.elemLoop {e} {body : Nat → Nat → State → MR Unit} {fs hang l s} (hs : Legal s)
    (hbody : ∀ a b t, Legal t → Legal (body a b t).st) : Legal (elemLoop e body fs hang l s).st :=
  .elemRun hbody (fun _ ht => .endBind ht fun _ hu => .ofDone hu) hs

theorem Legal.whenDone {r} {k : State → State} (hs : Legal r.st) (hk : ∀ t, Legal t → Legal (k t)) :
    Legal (whenDone r k).st := by
  unfold Machine.whenDone
  split
  · exact hk _ hs
  · exact hs

theorem Legal.sweepRegs {e row srcs} {body : Nat → Nat → State → MR Unit} {s} (hs : Legal s)
    (hbody : ∀ a a1 t, Legal t → Legal (body a a1 t).st) : Legal (sweepRegs e row srcs body s).st :=
  .whenDone (.elemLoop hs hbody) fun _ ht => .consume ht

theorem Legal.putIf {act v k i w r s} (hs : Legal s) : Legal (putIf act v k i w r s) := .ite (.addFl (.setVElem hs)) hs

theorem Legal.keepReads {xs x1} (hs : Legal x1.st) : Legal (keepReads xs x1).st := by
  unfold Machine.keepReads
  split <;> exact hs

theorem Legal.gatherElems {e v o all} {fin : List (Nat × Fl) → State → LRes}
  (hfin : ∀ a t, Legal t → Legal (fin a t).st) :
    ∀ {x5 x6 s}, Legal s → Legal (gatherElems e v o all fin x5 x6 s).st
  | [], _, _, hs => hfin _ _ hs
  | (_, _) :: _, _, _, hs => by
    unfold Machine.gatherElems
    split
    next e => exact .gatherElems hfin (.ok e (.srcElem hs))
    next e => exact .bad e (.srcElem hs)
    next e => exact .wait e (.srcElem hs)

theorem Legal.readThen {e v o at'} {fin : List (Nat × Fl) → State → LRes} {s} (hs : Legal s)
    (hfin : ∀ a t, Legal t → Legal (fin a t).st) : Legal (readThen e v o at' fin s).st :=
  .gatherElems (fun _ _ ht => .iteOf (.keepReads (.whenDone (hfin _ _ ht) fun _ hu => .consume hu)) (.ofBlock ht)) hs

theorem Legal.wholeOf {e v o} {fin : List (Nat × Fl) → State → LRes} {s} (hs : Legal s)
    (hfin : ∀ a t, Legal t → Legal (fin a t).st) : Legal (wholeOf e v o fin s).st :=
  .readThen hs hfin

/-! ### Length, rows and lanes -/

/-- RCMAX has three bits, so that VSETR grants one to eight rows (R201). -/
theorem Legal.execVsetr {d a s} (hs : Legal s) : Legal (outState (execVsetr d a s) s) := by
  refine .out (.scalarLong hs fun t ht => .retire (.setGNat (.modMe ht fun _ hx => ⟨hx.1, ?_⟩)))
  have hmax : pwRcmax (coreOf t (coreNo t.cur)).pword < 8 := Nat.mod_lt _ (by decide)
  dsimp only
  omega

theorem Legal.regrant {s} (hs : Legal s) : Legal (regrant s) := .modMe hs fun _ hx => ⟨grantOf_le s _, hx.2⟩

theorem HartOk.forkState {parent : Nat} {p x : Hart} {l : BitVec 8} {vg : Nat} {a : Word} (hp : HartOk p) (hv : vg ≤ 8) :
    HartOk (forkState parent p x l vg a) := ⟨hv, hp.2⟩

theorem Legal.execForkl {d off s} (hs : Legal s) : Legal (outState (execForkl d off s) s) := by
  refine .out (.scalarLong hs fun _ ht => .sync ht fun v hv => ?_)
  dsimp only
  split
  · exact .ite (.retire (.setGNat (.regrant (.modMe (.setHart hv (.forkState (.me hv) (grantOf_le v _))) fun _ => id))))
      (.retire (.setGNat (.modMe hv fun _ => id)))
  · exact .retire (.setGNat (.modMe hv fun _ => id))

/-! ### Masks, compares and moves -/

theorem Legal.src2Elem {c b o k i s} (hs : Legal s) : Legal (src2Elem c b o k i s).st := by
  unfold Machine.src2Elem
  split
  · exact .srcElem hs
  · exact hs

theorem Legal.maskSweep {row md} {bit : Hart → Nat → Nat → Bool} {e s} (hs : Legal s) :
    Legal (maskSweep row md bit e s).st :=
  .endBind (.foldl hs fun _ _ ht => .setMBit ht) fun _ ht => ht

theorem Legal.perfMsetAll {md row e s} (hs : Legal s) : Legal (perfMsetAll md row e s).st := .maskSweep hs

theorem Legal.perfMsetNone {md row e s} (hs : Legal s) : Legal (perfMsetNone md row e s).st := .maskSweep hs

theorem Legal.perfMsetLt {md ga row e s} (hs : Legal s) : Legal (perfMsetLt md ga row e s).st := by
  unfold Machine.perfMsetLt
  exact .maskSweep hs

theorem Legal.perfMlogic {op md ma mb row e s} (hs : Legal s) : Legal (perfMlogic op md ma mb row e s).st := .maskSweep hs

theorem Legal.toG {d v s} (hs : Legal s) : Legal (toG d v s).st := .setGNat hs

theorem Legal.toQ {e q v s} (hs : Legal s) : Legal (toQ e q v s).st := .iteOf hs (.appendQueue hs)

theorem Legal.perfVgetTo {u ew va gb} {fin : QEntry → Nat → State → LRes} {e s} (hs : Legal s)
    (hfin : ∀ e a t, Legal t → Legal (fin e a t).st) : Legal (perfVgetTo u ew va gb fin e s).st :=
  .readThen hs fun _ _ ht => hfin _ _ _ ht

theorem Legal.perfVget {u ew d va gb e s} (hs : Legal s) : Legal (perfVget u ew d va gb e s).st :=
  .perfVgetTo hs fun _ _ _ ht => .toG ht

theorem Legal.perfVgetQ {u ew q va gb e s} (hs : Legal s) : Legal (perfVgetQ u ew q va gb e s).st :=
  .perfVgetTo hs fun _ _ _ ht => .toQ ht

theorem Legal.fillSweep {ew vd mask row} {f : Nat → Nat} {e s} (hs : Legal s) :
    Legal (fillSweep ew vd mask row f e s).st :=
  .sweepRegs hs fun _ _ _ ht => .putIf ht

theorem Legal.perfVsplatQ {ew vd q mask row e s} (hs : Legal s) : Legal (perfVsplatQ ew vd q mask row e s).st := by
  unfold Machine.perfVsplatQ
  split
  · exact .fillSweep hs
  · split
    · exact hs
    · exact .fillSweep (.setQueue hs)

/-! ### Arithmetic by element -/

theorem Legal.ew2 {o} {ff : FFmt → Val → Val → Val → Nat × Fl} {fi : Bool → Nat → Nat → Nat → Nat → Nat × Fl} {e s}
    (hs : Legal s) : Legal (ew2 o ff fi e s).st :=
  .sweepRegs hs fun _ _ _ ht => .mbind (.srcElem ht) fun _ _ hu => .mbind (.src2Elem hu) fun _ _ hv => .putIf hv

theorem Legal.ew1 {o} {ff : FFmt → Val → Nat × Fl} {fi : Bool → Nat → Nat → Nat × Fl} {e s} (hs : Legal s) :
    Legal (ew1 o ff fi e s).st :=
  .sweepRegs hs fun _ _ _ ht => .mbind (.srcElem ht) fun _ _ hu => .putIf hu

theorem Legal.perfVabs {o e s} (hs : Legal s) : Legal (perfVabs o e s).st := .ew1 hs

theorem Legal.perfVneg {o e s} (hs : Legal s) : Legal (perfVneg o e s).st := .ew1 hs

/-! ### Quantising and look-up -/

theorem Legal.hadWrite {fmt rnd vd k vl i l s} (hs : Legal s) : Legal (hadWrite fmt rnd vd k vl i l s) := by
  induction l generalizing i s with
  | nil => exact hs
  | cons x r ih => exact ih (.ite (.addFl (.setVElem hs)) hs)

theorem Legal.hadGroups {fmt rnd vd va all} {fin : QEntry → State → LRes} (hfin : ∀ e t, Legal t → Legal (fin e t).st) :
    ∀ {e x7 x8 s}, Legal s → Legal (hadGroups e fmt rnd vd va all fin x7 x8 s).st
  | _, [], _, _, hs => hfin _ _ hs
  | _, (_, _) :: _, _, _, hs => .iteOf (.hadGroups hfin hs)
    (.gatherElems (fun _ _ ht => .hadGroups hfin (.addFl (.hadWrite ht))) hs)

theorem Legal.setOvs {die part i s} (hs : Legal s) : Legal (setOvs die part i s).st :=
  .mbind (.recAllowed hs) fun _ _ ht => .rawWrite ht

theorem Legal.keepRun {e srcs all} {body : Nat → Nat → List Nat → State → MR (List Nat)}
  {fin : List Nat → State → LRes} (hbody : ∀ a a1 a2 t, Legal t → Legal (body a a1 a2 t).st)
  (hfin : ∀ a t, Legal t → Legal (fin a t).st) :
    ∀ {x5 x6 s}, Legal s → Legal (keepRun e srcs all body fin x5 x6 s).st
  | [], _, _, hs => hfin _ _ hs
  | (_, _) :: _, _, _, hs => by
    unfold Machine.keepRun
    refine .iteOf (.keepRun hbody hfin hs) ?_
    split
    next e => exact .keepRun hbody hfin (.ok e (hbody _ _ _ _ hs))
    next e => exact .stopAt (.bad e (hbody _ _ _ _ hs))
    next e => exact .wait e (hbody _ _ _ _ hs)

theorem Legal.keepLoop {e srcs} {body : Nat → Nat → List Nat → State → MR (List Nat)} {fin : List Nat → State → LRes}
    {l kept s} (hs : Legal s) (hbody : ∀ a a1 a2 t, Legal t → Legal (body a a1 a2 t).st)
    (hfin : ∀ a t, Legal t → Legal (fin a t).st) : Legal (keepLoop e srcs body fin l kept s).st :=
  .keepRun hbody (fun _ _ ht => .endBind ht fun _ hu => hfin _ _ hu) hs

theorem Legal.noRecord {e i s} (hs : Legal s) : Legal (noRecord e i s).st := .stopAt hs

theorem Legal.withRecord {e i} {k : State → LRes} {s} (hs : Legal s) (hk : ∀ t, Legal t → Legal (k t).st) :
    Legal (withRecord e i k s).st := by
  unfold Machine.withRecord
  split
  next e => exact hk _ (.ok e (.recAllowed hs))
  next e => exact .stopAt (.bad e (.recAllowed hs))
  next e => exact .wait e (.recAllowed hs)

theorem Legal.perfVqnt {o e s} (hs : Legal s) : Legal (perfVqnt o e s).st :=
  .iteOf (.noRecord hs) (.withRecord hs fun _ ht =>
    .keepLoop ht (fun _ _ _ _ hu => .mbind (.srcElem hu) fun _ _ hv =>
    .iteOf (.iteOf (.mbind (.setOvs (.addFl (.setVElem hv))) fun _ _ hw => hw) (.addFl (.setVElem hv))) hv)
    fun _ _ hu => .iteOf hu (.consume hu))

theorem Legal.perfVdqnt {sc o e s} (hs : Legal s) : Legal (perfVdqnt sc o e s).st :=
  .iteOf (.sweepRegs (.bump hs) fun _ _ _ ht => .mbind (.srcElem ht) fun _ _ hu =>
    .putIf hu) (.iteOf (.noRecord hs) (.withRecord hs fun _ ht => .sweepRegs (.bump ht) fun _ _ _ hu =>
    .mbind (.srcElem hu) fun _ _ hv => .putIf hv))

/-- The state that a table look-up leaves, however it fares. -/
def lutState : (Nat × Flt × State) ⊕ (List (Nat × Nat × Nat × Fl) × State) ⊕ State → State
  | .inl p => p.2.2
  | .inr (.inl p) => p.2
  | .inr (.inr s) => s

theorem Legal.lutFill {e g0 rm cb mask q w l acc s} (hs : Legal s) :
  Legal (lutState (lutFill e g0 rm cb mask q w l acc s)) := by
  induction l generalizing acc s with
  | nil => exact hs
  | cons p r ih =>
    unfold Machine.lutFill
    split
    · exact ih hs
    split
    · exact ih hs
    split
    next e => exact ih (.ok e (.vaRead hs))
    next e => exact .bad e (.vaRead hs)
    next e => exact .wait e (.vaRead hs)

theorem Legal.lut {e g0 rm cb mask q w l acc s r} (eq : Machine.lutFill e g0 rm cb mask q w l acc s = r) (hs : Legal s) :
    Legal (lutState r) := eq ▸ .lutFill hs

theorem Legal.perfVlut {qf g0 rnd vd va gb mask e s} (hs : Legal s) :
  Legal (perfVlut qf g0 rnd vd va gb mask e s).st := by
  refine .iteOf hs (.readThen hs fun _ t ht => ?_)
  dsimp only
  split
  next eq => exact .lut eq ht
  next eq => exact .lut eq ht
  next ys u eq =>
    have hu : Legal u := .lut eq ht
    exact .foldl (.addFl hu) fun _ _ hv => .addFl (.setVElem hv)

/-! ### Reductions and rearrangement -/

theorem Legal.redTile {o} {fin : QEntry → Nat → State → LRes} {e s} (hs : Legal s)
    (hfin : ∀ e a t, Legal t → Legal (fin e a t).st) : Legal (redTile o fin e s).st :=
  .wholeOf hs fun _ _ ht => .whenDone (hfin _ _ _ ht) fun _ hu => .addFl hu

theorem Legal.perfVred {o e s} (hs : Legal s) : Legal (perfVred o e s).st := .redTile hs fun _ _ _ ht => .toG ht

theorem Legal.perfVredQ {o e s} (hs : Legal s) : Legal (perfVredQ o e s).st := .redTile hs fun _ _ _ ht => .toQ ht

theorem Legal.putRowVals {vd k w i l s} (hs : Legal s) : Legal (putRowVals vd k w i l s) := by
  induction l generalizing i s with
  | nil => exact hs
  | cons x r ih =>
    cases x with
    | none => exact ih hs
    | some x => exact ih (.setVElem hs)

theorem Legal.rearrange {ew vd va mask} {val : LCtx → Hart → (Nat → Nat → Nat) → Nat → Nat → Option Nat} {e s}
    (hs : Legal s) : Legal (rearrange ew vd va mask val e s).st := by
  unfold Machine.rearrange
  refine .wholeOf hs fun _ _ ht => ?_
  dsimp only
  refine .foldl ht fun _ _ hu => ?_
  refine .ite ?_ hu
  split
  · exact .setVElem hu
  · exact hu

theorem Legal.perfVslideUp {amt ew vd va mask e s} (hs : Legal s) : Legal (perfVslideUp amt ew vd va mask e s).st :=
  .rearrange hs

theorem Legal.perfVslideDn {amt ew vd va mask e s} (hs : Legal s) : Legal (perfVslideDn amt ew vd va mask e s).st :=
  .rearrange hs

theorem Legal.permRows {e ew va vb} {fin : List (Nat × Fl) → State → LRes} (hfin : ∀ a t, Legal t → Legal (fin a t).st) :
    ∀ {x5 x6 s}, Legal s → Legal (permRows e ew va vb fin x5 x6 s).st
  | [], _, _, hs => hfin _ _ hs
  | _ :: _, _, _, hs => .gatherElems (fun _ _ ht => .gatherElems (fun _ _ hu => .permRows hfin hu) ht) hs

theorem Legal.topkWith {o} {put : LCtx → Nat → Nat → List (Nat × Nat) → State → State} {e s} (hs : Legal s)
    (hput : ∀ a a1 a2 a3 t, Legal t → Legal (put a a1 a2 a3 t)) : Legal (topkWith o put e s).st :=
  .wholeOf hs fun _ _ ht => .foldl ht fun _ _ hu => hput _ _ _ _ _ (.addFl hu)

theorem Legal.perfVtopkIdx {o e s} (hs : Legal s) : Legal (perfVtopkIdx o e s).st :=
  .topkWith hs fun _ _ _ _ _ ht => .putRowVals ht

theorem Legal.perfVtopkKey {o e s} (hs : Legal s) : Legal (perfVtopkKey o e s).st :=
  .topkWith hs fun _ _ _ _ _ ht => .putRowVals ht

theorem Legal.perfVtopkMask {o e s} (hs : Legal s) : Legal (perfVtopkMask o e s).st :=
  .topkWith hs fun _ _ _ _ _ ht => .foldl ht fun _ _ hu => .setMBit hu

/-! ### Vector memory, waits and bindings -/

theorem Legal.aligned {a log wr atom s} (hs : Legal s) : Legal (aligned a log wr atom s).st := .iteOf hs hs

theorem Legal.readOnce {e ix} {read : State → MR (List (Nat × Fl))} {s} (hs : Legal s)
    (hread : ∀ t, Legal t → Legal (read t).st) : Legal (readOnce e ix read s).st :=
  .iteOf hs (hread _ hs)

theorem Legal.memRun {e srcs all} {read : Nat → Nat → State → MR (List (Nat × Fl))}
  {act : Nat → Nat → List (Nat × Fl) → List Nat → State → MR (List Nat)} {fs : Nat → Nat → FaultStream}
  {fin : List Nat → State → LRes} (hread : ∀ a a1 t, Legal t → Legal (read a a1 t).st)
  (hact : ∀ a a1 a2 a3 t, Legal t → Legal (act a a1 a2 a3 t).st) (hfin : ∀ a t, Legal t → Legal (fin a t).st) :
    ∀ {x7 x8 s}, Legal s → Legal (memRun e srcs all read act fs fin x7 x8 s).st
  | [], _, _, hs => hfin _ _ hs
  | (_, _) :: _, _, _, hs => by
    unfold Machine.memRun
    refine .iteOf (.memRun hread hact hfin hs) ?_
    split
    next e => exact .stopAt (.bad e (.readOnce hs fun _ ht => hread _ _ _ ht))
    next e => exact .wait e (.readOnce hs fun _ ht => hread _ _ _ ht)
    next e =>
      split
      next e _ _ _ e1 =>
        exact .memRun hread hact hfin (.ok e1 (hact _ _ _ _ _ (.ok e (.readOnce hs fun _ ht => hread _ _ _ ht))))
      next e _ _ _ e1 => exact .stopAt (.bad e1 (hact _ _ _ _ _ (.ok e (.readOnce hs fun _ ht => hread _ _ _ ht))))
      next e _ _ e1 => exact .wait e1 (hact _ _ _ _ _ (.ok e (.readOnce hs fun _ ht => hread _ _ _ ht)))

theorem Legal.memLoop {e srcs} {read : Nat → Nat → State → MR (List (Nat × Fl))}
    {act : Nat → Nat → List (Nat × Fl) → List Nat → State → MR (List Nat)} {fs l kept s} (hs : Legal s)
    (hread : ∀ a b t, Legal t → Legal (read a b t).st) (hact : ∀ a b c d t, Legal t → Legal (act a b c d t).st) :
    Legal (memLoop e srcs read act fs l kept s).st :=
  .memRun hread hact (fun _ _ ht => .endBind ht fun _ hu => .ofDone (.consume hu)) hs

theorem Legal.withLines {w n} {left : QEntry → State → List Nat} {x3} (hs : Legal x3.st) :
    Legal (withLines w n left x3).st := by
  unfold Machine.withLines
  split
  · exact .ite hs (.setOwned hs)
  · exact .ite hs (.setOwned hs)
  · exact .setOwned hs

theorem Legal.readSrcs {c k i} :
    ∀ {x3 s}, Legal s → Legal (readSrcs c k i x3 s).st
  | [], _, hs => hs
  | (_, _) :: _, _, hs => .mbind (.srcElem hs) fun _ _ ht => .mbind (.readSrcs ht) fun _ _ hu => hu

theorem Legal.scatter {o} {wins : State → Bool} {e s} (hs : Legal s) : Legal (scatter o wins e s).st := by
  refine .withLines (.memLoop hs (fun _ _ _ ht => .readSrcs ht) fun _ _ _ _ t ht => .iteOf ?_ ht)
  refine .mbind (.aligned ht) fun _ _ hu => .mbind ?_ fun _ _ hv => .bump hv
  split
  · exact .vaPassWrite hu
  · exact .vaWrite hu

theorem Legal.waitPass {e cond ew want} {fs : Nat → FaultStream} :
    ∀ {x5 x6 x7 s}, Legal s → Legal (waitPass e cond ew want fs x5 x6 x7 s).st
  | [], _, .none, _, hs => hs
  | [], _, (.some (_, _)), _, hs => hs
  | (_, _) :: _, _, .none, _, hs => by
    unfold Machine.waitPass
    refine .iteOf (.waitPass hs) ?_
    split
    next e =>
      have hu := Legal.ok e (.mbind (.aligned hs) fun _ _ ht => .vaReadNum ht)
      exact .iteOf (.waitPass hu) (.waitPass hu)
    next e => exact .stopAt (.bad e (.mbind (.aligned hs) fun _ _ ht => .vaReadNum ht))
    next e => exact .wait e (.mbind (.aligned hs) fun _ _ ht => .vaReadNum ht)
  | (_, _) :: _, _, (.some _), _, hs => by
    unfold Machine.waitPass
    refine .iteOf (.waitPass hs) ?_
    split
    next e =>
      have hu := Legal.ok e (.mbind (.aligned hs) fun _ _ ht => .vaReadNum ht)
      exact .iteOf (.waitPass hu) (.waitPass hu)
    next e => exact .stopAt (.bad e (.mbind (.aligned hs) fun _ _ ht => .vaReadNum ht))
    next e => exact .wait e (.mbind (.aligned hs) fun _ _ ht => .vaReadNum ht)

theorem Legal.behind {xs x1} (hs : Legal x1.st) : Legal (behind xs x1).st := by
  unfold Machine.behind
  split <;> exact hs

theorem Legal.waitRun {e cond ew ga gc form mask xs sat s} (hs : Legal s) :
    Legal (waitRun e cond ew ga gc form mask xs sat s).st :=
  .behind (.waitPass hs)

theorem Legal.perfVwait {cond ew ga gc form mask e s} (hs : Legal s) :
    Legal (perfVwait cond ew ga gc form mask e s).st := by
  unfold Machine.perfVwait
  split
  · exact .iteOf (.gatherElems (fun _ _ ht => .waitRun (.consume ht)) hs) (.waitRun hs)
  · exact .waitRun hs

theorem Legal.asHart {h} {f : State → State} {s} (hs : Legal s) (hf : ∀ t, Legal t → Legal (f t)) :
    Legal (asHart h f s) :=
  (show Legal _ from hf _ hs)

theorem Legal.execVwaitPoll {h s} (hs : Legal s) : Legal (outState (execVwaitPoll h s) s) := by
  unfold Machine.execVwaitPoll
  refine .out ?_
  refine .asHart hs fun _ ht => ?_
  split
  · split
    · exact .afterV (.perfVwait ht)
    · exact ht
  · exact ht

theorem HartOk.freeRows {v n x} (hx : HartOk x) : HartOk (freeRows v n x) :=
  .putRow (.putRow (.putRow (.putRow (.putRow (.putRow (.putRow (.putRow hx)))))))

theorem Legal.endBinding {v s} (hs : Legal s) : Legal (endBinding v s) := by
  unfold Machine.endBinding
  split
  · have ht : Legal (Machine.modMe (fun x => freeRows v s.fresh
        { x with r := { x.r with binds := x.r.binds.filter (fun p => p.2.reg != v) } }) s) :=
      .modMe hs fun _ hx => .freeRows hx
    exact ht
  · exact hs

theorem Legal.freeSlot {slot s} (hs : Legal s) : Legal (freeSlot slot s) := by
  unfold Machine.freeSlot
  split
  · exact .endBinding hs
  · exact hs

theorem Legal.perfVbind {vd ga slot e s} (hs : Legal s) : Legal (perfVbind vd ga slot e s).st := by
  unfold Machine.perfVbind
  dsimp only
  refine .iteOf (.stopAt hs) ?_
  split
  next e => exact .stopAt (.bad e (.vaRead hs))
  next e => exact .wait e (.vaRead hs)
  next e =>
    have ht := Legal.ok e (.vaRead hs)
    exact .iteOf (.stopAt ht) (.modMe (.endBinding (.freeSlot ht)) fun _ => id)

/-! ### Capture, replay and convoys -/

theorem Legal.perfBody {i e s} (hs : Legal s) : Legal (perfBody i e s).st := by
  cases i with
  | msetAll => exact .perfMsetAll hs
  | msetNone => exact .perfMsetNone hs
  | msetLt => exact .perfMsetLt hs
  | msetNz => exact .sweepRegs hs fun _ _ _ ht => .mbind (.srcElem ht) fun _ _ hu => .setMBit hu
  | mlogic => exact .perfMlogic hs
  | vcmp =>
    exact .sweepRegs hs fun _ _ _ ht => .mbind (.srcElem ht) fun _ _ hu => .mbind (.src2Elem hu) fun _ _ hv =>
      .iteOf (.addFl (.setMBit hv)) hv
  | vmov | vsfu | vcvt => exact .sweepRegs hs fun _ _ _ ht => .mbind (.srcElem ht) fun _ _ hu => .putIf hu
  | vsplat | vsplatImm | viota => exact .fillSweep hs
  | vsplatQ => exact .perfVsplatQ hs
  | vsel =>
    exact .sweepRegs hs fun _ _ _ ht => .mbind (.srcElem ht) fun _ _ hu => .mbind (.srcElem hu) fun _ _ hv =>
      .setVElem hv
  | vadd | vsub | vmul | vfma | vdiv | vmin | vmax | vand | vor | vxor | vshl | vshr => exact .ew2 hs
  | vabs => exact .perfVabs hs
  | vneg => exact .perfVneg hs
  | vhad => exact .hadGroups (fun _ _ ht => .iteOf (.ofDone (.consume ht)) (.ofBlock ht)) hs
  | vqnt => exact .perfVqnt hs
  | vqntSc =>
    exact .whenDone (.sweepRegs hs fun _ _ _ ht => .mbind (.srcElem ht) fun _ _ hu => .putIf hu) fun _ ht =>
      .ite (.addFl ht) ht
  | vdqnt => exact .perfVdqnt hs
  | vlut => exact .perfVlut hs
  | vredRow => exact .wholeOf hs fun _ _ ht => .foldl ht fun _ _ hu => .ite hu (.addFl (.setVElem hu))
  | vscan => exact .wholeOf hs fun _ _ ht => .foldl ht fun _ _ hu => .addFl (.putRowVals hu)
  | vslideUp => exact .perfVslideUp hs
  | vslideDn => exact .perfVslideDn hs
  | vperm =>
    exact .permRows (fun _ _ ht => .iteOf (.ofDone (.consume (.foldl ht fun _ _ hu => .ite (.setVElem hu) hu)))
      (.ofBlock ht)) hs
  | vcomp => exact .wholeOf hs fun _ _ ht => .foldl ht fun _ _ hu => .putRowVals hu
  | vtopkIdx => exact .perfVtopkIdx hs
  | vtopkKey => exact .perfVtopkKey hs
  | vtopkMask => exact .perfVtopkMask hs
  | vld =>
    exact .entered (.memLoop hs (fun _ _ _ ht => ht) fun _ _ _ _ _ ht =>
      .iteOf (.mbind (.aligned ht) fun _ _ hu => .mbind (.vaReadNum hu) fun _ _ hv => .setVElem hv) ht)
  | vst =>
    exact .entered (.memLoop hs (fun _ _ _ ht => .readSrcs ht) fun _ _ _ _ _ ht =>
      .iteOf (.mbind (.aligned ht) fun _ _ hu => .mbind (.vaWrite hu) fun _ _ hv => hv) ht)
  | vldx =>
    exact .memLoop hs (fun _ _ _ ht => .readSrcs ht) fun _ _ _ _ _ ht =>
      .iteOf (.mbind (.aligned ht) fun _ _ hu => .mbind (.vaReadNum hu) fun _ _ hv => .setVElem hv) ht
  | vstxOrd | vstxAny => exact .scatter hs
  | vamo =>
    exact .withLines (.memLoop hs (fun _ _ _ ht => .readSrcs ht) fun _ _ _ _ _ ht =>
      .iteOf (.mbind (.aligned ht) fun _ _ hu => .mbind (.vaAtomic hu) fun _ _ hv => .addFl (.setVElem hv)) ht)
  | _ => exact hs

theorem Legal.groupOnce {run : Instr → Perform} {upto} (hrun : ∀ a e t, Legal t → Legal (run a e t).st) :
    ∀ {x2 x3 s}, Legal s → Legal (groupOnce run upto x2 x3 s).st
  | [], _, _, hs => hs
  | _ :: _, _, _, hs => by
    unfold Machine.groupOnce
    refine .iteOf (.groupOnce hrun hs) ?_
    split
    next e => exact .groupOnce hrun (.done e (hrun _ _ _ hs))
    next e =>
      have ht := Legal.block e (hrun _ _ _ hs)
      exact .iteOf (.groupOnce hrun ht) ht
    next e => exact .fault e (hrun _ _ _ hs)

theorem Legal.backTo {s t} (hs : Legal s) : Legal (backTo s t) := hs

theorem Legal.keepSnap {entries before s} (hs : Legal s) : Legal (keepSnap entries before s) := .modMe hs fun _ => id

theorem Legal.dropSnap {s} (hs : Legal s) : Legal (dropSnap s) := .ite (.modMe hs fun _ => id) hs

theorem Legal.runConvoy {run : Instr → Perform} {byRow wrap} (hrun : ∀ a e t, Legal t → Legal (run a e t).st) {n es s}
  (hs : Legal s) :
    Legal (runConvoy run byRow wrap n es s).st := by
  induction n generalizing es s with
  | zero => exact hs
  | succ n ih =>
    unfold Machine.runConvoy
    split
    · exact hs
    · dsimp only
      split
      next e =>
        have ht := Legal.dropSnap (.gdone e (.groupOnce hrun hs))
        exact .iteOf ht (.iteOf ht (ih ht))
      next e => exact .keepSnap (.gstall e (.groupOnce hrun hs))
      next => exact .backTo hs

theorem Legal.stepConvoy {run : Instr → Perform} {byRow s} (hs : Legal s)
    (hrun : ∀ a e t, Legal t → Legal (run a e t).st) : Legal (stepConvoy run byRow s) := by
  unfold Machine.stepConvoy
  dsimp only
  split
  · exact hs
  · refine .ite hs ?_
    split
    next e1 => exact .modMe (.cdone e1 (.runConvoy hrun hs)) fun _ => id
    next e1 => exact .modMe (.cblock e1 (.runConvoy hrun hs)) fun _ => id
    next e1 => exact .setPend (.modMe (.cfault e1 (.runConvoy hrun hs)) fun _ => id)

theorem Legal.nextBody {e r counts d n feed s} (hs : Legal s) : Legal (nextBody e r counts d n feed s).st := by
  unfold Machine.nextBody
  dsimp only
  refine .iteOf hs ?_
  split <;> exact hs

theorem Legal.perfLrun {feed dims e s} (hs : Legal s) : Legal (perfLrun feed dims e s).st := by
  unfold Machine.perfLrun
  dsimp only
  refine .iteOf hs ?_
  refine .iteOf ?_ ?_
  · split
    · exact hs
    · exact .setQueue hs
  · split
    · exact hs
    · refine .iteOf ?_ ?_
      · split
        next e1 => exact .block e1 (.perfBody hs)
        next e1 => exact .fault e1 (.perfBody hs)
        next e1 => exact .nextBody (.done e1 (.perfBody hs))
      · split
        next e => exact .cblock e (.runConvoy (fun _ _ _ ht => .perfBody ht) hs)
        next e => exact .cfault e (.runConvoy (fun _ _ _ ht => .perfBody ht) hs)
        next e => exact .nextBody (.cdone e (.runConvoy (fun _ _ _ ht => .perfBody ht) hs))

theorem Legal.convoyFits {units} :
    ∀ {x1 x2 x3 s}, Legal s → Legal (convoyFits units x1 x2 x3 s).st
  | 0, _, _, _, hs => hs
  | _ + 1, _, _, _, hs => by
    unfold Machine.convoyFits
    refine .mbind (.fetchCode hs) fun _ _ ht => ?_
    split
    · exact ht
    · exact .iteOf (.convoyFits ht) ht

/-! ### The matrix unit -/

theorem HartOk.setAccWord {t i j w x} (hx : HartOk x) : HartOk (setAccWord t i j w x) := hx

theorem Legal.mStop {e elem f s} (hs : Legal s) : Legal (mStop e elem f s).st := .stopAt hs

theorem Legal.divideRows {harts s} (hs : Legal s) : Legal (divideRows harts s) :=
  .foldl hs fun _ _ ht => .modHart ht fun _ => id

theorem Legal.detach {h s} (hs : Legal s) : Legal (detach h s) := .ite hs (.divideRows (.modHart hs fun _ => id))

theorem Legal.formGroup {cl mask l s} (hs : Legal s) :
  Legal (formGroup cl mask l s) := .foldl hs fun _ _ ht => .modHart ht fun _ => id

theorem Legal.perfMgroup {d members e s} (hs : Legal s) : Legal (perfMgroup d members e s).st := by
  unfold Machine.perfMgroup
  dsimp only
  refine .iteOf (.setGNat (.modMe hs fun _ => id)) ?_
  refine .iteOf (.setGNat hs) ?_
  refine .iteOf (.setGNat hs) ?_
  split
  · exact .setGNat (.formGroup (.ite hs hs))
  · exact .ite hs hs

theorem Legal.kread {w a n stop s} (hs : Legal s) : Legal (kread w a n stop s).st := by
  unfold Machine.kread
  split
  next e => exact .ok e (.vaReadN hs)
  next e => exact .bad e (.vaReadN hs)
  next e => exact .wait e (.vaReadN hs)

theorem Legal.readLine {w d b kTop l k0 n s} (hs : Legal s) : Legal (readLine w d b kTop l k0 n s).st :=
  .kbind (.kread hs) fun _ _ ht => ht

theorem Legal.readGLine {w d f kTop l k0 n s} (hs : Legal s) : Legal (readGLine w d f kTop l k0 n s).st :=
  .kbind (.readLine hs) fun _ _ ht => .kbind (.kread ht) fun _ _ hu =>
    .kbind (.iteOf hu (.kbind (.kread hu) fun _ _ hv => hv)) fun _ _ hv => hv

theorem Legal.readLines {α : Type} {rd : Nat → State → KR α} (hrd : ∀ a t, Legal t → Legal (rd a t).st) :
    ∀ {x2 s}, Legal s → Legal (readLines rd x2 s).st
  | [], _, hs => hs
  | _ :: _, _, hs => .kbind (hrd _ _ hs) fun _ _ ht => .kbind (.readLines hrd ht) fun _ _ hu => hu

theorem Legal.updBlock {α : Type} {β : Type} {t} {f : Nat → α → β → Nat × Fl} {rows : List (Nat × α)}
    {cols : List (Nat × β)} {s} (hs : Legal s) : Legal (updBlock t f rows cols s) :=
  .foldl hs fun _ _ ht => .foldl ht fun _ _ hu => .addFl (.modMe hu fun _ => id)

theorem Legal.readDesc {w a s} (hs : Legal s) :
  Legal (readDesc w a s).st := .iteOf hs (.kbind (.kread hs) fun _ _ ht => ht)

theorem Legal.checkDesc {d f k s} (hs : Legal s) : Legal (checkDesc d f k s).st := .iteOf hs (.iteOf hs hs)

theorem Legal.krOf {m} (hs : Legal m.st) : Legal (krOf m).st := by
  unfold Machine.krOf
  split <;> exact hs

theorem Legal.checkRec {d s} (hs : Legal s) : Legal (checkRec d s).st := .iteOf hs (.iteOf hs (.krOf (.recAllowed hs)))

theorem Legal.mcArrive {gb fb k s} (hs : Legal s) : Legal (mcArrive gb fb k s) := by
  unfold Machine.mcArrive
  dsimp only
  refine .ite ?_ (.modMe hs fun _ => id)
  split
  · exact .foldl (.modMe hs fun _ => id) fun _ _ ht => .modHart ht fun _ => id
  · exact .modMe hs fun _ => id

theorem Legal.ksumInit {e fa gb fb k ord ga s} (hs : Legal s) : Legal (ksumInit e fa gb fb k ord ga s).st :=
  .kbind (.readDesc hs) fun _ _ ht => .kbind (.readDesc ht) fun _ _ hu => .kbind (.checkDesc hu) fun _ _ hv =>
    .kbind (.checkDesc hv) fun _ _ hw => .kbind (.checkRec hw) fun _ _ hz => .kbind (.checkRec hz) fun _ _ hs1 => hs1

theorem Legal.readKLine {w d f sc kTop k0 n l s} (hs : Legal s) : Legal (readKLine w d f sc kTop k0 n l s).st :=
  .kbind (.readLine hs) fun _ _ ht => ht

theorem Legal.ksumStep {e q t fa rm step s} (hs : Legal s) : Legal (ksumStep e q t fa rm step s).st :=
  .iteOf hs (.iteOf (.kbind (.readLines (fun _ _ ht => .readGLine ht) hs) fun _ _ ht =>
    .kbind (.readLines (fun _ _ hu => .readGLine hu) ht) fun _ _ hu =>
    .addMeter (.updBlock hu)) (.kbind (.readLines (fun _ _ ht => .readKLine ht) hs) fun _ _ ht =>
    .kbind (.readLines (fun _ _ hu => .readKLine hu) ht) fun _ _ hu =>
    .kbind (.iteOf (.krOf (.setOvs hu)) hu) fun _ _ hv => .kbind (.iteOf (.krOf (.setOvs hv)) hv) fun _ _ hw =>
    .addMeter (.updBlock (.addFl hw))))

theorem Legal.mcComplete {ord s} (hs : Legal s) : Legal (mcComplete ord s) := .ite hs (.modMe hs fun _ => id)

theorem Legal.ksumAdvance {e q tn fa rnd s} (hs : Legal s) : Legal (ksumAdvance e q tn fa rnd s).st := by
  unfold Machine.ksumAdvance
  refine .iteOf (.mStop hs) ?_
  refine .iteOf (.mStop hs) ?_
  dsimp only
  refine .iteOf (.mcComplete hs) ?_
  split
  next e => exact .stopAt (.kbad e (.ksumStep hs))
  next e => exact .kwait e (.ksumStep hs)
  next e =>
    refine .iteOf (.kok e (.ksumStep hs)) ?_
    split
    next e _ _ _ _ => exact .mcComplete (.kok e (.ksumStep hs))
    next e _ _ => exact .mcComplete (.kok e (.ksumStep hs))

theorem Legal.mcStepOf {h s} (hs : Legal s) : Legal (mcStepOf h s).2 := by
  unfold Machine.mcStepOf
  dsimp only
  split
  · split
    · exact (show Legal _ from .afterM (.ksumAdvance hs))
    · exact hs
  · exact hs

/-- The state that the steps of a group's other members leave, whether all of them step or not. -/
def mcState (s : State) : State ⊕ Nat → State
  | .inl t => t
  | .inr _ => s

theorem Legal.mcStepAll {l s u} (hs : Legal s) (hu : Legal u) : Legal (mcState u (Machine.mcStepAll l s)) := by
  induction l generalizing s with
  | nil => exact hs
  | cons h r ih =>
    unfold Machine.mcStepAll
    dsimp only
    split
    · exact ih (.mcStepOf hs)
    · exact hu

theorem Legal.mcTogether {e own others s} (hs : Legal s) (hown : Legal own.st) :
  Legal (mcTogether e own others s).st := by
  unfold Machine.mcTogether
  refine .iteOf hown ?_
  cases own with
  | done t | block _ _ t | fault _ _ t =>
    have ht : Legal (mcState s (Machine.mcStepAll others t)) := .mcStepAll hown hs
    dsimp only
    split
    next eq => rw [eq] at ht; exact ht
    next => exact .mcStepOf hs

theorem Legal.perfMksum {mc t fa fb rnd ga gb gc e s} (hs : Legal s) :
  Legal (perfMksum mc t fa fb rnd ga gb gc e s).st := by
  unfold Machine.perfMksum
  refine .iteOf (.mStop hs) (.iteOf (.mStop hs) (.iteOf (.mcArrive hs) (.iteOf hs ?_)))
  dsimp only
  have hstart {c : Prop} [Decidable c] {q e fa a b c' ord ga} :
      Legal (if c then .ok q s else Machine.ksumInit e fa a b c' ord ga s).st := .iteOf hs (.ksumInit hs)
  split
  next e => exact .stopAt (.kbad e hstart)
  next e => exact .kwait e hstart
  next e =>
    have ht := Legal.kok e hstart
    exact .iteOf (.ksumAdvance ht) (.iteOf ht (.iteOf (.mcTogether ht (.ksumAdvance ht)) ht))

theorem Legal.lineOff {e t s} (hs : Legal s) : Legal (lineOff e t s).st := hs

theorem Legal.lineRead {col z o e s} (hs : Legal s) : Legal (lineRead col z o e s).st :=
  .iteOf (.lineOff hs) (.elemLoop hs fun _ _ _ ht =>
    .iteOf (.iteOf (.ite (.modMe (.addFl (.setVElem ht)) fun _ => id) (.addFl (.setVElem ht))) ht) ht)

theorem Legal.lineWrite {col o e s} (hs : Legal s) : Legal (lineWrite col o e s).st :=
  .iteOf (.lineOff hs) (.memLoop hs (fun _ _ _ ht => .readSrcs ht) fun _ _ _ _ _ ht =>
    .iteOf (.iteOf (.addFl (.modMe ht fun _ => id)) ht) ht)

theorem Legal.tileLoop {e log c} {body : Nat → Nat → State → MR Unit}
  (hbody : ∀ a a1 t, Legal t → Legal (body a a1 t).st) :
    ∀ {x4 s}, Legal s → Legal (tileLoop e log c body x4 s).st
  | [], _, hs => hs
  | (_, (_, _)) :: _, _, hs => by
    unfold Machine.tileLoop
    refine .iteOf (.tileLoop hbody hs) ?_
    split
    next e => exact .tileLoop hbody (.ok e (hbody _ _ _ hs))
    next e => exact .stopAt (.bad e (hbody _ _ _ hs))
    next e => exact .wait e (hbody _ _ _ hs)

theorem Legal.tileStore {z o e s} (hs : Legal s) : Legal (tileStore z o e s).st :=
  .iteOf (.lineOff hs) (.withLines (.entered (.tileLoop (fun _ _ _ ht => .mbind (.vaWriteN ht) fun _ _ hu =>
    .ofOk (.addFl (.ite (.modMe hu fun _ hx => .setAccWord hx) hu))) hs)))

/-! ### The copy engine, tags and rings -/

theorem Legal.admitCmds {core} :
    ∀ {x1 s}, Legal s → Legal (admitCmds core x1 s)
  | 0, _, hs => hs
  | _ + 1, _, hs => by
    unfold Machine.admitCmds
    refine .ite hs ?_
    split
    · exact .admitCmds (.modCore hs)
    · exact hs

theorem Legal.enqueueCmd {core c s} (hs : Legal s) : Legal (enqueueCmd core c s) := .admitCmds (.incTag (.modCore hs))

theorem Legal.issueCpy {mode ring o s} (hs : Legal s) : Legal (issueCpy mode ring o s) := by
  unfold Machine.issueCpy
  refine .ite (.abandonCapture hs) ?_
  split
  · exact .illegalLong hs
  · exact .ite hs (.retire (.enqueueCmd hs))

theorem Legal.keepPage {w sa d s} (hs : Legal s) : Legal (keepPage w sa d s).st := by
  unfold Machine.keepPage
  split
  · exact .iteOf hs (.iteOf (.iteOf (.logDenial hs) ((show Legal _ from .rawWrite hs))) (.iteOf hs hs))
  · exact hs

theorem Legal.keepPages {w sa d} :
    ∀ {x3 s}, Legal s → Legal (keepPages w sa d x3 s).st
  | [], _, hs => hs
  | _ :: _, _, hs => .mbind (.keepPage hs) fun _ _ ht => .keepPages ht

theorem Legal.blockData {w c sa s} (hs : Legal s) : Legal (blockData w c sa s).2.st := by
  unfold Machine.blockData
  dsimp only
  split
  · exact hs
  split
  · exact hs
  · exact .readPart hs

theorem Legal.pushBlock {w core c data s} (hs : Legal s) : Legal ((pushBlock w core c data s).st s) := by
  unfold Machine.pushBlock
  dsimp only
  split
  next e => exact .foldWrite (.ringOk e (.ringPush hs))
  · exact .ringPush hs

theorem Legal.runBlock {core c s} (hs : Legal s) : Legal (runBlock core c s).st := by
  unfold Machine.runBlock
  extract_lets w nx
  split
  split
  next e =>
  have hr := Legal.pairMR e (.blockData hs)
  extract_lets c'
  split
  next => exact hr
  next => exact hr
  next t =>
    have ht : Legal t := hr
    split
    · exact ht
    split
    · split
      · exact ht
      split
      next e => exact .ringOk e (.pushBlock ht)
      · exact ht
      · exact ht
      · split <;> exact ht
    · split
      next e =>
      have hu := Legal.pairMR e (.writePart ht)
      extract_lets c''
      split
      next u =>
        have hv : Legal u := hu
        split
        next e => exact .ok e (.keepPages hv)
        next e => exact .wait e (.keepPages hv)
        next e => exact .bad e (.keepPages hv)
      · exact hu
      · exact hu

theorem Legal.giveDigest {c total s} (hs : Legal s) : Legal (giveDigest c total s) := .modHart hs fun _ => id

theorem Legal.stepCmd {core c s} (hs : Legal s) : Legal (stepCmd core c s).st := by
  unfold Machine.stepCmd
  dsimp only
  refine .iteOf (.iteOf hs (.runBlock hs)) ?_
  refine .iteOf (.giveDigest hs) ?_
  refine .iteOf ?_ hs
  split
  next e => exact .ok e (.vaWrite hs)
  next e => exact .bad e (.vaWrite hs)
  next e => exact .wait e (.vaWrite hs)

theorem Legal.runCmd {core} :
    ∀ {x1 x2 s}, Legal s → Legal (runCmd core x1 x2 s).st
  | 0, _, _, hs => hs
  | _ + 1, _, _, hs => by
    unfold Machine.runCmd
    split
    next e =>
      have ht := Legal.cmdGo e (.stepCmd hs)
      exact .iteOf (.runCmd ht) ht
    · exact .stepCmd hs

theorem Legal.putCmd {core i c s} (hs : Legal s) : Legal (putCmd core i c s) := .modCore hs

theorem Legal.stopCmd {core i c f elem remain s} (hs : Legal s) : Legal (stopCmd core i c f elem remain s) :=
  .ite (.putCmd (.letGo hs)) (.setPend (.putCmd (.letGo hs)))

theorem Legal.stallCmd {core i c full s} (hs : Legal s) : Legal (stallCmd core i c full s) :=
  .ite (.putCmd hs) (.ite (.putCmd hs) (.setPend (.putCmd hs)))

theorem Legal.runFrom {core} :
    ∀ {x1 x2 s}, Legal s → Legal (runFrom core x1 x2 s)
  | _, [], _, hs => hs
  | _, _ :: _, _, hs => by
    unfold Machine.runFrom
    refine .ite (.runFrom hs) ?_
    split
    next e => exact .putCmd (.letGo (.cmdGo e (.runCmd hs)))
    next e => exact .putCmd (.letGo (.cmdErr e (.runCmd hs)))
    next e => exact .stopCmd (.cmdBad e (.runCmd hs))
    next e => exact .runFrom (.stallCmd (.cmdStall e (.runCmd hs)))

theorem Legal.ownLines {core s} (hs : Legal s) : Legal (ownLines core s) := .ite hs (.foldl hs fun _ _ ht => .setOwned ht)

theorem Legal.execCopyCommandRun {core s} (hs : Legal s) : Legal (outState (execCopyCommandRun core s) s) :=
  .out (.ownLines (.runFrom (.admitCmds hs)))

theorem Legal.wakeTag {core t s} (hs : Legal s) : Legal (wakeTag core t s) := .ite (.wakeCore hs) hs

theorem Legal.takePhase {core phase s} (hs : Legal s) : Legal (takePhase core phase s).2 := by
  unfold Machine.takePhase
  dsimp only
  split
  · exact .modCore hs
  · exact hs

theorem Legal.execCopyCommandComplete {core s} (hs : Legal s) : Legal (outState (execCopyCommandComplete core s) s) := by
  unfold Machine.execCopyCommandComplete
  split
  next e => exact .out (.ownLines (.wakeTag (.decTag (.pair e (.takePhase hs)))))
  next e => exact .out (.pair e (.takePhase hs))

theorem Legal.snapError {core c s} (hs : Legal s) : Legal (snapError core c s) := .setPend (.decTag (.modCore hs))

theorem Legal.execCopyCommandStop {core s} (hs : Legal s) : Legal (outState (execCopyCommandStop core s) s) := by
  unfold Machine.execCopyCommandStop
  split
  next e =>
    exact .out (.ownLines (.wakeTag (.ite (.snapError (.pair e (.takePhase hs)))
      (.discardCmd (.pair e (.takePhase hs))))))
  next e => exact .out (.pair e (.takePhase hs))

theorem Legal.tagOp {a} {f : Nat → State → State} {s} (hs : Legal s) (hf : ∀ a t, Legal t → Legal (f a t)) :
    Legal (tagOp a f s) :=
  .scalarLong hs fun _ ht => .ite (.illegalLong ht) (hf _ _ ht)

theorem Legal.tagSync {k : State → State} {s} (hs : Legal s) (hk : ∀ t, Legal t → Legal (k t)) : Legal (tagSync k s) := by
  unfold Machine.tagSync
  split
  · exact .ite (.deliver hs) (hk _ hs)
  · exact hk _ hs

theorem HartOk.putRegBytes {v off bs x} (hx : HartOk x) : HartOk (putRegBytes v off bs x) :=
  .touchV (.putRow (.putRow (.putRow (.putRow (.putRow (.putRow (.putRow (.putRow hx))))))))

theorem Legal.gStop {e elem f s} (hs : Legal s) : Legal (gStop e elem f s).st := .stopAt hs

theorem Legal.slotLoop {e off reason eosReason} {move : Nat → State → RingRes}
  {land : Nat → List Byte → State → State} (hmove : ∀ a t, Legal t → Legal ((move a t).st t))
  (hland : ∀ a a1 t, Legal t → Legal (land a a1 t)) :
    ∀ {x6 x7 s}, Legal s → Legal (slotLoop e off reason eosReason move land x6 x7 s).st
  | 0, _, _, hs => hs
  | _ + 1, _, _, hs => by
    unfold Machine.slotLoop
    split
    next e => exact .slotLoop hmove hland (hland _ _ _ (.ringOk e (hmove _ _ hs)))
    · exact hs
    · exact .gStop hs
    · exact .gStop hs

theorem Legal.perfRpush {ga vb c e s} (hs : Legal s) : Legal (perfRpush ga vb c e s).st := by
  unfold Machine.perfRpush
  dsimp only
  split
  · exact .gStop hs
  · exact .slotLoop (fun _ _ ht => .ringPush ht) (fun _ _ _ ht => ht) hs

theorem Legal.perfRpull {vd ga c e s} (hs : Legal s) : Legal (perfRpull vd ga c e s).st := by
  unfold Machine.perfRpull
  dsimp only
  split
  · exact .gStop hs
  · exact .slotLoop (fun _ _ ht => .ringPull ht) (fun _ _ _ ht => .modMe ht fun _ hx => .putRegBytes hx) hs

/-! ### The reversal channel -/

theorem Legal.setTop {c s} (hs : Legal s) : Legal (setTop c s) := .modMe hs fun _ => id

theorem Legal.popChain {s} (hs : Legal s) : Legal (popChain s) := .settleRev (.modMe hs fun _ => id)

theorem Legal.putFrame {c s} (hs : Legal s) : Legal (putFrame c s).st := .vaWriteN hs

theorem Legal.withDigest {c a} {k : Nat → State → State} {s} (hs : Legal s) (hk : ∀ a t, Legal t → Legal (k a t)) :
    Legal (withDigest c a k s) := by
  unfold Machine.withDigest
  split
  · exact hk _ _ hs
  · exact .ite hs (.enqueueCmd hs)

theorem Legal.compareDigest {c reason idx a rest s} (hs : Legal s) : Legal (compareDigest c reason idx a rest s) :=
  .withDigest hs fun _ _ ht => .scalarDo (.vaReadNum ht) fun _ _ hu => .ite (.setTop hu) (.setPend (.setTop hu))

theorem Legal.putStale :
    ∀ {x0 s}, Legal s → Legal (putStale x0 s).st
  | [], _, hs => hs
  | _ :: _, _, hs => .iteOf (.mbind (.putFrame hs) fun _ _ ht => .putStale ht) (.putStale hs)

theorem Legal.callRoutine {c call g5 g6 target s} (hs : Legal s) : Legal (callRoutine c call g5 g6 target s) :=
  .scalarDo (.mbind (.putStale hs) fun _ _ ht => .putFrame ht) fun _ _ ht =>
    .goto (.setG (.setGNat (.setGNat (.setGNat (.setTop (.modMe ht fun _ => id))))))

theorem Legal.callStep {c sweep j rest s} (hs : Legal s) : Legal (callStep c sweep j rest s) := .ite hs (.callRoutine hs)

theorem Legal.callAdjoint {c i rest s} (hs : Legal s) : Legal (callAdjoint c i rest s) := .ite hs (.callRoutine hs)

theorem Legal.leaveChain {c g4 s} (hs : Legal s) : Legal (leaveChain c g4 s) :=
  .goto (.setG (.setG (.setG (.setGNat (.popChain hs)))))

theorem Legal.putMap {c k v s} (hs : Legal s) : Legal (putMap c k v s).st := .vaWrite hs

theorem Legal.snapshot {c m rest s} (hs : Legal s) : Legal (snapshot c m rest s) := by
  unfold Machine.snapshot
  refine .ite hs ?_
  split
  · exact .setTop hs
  · exact .scalarDo (.putMap hs) fun _ _ ht => .enqueueCmd (.setTop ht)

theorem Legal.act {c s} (hs : Legal s) : Legal (act c s) := by
  unfold Machine.act
  split
  · exact .leaveChain hs
  · exact .ite (.setTop hs) (.callStep hs)
  · exact .ite (.setTop hs) (.callStep hs)
  · exact .setTop hs
  · exact .setTop hs
  · exact .snapshot hs
  · split
    · exact .scalarDo (.putMap hs) fun _ _ ht => .setTop ht
    · exact .setTop hs
  · exact .callAdjoint hs
  · exact .withDigest hs fun _ _ ht => .scalarDo (.vaWrite ht) fun _ _ hu => .setTop hu
  · exact .compareDigest hs
  · split
    · exact .ite hs (.compareDigest hs)
    · exact .setTop hs
  · exact .ite hs (.scalarDo (.putFrame hs) fun _ _ ht => .leaveChain ht)

theorem Legal.goOn {c s} (hs : Legal s) : Legal (goOn c s) := .ite (.deliver hs) (.act hs)

theorem Legal.syncAll {k : State → State} {s} (hs : Legal s) (hk : ∀ t, Legal t → Legal (k t)) : Legal (syncAll k s) :=
  .ite (.deliver hs) (.ite hs (hk _ hs))

theorem Legal.slotsHold {c s} (hs : Legal s) : Legal (slotsHold c s).st :=
  .iteOf hs (.mbind (.translate hs) fun _ _ ht => .mbind (.translate ht) fun _ _ hu => hu)

theorem Legal.revIllegal {sub s} (hs : Legal s) : Legal (revIllegal sub s) := .illegalLong hs

theorem Legal.startChain {c s} (hs : Legal s) : Legal (startChain c s) :=
  .ite hs (.scalarDo (.mbind (.vaProbe hs) fun _ _ ht => .mbind (.vaProbe ht) fun _ _ hu =>
    .mbind (.vaWriteN hu) fun _ _ hv => .putFrame hv) fun _ _ ht => .modCore (.modMe ht fun _ => id))

theorem Legal.beginChain {fa s} (hs : Legal s) : Legal (beginChain fa s) :=
  .ite (.revIllegal hs) (.scalarDo (.vaReadN hs) fun _ _ ht =>
    .ite (.revIllegal ht) (.scalarDo (.slotsHold ht) fun _ _ hu =>
    .ite (.revIllegal hu) (.ite (.revIllegal hu) (.startChain hu))))

theorem Legal.execRevch {ga s} (hs : Legal s) : Legal (outState (execRevch ga s) s) := by
  unfold Machine.execRevch
  refine .out ?_
  refine .scalarLong hs fun _ ht => ?_
  refine .ite (.revIllegal ht) ?_
  split
  · exact .ite (.goOn ht) (.syncAll ht fun _ hu => .beginChain hu)
  · exact .syncAll ht fun _ hu => .beginChain hu

theorem Legal.commit {c s} (hs : Legal s) : Legal (commit c s) := by
  unfold Machine.commit
  split
  · exact .setTop hs
  · exact .scalarDo (.putFrame hs) fun _ _ ht => .setTop ht
  · exact hs

theorem Legal.execRevret {s} (hs : Legal s) : Legal (outState (execRevret s) s) := by
  unfold Machine.execRevret
  refine .out ?_
  refine .scalarLong hs fun _ ht => ?_
  split
  · exact .illegalLong ht
  · exact .ite (.illegalLong ht) (.ite (.goOn ht) (.ite (.illegalLong ht) (.syncAll ht fun _ hu => .commit hu)))

theorem Legal.abandon {c s} (hs : Legal s) : Legal (abandon c s) :=
  .ite hs (.scalarDo (.putFrame hs) fun _ _ ht => .ite (.retire (.modMe (.popChain ht) fun _ => id)) (.leaveChain ht))

theorem Legal.execRevabt {s} (hs : Legal s) : Legal (outState (execRevabt s) s) := by
  unfold Machine.execRevabt
  refine .out ?_
  refine .scalarLong hs fun _ ht => ?_
  split
  · exact .illegalLong ht
  · exact .syncAll ht fun _ hu => .abandon hu

theorem Legal.execRevst {d depth field s} (hs : Legal s) : Legal (outState (execRevst d depth field s) s) := by
  unfold Machine.execRevst
  refine .out ?_
  refine .scalarLong hs fun _ ht => ?_
  dsimp only
  split <;> exact .retire (.setGNat ht)

/-! ### SAVEV, RESTV, MARKRES and TLBINV -/

theorem FrameOk.saveRecord {x : Hart} : FrameOk (saveRecord x) := frameOk_empty

theorem Legal.restore {rec' s} (hs : Legal s) (hr : FrameOk rec') : Legal (restore rec' s) :=
  .ite (.privTrap hs) (.ite hs (.retire (.settleRev (.modMe (.adoptKeys (.restoreRegs (.letGo hs) hr)) fun _ => id))))

theorem Legal.foldEach {die part} :
    ∀ {x2 s}, Legal s → Legal (foldEach die part x2 s).st
  | [], _, hs => hs
  | _ :: _, _, hs => .mbind (.foldShadow hs) fun _ _ ht => .foldEach ht

theorem Legal.foldShadows {die part s} (hs : Legal s) : Legal (foldShadows die part s).st := .foldEach hs

theorem Legal.translateAll {w} :
    ∀ {x1 s}, Legal s → Legal (translateAll w x1 s).st
  | [], _, hs => hs
  | _ :: _, _, hs => .mbind (.translate hs) fun _ _ ht => .translateAll ht

theorem Legal.markBuffer {d a n s} (hs : Legal s) : Legal (markBuffer d a n s) := by
  unfold Machine.markBuffer
  dsimp only
  split
  · exact .retire (.setGNat hs)
  · exact .ite (.retire (.setGNat hs)) (.retire (.setGNat (.modJob hs)))

theorem Legal.dropRange {lo hi s} (hs : Legal s) : Legal (dropRange lo hi s) := .dropHeld hs

theorem Legal.tlbinvRange {mv wt d a n s} (hs : Legal s) : Legal (tlbinvRange mv wt d a n s) :=
  .ite (.retire (.setG hs)) (.ite (.retire (.setG hs))
    (.ite (.dropRange hs) (.ite (.retire (.setG (.dropRange hs)))
    (.ite (.retire (.setGNat (.dropRange hs))) (.modMe (.dropRange hs) fun _ => id)))))

theorem Legal.tlbinvOp {f : State → State} {s} (hs : Legal s) (hf : ∀ t, Legal t → Legal (f t)) :
    Legal (outState (tlbinvOp f s) s) :=
  .out (.scalarLong hs fun _ ht => .ite (.preciseAt ht) (.sync ht hf))

/-! ### Pre-emption, resumption and debug -/

theorem Legal.installCore {core r s} (hs : Legal s) : Legal (installCore core r s) :=
  .modCore (.foldl (.zeroMem hs) fun _ _ ht => .setMem ht)

theorem Legal.claimCore {w core s} (hs : Legal s) : Legal (claimCore w core s) :=
  .ite hs (.coreRecs (.modCore (.installCore (.ite (.coreRecs hs) hs))))

theorem Legal.eraseCmd {core i s} (hs : Legal s) : Legal (eraseCmd core i s) := .modCore hs

theorem Legal.drainSnaps {h n s} (hs : Legal s) : Legal (drainSnaps h n s) := by
  induction n generalizing s with
  | zero => exact hs
  | succ n ih =>
    unfold Machine.drainSnaps
    dsimp only
    split
    · exact hs
    split
    · exact hs
    refine ih (.ite (.wakeTag (.decTag (.eraseCmd hs))) (.ite (.snapError (.eraseCmd hs)) ?_))
    split
    next e => exact .putCmd (.cmdGo e (.runCmd hs))
    next e => exact .putCmd (.cmdErr e (.runCmd hs))
    next e => exact .stopCmd (.cmdBad e (.runCmd hs))
    next e => exact .putCmd (.cmdStall e (.runCmd hs))

theorem Legal.writeChains {h s} (hs : Legal s) : Legal (writeChains h s) := by
  unfold Machine.writeChains
  refine .asHart hs fun _ ht => ?_
  refine .foldl ht fun _ _ hu => ?_
  split
  next e => exact .ok e (.putFrame hu)
  next e => exact .bad e (.putFrame hu)
  next e => exact .wait e (.putFrame hu)

theorem Legal.renameKeys {h k s} (hs : Legal s) : Legal (renameKeys h k s) := hs

theorem Legal.takeAnswers {h l s} (hs : Legal s) : Legal (takeAnswers h l s) := .foldl hs fun _ _ ht => .modLink ht

theorem Legal.switchOut {h s} (hs : Legal s) : Legal (switchOut h s).2 :=
  .mgroups (.renameKeys (.dropAnswers (.detach (.takeCmds (.endAccesses (.modHart hs fun _ hx => .unwindConvoy hx))))))

/-- A switch record keeps the lane grant of its hart (R222). -/
theorem HartOk.switchOut {h : Nat} {s : State} (hs : Legal s) : HartOk (switchOut h s).1.hart :=
  HartOk.hartOf (.takeCmds (.endAccesses (.modHart hs fun _ hx => .unwindConvoy hx)))

theorem Legal.settleHart {s h} (hs : Legal s) : Legal (settleHart s h) :=
  .writeChains (.drainSnaps (.ite (.modCore (.modHart (.drainStores hs) fun _ => id)) (.drainStores hs)))

theorem Legal.preemptHart {job s h} (hs : Legal s) : Legal (preemptHart job s h) :=
  .settleRev (.setHart (.setSwitch (.foldl (.switchOut hs) fun _ _ ht =>
    .ite ht (.wakeTag (.decTag ht))) (.switchOut hs)) hartOk_reset)

theorem Legal.preemptJob {job s} (hs : Legal s) : Legal (preemptJob job s) :=
  .ite hs (.ite (.modJob (.foldl hs fun _ _ ht => .settleHart ht))
    (.modJob (.meterClusters (.foldl (.foldl hs fun _ _ ht => .settleHart ht) fun _ _ ht => .preemptHart ht))))

theorem Legal.clearLeft {w s core} (hs : Legal s) : Legal (clearLeft w s core) := .ite (.modCore hs) hs

theorem Legal.switchIn {names r h s} (hs : Legal s) (hx : HartOk r.hart) : Legal (switchIn names r h s) := by
  unfold Machine.switchIn
  refine .settleRev ?_
  dsimp only
  split
  · exact .mgroups (.modCore (.renameKeys (.takeAnswers (.setHart hs hx))))
  · exact .modCore (.renameKeys (.takeAnswers (.setHart hs hx)))

theorem Legal.resumeHart {names s} {p : SwitchRec × Nat} (hs : Legal s) (hx : HartOk p.1.hart) :
    Legal (resumeHart names s p) :=
  .switchIn (.foldl hs fun _ _ ht => .ite ht (.incTag ht)) hx

theorem HartOk.recordsOf {s job j r} (hs : Legal s) (hr : r ∈ recordsOf s job j) : HartOk r.hart := by
  obtain ⟨k, -, rfl⟩ := List.mem_map.mp hr
  exact cget_all (P := fun r : SwitchRec => HartOk r.hart) hartOk_reset (legal_iff.mp hs).2.2.1 _

theorem Legal.resumeHarts {names s} {l : List (SwitchRec × Nat)} (hs : Legal s) (hl : ∀ p ∈ l, HartOk p.1.hart) :
    Legal (l.foldl (Machine.resumeHart names) s) := by
  induction l generalizing s with
  | nil => exact hs
  | cons p l ih => exact ih (.resumeHart hs (hl p (by simp))) fun q hq => hl q (List.mem_cons_of_mem _ hq)

theorem Legal.resumeJob {job cores s} (hs : Legal s) : Legal (resumeJob job cores s) := by
  have hc : Legal ((((Machine.jobOf s job).cores.zip cores).filter (fun p => p.1 != p.2)).map (fun p => p.1) |>.foldl
      (Machine.clearLeft (Machine.jobOf s job).pword) s) := .foldl hs fun _ _ ht => .clearLeft ht
  unfold Machine.resumeJob
  refine .modJob (.keepSwitches (.resumeHarts ?_ fun p hp => .recordsOf hs (List.of_mem_zip hp).1))
  exact .foldl (.foldl hc fun _ _ ht => .claimCore ht) fun _ _ ht => .installCore ht

theorem Legal.bounceHart {s h} (hs : Legal s) : Legal (bounceHart s h) :=
  .ite (.settleHart hs) (.switchIn (.switchOut (.settleHart hs)) (.switchOut (.settleHart hs)))

theorem Legal.execPinWaitPreempt {h s} (hs : Legal s) : Legal (outState (execPinWaitPreempt h s) s) := by
  unfold Machine.execPinWaitPreempt
  split
  · exact .out (.foldl hs fun _ _ ht => .bounceHart ht)
  · exact .out hs

theorem Legal.regrantRows {cluster s} (hs : Legal s) : Legal (regrantRows cluster s) := .ite (.divideRows hs) hs

theorem Legal.haltHart {h s} (hs : Legal s) : Legal (haltHart h s) := .ite hs (.ite (.debugStop hs) hs)

theorem HartOk.fromDebugFrame {r x} (hr : FrameOk r) (hx : HartOk x) : HartOk (fromDebugFrame r x) := .ite hr hx

theorem Legal.restoreDebug {h k a s} (hs : Legal s) : Legal (match Machine.readFrame h a s with
    | .ok (.good r) s => Machine.modHart k (fromDebugFrame r) s
    | .ok .wrong s => s
    | .bad _ s => s
    | .wait s => s) := by
  split
  next e => exact .modHart (.ok e (.readFrame hs)) fun _ hx => .fromDebugFrame (.readFrame hs e) hx
  next e => exact .ok e (.readFrame hs)
  next e => exact .bad e (.readFrame hs)
  next e => exact .wait e (.readFrame hs)

theorem Legal.debugResume {h s} (hs : Legal s) : Legal (debugResume h s) :=
  .ite hs (.modHart (.ite (.modCore (.restoreDebug hs)) (.issueStopped (.restoreDebug hs))) fun _ => id)

theorem Legal.debugWrite {h off v s} (hs : Legal s) : Legal (debugWrite h off v s) := by
  have hput {f : Debug → Debug} : Legal (Machine.modHart h (fun x => { x with dbg := f x.dbg }) s) := .modHart hs
    fun _ hx => ⟨hx.1, hx.2⟩
  unfold Machine.debugWrite
  dsimp only
  split
  · exact .ite (.ite (.debugResume (.modHart hs fun _ hx => ⟨hx.1, hx.2⟩)) (.modHart hs fun _ hx => ⟨hx.1, hx.2⟩))
      (.ite (.haltHart (.modHart hs fun _ hx => ⟨hx.1, hx.2⟩)) (.modHart hs fun _ hx => ⟨hx.1, hx.2⟩))
  refine .ite (.modHart hs fun _ hx => ⟨hx.1, hx.2⟩) (.ite (.modHart hs fun _ hx => ⟨hx.1, hx.2⟩)
    (.ite (.modHart hs fun _ hx => ⟨hx.1, hx.2⟩)
      (.ite (.modHart hs fun _ hx => ⟨hx.1, hx.2⟩) (.ite (.modHart hs fun _ hx => ⟨hx.1, hx.2⟩) (.ite hs ?_)))))
  exact .ite (.modHart hs fun _ hx => ⟨hx.1, hx.2⟩) (.ite (.modHart hs fun _ hx => .csrPut hx) hs)

theorem Legal.execRegisterWrite {addr value s} (hs : Legal s) : Legal (outState (execRegisterWrite addr value s) s) :=
  .out (.ite hs (.ite (.debugWrite hs) (.ite (.ite (.modPart hs) hs) hs)))

/-! ### Requests, links and directories -/

theorem Legal.answerTo {via master code data s} (hs : Legal s) : Legal (answerTo via master code data s) := by
  cases via with
  | none => exact .replies hs
  | some p => exact .replies (.cacheReply hs)

theorem Legal.answer {master code data s} (hs : Legal s) : Legal (answer master code data s) := .answerTo hs

theorem Legal.applyRequest {r via s} (hs : Legal s) : Legal (applyRequest r via s) :=
  .answerTo (.ite (.ite (.mmioWrite (.settleZero hs)) (.setMem (.settleZero hs))) (.settleZero hs))

theorem Legal.recallLines {agent a n s} (hs : Legal s) : Legal (recallLines agent a n s) := hs

theorem Legal.passRequest {r via s} (hs : Legal s) : Legal (passRequest r via s) := by
  unfold Machine.passRequest
  refine .ite (.waiting (.recallLines hs)) ?_
  split
  · exact .applyRequest hs
  · exact .ite (.applyRequest (.crossLink hs)) (.holdRequest hs)

theorem Legal.takeRequest {r via s} (hs : Legal s) : Legal (takeRequest r via s) :=
  .ite (.answerTo (.logDenial hs)) (.passRequest hs)

theorem Legal.execHostRequest {fn off kind len data s} (hs : Legal s) :
    Legal (outState (execHostRequest fn off kind len data s) s) := by
  unfold Machine.execHostRequest
  dsimp only
  refine .iteOut (.out hs) ?_
  split
  · exact .out (.answerTo (.logDenial (.addMeter (.useTag hs))))
  · exact .out (.ite (.takeRequest (.addMeter (.useTag hs))) (.addMeter (.useTag hs)))

theorem Legal.execLeeCacheFill {die part addr s} (hs : Legal s) :
    Legal (outState (execLeeCacheFill die part addr s) s) := by
  unfold Machine.execLeeCacheFill
  dsimp only
  split
  · exact .out (.ite hs hs)
  · exact .out hs

theorem Legal.execActinv {value s} (hs : Legal s) : Legal (outState (execActinv value s) s) := .out (.ite hs hs)

theorem Legal.execLinkReplay {link source seq s} (hs : Legal s) :
    Legal (outState (execLinkReplay link source seq s) s) := by
  unfold Machine.execLinkReplay
  refine .out ?_
  split
  · exact .answer hs
  · exact hs

theorem Legal.stopLostCopy {h r s} (hs : Legal s) : Legal (stopLostCopy h r s) := by
  unfold Machine.stopLostCopy
  split
  · exact .modCore hs
  · exact hs

theorem Legal.loseRequest {link s r} (hs : Legal s) : Legal (loseRequest link s r) := by
  unfold Machine.loseRequest
  dsimp only
  split
  · exact .answerTo hs
  · exact .ite hs (.ite (.ite hs (.ite (.deliver hs) (.enterTrap hs))) (.ite (.stopLostCopy hs) (.setPend hs)))

theorem Legal.sendAgain {link s r} (hs : Legal s) : Legal (sendAgain link s r) := by
  unfold Machine.sendAgain
  dsimp only
  split
  · exact .ite (.ite hs (.modLink (.cacheReply hs))) (.modLink (.ite hs (.setMem (.cacheReply hs))))
  · exact .ite (.answerTo (.ite hs (.cacheReply hs))) (.applyRequest (.ite hs (.cacheReply hs)))

/-! ### Queues and packets -/

theorem Legal.after {α : Type} {m : MR α} {s0} (hs : Legal m.st) (ht : Legal s0) : Legal (after m s0) := by
  unfold Machine.after
  split
  · exact hs
  · exact hs
  · exact ht

theorem Legal.signalOp {part q addr} {f : Nat → Nat} {s} (hs : Legal s) : Legal (signalOp part q addr f s).st :=
  .vaAtomic hs

theorem Legal.chargeUnits {part q n s} (hs : Legal s) : Legal (chargeUnits part q n s) := .modQueue hs

theorem Legal.rejoin {part q s} (hs : Legal s) : Legal (rejoin part q s) := by
  unfold Machine.rejoin
  dsimp only
  split
  · exact hs
  · exact .modQueue hs

theorem Legal.orDenied {α : Type} {m : MR α} (hs : Legal m.st) : Legal (orDenied m).st := by
  unfold Machine.orDenied
  split <;> exact hs

theorem Legal.checkOverwrite {part q s} (hs : Legal s) : Legal (checkOverwrite part q s).st :=
  .orDenied (.mbind (.vaReadN hs) fun _ _ ht => .ite ht (.modPart (.modQueue ht)))

theorem Legal.writeQcb {part q s} (hs : Legal s) : Legal (writeQcb part q s).st :=
  .mbind (.checkOverwrite hs) fun _ _ ht => .mbind (.orDenied (.vaWriteN ht)) fun _ _ hu =>
    .orDenied (.mbind (.vaWriteN hu) fun _ _ hv => .ofOk (.modQueue hv))

theorem Legal.writeBack {part q s} (hs : Legal s) : Legal (writeBack part q s) := by
  unfold Machine.writeBack
  split
  next e =>
    have ht := Legal.ok e (.writeQcb hs)
    exact .ite (.modQueue ht) ht
  next e => exact .bad e (.writeQcb hs)
  · exact .modQueue hs

theorem Legal.ringOf {part q s} (hs : Legal s) : Legal (ringOf part q s).st := .mbind (.vaReadN hs) fun _ _ ht => ht

theorem Legal.headPacket {part q s} (hs : Legal s) : Legal (headPacket part q s).st := by
  unfold Machine.headPacket
  refine .mbind (.ringOf hs) fun _ _ ht => ?_
  split
  · exact ht
  · exact .mbind (.vaReadN ht) fun _ _ hu => hu

theorem Legal.judgeDoorbell {part q v size s} (hs : Legal s) : Legal (judgeDoorbell part q v size s) :=
  .ite hs (.ite (.rejoin (.modQueue hs)) (.modQueue hs))

theorem Legal.takeDoorbell {part q v s} (hs : Legal s) : Legal (takeDoorbell part q v s) := by
  unfold Machine.takeDoorbell
  dsimp only
  refine .ite (.judgeDoorbell hs) ?_
  refine .ite (.modQueue hs) ?_
  split
  next e => exact .judgeDoorbell (.ok e (.ringOf hs))
  next e => exact .judgeDoorbell (.ok e (.ringOf hs))
  next e => exact .judgeDoorbell (.bad e (.ringOf hs))
  · exact .modQueue hs

theorem Legal.settleQueue {part q s} (hs : Legal s) : Legal (settleQueue part q s) :=
  .ite (.writeBack (.ite hs (.foldl (.modQueue hs) fun _ _ ht => .takeDoorbell ht)))
    (.ite hs (.foldl (.modQueue hs) fun _ _ ht => .takeDoorbell ht))

theorem Legal.execDoorbell {fn q value s} (hs : Legal s) : Legal (outState (execDoorbell fn q value s) s) :=
  .out (.ite hs (.takeDoorbell hs))

theorem Legal.takeDueSlices {part q s} (hs : Legal s) : Legal (takeDueSlices part q s) :=
  .foldl hs fun _ _ ht => .preemptJob ht

theorem Legal.switchOff {job s} (hs : Legal s) : Legal (switchOff job s) := .ite hs (.writeBack (.preemptJob hs))

theorem Legal.passPacket {part q s} (hs : Legal s) : Legal (passPacket part q s) := .modQueue hs

theorem Legal.completePacket {part q status s} (hs : Legal s) : Legal (completePacket part q status s) :=
  .writeBack (.takeDueSlices (.ite (.rejoin (.modQueue (.passPacket hs))) (.modQueue (.passPacket hs))))

theorem Legal.withPacket {type part q} {f : List Byte → State → State} {s} (hs : Legal s)
    (hf : ∀ a t, Legal t → Legal (f a t)) : Legal (withPacket type part q f s) :=
  .ite (hf _ _ hs) hs

theorem Legal.stepDone {part q s} (hs : Legal s) : Legal (stepDone part q s) := .modQueue hs

theorem Legal.packetDo {α : Type} {part q} {m : MR α} {k : α → State → State} {s0} (hs : Legal m.st) (ht : Legal s0)
    (hk : ∀ a t, Legal t → Legal (k a t)) : Legal (packetDo part q m k s0) := by
  unfold Machine.packetDo
  split
  · exact hk _ _ hs
  · exact .completePacket hs
  · exact ht

theorem Legal.execCopy {part q s} (hs : Legal s) : Legal (outState (execCopy part q s) s) :=
  .out (.withPacket hs fun _ _ ht => .ite (.completePacket ht) (.packetDo (.vaReadN ht) ht fun _ _ hu =>
    .packetDo (.vaWriteN hu) hu fun _ _ hv => .ite (.completePacket (.stepDone hv)) (.stepDone hv)))

theorem Legal.execSignal {part q s} (hs : Legal s) : Legal (outState (execSignal part q s) s) :=
  .out (.withPacket hs fun _ _ ht => .ite (.completePacket ht) (.packetDo (.signalOp ht) ht fun _ _ hu =>
    .completePacket hu))

theorem Legal.execWait {part q s} (hs : Legal s) : Legal (outState (execWait part q s) s) :=
  .out (.withPacket hs fun _ _ ht => .ite (.completePacket ht) (.packetDo (.vaReadNum ht) ht fun _ _ hu =>
    .ite (.completePacket hu) (.writeBack (.modQueue hu))))

theorem Legal.execWaitSatisfied {part q s} (hs : Legal s) : Legal (outState (execWaitSatisfied part q s) s) :=
  .iteOut (.out hs) (.out (.packetDo (.vaReadNum hs) hs fun _ _ ht => .ite (.completePacket ht) ht))

theorem Legal.execWriteSignal {part q s} (hs : Legal s) : Legal (outState (execWriteSignal part q s) s) :=
  .out (.withPacket hs fun _ _ ht => .ite (.completePacket ht)
    (.ite (.packetDo (.vaWriteN ht) ht fun _ _ hu => .stepDone hu) (.packetDo (.signalOp ht) ht fun _ _ hu =>
    .completePacket hu)))

theorem Legal.execBarrier {part q s} (hs : Legal s) : Legal (outState (execBarrier part q s) s) :=
  .out (.withPacket hs fun _ _ ht => .completePacket ht)

theorem Legal.extendChain {part q kind digest s} (hs : Legal s) : Legal (extendChain part q kind digest s) := .modQueue hs

theorem Legal.execMeasure {part q s} (hs : Legal s) : Legal (outState (execMeasure part q s) s) :=
  .out (.withPacket hs fun _ _ ht => .ite (.completePacket ht) (.packetDo (.vaReadN ht) ht fun _ _ hu =>
    .ite (.completePacket (.extendChain hu)) (.stepDone (.modQueue hu))))

theorem Legal.execReceipt {part q s} (hs : Legal s) : Legal (outState (execReceipt part q s) s) :=
  .out (.withPacket hs fun _ _ ht => .packetDo (.vaWriteN (.bump (.addMeter (.modQueue ht)))) ht fun _ _ hu =>
    .completePacket hu)

/-! ### Launches, jobs and slices -/

theorem Legal.startJob {part q l cores s} (hs : Legal s) : Legal (startJob part q l cores s) := by
  have hc : Legal (cores.foldl (fun s c => Machine.claimCore l.pword c s) s) := .foldl hs fun _ _ ht => .claimCore ht
  unfold Machine.startJob
  exact .foldl hc fun t _ ht => .setHart ht (.ite ⟨grantOf_le t _, hartOk_reset.2⟩ ⟨grantOf_le t _, hartOk_reset.2⟩)

theorem Legal.showEnd {e s} (hs : Legal s) : Legal (showEnd e s).2 := by
  have add {w t} {x y : Option EndSignal} (ht : Legal t) :
    Legal (match Machine.vaAtomic w e.sig 8 (fun x => some ((x + 1) % 2 ^ 64)) t with
      | .ok _ s => (x, s)
      | .bad _ s => (x, s)
      | .wait _ => (y, t)).2 := by
    split
    next e => exact .ok e (.vaAtomic ht)
    next e => exact .bad e (.vaAtomic ht)
    next => exact ht
  unfold Machine.showEnd
  dsimp only
  split
  · exact add hs
  · split
    next e => exact add (.ok e (.vaWrite hs))
    next e => exact add (.bad e (.vaWrite hs))
    next => exact hs

theorem Legal.showEnds {s} (hs : Legal s) : Legal (showEnds s) :=
  .foldl (s := { s with signals := [] }) hs fun t e ht =>
    have hu : Legal (Machine.showEnd e t).2 := .showEnd ht
    hu

theorem Legal.fireSignal {part ctx sig status s} (hs : Legal s) : Legal (fireSignal part ctx sig status s) := .showEnds hs

theorem Legal.execLaunch {part q cores s} (hs : Legal s) : Legal (outState (execLaunch part q cores s) s) :=
  .out (.withPacket hs fun _ _ ht => .ite (.completePacket ht)
    (.ite (.completePacket (.fireSignal ht)) (.ite (.writeBack (.takeDueSlices (.passPacket (.startJob ht)))) ht)))

theorem Legal.hashMark {part q w m s t} (hs : Legal s) (e : hashMark part q w m s = some t) : Legal t := by
  unfold Machine.hashMark at e
  split at e
  next eq => exact Option.some.inj e ▸ .extendChain (.ok eq (.vaReadN hs))
  next eq => exact Option.some.inj e ▸ .extendChain (.bad eq (.vaReadN hs))
  next => cases e

theorem Legal.hashMarks {job w l s} (hs : Legal s) : Legal (hashMarks job w l s) := by
  induction l generalizing s with
  | nil => exact hs
  | cons m rest ih =>
    unfold Machine.hashMarks
    dsimp only
    split
    next e => exact ih (.modJob (.hashMark hs e))
    next => exact hs

theorem Legal.freeHartPlace {s h} (hs : Legal s) : Legal (freeHartPlace s h) :=
  .settleRev (.setHart (.mgroups (.endWork (.detach hs))) hartOk_reset)

theorem Legal.dropBinds {s core} (hs : Legal s) : Legal (dropBinds s core) := .ite hs (.modCore hs)

theorem Legal.dropAway {job s} (hs : Legal s) : Legal (dropAway job s) := hs

theorem Legal.finishJob {job status s} (hs : Legal s) : Legal (finishJob job status s) :=
  .ite (.hashMarks hs) (.writeBack (.modQueue
    (.foldl (.modJob (.keepSwitches (.ite
    (.dropAway (.fireSignal (.ite (.hashMarks hs) (.meterClusters (.hashMarks hs)))))
    (.foldl (.fireSignal (.ite (.hashMarks hs) (.meterClusters (.hashMarks hs)))) fun _ _ ht => .freeHartPlace ht))))
    fun _ _ ht => .dropBinds ht)))

theorem Legal.execJobCompletion {job s} (hs : Legal s) : Legal (outState (execJobCompletion job s) s) :=
  .out (.ite (.finishJob hs) hs)

theorem Legal.issueHead {part q h s} (hs : Legal s) : Legal (issueHead part q h s) := by
  unfold Machine.issueHead
  dsimp only
  split
  · exact hs
  · exact .completePacket (.chargeUnits (.after (.headPacket hs) hs))
  · exact .writeBack (.modQueue (.chargeUnits (.after (.headPacket hs) hs)))
  · exact .writeBack (.modQueue hs)
  · exact .writeBack (.resumeJob hs)

theorem Legal.execStrideSchedule {part cores s} (hs : Legal s) :
  Legal (outState (execStrideSchedule part cores s) s) := by
  unfold Machine.execStrideSchedule
  split
  · exact .out (.issueHead hs)
  · exact .out hs

theorem Legal.drainUsage {part s} (hs : Legal s) : Legal (drainUsage part s) := .modPart (.bump hs)

theorem Legal.emitUsage {part s} (hs : Legal s) : Legal (emitUsage part s) :=
  .ite (.drainUsage (.settleMeters hs)) (.drainUsage (.modPart (.bump (.drainUsage (.settleMeters hs)))))

/-! ### The key-value space -/

theorem Legal.kvReach {w ga l kind n bs s} (hs : Legal s) : Legal (kvReach w ga l kind n bs s).st := by
  unfold Machine.kvReach
  dsimp only
  refine .iteOf (.logAt hs) ?_
  refine .iteOf hs ?_
  split
  · exact .iteOf (.crossNow hs) (.leaveOutstanding hs)
  · exact .ite (.settleZero hs) hs

theorem Legal.hartAsk {w ga wr s} (hs : Legal s) : Legal (hartAsk w ga wr s).st := .iteOf (.logRecord hs) hs

theorem Legal.kvGet {w ga g n place s} (hs : Legal s) : Legal (kvGet w ga g n place s).st := by
  unfold Machine.kvGet
  dsimp only
  refine .mbind (.kvReach hs) fun _ _ ht => ?_
  split <;> exact ht

theorem Legal.kvPut {w ga g bs s} (hs : Legal s) : Legal (kvPut w ga g bs s).st :=
  .mbind (.kvReach hs) fun _ _ ht => .ite (.setMem (.ite ht (.dropLine ht))) (.ite ht (.dropLine ht))

theorem Legal.kvPutRun {w ga} :
    ∀ {x2 x3 x4 s}, Legal s → Legal (kvPutRun w ga x2 x3 x4 s).st
  | 0, _, _, _, hs => hs
  | _ + 1, _, _, _, hs => .iteOf hs (.mbind (.kvPut hs) fun _ _ ht => .kvPutRun ht)

theorem Legal.kvPutN {w ga g bs s} (hs : Legal s) : Legal (kvPutN w ga g bs s).st := .kvPutRun hs

theorem Legal.kvZeroPages {w ga g n s} (hs : Legal s) :
    ∀ {x4}, Legal (kvZeroPages w ga g n x4 s).st
  | 0 => hs
  | _ + 1 => .mbind (.kvZeroPages hs) fun _ _ ht => .mbind (.kvReach ht) fun _ _ hu => .zeroMem hu

theorem Legal.kvNum {w ga g n s} (hs : Legal s) : Legal (kvNum w ga g n s).st := .mbind (.kvGet hs) fun _ _ ht => ht

theorem Legal.undo {part s s'} (hs : Legal s) : Legal (undo part s s') := .modPart hs

theorem Legal.keepApplied {s s'} (hs : Legal s) : Legal (keepApplied s s') := .foldl hs fun _ _ hu => .setMem hu

theorem Legal.whole {α : Type} {w} {m : State → MR α} {s} (hs : Legal s) (hm : ∀ t, Legal t → Legal (m t).st) :
    Legal (whole w m s).st := by
  unfold Machine.whole
  split
  next e => exact .ok e (hm _ hs)
  · exact .undo hs
  · exact .undo (.keepApplied hs)

theorem Legal.setChunk {block} {f : Chunk → Chunk} {s} (hs : Legal s) : Legal (setChunk block f s) := hs

theorem Legal.stage2Put {b e s} (hs : Legal s) : Legal (stage2Put b e s) := .rawWrite hs

theorem Legal.kvEntryGet {w ga b s} (hs : Legal s) : Legal (kvEntryGet w ga b s).st := .kvNum hs

theorem Legal.kvEntry {w ga b e s} (hs : Legal s) : Legal (kvEntry w ga b e s).st := .kvPut hs

theorem Legal.takeChunk {w ga c bkind pcode n s} (hs : Legal s) : Legal (takeChunk w ga c bkind pcode n s).st :=
  .mbind (.kvEntryGet (.setChunk hs)) fun _ _ ht => .mbind (.kvEntry ht) fun _ _ hu => .kvZeroPages hu

theorem Legal.kvAlloc {w ga item tier bkind pcode n s} (hs : Legal s) :
  Legal (kvAlloc w ga item tier bkind pcode n s).st := by
  unfold Machine.kvAlloc
  dsimp only
  refine .iteOf hs ?_
  split
  · exact hs
  · exact .mbind (.takeChunk hs) fun _ _ ht => .ofOk (.modPart (.settleMeters ht))

theorem Legal.countFreed {b owner s} (hs : Legal s) : Legal (countFreed b owner s) :=
  .modPart (.settleMeters (.setChunk hs))

theorem Legal.freeBlock {w ga b s} (hs : Legal s) : Legal (freeBlock w ga b s).st :=
  .mbind (.kvEntryGet hs) fun _ _ ht => .mbind (.kvEntry ht) fun _ _ hu => .countFreed hu

theorem Legal.freeTable {w ga g s} (hs : Legal s) : Legal (freeTable w ga g s).st := by
  unfold Machine.freeTable
  split
  · exact .freeBlock hs
  · exact hs

theorem Legal.beginWalk {w s} (hs : Legal s) : Legal (beginWalk w s) := hs

theorem Legal.kvHead {w ga wr s} (hs : Legal s) : Legal (kvHead w ga wr s).st :=
  .mbind (.hartAsk (.beginWalk hs)) fun _ _ ht =>
    .iteOf ht (.mbind (.kvNum ht) fun _ _ hu =>
    .iteOf hu (.iteOf hu (.mbind (.kvNum hu) fun _ _ hv =>
    .iteOf hv (.mbind (.kvNum hv) fun _ _ hw => .iteOf hw hw))))

theorem Legal.nextPos {w ga k s} (hs : Legal s) : Legal (nextPos w ga k s).st := .mbind (.kvNum hs) fun _ _ ht => ht

theorem Legal.addPages {w ga k d s} (hs : Legal s) : Legal (addPages w ga k d s).st :=
  .mbind (.kvNum hs) fun _ _ ht => .kvPut ht

theorem Legal.freshPage {w ga kind p addr s} (hs : Legal s) : Legal (freshPage w ga kind p addr s).st :=
  .iteOf hs (.kvPutN hs)

theorem Legal.stage2 {w ga kind leafAt leaf wr s} (hs : Legal s) : Legal (stage2 w ga kind leafAt leaf wr s).st :=
  .iteOf hs (.iteOf (.iteOf (.bump hs) (.iteOf (.bump hs) (.iteOf (.logRecord (.bump hs)) (.bump hs))))
    (.iteOf hs (.mbind (.kvEntryGet hs) fun _ _ ht => .iteOf ht (.iteOf ht (.iteOf (.logRecord ht) ht)))))

theorem Legal.kvTable {w ga k ea n wr s} (hs : Legal s) : Legal (kvTable w ga k ea n wr s).st :=
  .mbind (.kvNum hs) fun _ _ ht => .iteOf ht
    (.iteOf ht (.mbind (.kvAlloc ht) fun _ _ hu => .mbind (.kvPut hu) fun _ _ hv =>
    .mbind (.addPages hv) fun _ _ hw => hw))

theorem Legal.kvPage {w ga k kind blk wr s} (hs : Legal s) : Legal (kvPage w ga k kind blk wr s).st := by
  unfold Machine.kvPage
  refine .mbind (.kvTable hs) fun _ _ ht => ?_
  split
  · exact ht
  · refine .mbind (.kvTable ht) fun _ _ hu => ?_
    split
    · exact hu
    · exact .mbind (.kvNum hu) fun _ _ hv =>
        .iteOf (.mbind (.stage2 hv) fun _ _ hw => hw)
        (.iteOf hv (.mbind (.kvAlloc hv) fun _ _ hw => .mbind (.freshPage hw) fun _ _ hz =>
        .mbind (.kvPut hz) fun _ _ hs1 => .mbind (.addPages hs1) fun _ _ hs2 => hs2))

theorem Legal.kvNeed {w ga k kind blk s} (hs : Legal s) : Legal (kvNeed w ga k kind blk s).st := by
  unfold Machine.kvNeed
  refine .mbind (.kvPage hs) fun _ _ ht => ?_
  split <;> exact ht

theorem Legal.tableRun {w ga} :
    ∀ {x2 x3 x4 s}, Legal s → Legal (tableRun w ga x2 x3 x4 s).st
  | 0, _, _, _, hs => hs
  | _ + 1, _, _, _, hs => .iteOf hs (.mbind (.kvGet hs) fun _ _ ht => .mbind (.tableRun ht) fun _ _ hu => hu)

theorem Legal.anyStale {w ga kind p pg s} (hs : Legal s) : Legal (anyStale w ga kind p pg s).st := by
  unfold Machine.anyStale
  refine .iteOf hs ?_
  split
  next e => exact .ok e (.tableRun hs)
  next e =>
    have ht := Legal.bad e (.tableRun hs)
    exact .iteOf ht ht
  next e => exact .wait e (.tableRun hs)

theorem Legal.touchLeaf {w ga kind p pg s} (hs : Legal s) : Legal (touchLeaf w ga kind p pg s).st :=
  .mbind (.anyStale hs) fun _ _ ht => .kvPut ht

theorem Legal.putKv4 {w ga p pg t x md s} (hs : Legal s) : Legal (putKv4 w ga p pg t x md s).st :=
  .mbind (.kvPut hs) fun _ _ ht => .mbind (.kvPut ht) fun _ _ hu => .mbind (.kvPut hu) fun _ _ hv => .touchLeaf hv

theorem Legal.putVq {w ga p pg t ix md s} (hs : Legal s) : Legal (putVq w ga p pg t ix md s).st :=
  .mbind (.kvPut hs) fun _ _ ht => .mbind (.kvPut ht) fun _ _ hu => .touchLeaf hu

theorem Legal.blockRead {w ga g n place s} (hs : Legal s) : Legal (blockRead w ga g n place s).st := by
  unfold Machine.blockRead
  dsimp only
  refine .iteOf (.kvGet hs) ?_
  split
  next e => exact .bad e (.leeReadBy hs)
  · exact .leeReadBy hs

theorem Legal.blockRun {w ga place} :
    ∀ {x3 x4 x5 s}, Legal s → Legal (blockRun w ga place x3 x4 x5 s).st
  | 0, _, _, _, hs => hs
  | _ + 1, _, _, _, hs => .iteOf hs (.mbind (.blockRead hs) fun _ _ ht => .mbind (.blockRun ht) fun _ _ hu => hu)

theorem Legal.blockBytes {w ga g n place s} (hs : Legal s) : Legal (blockBytes w ga g n place s).st := .blockRun hs

theorem Legal.kvCodebook {w ga k kind s} (hs : Legal s) : Legal (kvCodebook w ga k kind s).st :=
  .mbind (.kvNum hs) fun _ _ ht => .iteOf (.mbind (.blockBytes ht) fun _ _ hu => hu) ht

theorem Legal.rebuildSlots {w ga p cb old pg} :
    ∀ {x6 s}, Legal s → Legal (rebuildSlots w ga p cb old pg x6 s).st
  | [], _, hs => hs
  | _ :: _, _, hs => .iteOf (.rebuildSlots hs) (.mbind (.putKv4 hs) fun _ _ ht => .rebuildSlots (.addFl ht))

theorem Legal.retire' {w ga pg s} (hs : Legal s) : Legal (retire' w ga pg s).st :=
  .iteOf (.mbind (.kvEntryGet hs) fun _ _ ht => .mbind (.kvEntry ht) fun _ _ hu => .setChunk hu) hs

theorem Legal.recoveryOf {w ga k kind blk s} (hs : Legal s) : Legal (recoveryOf w ga k kind blk s).st := by
  unfold Machine.recoveryOf
  split
  next e =>
    exact .bad e (.mbind (.kvNeed hs) fun _ _ ht => .mbind (.blockBytes ht) fun _ _ hu =>
      .mbind (.kvCodebook hu) fun _ _ hv => hv)
  · exact .mbind (.kvNeed hs) fun _ _ ht => .mbind (.blockBytes ht) fun _ _ hu => .mbind (.kvCodebook hu) fun _ _ hv => hv

theorem Legal.rebuildIn {w ga k kind pg c old cb s} (hs : Legal s) : Legal (rebuildIn w ga k kind pg c old cb s).st :=
  .mbind (.takeChunk hs) fun _ _ ht => .mbind (.retire' ht) fun _ _ hu => .mbind (.freshPage hu) fun _ _ hv =>
    .mbind (.rebuildSlots hv) fun _ _ hw => .mbind (.kvPut hw) fun _ _ hz => hz

theorem Legal.rebuild {w ga k kind blk pg s} (hs : Legal s) : Legal (rebuild w ga k kind blk pg s).st := by
  unfold Machine.rebuild
  refine .mbind (.recoveryOf hs) fun _ _ ht => ?_
  split
  · exact ht
  · split
    · exact ht
    · exact .rebuildIn ht

theorem Legal.readKv4 {w ga k kind blk t s} (hs : Legal s) : Legal (readKv4 w ga k kind blk t s).st := by
  unfold Machine.readKv4
  dsimp only
  refine .mbind (.kvNeed hs) fun _ _ ht => ?_
  split
  next e =>
    have hy := Legal.bad e (.mbind (.blockBytes ht) fun _ _ hu => .mbind (.blockBytes hu) fun _ _ hv => hv)
    exact .iteOf (.mbind (.whole hy fun _ hu => .rebuild hu) fun _ _ hu => .mbind (.blockBytes hu) fun _ _ hv =>
      .mbind (.blockBytes hv) fun _ _ hw => hw) hy
  · exact .mbind (.blockBytes ht) fun _ _ hu => .mbind (.blockBytes hu) fun _ _ hv => hv

/-! ### Key-value instructions -/

theorem Legal.reachKey {u s} (hs : Legal s) : Legal (reachKey u s) := .ite hs hs

theorem Legal.onKey {cls all ga} {run : Perform} {e s} (hs : Legal s) (hrun : ∀ e t, Legal t → Legal (run e t).st) :
    Legal (onKey cls all ga run e s).st := by
  unfold Machine.onKey
  dsimp only
  refine .iteOf (.reachKey hs) ?_
  split
  next e => exact .leaveKey (.done e (hrun _ _ (.reachKey hs)))
  next e => exact .ite (.fault e (hrun _ _ (.reachKey hs))) (.leaveKey (.fault e (hrun _ _ (.reachKey hs))))
  next e =>
    have ht := Legal.block e (hrun _ _ (.reachKey hs))
    exact .ite ht (.leaveKey ht)

theorem Legal.kvRun {e src log} {act : Nat → Nat → List Nat → State → MR (List Nat)} {fin : List Nat → State → LRes}
  (hsrc : ∀ a a1 a2 t, Legal t → Legal (src.pre a a1 a2 t).st)
  (hact : ∀ a a1 a2 t, Legal t → Legal (act a a1 a2 t).st) (hfin : ∀ a t, Legal t → Legal (fin a t).st) :
    ∀ {x5 x6 s}, Legal s → Legal (kvRun e src log act fin x5 x6 s).st
  | [], _, _, hs => hfin _ _ hs
  | (_, _) :: _, _, _, hs => by
    unfold Machine.kvRun
    refine .iteOf (.kvRun hsrc hact hfin hs) ?_
    split
    next e => exact .stopAt (.preBad e (hsrc _ _ _ _ hs))
    next e => exact .preWait e (hsrc _ _ _ _ hs)
    next e =>
      split
      next e _ _ _ e1 => exact .kvRun hsrc hact hfin (.ok e1 (hact _ _ _ _ (.preOk e (hsrc _ _ _ _ hs))))
      next e _ _ _ e1 => exact .stopAt (.bad e1 (hact _ _ _ _ (.preOk e (hsrc _ _ _ _ hs))))
      next e _ _ e1 => exact .wait e1 (hact _ _ _ _ (.preOk e (hsrc _ _ _ _ hs)))

theorem Legal.kvLoop {e src log} {act : Nat → Nat → List Nat → State → MR (List Nat)} {l s} (hs : Legal s)
    (hsrc : ∀ a b c t, Legal t → Legal (src.pre a b c t).st) (hact : ∀ a b c t, Legal t → Legal (act a b c t).st) :
    Legal (kvLoop e src log act l s).st :=
  .kvRun hsrc hact (fun _ _ ht => .endBind ht fun _ hu => .ofDone (.consume hu)) hs

theorem Legal.kvAt {w ga off wr kept s} (hs : Legal s) : Legal (kvAt w ga off wr kept s).st :=
  .iteOf hs (.mbind (.kvHead hs) fun _ _ ht =>
    .mbind (.iteOf (.mbind (.nextPos ht) fun _ _ hu => hu) ht) fun _ _ hu => .iteOf hu hu)

theorem Legal.kvOnce {e m} (hs : Legal m.st) : Legal (kvOnce e m).st := by
  unfold Machine.kvOnce
  split
  · exact hs
  · exact .stopAt hs
  · exact hs

theorem Legal.readPlaces {get : Reg → Nat → Nat → State → MR (Nat × Fl)}
  (hget : ∀ a a1 a2 t, Legal t → Legal (get a a1 a2 t).st) :
    ∀ {x1 x2 s}, Legal s → Legal (readPlaces get x1 x2 s).st
  | [], _, _, hs => hs
  | (_, (_, _)) :: _, _, _, hs => by
    unfold Machine.readPlaces
    split
    next e => exact .readPlaces hget (.ok e (hget _ _ _ _ hs))
    next e => exact .bad e (hget _ _ _ _ hs)
    next e => exact .wait e (hget _ _ _ _ hs)

theorem Legal.appElem {e fmt mask v k i s} (hs : Legal s) : Legal (appElem e fmt mask v k i s).st :=
  .iteOf hs (.mbind (.srcElem hs) fun _ _ ht => ht)

theorem Legal.appRecovery {w a k kind np y s} (hs : Legal s) : Legal (appRecovery w a k kind np y s).st := by
  unfold Machine.appRecovery
  refine .iteOf hs ?_
  refine .mbind (.kvCodebook hs) fun _ _ ht => ?_
  split
  · exact ht
  · dsimp only
    refine .mbind (.kvPage ht) fun _ _ hu => ?_
    split
    · exact .putVq hu
    · exact hu

theorem Legal.appVector {w a k kind np y s} (hs : Legal s) : Legal (appVector w a k kind np y s).st := by
  unfold Machine.appVector
  dsimp only
  refine .mbind (.kvPage hs) fun _ _ ht => ?_
  split
  · exact .mbind (.putKv4 ht) fun _ _ hu => .addFl hu
  · exact ht

theorem Legal.appendToken {w ga y z s} (hs : Legal s) : Legal (appendToken w ga y z s).st :=
  .whole hs fun _ ht => .mbind (.kvHead ht) fun _ _ hu => .mbind (.nextPos hu) fun _ _ hv =>
    .iteOf hv (.mbind (.appVector hv) fun _ _ hw => .mbind (.appVector hw) fun _ _ hz =>
    .mbind (.appRecovery hz) fun _ _ hs1 => .mbind (.appRecovery hs1) fun _ _ hs2 => .kvPut hs2)

theorem Legal.appTokens {e fmt ga vb vc mask all} {fin : State → LRes} (hfin : ∀ t, Legal t → Legal (fin t).st) :
    ∀ {x8 x9 s}, Legal s → Legal (appTokens e fmt ga vb vc mask all fin x8 x9 s).st
  | [], _, _, hs => hfin _ hs
  | (_, _) :: _, _, _, hs => by
    unfold Machine.appTokens
    refine .iteOf (.appTokens hfin hs) ?_
    refine .iteOf (.appTokens hfin hs) ?_
    dsimp only
    split
    next e => exact .stopAt (.placesBad e (.readPlaces (fun _ _ _ _ ht => .appElem ht) hs))
    next e => exact .placesWait e (.readPlaces (fun _ _ _ _ ht => .appElem ht) hs)
    next e =>
      split
      next e _ _ _ e1 =>
        exact .appTokens hfin (.addFl (.ok e1
          (.appendToken (.placesOk e (.readPlaces (fun _ _ _ _ ht => .appElem ht) hs)))))
      next e _ _ _ e1 =>
        exact .stopAt (.bad e1 (.appendToken (.placesOk e (.readPlaces (fun _ _ _ _ ht => .appElem ht) hs))))
      next e _ _ e1 => exact .wait e1 (.appendToken (.placesOk e (.readPlaces (fun _ _ _ _ ht => .appElem ht) hs)))

theorem Legal.perfKvapp {fmt ga vb vc mask e s} (hs : Legal s) : Legal (perfKvapp fmt ga vb vc mask e s).st :=
  .onKey hs fun _ _ ht => .appTokens (fun _ hu => .endBind hu fun _ hv => .ofDone (.consume hv)) ht

theorem Legal.perfKvld {fmt rnd sat vd ga mask row e s} (hs : Legal s) :
    Legal (perfKvld fmt rnd sat vd ga mask row e s).st := by
  unfold Machine.perfKvld
  refine .onKey hs fun _ _ ht => ?_
  dsimp only
  refine .kvLoop ht (fun _ _ _ _ hu => hu) fun _ _ _ _ hu => ?_
  refine .iteOf hu ?_
  refine .iteOf ?_ (.mbind (.iteOf hu (.mbind (.kvAt hu) fun _ _ hv => .mbind (.readKv4 hv) fun _ _ hw => hw))
    fun _ _ hv => .addFl (.setVElem hv))
  refine .mbind (.kvAt hu) fun _ _ hv => ?_
  refine .mbind (.kvPage hv) fun _ _ hw => ?_
  split
  · exact .addFl (.setVElem hw)
  · exact .mbind (.blockBytes hw) fun _ _ hz => .addFl (.setVElem hz)

theorem Legal.sharedReads {get : Reg → Nat → Nat → State → MR (Nat × Fl)} {act tag places kept s} (hs : Legal s)
    (hget : ∀ a a1 a2 t, Legal t → Legal (get a a1 a2 t).st) : Legal (sharedReads get act tag places kept s).st := by
  unfold Machine.sharedReads
  dsimp only
  refine .iteOf hs ?_
  split
  next e => exact .placesOk e (.readPlaces hget hs)
  next e => exact .placesBad e (.readPlaces hget hs)
  next e => exact .placesWait e (.readPlaces hget hs)

theorem Legal.perfKvscore {fmt vd ga vb mask row e s} (hs : Legal s) :
    Legal (perfKvscore fmt vd ga vb mask row e s).st :=
  .onKey hs fun _ _ ht => .kvLoop ht (fun _ _ _ _ hu => .sharedReads hu fun _ _ _ _ hv =>
    .srcElem hv) fun _ _ _ _ hu => .iteOf hu (.mbind (.kvAt hu) fun _ _ hv => .mbind (.readKv4 hv) fun _ _ hw =>
    .addFl (.setVElem hw))

theorem Legal.vqToken {w a i kept s} (hs : Legal s) : Legal (vqToken w a i kept s).st :=
  .mbind (.kvAt hs) fun _ _ ht => .mbind (.kvNeed ht) fun _ _ hu => .mbind (.blockBytes hu) fun _ _ hv => hv

theorem Legal.perfKvvqsLut {vd ga vb vc mask row e s} (hs : Legal s) :
    Legal (perfKvvqsLut vd ga vb vc mask row e s).st :=
  .onKey hs fun _ _ ht => .kvLoop ht (fun _ _ _ _ hu => .sharedReads hu fun _ _ _ _ hv =>
    .srcElem hv) fun _ _ _ _ hu => .iteOf hu (.mbind (.vqToken hu) fun _ _ hv => .addFl (.setVElem hv))

theorem Legal.perfKvvqsQ {qf vd ga vb mask row e s} (hs : Legal s) : Legal (perfKvvqsQ qf vd ga vb mask row e s).st := by
  unfold Machine.perfKvvqsQ
  refine .onKey hs fun _ _ ht => ?_
  dsimp only
  refine .kvLoop ht (fun _ _ _ _ hu => .sharedReads hu fun _ _ _ _ hv => .srcElem hv) fun _ _ _ _ hu => ?_
  refine .iteOf hu ?_
  refine .mbind ?_ (fun _ _ hv => .mbind (.vqToken hv) fun _ _ hw => .addFl (.setVElem hw))
  refine .iteOf hu ?_
  refine .mbind (.kvAt hu) fun _ _ hv => ?_
  refine .mbind (.kvCodebook hv) fun _ _ hw => ?_
  split <;> exact hw

theorem Legal.accScore {w ga p t y pg s} (hs : Legal s) : Legal (accScore w ga p t y pg s).st := by
  unfold Machine.accScore
  dsimp only
  refine .mbind (.kvReach hs) fun _ _ ht => ?_
  split
  · exact ht
  · exact .mbind (.touchLeaf (.setMem (.ite ht (.dropLine ht)))) fun _ _ hu => .addFl hu

theorem KvSrc.accSrc_pre_legal {e vb mask l a b c s} (hs : Legal s) : Legal ((accSrc e vb mask l).pre a b c s).st := by
  refine .iteOf ?_ hs
  split
  next e => exact .ok e (.srcElem hs)
  next e => exact .bad e (.srcElem hs)
  next e => exact .wait e (.srcElem hs)

theorem Legal.perfKvacc {ga vb mask row e s} (hs : Legal s) : Legal (perfKvacc ga vb mask row e s).st := by
  refine .onKey hs fun _ _ ht => .kvLoop ht (fun _ _ _ _ hu => KvSrc.accSrc_pre_legal hu) fun _ _ _ _ hu => ?_
  refine .iteOf hu (.whole hu fun _ hv => .mbind (.kvAt hv) fun _ _ hw => .mbind (.kvPage hw) fun _ _ hz => ?_)
  split
  · exact hz
  · exact .mbind (.accScore hz) fun _ _ hx => .ofOk (.addFl hx)

theorem Legal.tableEntries {w ga g n s} (hs : Legal s) : Legal (tableEntries w ga g n s).st :=
  .mbind (.tableRun hs) fun _ _ ht => ht

theorem Legal.leafTables {w ga k kind s} (hs : Legal s) : Legal (leafTables w ga k kind s).st :=
  .mbind (.kvNum hs) fun _ _ ht => .iteOf (.mbind (.tableEntries ht) fun _ _ hu => hu) ht

theorem Legal.leavesOf {w ga kind} :
    ∀ {x3 s}, Legal s → Legal (leavesOf w ga kind x3 s).st
  | [], _, hs => hs
  | (_, _) :: _, _, hs => .mbind (.tableEntries hs) fun _ _ ht => .mbind (.leavesOf ht) fun _ _ hu => hu

theorem Legal.keyLeaves {w ga k} :
    ∀ {x3 s}, Legal s → Legal (keyLeaves w ga k x3 s).st
  | [], _, hs => hs
  | _ :: _, _, hs => .mbind (.leafTables hs) fun _ _ ht => .mbind (.leavesOf ht) fun _ _ hu =>
    .mbind (.keyLeaves hu) fun _ _ hv => hv

theorem Legal.walkLeaves {w ga} :
    ∀ {x2 s}, Legal s → Legal (walkLeaves w ga x2 s).st
  | [], _, hs => hs
  | _ :: _, _, hs => .mbind (.stage2 hs) fun _ _ ht => .mbind (.walkLeaves ht) fun _ _ hu => hu

theorem Legal.freePages {w ga k} :
    ∀ {x3 s}, Legal s → Legal (freePages w ga k x3 s).st
  | [], _, hs => hs
  | _ :: _, _, hs => .mbind (.kvPut hs) fun _ _ ht => .mbind (.iteOf (.freeBlock ht) ht) fun _ _ hu =>
    .mbind (.addPages hu) fun _ _ hv => .freePages hv

theorem Legal.dropTable {w ga k ea t s} (hs : Legal s) : Legal (dropTable w ga k ea t s).st :=
  .mbind (.freeTable hs) fun _ _ ht => .mbind (.kvPut ht) fun _ _ hu => .addPages hu

theorem Legal.dropLeafTables {w ga k dir} :
    ∀ {x4 s}, Legal s → Legal (dropLeafTables w ga k dir x4 s).st
  | [], _, hs => hs
  | (_, _) :: _, _, hs => .mbind (.tableEntries hs) fun _ _ ht => .mbind (.iteOf (.dropTable ht) ht) fun _ _ hu =>
    .mbind (.dropLeafTables hu) fun _ _ hv => hv

theorem Legal.dropTables {w ga k} :
    ∀ {x3 s}, Legal s → Legal (dropTables w ga k x3 s).st
  | [], _, hs => hs
  | _ :: _, _, hs => by
    unfold Machine.dropTables
    refine .mbind (.leafTables hs) fun _ _ ht => ?_
    refine .mbind ?_ (fun _ _ hu => .dropTables hu)
    split
    · exact ht
    · exact .mbind (.dropLeafTables ht) fun _ _ hu => .iteOf (.dropTable hu) hu

theorem Legal.freeRange {w a hi s} (hs : Legal s) : Legal (freeRange w a hi s).st :=
  .mbind (.kvHead hs) fun _ _ ht => .mbind (.keyLeaves ht) fun _ _ hu =>
    .iteOf hu (.mbind (.walkLeaves hu) fun _ _ hv => .mbind (.freePages hv) fun _ _ hw => .dropTables hw)

theorem Legal.perfKvfree {ga gb e s} (hs : Legal s) : Legal (perfKvfree ga gb e s).st :=
  .onKey hs fun _ _ ht => .iteOf ht (.kvOnce (.whole ht fun _ hu => .freeRange hu))

theorem Legal.clearSlot {w ga kind p t pg s} (hs : Legal s) : Legal (clearSlot w ga kind p t pg s).st :=
  .mbind (.kvPut hs) fun _ _ ht => .mbind (.iteOf (.kvPut ht) ht) fun _ _ hu => .iteOf hu (.kvPut hu)

theorem Legal.readSlot {w ga kind p pg t s} (hs : Legal s) : Legal (readSlot w ga kind p pg t s).st :=
  .mbind (.blockBytes hs) fun _ _ ht => .mbind (.iteOf (.blockBytes ht) ht) fun _ _ hu =>
    .mbind (.iteOf hu (.blockBytes hu)) fun _ _ hv => hv

theorem Legal.writeSlot {w ga kind p pg t x s} (hs : Legal s) : Legal (writeSlot w ga kind p pg t x s).st :=
  .mbind (.kvPutN hs) fun _ _ ht => .mbind (.iteOf (.kvPut ht) ht) fun _ _ hu => .iteOf hu (.kvPut hu)

theorem Legal.takeSlot {w ga k kind blk t pg s} (hs : Legal s) : Legal (takeSlot w ga k kind blk t pg s).st := by
  unfold Machine.takeSlot
  dsimp only
  split
  next e => exact .ok e (.readSlot hs)
  next e => exact .wait e (.readSlot hs)
  next e =>
    refine .iteOf (.bad e (.readSlot hs)) ?_
    split
    next e _ _ _ e1 =>
      exact .mbind (.readSlot (.ok e1 (.whole (.bad e (.readSlot hs)) fun _ ht => .rebuild ht))) fun _ _ ht => ht
    next e _ _ e1 => exact .wait e1 (.whole (.bad e (.readSlot hs)) fun _ ht => .rebuild ht)
    next e _ _ _ e1 => exact .bad e1 (.whole (.bad e (.readSlot hs)) fun _ ht => .rebuild ht)

theorem Legal.compAlloc {w ga k l ps s} (hs : Legal s) : Legal (compAlloc w ga k l ps s).st := by
  induction l generalizing ps s with
  | nil => exact hs
  | cons x r ih =>
    unfold Machine.compAlloc
    dsimp only
    split
    · refine .mbind (.kvPage hs) fun _ _ ht => ?_
      split <;> exact ih ht
    · exact ih hs

theorem Legal.pageNow {w ga k kind blk s} (hs : Legal s) : Legal (pageNow w ga k kind blk s).st := by
  unfold Machine.pageNow
  refine .mbind (.kvTable hs) fun _ _ ht => ?_
  split
  · exact ht
  · refine .mbind (.kvTable ht) fun _ _ hu => ?_
    split
    · exact hu
    · exact .mbind (.kvNum hu) fun _ _ hv => .iteOf (.mbind (.stage2 hv) fun _ _ hw => hw) hv

theorem Legal.moveSlot {w ga k kind p j s} (hs : Legal s) : Legal (moveSlot w ga k kind p j s).st := by
  unfold Machine.moveSlot
  dsimp only
  refine .mbind (.pageNow hs) fun _ _ ht => ?_
  split
  · refine .mbind (.takeSlot ht) fun _ _ hu => ?_
    refine .mbind (.pageNow hu) fun _ _ hv => ?_
    split
    · exact .mbind (.writeSlot hv) fun _ _ hw => hw
    · exact hv
  · refine .mbind (.pageNow ht) fun _ _ hu => ?_
    split
    · exact .mbind (.clearSlot hu) fun _ _ hv => hv
    · exact hu

theorem Legal.touchPages {w ga p} :
    ∀ {x3 s}, Legal s → Legal (touchPages w ga p x3 s).st
  | [], _, hs => hs
  | _ :: _, _, hs => .mbind (.touchLeaf hs) fun _ _ ht => .touchPages ht

theorem Legal.compEnd {w ga k j s} (hs : Legal s) : Legal (compEnd w ga k j s).st :=
  .mbind (.dropTables hs) fun _ _ ht => .mbind (.keyLeaves ht) fun _ _ hu => .mbind (.walkLeaves hu) fun _ _ hv =>
    .mbind (.touchPages hv) fun _ _ hw => .kvPut hw

theorem Legal.compStep {w ga k c s} (hs : Legal s) : Legal (compStep w ga k c s).st := by
  unfold Machine.compStep
  refine .whole hs fun _ ht => ?_
  dsimp only
  refine .iteOf (.mbind (.moveSlot ht) fun _ _ hu => hu) ?_
  refine .iteOf ?_ ?_
  · refine .mbind (.pageNow ht) fun _ _ hu => ?_
    split
    · exact .mbind (.clearSlot hu) fun _ _ hv => hv
    · exact hu
  · refine .mbind (.keyLeaves ht) fun _ _ hu => ?_
    split
    · exact .mbind (.walkLeaves hu) fun _ _ hv => .mbind (.freePages hv) fun _ _ hw => hw
    · exact .mbind (.compEnd hu) fun _ _ hv => hv

theorem Legal.compStart {w ga k n mask s} (hs : Legal s) : Legal (compStart w ga k n mask s).st := by
  unfold Machine.compStart
  refine .whole hs fun _ ht => ?_
  refine .mbind (.keyLeaves ht) fun _ _ hu => ?_
  dsimp only
  split
  · exact hu
  · exact .mbind (.walkLeaves hu) fun _ _ hv => .mbind (.compAlloc hv) fun _ _ hw => hw

theorem Legal.compRun {e d w ga k} :
    ∀ {x5 x6 s}, Legal s → Legal (compRun e d w ga k x5 x6 s).st
  | 0, _, _, hs => hs
  | _ + 1, _, _, hs => by
    unfold Machine.compRun
    split
    next e => exact .stopAt (.bad e (.compStep hs))
    next e => exact .wait e (.compStep hs)
    next e =>
      have ht := Legal.ok e (.compStep hs)
      exact .iteOf ht (.compRun ht)
    next e =>
      have ht := Legal.ok e (.compStep hs)
      exact .iteOf (.setGNat ht) (.stopAt (.setGNat ht))

theorem Legal.perfKvcomp {d ga gb e s} (hs : Legal s) : Legal (perfKvcomp d ga gb e s).st := by
  unfold Machine.perfKvcomp
  refine .onKey hs fun _ _ ht => ?_
  refine .iteOf ht ?_
  dsimp only
  split
  next e => exact .stopAt (.bad e (.mbind (.kvHead ht) fun _ _ hu => .mbind (.nextPos hu) fun _ _ hv => hv))
  next e => exact .wait e (.mbind (.kvHead ht) fun _ _ hu => .mbind (.nextPos hu) fun _ _ hv => hv)
  next e =>
    refine .iteOf (.compRun (.ok e (.mbind (.kvHead ht) fun _ _ hu => .mbind (.nextPos hu) fun _ _ hv => hv))) ?_
    split
    next e _ _ _ e1 =>
      exact .stopAt (.bad e1 (.vaReadN (.ok e (.mbind (.kvHead ht) fun _ _ hu =>
        .mbind (.nextPos hu) fun _ _ hv => hv))))
    next e _ _ e1 =>
      exact .wait e1 (.vaReadN (.ok e (.mbind (.kvHead ht) fun _ _ hu => .mbind (.nextPos hu) fun _ _ hv => hv)))
    next e _ _ _ e1 =>
      split
      next e _ _ _ e1 _ _ _ e2 =>
        exact .stopAt (.bad e2 (.compStart
          (.ok e1 (.vaReadN (.ok e (.mbind (.kvHead ht) fun _ _ hu => .mbind (.nextPos hu) fun _ _ hv => hv))))))
      next e _ _ _ e1 _ _ e2 =>
        exact .wait e2 (.compStart (.ok e1
          (.vaReadN (.ok e (.mbind (.kvHead ht) fun _ _ hu => .mbind (.nextPos hu) fun _ _ hv => hv)))))
      next e _ _ _ e1 _ _ _ e2 =>
        exact .compRun (.ok e2 (.compStart
          (.ok e1 (.vaReadN (.ok e (.mbind (.kvHead ht) fun _ _ hu => .mbind (.nextPos hu) fun _ _ hv => hv))))))

theorem Legal.kvHeader {w ga s} (hs : Legal s) :
  Legal (kvHeader w ga s).st := .mbind (.hartAsk hs) fun _ _ ht => .kvNum ht

theorem Legal.seqTable {w ga h s} (hs : Legal s) : Legal (seqTable w ga h s).st :=
  .mbind (.kvNum hs) fun _ _ ht => .iteOf ht (.mbind (.kvNum ht) fun _ _ hu => hu)

theorem Legal.anyOpen {w ga} :
    ∀ {x2 s}, Legal s → Legal (anyOpen w ga x2 s).st
  | [], _, hs => hs
  | (_, _) :: _, _, hs => .mbind (.tableEntries hs) fun _ _ ht => .iteOf (.anyOpen ht) ht

theorem Legal.kvCfg {w a s} (hs : Legal s) : Legal (kvCfg w a s).st :=
  .iteOf hs (.mbind (.kvHeader hs) fun _ _ ht =>
    .mbind (.iteOf (.mbind (.tableEntries ht) fun _ _ hu => .anyOpen hu) ht) fun _ _ hu =>
    .iteOf hu (.mbind (.iteOf hu (.mbind (.kvAlloc hu) fun _ _ hv => .kvPut hv)) fun _ _ hv =>
    .mbind (.kvPut hv) fun _ _ hw => hw))

theorem Legal.kvOpen {w a s} (hs : Legal s) : Legal (kvOpen w a s).st := by
  unfold Machine.kvOpen
  refine .iteOf hs ?_
  refine .mbind (.kvHeader hs) fun _ _ ht => ?_
  refine .iteOf ht ?_
  refine .mbind (.seqTable ht) fun _ _ hu => ?_
  refine .iteOf hu ?_
  refine .mbind ?_ (fun _ _ hv => .mbind (.kvAlloc hv) fun _ _ hw => .mbind (.kvPut hw) fun _ _ hz => hz)
  split
  · exact hu
  · exact .mbind (.kvAlloc hu) fun _ _ hv => .mbind (.kvPut hv) fun _ _ hw => hw

theorem Legal.dropCodebook {w ga k kind s} (hs : Legal s) : Legal (dropCodebook w ga k kind s).st :=
  .mbind (.kvNum hs) fun _ _ ht => .iteOf (.dropTable ht) ht

theorem Legal.closeHeads {w a h lht} :
    ∀ {x4 s}, Legal s → Legal (closeHeads w a h lht x4 s).st
  | [], _, hs => hs
  | _ :: _, _, hs => .mbind (.mbind (.keyLeaves hs) fun _ _ ht => .walkLeaves ht) fun _ _ ht =>
    .mbind (.freePages ht) fun _ _ hu => .mbind (.dropTables hu) fun _ _ hv => .mbind (.dropCodebook hv) fun _ _ hw =>
    .mbind (.dropCodebook hw) fun _ _ hz => .closeHeads hz

theorem Legal.kvClose {w a s} (hs : Legal s) : Legal (kvClose w a s).st := by
  unfold Machine.kvClose
  refine .iteOf hs ?_
  refine .mbind (.kvHeader (.beginWalk hs)) fun _ _ ht => ?_
  refine .iteOf ht ?_
  refine .mbind (.seqTable ht) fun _ _ hu => ?_
  split
  · exact .mbind (.closeHeads hu) fun _ _ hv => .mbind (.freeTable hv) fun _ _ hw => .mbind (.kvPut hw) fun _ _ hz =>
      .mbind (.tableEntries hz) fun _ _ hs1 =>
      .iteOf (.mbind (.freeTable hs1) fun _ _ hs2 => .mbind (.kvPut hs2) fun _ _ hs3 => hs3) hs1
  · exact hu

theorem Legal.ctxKey {w a s} (hs : Legal s) : Legal (ctxKey w a s).st := by
  unfold Machine.ctxKey
  refine .mbind (.kvHeader hs) fun _ _ ht => ?_
  refine .iteOf ht ?_
  refine .iteOf ht ?_
  refine .mbind (.seqTable ht) fun _ _ hu => ?_
  split <;> exact hu

theorem Legal.kvCb {w a b} {src : State → MR (List Byte)} {s} (hs : Legal s)
    (hsrc : ∀ t, Legal t → Legal (src t).st) : Legal (kvCb w a b src s).st := by
  unfold Machine.kvCb
  refine .iteOf hs ?_
  refine .iteOf hs ?_
  refine .mbind (.ctxKey hs) fun _ _ ht => ?_
  split
  · exact ht
  · exact .mbind (hsrc _ ht) fun _ _ hu => .mbind (.kvNum hu) fun _ _ hv => .mbind (.kvAlloc hv) fun _ _ hw =>
      .mbind (.kvPutN hw) fun _ _ hz => .mbind (.iteOf (.freeTable hz) hz) fun _ _ hs1 =>
      .mbind (.kvPut hs1) fun _ _ hs2 => .mbind (.iteOf hs2 (.addPages hs2)) fun _ _ hs3 => hs3

theorem Legal.pinPages {w a} :
    ∀ {x2 s}, Legal s → Legal (pinPages w a x2 s).st
  | [], _, hs => hs
  | _ :: _, _, hs => .mbind (.kvPut hs) fun _ _ ht => .pinPages ht

theorem Legal.kvPin {w a s} (hs : Legal s) : Legal (kvPin w a s).st := by
  unfold Machine.kvPin
  refine .iteOf hs ?_
  refine .iteOf hs ?_
  refine .mbind (.ctxKey hs) fun _ _ ht => ?_
  split
  · exact ht
  · exact .mbind (.keyLeaves ht) fun _ _ hu => .mbind (.pinPages hu) fun _ _ hv => hv

theorem Legal.ctxOp {d ga} {f : Who → Nat → State → MR Nat} {e s} (hs : Legal s)
    (hf : ∀ a a1 t, Legal t → Legal (f a a1 t).st) : Legal (ctxOp d ga f e s).st :=
  .kvOnce (.mbind (.whole hs fun _ ht => hf _ _ _ ht) fun _ _ ht => .setGNat ht)

theorem Legal.perfKvctxCb {d ga gb e s} (hs : Legal s) : Legal (perfKvctxCb d ga gb e s).st := by
  unfold Machine.perfKvctxCb
  dsimp only
  split
  next e => exact .setGNat (.ok e (.whole hs fun _ ht => .kvCb ht fun _ hu => .vaReadN hu))
  next e => exact .stopAt (.bad e (.whole hs fun _ ht => .kvCb ht fun _ hu => .vaReadN hu))
  next e => exact .wait e (.whole hs fun _ ht => .kvCb ht fun _ hu => .vaReadN hu)

theorem Legal.editKey {f : Nat → Nat} {hdr lh s} (hs : Legal s) : Legal (editKey f hdr lh s) :=
  .foldl hs fun _ _ ht => .ite ht (.foldl ht fun _ _ hu => .ite (.foldl hu fun _ _ ht => .ite (.setMem ht) ht) hu)

theorem Legal.editLeaves {part} {f : Nat → Nat} {s} (hs : Legal s) : Legal (editLeaves part f s) :=
  .foldl hs fun _ _ ht => .ite ht (.foldl ht fun _ _ hw =>
    .ite hw (.foldl hw fun _ _ hu => .ite hu (.foldl hu fun _ _ hv => .editKey hv)))

theorem Legal.execKvBlockMigration {block tier addr s} (hs : Legal s) :
    Legal (outState (execKvBlockMigration block tier addr s) s) := by
  unfold Machine.execKvBlockMigration
  dsimp only
  split
  · exact .iteOut (.out hs) (.out (.stage2Put (.editLeaves (.rootPut hs))))
  · exact .out hs

/-! ### Root firmware -/

theorem Legal.writeTables {es rs s} (hs : Legal s) : Legal (writeTables es rs s) :=
  .foldl (.foldl hs fun _ _ ht => .accE (.rootPut ht)) fun _ _ ht => .accD (.rootPut ht)

theorem Legal.revokeTables {part s} (hs : Legal s) : Legal (revokeTables part s) :=
  (show Legal _ from .foldl (.foldl hs fun _ _ ht => .rootPut ht) fun _ _ ht => .rootPut ht)

theorem Legal.markZero {r s} (hs : Legal s) : Legal (markZero r s) := hs

theorem Legal.openQueue {part s k} (hs : Legal s) : Legal (openQueue part s k) := .writeBack (.modQueue hs)

theorem Legal.addChunks {p s} (hs : Legal s) : Legal (addChunks p s) := hs

theorem Legal.clearHeader {s c} (hs : Legal s) : Legal (clearHeader s c) := .ite (.rootPut hs) hs

theorem Legal.clearRecords {recbase s} (hs : Legal s) : Legal (clearRecords recbase s) := by
  unfold Machine.clearRecords
  split
  · exact .foldl hs fun _ _ ht => .rootPut ht
  · exact hs

theorem Legal.createPartition {p s} (hs : Legal s) : Legal (createPartition p s) :=
  .foldl (.setPart (.foldl (.foldl (.clearRecords
    (.addChunks ((show Legal _ from .zeroMem (.markZero (.writeTables hs)))))) fun _ _ ht =>
    .clearHeader ht) fun _ _ ht => .rootPut ht)) fun _ _ ht => .openQueue ht

theorem Legal.stopJob {job s} (hs : Legal s) : Legal (stopJob job s) := .ite hs (.foldl hs fun _ _ ht => .killHart ht)

theorem Legal.rootFree {s b} (hs : Legal s) : Legal (rootFree s b) := .countFreed (.stage2Put hs)

theorem Legal.dismantle {part s} (hs : Legal s) : Legal (dismantle part s) := by
  unfold Machine.dismantle
  extract_lets t u v w full
  have hu : Legal u := .foldl (.revokeTables (.emitUsage hs)) fun _ _ ht => .rootFree ht
  clear_value u
  have hw : Legal w := .markZero hu
  exact .modPart hw

theorem Legal.teardown {part s} (hs : Legal s) : Legal (teardown part s) :=
  .ite (.modPart (.foldl hs fun _ _ ht => .settleHart ht))
    (.ite (.dismantle (.foldl (.foldl hs fun _ _ ht => .settleHart ht) fun _ _ ht => .finishJob (.stopJob ht)))
    (.modPart (.foldl (.foldl hs fun _ _ ht => .settleHart ht) fun _ _ ht => .finishJob (.stopJob ht))))

theorem Legal.setWtr :
    ∀ {x0 x1 s}, Legal s → Legal (setWtr x0 x1 s)
  | 0, _, _, hs => hs
  | _ + 1, _, _, hs => .foldl hs fun _ _ ht => .ite ht (.ite (.ite (.rawWrite ht) ht) (.ite ht (.setWtr ht)))

theorem Legal.copyRange {dest a n s} (hs : Legal s) : Legal (copyRange dest a n s) :=
  .foldl (.zeroMem hs) fun _ _ ht => .setMem ht

theorem Legal.copyPage {dest s p} (hs : Legal s) : Legal (copyPage dest s p) := .copyRange (.settleZero hs)

theorem Legal.passZero {part s} (hs : Legal s) : Legal (passZero part s) :=
  .ite hs (.modMigr (.foldl hs fun _ _ ht => .copyPage ht))

theorem Legal.copyRest {part s} (hs : Legal s) : Legal (copyRest part s) :=
  .foldl (.foldl hs fun _ _ ht => .copyPage ht) fun _ _ ht => .copyRange (.copyRange ht)

theorem Legal.leavePackage {part s} (hs : Legal s) : Legal (leavePackage part s) := by
  unfold Machine.leavePackage
  extract_lets t u v
  have hu : Legal u := .revokeTables (.copyRest (.editLeaves (.foldl hs fun _ _ ht => .after (.foldShadows ht) ht)))
  clear_value u
  exact .modPart hu

theorem Legal.stopPhase {part s} (hs : Legal s) : Legal (stopPhase part s) :=
  .ite (.modMigr (.foldl hs fun _ _ ht => .ite ht (.switchOff ht)))
    (.leavePackage (.foldl hs fun _ _ ht => .ite ht (.switchOff ht)))

theorem Legal.rootTurn {s} (hs : Legal s) : Legal (rootTurn s) :=
  .foldl (.foldl hs fun _ _ ht => .ite (.stopPhase ht) (.passZero ht)) fun _ _ ht => .teardown ht

/-- A start of the device leaves the state after reset: an empty memory, no hart, no record and no frame. -/
theorem Legal.execBoot {b s} : Legal (outState (execBoot b s) s) :=
  legal_iff.mpr ⟨rfl, by simp [Machine.execBoot, outState, State.reset],
    by simp [Machine.execBoot, outState, State.reset],
    by simp [Machine.execBoot, outState, State.reset]⟩

/-! ### Scalar floating point -/

theorem Legal.fpDone {d r s} (hs : Legal s) : Legal (outState (fpDone d r s) s) := .out (.retire (.addFl (.setGNat hs)))

/-! ### Statistics and the recurrence -/

theorem Legal.perfSrread {vd gb e s} (hs : Legal s) : Legal (perfSrread vd gb e s).st := by
  unfold Machine.perfSrread
  refine .iteOf (.noRecord hs) (.withRecord hs fun _ ht => .ofDone (.foldl ht fun _ _ hu => .setVElem hu))

theorem Legal.resetRecord {by' part i ctl s} (hs : Legal s) : Legal (resetRecord by' part i ctl s) :=
  .foldl (.recWrite (.recWrite (.recWrite (.recWrite (.recWrite hs))))) fun _ _ ht => ht

theorem Legal.perfSrreset {gb ga e s} (hs : Legal s) : Legal (perfSrreset gb ga e s).st := by
  unfold Machine.perfSrreset
  dsimp only
  split
  next e => exact .resetRecord (.ok e (.recAllowed hs))
  next e => exact .stopAt (.bad e (.recAllowed hs))
  next e => exact .wait e (.recAllowed hs)

theorem Legal.setCarry {k c s} (hs : Legal s) : Legal (setCarry k c s) := .modMe hs fun _ => id

theorem Legal.lconvCoefs {e fmt rnd sat vb k kept s} (hs : Legal s) : Legal (lconvCoefs e fmt rnd sat vb k kept s).st :=
  .iteOf hs (.mbind (.srcElem hs) fun _ _ ht => .mbind (.srcElem ht) fun _ _ hu =>
    .mbind (.srcElem hu) fun _ _ hv => hv)

/-! ### The agents -/

theorem Legal.perfQueued {i e s} (hs : Legal s) : Legal (perfQueued i e s).st := by
  have hb : Legal (Machine.perfBody i e s).st := .perfBody hs
  cases i with
  | mpopc | mfirst => exact .toG hs
  | mpopcQ | mfirstQ => exact .toQ hs
  | vget => exact .perfVget hs
  | vgetQ => exact .perfVgetQ hs
  | vput => exact .iteOf hs (.setVElem hs)
  | vred => exact .perfVred hs
  | vredQ => exact .perfVredQ hs
  | vwait => exact .perfVwait hs
  | vbind => exact .perfVbind hs
  | vunbind => exact .endBinding hs
  | lrun => exact .perfLrun hs
  | mattach => exact .iteOf (.setGNat hs) (.iteOf hs (.setGNat (.divideRows hs)))
  | mdetach => exact .detach hs
  | mtile => exact .iteOf (.mStop hs) (.modMe hs fun _ hx => ⟨hx.1, hx.2⟩)
  | mtileOff | mpredRows | mpredCols | mpredK | mpredRowm | mpredColm | mpredAll | lcstateZero =>
    exact .modMe hs fun _ hx => ⟨hx.1, hx.2⟩
  | mclr => exact .iteOf (.modMe hs fun _ hx => ⟨hx.1, hx.2⟩) (.mStop hs)
  | mksum => exact .perfMksum hs
  | mlineRrow | mlineRcol | mdrain => exact .lineRead hs
  | mlineWrow | mlineWcol => exact .lineWrite hs
  | mlineSt | mdrainSt => exact .tileStore hs
  | mlineLd =>
    exact .iteOf (.lineOff hs) (.entered
      (.tileLoop (fun _ _ _ ht => .mbind (.vaReadN ht) fun _ _ hu =>
        .ofOk (.addFl (.modMe hu fun _ hx => .setAccWord hx))) hs))
  | mgroup => exact .perfMgroup hs
  | kvctxCfg => exact .ctxOp hs fun _ _ _ ht => .kvCfg ht
  | kvctxOpen => exact .ctxOp hs fun _ _ _ ht => .kvOpen ht
  | kvctxClose => exact .onKey hs fun _ _ ht => .ctxOp ht fun _ _ _ hu => .kvClose hu
  | kvctxCb => exact .perfKvctxCb hs
  | kvctxPin => exact .ctxOp hs fun _ _ _ ht => .kvPin ht
  | kvapp => exact .perfKvapp hs
  | kvld => exact .perfKvld hs
  | kvscore => exact .perfKvscore hs
  | kvvqsLut => exact .perfKvvqsLut hs
  | kvvqsQ => exact .perfKvvqsQ hs
  | kvacc => exact .perfKvacc hs
  | kvcomp => exact .perfKvcomp hs
  | kvfree => exact .perfKvfree hs
  | srread => exact .perfSrread hs
  | srreset => exact .perfSrreset hs
  | srbind => exact .toG (.ite hs (.modCore hs))
  | lconv =>
    exact .keepLoop hs (fun _ _ _ _ ht => .mbind (.lconvCoefs ht) fun _ _ hu => .mbind (.srcElem hu) fun _ _ hv =>
      .addFl (.setVElem (.setCarry hv))) fun _ _ ht => .consume ht
  | lcstateGet => exact .foldl hs fun _ _ ht => .addFl (.setVElem (.setVElem ht))
  | lcstatePut => exact .readThen hs fun _ _ ht => .foldl ht fun _ _ hu => .addFl (.setCarry hu)
  | rpush => exact .perfRpush hs
  | rpull => exact .perfRpull hs
  | reos | rstatReset => exact .iteOf (.gStop hs) (.srfWrite hs)
  | rstat => exact .iteOf (.gStop hs) (.toG hs)
  | _ => exact hb

theorem Legal.rowsOver {x0} (hs : Legal x0.st) : Legal (rowsOver x0).st := by
  unfold Machine.rowsOver
  split <;> exact hs

theorem Legal.reattach {s} (hs : Legal s) : Legal (reattach s) :=
  .ite (.modMe hs fun _ => id) (.ite hs (.divideRows (.modMe hs fun _ => id)))

theorem Legal.stepV {s} (hs : Legal s) : Legal (stepV s) := by
  unfold Machine.stepV
  dsimp only
  split
  · exact .ite (.reattach hs) hs
  · exact .ite (.ite (.ite (.reattach hs) hs) (.stepConvoy (.ite (.reattach hs) hs) fun _ _ _ ht => .perfQueued ht))
      (.afterV (.rowsOver (.perfQueued (.ite (.reattach hs) hs))))

theorem Legal.stepM {s} (hs : Legal s) : Legal (stepM s) := by
  have ht : Legal (if (Machine.me s).reattach then Machine.reattach s else s) := .ite (.reattach hs) hs
  unfold Machine.stepM
  dsimp only
  split
  · exact ht
  · exact .ite ht (.afterM (.perfQueued ht))

theorem Legal.stepQueues {s} (hs : Legal s) : Legal (stepQueues s) := by
  unfold Machine.stepQueues
  dsimp only
  split
  · exact hs
  · exact .stepV hs
  · exact .stepM hs
  · exact .ite (.ite (.stepM (.stepV hs)) (.stepV hs)) (.ite (.stepV (.stepM hs)) (.stepM hs))

theorem Legal.countStallV {before s} (hs : Legal s) : Legal (countStallV before s) := by
  unfold Machine.countStallV
  dsimp only
  split
  · exact .ite hs (.modMe hs fun _ => id)
  · exact .ite (.modMe hs fun _ => id) (.ite (.setPend (.modMe hs fun _ => id)) (.modMe hs fun _ => id))

theorem Legal.countStallM {before s} (hs : Legal s) : Legal (countStallM before s) := by
  unfold Machine.countStallM
  dsimp only
  split
  · exact .ite hs (.modMe hs fun _ => id)
  · exact .ite (.modMe hs fun _ => id) (.ite (.setPend (.modMe hs fun _ => id)) (.modMe hs fun _ => id))

theorem Legal.countLanes {bound heads core s} (hs : Legal s) : Legal (countLanes bound heads core s) := by
  unfold Machine.countLanes
  split
  · exact hs
  · exact .foldl hs fun _ _ ht => .ite (.modHart ht fun _ => id)
      (.ite (.modHart ht fun _ => id) (.ite ht (.modHart ht fun _ => id)))

theorem Legal.stepMatrix {s} (hs : Legal s) : Legal (stepMatrix s) := by
  unfold Machine.stepMatrix
  dsimp only
  split
  · exact hs
  · exact .stepM hs
  · exact .ite (.stepM hs) hs

theorem Legal.boundStep {s} (hs : Legal s) : Legal (boundStep s) := by
  unfold Machine.boundStep
  dsimp only
  refine .ite (.stepMatrix (.modMe hs fun _ => id)) ?_
  split
  · exact .ite (.stepQueues hs) (.modMe (.stepQueues hs) fun _ => id)
  · exact .stepQueues hs

theorem Legal.laneStep {bound h s} (hs : Legal s) : Legal (laneStep bound h s) :=
  .ite (.asHart hs fun _ ht => .countStallM (.countStallV (.ite (.boundStep ht) (.stepMatrix ht)))) hs

theorem Legal.execRowStepBoundary {core s} (hs : Legal s) : Legal (outState (execRowStepBoundary core s) s) :=
  .out (.regrantRows (.foldl (.countLanes hs) fun _ _ ht => .laneStep ht))

theorem Legal.engineStep {core s} (hs : Legal s) : Legal (engineStep core s) :=
  .ite (.execCopyCommandComplete hs) (.ite (.execCopyCommandStop hs) (.execCopyCommandRun hs))

theorem Legal.packetStep {p q s} (hs : Legal s) : Legal (packetStep p q s) := by
  unfold Machine.packetStep
  dsimp only
  split
  · exact .execLaunch hs
  · exact .execCopy hs
  · exact .execSignal hs
  · exact .execWait hs
  · exact .execWriteSignal hs
  · exact .execBarrier hs
  · exact .execMeasure hs
  · exact .execReceipt hs

theorem Legal.completeJobs {s} (hs : Legal s) : Legal (completeJobs s) := .foldl hs fun _ _ ht => .execJobCompletion ht

theorem Legal.queueTurn {s k} (hs : Legal s) : Legal (queueTurn s k) := .ite (.packetStep hs) hs

theorem Legal.waitTurn {s k} (hs : Legal s) : Legal (waitTurn s k) := .ite (.execWaitSatisfied hs) hs

theorem Legal.scheduleTurn {s p} (hs : Legal s) : Legal (scheduleTurn s p) := .execStrideSchedule hs

theorem Legal.dueTurn {s} (hs : Legal s) : Legal (dueTurn s) := .foldl hs fun _ _ ht => .switchOff ht

theorem Legal.settleTurn {s} (hs : Legal s) : Legal (settleTurn s) :=
  .foldl (.foldl hs fun _ _ ht => .passRequest ht) fun _ _ ht => .settleQueue ht

theorem Legal.sloiskStep {s} (hs : Legal s) : Legal (sloiskStep s) :=
  .foldl (.foldl (.foldl (.rootTurn (.dueTurn (.showEnds (.completeJobs (.settleTurn hs))))) fun _ _ ht =>
    .queueTurn ht) fun _ _ ht => .waitTurn ht) fun _ _ ht => .scheduleTurn ht

theorem Legal.leaveConvoy {c s} (hs : Legal s) : Legal (leaveConvoy c s) := by
  unfold Machine.leaveConvoy
  split
  · exact .ite (.modMe hs fun _ => id) hs
  · exact hs

theorem Legal.gateCode {c s} (hs : Legal s) : Legal (gateCode c s).st := by
  unfold Machine.gateCode
  split
  · split
    · exact .ofMoved (.ite (.abandonCapture hs) (.illegal hs))
    · exact .ofMoved (.ite (.abandonCapture hs) (.illegalLong hs))
  · exact .iteOf (.ofMoved (.abandonCapture hs)) (.iteOf hs (.leaveConvoy hs))

theorem Legal.settleStores {s} (hs : Legal s) : Legal (settleStores s) := .ite hs (.drainStores hs)

theorem Legal.gate {s} (hs : Legal s) : Legal (gate s).st := by
  unfold Machine.gate
  dsimp only
  refine .iteOf (.settleStores hs) ?_
  split
  · exact .debugStop (.settleStores hs)
  · refine .iteOf (.wake (.settleStores hs)) ?_
    split
    · exact .enterTrap (.settleStores hs)
    · refine .iteOf (.deliver (.settleStores hs)) ?_
      refine .iteOf (.debugStop (.settleStores hs)) ?_
      refine .iteOf (.settleStores hs) ?_
      split
      · exact .preciseAt (.settleStores hs)
      · refine .iteOf (.preciseTrap (.settleStores hs)) ?_
        split
        next e3 => exact .gateCode (.ok e3 (.fetchCode (.settleStores hs)))
        next e3 => exact .preciseTrap (.bad e3 (.fetchCode (.settleStores hs)))
        next e3 => exact .wait e3 (.fetchCode (.settleStores hs))

theorem Legal.afterPerformed {i old s} (hs : Legal s) : Legal (afterPerformed i old s) := by
  unfold Machine.afterPerformed
  dsimp only
  refine .ite ?_ ?_
  · refine .ite ?_ ?_
    · refine .modMe ?_ fun _ => id
      split
      · exact .dropAnswers hs
      · exact .modMe (.dropAnswers hs) fun _ => id
    · split
      · exact .dropAnswers hs
      · exact .modMe (.dropAnswers hs) fun _ => id
  · refine .ite ?_ ?_
    · refine .debugStop ?_
      split
      · exact .dropAnswers hs
      · exact .modMe (.dropAnswers hs) fun _ => id
    · split
      · exact .dropAnswers hs
      · exact .modMe (.dropAnswers hs) fun _ => id

theorem Legal.countTurn {s} (hs : Legal s) : Legal (countTurn s) :=
  .ite (.ite (.modMe hs fun _ => id) hs)
    (.ite (.execQueuehang (.ite (.modMe hs fun _ => id) hs)) (.modMe (.ite (.modMe hs fun _ => id) hs) fun _ => id))

theorem Legal.afterParcel {i before s} (ht : Legal s) : Legal (afterParcel i before s) :=
  .countTurn (.ite (.afterPerformed ht) ht)

theorem Legal.applyRegWrite {a v s} (hs : Legal s) : Legal (applyRegWrite a v s) :=
  .ite (.execRegisterWrite hs) (.ite (.ite (.execDoorbell hs) hs)
    (.ite (.execActinv hs) (.ite (.execRegisterWrite hs) hs)))

theorem Legal.endTurn {s} (hs : Legal s) : Legal (endTurn s) := by
  unfold Machine.endTurn
  split <;> exact hs

/-! ### Every instruction and event -/

theorem Legal.exec {i s} (hs : Legal s) : Legal (outState (exec i s) s) := by
  have hq (e t) (ht : Legal t) : Legal (Machine.perfQueued i e t).st := .perfQueued ht
  cases i with
  | add | sub | and | or | xor | shl | shr | sar | mul | mulh | div | rem | min | max | slt | clz | ctz | popc | ext
  =>
    exact .out (.retire (.addFl (.setG hs)))
  | addi | andi | ori | xori | shli | shri | sari | slti => exact .out (.retire (.addFl (.setGNat hs)))
  | lih => exact .out (.retire (.setG hs))
  | fadd | fsub | fmul | fdiv | fsqrt | fma | fmin | fmax | fcmp | fcvt => exact .fpDone hs
  | qput => exact .iteOut (.out (.stallOn hs)) (.out (.retire (.appendQueue hs)))
  | qget => exact .execQget hs
  | qstat => exact .out (.retire (.setGNat hs))
  | gbar => exact .iteOut (.out (.tryGang hs)) (.out (.sync hs fun _ ht => .tryGang (.modMe ht fun _ => id)))
  | gbarAllArrived => exact .out (.tryGang hs)
  | ldB | ldH | ldW | ldD | ldBu | ldHu | ldWu => exact .loadOp hs
  | stB | stH | stW | stD => exact .storeOp hs
  | amoSwap | amoAdd | amoAnd | amoOr | amoXor | amoMin | amoMax | cas => exact .atomicOp hs
  | beq | bne | blt | bge | bltu | bgeu => exact .branchOp hs
  | bany | ball | bnone => exact .out (.sync hs fun _ ht => .ite (.goto ht) (.retire ht))
  | jmp => exact .out (.goto hs)
  | call => exact .out (.goto (.setG hs))
  | jr => exact .out (.jumpTo hs)
  | fence => exact .out (.sync hs fun _ ht => .retire (.clampScope (.modMe ht fun _ => id)))
  | sbar => exact .out (.sync hs fun _ ht => .retire ht)
  | csrr => exact .out (.csrAccess hs fun _ ht => .retire (.setG ht))
  | csrw => exact .out (.csrAccess hs fun _ ht => .retire (.modMe ht fun _ hx => .csrPut hx))
  | csrs | csrc => exact .out (.csrAccess hs fun _ ht => .retire (.setG (.ite ht (.modMe ht fun _ hx => .csrPut hx))))
  | trap | brk => exact .out (.sync hs fun _ ht => .preciseAt ht)
  | eret => exact .out (.ite (.privTrap hs) (.sync hs fun _ ht => .returnFromTrap ht))
  | wfe => exact .out (.modMe (.retire hs) fun _ => id)
  | wfeTimeout => exact .out (.wake hs)
  | halt =>
    exact .out (.ite (.illegal hs) (.sync hs fun _ ht =>
      .modMe (.endWork (.ite ht (.modMe (.discardCmds ht) fun _ => id))) fun _ => id))
  | convoyHeader =>
    exact .out (.scalarDo (.convoyFits hs) fun _ _ ht => .ite (.retire (.modMe ht fun _ => id)) (.illegal ht))
  | nop32 => exact .out (.retire hs)
  | impreciseTrapDelivery => exact .out (.deliver hs)
  | queuehang => exact .execQueuehang hs
  | vsetl => exact .out (.scalarLong hs fun t ht => .retire (.setGNat (.modMe ht fun _ hx => ⟨grantOf_le t _, hx.2⟩)))
  | vsetr => exact .execVsetr hs
  | lanes =>
    exact .out (.scalarLong hs fun _ ht => .sync ht fun _ hu =>
      .retire (.setGNat (.regrant (.ite hu (.modMe hu fun _ => id)))))
  | forkl => exact .execForkl hs
  | joinl =>
    exact .out (.scalarLong hs fun _ ht => .sync ht fun _ hu =>
      .ite (.ite (.retire (.regrant (.modMe (.modHart hu fun _ => id) fun _ => id))) hu)
        (.retire (.modMe hu fun _ => id)))
  | msetAll | msetNone | msetLt | msetNz | mlogic | mpopc | mpopcQ | mfirst | mfirstQ | vcmp | vget | vgetQ | vput |
  vmov | vsplat | vsplatImm | vsplatQ | viota | vsel | vadd | vsub | vmul | vfma | vdiv | vmin | vmax | vabs | vneg |
  vand | vor | vxor | vshl | vshr | vsfu | vcvt | vhad | vqnt | vqntSc | vdqnt | vlut | vred | vredRow | vredQ | vscan
  | vslideUp | vslideDn | vperm | vcomp | vtopkIdx | vtopkKey | vtopkMask | vld | vst | vldx | vstxOrd | vstxAny |
  vamo | vwait | vbind | vunbind | kvctxCfg | kvctxOpen | kvctxClose | kvctxCb | kvctxPin | kvapp | kvld | kvscore |
  kvvqsLut | kvvqsQ | kvacc | kvcomp | kvfree | srread | srreset | srbind | lconv | lcstateGet | lcstatePut |
  lcstateZero | rpush | rpull | reos | rstat | rstatReset =>
    exact .out (.issueV hs hq)
  | vwaitPoll => exact .execVwaitPoll hs
  | lcap | lnest => exact .out (.issueMark hs fun _ ht => .modMe ht fun _ => id)
  | lrun =>
    exact .out (.ite (.abandonCapture hs)
      (.ite (.illegalLong hs) (.ite hs (.ite (.afterV (.perfLrun (.retire (.nextInConvoy hs))))
      (.modMe (.retire (.nextInConvoy hs)) fun _ => id)))))
  | lwait => exact .out (.scalarLong hs fun _ ht => .sync ht fun _ hu => .retire hu)
  | mattach | mdetach | mtile | mtileOff | mclr | mpredRows | mpredCols | mpredK | mpredRowm | mpredColm | mpredAll |
  mksum | mlineRrow | mlineRcol | mlineWrow | mlineWcol | mlineSt | mlineLd | mdrainSt | mgroup =>
    exact .out (.issueM hs hq)
  | matrixRedivide => exact .out (.ite (.foldl hs fun _ _ ht => .modHart ht fun _ => id) hs)
  | mdrain => exact .out (.ite (.issueV hs hq) (.issueM hs hq))
  | kvBlockMigration => exact .execKvBlockMigration hs
  | cpy | cpyFill | cpyHash | cpyRing => exact .out (.issueCpy hs)
  | copyCommandRun => exact .execCopyCommandRun hs
  | copyCommandComplete => exact .execCopyCommandComplete hs
  | copyCommandStop => exact .execCopyCommandStop hs
  | twait | twaitAny | tfirst =>
    exact .out (.tagOp hs fun _ _ ht => .tagSync ht fun _ hu => .ite (.retire (.setGNat hu)) hu)
  | tfirstNw => exact .out (.tagOp hs fun _ _ ht => .tagSync ht fun _ hu => .retire (.setGNat hu))
  | tclr => exact .out (.tagOp hs fun _ _ ht => .retire (.setG (.modCore ht)))
  | revch => exact .execRevch hs
  | revret => exact .execRevret hs
  | revst => exact .execRevst hs
  | revabt => exact .execRevabt hs
  | ldi => exact .out (.scalarLong hs fun _ ht => .retire (.setG ht))
  | addil => exact .out (.scalarLong hs fun _ ht => .retire (.addFl (.setGNat ht)))
  | callf | callfR => exact .out (.scalarLong hs fun _ ht => .jumpTo ht)
  | savev =>
    exact .out (.scalarLong hs fun _ ht =>
      .ite (.preciseTrap ht) (.sync ht fun _ hu => .scalarDo (.writeFrame hu .saveRecord) fun _ _ hv => .retire hv))
  | restv =>
    exact .out <| .scalarLong hs fun _ ht => .ite (.preciseTrap ht) <| .ite ht <|
      .withFrame ht (fun _ _ hr hu => .ite hu (.restore hu hr)) fun _ hu => .illegalLong hu
  | stepb =>
    exact .out (.scalarLong hs fun _ ht => .sync ht fun _ hu => .scalarDo (.foldShadows hu) fun _ _ hv =>
      .retire hv)
  | markres =>
    exact .out (.scalarLong hs fun _ ht =>
      .ite (.illegalLong ht) (.sync ht fun _ hu => .scalarDo (.translateAll hu) fun _ _ hv => .markBuffer hv))
  | tlbinv | tlbinvMove | tlbinvWait => exact .tlbinvOp hs fun _ ht => .tlbinvRange ht
  | tlbinvAll => exact .tlbinvOp hs fun _ ht => .ite (.dropRange ht) (.retire (.setG (.dropRange ht)))
  | pinWaitPreempt => exact .execPinWaitPreempt hs
  | targetRequest => exact .out (.ite (.takeRequest hs) hs)
  | hostRequest => exact .execHostRequest hs
  | peerRequest => exact .out (.ite (.takeRequest (.addMeter (.useTag hs))) hs)
  | leeCacheFill => exact .execLeeCacheFill hs
  | directoryRecall => exact .out (.recallLines hs)
  | actinv => exact .execActinv hs
  | actinvDone | powerCapChange | hdmDecoderProgram | bootReadyTimeout | failedStartClear | firmwareImageLoad =>
    exact .out (.ite hs hs)
  | linkReplay => exact .execLinkReplay hs
  | linkReset => exact .out (.ite (.modLink hs) hs)
  | linkRetrain =>
    exact .iteOut (.out hs) (.out (.foldl (.foldl (.modLink hs) fun _ _ ht => .sendAgain ht) fun _ _ ht =>
      .loseRequest ht))
  | linklost => exact .iteOut (.out hs) (.out (.foldl (.modLink hs) fun _ _ ht => .loseRequest ht))
  | preempt => exact .out (.switchOff hs)
  | resumeGang => exact .out (.ite (.writeBack (.resumeJob hs)) hs)
  | haltreq => exact .out (.haltHart hs)
  | resume => exact .out (.debugResume hs)
  | registerWrite => exact .execRegisterWrite hs
  | doorbell => exact .execDoorbell hs
  | launch => exact .execLaunch hs
  | copy => exact .execCopy hs
  | signal => exact .execSignal hs
  | wait => exact .execWait hs
  | waitSatisfied => exact .execWaitSatisfied hs
  | writeSignal => exact .execWriteSignal hs
  | barrier => exact .execBarrier hs
  | measure => exact .execMeasure hs
  | receipt => exact .execReceipt hs
  | jobCompletion => exact .execJobCompletion hs
  | strideSchedule => exact .execStrideSchedule hs
  | timeSliceEnd =>
    exact .iteOut (.out hs) (.out (.writeBack
      (.ite (.chargeUnits hs) (.ite (.modJob (.chargeUnits hs)) (.preemptJob (.chargeUnits hs))))))
  | packetDeferTimeout => exact .out (.ite (.writeBack (.takeDueSlices (.modQueue hs))) hs)
  | usagePeriodEnd => exact .out (.ite (.emitUsage hs) (.ite hs (.drainUsage hs)))
  | partitionCreate => exact .out (.ite (.createPartition hs) hs)
  | partitionTeardown => exact .out (.ite (.teardown hs) hs)
  | queueReopen => exact .out (.ite (.writeBack (.modQueue hs)) hs)
  | migrationStart => exact .out (.ite hs (.passZero (.modMigr (.foldl (.dropHeld hs) fun _ _ ht => .setWtr ht))))
  | generationSwitch => exact .out (.ite hs (.foldl (.modMigr hs) fun _ _ ht => .copyPage ht))
  | migrationStopPhase => exact .out (.ite (.stopPhase hs) hs)
  | boot => exact .execBoot
  | rowStepBoundary => exact .execRowStepBoundary hs
  | kvBlockMoveDone => exact .iteOut (.out (.stage2Put hs)) (.out hs)

/-! ### The step -/

theorem Legal.tick {s} (hs : Legal s) : Legal (tick s) := hs

theorem Legal.hartTurn {s} (hs : Legal s) : Legal (outState (hartTurn s) s) := by
  unfold Machine.hartTurn
  split
  next e => exact .out (.countTurn (.moved e (.gate hs)))
  next e =>
    split
    next e _ _ e1 => exact .out (.afterParcel (.next e1 (.exec (.run e (.gate hs)))))
    next e _ _ _ => exact hs
    next e _ _ _ => exact hs

theorem Legal.agentTurn {s} (hs : Legal s) : Legal (outState (agentTurn s) s) := by
  unfold Machine.agentTurn
  split
  · exact .iteOut (.outFrom hs (.hartTurn (.keep hs rfl))) hs
  · exact .out (.engineStep hs)
  · exact .execRowStepBoundary hs
  · exact .out (.sloiskStep hs)

/-- Every step, of whatever agent or event, leaves a legal state. -/
theorem Legal.step {s} (hs : Legal s) : Legal (outState (step s) s) := by
  unfold Machine.step
  split
  · split
    next e => exact .out (.tick (.next e (.exec (.keep hs rfl))))
    · exact hs
    · exact hs
  · split
    · exact .out (.tick (.applyRegWrite (.keep hs rfl)))
    · split
      next e => exact .out (.tick (.endTurn (.next e (.agentTurn hs))))
      · exact hs
      · exact hs

end Sys2Proof.Machine

namespace Sys2Proof.Machine

/-- Settles O60: by `Legal.step`, which holds of every step whatever its outcome. -/
theorem stepKeepsInvariants : Obligations.StepKeepsInvariants := by
  unfold Obligations.StepKeepsInvariants
  intro s t hm hl hst
  exact Legal.next hst (.step ⟨hm, hl⟩)

end Sys2Proof.Machine

/-! Family 08, execution model: CSR accesses (O13). -/

namespace Sys2Proof.Machine

/-! ## What an access may do (R232, R341) -/

theorem csrAccess_of_unlisted {n : Nat} (h : csrListed n = false) (w r : Bool) (k : State → State) (s : State) :
    csrAccess n w r k s = illegal 1 s := by simp [csrAccess, h]

theorem csrAccess_of_no_right {n : Nat} {s : State} (h : csrListed n = true) (hr : csrRight n (me s).handler = 0) (w r : Bool)
    (k : State → State) : csrAccess n w r k s = privTrap s := by simp [csrAccess, h, hr]

theorem csrAccess_of_read_only {n : Nat} {s : State} (h : csrListed n = true) (hr : csrRight n (me s).handler = 1) (r : Bool)
    (k : State → State) : csrAccess n true r k s = illegal 1 s := by simp [csrAccess, h, hr]

/-- With nothing in flight an access that has its right takes effect at once. -/
theorem csrAccess_of_quiet {n : Nat} {s : State} (hq : Quiet s) (h : csrListed n = true) (hr : csrRight n (me s).handler ≠ 0)
    {w : Bool} (hw : w = true → csrRight n (me s).handler = 2) (r : Bool) (k : State → State) :
    csrAccess n w r k s = k s := by
  have ro : (w && csrRight n (me s).handler == 1) = false := by cases w <;> simp_all
  simp [csrAccess, h, hr, ro, sync_of_quiet hq]

/-- The handler's CSRs are listed, and user privilege has no right to them (R232). -/
theorem handler_csr {n : Nat} (h : 0x050 ≤ n ∧ n ≤ 0x057) : csrListed n = true ∧ csrRight n false = 0 := by
  obtain ⟨lo, hi⟩ := h
  interval_cases n <;> decide

theorem csrRight_eq_one {n : Nat} (h40 : n ≠ 0x040) (h55 : n ≠ 0x055) (h56 : n ≠ 0x056)
    (h : n < 0x050 ∨ 0x058 ≤ n) (h71 : n ≠ 0x071)
    (handler : Bool) : csrRight n handler = 1 := by
  have hr : ¬ (0x050 ≤ n ∧ n ≤ 0x057) := by omega
  simp [csrRight, h40, h55, h56, hr, h71]

/-! ## What a write leaves -/

theorem csrPut_r (n : Nat) (v : Word) (x : Hart) : (csrPut n v x).r = x.r := by unfold csrPut; split <;> rfl
theorem csrPut_pc (n : Nat) (v : Word) (x : Hart) : (csrPut n v x).pc = x.pc := by unfold csrPut; split <;> rfl

/-- Clearing the low `k` bits by a division is clearing them by two shifts. -/
theorem ofNat_div_mul_eq_shift (v : Word) (k : Nat) : BitVec.ofNat 64 (v.toNat / 2 ^ k * 2 ^ k) = (v >>> k) <<< k := by
  apply BitVec.eq_of_toNat_eq
  simp [BitVec.toNat_shiftLeft, BitVec.toNat_ushiftRight, Nat.shiftLeft_eq, Nat.shiftRight_eq_div_pow]

/-- The bits that a write keeps (R341), in a hart after it. -/
def CsrWritten (n : Nat) (v : Word) (x : Hart) : Prop :=
  (n = 0x040 → x.fflags = v.setWidth 7) ∧ (n = 0x056 → x.t.vec = (v >>> 2) <<< 2) ∧
  (n = 0x055 → x.t.frame = (v >>> 6) <<< 6)

theorem csrPut_written (n : Nat) (v : Word) (x : Hart) : CsrWritten n v (csrPut n v x) := by
  refine ⟨?_, ?_, ?_⟩ <;> rintro rfl
  · rfl
  · exact ofNat_div_mul_eq_shift v 2
  · exact ofNat_div_mul_eq_shift v 6

/-- The destination of a write of a g register reads the value, g0 zero (R198). -/
theorem gGet_setG_same (d : Reg) (v : Word) (s : State) : gGet d (setG d v s) = if d = 0 then 0 else v := by
  rw [gGet_setG]
  by_cases h : d = 0
  · subst h
    rfl
  · rw [if_pos ⟨rfl, h⟩, if_neg h]

theorem me_setG_csrPut (n : Nat) (d : Reg) (old v : Word) (s : State) :
    ∃ r, me (setG d old (modMe (csrPut n v) s)) = { csrPut n v (me s) with r := r } := by
  unfold setG
  split
  · exact ⟨(csrPut n v (me s)).r, me_modMe _ _⟩
  · exact ⟨_, by rw [me_modMe, me_modMe]⟩

theorem mem_setG (d : Reg) (v : Word) (s : State) : (setG d v s).mem = s.mem := by unfold setG; split <;> rfl

/-- A CSR written and the old value returned: the state after CSRS and CSRC, and with `d` 0 after CSRW. -/
theorem csr_written (n : Nat) (d : Reg) (old v : Word) (s : State) :
    let t := retire 4 (setG d old (modMe (csrPut n v) s))
    CsrWritten n v (me t) ∧ gGet d t = (if d = 0 then 0 else old) ∧ (me t).pc = (me s).pc + 4 ∧
    RegsSameBut [d] s t ∧ MemSame s t := by
  obtain ⟨r, hme⟩ := me_setG_csrPut n d old v s
  refine ⟨?_, ?_, ?_, fun i hi => ?_, memSame_of_mem (mem_setG d old _)⟩
  · rw [me_retire, hme]
    exact csrPut_written n v (me s)
  · rw [gGet_retire, gGet_setG_same]
  · rw [me_retire, hme, csrPut_pc]
  · have hd : i ≠ d := by simpa using hi
    rw [gGet_retire, gGet_setG, if_neg fun h => hd h.1]
    simp [gGet, csrPut_r]

/-- The three clauses of an access that has its right: read, write, and read with no bits to set or clear. -/
theorem csrAccess_completes : CsrAccess := by
  intro s d a csr hq hl n v old written
  have hsync {w : Bool} (hr : csrRight n (me s).handler ≠ 0) (hw : w = true → csrRight n (me s).handler = 2) (r : Bool)
      (k : State → State) : csrAccess n w r k s = k s := csrAccess_of_quiet hq hl hr hw r k
  refine ⟨fun hr => ?_, fun hr => ⟨?_, fun hv => ⟨?_, ?_⟩⟩, fun hr hv => ⟨?_, ?_⟩⟩
  · show Host.Outcome.next (csrAccess n false true _ s) = _
    rw [hsync hr (by simp), retire_setG_eq_afterScalar]
    rfl
  · obtain ⟨hw, -, hpc, hg, hm⟩ := csr_written n 0 0 v s
    refine ⟨_, congrArg Host.Outcome.next (hsync (by simp [hr]) (fun _ => hr) false _), hw, hpc, fun r _ => ?_, hm⟩
    by_cases h0 : r = 0
    · rw [h0]
      rfl
    · exact hg r (by simpa using h0)
  · obtain ⟨hw, hd, hpc, hg, -⟩ := csr_written n d old (old ||| v) s
    refine ⟨_, ?_, hw, hd, hpc, hg⟩
    show Host.Outcome.next (csrAccess n (v != 0) true _ s) = _
    rw [hsync (by simp [hr]) (fun _ => hr)]
    simp only [if_neg (show ¬ gGet a s = 0 from hv)]
    rfl
  · obtain ⟨hw, hd, hpc, hg, -⟩ := csr_written n d old (old &&& ~~~v) s
    refine ⟨_, ?_, hw, hd, hpc, hg⟩
    show Host.Outcome.next (csrAccess n (v != 0) true _ s) = _
    rw [hsync (by simp [hr]) (fun _ => hr)]
    simp only [if_neg (show ¬ gGet a s = 0 from hv)]
    rfl
  all_goals
    show Host.Outcome.next (csrAccess n (v != 0) true _ s) = _
    rw [hsync hr (by simp [hv])]
    simp only [if_pos (show gGet a s = 0 from hv), retire_setG_eq_afterScalar]
    rfl

/-- The three ways in which an access is refused, in the order in which they are tested. -/
theorem csrAccess_refused : CsrPrivilege := by
  intro s d a csr n illegal1 priv
  refine ⟨fun hl => ?_, fun hn hu => ?_, fun hl h40 h55 h56 hn h71 => ?_⟩
  · have h (w r k) : Host.Outcome.next (csrAccess n w r k s) = illegal1 := by rw [csrAccess_of_unlisted hl]; rfl
    exact ⟨h _ _ _, h _ _ _, h _ _ _, h _ _ _⟩
  · obtain ⟨hl, hr⟩ := handler_csr hn
    have h (w r k) : Host.Outcome.next (csrAccess n w r k s) = priv := by rw [csrAccess_of_no_right hl (hu ▸ hr)]; rfl
    exact ⟨h _ _ _, h _ _ _, h _ _ _, h _ _ _⟩
  · have hr := csrRight_eq_one h40 h55 h56 hn h71 (me s).handler
    have h (r k) : Host.Outcome.next (csrAccess n true r k s) = illegal1 := by rw [csrAccess_of_read_only hl hr]; rfl
    refine ⟨h _ _, fun hv => ?_⟩
    have hw : (gGet a s != 0) = true := by simpa using hv
    constructor
    · show Host.Outcome.next (csrAccess n (gGet a s != 0) true _ s) = _
      rw [hw]
      exact h _ _
    · show Host.Outcome.next (csrAccess n (gGet a s != 0) true _ s) = _
      rw [hw]
      exact h _ _

/-- Settles O13: every access is `csrAccess`, whose branches are the rights, and a write is `csrPut`. -/
theorem controlRegisters : Obligations.ControlRegisters := ⟨csrAccess_completes, csrAccess_refused⟩

end Sys2Proof.Machine

/-! Family 08, execution model: the entry of a precise trap and the double trap (O14, O16). -/

namespace Sys2Proof.Machine

/-! ## A precise trap (R227, R228) -/

/-- A trap whose hart still has an access without an answer is kept, and nothing else changes (R221). -/
theorem enterTrap_of_unfinished {h : Nat} {s : State} (hs : (hartOf s h).sbuf = []) (he : (hartOf s h).entry = none)
    (hu : unfinished s h = true) (f : Flt) (imp : Bool) (pc lpc : Word) (elem vstart : Nat) (fs : FaultStream) :
    enterTrap h f imp pc lpc elem vstart fs s = modHart h (fun x =>
      { x with entry := some { flt := f, imp := imp, pc := pc, lpc := lpc, elem := elem, vstart := vstart, fs := fs,
                               framed := false } }) s := by
  unfold enterTrap
  simp [drainStores_of_none hs, he, hu]

theorem unfinished_of_awaitsLink {s : State} {h : Nat} (e : awaitsLink s h = true) : unfinished s h = true := by
  simp [unfinished, e]

theorem unfinished_of_idle {s : State} {h : Nat} (hs : (hartOf s h).sbuf = []) (e : awaitsLink s h = false) :
    unfinished s h = false := by simp [unfinished, e, hs]

/-- Settles O14: the entry is `enterTrap`, with its frame writable or with an access that awaits a link. -/
theorem preciseTrapEntry : Obligations.PreciseTrapEntry := by
  intro s f hp hk
  have ht : preciseTrap f s = enterTrap s.cur f false (me s).pc 0 0 0 noStream s := preciseAt_of_no_pend hp f _ _
  refine ⟨fun hw => ?_, fun he hs ha => ?_⟩
  · rw [ht]
    exact trapTaken_of_writable hk hw
  · rw [ht, enterTrap_of_unfinished hs he (unfinished_of_awaitsLink ha)]
    refine ⟨⟨_, congrArg Hart.entry (me_modMe _ s), rfl, rfl⟩, ?_, fun j hj => hartOf_modMe_other _ _ hj, fun _ => rfl⟩
    refine (congrArg (fun x : Hart => { x with entry := none }) (me_modMe _ s)).trans ?_
    show { me s with entry := none } = me s
    rw [← (he : (me s).entry = none)]

/-! ## The end of a hart (R230) -/

/-- What the end of hart `h` leaves alone: the jobs and every other hart. -/
def OnlyHart (h : Nat) (s t : State) : Prop :=
  t.cur = s.cur ∧ t.jobs = s.jobs ∧ ∀ k, k ≠ h → hartOf t k = hartOf s k

theorem OnlyHart.trans {h : Nat} {s t u : State} (a : OnlyHart h s t) (b : OnlyHart h t u) : OnlyHart h s u :=
  ⟨b.1.trans a.1, b.2.1.trans a.2.1, fun k hk => (b.2.2 k hk).trans (a.2.2 k hk)⟩

theorem OnlyHart.of_memStep {h : Nat} {s t : State} (k : MemStep s t) : OnlyHart h s t :=
  ⟨k.cur, k.jobs, fun j _ => k.hartOf j⟩

theorem OnlyHart.modHart (h : Nat) (f : Hart → Hart) (s : State) : OnlyHart h s (modHart h f s) :=
  ⟨rfl, rfl, fun _ hk => hartOf_modHart_other hk f s⟩

theorem OnlyHart.foldl {h : Nat} {α : Type} {f : State → α → State} (hf : ∀ s x, OnlyHart h s (f s x)) (l : List α)
    (s : State) :
    OnlyHart h s (l.foldl f s) := by
  induction l generalizing s with
  | nil => exact ⟨rfl, rfl, fun _ _ => rfl⟩
  | cons x l ih => exact (hf s x).trans (ih _)

theorem OnlyHart.performStore (h : Nat) (c : LateStore) (s : State) : OnlyHart h s (performStore h c s) :=
  (OnlyHart.modHart h _ s).trans (.of_memStep (storeBytes_step _ _ _ _))

theorem OnlyHart.discardCmd (h core : Nat) (s : State) (c : CopyCmd) : OnlyHart h s (discardCmd core c s) := by
  unfold Machine.discardCmd
  split <;> exact ⟨rfl, rfl, fun _ _ => rfl⟩

theorem OnlyHart.discardCmds (h core : Nat) (l : List CopyCmd) (s : State) : OnlyHart h s (discardCmds core l s) :=
  .foldl (OnlyHart.discardCmd h core) l s

theorem OnlyHart.endWork (h : Nat) (s : State) : OnlyHart h s (endWork h s) := ⟨rfl, rfl, fun _ _ => rfl⟩

/-- A hart that ends stops with its queues empty and no trap pending; the jobs and every other hart stay. -/
theorem onlyHart_killHart (h : Nat) (s : State) : OnlyHart h s (killHart h s) := by
  unfold killHart
  extract_lets s1 cmds core s2 s3
  have h1 : OnlyHart h s s1 := .foldl (fun s c => OnlyHart.performStore h c s) _ s
  have h2 : OnlyHart h s1 s2 := ⟨rfl, rfl, fun _ _ => rfl⟩
  have h3 : OnlyHart h s2 s3 := (OnlyHart.discardCmds h core _ s2).trans (.endWork h _)
  clear_value s3
  exact ((h1.trans h2).trans h3).trans (.modHart h _ s3)

/-- A hart that has stopped for good. -/
def Ended (x : Hart) : Prop := x.run = .halted ∧ x.vq = [] ∧ x.mq = [] ∧ x.pend = none

theorem ended_killHart (h : Nat) (s : State) : Ended (hartOf (killHart h s) h) := by
  unfold killHart
  rw [hartOf_modHart_same]
  exact ⟨rfl, rfl, rfl, rfl⟩

/-- A hart that has ended stays so while others end. -/
theorem ended_killHart_of_ended {h : Nat} {s : State} (e : Ended (hartOf s h)) (k : Nat) :
    Ended (hartOf (killHart k s) h) := by
  by_cases hk : h = k
  · exact hk ▸ ended_killHart h s
  · rwa [(onlyHart_killHart k s).2.2 h hk]

theorem jobs_killHarts (l : List Nat) (s : State) :
    (l.foldl (fun s h => killHart h s) s).cur = s.cur ∧ (l.foldl (fun s h => killHart h s) s).jobs = s.jobs := by
  induction l generalizing s with
  | nil => exact ⟨rfl, rfl⟩
  | cons k l ih =>
    obtain ⟨hc, hj, -⟩ := onlyHart_killHart k s
    exact ⟨(ih _).1.trans hc, (ih _).2.trans hj⟩

theorem ended_killHarts {h : Nat} (l : List Nat) (s : State) (e : h ∈ l ∨ Ended (hartOf s h)) :
    Ended (hartOf (l.foldl (fun s h => killHart h s) s) h) := by
  induction l generalizing s with
  | nil => exact e.resolve_left (by simp)
  | cons k l ih =>
    refine ih _ ?_
    rcases e with e | e
    · rcases List.mem_cons.mp e with rfl | e
      · exact .inr (ended_killHart h s)
      · exact .inl e
    · exact .inr (ended_killHart_of_ended e k)

/-- A double trap ends the hart and every hart of its job, and the job's status is DOUBLETRAP (R230, R264). -/
theorem doubleTrap_ends {h j : Nat} {s : State} (hj : (hartOf s h).job = some j) :
    (doubleTrap h s).cur = s.cur ∧ (jobOf (doubleTrap h s) j).status = 2 ∧
    ∀ k, k = h ∨ k ∈ (jobOf s j).harts → Ended (hartOf (doubleTrap h s) k) := by
  have hd : doubleTrap h s = ((jobOf (modJob j (fun x => { x with status := 2 }) s) j).harts.foldl (fun s h => killHart h s)
      (killHart h (modJob j (fun x => { x with status := 2 }) s))) := by
    unfold doubleTrap
    rw [hj]
  have hjob : jobOf (modJob j (fun x => { x with status := 2 }) s) j = { jobOf s j with status := 2 } := cget_cset_same _ _ _ _
  rw [hd, hjob]
  obtain ⟨hc, hk, -⟩ := onlyHart_killHart h (modJob j (fun x => { x with status := 2 }) s)
  obtain ⟨hcs, hks⟩ := jobs_killHarts (jobOf s j).harts (killHart h (modJob j (fun x => { x with status := 2 }) s))
  refine ⟨hcs.trans hc, ?_, ?_⟩
  · show (cget Job.none j _).status = 2
    rw [hks, hk]
    exact congrArg Job.status hjob
  · rintro k (rfl | hk)
    · exact ended_killHarts _ _ (.inr (ended_killHart _ _))
    · exact ended_killHarts _ _ (.inl hk)

/-! ## The double trap -/

/-- Where a bind faults, its first part does, or its second after the first. -/
theorem mbind_eq_bad {α β : Type} {m : MR α} {k : α → State → MR β} {f : Flt} {t : State} (e : mbind m k = .bad f t) :
    m = .bad f t ∨ ∃ a u, m = .ok a u ∧ k a u = .bad f t := by
  cases m with
  | ok a u => exact .inr ⟨a, u, rfl, e⟩
  | bad g u => exact .inl (by cases e; rfl)
  | wait u => cases e

/-- A frame that cannot be written leaves the harts and the jobs alone. -/
theorem writeFrame_bad_step {h : Nat} {a : Word} {r : FrameRec} {fs : FaultStream} {v : Nat} {s t : State} {f : Flt}
    (e : writeFrame h a r fs v s = .bad f t) : MemStep s t := by
  unfold writeFrame at e
  extract_lets handle x bs w at e
  obtain hp | ⟨u, s1, hp, e⟩ := mbind_eq_bad e
  · exact step_of_bad (probeRun_step ..) hp
  obtain hw | ⟨u, s2, hw, e⟩ := mbind_eq_bad e
  · exact ((step_of_ok (probeRun_step ..) hp).trans (bump_step s1)).trans (step_of_bad (vaWriteN_step ..) hw)
  · cases e

theorem unwindConvoy_pc (x : Hart) : { unwindConvoy x with pc := x.pc } = unwindConvoy x := by
  unfold unwindConvoy
  split <;> rfl

/-- What makes a trap a double trap (R230): handler privilege, or a frame that cannot be written. -/
def NoFrame (s : State) : Prop :=
  (me s).handler = true ∨ ∃ flt s2, writeFrame s.cur (me s).t.frame (recordOf 0 s.cur (unwindConvoy (me s))
    (takeCmds s.cur s).1) noStream 0 (takeCmds s.cur s).2 = .bad flt s2

theorem enterTrap_of_noFrame {s : State} {f : Flt} (hd : stopsFor (me s) f.cause = false) (hs : (me s).sbuf = [])
    (ha : awaitsLink s s.cur = false) (hn : NoFrame s) :
    ∃ u, u.jobs = s.jobs ∧ u.cur = s.cur ∧ (∀ k, hartOf u k = hartOf s k) ∧
      enterTrap s.cur f false (me s).pc 0 0 0 noStream s = doubleTrap s.cur u := by
  have hu : unfinished s s.cur = false := unfinished_of_idle hs ha
  have hd' : stopsFor (hartOf s s.cur) f.cause = false := hd
  unfold enterTrap
  simp only [drainStores_of_none hs, hu, hd', Bool.and_false, Bool.false_eq_true, if_false]
  by_cases hh : (hartOf s s.cur).handler = true
  · exact ⟨s, rfl, rfl, fun _ => rfl, if_pos hh⟩
  obtain hn | ⟨flt, s2, hw⟩ := hn
  · exact absurd hn hh
  rw [if_neg hh]
  have hw' : writeFrame s.cur (hartOf s s.cur).t.frame
      (recordOf 0 s.cur { unwindConvoy (hartOf s s.cur) with pc := (me s).pc }
      (takeCmds s.cur s).1) noStream 0 (takeCmds s.cur s).2 = .bad flt s2 := by
    rw [← hw]
    exact congrArg (fun x => writeFrame s.cur (me s).t.frame (recordOf 0 s.cur x _) noStream 0 _) (unwindConvoy_pc (me s))
  have hm := writeFrame_bad_step hw'
  simp only [hw']
  exact ⟨modCore (coreNo s.cur) _ s2, hm.jobs, hm.cur, fun k => hm.hartOf k, rfl⟩

/-- Settles O16: both ways to a double trap are `doubleTrap`, which ends each hart of the job. -/
theorem doubleTrap_stops_job : Obligations.DoubleTrap := by
  intro s f j hp hj hd hs ha hn
  have ht : preciseTrap f s = enterTrap s.cur f false (me s).pc 0 0 0 noStream s := preciseAt_of_no_pend hp f _ _
  obtain ⟨u, hjobs, hcur, hharts, hu⟩ := enterTrap_of_noFrame hd hs ha hn
  obtain ⟨hc, hst, hall⟩ := doubleTrap_ends ((hharts s.cur ▸ hj : (hartOf u s.cur).job = some j))
  rw [ht, hu]
  refine ⟨hst, ?_, fun h hh => hall h (.inr ?_)⟩
  · show (hartOf _ (doubleTrap s.cur u).cur).run = .halted
    rw [hc, hcur]
    exact (hall s.cur (.inl rfl)).1
  · rwa [jobOf, hjobs]

end Sys2Proof.Machine

/-! Family 08, execution model: the return from a trap (O18). -/

namespace Sys2Proof.Machine

/-! ## What a return from a trap leaves alone -/

/-- Only the cores differ. -/
def OnlyCores (s t : State) : Prop := { t with cores := s.cores } = s

theorem OnlyCores.trans {s t u : State} (h : OnlyCores s t) (k : OnlyCores t u) : OnlyCores s u := by
  unfold OnlyCores at *
  rw [← h, ← k]

theorem OnlyCores.modCore (c : Nat) (f : Core → Core) (s : State) : OnlyCores s (modCore c f s) := rfl

theorem OnlyCores.foldl {α : Type} {f : State → α → State} (h : ∀ s x, OnlyCores s (f s x)) (l : List α) (s : State) :
    OnlyCores s (l.foldl f s) := by
  induction l generalizing s with
  | nil => rfl
  | cons x l ih => exact (h s x).trans (ih _)

theorem OnlyCores.cur {s t : State} (h : OnlyCores s t) : t.cur = s.cur := by
  rw [← h]

theorem OnlyCores.mem {s t : State} (h : OnlyCores s t) : t.mem = s.mem := by
  rw [← h]

theorem OnlyCores.hartOf {s t : State} (h : OnlyCores s t) (k : Nat) : hartOf t k = hartOf s k := by
  unfold Machine.hartOf
  rw [← h]

theorem OnlyCores.me {s t : State} (h : OnlyCores s t) : me t = me s := by
  unfold Machine.me
  rw [h.hartOf, h.cur]

/-- The hart with the stopped work in its queues again. -/
def withWork (vq mq : List QEntry) (x : Hart) : Hart := { x with vq := vq, mq := mq }

/-- Stopped work that is issued again is in the hart's queues; only the core differs otherwise (R229). -/
theorem issueStopped_eq (h : Nat) (vq mq : List QEntry) (cmds : List CopyCmd) (s : State) :
    ∃ u, OnlyCores s u ∧ issueStopped h vq mq cmds s = modHart h (withWork vq mq) u := by
  unfold issueStopped
  extract_lets cmds' s1 s2
  have h1 : OnlyCores s s1 := .foldl (fun s x => by
    split
    · exact .modCore ..
    · rfl) _ _
  have h2 : OnlyCores s1 s2 := .modCore ..
  exact ⟨s2, h1.trans h2, rfl⟩

theorem me_issueStopped (vq mq : List QEntry) (cmds : List CopyCmd) (s : State) :
    me (issueStopped s.cur vq mq cmds s) = withWork vq mq (me s) := by
  obtain ⟨u, hu, e⟩ := issueStopped_eq s.cur vq mq cmds s
  rw [e, ← hu.me, ← hu.cur]
  exact me_modMe _ u

theorem mem_issueStopped (h : Nat) (vq mq : List QEntry) (cmds : List CopyCmd) (s : State) :
    (issueStopped h vq mq cmds s).mem = s.mem := by
  obtain ⟨u, hu, e⟩ := issueStopped_eq h vq mq cmds s
  rw [e, ← hu.mem]
  rfl

/-! ## The end of ERET -/

/-- The hart that a return from a trap goes on with, at user privilege (R229). -/
def backToUser (x : Hart) : Hart :=
  { resumeCap x with
    stoppedV := [], stoppedM := [], stoppedC := [], frameC := [], restored := false, handler := false,
    dbg := { x.dbg with suppress := true } }

theorem backToUser_fields (x : Hart) : (backToUser x).handler = false ∧ (backToUser x).r = x.r ∧
    (backToUser x).vq = x.vq ∧ (backToUser x).mq = x.mq ∧ (backToUser x).vl = x.vl ∧ (backToUser x).rc = x.rc ∧
    (backToUser x).vgrant = x.vgrant := by
  unfold backToUser resumeCap
  split <;> exact ⟨rfl, rfl, rfl, rfl, rfl, rfl, rfl⟩

theorem finishEret_of_no_reversal {s : State} (h : (me s).revabt = none) :
    finishEret s = goto (me s).t.pc (modMe backToUser
      (issueStopped s.cur (me s).stoppedV (me s).stoppedM (me s).stoppedC (letGo s.cur (fun _ => true) s))) := by
  unfold finishEret
  extract_lets x core _ _ s1
  split
  next h' => exact absurd (h.symm.trans h') nofun
  next => rfl

/-- With no reversal to abort, ERET goes to TRAPPC at user privilege, with the registers it has and the work that was
stopped (R229). -/
theorem me_finishEret {s : State} (h : (me s).revabt = none) :
    (finishEret s).mem = s.mem ∧ (me (finishEret s)).handler = false ∧ (me (finishEret s)).pc = (me s).t.pc ∧
      (me (finishEret s)).r = (me s).r ∧ (me (finishEret s)).vq = (me s).stoppedV ∧
      (me (finishEret s)).mq = (me s).stoppedM ∧ (me (finishEret s)).vl = (me s).vl ∧
      (me (finishEret s)).rc = (me s).rc ∧ (me (finishEret s)).vgrant = (me s).vgrant := by
  obtain ⟨hh, hr, hvq, hmq, hvl, hrc, hvg⟩ := backToUser_fields (withWork (me s).stoppedV (me s).stoppedM (me s))
  have hm : me (issueStopped s.cur (me s).stoppedV (me s).stoppedM (me s).stoppedC (letGo s.cur (fun _ => true) s)) =
      withWork (me s).stoppedV (me s).stoppedM (me s) := me_issueStopped _ _ _ (letGo s.cur (fun _ => true) s)
  have hmem : (issueStopped s.cur (me s).stoppedV (me s).stoppedM (me s).stoppedC (letGo s.cur (fun _ => true) s)).mem =
      s.mem := mem_issueStopped _ _ _ _ _
  rw [finishEret_of_no_reversal h]
  generalize issueStopped s.cur (me s).stoppedV (me s).stoppedM (me s).stoppedC (letGo s.cur (fun _ => true) s) = u at hm hmem
  refine ⟨hmem, ?_⟩
  rw [goto, me_modMe, me_modMe, hm]
  exact ⟨hh, rfl, hr, hvq, hmq, hvl, hrc, hvg⟩

/-! ## The frame that ERET reads -/

theorem readFrame_step {h : Nat} {a : Word} {s : State} : MemStep s (readFrame h a s).st := by
  unfold readFrame
  refine mbind_step (vaReadN_step ..) fun head t _ => st_ite_step _ (.refl _) (st_ite_step _ (.refl _) ?_)
  exact mbind_step (vaReadN_step ..) fun _ u _ => mbind_step (vaReadN_step ..) fun _ v _ => st_ite_step _ (.refl _) (.refl _)

/-- The registers of a frame of the trap kind (R229). -/
def frameRegs (rec' : FrameRec) : Regs :=
  { rec'.regs with v := clipRegs rec'.regs, chains := rec'.regs.chains.map (fun c => { c with stale := true }) }

/-- The hart with the registers of a frame of the trap kind, and the work of the frame as its stopped work (R229, log 31). -/
def restoredFrom (rec' : FrameRec) (x : Hart) : Hart :=
  { x with r := frameRegs rec', vl := rec'.vl, rc := rec'.rc, vgrant := rec'.vgrant
           stoppedCap := some (rec'.capLeft, rec'.body, rec'.conv.1, rec'.conv.2)
           restored := true, stoppedV := rec'.vq, stoppedM := rec'.mq, stoppedC := rec'.cmds }

theorem restoreRegs_of_trap {rec' : FrameRec} (hk : rec'.kind = 0) (h : Nat) (s : State) :
    restoreRegs h rec' false s = modHart h (fun x => { x with
      r := frameRegs rec', vl := rec'.vl, rc := rec'.rc, vgrant := rec'.vgrant
      stoppedCap := some (rec'.capLeft, rec'.body, rec'.conv.1, rec'.conv.2) }) s := by
  have h1 : ¬ rec'.kind = 1 := by rw [hk]; decide
  unfold restoreRegs
  simp only [if_neg h1, Bool.false_eq_true, if_false]
  rfl

theorem me_adoptKeys (h k : Nat) (s : State) : me (adoptKeys h k s) = me s := by
  unfold adoptKeys
  split <;> rfl

theorem me_settleRev (c : Nat) (s : State) : me (settleRev c s) = me s := rfl

/-- A frame of the trap kind gives the hart back its registers and its work, and the return goes on from there. -/
theorem returnFromTrap_of_frame {s s1 : State} {rec' : FrameRec} (hr : (me s).restored = false)
    (hv : (me s).revabt = none) (hf : readFrame s.cur (me s).t.frame s = .ok (.good rec') s1) (hk : rec'.kind = 0) :
    ∃ u, returnFromTrap s = finishEret u ∧ me u = restoredFrom rec' (me s) := by
  have hm : MemStep s s1 := step_of_ok readFrame_step hf
  unfold returnFromTrap
  extract_lets x
  have hkeep : (rec'.kind == 0 && x.revabt.isSome) = false := by
    rw [show x.revabt = none from hv]
    exact Bool.and_false _
  rw [if_neg (by rw [hr]; decide), hf, scalarDo_ok]
  simp only
  rw [hkeep, restoreRegs_of_trap hk]
  refine ⟨_, rfl, ?_⟩
  rw [me_settleRev, me_modMe, me_adoptKeys, ← modMe, me_modMe, hm.me]
  rfl

theorem exec_eret_of_handler {s : State} (hh : (me s).handler = true) (hq : Quiet s) :
    exec .eret s = .next (returnFromTrap s) := by
  show Host.Outcome.next _ = _
  rw [hh, sync_of_quiet hq]
  rfl

/-- Settles O18: each way back is `finishEret`, on the hart as it is or on the hart of the frame. -/
theorem returnFromTrap_restores_frame : Obligations.ReturnFromTrap := by
  intro s
  refine ⟨fun hh => ?_, fun hh hq hv => ⟨fun hr => ?_, fun hr rec' s1 hf hk => ?_⟩⟩
  · show Host.Outcome.next _ = _
    rw [hh]
    rfl
  · obtain ⟨hmem, hu, hpc, hregs, hvq, hmq, -⟩ := me_finishEret hv
    refine ⟨finishEret s, ?_, hu, hpc, hregs, hvq, hmq, memSame_of_mem hmem⟩
    rw [exec_eret_of_handler hh hq, returnFromTrap, if_pos hr]
  · obtain ⟨u, e, hme⟩ := returnFromTrap_of_frame hr hv hf hk
    have hvu : (me u).revabt = none := by
      rw [hme]
      exact hv
    obtain ⟨-, hu, hpc, hregs, hvq, hmq, hvl, hrc, hvg⟩ := me_finishEret hvu
    rw [hme] at hpc hregs hvq hmq hvl hrc hvg
    refine ⟨finishEret u, ?_, hu, hpc, fun r => ?_, ?_, ?_, ?_, hvl, hrc, hvg, hvq, hmq⟩
    · rw [exec_eret_of_handler hh hq, e]
    · rw [gGet, hregs]
      rfl
    · rw [hregs]
      rfl
    · rw [hregs]
      rfl
    · rw [hregs]
      rfl

end Sys2Proof.Machine

/-! Family 08, execution model: convoys, parking and stalls (O19). -/

namespace Sys2Proof.Machine

/-! ## WFE, HALT and NOP32 (R344, R345) -/

theorem hartOf_wake_of_parked {h : Nat} {s : State} (hp : (hartOf s h).run = .parked) :
    hartOf (wake h s) h = { hartOf s h with run := .running } := by
  rw [wake, if_pos hp, hartOf_modHart_same]

theorem mem_wake (h : Nat) (s : State) : (wake h s).mem = s.mem := by
  unfold wake
  split <;> rfl

theorem OnlyCores.discardCmds (core : Nat) (l : List CopyCmd) (s : State) : OnlyCores s (discardCmds core l s) :=
  .foldl (fun s c => by
    unfold discardCmd
    split
    · rfl
    · exact .trans (.modCore ..) (.modCore ..)) l s

/-- What a handler drops of its stopped work: no register, no memory, nothing of another hart. -/
theorem discardStopped_keeps (s : State) : (discardStopped s).cur = s.cur ∧ (discardStopped s).mem = s.mem ∧
    (me (discardStopped s)).r = (me s).r ∧ OtherHarts s (discardStopped s) := by
  unfold discardStopped
  extract_lets x
  split
  · exact ⟨rfl, rfl, rfl, fun _ _ => rfl⟩
  have hd : OnlyCores s (discardCmds (coreNo s.cur) (savedCmds s.cur x) s) := .discardCmds ..
  generalize discardCmds (coreNo s.cur) (savedCmds s.cur x) s = t at hd
  refine ⟨hd.cur, hd.mem, ?_, fun h hh => ?_⟩
  · rw [me_modMe, hd.me]
  · rw [hartOf_modMe_other _ _ (hd.cur ▸ hh), hd.hartOf]

/-- The hart stops for good, past its HALT. -/
def halted (h : Nat) (s : State) : State :=
  modMe (fun x => { x with run := .halted, pin := none, ibuf := [], pc := x.pc + 4, stalled := 0, stallS := none }) (endWork h s)

theorem mem_endWork (h : Nat) (s : State) : (endWork h s).mem = s.mem := rfl

theorem hartOf_endWork (h k : Nat) (s : State) : hartOf (endWork h s) k = hartOf s k := rfl

theorem mem_halted (h : Nat) (s : State) : (halted h s).mem = s.mem := mem_endWork h s

theorem me_halted (s : State) : (me (halted s.cur s)).run = .halted ∧ (me (halted s.cur s)).r = (me s).r := by
  have hm : me (endWork s.cur s) = me s := hartOf_endWork s.cur s.cur s
  have hk : me (halted s.cur s) = _ := me_modMe _ (endWork s.cur s)
  rw [hk, hm]
  exact ⟨rfl, rfl⟩

theorem hartOf_halted_other {k : Nat} {s : State} (hk : k ≠ s.cur) (h : Nat) : hartOf (halted h s) k = hartOf s k := by
  have hc : (endWork h s).cur = s.cur := rfl
  rw [← hc] at hk
  rw [halted, hartOf_modMe_other _ _ hk, hartOf_endWork]

theorem exec_halt_of_no_chain {s : State} (hc : (me s).r.chains = []) (hq : Quiet s) :
    exec .halt s = .next (halted s.cur (discardStopped s)) := by
  show Host.Outcome.next _ = _
  rw [hc, sync_of_quiet hq]
  rfl

theorem parkHaltNop : ParkHaltNop := by
  intro s
  refine ⟨⟨_, rfl, ?_, ?_, ?_, fun _ => rfl⟩,
    fun h hp => ⟨_, rfl, hartOf_wake_of_parked hp, memSame_of_mem (mem_wake h s)⟩,
    fun hc hq => ?_, fun hc => ?_, ?_⟩
  · rw [me_modMe]
  · rw [me_modMe, me_retire]
  · rw [me_modMe, me_retire]
  · obtain ⟨hcur, hmem, hr, ho⟩ := discardStopped_keeps s
    obtain ⟨hrun, hregs⟩ := me_halted (discardStopped s)
    rw [hcur] at hrun hregs
    exact ⟨_, exec_halt_of_no_chain hc hq, hrun, hregs.trans hr, memSame_of_mem ((mem_halted _ _).trans hmem), fun h hh =>
      (hartOf_halted_other (hcur.symm ▸ hh) _).trans (ho h hh)⟩
  · have hb : (!(me s).r.chains.isEmpty) = true := by simpa using hc
    show Host.Outcome.next (if _ then _ else _) = _
    rw [if_pos hb]
    rfl
  · exact congrArg Host.Outcome.next (retire_eq_afterScalar_zero 4 s)

/-! ## Convoys (R217, R304 to R306) -/

theorem convoyHeaders : ConvoyHeaders := by
  intro s s1 units cnt fits hf
  have e : exec (.convoyHeader units cnt) s =
      .next (if fits && (decide ((me s1).capLeft = 0) || decide (cnt.toNat + 2 ≤ (me s1).capLeft)) then
        retire 4 (modMe (fun x => { x with convLeft := cnt.toNat + 2, convId := s1.ticks + 1 }) s1) else illegal 7 s1) := by
    show Host.Outcome.next (scalarDo _ _) = _
    rw [hf]
    rfl
  rw [e]
  by_cases hc : fits = true ∧ ((me s1).capLeft = 0 ∨ cnt.toNat + 2 ≤ (me s1).capLeft)
  · rw [if_pos hc, if_pos (by simpa using hc), retire, goto, me_modMe, modMe_modMe]
    exact congrArg Host.Outcome.next (modMe_congr _ _ _ rfl)
  · rw [if_neg hc, if_neg (by simpa using hc)]
    rfl

/-- The instructions of a convoy stand at position `p`. -/
def AllAt (p : Nat) (es : List QEntry) : Prop := ∀ e ∈ es, e.ctx.upto = p

theorem allAt_placeGroup (p : Nat) (es : List QEntry) : AllAt p (placeGroup p es) := by
  intro e he
  obtain ⟨x, -, rfl⟩ := List.mem_map.mp he
  rfl

/-- What a convoy leaves in its queue stands at one position. -/
def CRes.Together : CRes → Prop
  | .done _ => True
  | .block es _ _ => ∃ p, AllAt p es
  | .fault es _ _ => ∃ p, AllAt p es

theorem AllAt.map {p : Nat} {es : List QEntry} {f : QEntry → QEntry} (h : AllAt p es)
    (hf : ∀ e, (f e).ctx.upto = e.ctx.upto) :
    AllAt p (es.map f) := by
  intro e he
  obtain ⟨x, hx, rfl⟩ := List.mem_map.mp he
  exact (hf x).trans (h x hx)

theorem runConvoy_together (run : Instr → Perform) (byRow : Bool) (wrap : List QEntry → List QEntry) (n p : Nat)
    (es : List QEntry) (s : State) (h : AllAt p es) : (runConvoy run byRow wrap n es s).Together := by
  induction n generalizing p es s with
  | zero => exact ⟨p, h⟩
  | succ n ih =>
    match es, h with
    | [], _ => exact trivial
    | e :: r, h =>
      unfold runConvoy
      dsimp only
      split
      next es' t _ =>
        split
        · exact trivial
        · split
          · exact ⟨_, allAt_placeGroup _ _⟩
          · exact ih _ _ _ (allAt_placeGroup _ _)
      next => exact ⟨_, allAt_placeGroup _ _⟩
      next =>
        refine ⟨p, h.map fun x => ?_⟩
        split <;> rfl

theorem convoysStopTogether : ConvoysStopTogether := by
  intro run byRow wrap n p es s h
  refine ⟨?_, ?_⟩
  · have ht := runConvoy_together run byRow wrap n p es s h
    revert ht
    cases runConvoy run byRow wrap n es s <;> exact id
  · rintro e r e' f u rfl hg
    have hp : e.ctx.upto = p := h e (List.mem_cons_self ..)
    unfold runConvoy
    simp only [hp, hg]
    exact ⟨_, _, rfl, rfl, rfl⟩

/-! ## The limit of a stall (R233) -/

theorem queueHangs : QueueHangs := by
  intro s h hp
  refine ⟨fun f hf hk hw => ⟨_, ?_, trapTaken_of_writable hk hw⟩,
    fun p hs hor => ⟨setPend h p s, ?_, pend_setPend hp p, ?_⟩⟩
  · show execQueuehang h s = _
    simp [execQueuehang, hf, hp]
  · show execQueuehang h s = _
    rcases hor with hv | ⟨hv, hm⟩
    · simp [execQueuehang, hs, hv]
    · simp [execQueuehang, hs, hv, hm]
  · obtain ⟨run, e⟩ := setPend_of_none hp p
    rw [e, hartOf_modHart_same]

/-- Settles O19, by its four parts. -/
theorem headersAndParking : Obligations.HeadersAndParking := ⟨parkHaltNop, convoyHeaders, convoysStopTogether, queueHangs⟩

end Sys2Proof.Machine

/-! Family 08, execution model: the length, the rows and the lanes (O20). -/

namespace Sys2Proof.Machine

/-! ## A scalar result beside a change of the hart -/

/-- The long scalar instruction went on from `u` and wrote `v` to `d`. -/
structure WroteOn (d : Reg) (v : Word) (u t : State) : Prop where
  cur : t.cur = u.cur
  pwrcap : t.pwrcap = u.pwrcap
  me : ∃ r, me t = { me u with pc := (me u).pc + 8, stalled := 0, stallS := none, invWait := none, r := r }
  others : OtherHarts u t
  dest : gGet d t = if d = 0 then 0 else v
  regs : RegsSameBut [d] u t

theorem wroteOn_retire (d : Reg) (v : Word) (u : State) : WroteOn d v u (retire 8 (setG d v u)) := by
  have hme : ∃ r, Machine.me (setG d v u) = { Machine.me u with r := r } := by
    unfold setG
    split
    · exact ⟨_, rfl⟩
    · exact ⟨_, me_modMe _ _⟩
  refine ⟨?_, ?_, ?_, fun h hh => ?_, ?_, fun r hr => ?_⟩
  · rw [retire_setG_eq_afterScalar]
    rfl
  · rw [retire_setG_eq_afterScalar]
    rfl
  · obtain ⟨r, e⟩ := hme
    exact ⟨r, by rw [me_retire, e]⟩
  · rw [retire_setG_eq_afterScalar]
    exact hartOf_modMe_other _ _ hh
  · rw [gGet_retire, gGet_setG_same]
  · rw [gGet_retire, gGet_setG, if_neg (fun h => hr (by simp [h.1]))]

/-- A result to g0 is discarded. -/
theorem WroteOn.regs_of_zero {v : Word} {u t : State} (w : WroteOn 0 v u t) (r : Reg) : gGet r t = gGet r u := by
  by_cases h : r = 0
  · subst h
    rfl
  · exact w.regs r (by simpa using h)

theorem gGet_modMe {f : Hart → Hart} {s : State} (h : (f (me s)).r = (me s).r) (r : Reg) : gGet r (modMe f s) = gGet r s := by
  rw [gGet, me_modMe, h]
  rfl

/-! ## VSETL and VSETR (R201, R202, R351) -/

theorem popcount_eq_filter (n x : Nat) : popcount n x = ((List.range n).filter (fun i => x.testBit i)).length := by
  induction n with
  | zero => rfl
  | succ n ih =>
    unfold popcount at ih ⊢
    rw [List.range_succ, List.foldl_concat, ih, List.filter_append, List.length_append]
    cases h : x.testBit n <;> simp [b2n, h]

theorem grantOf_eq_lanesGranted (lset : BitVec 8) (s : State) : grantOf s lset = lanesGranted lset s := by
  unfold grantOf lanesGranted lgmax bitsOf
  rw [popcount_eq_filter, Nat.pow_zero, Nat.div_one]
  rfl

theorem exec_vsetl {s : State} (hc : (me s).capLeft = 0) (ew : BitVec 2) (d a : Reg) :
    let vg := lanesGranted (me s).lset s
    let n := min (gGet a s).toNat (vg * 256 / 2 ^ ew.toNat)
    exec (.vsetl ew d a) s = .next (retire 8 (setG d (BitVec.ofNat 64 n)
      (modMe (fun x => { x with vgrant := vg, vl := n }) s))) := by
  intro vg n
  show Host.Outcome.next (if _ then _ else _) = _
  rw [hc, if_neg (Nat.lt_irrefl 0)]
  dsimp only
  rw [grantOf_eq_lanesGranted]
  rfl

theorem exec_vsetr {s : State} (hc : (me s).capLeft = 0) (d a : Reg) :
    let n := min (max (gGet a s).toNat 1) (pwRcmax (coreOf s (coreNo s.cur)).pword + 1)
    exec (.vsetr d a) s = .next (retire 8 (setG d (BitVec.ofNat 64 n) (modMe (fun x => { x with rc := n }) s))) := by
  intro n
  show Host.Outcome.next (if _ then _ else _) = _
  rw [hc, if_neg (Nat.lt_irrefl 0)]
  rfl

theorem lengthAndRows : LengthAndRows := by
  intro s ew d a hc
  refine ⟨?_, ?_⟩
  · intro vg n
    have w := wroteOn_retire d (BitVec.ofNat 64 n) (modMe (fun x => { x with vgrant := vg, vl := n }) s)
    obtain ⟨r, e⟩ := w.me
    rw [me_modMe] at e
    refine ⟨_, exec_vsetl hc ew d a, ?_⟩
    rw [e]
    exact ⟨rfl, rfl, rfl, w.dest, fun r hr => (w.regs r hr).trans (gGet_modMe rfl r), rfl⟩
  · intro n
    have w := wroteOn_retire d (BitVec.ofNat 64 n) (modMe (fun x => { x with rc := n }) s)
    obtain ⟨r, e⟩ := w.me
    rw [me_modMe] at e
    refine ⟨_, exec_vsetr hc d a, ?_⟩
    rw [e]
    exact ⟨rfl, rfl, rfl, w.dest, fun r hr => (w.regs r hr).trans (gGet_modMe rfl r), rfl⟩

/-! ## The lane groups of a fork (R352) -/

/-- FORKL divides a lane set: the groups that go over are those of the upper half by their number. -/
theorem upperGroups_split : ∀ l : BitVec 8,
    l &&& ~~~upperGroups l ||| upperGroups l = l ∧ l &&& ~~~upperGroups l &&& upperGroups l = 0 ∧
    (∀ i j : Fin 8, (upperGroups l).getLsbD i = true → (l &&& ~~~upperGroups l).getLsbD j = true → j < i) ∧
    ((List.range 8).filter (fun i => (upperGroups l).getLsbD i)).length =
      ((List.range 8).filter (fun i => l.getLsbD i)).length / 2 := by
  decide

theorem upperGroups_above (l : BitVec 8) (i j : Nat) (hi : (upperGroups l).getLsbD i = true)
    (hj : (l &&& ~~~upperGroups l).getLsbD j = true) : j < i :=
  (upperGroups_split l).2.2.1 ⟨i, BitVec.lt_of_getLsbD hi⟩ ⟨j, BitVec.lt_of_getLsbD hj⟩ hi hj

/-- The hart that FORKL finds is another hart of the core (R207, R352). -/
theorem freeHart_ne {s : State} {h : Nat} (e : freeHart s = some h) : h ≠ s.cur := by
  obtain ⟨i, -, e⟩ := List.exists_of_findSome?_eq_some e
  dsimp only at e
  split at e
  next hc =>
    cases e
    exact hc.1
  · cases e

/-! ## LANES, FORKL and JOINL (R207, R352) -/

/-- The hart with VL 0 and the grant of the lane set `l`. -/
def regranted (l : BitVec 8) (vg : Nat) (x : Hart) : Hart := { x with lset := l, vl := 0, vgrant := vg }

theorem exec_lanes {s : State} (hq : Quiet s) (d a : Reg) :
    let m := (gGet a s).setWidth 8
    let l := if m = 0 then (me s).lset else m
    exec (.lanes d a) s = .next (retire 8 (setG d ((me s).lset.setWidth 64)
      (modMe (regranted l (lanesGranted l s)) s))) := by
  intro m l
  have hm : BitVec.ofNat 8 (gGet a s).toNat = m := BitVec.ofNat_toNat ..
  have hu : regrant (if m = 0 then s else modMe (fun x => { x with lset := m }) s) =
      modMe (regranted l (lanesGranted l s)) s := by
    by_cases h0 : m = 0
    · rw [if_pos h0, show l = (me s).lset from if_pos h0]
      exact modMe_congr _ _ _ (by rw [grantOf_eq_lanesGranted]; rfl)
    · rw [if_neg h0, show l = m from if_neg h0, regrant, modMe_modMe]
      exact modMe_congr _ _ _ (by rw [grantOf_eq_lanesGranted]; rfl)
  show Host.Outcome.next (scalarLong _ s) = _
  rw [scalarLong_of_quiet hq, sync_of_quiet hq]
  dsimp only
  rw [hm, hu, setGNat, BitVec.ofNat_toNat]

theorem lanesGranted_congr {s t : State} (h : t.pwrcap = s.pwrcap) (l : BitVec 8) : lanesGranted l t = lanesGranted l s := by
  unfold lanesGranted
  rw [h]

theorem lanes_sets {s : State} (hq : Quiet s) (d a : Reg) : let m := (gGet a s).setWidth 8
    ∃ t, exec (.lanes d a) s = .next t ∧ (me t).lset = (if m = 0 then (me s).lset else m) ∧ (me t).vl = 0 ∧
      (me t).vgrant = lanesGranted (me t).lset t ∧ gGet d t = (if d = 0 then 0 else (me s).lset.setWidth 64) ∧
      (me t).pc = (me s).pc + 8 ∧ RegsSameBut [d] s t := by
  intro m
  refine ⟨_, exec_lanes hq d a, ?_⟩
  have w := wroteOn_retire d ((me s).lset.setWidth 64) (modMe (regranted (if m = 0 then (me s).lset else m)
    (lanesGranted (if m = 0 then (me s).lset else m) s)) s)
  obtain ⟨r, e⟩ := w.me
  rw [me_modMe] at e
  rw [e, lanesGranted_congr w.pwrcap]
  exact ⟨rfl, rfl, rfl, w.dest, rfl, fun r hr => (w.regs r hr).trans (gGet_modMe rfl r)⟩

theorem popcount_lset (l : BitVec 8) : popcount 8 l.toNat = ((List.range 8).filter (fun i => l.getLsbD i)).length :=
  popcount_eq_filter 8 l.toNat

/-- The state in which FORKL has set hart `h` going on the upper half of the groups. -/
def forked (h : Nat) (off : BitVec 16) (s : State) : State :=
  setHart h (forkState s.cur (me s) (hartOf s h) (upperGroups (me s).lset) (lanesGranted (upperGroups (me s).lset) s)
    ((me s).pc + off.signExtend 64 * 4)) s

/-- The groups that are left to a hart that forks. -/
def keptGroups (s : State) : BitVec 8 := (me s).lset &&& ~~~upperGroups (me s).lset

theorem me_forked {h : Nat} {s : State} (hne : h ≠ s.cur) (off : BitVec 16) : me (forked h off s) = me s :=
  hartOf_setHart_other (Ne.symm hne) _ _

theorem cur_forked (h : Nat) (off : BitVec 16) (s : State) : (forked h off s).cur = s.cur := rfl

theorem pwrcap_modMe (f : Hart → Hart) (s : State) : (modMe f s).pwrcap = s.pwrcap := rfl

theorem pwrcap_forked (h : Nat) (off : BitVec 16) (s : State) : (forked h off s).pwrcap = s.pwrcap := rfl

theorem exec_forkl_of_free {s : State} {h : Nat} (hq : Quiet s) (hf : freeHart s = some h)
    (h2 : 2 ≤ ((List.range 8).filter (fun i => (me s).lset.getLsbD i)).length) (d : Reg) (off : BitVec 16) :
    exec (.forkl d off) s = .next (retire 8 (setG d (BitVec.ofNat 64 (h % 8))
      (modMe (regranted (keptGroups s) (lanesGranted (keptGroups s) s)) (forked h off s)))) := by
  have hm := me_forked (freeHart_ne hf) off
  have hu : regrant (modMe (fun x => { x with lset := x.lset &&& ~~~upperGroups (me s).lset }) (forked h off s)) =
      modMe (regranted (keptGroups s) (lanesGranted (keptGroups s) s)) (forked h off s) := by
    rw [regrant, modMe_modMe]
    refine modMe_congr _ _ _ ?_
    rw [hm, grantOf_eq_lanesGranted]
    rfl
  show Host.Outcome.next (scalarLong _ s) = _
  rw [scalarLong_of_quiet hq, sync_of_quiet hq, ← hu]
  dsimp only
  rw [hf]
  dsimp only
  rw [popcount_lset, if_pos h2, grantOf_eq_lanesGranted]
  rfl

theorem exec_forkl_of_none {s : State} (hq : Quiet s)
    (hn : freeHart s = none ∨ ((List.range 8).filter (fun i => (me s).lset.getLsbD i)).length < 2) (d : Reg) (off : BitVec 16) :
    exec (.forkl d off) s = .next (retire 8 (setG d (BitVec.allOnes 64) (modMe (fun x => { x with vl := 0 }) s))) := by
  show Host.Outcome.next (scalarLong _ s) = _
  rw [scalarLong_of_quiet hq, sync_of_quiet hq]
  dsimp only
  rw [popcount_lset]
  split
  next h hf => rw [if_neg (Nat.not_le_of_lt (hn.resolve_left (by rw [hf]; nofun)))]; rfl
  next => rfl

theorem forkl_gives {s : State} (hq : Quiet s) (d : Reg) (off : BitVec 16) (h : Nat) (hf : freeHart s = some h)
    (h2 : 2 ≤ ((List.range 8).filter (fun i => (me s).lset.getLsbD i)).length) :
    ∃ t, exec (.forkl d off) s = .next t ∧ (∃ r, me t = { me s with
        lset := keptGroups s, vl := 0, vgrant := lanesGranted (keptGroups s) s, pc := (me s).pc + 8
        stalled := 0, stallS := none, invWait := none, r := r }) ∧
      gGet d t = (if d = 0 then 0 else BitVec.ofNat 64 (h % 8)) ∧
      hartOf t h = hartOf (forked h off s) h ∧ t.pwrcap = s.pwrcap := by
  refine ⟨_, exec_forkl_of_free hq hf h2 d off, ?_⟩
  have w := wroteOn_retire d (BitVec.ofNat 64 (h % 8))
    (modMe (regranted (keptGroups s) (lanesGranted (keptGroups s) s)) (forked h off s))
  obtain ⟨r, e⟩ := w.me
  rw [me_modMe, me_forked (freeHart_ne hf)] at e
  have hc : h ≠ (forked h off s).cur := by
    rw [cur_forked]
    exact freeHart_ne hf
  have hp := w.pwrcap
  rw [pwrcap_modMe, pwrcap_forked] at hp
  exact ⟨⟨r, e⟩, w.dest, (w.others h hc).trans (hartOf_modMe_other _ _ hc), hp⟩

theorem hartOf_forked (h : Nat) (off : BitVec 16) (s : State) : hartOf (forked h off s) h =
    forkState s.cur (me s) (hartOf s h) (upperGroups (me s).lset) (lanesGranted (upperGroups (me s).lset) s)
      ((me s).pc + off.signExtend 64 * 4) := hartOf_setHart_same ..

/-! ### JOINL -/

theorem exec_joinl_of_halted {s : State} (hq : Quiet s) (a : Reg) : let h := 8 * coreNo s.cur + (gGet a s).toNat
    (gGet a s).toNat < 8 → h ≠ s.cur → (hartOf s h).forkedBy = some s.cur → (hartOf s h).run = .halted →
    let l := (me s).lset ||| (hartOf s h).lset
    exec (.joinl a) s = .next (retire 8 (setG 0 0 (modMe (regranted l (lanesGranted l s))
      (modHart h (fun x => { x with forkedBy := none }) s)))) := by
  intro h h8 hne hf hr l
  have hm : me (modHart h (fun x => { x with forkedBy := none }) s) = me s := hartOf_modHart_other (Ne.symm hne) _ _
  have hu : regrant (modMe (fun x => { x with lset := x.lset ||| (hartOf s h).lset })
      (modHart h (fun x => { x with forkedBy := none }) s)) =
      modMe (regranted l (lanesGranted l s)) (modHart h (fun x => { x with forkedBy := none }) s) := by
    rw [regrant, modMe_modMe]
    refine modMe_congr _ _ _ ?_
    rw [hm, grantOf_eq_lanesGranted]
    rfl
  show Host.Outcome.next (scalarLong _ s) = _
  rw [scalarLong_of_quiet hq, sync_of_quiet hq, ← hu]
  dsimp only
  rw [if_pos ⟨h8, hf⟩, if_pos hr]
  rfl

theorem cur_modHart (h : Nat) (f : Hart → Hart) (s : State) : (modHart h f s).cur = s.cur := rfl

theorem joinl_adds {s : State} (hq : Quiet s) (a : Reg) : let h := 8 * coreNo s.cur + (gGet a s).toNat
    (gGet a s).toNat < 8 → h ≠ s.cur → (hartOf s h).forkedBy = some s.cur → (hartOf s h).run = .halted →
    let l := (me s).lset ||| (hartOf s h).lset
    ∃ t, exec (.joinl a) s = .next t ∧ (∃ r, me t = { me s with
        lset := l, vl := 0, vgrant := lanesGranted l s, pc := (me s).pc + 8
        stalled := 0, stallS := none, invWait := none, r := r }) ∧
      RegsSameBut [] s t ∧ hartOf t h = { hartOf s h with forkedBy := none } := by
  intro h h8 hne hf hr l
  refine ⟨_, exec_joinl_of_halted hq a h8 hne hf hr, ?_⟩
  have w := wroteOn_retire 0 0 (modMe (regranted l (lanesGranted l s)) (modHart h (fun x => { x with forkedBy := none }) s))
  have hm : me (modHart h (fun x => { x with forkedBy := none }) s) = me s := hartOf_modHart_other (Ne.symm hne) _ _
  have hh : hartOf (modHart h (fun x => { x with forkedBy := none }) s) h = { hartOf s h with forkedBy := none } :=
    hartOf_modHart_same ..
  have hc : h ≠ (modHart h (fun x => { x with forkedBy := none }) s).cur := by
    rw [cur_modHart]
    exact hne
  have hg : ∀ r, gGet r (modHart h (fun x => { x with forkedBy := none }) s) = gGet r s := fun r => by
    rw [gGet, hm, gGet]
  generalize modHart h (fun x => { x with forkedBy := none }) s = u at *
  obtain ⟨r, e⟩ := w.me
  rw [me_modMe, hm] at e
  exact ⟨⟨r, e⟩, fun r _ => ((w.regs_of_zero r).trans (gGet_modMe rfl r)).trans (hg r),
    ((w.others h hc).trans (hartOf_modMe_other _ _ hc)).trans hh⟩

theorem exec_joinl_of_running {s : State} (hq : Quiet s) (a : Reg) : let h := 8 * coreNo s.cur + (gGet a s).toNat
    (gGet a s).toNat < 8 → (hartOf s h).forkedBy = some s.cur → (hartOf s h).run ≠ .halted →
    exec (.joinl a) s = .next s := by
  intro h h8 hf hr
  show Host.Outcome.next (scalarLong _ s) = _
  rw [scalarLong_of_quiet hq, sync_of_quiet hq]
  dsimp only
  rw [if_pos ⟨h8, hf⟩, if_neg hr]

theorem exec_joinl_of_other {s : State} (hq : Quiet s) (a : Reg) : let h := 8 * coreNo s.cur + (gGet a s).toNat
    8 ≤ (gGet a s).toNat ∨ (hartOf s h).forkedBy ≠ some s.cur →
    exec (.joinl a) s = .next (retire 8 (setG 0 0 (modMe (fun x => { x with vl := 0 }) s))) := by
  intro h ho
  show Host.Outcome.next (scalarLong _ s) = _
  rw [scalarLong_of_quiet hq, sync_of_quiet hq]
  dsimp only
  rw [if_neg (fun c => ho.elim (Nat.not_le_of_lt c.1) (absurd c.2))]
  rfl

theorem laneSharing : LaneSharing := by
  intro s hq
  refine ⟨lanes_sets hq, fun d off h hf h2 => ?_, fun d off hn => ?_, fun a => ⟨fun h8 hne hf hr => ?_,
    exec_joinl_of_running hq a, fun ho => ?_⟩⟩
  · obtain ⟨t, ht, ⟨r, e⟩, hd, hh, hp⟩ := forkl_gives hq d off h hf h2
    obtain ⟨hor, hand, -, hlen⟩ := upperGroups_split (me s).lset
    rw [hartOf_forked] at hh
    refine ⟨t, ht, ?_⟩
    rw [e, hh]
    exact ⟨rfl, hd, rfl, hor, hand, upperGroups_above _, hlen,
      rfl, rfl, rfl, rfl, rfl, rfl, rfl, rfl, rfl, rfl, rfl, rfl, rfl, rfl,
      (lanesGranted_congr hp _).symm⟩
  · have w := wroteOn_retire d (BitVec.allOnes 64) (modMe (fun x => { x with vl := 0 }) s)
    obtain ⟨r, e⟩ := w.me
    rw [me_modMe] at e
    refine ⟨_, exec_forkl_of_none hq hn d off, ?_⟩
    rw [e]
    exact ⟨rfl, rfl, rfl, fun r hr => (w.regs r hr).trans (gGet_modMe rfl r),
      fun k hk => (w.others k hk).trans (hartOf_modMe_other _ _ hk), w.dest, rfl⟩
  · obtain ⟨t, ht, ⟨r, e⟩, hregs, hh⟩ := joinl_adds hq a h8 hne hf hr
    refine ⟨t, ht, ?_⟩
    rw [e, hh]
    exact ⟨rfl, rfl, rfl, rfl, hregs⟩
  · have w := wroteOn_retire 0 0 (modMe (fun x => { x with vl := 0 }) s)
    obtain ⟨r, e⟩ := w.me
    rw [me_modMe] at e
    refine ⟨_, exec_joinl_of_other hq a ho, ?_⟩
    rw [e]
    exact ⟨rfl, rfl, rfl, rfl, fun r _ => (w.regs_of_zero r).trans (gGet_modMe rfl r),
      fun k hk => (w.others k hk).trans (hartOf_modMe_other _ _ hk)⟩

/-- Settles O20, by the lengths and by the lanes. -/
theorem lengthRowsAndLanes : Obligations.LengthRowsAndLanes := ⟨lengthAndRows, laneSharing⟩

end Sys2Proof.Machine

/-! Family 08, execution model: nests, capture and replay (O40). -/

namespace Sys2Proof.Machine

/-! ## The fields of a nest register (R375, R376) -/

/-- Stride `j` of a list of strides, at its place in a nest register. -/
def nestField (ss : List Nat) (j : Nat) : Nat := ss.getD j 0 % 2 ^ 48 * 2 ^ (48 + 48 * j)

theorem foldl_range_four (g : Nat → Nat) : (List.range 4).foldl (fun x j => x + g j) 0 = g 0 + g 1 + g 2 + g 3 := by
  simp [List.range_succ]

theorem mkNest_eq_fields (c : Nat) (ss : List Nat) : mkNest c ss = BitVec.ofNat 256 (c % 2 ^ 32 +
    (nestField ss 0 + nestField ss 1 + nestField ss 2 + nestField ss 3)) := by
  rw [← foldl_range_four (nestField ss)]
  rfl

theorem nestField_eq (ss : List Nat) :
    nestField ss 0 = ss.getD 0 0 % 2 ^ 48 * 2 ^ 48 ∧ nestField ss 1 = ss.getD 1 0 % 2 ^ 48 * 2 ^ 96 ∧
    nestField ss 2 = ss.getD 2 0 % 2 ^ 48 * 2 ^ 144 ∧ nestField ss 3 = ss.getD 3 0 % 2 ^ 48 * 2 ^ 192 :=
  ⟨rfl, rfl, rfl, rfl⟩

theorem mkNest_toNat (c : Nat) (ss : List Nat) : (mkNest c ss).toNat =
    c % 2 ^ 32 + ss.getD 0 0 % 2 ^ 48 * 2 ^ 48 + ss.getD 1 0 % 2 ^ 48 * 2 ^ 96 + ss.getD 2 0 % 2 ^ 48 * 2 ^ 144 +
      ss.getD 3 0 % 2 ^ 48 * 2 ^ 192 := by
  obtain ⟨h0, h1, h2, h3⟩ := nestField_eq ss
  rw [mkNest_eq_fields, BitVec.toNat_ofNat, h0, h1, h2, h3]
  omega

theorem nestCount_mkNest (c : Nat) (ss : List Nat) : nestCount (mkNest c ss) = c % 2 ^ 32 := by
  unfold nestCount bitsOf
  rw [mkNest_toNat]
  omega

theorem nestStride_mkNest (c : Nat) (ss : List Nat) {j : Nat} (hj : j < 4) :
    nestStride (mkNest c ss) j = signed 48 (ss.getD j 0 % 2 ^ 48) := by
  unfold nestStride bitsOf
  rw [mkNest_toNat]
  congr 1
  interval_cases j <;> omega

theorem getD_nestStrides (n : BitVec 256) {j : Nat} (hj : j < 4) :
    (nestStrides n).getD j 0 = bitsOf n.toNat (48 + 48 * j) 48 := by
  unfold nestStrides
  simp [List.getD_eq_getElem?_getD, hj]

theorem getD_lset {α : Type} (x d : α) (i : Nat) (l : List α) (hi : i < l.length) (j : Nat) :
    (lset x i l).getD j d = if j = i then x else l.getD j d := by
  induction l generalizing i j with
  | nil => exact absurd hi (Nat.not_lt_zero i)
  | cons y l ih =>
    match i, j with
    | 0, 0 => rfl
    | 0, j + 1 => rfl
    | i + 1, 0 => rfl
    | i + 1, j + 1 => simpa [lset] using ih i (Nat.lt_of_succ_lt_succ hi) j

/-! ## LNEST (R376) -/

/-- A 16-bit stride that is widened to 48 bits keeps its value. -/
theorem signed_wrapTo_sixteen (x : Nat) : signed 48 (wrapTo 48 (signed 16 x) % 2 ^ 48) = signed 16 x := by
  have h16 : signed 16 x < 2 ^ 15 ∧ -2 ^ 15 ≤ signed 16 x := by
    unfold signed
    dsimp only
    split <;> omega
  generalize signed 16 x = z at *
  unfold signed wrapTo
  dsimp only
  split <;> omega

theorem lnestVal_fields (op : NestOp) (x : Nat) (g : Reg → Nat) (old : BitVec 256) :
    nestCount (lnestVal op x g old) = (match op with
      | .stride _ => nestCount old
      | _ => x % 2 ^ 32) ∧
    ∀ j, j < 4 → nestStride (lnestVal op x g old) j = (match op with
      | .all r => intOf false 16 (g r / 2 ^ (16 * j) % 2 ^ 16)
      | .stride i => if j = i.toNat then intOf false 48 (x % 2 ^ 48) else nestStride old j
      | .cnt => nestStride old j) := by
  have kept (j : Nat) : signed 48 (bitsOf old.toNat (48 + 48 * j) 48 % 2 ^ 48) = nestStride old j := by
    rw [bitsOf, Nat.mod_mod]
    rfl
  cases op with
  | all r =>
    refine ⟨nestCount_mkNest .., fun j hj => (nestStride_mkNest _ _ hj).trans ?_⟩
    have hs : ((List.range 4).map (fun j => wrapTo 48 (signed 16 (bitsOf (g r) (16 * j) 16)))).getD j 0 =
        wrapTo 48 (signed 16 (bitsOf (g r) (16 * j) 16)) := by
      simp [List.getD_eq_getElem?_getD, hj]
    rw [hs, signed_wrapTo_sixteen, bitsOf, signed_eq_intOf (Nat.mod_lt _ (Nat.two_pow_pos 16))]
  | stride i =>
    refine ⟨?_, fun j hj => (nestStride_mkNest _ _ hj).trans ?_⟩
    · refine (nestCount_mkNest ..).trans (Nat.mod_eq_of_lt ?_)
      exact Nat.mod_lt _ (Nat.two_pow_pos 32)
    · have hi : i.toNat < (nestStrides old).length := by
        have := i.isLt
        simpa [nestStrides] using this
      rw [getD_lset _ _ _ _ hi, getD_nestStrides _ hj]
      dsimp only
      split
      · rw [Nat.mod_mod, signed_eq_intOf (Nat.mod_lt _ (Nat.two_pow_pos 48))]
      · exact kept j
  | cnt =>
    refine ⟨nestCount_mkNest .., fun j hj => (nestStride_mkNest _ _ hj).trans ?_⟩
    rw [getD_nestStrides _ hj]
    exact kept j

/-! ## Instructions that act at their push (R211; log 16) -/

/-- Outside a capture, and while the vector queue has room, such an instruction acts at once, and it may be queued. -/
theorem issueMark_of_room {s : State} (hc : (me s).capLeft = 0) (hr : (me s).vq.length < 64) (i : Instr) (f : State → State) :
    (∃ q, me (issueMark i f s) = { me (retire 8 (f s)) with vq := q }) ∧ (issueMark i f s).mem = (f s).mem := by
  unfold issueMark
  simp only [hc, Nat.lt_irrefl, if_false, Nat.not_le_of_lt hr]
  split
  · exact ⟨⟨_, rfl⟩, rfl⟩
  · exact ⟨⟨_, me_modMe _ _⟩, rfl⟩

theorem issueMark_of_full {s : State} (hc : (me s).capLeft = 0) (hr : 64 ≤ (me s).vq.length) (i : Instr) (f : State → State) :
    issueMark i f s = s := by
  unfold issueMark
  simp only [hc, Nat.lt_irrefl, if_false, hr, if_true]

/-- What LNEST does at its push. -/
def writeNest (nk : BitVec 3) (op : NestOp) (ga : Reg) (s : State) : State :=
  let v := lnestVal op (gGet ga s).toNat (fun r => (gGet r s).toNat) (nestOf (me s) nk.toNat)
  modMe (fun x => { x with r := { x.r with n := cset 0 nk.toNat v x.r.n } }) s

/-- LNEST writes its nest register and nothing else. -/
theorem lnest_writes {s : State} (hc : (me s).capLeft = 0) (hr : (me s).vq.length < 64) (nk : BitVec 3) (op : NestOp) (ga : Reg) :
    let new := lnestVal op (gGet ga s).toNat (fun r => (gGet r s).toNat) (nestOf (me s) nk.toNat)
    ∃ t q, exec (.lnest nk op ga) s = .next t ∧ t.mem = s.mem ∧ me t = { me s with
      pc := (me s).pc + 8, stalled := 0, stallS := none, invWait := none, vq := q
      r := { (me s).r with n := cset 0 nk.toNat new (me s).r.n } } := by
  intro new
  obtain ⟨⟨q, e⟩, hm⟩ := issueMark_of_room hc hr (.lnest nk op ga) (writeNest nk op ga)
  refine ⟨_, q, rfl, hm, e.trans ?_⟩
  rw [me_retire, writeNest, me_modMe]

theorem lcap_begins {s : State} (hc : (me s).capLeft = 0) (hr : (me s).vq.length < 64) (n : BitVec 6) :
    ∃ t q, exec (.lcap n) s = .next t ∧ t.mem = s.mem ∧ me t = { me s with
      pc := (me s).pc + 8, stalled := 0, stallS := none, invWait := none, vq := q, capLeft := n.toNat, body := [] } := by
  obtain ⟨⟨q, e⟩, hm⟩ := issueMark_of_room hc hr (.lcap n) (modMe (fun x => { x with capLeft := n.toNat, body := [] }))
  refine ⟨_, q, rfl, hm, e.trans ?_⟩
  rw [me_retire, me_modMe]

/-! ## An instruction met during a capture (R377) -/

/-- An instruction of registers that may be captured joins the body. -/
theorem issueV_of_capture {s : State} {k : Check} {n : Nat} (hc : (me s).capLeft = n + 1) (hp : Passes k s) {i : Instr}
    (hi : capturable i = true) (hm : isMemSlot i = false) (run : Perform) :
    (me (issueV k i run s)).capLeft = n ∧
    (me (issueV k i run s)).body = (me s).body ++ [(i, { captureCtx s with width := k.width })] ∧
    (me (issueV k i run s)).r = (me s).r ∧ (me (issueV k i run s)).pc = (me s).pc + 8 := by
  have hr : k.reason (me s) = none := hp
  have e : issueV k i run s = retire 8 (nextInConvoy (modMe (fun x => { x with
      capLeft := x.capLeft - 1, body := x.body ++ [(i, { captureCtx s with width := k.width })] }) s)) := by
    unfold issueV capture
    simp only [hr, hc, Nat.succ_pos, if_true, hi, hm, Bool.not_true, Bool.false_and, Bool.or_self, Bool.false_eq_true, if_false]
  rw [e, me_retire]
  unfold nextInConvoy
  split
  · rw [me_modMe, me_modMe]
    exact ⟨congrArg (· - 1) hc, rfl, rfl, rfl⟩
  · rw [me_modMe]
    exact ⟨congrArg (· - 1) hc, rfl, rfl, rfl⟩

/-! ## The binding of a replay (R218, R378) -/

/-- A row that comes first among rows in their order is what a binding by rows takes of them. -/
theorem span_first_row (c : LCtx) (r : Nat) (rs : List Nat) (hrs : ∀ k ∈ rs, r < k) :
    (tileOf c (r :: rs)).span (fun p => decide (p.1 ≤ r)) = (tileOf c [r], tileOf c rs) := by
  have first : ∀ p ∈ tileOf c [r], decide (p.1 ≤ r) = true := by
    simp [tileOf]
  have later : ∀ p ∈ tileOf c rs, decide (p.1 ≤ r) = false := by
    intro p hp
    obtain ⟨k, hk, hp⟩ := List.mem_flatMap.mp hp
    obtain ⟨e, -, rfl⟩ := List.mem_map.mp hp
    exact decide_eq_false (Nat.not_le_of_lt (hrs k hk))
  have split : tileOf c (r :: rs) = tileOf c [r] ++ tileOf c rs := by
    simp [tileOf]
  rw [split, List.span_eq_takeWhile_dropWhile, List.takeWhile_append_of_pos first, List.dropWhile_append_of_pos first]
  cases h : tileOf c rs with
  | nil => simp
  | cons p l =>
    have hp := later p (h ▸ List.mem_cons_self)
    rw [List.takeWhile_cons_of_neg (by simp [hp]), List.dropWhile_cons_of_neg (by simp [hp]), List.append_nil]

theorem due_by_row {c : LCtx} (hr : c.byRow = true) (hu : c.upto = 0) (r : Nat) (rs : List Nat) (hrs : ∀ k ∈ rs, r < k) :
    due c 0 (tileOf c (r :: rs)) = (tileOf c [r], tileOf c rs) := by
  rw [← span_first_row c r rs hrs]
  unfold due
  rw [hu, hr, if_neg (fun h => h rfl), if_pos rfl]
  cases hv : c.vl with
  | zero =>
    have none : ∀ l, tileOf c l = [] := fun l => by simp [tileOf, hv]
    rw [none]
    rfl
  | succ n =>
    have head : tileOf c (r :: rs) = (r, 0) :: (tileOf c (r :: rs)).tail := by
      simp [tileOf, hv, List.range_succ_eq_map]
    rw [head, List.find?_cons_of_pos (by simp)]

/-- The rows that a sweep visits after its first (R303). -/
def laterRows (row : Option (BitVec 3)) (rc : Nat) : List Nat :=
  match row with
  | some _ => []
  | none => (List.range rc).tail

theorem rowsOf_eq_cons {c : LCtx} (hrc : 1 ≤ c.rc) (row : Option (BitVec 3)) :
    rowsOf c row = (row.getD 0).toNat :: laterRows row c.rc := by
  cases row with
  | some r => rfl
  | none =>
    obtain ⟨n, hn⟩ := Nat.exists_eq_add_of_le' hrc
    simp [rowsOf, laterRows, hn, List.range_succ_eq_map]

theorem lt_of_mem_laterRows {row : Option (BitVec 3)} {rc k : Nat} (h : k ∈ laterRows row rc) : (row.getD 0).toNat < k := by
  cases row with
  | some r => exact absurd h (List.not_mem_nil)
  | none =>
    cases rc with
    | zero => exact absurd h (List.not_mem_nil)
    | succ n =>
      have h : k ∈ (List.range n).map Nat.succ := by simpa [laterRows, List.range_succ_eq_map] using h
      obtain ⟨m, -, rfl⟩ := List.mem_map.mp h
      exact Nat.succ_pos m

/-- The first row is the whole of a sweep: of one row, or of no element. -/
def OneRow (row : Option (BitVec 3)) (s : State) : Prop := row ≠ none ∨ (me s).rc = 1 ∨ (me s).vl = 0

theorem later_eq_nil_iff {c : LCtx} {s : State} (hvl : c.vl = (me s).vl) (hrc : c.rc = (me s).rc) (h1 : 1 ≤ c.rc)
    (row : Option (BitVec 3)) : tileOf c (laterRows row c.rc) = [] ↔ OneRow row s := by
  unfold OneRow
  rw [← hvl, ← hrc]
  cases row with
  | some r => simp [laterRows, tileOf]
  | none =>
    obtain ⟨n, hn⟩ := Nat.exists_eq_add_of_le' h1
    cases n with
    | zero => simp [laterRows, tileOf, hn]
    | succ n =>
      simp only [laterRows, tileOf, hn, List.range_succ_eq_map, List.map_cons, List.tail_cons, List.flatMap_cons,
        List.append_eq_nil_iff, List.map_eq_nil_iff, List.range_eq_nil, ne_eq, not_true_eq_false, false_or]
      refine ⟨fun h => .inr h.1, fun h => ?_⟩
      have hv : c.vl = 0 := h.resolve_left (by omega)
      exact ⟨hv, by simp [hv]⟩

/-- The first row of a VMOV. -/
def movOp (ew : BitVec 2) (vd va : Reg) (mask : MaskSel) (row : Option (BitVec 3)) (s : State) : ElemOp where
  vd := vd
  w := ewBits ew
  row := some (row.getD 0)
  mask := mask
  val k e := (vElem (me s) va.toNat k e (ewBits ew), 0)

/-- What VMOV does at a place. -/
def movElem (ew : BitVec 2) (vd va : Reg) (mask : MaskSel) (x : LCtx) (k i : Nat) (s : State) : MR Unit :=
  mbind (srcElem x va (.raw (ewBits ew)) k i s) fun v s =>
    .ok () (putIf (active (me s) mask k i) vd k i (ewBits ew) v s)

section
variable {ew : BitVec 2} {vd va : Reg} {mask : MaskSel} {row : Option (BitVec 3)} {s : State}

theorem movOp_ready (r : VecReady (ewBits ew) row s) :
    VecReady (movOp ew vd va mask row s).w (movOp ew vd va mask row s).row s := by
  obtain ⟨q, ub, lanes, fit, rows⟩ := r
  refine ⟨q, ub, lanes, fit, fun k hk => ?_⟩
  cases hk
  cases row with
  | some r => exact rows r rfl
  | none => exact lanes.2.1

theorem movOp_step (r : VecReady (ewBits ew) row s) (x : LCtx) {done rest : List (Nat × Nat)} {place : Nat × Nat}
    (split : sweepPlaces (movOp ew vd va mask row s).row s = done ++ place :: rest) :
    movElem ew vd va mask x place.1 place.2 ((movOp ew vd va mask row s).swept s s done) =
      .ok () ((movOp ew vd va mask row s).swept s s (done ++ [place])) := by
  have read := (movOp ew vd va mask row s).srcElem_swept rfl done (movOp_ready r) split (v := va) (o := .raw (ewBits ew))
    (fun _ => rfl) x
  rw [movElem, read]
  show MR.ok () _ = _
  rw [(movOp ew vd va mask row s).active_swept rfl]
  exact congrArg (MR.ok ()) ((movOp ew vd va mask row s).putIf_swept rfl done place.1 place.2)

/-- A VMOV bound by rows performs its first row, and is complete where that is the whole of its sweep. -/
theorem perfVmov_by_row (r : VecReady (ewBits ew) row s) {x : QEntry} (hx : x.vstart = 0) (hr : x.ctx.byRow = true)
    (hu : x.ctx.upto = 0) (hvl : x.ctx.vl = (me s).vl) (hrc : x.ctx.rc = (me s).rc) :
    let t := (movOp ew vd va mask row s).swept s s (sweepPlaces (movOp ew vd va mask row s).row s)
    (OneRow row s → perfVmov ew vd va mask row x (retire 8 s) = .done t) ∧
    (¬ OneRow row s → ∃ y, perfVmov ew vd va mask row x (retire 8 s) = .block y none t) := by
  intro t
  obtain ⟨-, ub, lanes, -⟩ := id r
  have h1 : 1 ≤ x.ctx.rc := hrc ▸ lanes.2.1
  have hd : due x.ctx 0 (tileOf x.ctx (rowsOf x.ctx row)) =
      (sweepPlaces (movOp ew vd va mask row s).row s, tileOf x.ctx (laterRows row x.ctx.rc)) := by
    rw [rowsOf_eq_cons h1, due_by_row hr hu _ _ fun k => lt_of_mem_laterRows]
    refine congrArg (·, _) ?_
    unfold tileOf sweepPlaces
    rw [hvl]
    rfl
  have hs : retire 8 s = (movOp ew vd va mask row s).swept s s [] := by
    rw [ElemOp.swept_nil, ← retire_eq_setHart]
  have run := fun fs hang fin => elemRun_swept (e := x) (body := movElem ew vd va mask x.ctx)
    (fun _ _ _ split => movOp_step r x.ctx split) hx fs hang fin (done := []) rfl
  have e : perfVmov ew vd va mask row x (retire 8 s) =
      whenDone (endBind x (tileOf x.ctx (laterRows row x.ctx.rc)) .done t) (consume [va]) := by
    unfold perfVmov sweepRegs elemLoop
    dsimp only
    rw [hx, hd, hs]
    exact congrArg (whenDone · _) (run _ _ _)
  rw [e, ← later_eq_nil_iff hvl hrc h1]
  refine ⟨fun h => ?_, fun h => ?_⟩
  · rw [h]
    exact congrArg LRes.done ((movOp ew vd va mask row s).consume_swept rfl _ ub [va])
  · cases hl : tileOf x.ctx (laterRows row x.ctx.rc) with
    | nil => exact absurd hl h
    | cons p l => exact ⟨_, rfl⟩
end

/-! ## A replay of one instruction (R378) -/

/-- The entry of an LRUN that is pushed in `s`. -/
def lrunEntry (q : Bool) (dims : BitVec 3) (s : State) : QEntry :=
  { freshEntry (.lrun q dims) { captureCtx s with nest := (List.range 6).map (nestOf (me s)) } with body := (me s).body }

theorem exec_lrun_of_quiet {s : State} (hq : Quiet s) (hb : (me s).body ≠ []) (q : Bool) (dims : BitVec 3) :
    exec (.lrun q dims) s = .next (afterV (perfLrun q dims (lrunEntry q dims s) (retire 8 s)) []) := by
  have hb : (me s).body.isEmpty = false := by simpa using hb
  show execLrun q dims s = _
  simp [execLrun, lrunEntry, prompt, nextInConvoy, hb, hq.vq, hq.mq, hq.pend, hq.cap, hq.conv, hq.late, hq.lanes]

/-- The replay goes on from where it stands, with an entry in the queue. -/
def GoesOn (r : LRes) (t : State) : Prop := ∃ y, r = .block y none t

section
variable {ew : BitVec 2} {vd va : Reg} {mask : MaskSel} {row : Option (BitVec 3)} {c : LCtx} {s : State} {q : Bool}
  (hb : (me s).body = [(.vmov ew vd va mask row, c)])

/-- A nest of no repetition is through at once. -/
theorem perfLrun_of_no_count (h0 : nestCount (nestOf (me s) 0) = 0) (u : State) :
    perfLrun q 1 (lrunEntry q 1 s) u = .done u := by
  unfold perfLrun
  extract_lets d counts
  have hcounts : counts = [nestCount (nestOf (me s) 0)] := rfl
  rw [if_pos (.inr (by rw [hcounts, h0]; rfl))]

theorem nextBody_of_last {e : QEntry} (hlen : e.body.length = 1) (n : Nat) (t : State) :
    (n = 1 → nextBody e (Replay.unpack []) [n] 1 1 q t = .done t) ∧
    (1 < n → GoesOn (nextBody e (Replay.unpack []) [n] 1 1 q t) t) := by
  have hb : ¬ (Replay.unpack []).b + 1 < e.body.length := by
    rw [hlen]
    exact Nat.lt_irrefl 1
  unfold nextBody
  extract_lets go
  rw [if_neg hb]
  refine ⟨?_, fun hn => ?_⟩
  · rintro rfl
    rfl
  · have hix : nextIx [n] (Replay.unpack []).ix = some [1, 0, 0, 0, 0, 0] := if_pos hn
    rw [hix]
    exact ⟨_, rfl⟩

include hb

/-- A nest of one dimension performs a binding of its one body instruction, then goes on while rows or positions are left. -/
theorem perfLrun_of_vmov (hc : c.conv = 0) (h0 : 0 < nestCount (nestOf (me s) 0)) :
    ∃ x : QEntry, x.vstart = 0 ∧ x.ctx.byRow = true ∧ x.ctx.upto = c.upto ∧ x.ctx.vl = c.vl ∧ x.ctx.rc = c.rc ∧
      ∀ u t,
      (perfVmov ew vd va mask row x u = .done t →
        (nestCount (nestOf (me s) 0) = 1 → perfLrun q 1 (lrunEntry q 1 s) u = .done t) ∧
        (1 < nestCount (nestOf (me s) 0) → GoesOn (perfLrun q 1 (lrunEntry q 1 s) u) t)) ∧
      (GoesOn (perfVmov ew vd va mask row x u) t → GoesOn (perfLrun q 1 (lrunEntry q 1 s) u) t) := by
  refine ⟨bodyEntry (lrunEntry q 1 s) (Replay.unpack []) 1 q (.vmov ew vd va mask row) c,
    rfl, rfl, rfl, rfl, rfl, fun u t => ?_⟩
  have hbody : (lrunEntry q 1 s).body = [(.vmov ew vd va mask row, c)] := hb
  have hlen : (lrunEntry q 1 s).body.length = 1 := congrArg List.length hbody
  unfold perfLrun
  extract_lets d counts r need
  have hcounts : counts = [nestCount (nestOf (me s) 0)] := rfl
  have hneed : need = false := by
    have none : decide (r.qs.length < slotCount (lrunEntry q 1 s).body) = false := by
      rw [hbody]
      rfl
    simp only [need, none, Bool.and_false, Bool.false_and]
  have hat : (lrunEntry q 1 s).body[r.b]? = some (.vmov ew vd va mask row, c) := by
    rw [hbody]
    rfl
  rw [if_neg (by rw [hcounts]; simp [d, replayDims]; omega), hneed, if_neg (by decide), hat]
  dsimp only
  rw [if_pos hc]
  refine ⟨fun h => ?_, fun ⟨y, h⟩ => ?_⟩
  · have hp : perfBody (.vmov ew vd va mask row) (bodyEntry (lrunEntry q 1 s) r d q (.vmov ew vd va mask row) c) u =
        .done t := h
    rw [hp]
    exact nextBody_of_last hlen _ t
  · have hp : perfBody (.vmov ew vd va mask row) (bodyEntry (lrunEntry q 1 s) r d q (.vmov ew vd va mask row) c) u =
        .block y none t := h
    rw [hp]
    exact ⟨_, rfl⟩

omit hb

/-- What an LRUN of one VMOV leaves, with the entries `l` in the queue: the first row moved. -/
theorem movOp_moved (r : VecReady (ewBits ew) row s) (l : List QEntry) :
    let t := modMe (fun x => { x with vq := l, stallV := none })
      ((movOp ew vd va mask row s).swept s s (sweepPlaces (movOp ew vd va mask row s).row s))
    ElemsAre vd (ewBits ew) (some (row.getD 0)) mask (fun k e => vElem (me s) va.toNat k e (ewBits ew)) s t ∧
      TailSame vd (ewBits ew) (some (row.getD 0)) s t ∧ (me t).vq = l ∧ (me t).pc = (me s).pc + 8 ∧ MemSame s t := by
  intro t
  have ht : t = _ := (movOp ew vd va mask row s).modMe_swept rfl _ _
  have hme : me t = _ := (congrArg me ht).trans (me_setHart_of_cur rfl _)
  have hr := congrArg Hart.r hme
  have hp := congrArg Hart.pc ((movOp ew vd va mask row s).hart_vecOnly s (sweepPlaces (movOp ew vd va mask row s).row s))
  have hpc : (me t).pc = (me (retire 8 s)).pc := (congrArg Hart.pc hme).trans hp
  refine ⟨(movOp ew vd va mask row s).elemsAre_of_hart (movOp_ready r) (fun k e => Nat.mod_lt _ (Nat.two_pow_pos _)) hr,
    (movOp ew vd va mask row s).tailSame_of_hart (movOp_ready r) hr, congrArg Hart.vq hme, ?_, memSame_of_mem ?_⟩
  · rw [hpc, me_retire]
  · rw [ht]
    rfl

/-- A replay of one VMOV moves its first row, and its entry leaves the queue when no row and no repetition is left. -/
theorem lrun_of_vmov (r : VecReady (ewBits ew) row s) (hb : (me s).body = [(.vmov ew vd va mask row, c)])
    (hvl : c.vl = (me s).vl) (hrc : c.rc = (me s).rc) (hc : c.conv = 0) (hu : c.upto = 0)
    (h0 : 0 < nestCount (nestOf (me s) 0)) :
    ∃ t, exec (.lrun q 1) s = .next t ∧
      ElemsAre vd (ewBits ew) (some (row.getD 0)) mask (fun k e => vElem (me s) va.toNat k e (ewBits ew)) s t ∧
      TailSame vd (ewBits ew) (some (row.getD 0)) s t ∧
      (nestCount (nestOf (me s) 0) = 1 ∧ OneRow row s → (me t).vq = []) ∧
      (¬ (nestCount (nestOf (me s) 0) = 1 ∧ OneRow row s) → (me t).vq.length = 1) ∧
      (me t).pc = (me s).pc + 8 ∧ MemSame s t := by
  obtain ⟨x, hx, hby, hxu, hxvl, hxrc, run⟩ := perfLrun_of_vmov (q := q) hb hc h0
  obtain ⟨whole, part⟩ := perfVmov_by_row (vd := vd) (va := va) (mask := mask) r hx hby
    (hxu.trans hu) (hxvl.trans hvl) (hxrc.trans hrc)
  obtain ⟨done, block⟩ := run (retire 8 s)
    ((movOp ew vd va mask row s).swept s s (sweepPlaces (movOp ew vd va mask row s).row s))
  have hex := exec_lrun_of_quiet r.1 (by simp [hb]) q 1
  by_cases h : nestCount (nestOf (me s) 0) = 1 ∧ OneRow row s
  · obtain ⟨helems, htail, hvq, hpc, hmem⟩ := movOp_moved (vd := vd) (va := va) (mask := mask) r []
    rw [(done (whole h.2)).1 h.1] at hex
    exact ⟨_, hex, helems, htail, fun _ => hvq, fun n => absurd h n, hpc, hmem⟩
  · have on : GoesOn (perfLrun q 1 (lrunEntry q 1 s) (retire 8 s)) ((movOp ew vd va mask row s).swept s s
        (sweepPlaces (movOp ew vd va mask row s).row s)) := by
      by_cases h1 : OneRow row s
      · exact (done (whole h1)).2 (Nat.lt_of_le_of_ne h0 fun e => h ⟨e.symm, h1⟩)
      · exact block (part h1)
    obtain ⟨y, hy⟩ := on
    obtain ⟨helems, htail, hvq, hpc, hmem⟩ := movOp_moved (vd := vd) (va := va) (mask := mask) r [y]
    rw [hy] at hex
    exact ⟨_, hex, helems, htail, fun n => absurd n h, fun _ => congrArg List.length hvq, hpc, hmem⟩
end

/-- Settles O40: LNEST and LCAP by `issueMark`, a capture by `issueV`, LRUN by its first binding. -/
theorem nestsAndReplay : Obligations.NestsAndReplay := by
  refine ⟨fun s nk op ga hc hr => ?_, fun s n hc hr => ?_,
    fun s o n hc hp => ⟨_, rfl, issueV_of_capture hc hp rfl rfl _⟩,
    fun s nk op ga n hc hr => ⟨?_, ?_⟩,
    fun s q ew vd va mask row c hv hb hvl hrc hconv hupto => ⟨fun h0 => ?_, fun h0 => ?_⟩,
    fun s hq => ?_⟩
  · obtain ⟨t, q, ht, hmem, hme⟩ := lnest_writes hc hr nk op ga
    have hn : (me t).r.n = cset 0 nk.toNat (lnestVal op (gGet ga s).toNat (fun r => (gGet r s).toNat)
        (nestOf (me s) nk.toNat)) (me s).r.n := by rw [hme]
    have hg : (me t).r.g = (me s).r.g := by rw [hme]
    refine ⟨t, ht, by rw [hme], fun r _ => by rw [gGet, hg, gGet], memSame_of_mem hmem, fun k hk => ?_, ?_⟩
    · rw [nestOf, hn, cget_cset_other _ hk]
      rfl
    · rw [nestOf, hn, cget_cset_same]
      exact lnestVal_fields op (gGet ga s).toNat (fun r => (gGet r s).toNat) (nestOf (me s) nk.toNat)
  · obtain ⟨t, q, ht, hmem, hme⟩ := lcap_begins hc hr n
    exact ⟨t, ht, by rw [hme], by rw [hme], by rw [hme], by rw [hme], memSame_of_mem hmem⟩
  · exact congrArg Host.Outcome.next (issueMark_of_full hc hr _ _)
  · exact congrArg Host.Outcome.next (issueMark_of_full hc hr _ _)
  · refine ⟨_, exec_lrun_of_quiet hv.1 (by simp [hb]) q 1, ?_⟩
    rw [perfLrun_of_no_count h0, afterV_done, me_modMe, me_retire]
    exact ⟨rfl, rfl, rfl⟩
  · exact lrun_of_vmov hv hb hvl hrc hconv hupto h0
  · exact congrArg Host.Outcome.next ((scalarLong_of_quiet hq _).trans
      ((sync_of_quiet hq _ _).trans (retire_eq_afterScalar_zero 8 s)))

end Sys2Proof.Machine

/-! Family 08, execution model: the matrix unit's control instructions (O41). -/

namespace Sys2Proof.Machine

/-- A complete MPRED.all leaves no stall of the matrix queue's head noted, since the queue is empty then (R211). -/
theorem mpredAll_clears_stallM {s : State} (q : Quiet s) : ∃ t, exec .mpredAll s = .next t ∧ (me t).stallM = none := by
  refine ⟨_, congrArg Host.Outcome.next (issueM_of_quiet q (passes_none s) .mpredAll perfMpredAll), ?_⟩
  rw [perfMpredAll, afterM_done, me_modMe]

/-- A quiet hart, its matrix queue empty, with the stall of a former head still noted. -/
def staleStall : State :=
  setHart 0 { Hart.reset with
    stallM := some { flt := qHang 2 0 0, lpc := 0, elem := 0, stream := 2, fs := mNoStream } } State.reset

theorem quiet_staleStall : Quiet staleStall :=
  ⟨rfl, rfl, rfl, rfl, rfl, rfl, rfl, rfl, rfl, by decide⟩

/-- Refutes O41: its clause Predicates says that nothing of the hart changes but the predicate, also where a stall of the
matrix queue's head is still noted though the queue is empty, as `Quiet` allows; the completion of an MPRED clears that note
(`afterM`), so that the state after MPRED.all is not the one that the clause names. -/
theorem not_matrixControl : ¬ Obligations.MatrixControl := by
  rintro ⟨-, -, predicates, -⟩
  obtain ⟨-, -, -, -, -, all⟩ := predicates staleStall 0 0 quiet_staleStall
  obtain ⟨t, run, clear⟩ := mpredAll_clears_stallM quiet_staleStall
  have same : t = _ := Host.Outcome.next.inj (run.symm.trans all)
  rw [same, afterMatrix, me_modMe] at clear
  exact absurd clear (by decide)

end Sys2Proof.Machine
